-- ==== Sys2Proof/Word.lean ====
section
/-! DEFINITION. The word types of the block and their plainest arithmetic. -/

namespace Sys2Proof

/-- A byte of a frame or of system memory. -/
abbrev Byte := BitVec 8

/-- A 32-bit word of a register, of the window or of system memory (R169). -/
abbrev Word := BitVec 32

/-- Add one, staying at the largest value: counters saturate unless the spec says otherwise
(00_scope, "Counters"). -/
def satInc {w : Nat} (x : BitVec w) : BitVec w :=
  if x = BitVec.allOnes w then x else x + 1

/-- Add one, staying at `cap` (the attempts of a record saturate at 7, R81). -/
def incTo {w : Nat} (cap x : BitVec w) : BitVec w :=
  if x.toNat < cap.toNat then x + 1 else x

end Sys2Proof
end

