-- ==== Sys2Proof/Syntax.lean ====
section
/-! DEFINITION. The commands of the block: one constructor per row of spec/opcode_table.json. -/

namespace Sys2Proof

/-- The two field loops (00_scope, "Loops"). -/
inductive LoopId where
  | A
  | B
deriving DecidableEq, Repr

/-- How a host command comes to its loop engine (R159): by a CONTROL write that is taken now and whose
field for the other loop is `other`, or out of the slot of the CONTROL latch, where an earlier write
put it. -/
inductive CommandPath where
  | written (other : BitVec 4)
  | latched
deriving DecidableEq, Repr

/-- The commands. `dt` is the number of CLK periods (40 ns) that have passed since the command before
(log 1). -/
inductive Instr where
  /-- START taken by the engine of loop `l` (R126). -/
  | start (dt : Nat) (l : LoopId) (via : CommandPath)
  /-- STOP taken by the engine of loop `l` (R130). -/
  | stop (dt : Nat) (l : LoopId) (via : CommandPath)
  /-- QUIET taken by the engine of loop `l` (R128). -/
  | quiet (dt : Nat) (l : LoopId) (via : CommandPath)
  /-- WAKE taken by the engine of loop `l` (R148). -/
  | wake (dt : Nat) (l : LoopId) (via : CommandPath)
  /-- ROLLCALL taken by the engine of loop `l` (R137). -/
  | rollcall (dt : Nat) (l : LoopId) (via : CommandPath)
  /-- RETIME taken by the engine of loop `l` (R61). -/
  | retime (dt : Nat) (l : LoopId) (via : CommandPath)
  /-- TEST taken by the engine of loop `l` (R151). -/
  | lineTest (dt : Nat) (l : LoopId) (via : CommandPath)
  /-- A command field with the undefined code `code` (8 to 15) taken by loop `l` (R159). -/
  | undefinedCommand (dt : Nat) (l : LoopId) (code : BitVec 4) (via : CommandPath)
  /-- A CONTROL write with the soft-reset bit; `fields` are its two command fields (R159, R166). -/
  | softReset (dt : Nat) (fields : BitVec 8)
  /-- The soft reset ends (R166, R167). -/
  | softResetComplete (dt : Nat)
  /-- A write of AREA (R158). -/
  | areaWrite (dt : Nat) (value : Word)
  /-- A write of CAUSE (R163). -/
  | causeWrite (dt : Nat) (value : Word)
  /-- A write of MASK (R163). -/
  | maskWrite (dt : Nat) (value : Word)
  /-- A write of WINDOW_POINTER (R161). -/
  | windowPointerWrite (dt : Nat) (value : Word)
  /-- A read of WINDOW_DATA (R161, R162). -/
  | windowDataRead (dt : Nat)
  /-- A write of WINDOW_DATA (R161, R162). -/
  | windowDataWrite (dt : Nat) (value : Word)
  /-- A write to an offset that names no register (R157). -/
  | registerWriteOther (dt : Nat) (offset : Word) (value : Word)
  /-- RESET_N becomes active; `landed` marks the bytes of a write in progress that had been written
  (byte i at bit i, R168). -/
  | resetNAssert (dt : Nat) (landed : BitVec 128)
  /-- RESET_N becomes inactive (R168). -/
  | resetNRelease (dt : Nat)
  /-- BIAS_OK of loop `l` goes absent (R133). -/
  | biasOkLoss (dt : Nat) (l : LoopId)
  /-- BIAS_OK of loop `l` becomes present (R133). -/
  | biasOkRestore (dt : Nat) (l : LoopId)
  /-- A start bit after 2 C or more of mark (R13). -/
  | activityStart (dt : Nat) (l : LoopId)
  /-- The stop bit of a character ends on the receiver's input; `stopOk` is false when it was sampled
  at the space level (R4, R5). -/
  | characterReceived (dt : Nat) (l : LoopId) (value : Byte) (stopOk : Bool)
  /-- The line has been at mark for 2 C (R2). -/
  | activityEnd (dt : Nat) (l : LoopId)
  /-- The line has been at mark for 4 C (R2). -/
  | lineIdle (dt : Nat) (l : LoopId)
  /-- The frame-end event of the frame the receiver has collected (R11). -/
  | frameEnd (dt : Nat) (l : LoopId)
  /-- A bit read back differs from the bit sent (R12). -/
  | collision (dt : Nat) (l : LoopId)
  /-- The last stop bit of a frame the part sent (R13). -/
  | endOfFrame (dt : Nat) (l : LoopId)
  /-- The reply timeout expires; `underWay` says that a character is being received (R76). -/
  | replyTimeout (dt : Nat) (l : LoopId) (underWay : Bool)
  /-- The cycle timer marks a boundary (R59). -/
  | gridPoint (dt : Nat) (l : LoopId)
  /-- The Scheduler takes the marked boundary (R60). -/
  | boundaryTaken (dt : Nat) (l : LoopId)
  /-- The announce window starts (R72). -/
  | announceWindowStart (dt : Nat) (l : LoopId)
  /-- The Scheduler begins the next turn (R64). -/
  | turn (dt : Nat) (l : LoopId)
  /-- The draining work has ended; the settlements begin (R129). -/
  | drainSettlement (dt : Nat) (l : LoopId)
  /-- Roll-call makes its next ROLL attempt (R138). -/
  | rollAttempt (dt : Nat) (l : LoopId)
  /-- The keepalive timer reaches the interval (R143). -/
  | keepaliveTimer (dt : Nat) (l : LoopId)
  /-- The CARRIER criterion is met (R133). -/
  | carrierCriterion (dt : Nat) (l : LoopId)
  /-- The JAM criterion is met (R133). -/
  | jamCriterion (dt : Nat) (l : LoopId)
  /-- The ERRORS criterion is met (R132). -/
  | errorsCriterion (dt : Nat) (l : LoopId)
  /-- The SILENCE criterion is met (R132). -/
  | silenceCriterion (dt : Nat) (l : LoopId)
  /-- The down hold has passed (R136). -/
  | downHoldExpiry (dt : Nat) (l : LoopId)
  /-- BIAS_OK has been present for 100 ms after the down hold (R136). -/
  | downRecovery (dt : Nat) (l : LoopId)
  /-- The line has rested at mark for the jam release time (R136). -/
  | jamRelease (dt : Nat) (l : LoopId)
  /-- The transfer in progress ends; `hostWrites` are the bytes the host has written to system memory
  since the last transfer, in order (R164; log 5). -/
  | transferComplete (dt : Nat) (hostWrites : List (BitVec 32 × Byte))
  /-- The transfer in progress ends with a bus error; `landed` marks the bytes of a failed write that
  were written, `grantFirst` says that the next grant is taken before the FAULT (R165). -/
  | busError (dt : Nat) (hostWrites : List (BitVec 32 × Byte)) (landed : BitVec 128) (grantFirst : Bool)
deriving DecidableEq, Repr

end Sys2Proof
end

