-- ==== Sys2Proof/WellFormed.lean ====
section
/-! DEFINITION. Which terms of Instr are commands of the block: the operand checks of the spec. -/

namespace Sys2Proof

/-- An undefined command code is one of 8 to 15 (12_formats, "Registers"). -/
def undefinedCode (code : BitVec 4) : Bool := code.msb

/-- The six register offsets (12_formats, "Registers"). -/
def registerOffset (offset : Word) : Bool :=
  offset == 0x00 || offset == 0x04 || offset == 0x08 || offset == 0x0C || offset == 0x10 || offset == 0x14

/-- The well-formed commands: UNDEFINED_COMMAND carries an undefined code (R159), and
REGISTER_WRITE_OTHER an offset that names no register (R157). Every other operand is free. -/
def Instr.wellFormed : Instr → Bool
  | .undefinedCommand _ _ code _ => undefinedCode code
  | .registerWriteOther _ offset _ => !registerOffset offset
  | .start .. | .stop .. | .quiet .. | .wake .. | .rollcall .. | .retime .. | .lineTest .. => true
  | .softReset .. | .softResetComplete .. | .areaWrite .. | .causeWrite .. | .maskWrite .. => true
  | .windowPointerWrite .. | .windowDataRead .. | .windowDataWrite .. => true
  | .resetNAssert .. | .resetNRelease .. | .biasOkLoss .. | .biasOkRestore .. => true
  | .activityStart .. | .characterReceived .. | .activityEnd .. | .lineIdle .. | .frameEnd .. => true
  | .collision .. | .endOfFrame .. | .replyTimeout .. | .gridPoint .. | .boundaryTaken .. => true
  | .announceWindowStart .. | .turn .. | .drainSettlement .. | .rollAttempt .. => true
  | .keepaliveTimer .. | .carrierCriterion .. | .jamCriterion .. | .errorsCriterion .. => true
  | .silenceCriterion .. | .downHoldExpiry .. | .downRecovery .. | .jamRelease .. => true
  | .transferComplete .. | .busError .. => true

end Sys2Proof
end

