-- ==== Sys2Proof/Config.lean ====
section
/-! DEFINITION. What the part fixes: its clock, its times, its codes and its capacities. The spec leaves
no value to the implementation, so there is no free value here. -/

namespace Sys2Proof.Config

/-- CLK periods in one microsecond: CLK is 25 MHz (12_formats, "Pins and signal levels"). -/
def clkPerUs : Nat := 25

/-- CLK periods in the 100 µs unit of the timing group and of the reply timeout (R22, R25). -/
def clkPer100us : Nat := 100 * clkPerUs

/-- CLK periods in the 10 µs unit of latencies (R92). -/
def clkPer10us : Nat := 10 * clkPerUs

/-- CLK periods in a millisecond. -/
def clkPerMs : Nat := 1000 * clkPerUs

/-- The character time C in CLK periods by bit rate code (R1): 200, 100, 40 or 20 µs. The codes above 3
name no rate and are never latched (R126, R151). -/
def charTime (rate : Byte) : Nat :=
  if rate = 0 then 200 * clkPerUs
  else if rate = 1 then 100 * clkPerUs
  else if rate = 2 then 40 * clkPerUs
  else 20 * clkPerUs

/-- The carrier measure that meets the CARRIER criterion: 20 ms (R133). -/
def carrierLimit : Nat := 20 * clkPerMs

/-- The BIAS_OK presence that ends DOWN: 100 ms (R136). -/
def presenceLimit : Nat := 100 * clkPerMs

/-- The reply timeout of a TEST frame: 25.5 ms (R153). -/
def testReplyTimeout : Nat := 255 * clkPer100us

/-- The lead character of a frame (R3). -/
def lead : Byte := 0xA5

/-- The link value END (R28). -/
def linkEnd : BitVec 10 := 1023

/-- Part code 0x2408 and revision 1: word 0 of window space 0 (R170). -/
def identityWord : Word := 0x00012408

/-- 2 loops, 64 stations, 8 relay entries, 16 filters: word 1 of window space 0 (R162, R170). -/
def capacityWord : Word := 0x10084002

/-- 15 groups, 1023 pool records: word 2 of window space 0 (R162, R170). -/
def poolWord : Word := 0x03FF000F

/-- How many acts other than transfers a requester's procedure may make between two transfers in one
step (log 25). The longest chain of the spec's procedures is a roster scan that changes nothing: 64
judgements and the steps of the boundary around them. -/
def actBound : Nat := 200

end Sys2Proof.Config
end

