-- ==== Sys2Proof/Machine/State.lean ====
section
/-! DEFINITION. Everything the spec gives the block to hold, as plain data, and the state after reset. -/

namespace Sys2Proof.Machine

open Sys2Proof

/-- Position of a station's entry in the station table (R25). -/
abbrev StationIx := Fin 64

/-- Index of a pool record; END is 1023 (R28). -/
abbrev RecordIx := BitVec 10

/-! ### Names of codes (12_formats, "State and reason codes") -/

/-- The ten loop states (R124). -/
inductive LoopState where
  | off | starting | rollcall | running | draining | quiet | down | jammed | test | fault
deriving DecidableEq, Repr

/-- The drain target (R124). -/
inductive DrainTarget where
  | off | quiet
deriving DecidableEq, Repr

/-- The return target (R124). -/
inductive ReturnTarget where
  | quiet | off | rollcall | running
deriving DecidableEq, Repr

/-- The down reason (R23). -/
inductive DownReason where
  | none | errors | silence | carrier | jam
deriving DecidableEq, Repr

/-- The start error code (R23). -/
inductive StartError where
  | none | pool | rate | timing | test
deriving DecidableEq, Repr

/-- The RETIME result (R23). -/
inductive RetimeResult where
  | none | adopted | refused
deriving DecidableEq, Repr

/-- The seven station states (R39). -/
inductive StationState where
  | disabled | rejected | ready | active | silent | absent | halted
deriving DecidableEq, Repr

/-- The phase of a record in hand (R26, R83, R101). -/
inductive RecordPhase where
  | none | first | retry | probe | relayStart | relayCollect
deriving DecidableEq, Repr

/-- The reason code of a station (R26). -/
inductive ReasonCode where
  | none | host | refused | badLink | duplicate | field
deriving DecidableEq, Repr

/-- The outcome of a work record (R32). -/
inductive RecordOutcome where
  | ok | held | noAnswer | refused | overlong | missed | halted | disabled | stopped | lineLost
  | relayLost | badRecord
deriving DecidableEq, Repr

/-- The class of a station (R25). -/
inductive StationClass where
  | periodic | aperiodic
deriving DecidableEq, Repr

/-- The sixteen causes of a loop (R163). -/
inductive Cause where
  | exdone | exfault | catch_ | starved | wake | down | up | jam | overrun | halted | trap | rolldone
  | testdone | refused | busfault | reject
deriving DecidableEq, Repr

/-- The sixteen frame kinds (R8). -/
inductive FrameKind where
  | echo | beacon | poll | put | probe | relayStart | relayCollect | roll | test | data | ack | hold
  | refuse | ready | present | announce
deriving DecidableEq, Repr

/-- The cycle phases (04, "Cycle phases"). -/
inductive CyclePhase where
  | none | boundary | beacon | periodic | aperiodic | closed
deriving DecidableEq, Repr

/-! ### Stations -/

/-- The host half of a station table entry, field by field as it lies in memory (R25, 12_formats). -/
structure StationHost where
  enable : Bool
  loop : LoopId
  cls : StationClass
  acceptAnnounce : Bool
  wake : Bool
  halt : Bool
  lineAddress : Byte
  coupler : Byte
  releaseCount : Byte
  intervalCode : Byte
  phase : Byte
  maxReply : Byte
  replyTimeout : Byte
  retryLimit : Byte
  collectDelay : Byte
  patience : Byte
  chainHead : RecordIx
deriving DecidableEq, Repr

/-- All fields zero. -/
def StationHost.zero : StationHost :=
  { enable := false, loop := .A, cls := .periodic, acceptAnnounce := false, wake := false, halt := false,
    lineAddress := 0, coupler := 0, releaseCount := 0, intervalCode := 0, phase := 0, maxReply := 0,
    replyTimeout := 0, retryLimit := 0, collectDelay := 0, patience := 0, chainHead := 0 }

/-- The binding of a station, latched at admission (R39, R43). `coupler` is 0xFF for none (R169). -/
structure Binding where
  loop : LoopId
  cls : StationClass
  lineAddress : Byte
  coupler : Byte
deriving DecidableEq, Repr

/-- The fresh fields of a station: what the last scan took (R39, R48). -/
structure Fresh where
  intervalCode : Byte
  phase : Byte
  maxReply : Byte
  replyTimeout : Byte
  retryLimit : Byte
  acceptAnnounce : Bool
  wake : Bool
  halt : Bool
  releaseCount : Byte
  chainHead : RecordIx
  collectDelay : Byte
  patience : Byte
deriving DecidableEq, Repr

/-- The copy of a work record that the part keeps while it is in hand (R34). -/
structure RecordCopy where
  kind : Byte
  notify : Bool
  strict : Bool
  requestLength : Byte
  holdLimit : Byte
  request : List Byte
deriving DecidableEq, Repr

/-- A station context (R39): owner, state, binding, fresh fields, the reported fields of R26, the record
copy and the counts of the record in hand. -/
structure Context where
  owner : Option LoopId
  state : StationState
  binding : Binding
  fresh : Fresh
  phase : RecordPhase
  reason : ReasonCode
  failures : Byte
  txSeq : Bool
  rxSeq : Bool
  syncPending : Bool
  present : Bool
  parked : Option RecordIx
  inHand : Option RecordIx
  completed : BitVec 16
  missCount : Byte
  duplicates : Byte
  maxLatency : BitVec 16
  latchedRelease : Byte
  copy : Option RecordCopy
  recAttempts : Byte
  recHolds : Byte
  recDuplicates : Byte
  recLatency : BitVec 16
deriving DecidableEq, Repr

/-- A context after a reset (R39). -/
def Context.reset : Context :=
  { owner := none, state := .disabled,
    binding := { loop := .A, cls := .periodic, lineAddress := 0, coupler := 0 },
    fresh := { intervalCode := 0, phase := 0, maxReply := 0, replyTimeout := 0, retryLimit := 0,
               acceptAnnounce := false, wake := false, halt := false, releaseCount := 0, chainHead := 0,
               collectDelay := 0, patience := 0 },
    phase := .none, reason := .none, failures := 0, txSeq := false, rxSeq := false, syncPending := false,
    present := false, parked := none, inHand := none, completed := 0, missCount := 0, duplicates := 0,
    maxLatency := 0, latchedRelease := 0, copy := none, recAttempts := 0, recHolds := 0,
    recDuplicates := 0, recLatency := 0 }

/-! ### Shared stores -/

/-- The phase of a relay entry (R98). -/
inductive RelayPhase where
  | starting | collecting
deriving DecidableEq, Repr

/-- A relay entry in use (R98). -/
structure RelayEntry where
  loop : LoopId
  coupler : StationIx
  station : StationIx
  record : RecordIx
  phase : RelayPhase
  startCycle : Word
  waiting : Byte
deriving DecidableEq, Repr

/-- The scope of a pattern filter; code 3 names none (R114, R170). -/
inductive FilterScope where
  | announce | wake | both | unnamed
deriving DecidableEq, Repr

/-- The address qualifier of a pattern filter (R115). -/
inductive Qualifier where
  | any | toConcentrator | groupListed | knownSource
deriving DecidableEq, Repr

/-- A pattern filter (R114). -/
structure Filter where
  enable : Bool
  scope : FilterScope
  qualifier : Qualifier
  offset : BitVec 7
  mask : BitVec 64
  expected : BitVec 16
  triggered : Bool
  matchCount : Byte
deriving DecidableEq, Repr

/-- A filter after power-on reset (R114). -/
def Filter.reset : Filter :=
  { enable := false, scope := .announce, qualifier := .any, offset := 0, mask := 0, expected := 0,
    triggered := false, matchCount := 0 }

/-- An entry of the group table (R113). -/
structure GroupEntry where
  announceAccept : Bool
  wake : Bool
deriving DecidableEq, Repr

/-- The wake configuration (R141). -/
structure WakeConfig where
  wakeOnEnergy : Bool
  wakeAllCall : Bool
  allCallAccept : Bool
  setupComplete : Bool
deriving DecidableEq, Repr

/-- Why a loop woke (R147). -/
inductive WakeReason where
  | host | energy | marker | station | group | allCall | filter
deriving DecidableEq, Repr

/-- A FILLED wake record (R147). -/
structure WakeRecord where
  reason : WakeReason
  source : Byte
  destination : Byte
  filter : Option (Fin 16)
  triggered : BitVec 16
deriving DecidableEq, Repr

/-- The Screening Store (R113, R114, R141, R147). A wake record that is `none` is EMPTY. -/
structure ScreeningStore where
  filters : Vector Filter 16
  groups : Vector GroupEntry 15
  wakeConfig : WakeConfig
  wakeA : Option WakeRecord
  wakeB : Option WakeRecord
deriving DecidableEq, Repr

/-- The Screening Store after power-on reset (R168). -/
def ScreeningStore.reset : ScreeningStore :=
  { filters := Vector.replicate 16 Filter.reset
    groups := Vector.replicate 15 { announceAccept := false, wake := false }
    wakeConfig := { wakeOnEnergy := false, wakeAllCall := false, allCallAccept := false,
                    setupComplete := false }
    wakeA := none, wakeB := none }

/-- The test status (R150). -/
inductive TestStatus where
  | none | running | complete | stopped | abandoned
deriving DecidableEq, Repr

/-- The Test Pattern Unit (R150). The generator holds stage k at bit k - 1. -/
structure TestUnit where
  owner : Option LoopId
  status : TestStatus
  generator : BitVec 15
  copy : List Byte
  sent : BitVec 16
  intact : BitVec 16
  lost : BitVec 16
  mismatched : BitVec 16
deriving DecidableEq, Repr

/-- The Test Pattern Unit after a reset (R150). -/
def TestUnit.reset : TestUnit :=
  { owner := none, status := .none, generator := BitVec.allOnes 15, copy := [], sent := 0, intact := 0,
    lost := 0, mismatched := 0 }

/-! ### The line -/

/-- What a frame the part sends is for (R12). -/
inductive TxPurpose where
  | beacon | keepalive | request | test
deriving DecidableEq, Repr

/-- A frame handed to the Framer; its source is always 0 (R7). -/
structure TxFrame where
  purpose : TxPurpose
  destination : Byte
  control : Byte
  payload : List Byte
deriving DecidableEq, Repr

/-- A frame being sent: when it began, and how many of its characters have been read back (R12). -/
structure Sending where
  frame : TxFrame
  start : Nat
  readBack : Nat
deriving DecidableEq, Repr

/-- The receiver of a Framer (R4); FRAME carries the characters collected, the lead first. -/
inductive Receiver where
  | hunt
  | frame (chars : List Byte)
  | discard
  | readback
deriving DecidableEq, Repr

/-- A Line Framer (R2, R4, R14). `activity` is the start of the jam measure while line activity lasts
(R133); `markSince` the end of the last stop bit on the line (R2). -/
structure Framer where
  running : Bool
  receiver : Receiver
  held : Option TxFrame
  sending : Option Sending
  activity : Option Nat
  markSince : Nat
deriving DecidableEq, Repr

/-- A Framer that is stopped (R14). -/
def Framer.stopped : Framer :=
  { running := false, receiver := .discard, held := none, sending := none, activity := none, markSince := 0 }

/-- The frame of an attempt (R83, R101, R138, R153). -/
inductive AttemptKind where
  | poll | put | probe | relayStart | relayCollect | roll | test
deriving DecidableEq, Repr

/-- The states of an Exchange Unit (R74). -/
inductive ExchangeState where
  | idle | sending | awaiting | receiving | skipping
deriving DecidableEq, Repr

/-- The attempt record (R74). `timeoutPassed`: the timeout came while a character was being received
(R76). `skipBroken`: the overlong frame broke off and the line must rest 4 C (R79). -/
structure Attempt where
  kind : AttemptKind
  station : Option StationIx
  seq : Bool
  timeout : Nat
  allowance : Byte
  source : Byte
  latency : Option (BitVec 16)
  buffer : List Byte
  endOfFrame : Nat
  timeoutPassed : Bool
  skipBroken : Bool
deriving DecidableEq, Repr

/-- An Exchange Unit (R74). -/
structure ExchangeUnit where
  state : ExchangeState
  attempt : Option Attempt
deriving DecidableEq, Repr

/-- A Line Monitor (R131 to R133, R136). `biasOk` is the input's level; `carrierSince` the start of the
carrier measure; `errorsMet` and `silenceMet` a criterion met and not yet acted on; `downSince` the entry
to DOWN or JAMMED; `presenceSince` the start of the presence measure of R136. -/
structure LineMonitor where
  windowErrors : Byte
  totalErrors : BitVec 16
  collisions : BitVec 16
  silentRun : Byte
  biasOk : Bool
  carrierSince : Option Nat
  errorsMet : Bool
  silenceMet : Bool
  downSince : Option Nat
  holdPassed : Bool
  presenceSince : Option Nat
deriving DecidableEq, Repr

/-- A Line Monitor after a reset (R131), with the level of its BIAS_OK input. -/
def LineMonitor.reset (biasOk : Bool) : LineMonitor :=
  { windowErrors := 0, totalErrors := 0, collisions := 0, silentRun := 0, biasOk := biasOk,
    carrierSince := none, errorsMet := false, silenceMet := false, downSince := none, holdPassed := false,
    presenceSince := none }

/-- A latency trap slot (R93). -/
structure TrapSlot where
  armed : Bool
  station : BitVec 6
  latency : BitVec 16
  cycle : BitVec 16
  missed : Byte
deriving DecidableEq, Repr

/-- An armed, empty slot (R95). -/
def TrapSlot.reset : TrapSlot :=
  { armed := true, station := 0, latency := 0, cycle := 0, missed := 0 }

/-! ### Catching -/

/-- Why a frame was accepted (R111). -/
inductive CatchReason where
  | station | group | allCall | filter
deriving DecidableEq, Repr

/-- What a HELD catch buffer carries (R118). The length is that of the payload. -/
structure CatchFrame where
  destination : Byte
  source : Byte
  control : Byte
  payload : List Byte
  reason : CatchReason
  filter : Option (Fin 16)
  triggered : BitVec 16
  cycle : BitVec 16
deriving DecidableEq, Repr

/-- The transfer a catch walk is at (R38, R120). -/
inductive CatchOp where
  | readHead
  | readLink (k : RecordIx)
  | readState (k : RecordIx)
  | writeFields (k : RecordIx)
  | writePayload (k : RecordIx)
  | writeFilled (k : RecordIx)
deriving DecidableEq, Repr

/-- The catch path of a loop: buffer, walk with the pool it uses (R122), counts and parked record. -/
structure CatchUnit where
  buffer : Option CatchFrame
  walk : Option CatchOp
  poolBase : Word
  poolSize : BitVec 16
  fills : Word
  drops : Word
  accepted : Word
  stalled : Bool
  parked : Option RecordIx
deriving DecidableEq, Repr

/-- The catch path after a reset (R24, R118). -/
def CatchUnit.reset : CatchUnit :=
  { buffer := none, walk := none, poolBase := 0, poolSize := 0, fills := 0, drops := 0, accepted := 0,
    stalled := false, parked := none }

/-! ### Procedures of the scheduler requester -/

/-- What a read of the loop descriptor's host half is for (R22). -/
inductive HostReadUse where
  | starting | testing | retiming
deriving DecidableEq, Repr

/-- Which sequence flag flips at a completion (R90). -/
inductive SeqFlip where
  | none | tx | rx
deriving DecidableEq, Repr

/-- What the station becomes at a completion (R35 step 4). -/
inductive AfterRecord where
  | ready | silent | absent
  | halted (r : ReasonCode)
  | disabled | rejected
deriving DecidableEq, Repr

/-- The work of a procedure, in the order in which it is done: transfers of the scheduler requester, and
acts the engine makes between them. -/
inductive SchedOp where
  /-- Read the global descriptor, 64 bytes (R21). -/
  | readGlobal
  /-- Read the loop descriptor's host half, 32 bytes (R22). -/
  | readLoopHost (use : HostReadUse)
  /-- Read the host half of station entry `i`, 16 bytes (R41). -/
  | readStationHost (i : StationIx)
  /-- Read the word with the link of the parked record of station `i` (R33). -/
  | readLink (i : StationIx)
  /-- Read record `k` for station `i`, 128 bytes (R33). -/
  | readRecord (i : StationIx) (k : RecordIx)
  /-- Write the state ACTIVE of record `k`, taken for station `i` (R34). -/
  | writeActive (i : StationIx) (k : RecordIx) (copy : RecordCopy)
  /-- Write a reply payload into record `k` (R35 step 1). -/
  | writePayload (k : RecordIx) (payload : List Byte)
  /-- Write the result fields of record `k` of station `i` (R35 step 2). -/
  | writeResult (i : StationIx) (k : RecordIx) (outcome : RecordOutcome) (replyLength : Byte)
  /-- Write the state DONE of record `k` of station `i` (R35 step 3). -/
  | writeDone (i : StationIx) (k : RecordIx) (flip : SeqFlip) (after : AfterRecord)
  /-- Write the part half of station `i` (R27). -/
  | writeStationHalf (i : StationIx)
  /-- Write the part half of the loop descriptor (R24). -/
  | writeLoopHalf
  /-- Raise a cause of the loop (R163). -/
  | raise (c : Cause)
  /-- Raise CATCH if CATCH_NOTIFY is set (R120). -/
  | raiseCatch
  /-- Raise REFUSED if a RETIME was refused (R62). -/
  | raiseRetimeRefused
  /-- The end of a step: what a STOP or a criterion gives up begins here (R126, R128, R134). -/
  | mark
  /-- STARTING step 2 (R126). -/
  | startValidate
  /-- STARTING step 3 waits for the end of a keepalive being sent (R143). -/
  | awaitTransmitter
  /-- STARTING step 3 (R126). -/
  | startLatch
  /-- STARTING step 4, the resets (R127). -/
  | startResets
  /-- STARTING step 6 (R126). -/
  | startNext
  /-- STARTING given up before validation (R126). -/
  | startAbort
  /-- Judge entry `i` of the roster scan (R42). -/
  | judge (i : StationIx)
  /-- Boundary step 2 (R60). -/
  | retimeStep
  /-- Boundary step 3 (R60). -/
  | cycleStep
  /-- Boundary step 4 (R60). -/
  | reportStep
  /-- Boundary step 6 (R60). -/
  | beaconStep
  /-- Check the copy of a record just taken (R34). -/
  | takeCheck (i : StationIx)
  /-- Choose the attempt and test whether it fits (R64 steps 2 and 3). -/
  | fitTest (i : StationIx)
  /-- The follow-on PUT (R64 step 5). -/
  | followOn (i : StationIx)
  /-- The turn ends (R64 step 6). -/
  | endTurn
  /-- Settle every record in hand of the loop with one outcome (R129, R134). -/
  | settleAll (outcome : RecordOutcome)
  /-- Settle the record in hand of station `i` (R129, R134). -/
  | settle (i : StationIx) (outcome : RecordOutcome)
  /-- Enter the drain target (R129). -/
  | enterTarget
  /-- Enter OFF (R130). -/
  | enterOff
  /-- Return context `i` to owner none (R52 step 6). -/
  | disown (i : StationIx)
  /-- The roll list is done (R139). -/
  | rollEnd
  /-- TEST entry step 2 (R151). -/
  | testValidate
  /-- TEST entry step 6 (R151). -/
  | testFirst
  /-- TEST entry given up (R151). -/
  | testAbort
deriving DecidableEq, Repr

/-! ### The loop engine -/

/-- The host half of a loop descriptor, field by field as it lies in memory (R22, 12_formats). -/
structure LoopHost where
  cycleLength : BitVec 16
  periodicBudget : BitVec 16
  announceWindow : BitVec 16
  bitRate : Byte
  rollAtStart : Bool
  rollAtRecovery : Bool
  catchNotify : Bool
  carrierEnable : Bool
  identity : Word
  errorThreshold : Byte
  errorWindow : Byte
  silenceThreshold : Byte
  downHold : Byte
  jamTime : Byte
  jamRelease : Byte
  keepalive : Byte
  trapThreshold : BitVec 16
  testLength : Byte
  echoAddress : Byte
  testCount : BitVec 16
  testMode : Byte
  counterMode : Byte
deriving DecidableEq, Repr

/-- All fields zero: what stands where nothing is latched (log 29). -/
def LoopHost.zero : LoopHost :=
  { cycleLength := 0, periodicBudget := 0, announceWindow := 0, bitRate := 0, rollAtStart := false,
    rollAtRecovery := false, catchNotify := false, carrierEnable := false, identity := 0,
    errorThreshold := 0, errorWindow := 0, silenceThreshold := 0, downHold := 0, jamTime := 0,
    jamRelease := 0, keepalive := 0, trapThreshold := 0, testLength := 0, echoAddress := 0,
    testCount := 0, testMode := 0, counterMode := 0 }

/-- The loop state and what stands beside it (R124), RETIME pending (R61) and the loop's slot of the
CONTROL latch (R159). `startFromOff` tells the two kinds of STARTING apart (R127); `validated` says that
the STARTING or TEST entry under way has passed its validation (R126, R151). -/
structure LoopControl where
  state : LoopState
  drainTarget : Option DrainTarget
  returnTarget : Option ReturnTarget
  rollRequest : Bool
  retimePending : Bool
  slot : Option (BitVec 4)
  startFromOff : Bool
  validated : Bool
deriving DecidableEq, Repr

/-- A loop's control after a reset (R124, R167). -/
def LoopControl.reset : LoopControl :=
  { state := .off, drainTarget := none, returnTarget := none, rollRequest := false, retimePending := false,
    slot := none, startFromOff := false, validated := false }

/-- The engine's copies of the part half that no other block keeps (R23). -/
structure LoopReport where
  downReason : DownReason
  startError : StartError
  retimeResult : RetimeResult
  cycleNumber : Word
  lateBeacons : BitVec 16
  overruns : BitVec 16
  rollPresent : Byte
  rollAbsent : Byte
deriving DecidableEq, Repr

/-- The copies after a reset (R24). -/
def LoopReport.reset : LoopReport :=
  { downReason := .none, startError := .none, retimeResult := .none, cycleNumber := 0, lateBeacons := 0,
    overruns := 0, rollPresent := 0, rollAbsent := 0 }

/-- How far a turn has come: fetching, waiting for its attempt, or making the writes of a judgement. -/
inductive TurnStage where
  | fetch | attempt | writes
deriving DecidableEq, Repr

/-- The turn under way (R64). `attempted`: it has started an attempt; `closing`: its failed fit test
closes the aperiodic window (R71). -/
structure Turn where
  station : StationIx
  periodic : Bool
  stage : TurnStage
  attempted : Bool
  closing : Bool
deriving DecidableEq, Repr

/-- The Cycle Scheduler (04). `marked` is the grid point marked and not yet taken, `late` says that its
beacon is late and `lateTaken` that the beacon of the boundary taken is (R63), `visited` are the stations
visited without an attempt since the last one (R71). -/
structure CycleScheduler where
  firstCycle : Bool
  nextGrid : Option Nat
  marked : Option Nat
  late : Bool
  lateTaken : Bool
  boundaryAt : Nat
  phase : CyclePhase
  dueSet : List StationIx
  pointer : StationIx
  visited : List StationIx
  beaconEnd : Nat
  attempted : Bool
  answered : Bool
  firstOfGrid : Bool
  overrun : Bool
  announceStarted : Bool
  retimeRefused : Bool
  turn : Option Turn
deriving DecidableEq, Repr

/-- A Cycle Scheduler after a reset (R57, R58, R70). -/
def CycleScheduler.reset : CycleScheduler :=
  { firstCycle := false, nextGrid := none, marked := none, late := false, lateTaken := false,
    boundaryAt := 0, phase := .none, dueSet := [], pointer := 0, visited := [], beaconEnd := 0,
    attempted := false, answered := false, firstOfGrid := false, overrun := false, announceStarted := false, retimeRefused := false,
    turn := none }

/-- A loop engine. `sched` is the procedure under way of its scheduler requester, `urgent` the part-half
writes that go ahead of it (R120); `scan`, `hostBuf`, `globalBase`, `globalSize` hold what reads have
brought; `resetSet` the stations this STARTING reset (R56); `keepaliveFrom` is the last start of the keepalive timer
(R143), `quietFrom` the last entry to QUIET (R144). -/
structure Engine where
  ctl : LoopControl
  cfg : LoopHost
  poolBase : Word
  poolSize : BitVec 16
  rep : LoopReport
  cyc : CycleScheduler
  sched : List SchedOp
  urgent : List SchedOp
  scan : Vector StationHost 64
  hostBuf : LoopHost
  globalBase : Word
  globalSize : BitVec 16
  resetSet : List StationIx
  xu : ExchangeUnit
  framer : Framer
  mon : LineMonitor
  trap : TrapSlot
  catcher : CatchUnit
  keepaliveFrom : Nat
  quietFrom : Nat
  rollList : List StationIx
  rollSecond : Bool
deriving DecidableEq, Repr

/-- An engine after a reset (R167), with the level of its BIAS_OK input. -/
def Engine.reset (biasOk : Bool) : Engine :=
  { ctl := LoopControl.reset, cfg := LoopHost.zero, poolBase := 0, poolSize := 0, rep := LoopReport.reset,
    cyc := CycleScheduler.reset, sched := [], urgent := [], scan := Vector.replicate 64 StationHost.zero,
    hostBuf := LoopHost.zero, globalBase := 0, globalSize := 0, resetSet := [],
    xu := { state := .idle, attempt := none }, framer := Framer.stopped, mon := LineMonitor.reset biasOk,
    trap := TrapSlot.reset, catcher := CatchUnit.reset, keepaliveFrom := 0, quietFrom := 0,
    rollList := [], rollSecond := false }

/-! ### The ports -/

/-- The four requesters of the Memory Port (R164). -/
inductive Requester where
  | sched (l : LoopId)
  | catcher (l : LoopId)
deriving DecidableEq, Repr

/-- What a transfer does on the bus (R164). -/
inductive BusAction where
  | read (address : Word) (length : Nat)
  | write (address : Word) (data : List Byte)
deriving DecidableEq, Repr

/-- The transfer in progress. `urgent`: it is a part-half write of R120; `orphan`: the procedure that
asked for it has been given up, so its result goes nowhere (R122, R140, R165). -/
structure Transfer where
  requester : Requester
  action : BusAction
  urgent : Bool
  orphan : Bool
deriving DecidableEq, Repr

/-- The Memory Port (R164). -/
structure MemoryPort where
  inFlight : Option Transfer
  pointer : Requester
deriving DecidableEq, Repr

/-- The step mode of the window (R161). -/
inductive StepMode where
  | fixed | all | writes | reads
deriving DecidableEq, Repr

/-- WINDOW_POINTER (R161). -/
structure WindowPointer where
  space : BitVec 4
  offset : BitVec 12
  mode : StepMode
deriving DecidableEq, Repr

/-- WINDOW_POINTER after a reset (R161). -/
def WindowPointer.reset : WindowPointer := { space := 0, offset := 0, mode := .fixed }

/-- The part: everything but system memory and the queue. AREA is held as its bits 31:12 (R158). -/
structure Part where
  now : Nat
  resetHeld : Bool
  resetting : Bool
  area : BitVec 20
  mask : Word
  cause : Word
  window : WindowPointer
  busRead : Word
  port : MemoryPort
  contexts : Vector Context 64
  relays : Vector (Option RelayEntry) 8
  screening : ScreeningStore
  testUnit : TestUnit
  engA : Engine
  engB : Engine
deriving DecidableEq, Repr

/-- The part after power-on reset (R168), at time `now` and with the given BIAS_OK levels. -/
def Part.powerOn (now : Nat) (biasA biasB : Bool) : Part :=
  { now := now, resetHeld := false, resetting := false, area := 0, mask := 0, cause := 0,
    window := WindowPointer.reset, busRead := 0, port := { inFlight := none, pointer := .catcher .B },
    contexts := Vector.replicate 64 Context.reset, relays := Vector.replicate 8 none,
    screening := ScreeningStore.reset, testUnit := TestUnit.reset, engA := Engine.reset biasA,
    engB := Engine.reset biasB }

/-- System memory: the bytes that are not 0, by rising address (log 5). -/
abbrev Memory := List Host.Cell

/-- The state: the part, system memory, and the commands that wait. -/
structure State where
  part : Part
  mem : Memory
  pending : List Instr
deriving DecidableEq, Repr

/-- The machine right after a power-on reset (R168), with line bias present on both loops (log 7), no
byte of memory written (log 5) and no command waiting. -/
def State.reset : State := { part := Part.powerOn 0 true true, mem := [], pending := [] }

/-- No command of this block ends in a fault: a bus error is the loop state FAULT (R140). -/
inductive Fault where
deriving DecidableEq, Repr

/-- Why a command has no meaning here. -/
inductive Refusal where
  /-- An arm of exec that has no meaning yet, by its mnemonic. No arm is left so. It is safe: a claim
  about the command could not be proved. -/
  | notModelled (mnemonic : String)
deriving DecidableEq, Repr

end Sys2Proof.Machine
end

