-- ==== Sys2Proof/Machine/Operands.lean ====
section
/-! DEFINITION. The layouts of 12_formats: codes, bytes and words, descriptors, records, frames. -/

namespace Sys2Proof.Machine

open Sys2Proof

/-! ### Bytes and words (R169) -/

/-- Byte `i` of a byte list, 0 past its end. -/
def byteAt (bs : List Byte) (i : Nat) : Byte := bs.getD i 0

/-- The word at byte offset `i`, least significant byte first (R169). -/
def wordAt (bs : List Byte) (i : Nat) : Word :=
  byteAt bs (i + 3) ++ byteAt bs (i + 2) ++ byteAt bs (i + 1) ++ byteAt bs i

/-- The half word at byte offset `i`. -/
def halfAt (bs : List Byte) (i : Nat) : BitVec 16 := byteAt bs (i + 1) ++ byteAt bs i

/-- A word as bytes, least significant first (R169). -/
def bytesOfWord (w : Word) : List Byte :=
  [w.extractLsb' 0 8, w.extractLsb' 8 8, w.extractLsb' 16 8, w.extractLsb' 24 8]

/-- A half word as bytes, least significant first. -/
def bytesOfHalf (h : BitVec 16) : List Byte := [h.extractLsb' 0 8, h.extractLsb' 8 8]

/-- One bit as a byte of value 0 or 1, at bit `n`. -/
def bitByte (b : Bool) (n : Nat) : Byte := if b then 1 <<< n else 0

/-- An optional record index as a 16-bit field: 0xFFFF for none (R169). -/
def indexField : Option RecordIx → BitVec 16
  | none => 0xFFFF
  | some k => k.setWidth 16

/-- A link or head field: bits 9:0 of its word (R169). -/
def linkField (w : Word) : RecordIx := w.extractLsb' 0 10

/-- Bytes padded with zeros to whole words (R30, R37). -/
def padToWords (bs : List Byte) : List Byte :=
  bs ++ List.replicate ((4 - bs.length % 4) % 4) 0

/-! ### Codes (12_formats, "State and reason codes") -/

def LoopState.code : LoopState → Byte
  | .off => 0 | .starting => 1 | .rollcall => 2 | .running => 3 | .draining => 4 | .quiet => 5
  | .down => 6 | .jammed => 7 | .test => 8 | .fault => 9

def DownReason.code : DownReason → Byte
  | .none => 0 | .errors => 1 | .silence => 2 | .carrier => 3 | .jam => 4

def StartError.code : StartError → Byte
  | .none => 0 | .pool => 1 | .rate => 2 | .timing => 3 | .test => 4

def RetimeResult.code : RetimeResult → Byte
  | .none => 0 | .adopted => 1 | .refused => 2

def StationState.code : StationState → Byte
  | .disabled => 0 | .rejected => 1 | .ready => 2 | .active => 3 | .silent => 4 | .absent => 5
  | .halted => 6

def RecordPhase.code : RecordPhase → Byte
  | .none => 0 | .first => 1 | .retry => 2 | .probe => 3 | .relayStart => 4 | .relayCollect => 5

def ReasonCode.code : ReasonCode → Byte
  | .none => 0 | .host => 1 | .refused => 2 | .badLink => 3 | .duplicate => 4 | .field => 5

def RecordOutcome.code : RecordOutcome → Byte
  | .ok => 0 | .held => 1 | .noAnswer => 2 | .refused => 3 | .overlong => 4 | .missed => 5
  | .halted => 6 | .disabled => 7 | .stopped => 8 | .lineLost => 9 | .relayLost => 10 | .badRecord => 11

def WakeReason.code : WakeReason → Byte
  | .host => 1 | .energy => 2 | .marker => 3 | .station => 4 | .group => 5 | .allCall => 6 | .filter => 7

def TestStatus.code : TestStatus → BitVec 3
  | .none => 0 | .running => 1 | .complete => 2 | .stopped => 3 | .abandoned => 4

def CatchReason.code : CatchReason → Byte
  | .station => 1 | .group => 2 | .allCall => 3 | .filter => 4

/-- The drain target byte of the loop part half; 0 when there is none. -/
def drainTargetCode : Option DrainTarget → Byte
  | some .quiet => 1
  | some .off => 0
  | none => 0

/-- Owner of the Test Pattern Unit: none 0, A 1, B 2. -/
def ownerCode : Option LoopId → BitVec 2
  | none => 0
  | some .A => 1
  | some .B => 2

/-- Position of a cause within a loop's sixteen flags (12_formats, "Registers"). -/
def Cause.index : Cause → Nat
  | .exdone => 0 | .exfault => 1 | .catch_ => 2 | .starved => 3 | .wake => 4 | .down => 5 | .up => 6
  | .jam => 7 | .overrun => 8 | .halted => 9 | .trap => 10 | .rolldone => 11 | .testdone => 12
  | .refused => 13 | .busfault => 14 | .reject => 15

/-- Kind codes of the control character (R8). -/
def FrameKind.code : FrameKind → BitVec 4
  | .echo => 0 | .beacon => 1 | .poll => 2 | .put => 3 | .probe => 4 | .relayStart => 5
  | .relayCollect => 6 | .roll => 7 | .test => 8 | .data => 9 | .ack => 10 | .hold => 11
  | .refuse => 12 | .ready => 13 | .present => 14 | .announce => 15

/-- All sixteen kind codes name a kind (R8). -/
def FrameKind.ofCode (c : BitVec 4) : FrameKind :=
  match c.toNat with
  | 0 => .echo | 1 => .beacon | 2 => .poll | 3 => .put | 4 => .probe | 5 => .relayStart
  | 6 => .relayCollect | 7 => .roll | 8 => .test | 9 => .data | 10 => .ack | 11 => .hold
  | 12 => .refuse | 13 => .ready | 14 => .present | _ => .announce

/-! ### Frames (R3, R6, R8, R9) -/

/-- A control character: kind in bits 3:0, SEQ at bit 4, SYNC at bit 5, bits 7:6 zero (R8). -/
def controlByte (k : FrameKind) (seq sync : Bool) : Byte :=
  (0 : BitVec 2) ++ BitVec.ofBool sync ++ BitVec.ofBool seq ++ k.code

/-- The kind of a control character. -/
def controlKind (c : Byte) : FrameKind := FrameKind.ofCode (c.extractLsb' 0 4)

/-- The SEQ bit of a control character. -/
def controlSeq (c : Byte) : Bool := c.getLsbD 4

/-- Bits 7:6 of a control character are zero (R8, R11). -/
def controlClean (c : Byte) : Bool := c.extractLsb' 6 2 == 0

/-- One shift step of the CRC-16 (R6). -/
def crcBit (r : BitVec 16) (b : Bool) : BitVec 16 :=
  if r.msb != b then (r <<< 1) ^^^ 0x1021 else r <<< 1

/-- One byte into the CRC-16, most significant bit first (R6). -/
def crcByte (r : BitVec 16) (b : Byte) : BitVec 16 :=
  crcBit (crcBit (crcBit (crcBit (crcBit (crcBit (crcBit (crcBit r
    (b.getLsbD 7)) (b.getLsbD 6)) (b.getLsbD 5)) (b.getLsbD 4))
    (b.getLsbD 3)) (b.getLsbD 2)) (b.getLsbD 1)) (b.getLsbD 0)

/-- The CRC-16 of a byte sequence: preset all ones, no final inversion (R6). -/
def crc16 (bs : List Byte) : BitVec 16 := bs.foldl crcByte 0xFFFF

/-- Header and payload of a frame the part sends: what the check covers (R3, R6). -/
def TxFrame.body (f : TxFrame) : List Byte :=
  [f.destination, 0, f.control, BitVec.ofNat 8 f.payload.length] ++ f.payload

/-- The characters of a frame the part sends, in order (R3). -/
def TxFrame.chars (f : TxFrame) : List Byte :=
  let c := crc16 f.body
  Config.lead :: (f.body ++ [c.extractLsb' 8 8, c.extractLsb' 0 8])

/-- A frame received whole: its header fields and payload. -/
structure RxFrame where
  destination : Byte
  source : Byte
  control : Byte
  payload : List Byte
deriving DecidableEq, Repr

/-- The frame in a list of received characters, the lead first (R3). -/
def RxFrame.ofChars (cs : List Byte) : RxFrame :=
  { destination := byteAt cs 1, source := byteAt cs 2, control := byteAt cs 3
    payload := (cs.drop 5).take (byteAt cs 4).toNat }

/-- The payload length named in the fifth character (R3). -/
def charsLength (cs : List Byte) : Nat := (byteAt cs 4).toNat

/-- All of a frame's characters are there: 7 + n of them (R3). -/
def frameComplete (cs : List Byte) : Bool := 5 ≤ cs.length && cs.length == 7 + charsLength cs

/-- The conditions of R11 that are judged at the frame end: clean control bits and a matching check. -/
def frameValid (cs : List Byte) : Bool :=
  controlClean (byteAt cs 3) &&
    crc16 ((cs.drop 1).take (4 + charsLength cs)) ==
      (byteAt cs (5 + charsLength cs) ++ byteAt cs (6 + charsLength cs) : BitVec 16)

/-- The screened bytes of a frame: header and payload (R116). -/
def RxFrame.screened (f : RxFrame) : List Byte :=
  [f.destination, f.source, f.control, BitVec.ofNat 8 f.payload.length] ++ f.payload

/-- The payload of a beacon (R9). The cycle number is sent most significant byte first, the identity in
the order of its bytes in memory (R169). -/
def beaconPayload (cycle identity : Word) (announceOpen quiet : Bool) : List Byte :=
  (bytesOfWord cycle).reverse ++ bytesOfWord identity ++ [bitByte announceOpen 0 ||| bitByte quiet 1]

/-! ### Host halves -/

/-- The host half of a station table entry (12_formats). -/
def StationHost.decode (bs : List Byte) : StationHost :=
  { enable := (byteAt bs 0).getLsbD 0
    loop := if (byteAt bs 0).getLsbD 1 then .B else .A
    cls := if (byteAt bs 0).getLsbD 2 then .aperiodic else .periodic
    acceptAnnounce := (byteAt bs 0).getLsbD 3
    wake := (byteAt bs 0).getLsbD 4
    halt := (byteAt bs 0).getLsbD 5
    lineAddress := byteAt bs 1
    coupler := byteAt bs 2
    releaseCount := byteAt bs 3
    intervalCode := byteAt bs 4
    phase := byteAt bs 5
    maxReply := byteAt bs 6
    replyTimeout := byteAt bs 7
    retryLimit := byteAt bs 8
    collectDelay := byteAt bs 9
    patience := byteAt bs 10
    chainHead := linkField (wordAt bs 12) }

/-- The host half of a loop descriptor (12_formats). -/
def LoopHost.decode (bs : List Byte) : LoopHost :=
  { cycleLength := halfAt bs 0
    periodicBudget := halfAt bs 2
    announceWindow := halfAt bs 4
    bitRate := byteAt bs 6
    rollAtStart := (byteAt bs 7).getLsbD 0
    rollAtRecovery := (byteAt bs 7).getLsbD 1
    catchNotify := (byteAt bs 7).getLsbD 2
    carrierEnable := (byteAt bs 7).getLsbD 3
    identity := wordAt bs 12
    errorThreshold := byteAt bs 16
    errorWindow := byteAt bs 17
    silenceThreshold := byteAt bs 18
    downHold := byteAt bs 19
    jamTime := byteAt bs 20
    jamRelease := byteAt bs 21
    keepalive := byteAt bs 22
    trapThreshold := halfAt bs 24
    testLength := byteAt bs 26
    echoAddress := byteAt bs 27
    testCount := halfAt bs 28
    testMode := byteAt bs 30
    counterMode := byteAt bs 31 }

/-- The global descriptor: pool base with its low seven bits taken as 0, and pool size (R21). -/
def decodeGlobal (bs : List Byte) : Word × BitVec 16 := (wordAt bs 0 &&& 0xFFFFFF80, halfAt bs 4)

/-- What the take keeps of a work record (R34, 12_formats). The request is the first `request length`
bytes of the payload area. -/
def RecordCopy.decode (bs : List Byte) : RecordCopy :=
  { kind := byteAt bs 8
    notify := (byteAt bs 9).getLsbD 0
    strict := (byteAt bs 9).getLsbD 1
    requestLength := byteAt bs 10
    holdLimit := byteAt bs 11
    request := (bs.drop 32).take (byteAt bs 10).toNat }

/-! ### Part halves (R23, R26) and records (R30, R37) -/

/-- The flags byte of a station part half: T, E, SYNC pending, present (12_formats). -/
def Context.flagsByte (c : Context) : Byte :=
  bitByte c.txSeq 0 ||| bitByte c.rxSeq 1 ||| bitByte c.syncPending 2 ||| bitByte c.present 3

/-- The part half of a station table entry, 16 bytes (R26, 12_formats). -/
def Context.partHalf (c : Context) : List Byte :=
  [c.state.code, c.phase.code, c.reason.code, c.failures,
   c.flagsByte, c.missCount, c.duplicates, c.latchedRelease]
  ++ bytesOfHalf (indexField c.parked) ++ bytesOfHalf (indexField c.inHand)
  ++ bytesOfHalf c.completed ++ bytesOfHalf c.maxLatency

/-- The part half of a loop descriptor, 32 bytes (R23, 12_formats). -/
def Engine.partHalf (e : Engine) : List Byte :=
  [e.ctl.state.code, drainTargetCode e.ctl.drainTarget, e.rep.downReason.code, e.rep.startError.code]
  ++ bytesOfWord e.rep.cycleNumber
  ++ bytesOfHalf e.rep.lateBeacons ++ bytesOfHalf e.rep.overruns
  ++ bytesOfWord e.catcher.fills
  ++ bytesOfWord e.catcher.drops
  ++ bytesOfWord e.catcher.accepted
  ++ [e.rep.rollPresent, e.rep.rollAbsent, e.rep.retimeResult.code, bitByte e.catcher.stalled 0]
  ++ bytesOfHalf (indexField e.catcher.parked) ++ [0, 0]

/-- The result fields of a work record, 16 bytes at offset 0x10 (R30, R35, 12_formats). -/
def resultFields (c : Context) (outcome : RecordOutcome) (replyLength : Byte) (cycle : Word) : List Byte :=
  [outcome.code, c.recAttempts, c.recHolds, c.recDuplicates, replyLength, 0]
  ++ bytesOfHalf (cycle.extractLsb' 0 16) ++ bytesOfHalf c.recLatency ++ [0, 0, 0, 0, 0, 0]

/-- The words 0x08 to 0x1F of a catch record, 24 bytes (R37, 12_formats). -/
def CatchFrame.fields (f : CatchFrame) : List Byte :=
  [f.reason.code, match f.filter with | none => 0xFF | some i => BitVec.ofNat 8 i.val]
  ++ bytesOfHalf f.triggered
  ++ [f.destination, f.source, f.control, BitVec.ofNat 8 f.payload.length]
  ++ bytesOfHalf f.cycle ++ [0, 0, 0, 0, 0, 0, 0, 0, 0, 0, 0, 0, 0, 0]

/-! ### Routes -/

/-- A station with no coupler is direct (R25). -/
def Binding.direct (b : Binding) : Bool := b.coupler == 0xFF

/-- The station index of the coupler, if the field names one. -/
def couplerIndex (coupler : Byte) : Option StationIx :=
  if h : coupler.toNat < 64 then some ⟨coupler.toNat, h⟩ else none

end Sys2Proof.Machine
end

