-- ==== Sys2Proof/Machine/Ops.lean ====
section
/-! DEFINITION. The named operations over the state: accessors, system memory, procedures of a requester,
the Memory Port and its arbiter. -/

namespace Sys2Proof.Machine

open Sys2Proof

/-! ### Accessors -/

/-- The engine of a loop. -/
def Part.eng (p : Part) : LoopId → Engine
  | .A => p.engA
  | .B => p.engB

/-- Change the engine of one loop. -/
def Part.modEng (l : LoopId) (f : Engine → Engine) (p : Part) : Part :=
  match l with
  | .A => { p with engA := f p.engA }
  | .B => { p with engB := f p.engB }

/-- The context of a station. -/
def Part.ctx (p : Part) (i : StationIx) : Context := p.contexts[i]

/-- Change the context of one station. -/
def Part.modCtx (i : StationIx) (f : Context → Context) (p : Part) : Part :=
  { p with contexts := p.contexts.set i (f p.contexts[i]) }

/-- The other loop. -/
def otherLoop : LoopId → LoopId
  | .A => .B
  | .B => .A

/-- Time passes (log 1). -/
def Part.tick (dt : Nat) (p : Part) : Part := { p with now := p.now + dt }

/-- The part runs: it is neither held in reset nor in a soft reset (R166, R168). -/
def Part.live (p : Part) : Bool := !p.resetHeld && !p.resetting

/-- All station indexes, in ascending order. -/
def allStations : List StationIx := List.finRange 64

/-- A station is admitted to a loop (R39). -/
def Context.admittedTo (c : Context) (l : LoopId) : Bool :=
  c.owner == some l &&
    (c.state == .ready || c.state == .active || c.state == .silent || c.state == .absent ||
     c.state == .halted)

/-- The Scheduler may serve the station: READY or ACTIVE (R66, R70). -/
def Context.servable (c : Context) : Bool := c.state == .ready || c.state == .active

/-- A relayed station: its latched coupler is not none (R97). -/
def Context.relayed (c : Context) : Bool := !c.binding.direct

/-! ### The procedure of a scheduler requester -/

/-- Work that goes on with the procedure under way: it is done before what is left of it. -/
def Part.pushFront (l : LoopId) (ops : List SchedOp) (p : Part) : Part :=
  p.modEng l fun e => { e with sched := ops ++ e.sched }

/-- Work that a new event calls for: it is done after what is under way. -/
def Part.push (l : LoopId) (ops : List SchedOp) (p : Part) : Part :=
  p.modEng l fun e => { e with sched := e.sched ++ ops }

/-- Work that goes ahead of the scheduler's next transfer (R120). -/
def Part.pushUrgent (l : LoopId) (ops : List SchedOp) (p : Part) : Part :=
  p.modEng l fun e => { e with urgent := e.urgent ++ ops }

/-- A procedure up to the end of the step it is in (R126, R128, R134). -/
def keepStep : List SchedOp → List SchedOp
  | [] => []
  | .mark :: _ => [.mark]
  | op :: rest => op :: keepStep rest

/-- The turn under way, if there is one, makes the writes of a judgement, a completion, a halt or a miss:
they are made even if the loop leaves RUNNING (R96, R134 step 2). -/
def CycleScheduler.turnWrites (c : CycleScheduler) : CycleScheduler :=
  { c with turn := c.turn.map fun t => { t with stage := .writes } }

/-- The turn of a loop goes over to writes. -/
def Part.turnWrites (l : LoopId) (p : Part) : Part := p.modEng l fun e => { e with cyc := e.cyc.turnWrites }

/-! ### System memory (log 5) -/

/-- What a byte that no one has written reads as (log 5). -/
def Memory.unlisted : Byte := 0

/-- The byte at an address. -/
def Memory.read : Memory → Nat → Byte
  | [], _ => Memory.unlisted
  | (x, v) :: rest, a => if x = a then v else Memory.read rest a

/-- Write a byte, keeping the canonical form: rising addresses, no byte equal to the unlisted one. -/
def Memory.write : Memory → Nat → Byte → Memory
  | [], a, b => if b = Memory.unlisted then [] else [(a, b)]
  | (x, v) :: rest, a, b =>
    if a < x then (if b = Memory.unlisted then (x, v) :: rest else (a, b) :: (x, v) :: rest)
    else if a = x then (if b = Memory.unlisted then rest else (a, b) :: rest)
    else (x, v) :: Memory.write rest a b

/-- The canonical form of a memory within the 32-bit address space. -/
abbrev Memory.wf (m : Memory) : Prop :=
  m.Pairwise (fun x y => x.1 < y.1) ∧ ∀ c ∈ m, c.2 ≠ Memory.unlisted ∧ c.1 < 2 ^ 32

/-- The bytes of a read transfer; addresses are formed modulo 2^32 (R164). -/
def Memory.readBytes (m : Memory) (address : Word) : Nat → List Byte
  | 0 => []
  | n + 1 => Memory.read m address.toNat :: Memory.readBytes m (address + 1) n

/-- The bytes of a write transfer; addresses are formed modulo 2^32 (R164). -/
def Memory.writeBytes (m : Memory) (address : Word) : List Byte → Memory
  | [] => m
  | b :: bs => Memory.writeBytes (Memory.write m address.toNat b) (address + 1) bs

/-- The bytes of a failed or abandoned write that were written: byte i when bit i of `landed` is set
(R165, R168). -/
def Memory.writeLanded (m : Memory) (address : Word) (landed : BitVec 128) : List Byte → Memory
  | [] => m
  | b :: bs =>
    Memory.writeLanded (if landed.getLsbD 0 then Memory.write m address.toNat b else m) (address + 1)
      (landed >>> 1) bs

/-- What the host has written to memory, in order (log 5). -/
def Memory.hostWrites (m : Memory) : List (Word × Byte) → Memory
  | [] => m
  | (a, b) :: rest => Memory.hostWrites (Memory.write m a.toNat b) rest

/-! ### Where things lie (R20, R28) -/

/-- The base of the control area: AREA with its low twelve bits 0 (R20, R158). -/
def Part.areaBase (p : Part) : Word := p.area ++ (0 : BitVec 12)

/-- The loop descriptor's host half (R20). -/
def Part.loopHostAddress (p : Part) : LoopId → Word
  | .A => p.areaBase + 0x040
  | .B => p.areaBase + 0x080

/-- The loop descriptor's part half (R20). -/
def Part.loopHalfAddress (p : Part) (l : LoopId) : Word := p.loopHostAddress l + 0x20

/-- Entry `i` of the station table (R20). -/
def Part.stationAddress (p : Part) (i : StationIx) : Word :=
  p.areaBase + 0x100 + BitVec.ofNat 32 (32 * i.val)

/-- Record `k` of a pool, its address formed modulo 2^32 (R28). -/
def recordAddress (poolBase : Word) (k : RecordIx) : Word := poolBase + BitVec.ofNat 32 (128 * k.toNat)

/-- The transfer an operation of a scheduler procedure asks for; none for an act that is no transfer.
The data of a write are what stands when the write is made, and its address is formed on AREA as it stands
then (logs 26 and 36). -/
def Part.schedAction (p : Part) (l : LoopId) : SchedOp → Option BusAction
  | .readGlobal => some (.read p.areaBase 64)
  | .readLoopHost _ => some (.read (p.loopHostAddress l) 32)
  | .readStationHost i => some (.read (p.stationAddress i) 16)
  | .readLink i =>
    some (.read (recordAddress (p.eng l).poolBase ((p.ctx i).parked.getD 0) + 4) 4)
  | .readRecord _ k => some (.read (recordAddress (p.eng l).poolBase k) 128)
  | .writeActive _ k _ => some (.write (recordAddress (p.eng l).poolBase k) [2, 0, 0, 0])
  | .writePayload k payload =>
    some (.write (recordAddress (p.eng l).poolBase k + 0x20) (padToWords payload))
  | .writeResult i k outcome n =>
    some (.write (recordAddress (p.eng l).poolBase k + 0x10)
      (resultFields (p.ctx i) outcome n (p.eng l).rep.cycleNumber))
  | .writeDone _ k _ _ => some (.write (recordAddress (p.eng l).poolBase k) [3, 0, 0, 0])
  | .writeStationHalf i => some (.write (p.stationAddress i + 0x10) (p.ctx i).partHalf)
  | .writeLoopHalf => some (.write (p.loopHalfAddress l) (p.eng l).partHalf)
  | .raise _ | .raiseCatch | .raiseRetimeRefused | .mark | .startValidate | .awaitTransmitter
  | .startLatch | .startResets | .startNext | .startAbort | .judge _ | .retimeStep | .cycleStep
  | .reportStep | .beaconStep | .takeCheck _ | .fitTest _ | .followOn _ | .endTurn | .settleAll _
  | .settle _ _ | .enterTarget | .enterOff | .disown _ | .rollEnd | .testValidate | .testFirst
  | .testAbort => none

/-- The transfer a catch walk asks for (R38, R120). -/
def Part.catchAction (p : Part) (l : LoopId) : CatchOp → BusAction
  | .readHead => .read (p.loopHostAddress l + 0x08) 4
  | .readLink k => .read (recordAddress (p.eng l).catcher.poolBase k + 4) 4
  | .readState k => .read (recordAddress (p.eng l).catcher.poolBase k) 4
  | .writeFields k =>
    .write (recordAddress (p.eng l).catcher.poolBase k + 0x08)
      (match (p.eng l).catcher.buffer with
       | some f => f.fields
       | none => [])
  | .writePayload k =>
    .write (recordAddress (p.eng l).catcher.poolBase k + 0x20)
      (match (p.eng l).catcher.buffer with
       | some f => padToWords f.payload
       | none => [])
  | .writeFilled k => .write (recordAddress (p.eng l).catcher.poolBase k) [5, 0, 0, 0]

/-! ### The Memory Port (R164) -/

/-- The transfer a requester has waiting, if any. A part-half write of R120 goes first. -/
def Part.request (p : Part) : Requester → Option Transfer
  | .sched l =>
    match (p.eng l).urgent with
    | op :: _ =>
      (p.schedAction l op).map fun a =>
        { requester := .sched l, action := a, urgent := true, orphan := false }
    | [] =>
      match (p.eng l).sched with
      | op :: _ =>
        (p.schedAction l op).map fun a =>
          { requester := .sched l, action := a, urgent := false, orphan := false }
      | [] => none
  | .catcher l =>
    (p.eng l).catcher.walk.map fun op =>
      { requester := .catcher l, action := p.catchAction l op, urgent := false, orphan := false }

/-- The cyclic order of the requesters, from the one after `r` (R164). -/
def requestersAfter : Requester → List Requester
  | .sched .A => [.sched .B, .catcher .A, .catcher .B, .sched .A]
  | .sched .B => [.catcher .A, .catcher .B, .sched .A, .sched .B]
  | .catcher .A => [.catcher .B, .sched .A, .sched .B, .catcher .A]
  | .catcher .B => [.sched .A, .sched .B, .catcher .A, .catcher .B]

/-- The first waiting request in an order of requesters. -/
def Part.firstRequest (p : Part) : List Requester → Option Transfer
  | [] => none
  | r :: rest =>
    match p.request r with
    | some t => some t
    | none => p.firstRequest rest

/-- The arbiter: when the port is free, grant the first waiting requester after the one granted last and
move the pointer to it (R164). No grant is made during a reset (R166, R168). -/
def Part.arbitrate (p : Part) : Part :=
  if p.live && p.port.inFlight.isNone then
    match p.firstRequest (requestersAfter p.port.pointer) with
    | some t => { p with port := { inFlight := some t, pointer := t.requester } }
    | none => p
  else p

/-- The procedure of a requester is given up: a transfer it has in progress ends without a result
(R122, R140, R165). -/
def Part.orphan (r : Requester) (p : Part) : Part :=
  match p.port.inFlight with
  | some t =>
    if t.requester = r then { p with port := { p.port with inFlight := some { t with orphan := true } } }
    else p
  | none => p

/-- The requester has a transfer in progress whose result is awaited. -/
def Part.transferring (p : Part) (r : Requester) : Bool :=
  match p.port.inFlight with
  | some t => t.requester == r && !t.orphan
  | none => false

/-- The transfer in progress is the next one of the procedure of loop `l` (not a part-half write of
R120). -/
def Part.schedTransferring (p : Part) (l : LoopId) : Bool :=
  match p.port.inFlight with
  | some t => t.requester == .sched l && !t.orphan && !t.urgent
  | none => false

/-- What is left of a procedure when only its transfer in progress is kept. -/
def Part.keepTransfer (p : Part) (l : LoopId) : List SchedOp :=
  if p.schedTransferring l then (p.eng l).sched.take 1 else []

end Sys2Proof.Machine
end

