-- ==== Sys2Proof/Machine/Flags.lean ====
section
/-! DEFINITION. CAUSE, MASK and INT_N; the counters that report events; CONTROL as it is read. -/

namespace Sys2Proof.Machine

open Sys2Proof

/-- The bit of a loop's cause in CAUSE and MASK (R163, 12_formats). -/
def causeBit (l : LoopId) (c : Cause) : Word :=
  match l with
  | .A => 1 <<< c.index
  | .B => 1 <<< (16 + c.index)

/-- A set request from a loop engine; it is discarded while RESETTING is set (R163). -/
def Part.raiseCause (l : LoopId) (c : Cause) (p : Part) : Part :=
  if p.resetting then p else { p with cause := p.cause ||| causeBit l c }

/-- INT_N is active exactly when CAUSE and MASK have a set flag in common (R163); while RESET_N is
active it is inactive (R168). -/
def Part.intActive (p : Part) : Bool := !p.resetHeld && (p.cause &&& p.mask) != 0

/-- A test of the loop runs in INTERNAL_RETURN: its receiver is fed inside the part from the latching of
TEST entry on (R151, R153). -/
def Engine.internalReturn (e : Engine) : Bool :=
  e.ctl.state == .test && e.ctl.validated && e.cfg.testMode == 0

/-- TXEN of a loop: its Framer drives the line (R2). In INTERNAL_RETURN the line is not driven (R153). -/
def Engine.txen (e : Engine) : Bool := e.framer.sending.isSome && !e.internalReturn

/-- The loop states in which frame errors count in the error window (R132). -/
def LoopState.countsErrors : LoopState → Bool
  | .rollcall | .running | .draining => true
  | .off | .starting | .quiet | .down | .jammed | .test | .fault => false

/-- The loop states in which the CARRIER criterion is judged (R133). -/
def LoopState.judgesCarrier : LoopState → Bool
  | .rollcall | .running | .draining | .quiet => true
  | .off | .starting | .down | .jammed | .test | .fault => false

/-- The loop states in which the JAM criterion is judged (R133). -/
def LoopState.judgesJam : LoopState → Bool
  | .rollcall | .running | .quiet => true
  | .off | .starting | .draining | .down | .jammed | .test | .fault => false

/-- One frame error reported to the Line Monitor (R11, R131, R132): the totals count it, and in the
judged states the error window, which may meet the ERRORS criterion. -/
def Engine.countFrameError (e : Engine) : Engine :=
  let total := satInc e.mon.totalErrors
  if e.ctl.state.countsErrors then
    let w := satInc e.mon.windowErrors
    { e with mon := { e.mon with totalErrors := total, windowErrors := w,
                                 errorsMet := e.mon.errorsMet ||
                                   (e.cfg.errorThreshold != 0 && w == e.cfg.errorThreshold) } }
  else { e with mon := { e.mon with totalErrors := total } }

/-- One collision reported to the Line Monitor: one collision and one frame error (R12). -/
def Engine.countCollision (e : Engine) : Engine :=
  Engine.countFrameError { e with mon := { e.mon with collisions := satInc e.mon.collisions } }

/-- Read and clear the window errors and the silent-cycle run (R127, R134). -/
def LineMonitor.clearRuns (m : LineMonitor) : LineMonitor :=
  { m with windowErrors := 0, silentRun := 0, errorsMet := false, silenceMet := false }

/-- CONTROL as a read returns it (R160); during RESETTING both states read OFF, with no RETIME pending
and no owner (R157). The bits that 12_formats assigns to nothing, 30:12, return 0 (log 48). -/
def Part.controlRead (p : Part) : Word :=
  if p.resetting then 0x80000000
  else
    (0 : BitVec 20) ++ ownerCode p.testUnit.owner
      ++ BitVec.ofBool p.engB.ctl.retimePending ++ BitVec.ofBool p.engA.ctl.retimePending
      ++ p.engB.ctl.state.code.extractLsb' 0 4 ++ p.engA.ctl.state.code.extractLsb' 0 4

end Sys2Proof.Machine
end

