-- ==== Sys2Proof/Machine/Framer.lean ====
section
/-! DEFINITION. The Line Framer: idle line, transmission, receiver (01, R1 to R14). -/

namespace Sys2Proof.Machine

open Sys2Proof

/-- The character time C at the latched rate (R1). -/
def Engine.charTime (e : Engine) : Nat := Config.charTime e.cfg.bitRate

/-- The time a frame occupies the line: (7 + n) C (R2). -/
def Engine.frameTime (e : Engine) (f : TxFrame) : Nat := (7 + f.payload.length) * e.charTime

/-- The line is idle: at mark for 4 C since the end of the last stop bit (R2). -/
def Engine.lineIsIdle (e : Engine) (now : Nat) : Bool :=
  e.framer.sending.isNone && e.framer.activity.isNone &&
    decide (e.framer.markSince + 4 * e.charTime ≤ now)

/-- What the part may send in each loop state (R124). -/
def LoopState.maySend : LoopState → TxPurpose → Bool
  | .running, .beacon => true
  | .running, .request => true
  | .rollcall, .request => true
  | .quiet, .keepalive => true
  | .test, .test => true
  | _, _ => false

/-- The loop runs at a latched bit rate: in STARTING from OFF and in TEST only once the entry has latched
one (R14, R126 step 3, R151 step 3). A wake entry goes on at the rate latched before it (R143). -/
def Engine.rateLatched (e : Engine) : Bool :=
  match e.ctl.state with
  | .starting => !e.ctl.startFromOff || e.ctl.validated
  | .test => e.ctl.validated
  | .off | .rollcall | .running | .draining | .quiet | .down | .jammed | .fault => true

/-- After 4 C of mark the receiver leaves DISCARD for HUNT (R4). -/
def Receiver.afterIdle : Receiver → Receiver
  | .discard => .hunt
  | r => r

/-- The transmission of the held frame begins: the receiver reads it back, unless it is fed inside the
part (R4, R12). -/
def Engine.beginSend (now : Nat) (e : Engine) : Engine :=
  match e.framer.held with
  | none => e
  | some f =>
    { e with framer := { e.framer with
        held := none
        sending := some { frame := f, start := now, readBack := 0 }
        receiver := if e.internalReturn then e.framer.receiver else .readback } }

/-- A frame is handed to the Framer: it goes out at once if the line is idle, and is held until then if
not (R2). Only what the loop state lets the part send is taken (R124). One frame is held at a time: a
keepalive that is still held when the next one comes is replaced by it (R143; log 37). A cycle beacon handed over
in the announce window is taken like any other (R63 against R72, the model's choice; log 54). -/
def Engine.handFrame (now : Nat) (f : TxFrame) (e : Engine) : Engine :=
  if e.ctl.state.maySend f.purpose then
    let h := { e with framer := { e.framer with held := some f } }
    if h.lineIsIdle now then
      Engine.beginSend now
        { h with framer := { h.framer with receiver := h.framer.receiver.afterIdle } }
    else h
  else e

/-- A transmission is cut off at once and a held frame is not sent (R134). The receiver waits out the
disturbance in DISCARD (log 16). -/
def Engine.cutOff (now : Nat) (e : Engine) : Engine :=
  match e.framer.sending with
  | some _ =>
    { e with framer := { e.framer with
        held := none, sending := none, receiver := .discard, markSince := now } }
  | none => { e with framer := { e.framer with held := none } }

/-- A frame held for an idle line is given up unsent (R59, R128, R148). -/
def Engine.dropHeld (purpose : TxPurpose) (e : Engine) : Engine :=
  match e.framer.held with
  | some f => if f.purpose = purpose then { e with framer := { e.framer with held := none } } else e
  | none => e

/-- A frame of the given purpose is being sent. -/
def Engine.isSending (e : Engine) (purpose : TxPurpose) : Bool :=
  match e.framer.sending with
  | some x => x.frame.purpose == purpose
  | none => false

/-- The Framer stops: nothing is driven, a frame being received is abandoned, and the carrier and jam
measures stop (R14, R130). -/
def Engine.stopFramer (e : Engine) : Engine :=
  { e with framer := Framer.stopped, mon := { e.mon with carrierSince := none } }

/-- The Framer starts when the loop leaves OFF: the receiver is in DISCARD and the measures begin
(R14, R133; log 17). -/
def Engine.startFramer (now : Nat) (e : Engine) : Engine :=
  { e with
    framer := { running := true, receiver := .discard, held := none, sending := none, activity := none,
                markSince := now }
    mon := { e.mon with carrierSince := if e.mon.biasOk then none else some now } }

/-- The receiver is collecting a frame (R63: "a frame is being received"). A frame counts from the end of
its lead character, by which the receiver knows it (log 38). -/
def Receiver.receiving : Receiver → Bool
  | .frame _ => true
  | .hunt | .discard | .readback => false

/-- The receiver is collecting a frame that is not yet complete (R4). -/
def Receiver.collecting : Receiver → Bool
  | .frame cs => !frameComplete cs
  | .hunt | .discard | .readback => false

/-- An attempt or a received frame is on the line at a grid point, so its beacon is late (R63). A request
still held for an idle line is not yet being sent; an attempt whose overlong reply is being skipped is on the
line until it has finished, also while it waits out the mark after a frame error (R79; log 50). -/
def Engine.lineTaken (e : Engine) : Bool :=
  e.framer.receiver.receiving ||
    (e.cyc.turn.isSome &&
      (e.isSending .request || e.xu.state == .awaiting || e.xu.state == .receiving ||
       e.xu.state == .skipping))

end Sys2Proof.Machine
end

