-- ==== Sys2Proof/Machine/Stations.lean ====
section
/-! DEFINITION. Station contexts, the Relay Table, completions and settlements (02 R35, 03, 06). -/

namespace Sys2Proof.Machine

open Sys2Proof

/-! ### Context changes -/

/-- SYNC pending is set; T and E go back to 0 with it (R17, R54). -/
def Context.setSync (c : Context) : Context :=
  { c with txSeq := false, rxSeq := false, syncPending := true }

/-- The fresh fields of a host half (R48). -/
def StationHost.fresh (h : StationHost) : Fresh :=
  { intervalCode := h.intervalCode, phase := h.phase, maxReply := h.maxReply,
    replyTimeout := h.replyTimeout, retryLimit := h.retryLimit, acceptAnnounce := h.acceptAnnounce,
    wake := h.wake, halt := h.halt, releaseCount := h.releaseCount, chainHead := h.chainHead,
    collectDelay := h.collectDelay, patience := h.patience }

/-- The binding fields of a host half (R43). -/
def StationHost.binding (h : StationHost) : Binding :=
  { loop := h.loop, cls := h.cls, lineAddress := h.lineAddress, coupler := h.coupler }

/-- The context of a station newly admitted to loop `l`, with SYNC pending (R46 steps 1 to 4). -/
def StationHost.admitted (h : StationHost) (l : LoopId) : Context :=
  { Context.reset with owner := some l, state := .ready, binding := h.binding, fresh := h.fresh,
                       syncPending := true, latchedRelease := h.releaseCount }

/-- Entry to HALTED (R50 steps 3 to 6): a station already HALTED stays as it is. -/
def Context.halt (r : ReasonCode) (c : Context) : Context :=
  if c.state = .halted then c
  else { c with state := .halted, reason := r, latchedRelease := c.fresh.releaseCount, failures := 0 }

/-- Leaving HALTED (R51). -/
def Context.release (c : Context) : Context :=
  { c.setSync with state := .ready, reason := .none }

/-- The state a completion gives the station (R35 step 4, R50, R52, R47). -/
def Context.afterRecord (a : AfterRecord) (c : Context) : Context :=
  match a with
  | .ready => { c with state := .ready }
  | .silent => { c with state := .silent }
  | .absent => { c with state := .absent }
  | .halted r => c.halt r
  | .disabled => { c with state := .disabled, reason := .none, parked := none }
  | .rejected => { c with state := .rejected, reason := .field, parked := none }

/-- The flag that a completion flips (R90). -/
def Context.flip (f : SeqFlip) (c : Context) : Context :=
  match f with
  | .none => c
  | .tx => { c with txSeq := !c.txSeq }
  | .rx => { c with rxSeq := !c.rxSeq }

/-- What the DONE write of record `k` changes in the context once it has completed (R35 step 4). -/
def Context.complete (k : RecordIx) (f : SeqFlip) (a : AfterRecord) (c : Context) : Context :=
  Context.afterRecord a
    (Context.flip f { c with parked := some k, inHand := none, phase := .none, copy := none,
                             completed := c.completed + 1 })

/-- What the ACTIVE write of record `k` changes in the context once it has completed (R34, R92). -/
def Context.take (k : RecordIx) (copy : RecordCopy) (c : Context) : Context :=
  { c with inHand := some k, copy := some copy, state := .active, phase := .first, recAttempts := 0,
           recHolds := 0, recDuplicates := 0, recLatency := 0xFFFF }

/-- A record is bad when its copy breaks the limits of R34. -/
def RecordCopy.bad (r : RecordCopy) (relayed : Bool) : Bool :=
  let n := r.requestLength.toNat
  (r.kind != 1 && r.kind != 2) || (r.kind == 1 && 8 < n) || (r.kind == 2 && (n == 0 || 96 < n)) ||
    (relayed && 93 < n)

/-! ### The Relay Table (R98 to R100) -/

/-- The entry numbers of the Relay Table, in ascending order. -/
def relayIndexes : List (Fin 8) := List.finRange 8

/-- The entry held for a relayed station of a loop. -/
def Part.relayOf (p : Part) (i : StationIx) : Option RelayEntry :=
  relayIndexes.findSome? fun e =>
    match p.relays[e] with
    | some r => if r.station = i then some r else none
    | none => none

/-- An entry in use names the coupler (R99). -/
def Part.couplerClaimed (p : Part) (j : StationIx) : Bool :=
  relayIndexes.any fun e =>
    match p.relays[e] with
    | some r => r.coupler == j
    | none => false

/-- The lowest-numbered free entry (R99). -/
def Part.freeRelay (p : Part) : Option (Fin 8) :=
  relayIndexes.find? fun e => p.relays[e].isNone

/-- The claim of an entry, judged on the table as it stands (R99): none when it fails. -/
def Part.claimRelay (p : Part) (r : RelayEntry) : Option Part :=
  if p.couplerClaimed r.coupler then none
  else p.freeRelay.map fun (e : Fin 8) => { p with relays := p.relays.set e (some r) }

/-- Change the entries of the table that are in use, each by itself. -/
def Part.mapRelays (f : RelayEntry → Option RelayEntry) (p : Part) : Part :=
  { p with relays := p.relays.map fun o => o.bind f }

/-- Release the entry of a relayed station, if it holds one (R100). -/
def Part.releaseRelay (i : StationIx) (p : Part) : Part :=
  p.mapRelays fun r => if r.station = i then none else some r

/-- Release every entry a loop holds (R56, R100). -/
def Part.releaseLoopRelays (l : LoopId) (p : Part) : Part :=
  p.mapRelays fun r => if r.loop = l then none else some r

/-- The coupler's ACK: the entry of the station goes to COLLECTING (R103). -/
def Part.collectRelay (i : StationIx) (p : Part) : Part :=
  p.mapRelays fun r => if r.station = i then some { r with phase := .collecting } else some r

/-- A HOLD to a collect adds one to the waiting count (R104). -/
def Part.waitRelay (i : StationIx) (p : Part) : Part :=
  p.mapRelays fun r => if r.station = i then some { r with waiting := satInc r.waiting } else some r

/-- The cycles passed since the start cycle of the station's entry, modulo 2^32 (R101, R105). -/
def Part.relayAge (p : Part) (l : LoopId) (i : StationIx) : Nat :=
  match p.relayOf i with
  | some r => ((p.eng l).rep.cycleNumber - r.startCycle).toNat
  | none => 0

/-! ### Completion and settlement -/

/-- The causes of a completion (R35 step 5, R90). -/
def completionCauses (notify : Bool) (outcome : RecordOutcome) : List SchedOp :=
  if outcome = .ok then (if notify then [.raise .exdone] else []) else [.raise .exfault]

/-- The writes and causes of a completion, in order (R35). -/
def completionOps (i : StationIx) (k : RecordIx) (notify : Bool) (outcome : RecordOutcome)
    (payload : List Byte) (flip : SeqFlip) (after : AfterRecord) : List SchedOp :=
  (if payload.isEmpty then [] else [.writePayload k payload])
  ++ [.writeResult i k outcome (BitVec.ofNat 8 payload.length), .writeDone i k flip after,
      .writeStationHalf i]
  ++ completionCauses notify outcome

/-- NOTIFY of the record in hand. -/
def Context.notify (c : Context) : Bool :=
  match c.copy with
  | some r => r.notify
  | none => false

/-- The completion of the record in hand of a station, and what follows its causes. With no record in
hand nothing is written. -/
def Part.completionOf (p : Part) (i : StationIx) (outcome : RecordOutcome) (payload : List Byte)
    (flip : SeqFlip) (after : AfterRecord) : List SchedOp :=
  match (p.ctx i).inHand with
  | some k => completionOps i k (p.ctx i).notify outcome payload flip after
  | none => []

/-- Settle the record in hand of a station with an outcome: the relay entry is released first, then the
completion is made ahead of what is left of the procedure (R49, R100, R129, R134). -/
def Part.settleRecord (l : LoopId) (i : StationIx) (outcome : RecordOutcome) (after : AfterRecord)
    (follow : List SchedOp) (p : Part) : Part :=
  let ops := p.completionOf i outcome [] .none after
  Part.pushFront l (ops ++ follow) (p.releaseRelay i)

/-- The stations a loop owns that have a record in hand, in ascending index. -/
def Part.holders (p : Part) (l : LoopId) : List StationIx :=
  allStations.filter fun i => (p.ctx i).owner == some l && (p.ctx i).inHand.isSome

/-- Expand a settlement of all records in hand into one settlement after another (R129, R134). -/
def Part.settleAllOps (p : Part) (l : LoopId) (outcome : RecordOutcome) : List SchedOp :=
  (p.holders l).flatMap fun i => [.settle i outcome, .mark]

/-- The DONE write of loop `l` that is in progress, if one is. At a FAULT or a soft reset the step of its completion
that follows from it alone, the context change, is still made (R35). -/
def Part.doneInProgress (p : Part) (l : LoopId) : List SchedOp :=
  (p.keepTransfer l).filter fun op =>
    match op with
    | .writeDone _ _ _ _ => true
    | _ => false

/-! ### Latency (R92, R93) -/

/-- An exceedance of the trap threshold acts on the slot: the slot, and whether TRAP is to be raised
(R93). -/
def TrapSlot.offer (threshold : BitVec 16) (i : StationIx) (latency cycle : BitVec 16) (t : TrapSlot) :
    TrapSlot × Bool :=
  if threshold != 0 && threshold.toNat < latency.toNat then
    if t.armed then
      ({ t with armed := false, station := BitVec.ofNat 6 i.val, latency := latency, cycle := cycle }, true)
    else ({ t with missed := satInc t.missed }, false)
  else (t, false)

/-- A latency is committed: it is the record's, it raises the station's max latency, which saturates at
65534, and it is offered to the loop's trap (R92). The flag says that TRAP is to be raised. -/
def Part.commitLatency (l : LoopId) (i : StationIx) (latency : BitVec 16) (p : Part) : Part × Bool :=
  let e := p.eng l
  let offered := e.trap.offer e.cfg.trapThreshold i latency (e.rep.cycleNumber.extractLsb' 0 16)
  let cap : BitVec 16 := if latency = 0xFFFF then 0xFFFE else latency
  (Part.modCtx i (fun c => { c with recLatency := latency,
                                    maxLatency := if c.maxLatency.toNat < cap.toNat then cap
                                                  else c.maxLatency })
      (Part.modEng l (fun e => { e with trap := offered.1 }) p),
    offered.2)

end Sys2Proof.Machine
end

