-- ==== Sys2Proof/Machine/LoopStates.lean ====
section
/-! DEFINITION. Entering and leaving the loop states (08, 09 R142, R148, 10 R151). -/

namespace Sys2Proof.Machine

open Sys2Proof

/-! ### Times of the timing group -/

/-- A duration of the timing group in CLK periods (R22). -/
def groupTime (x : BitVec 16) : Nat := x.toNat * Config.clkPer100us

/-- The timing group fits: the cycle length is 100 or more, and beacon time (20 C), periodic budget and
announce window do not exceed it (R62). -/
def timingFits (rate : Byte) (cycle budget window : BitVec 16) : Bool :=
  decide (100 ≤ cycle.toNat) &&
    decide (20 * Config.charTime rate + groupTime budget + groupTime window ≤ groupTime cycle)

/-- A field for which 0 is taken as 1: window W, down hold, jam release (R126). -/
def atLeastOne (x : Byte) : Nat := if x = 0 then 1 else x.toNat

/-! ### Leaving RUNNING -/

/-- The cycle in progress ends where it stands: the grid, the phase, the due set and the marks are
discarded (R57, R73). The round-robin pointer and a turn under way stay. -/
def CycleScheduler.stop (c : CycleScheduler) : CycleScheduler :=
  { c with nextGrid := none, marked := none, late := false, lateTaken := false, phase := .none,
           dueSet := [], visited := [],
           attempted := false, answered := false, firstOfGrid := false, overrun := false,
           announceStarted := false }

/-! ### OFF (R130) -/

/-- A held catch frame at an entry to OFF (R122): a FILLED write in progress still makes its fill;
otherwise the walk ends and the frame is a drop. -/
def Part.dropCatch (l : LoopId) (p : Part) : Part :=
  match (p.eng l).catcher.buffer with
  | none => p
  | some _ =>
    let filling : Bool := match (p.eng l).catcher.walk with
      | some (.writeFilled _) => p.transferring (.catcher l)
      | _ => false
    if filling then p
    else
      Part.modEng l (fun e => { e with catcher := { e.catcher with
          buffer := none, walk := none, drops := satInc e.catcher.drops } })
        (p.orphan (.catcher l))

/-- The Test Pattern Unit is freed if the loop held it; status and counters stay (R150). -/
def Part.freeTest (l : LoopId) (p : Part) : Part :=
  if p.testUnit.owner = some l then { p with testUnit := { p.testUnit with owner := none } } else p

/-- What an engine holds on entering OFF (R130): contexts, counters, pointer and trap are kept. -/
def Engine.toOff (e : Engine) : Engine :=
  let s := e.stopFramer
  { s with
    ctl := { s.ctl with state := .off, drainTarget := none, returnTarget := none, rollRequest := false,
                        retimePending := false, validated := false }
    cyc := { s.cyc.stop with turn := none }
    xu := { state := .idle, attempt := none }
    mon := { s.mon with errorsMet := false, silenceMet := false, downSince := none, holdPassed := false,
                        presenceSince := none }
    rollList := [], rollSecond := false }

/-- The entry to OFF, with what is written and raised after it (R130). -/
def Part.enterOff (l : LoopId) (follow : List SchedOp) (p : Part) : Part :=
  Part.push l follow (Part.modEng l Engine.toOff (Part.freeTest l (p.dropCatch l)))

/-! ### RUNNING, ROLLCALL, QUIET -/

/-- The entry to RUNNING starts a new grid, whose first boundary is that moment (R57). -/
def Engine.toRunning (now : Nat) (e : Engine) : Engine :=
  { e with
    ctl := { e.ctl with state := .running, drainTarget := none, returnTarget := none }
    cyc := { e.cyc.stop with nextGrid := some (now + groupTime e.cfg.cycleLength), marked := some now,
                             late := e.lineTaken, firstOfGrid := true, turn := none } }

/-- The entry to RUNNING, its part-half write, and the causes after it. -/
def Part.enterRunning (l : LoopId) (follow : List SchedOp) (p : Part) : Part :=
  Part.push l (.writeLoopHalf :: follow) (p.modEng l (Engine.toRunning p.now))

/-- A station is on the roll list: direct, admitted, and READY, ACTIVE, SILENT or ABSENT (R137). -/
def Context.onRollList (l : LoopId) (c : Context) : Bool :=
  c.admittedTo l && c.binding.direct && c.state != .halted

/-- The entry to ROLLCALL (R137). An empty list ends it at once (R139). -/
def Part.enterRollcall (l : LoopId) (follow : List SchedOp) (p : Part) : Part :=
  let list := allStations.filter fun i => (p.ctx i).onRollList l
  let q := p.modEng l fun e =>
    { e.dropHeld .beacon with
      ctl := { e.ctl with state := .rollcall, drainTarget := none, returnTarget := none,
                          rollRequest := false }
      cyc := { e.cyc.stop with turn := none }
      rep := { e.rep with rollPresent := 0, rollAbsent := 0 }
      rollList := list, rollSecond := false }
  if list.isEmpty then q.enterRunning l (follow ++ [.raise .rolldone])
  else q.push l (.writeLoopHalf :: follow)

/-- The entry to QUIET: the part half is written and the keepalive timer starts (R142, R143). Its instant tells an
activity that began before it from one begun in QUIET (R144). -/
def Part.enterQuiet (l : LoopId) (follow : List SchedOp) (p : Part) : Part :=
  Part.push l (.writeLoopHalf :: follow)
    (p.modEng l fun e =>
      { e with
        ctl := { e.ctl with state := .quiet, drainTarget := none, returnTarget := none }
        cyc := { e.cyc.stop with turn := none }
        keepaliveFrom := p.now, quietFrom := p.now })

/-! ### STARTING (R126, R127, R149) -/

/-- The entry to STARTING from OFF or by a wake: the descriptor reads come first (R126). A wake entry has
the first-cycle flag clear (R58, R149). -/
def Part.enterStarting (l : LoopId) (fromOff : Bool) (p : Part) : Part :=
  Part.push l [.readGlobal, .readLoopHost .starting, .startValidate]
    (p.modEng l fun e =>
      let f := if fromOff then e.startFramer p.now else e.dropHeld .keepalive
      { f with
        ctl := { f.ctl with state := .starting, retimePending := false, startFromOff := fromOff,
                            validated := false }
        cyc := { f.cyc.stop with turn := none, firstCycle := f.cyc.firstCycle && fromOff }
        xu := { state := .idle, attempt := none } })

/-- The reads and judgements of a roster scan (R41), one step of its procedure. -/
def scanOps : List SchedOp :=
  allStations.map .readStationHost ++ allStations.map .judge ++ [.mark]

/-- The start error that the validation of STARTING finds first (R126 step 2). -/
def startError (poolSize : BitVec 16) (h : LoopHost) : StartError :=
  if poolSize.toNat < 1 || 1023 < poolSize.toNat then .pool
  else if 3 < h.bitRate.toNat then .rate
  else if !timingFits h.bitRate h.cycleLength h.periodicBudget h.announceWindow then .timing
  else .none

/-- A START or a TEST refused at validation: OFF, the part half, then REFUSED (R126, R151). -/
def Part.refuseStart (l : LoopId) (err : StartError) (p : Part) : Part :=
  Part.enterOff l [.writeLoopHalf, .raise .refused]
    (p.modEng l fun e => { e with rep := { e.rep with startError := err } })

/-- STARTING step 2 (R126). -/
def Part.startValidate (l : LoopId) (p : Part) : Part :=
  let e := p.eng l
  match startError e.globalSize e.hostBuf with
  | .none =>
    Part.pushFront l
      ([.awaitTransmitter, .startLatch, .mark, .startResets, .writeLoopHalf, .mark] ++ scanOps
        ++ [.startNext])
      (p.modEng l fun e => { e with ctl := { e.ctl with validated := true } })
  | err => p.refuseStart l err

/-- The fields that STARTING latches; the test fields stay as the last TEST entry latched them (R22). -/
def LoopHost.latchStart (h old : LoopHost) : LoopHost :=
  { h with testLength := old.testLength, echoAddress := old.echoAddress, testCount := old.testCount,
           testMode := old.testMode, counterMode := old.counterMode }

/-- STARTING step 3 (R126): the latches, the receiver in DISCARD, the Exchange Unit IDLE. The pool is
latched here with the rest: a catch walk that begins after the global read and before this step uses the
old one (log 42). -/
def Part.startLatch (l : LoopId) (p : Part) : Part :=
  p.modEng l fun e =>
    { e with
      cfg := e.hostBuf.latchStart e.cfg
      poolBase := e.globalBase, poolSize := e.globalSize
      framer := { e.framer with receiver := .discard }
      rep := { e.rep with startError := .none }
      ctl := { e.ctl with retimePending := false }
      xu := { state := .idle, attempt := none } }

/-- The contexts a loop owns. -/
def Part.owned (p : Part) (l : LoopId) : List StationIx :=
  allStations.filter fun i => (p.ctx i).owner == some l

/-- Change every context that a loop owns. -/
def Part.mapOwned (l : LoopId) (f : Context → Context) (p : Part) : Part :=
  { p with contexts := p.contexts.map fun c => if c.owner = some l then f c else c }

/-- STARTING step 4 (R127): from OFF the contexts, relay entries, counters, cycle number, trap slot,
pointer and catch path are reset; a wake entry keeps them (R149). Both clear the monitor's runs. A catch
frame is not held here in any run, since the receiver takes none before step 3 (R14, R127); in a state that
holds one it is discarded with no drop, and its walk given up (log 34). -/
def Part.startResets (l : LoopId) (p : Part) : Part :=
  if (p.eng l).ctl.startFromOff then
    let owned := p.owned l
    let q := ((p.mapOwned l fun _ => Context.reset).releaseLoopRelays l).orphan (.catcher l)
    q.modEng l fun e =>
      { e with
        rep := { LoopReport.reset with startError := e.rep.startError }
        cyc := { e.cyc with firstCycle := true, pointer := 0 }
        trap := TrapSlot.reset
        catcher := CatchUnit.reset
        mon := e.mon.clearRuns
        resetSet := owned }
  else p.modEng l fun e => { e with mon := e.mon.clearRuns, resetSet := [] }

/-- STARTING step 6 (R126). -/
def Part.startNext (l : LoopId) (p : Part) : Part :=
  if (p.eng l).cfg.rollAtStart then p.enterRollcall l [] else p.enterRunning l []

/-! ### DRAINING (R128, R129) -/

/-- The entry to DRAINING: state and target change at once; the step or turn under way runs on, later
steps are not made, and a beacon not yet begun is not sent (R126, R128). After STARTING step 4 with no scan
the stations it reset get no part-half write (log 35). In a wake's STARTING with its keepalive still on the line
the beacon runs to its end of frame, and step 3, which waits for it, is then the step under way (log 52). -/
def Part.enterDraining (l : LoopId) (target : DrainTarget) (p : Part) : Part :=
  Part.pushUrgent l [.writeLoopHalf]
    (p.modEng l fun e =>
      { e.dropHeld .beacon with
        ctl := { e.ctl with state := .draining, drainTarget := some target, rollRequest := false }
        cyc := { e.cyc.stop with turn := e.cyc.turn }
        sched := (keepStep e.sched).filter (fun op => op != .rollEnd)
        mon := { e.mon with silenceMet := false } })

/-- After the last settlement the loop enters the drain target as it then stands (R129). A REFUSED that
is still owed for a RETIME comes after the write (log 20). -/
def Part.enterTarget (l : LoopId) (p : Part) : Part :=
  match (p.eng l).ctl.drainTarget with
  | some .quiet => p.enterQuiet l [.raiseRetimeRefused]
  | some .off => p.enterOff l [.writeLoopHalf, .raiseRetimeRefused]
  | none => p.enterOff l [.writeLoopHalf, .raiseRetimeRefused]

/-! ### DOWN and JAMMED (R134, R136) -/

/-- The return target by the state left (R134 step 1). -/
def returnTargetOf (c : LoopControl) : Option ReturnTarget :=
  match c.state with
  | .quiet => some .quiet
  | .draining => match c.drainTarget with
    | some .quiet => some .quiet
    | some .off => some .off
    | none => some .off
  | .rollcall => some .rollcall
  | .running => some .running
  | .off | .starting | .down | .jammed | .test | .fault => none

/-- What is left of the procedure under way at an entry to DOWN or JAMMED (R134 step 2): of a fetch its
transfer in progress, of everything else the step it is in; a roll-call does not end and a turn makes no
further attempt (log 21). -/
def Part.downKeep (p : Part) (l : LoopId) : List SchedOp :=
  let fetching : Bool := match (p.eng l).cyc.turn with
    | some t => t.stage == .fetch
    | none => false
  if fetching then p.keepTransfer l
  else (keepStep (p.eng l).sched).filter fun op =>
    match op with
    | .rollEnd | .followOn _ | .endTurn => false
    | _ => true

/-- The latency of the record of an attempt that is abandoned becomes 65535 (R96). -/
def Part.abandonLatency (l : LoopId) (p : Part) : Part :=
  match (p.eng l).xu.attempt with
  | some a =>
    match a.kind, a.station with
    | .roll, _ => p
    | .test, _ => p
    | _, some i => p.modCtx i fun c => { c with recLatency := 0xFFFF }
    | _, none => p
  | none => p

/-- The cause of an entry to DOWN or JAMMED (R134 step 6). -/
def downCause (r : DownReason) : Cause := if r = .jam then .jam else .down

/-- The entry to DOWN or JAMMED (R134). A turn that it cuts short does not end by R70, so the round-robin pointer
stays where it stands (log 51). -/
def Part.enterDown (l : LoopId) (r : DownReason) (p : Part) : Part :=
  let keep := p.downKeep l
  (p.abandonLatency l).modEng l fun e =>
    let f := e.cutOff p.now
    { f with
      ctl := { f.ctl with state := if r = .jam then .jammed else .down, drainTarget := none,
                          returnTarget := returnTargetOf e.ctl }
      rep := { f.rep with downReason := r }
      cyc := { f.cyc.stop with turn := none }
      xu := { state := .idle, attempt := none }
      mon := { f.mon.clearRuns with downSince := some p.now, holdPassed := false, presenceSince := none }
      rollList := [], rollSecond := false
      sched := keep ++ [.settleAll .lineLost, .writeLoopHalf, .raise (downCause r), .raiseRetimeRefused] }

/-- Leaving DOWN or JAMMED by the return target (R136). -/
def Part.recover (l : LoopId) (p : Part) : Part :=
  let e := p.eng l
  let q := p.modEng l fun e =>
    { e with mon := { e.mon with downSince := none, holdPassed := false, presenceSince := none } }
  match e.ctl.returnTarget with
  | some .quiet => q.enterQuiet l [.raise .up]
  | some .rollcall => q.enterRollcall l [.raise .up]
  | some .running =>
    if e.cfg.rollAtRecovery || e.ctl.rollRequest then q.enterRollcall l [.raise .up]
    else q.enterRunning l [.raise .up]
  | some .off => q.enterOff l [.writeLoopHalf, .raise .up]
  | none => q.enterOff l [.writeLoopHalf, .raise .up]

/-! ### FAULT (R140) -/

/-- A context at a FAULT of its loop: the record in hand is dropped, an ACTIVE station is READY (R56). -/
def Context.faulted (c : Context) : Context :=
  { c with inHand := none, copy := none, phase := .none,
           state := if c.state = .active then .ready else c.state }

/-- The Test Pattern Unit at a FAULT of its owner: ABANDONED, a frame in flight lost, the unit freed
(R156). -/
def Part.abandonTest (l : LoopId) (p : Part) : Part :=
  if p.testUnit.owner = some l then
    { p with testUnit := { p.testUnit with
        owner := none, status := .abandoned, copy := []
        lost := if p.testUnit.copy.isEmpty then p.testUnit.lost else satInc p.testUnit.lost } }
  else p

/-- What an engine holds on entering FAULT (R140). A REFUSED still owed for a RETIME is not raised. -/
def Engine.toFault (e : Engine) : Engine :=
  let s := e.stopFramer
  { s with
    ctl := { s.ctl with state := .fault, drainTarget := none, returnTarget := none, rollRequest := false,
                        validated := false }
    cyc := { s.cyc.stop with turn := none, retimeRefused := false }
    xu := { state := .idle, attempt := none }
    mon := { s.mon with errorsMet := false, silenceMet := false, downSince := none, holdPassed := false,
                        presenceSince := none }
    rollList := [], rollSecond := false
    sched := [], urgent := []
    catcher := { s.catcher with walk := none } }

/-- The entry to FAULT (R140): no further transfer is made for either requester, nothing is written. Of the
procedure only a DONE write in progress is kept, whose context change R35 lets stand; every other transfer
in progress ends without a result. -/
def Part.enterFault (l : LoopId) (p : Part) : Part :=
  let done := p.doneInProgress l
  let q := ((p.mapOwned l Context.faulted).releaseLoopRelays l).abandonTest l
  let r := if done.isEmpty then q.orphan (.sched l) else q
  Part.raiseCause l .busfault
    (Part.push l done (Part.modEng l Engine.toFault (r.orphan (.catcher l))))

end Sys2Proof.Machine
end

