-- ==== Sys2Proof/Machine/LineTest.lean ====
section
/-! DEFINITION. Line test: the pattern generator, test frames and their judgement (10). -/

namespace Sys2Proof.Machine

open Sys2Proof

/-- One step of the generator: the new bit is stage 14 xor stage 15, and it enters stage 1 (R152). -/
def lfsrStep (g : BitVec 15) : BitVec 15 × Bool :=
  let new := g.getLsbD 13 ^^ g.getLsbD 14
  ((g <<< 1) ||| (if new then 1 else 0), new)

/-- `n` generator steps, the output bits entering a byte from its least significant end, so that the
first of eight ends in the most significant place (R152). -/
def lfsrBits : Nat → BitVec 15 → Byte → BitVec 15 × Byte
  | 0, g, b => (g, b)
  | n + 1, g, b => lfsrBits n (lfsrStep g).1 ((b <<< 1) ||| (if (lfsrStep g).2 then 1 else 0))

/-- The next `n` payload bytes (R152). -/
def lfsrBytes : Nat → BitVec 15 → BitVec 15 × List Byte
  | 0, g => (g, [])
  | n + 1, g =>
    let b := lfsrBits 8 g 0
    let rest := lfsrBytes n b.1
    (rest.1, b.2 :: rest.2)

/-- The validation of TEST entry (R151 step 2). -/
def testError (h : LoopHost) : StartError :=
  if 3 < h.bitRate.toNat then .rate
  else if 1 < h.testMode.toNat || 1 < h.counterMode.toNat || h.testLength.toNat < 1 ||
      96 < h.testLength.toNat ||
      (h.testMode == 1 && (h.echoAddress.toNat < 1 || 239 < h.echoAddress.toNat)) then .test
  else .none

/-- The fields that TEST entry latches (R22, R151 step 3). -/
def LoopHost.latchTest (h old : LoopHost) : LoopHost :=
  { old with bitRate := h.bitRate, testLength := h.testLength, echoAddress := h.echoAddress,
             testCount := h.testCount, testMode := h.testMode, counterMode := h.counterMode }

/-- A TEST taken in OFF whose claim succeeds: the loop enters TEST and reads its descriptor (R150,
R151). -/
def Part.enterTest (l : LoopId) (p : Part) : Part :=
  Part.push l [.readLoopHost .testing, .testValidate]
    (Part.modEng l (fun e =>
        let s := e.startFramer p.now
        { s with ctl := { s.ctl with state := .test, validated := false } })
      { p with testUnit := { p.testUnit with owner := some l } })

/-- The line that a test's idle rule is applied to from its latch on: RXD in STATION_ECHO, and in INTERNAL_RETURN the
internal path, on which RXD's activity has no effect (R153) and whose mark is measured from the latch (log 46). -/
def Framer.testPath (internal : Bool) (now : Nat) (f : Framer) : Framer :=
  { f with receiver := .discard
           activity := if internal then none else f.activity
           markSince := if internal then now else f.markSince }

/-- TEST entry steps 2 to 5 (R151): the latches, the reset of the unit and the write. -/
def Part.testValidate (l : LoopId) (p : Part) : Part :=
  let h := (p.eng l).hostBuf
  match testError h with
  | .none =>
    Part.pushFront l [.writeLoopHalf, .testFirst]
      (Part.modEng l (fun e =>
          { e with
            cfg := h.latchTest e.cfg
            ctl := { e.ctl with validated := true }
            framer := e.framer.testPath (h.testMode == 0) p.now
            rep := { e.rep with startError := .none }
            xu := { state := .idle, attempt := none } })
        { p with testUnit := { TestUnit.reset with owner := p.testUnit.owner, status := .running } })
  | err => p.refuseStart l err

/-- The attempt record of a test frame in STATION_ECHO (R153). -/
def testAttempt (cfg : LoopHost) : Attempt :=
  { kind := .test, station := none, seq := false, timeout := Config.testReplyTimeout,
    allowance := cfg.testLength, source := cfg.echoAddress, latency := none, buffer := [],
    endOfFrame := 0, timeoutPassed := false, skipBroken := false }

/-- The next test frame: its payload is drawn and copied, it is handed to the Framer and counted
(R153). -/
def Part.prepareTest (l : LoopId) (p : Part) : Part :=
  let e := p.eng l
  let drawn := lfsrBytes e.cfg.testLength.toNat p.testUnit.generator
  let echo := e.cfg.testMode == 1
  let f : TxFrame :=
    { purpose := .test, destination := if echo then e.cfg.echoAddress else 0,
      control := controlByte .test false false, payload := drawn.2 }
  Part.modEng l (fun e =>
      Engine.handFrame p.now f
        { e with xu := if echo then { state := .sending, attempt := some (testAttempt e.cfg) }
                       else { state := .idle, attempt := none } })
    { p with testUnit := { p.testUnit with generator := drawn.1, copy := drawn.2,
                                           sent := satInc p.testUnit.sent } }

/-- TEST entry step 6 (R151). -/
def Part.testFirst (l : LoopId) (p : Part) : Part :=
  if (p.eng l).ctl.state = .test then p.prepareTest l else p

/-- The test goes on after a frame has been counted (R153, R156): at the frame count it is COMPLETE and
the loop enters OFF; otherwise the next frame is prepared. -/
def Part.testNext (l : LoopId) (p : Part) : Part :=
  let count := (p.eng l).cfg.testCount
  let q := { p with testUnit := { p.testUnit with copy := [] } }
  if count != 0 && q.testUnit.sent == count then
    Part.enterOff l [.writeLoopHalf, .raise .testdone]
      { q with testUnit := { q.testUnit with status := .complete } }
  else q.testFirst l

/-- A test frame is lost (R155). -/
def Part.testLost (l : LoopId) (p : Part) : Part :=
  Part.testNext l { p with testUnit := { p.testUnit with lost := satInc p.testUnit.lost } }

/-- How many bytes of a returned payload differ from the copy, with the bytes of the copy beyond its
length (R155). -/
def mismatches : List Byte → List Byte → Nat
  | [], _ => 0
  | c :: cs, [] => (c :: cs).length
  | c :: cs, r :: rs => (if c = r then 0 else 1) + mismatches cs rs

/-- Add to the mismatched-bytes counter by the latched counter mode (R155). -/
def addMismatched (mode : Byte) (x : BitVec 16) (n : Nat) : BitVec 16 :=
  if mode = 1 then x + BitVec.ofNat 16 n
  else if x.toNat + n < 65535 then BitVec.ofNat 16 (x.toNat + n) else 65535

/-- A test frame is returned by a valid frame of the right form: intact or damaged (R155). A frame longer
than the copy that agrees with it over its whole length counts as damaged with no byte added; no run brings
one (log 24). -/
def Part.testReturned (l : LoopId) (payload : List Byte) (p : Part) : Part :=
  let u := p.testUnit
  if payload = u.copy then Part.testNext l { p with testUnit := { u with intact := satInc u.intact } }
  else
    let n := mismatches u.copy payload
    let sum := addMismatched (p.eng l).cfg.counterMode u.mismatched n
    Part.testNext l { p with testUnit := { u with mismatched := sum } }

/-- A STOP in TEST once the test runs (R156). -/
def Part.stopTest (l : LoopId) (p : Part) : Part :=
  let u := p.testUnit
  Part.enterOff l [.writeLoopHalf, .raise .testdone]
    { p with testUnit := { u with status := .stopped, copy := [],
                                  lost := if u.copy.isEmpty then u.lost else satInc u.lost } }

/-- TEST entry is still under way. -/
def Engine.enteringTest (e : Engine) : Bool :=
  e.sched.any fun op => op == .testValidate || op == .testFirst || op == .testAbort

/-- A TEST entry given up by a STOP, once the transfer in progress has completed (R151). -/
def Part.testAbort (l : LoopId) (p : Part) : Part :=
  if (p.eng l).ctl.validated then
    Part.enterOff l [.writeLoopHalf, .raise .testdone]
      { p with testUnit := { p.testUnit with status := .stopped } }
  else p.enterOff l [.writeLoopHalf]

end Sys2Proof.Machine
end

