-- ==== Sys2Proof/Machine/Scan.lean ====
section
/-! DEFINITION. The roster scan: validation, admission, rejection, halt, release, disable (03). -/

namespace Sys2Proof.Machine

open Sys2Proof

/-- The coupler of a relayed station serves it: another station, admitted to this loop now, that is
itself direct (R44). -/
def Part.couplerServes (p : Part) (l : LoopId) (i : StationIx) (coupler : Byte) : Bool :=
  match couplerIndex coupler with
  | some j => j != i && (p.ctx j).admittedTo l && (p.ctx j).binding.direct
  | none => false

/-- A value lies in a range of the station table (R25, R44). -/
def inRange (lo hi : Nat) (x : Byte) : Bool := decide (lo ≤ x.toNat) && decide (x.toNat ≤ hi)

/-- Field validation of a station's host half with the given binding (R44). -/
def Part.fieldsValid (p : Part) (l : LoopId) (i : StationIx) (h : StationHost) (b : Binding) : Bool :=
  inRange 1 239 b.lineAddress && inRange 0 7 h.intervalCode &&
    (b.cls == .aperiodic || decide (h.phase.toNat < 2 ^ h.intervalCode.toNat)) &&
    inRange 1 255 h.replyTimeout && inRange 1 7 h.retryLimit &&
    (if b.direct then inRange 0 96 h.maxReply
     else inRange 0 93 h.maxReply && inRange 0 15 h.collectDelay && inRange 1 255 h.patience &&
       p.couplerServes l i b.coupler)

/-- Another admitted station has the same route and line address (R45). -/
def Part.clashes (p : Part) (l : LoopId) (i : StationIx) (b : Binding) : Bool :=
  allStations.any fun j =>
    j != i && (p.ctx j).admittedTo l && (p.ctx j).binding.coupler == b.coupler &&
      (p.ctx j).binding.lineAddress == b.lineAddress

/-- Why a candidate or a REJECTED station is refused, if it is (R44, R45). -/
def Part.rejectReason (p : Part) (l : LoopId) (i : StationIx) (h : StationHost) : Option ReasonCode :=
  if !p.fieldsValid l i h h.binding then some .field
  else if p.clashes l i h.binding then some .duplicate
  else none

/-- Admission (R46): with halt set the station goes on to HALTED at once. -/
def Part.admitStation (l : LoopId) (i : StationIx) (h : StationHost) (p : Part) : Part :=
  if h.halt then
    Part.pushFront l [.writeStationHalf i, .raise .halted]
      (p.modCtx i fun _ => (h.admitted l).halt .host)
  else Part.pushFront l [.writeStationHalf i] (p.modCtx i fun _ => h.admitted l)

/-- A candidate is claimed, and admitted or rejected (R40, R42, R46, R47). -/
def Part.judgeCandidate (l : LoopId) (i : StationIx) (h : StationHost) (p : Part) : Part :=
  match p.rejectReason l i h with
  | none => p.admitStation l i h
  | some r =>
    Part.pushFront l [.writeStationHalf i, .raise .reject]
      (p.modCtx i fun _ => { h.admitted l with state := .rejected, reason := r })

/-- A REJECTED station is examined again on this scan's host half (R43, R47). -/
def Part.reexamine (l : LoopId) (i : StationIx) (h : StationHost) (p : Part) : Part :=
  match p.rejectReason l i h with
  | none => p.admitStation l i h
  | some r =>
    let q := p.modCtx i fun c => { c with binding := h.binding, fresh := h.fresh, reason := r }
    if r = (p.ctx i).reason then q else q.pushFront l [.writeStationHalf i]

/-- Disable (R52). -/
def Part.disableStation (l : LoopId) (i : StationIx) (p : Part) : Part :=
  match (p.ctx i).inHand with
  | some _ => p.settleRecord l i .disabled .disabled [.disown i]
  | none =>
    Part.pushFront l [.writeStationHalf i, .disown i]
      ((p.releaseRelay i).modCtx i fun c =>
        { c with state := .disabled, reason := .none, phase := .none, parked := none })

/-- An admitted station whose fields fail is rejected (R47). -/
def Part.rejectStation (l : LoopId) (i : StationIx) (p : Part) : Part :=
  match (p.ctx i).inHand with
  | some _ => p.settleRecord l i .disabled .rejected [.raise .reject]
  | none =>
    Part.pushFront l [.writeStationHalf i, .raise .reject]
      ((p.releaseRelay i).modCtx i fun c =>
        { c with state := .rejected, reason := .field, parked := none })

/-- A station that is not HALTED enters HALTED outside an attempt, its record settled HALTED
(R49, R50). -/
def Part.haltStation (l : LoopId) (i : StationIx) (r : ReasonCode) (p : Part) : Part :=
  match (p.ctx i).inHand with
  | some _ => p.settleRecord l i .halted (.halted r) [.raise .halted]
  | none =>
    Part.pushFront l [.writeStationHalf i, .raise .halted]
      ((p.releaseRelay i).modCtx i (Context.halt r))

/-- A retry limit not above the consecutive failures sets them to the limit less one (R48). -/
def Context.clip (limit : Byte) (c : Context) : Context :=
  if limit.toNat ≤ c.failures.toNat then { c with failures := limit - 1 } else c

/-- An admitted station: its fresh fields, then halt and release (R48, R50, R51). -/
def Part.judgeAdmitted (l : LoopId) (i : StationIx) (h : StationHost) (p : Part) : Part :=
  let c := p.ctx i
  if !p.fieldsValid l i h c.binding then p.rejectStation l i
  else
    let q := p.modCtx i fun c => Context.clip h.retryLimit { c with fresh := h.fresh }
    if c.state = .halted then
      if !h.halt && h.releaseCount != c.latchedRelease then
        Part.pushFront l [.writeStationHalf i] (q.modCtx i Context.release)
      else q
    else if h.halt then q.haltStation l i .host
    else if (q.ctx i).failures = c.failures then q
    else q.pushFront l [.writeStationHalf i]

/-- The judgement of entry `i` on the values read for it in this scan (R42, R43). A station that this
STARTING has reset and that stays with owner none has its part half written (R56). One that the other loop has
claimed meanwhile is written by that loop alone (log 49). -/
def Part.judgeEntry (l : LoopId) (i : StationIx) (p : Part) : Part :=
  let h := (p.eng l).scan[i]
  let wasReset := (p.eng l).resetSet.contains i
  let q := p.modEng l fun e => { e with resetSet := e.resetSet.filter (fun j => j != i) }
  match (p.ctx i).owner with
  | some o =>
    if o = l then
      if !h.enable || h.loop != l then q.disableStation l i
      else if (p.ctx i).state = .rejected then q.reexamine l i h
      else q.judgeAdmitted l i h
    else q
  | none =>
    if h.enable && h.loop == l then q.judgeCandidate l i h
    else if wasReset then q.pushFront l [.writeStationHalf i]
    else q

end Sys2Proof.Machine
end

