-- ==== Sys2Proof/Machine/Exchanges.lean ====
section
/-! DEFINITION. The Exchange Unit: attempts and their judgement, direct, relayed, roll-call and test
(05, 06, 08 R138, 10 R155). -/

namespace Sys2Proof.Machine

open Sys2Proof

/-! ### Building an attempt (R75, R102, R104, R138) -/

/-- The request bytes of the record copy. -/
def Context.request (c : Context) : List Byte :=
  match c.copy with
  | some r => r.request
  | none => []

/-- The record in hand is a POLL (R29). -/
def Context.polls (c : Context) : Bool :=
  match c.copy with
  | some r => r.kind == 1
  | none => false

/-- The inner control of a RELAY_START (R9, R102). -/
def Context.innerControl (c : Context) : Byte :=
  if c.polls then controlByte .poll c.rxSeq c.syncPending else controlByte .put c.txSeq c.syncPending

/-- The station to which an attempt is addressed: the coupler of a relay attempt, else the station
(R97). -/
def Part.addressee (p : Part) (k : AttemptKind) (i : StationIx) : Context :=
  match k with
  | .relayStart | .relayCollect =>
    match couplerIndex (p.ctx i).binding.coupler with
    | some j => p.ctx j
    | none => p.ctx i
  | .poll | .put | .probe | .roll | .test => p.ctx i

/-- The payload of the request of an attempt (R9). -/
def Context.requestPayload (c : Context) (k : AttemptKind) : List Byte :=
  match k with
  | .poll | .put => c.request
  | .relayStart =>
    [c.binding.lineAddress, c.innerControl, BitVec.ofNat 8 c.request.length] ++ c.request
  | .relayCollect => [c.binding.lineAddress]
  | .probe | .roll | .test => []

/-- The reply allowance of an attempt (R65, R138). -/
def Context.allowance (c : Context) (k : AttemptKind) : Byte :=
  match k with
  | .poll => c.fresh.maxReply
  | .relayCollect => 3 + c.fresh.maxReply
  | .put | .probe | .relayStart | .roll | .test => 0

/-- The frame kind of an attempt. -/
def AttemptKind.frameKind : AttemptKind → FrameKind
  | .poll => .poll | .put => .put | .probe => .probe | .relayStart => .relayStart
  | .relayCollect => .relayCollect | .roll => .roll | .test => .test

/-- The SEQ that the reply of an attempt is judged against: E for a POLL, T for a PUT, and for a relay
the one its inner request carries (R75, R102). -/
def Context.attemptSeq (c : Context) (k : AttemptKind) : Bool :=
  match k with
  | .poll => c.rxSeq
  | .put => c.txSeq
  | .relayStart | .relayCollect => if c.polls then c.rxSeq else c.txSeq
  | .probe | .roll | .test => false

/-- The SEQ bit of the outer control of a request (R8). -/
def Context.outerSeq (c : Context) (k : AttemptKind) : Bool :=
  match k with
  | .poll => c.rxSeq
  | .put => c.txSeq
  | .relayStart | .relayCollect | .probe | .roll | .test => false

/-- The request frame of an attempt (R75, R97). -/
def Part.requestFrame (p : Part) (k : AttemptKind) (i : StationIx) : TxFrame :=
  let station := p.addressee k i
  { purpose := .request, destination := station.binding.lineAddress
    control := controlByte k.frameKind ((p.ctx i).outerSeq k) station.syncPending
    payload := (p.ctx i).requestPayload k }

/-- The attempt record as latched at the start of an attempt (R74, R75). -/
def Part.attemptRecord (p : Part) (k : AttemptKind) (i : StationIx) : Attempt :=
  { kind := k, station := some i, seq := (p.ctx i).attemptSeq k
    timeout := (p.ctx i).fresh.replyTimeout.toNat * Config.clkPer100us
    allowance := (p.ctx i).allowance k
    source := (p.addressee k i).binding.lineAddress
    latency := none, buffer := [], endOfFrame := 0, timeoutPassed := false, skipBroken := false }

/-- An attempt is handed to the Exchange Unit and its frame to the Framer (R75). -/
def Part.sendRequest (l : LoopId) (k : AttemptKind) (i : StationIx) (p : Part) : Part :=
  p.modEng l fun e =>
    Engine.handFrame p.now (p.requestFrame k i)
      { e with xu := { state := .sending, attempt := some (p.attemptRecord k i) } }

/-- A turn starts an attempt: the attempted mark is set and the round of the aperiodic window begins
again (R71, R73, R75). -/
def Part.startAttempt (l : LoopId) (k : AttemptKind) (i : StationIx) (p : Part) : Part :=
  Part.sendRequest l k i
    (p.modEng l fun e =>
      { e with cyc := { e.cyc with
          attempted := true, visited := []
          turn := e.cyc.turn.map fun t => { t with stage := .attempt, attempted := true } } })

/-! ### What a judgement leads to -/

/-- The attempt has ended: the unit is IDLE with its attempt record emptied (R74), and the turn makes
the writes of the judgement. -/
def Part.endAttempt (l : LoopId) (p : Part) : Part :=
  p.modEng l fun e => { e with xu := { state := .idle, attempt := none }, cyc := e.cyc.turnWrites }

/-- The record stays in hand in a phase: one write of the station's part half (R89). -/
def Part.keepRecord (l : LoopId) (i : StationIx) (phase : RecordPhase) (follow : List SchedOp) (p : Part) :
    Part :=
  Part.push l (.writeStationHalf i :: follow) (p.modCtx i fun c => { c with phase := phase })

/-- The record is completed: its relay entry is released, then the completion is made (R90, R100,
R108). -/
def Part.completeRecord (l : LoopId) (i : StationIx) (outcome : RecordOutcome) (payload : List Byte)
    (flip : SeqFlip) (after : AfterRecord) (follow : List SchedOp) (p : Part) : Part :=
  Part.push l (p.completionOf i outcome payload flip after ++ follow) (p.releaseRelay i)

/-- The REFUSE of a station or of its coupler halts the station (R50, R84, R103). -/
def Part.refuseRecord (l : LoopId) (i : StationIx) (follow : List SchedOp) (p : Part) : Part :=
  p.completeRecord l i .refused [] .none (.halted .refused) (.raise .halted :: follow)

/-- The hold limit of the record in hand. -/
def Context.holdLimit (c : Context) : Byte :=
  match c.copy with
  | some r => r.holdLimit
  | none => 0

/-- A HOLD of the record: the holds rise and may end it HELD; otherwise it goes to a phase (R88). -/
def Part.holdRecord (l : LoopId) (i : StationIx) (phase : RecordPhase) (follow : List SchedOp) (p : Part) :
    Part :=
  let q := p.modCtx i fun c => { c with recHolds := satInc c.recHolds }
  let c := q.ctx i
  if c.holdLimit != 0 && c.recHolds == c.holdLimit then
    q.completeRecord l i .held [] .none .ready follow
  else q.keepRecord l i phase follow

/-- Patience is judged after a collect that would leave the record in RELAY_COLLECT (R105). -/
def Part.judgePatience (l : LoopId) (i : StationIx) (follow : List SchedOp) (p : Part) : Part :=
  if (p.ctx i).fresh.patience.toNat ≤ p.relayAge l i then
    p.completeRecord l i .relayLost [] .none .ready follow
  else p.keepRecord l i .relayCollect follow

/-- The phase of a direct record after an attempt failure (R81). -/
def RecordPhase.afterFailure : RecordPhase → RecordPhase
  | .first => .retry
  | ph => ph

/-- An attempt failure of a record (R81, R103, R104): the counts rise, and at the retry limit the record
ends NO_ANSWER and the station goes SILENT. The latency has been set by the caller. -/
def Part.failRecord (l : LoopId) (k : AttemptKind) (i : StationIx) (follow : List SchedOp) (p : Part) :
    Part :=
  let c := p.ctx i
  let q := p.modCtx i fun c =>
    { c with recAttempts := incTo 7 c.recAttempts, failures := c.failures + 1 }
  if c.fresh.retryLimit.toNat ≤ c.failures.toNat + 1 then
    (q.modCtx i fun c => { c with failures := 0 }).completeRecord l i .noAnswer [] .none .silent follow
  else
    match k with
    | .relayStart => (q.releaseRelay i).keepRecord l i .relayStart follow
    | .relayCollect => q.judgePatience l i follow
    | .poll | .put | .probe | .roll | .test => q.keepRecord l i c.phase.afterFailure follow

/-! ### Valid replies (R82, R107) -/

/-- A valid reply of a station: its consecutive failures and SYNC pending are cleared (R17, R82). -/
def Context.heard (c : Context) : Context := { c with failures := 0, syncPending := false }

/-- The answered mark of the cycle (R73). -/
def Part.markAnswered (l : LoopId) (p : Part) : Part :=
  p.modEng l fun e => { e with cyc := { e.cyc with answered := true } }

/-- A valid reply of the coupler of a relayed station clears the coupler's failures and SYNC pending;
its part half is written if that changed it (R107). -/
def Part.couplerHeard (i : StationIx) (p : Part) : Part × List SchedOp :=
  match couplerIndex (p.ctx i).binding.coupler with
  | some j =>
    (p.modCtx j Context.heard,
      if (p.ctx j).heard = p.ctx j then [] else [.writeStationHalf j])
  | none => (p, [])

/-- TRAP, when the latency of the attempt was captured (R93). -/
def trapOps (captured : Bool) : List SchedOp := if captured then [.raise .trap] else []

/-- A duplicate: it is counted on the record and the station, and the record goes to a phase (R85,
R106). -/
def Part.duplicateReply (l : LoopId) (i : StationIx) (phase : RecordPhase) (follow : List SchedOp)
    (p : Part) : Part :=
  Part.keepRecord l i phase follow
    (p.modCtx i fun c => { c with recDuplicates := satInc c.recDuplicates, duplicates := satInc c.duplicates })

/-- A valid reply to a POLL, PUT or PROBE, after the effects of R82 (R84, R86, R87). -/
def Part.judgeDirect (l : LoopId) (a : Attempt) (i : StationIx) (f : RxFrame) (trap : List SchedOp)
    (p : Part) : Part :=
  let follow := trap ++ [.endTurn]
  match a.kind, controlKind f.control with
  | .poll, .data =>
    if controlSeq f.control = a.seq then p.completeRecord l i .ok a.buffer .rx .ready follow
    else p.duplicateReply l i .retry follow
  | .poll, .hold => p.holdRecord l i .retry follow
  | .put, .ack => p.completeRecord l i .ok [] .tx .ready follow
  | .put, .hold => p.holdRecord l i .probe follow
  | .probe, .ready => p.keepRecord l i .retry (trap ++ [.followOn i])
  | .probe, .hold => p.holdRecord l i .probe follow
  | _, _ => p.refuseRecord l i follow

/-- A collect reply is well-formed (R10). -/
def wellFormedCollect (address : Byte) (bs : List Byte) : Bool :=
  let kind := controlKind (byteAt bs 1)
  decide (3 ≤ bs.length) && decide ((byteAt bs 2).toNat = bs.length - 3) && byteAt bs 0 == address &&
    controlClean (byteAt bs 1) &&
    (kind == .echo || kind == .data || kind == .ack || kind == .hold || kind == .refuse) &&
    (byteAt bs 2 == 0 || kind == .data)

/-- The inner outcome of a well-formed collect reply (R106). NONE is code 0 (R10). A wrong inner kind is
not among the inner kinds that R107 lets clear the relayed station's failures and SYNC pending, though R17
names every well-formed reply but NONE (log 39). -/
def Part.judgeInner (l : LoopId) (a : Attempt) (i : StationIx) (follow : List SchedOp) (p : Part) : Part :=
  let inner := byteAt a.buffer 1
  let heard := p.modCtx i Context.heard
  match (p.ctx i).polls, controlKind inner with
  | true, .data =>
    if controlSeq inner = a.seq then heard.completeRecord l i .ok (a.buffer.drop 3) .rx .ready follow
    else (heard.releaseRelay i).duplicateReply l i .relayStart follow
  | false, .ack => heard.completeRecord l i .ok [] .tx .ready follow
  | _, .hold => (heard.releaseRelay i).holdRecord l i .relayStart follow
  | _, .refuse => heard.refuseRecord l i follow
  | _, _ => p.failRecord l .relayStart i follow

/-- An attempt failure of a record attempt: its latency becomes 65535 (R81, R107). -/
def Part.recordAttemptFailed (l : LoopId) (k : AttemptKind) (i : StationIx) (p : Part) : Part :=
  (p.modCtx i fun c => { c with recLatency := 0xFFFF }).failRecord l k i [.endTurn]

/-- A valid reply to a record's attempt (R82, R84, R86, R87, R103, R104, R107). -/
def Part.recordReply (l : LoopId) (a : Attempt) (i : StationIx) (f : RxFrame) (p : Part) : Part :=
  let latency := a.latency.getD 0
  match a.kind with
  | .relayStart =>
    let c := (p.markAnswered l).couplerHeard i
    let t := c.1.commitLatency l i latency
    let follow := c.2 ++ trapOps t.2 ++ [.endTurn]
    match controlKind f.control with
    | .ack => (t.1.collectRelay i).keepRecord l i .relayCollect follow
    | .hold => (t.1.releaseRelay i).holdRecord l i .relayStart follow
    | _ => t.1.refuseRecord l i follow
  | .relayCollect =>
    if controlKind f.control = .data && !wellFormedCollect (p.ctx i).binding.lineAddress a.buffer then
      p.recordAttemptFailed l .relayCollect i
    else
      let c := (p.markAnswered l).couplerHeard i
      let t := c.1.commitLatency l i latency
      let follow := c.2 ++ trapOps t.2 ++ [.endTurn]
      if controlKind f.control = .data then t.1.judgeInner l a i follow
      else (t.1.waitRelay i).judgePatience l i follow
  | .poll | .put | .probe | .roll | .test =>
    let t := ((p.markAnswered l).modCtx i Context.heard).commitLatency l i latency
    t.1.judgeDirect l a i f (trapOps t.2)

/-- An overlong reply has finished (R79, R103, R104): the record ends OVERLONG with the latency measured;
a valid frame also counts as a valid reply. -/
def Part.recordOverlong (l : LoopId) (a : Attempt) (i : StationIx) (valid : Bool) (p : Part) : Part :=
  let relay := a.kind == .relayStart || a.kind == .relayCollect
  let heard : Part × List SchedOp :=
    if !valid then (p, [])
    else if relay then (p.markAnswered l).couplerHeard i
    else ((p.markAnswered l).modCtx i Context.heard, [])
  let t := heard.1.commitLatency l i (a.latency.getD 0)
  t.1.completeRecord l i .overlong [] .none .ready (heard.2 ++ trapOps t.2 ++ [.endTurn])

/-! ### Roll-call (R138, R139) -/

/-- The station at the head of the roll list has been judged; after the last one the loop enters RUNNING
(R139). A roll-call that a STOP has ended goes no further. -/
def Part.rollAdvance (l : LoopId) (ops : List SchedOp) (p : Part) : Part :=
  let e := p.eng l
  let rest := e.rollList.drop 1
  let last := rest.isEmpty && e.ctl.state == .rollcall
  Part.push l (ops ++ if last then [.rollEnd] else [])
    (p.modEng l fun e => { e with rollList := rest, rollSecond := false })

/-- The stations that a coupler's PRESENT revives: relayed, owned by the loop, SILENT, behind it. -/
def Part.revived (p : Part) (l : LoopId) (i : StationIx) : List StationIx :=
  allStations.filter fun j =>
    (p.ctx j).owner == some l && (p.ctx j).relayed && couplerIndex (p.ctx j).binding.coupler == some i &&
      (p.ctx j).state == .silent

/-- A station that roll-call revives (R53, R138). -/
def Context.revive (c : Context) : Context := { c.setSync with state := .ready }

/-- Revive each of a list of stations. -/
def Part.reviveAll : List StationIx → Part → Part
  | [], p => p
  | j :: js, p => Part.reviveAll js (p.modCtx j Context.revive)

/-- A PRESENT reply to a ROLL (R138). -/
def Part.rollPresent (l : LoopId) (i : StationIx) (p : Part) : Part :=
  let behind := p.revived l i
  let q := p.modCtx i fun c =>
    let h := { c.heard with present := true }
    if c.state = .silent || c.state = .absent then h.revive else h
  let r := (Part.reviveAll behind q).modEng l fun e =>
    { e with rep := { e.rep with rollPresent := satInc e.rep.rollPresent } }
  r.rollAdvance l (.writeStationHalf i :: behind.map .writeStationHalf)

/-- Two failed ROLL attempts: the station is ABSENT and its record ends NO_ANSWER (R138). -/
def Part.rollAbsent (l : LoopId) (i : StationIx) (p : Part) : Part :=
  let q := (p.modCtx i fun c => { c with present := false, state := .absent }).modEng l fun e =>
    { e with rep := { e.rep with rollAbsent := satInc e.rep.rollAbsent } }
  let ops := match (p.ctx i).inHand with
    | some _ => q.completionOf i .noAnswer [] .none .absent
    | none => [.writeStationHalf i]
  (q.releaseRelay i).rollAdvance l ops

/-- A failed ROLL attempt: the first is followed by a second while the roll-call lasts (R138, R139). -/
def Part.rollFailed (l : LoopId) (i : StationIx) (p : Part) : Part :=
  if (p.eng l).rollSecond then p.rollAbsent l i
  else if (p.eng l).ctl.state = .rollcall then p.modEng l fun e => { e with rollSecond := true }
  else p

/-! ### The judgements -/

/-- The attempt in progress ends as an attempt failure (R81, R103, R104, R138, R155). -/
def Part.attemptFailed (l : LoopId) (p : Part) : Part :=
  match (p.eng l).xu.attempt with
  | none => p
  | some a =>
    let q := p.endAttempt l
    match a.kind, a.station with
    | .test, _ => q.testLost l
    | .roll, some i => q.rollFailed l i
    | k, some i => q.recordAttemptFailed l k i
    | _, none => q

/-- The overlong reply of the attempt in progress has finished (R79, R138, R154). -/
def Part.overlongFinished (l : LoopId) (valid : Bool) (p : Part) : Part :=
  match (p.eng l).xu.attempt with
  | none => p
  | some a =>
    let q := p.endAttempt l
    match a.kind, a.station with
    | .test, _ => q.testLost l
    | .roll, some i => q.rollFailed l i
    | _, some i => q.recordOverlong l a i valid
    | _, none => q

/-- The reply kinds allowed for each frame (R18). -/
def AttemptKind.allows : AttemptKind → FrameKind → Bool
  | .poll, .data | .poll, .hold | .poll, .refuse => true
  | .put, .ack | .put, .hold | .put, .refuse => true
  | .probe, .ready | .probe, .hold => true
  | .roll, .present => true
  | .test, .echo => true
  | .relayStart, .ack | .relayStart, .hold | .relayStart, .refuse => true
  | .relayCollect, .data | .relayCollect, .hold => true
  | _, _ => false

/-- A valid frame taken in RECEIVING is judged by destination, source and kind (R78). -/
def Part.judgeReply (l : LoopId) (f : RxFrame) (p : Part) : Part :=
  match (p.eng l).xu.attempt with
  | none => p
  | some a =>
    if f.destination == 0 && f.source == a.source && a.kind.allows (controlKind f.control) then
      let q := p.endAttempt l
      match a.kind, a.station with
      | .test, _ => q.testReturned l f.payload
      | .roll, some i => q.rollPresent l i
      | _, some i => q.recordReply l a i f
      | _, none => q
    else p.attemptFailed l

/-- A frame error is reported to the Exchange Unit (R76, R77, R79). `atFrameEnd` tells a frame that came
to its end from a broken one. -/
def Part.exchangeError (l : LoopId) (atFrameEnd : Bool) (p : Part) : Part :=
  match (p.eng l).xu.state, (p.eng l).xu.attempt with
  | .receiving, some _ => p.attemptFailed l
  | .awaiting, some a => if a.timeoutPassed then p.attemptFailed l else p
  | .skipping, some a =>
    if atFrameEnd then p.overlongFinished l false
    else p.modEng l fun e => { e with xu := { e.xu with attempt := some { a with skipBroken := true } } }
  | _, _ => p

end Sys2Proof.Machine
end

