-- ==== Sys2Proof/Machine/Screening.lean ====
section
/-! DEFINITION. The screens, pattern filters, catch buffer and catch walk, and the wake (07, 09). -/

namespace Sys2Proof.Machine

open Sys2Proof

/-- Which screen judges a frame (R110). -/
inductive Screen where
  | announce | wake
deriving DecidableEq, Repr

/-! ### Pattern filters (R114 to R117) -/

/-- The direct station admitted to the loop whose latched line address is the source (R112). -/
def Part.knownSource (p : Part) (l : LoopId) (source : Byte) : Option StationIx :=
  allStations.find? fun i =>
    (p.ctx i).admittedTo l && (p.ctx i).binding.direct && (p.ctx i).binding.lineAddress == source

/-- The entry of the group table for a group address 240 to 254 (R113). -/
def ScreeningStore.group (s : ScreeningStore) (destination : Byte) : Option GroupEntry :=
  if h : 240 ≤ destination.toNat ∧ destination.toNat ≤ 254 then
    some (s.groups[destination.toNat - 240]'(by omega))
  else none

/-- The destination is a listed group for the judging screen (R113, R115, R145). -/
def ScreeningStore.groupListed (s : ScreeningStore) (sc : Screen) (destination : Byte) : Bool :=
  match s.group destination with
  | some g => match sc with
    | .announce => g.announceAccept
    | .wake => g.wake
  | none => false

/-- The qualifier of a filter holds (R115). -/
def Part.qualifies (p : Part) (l : LoopId) (sc : Screen) (f : RxFrame) : Qualifier → Bool
  | .any => true
  | .toConcentrator => f.destination == 0
  | .groupListed => p.screening.groupListed sc f.destination
  | .knownSource => (p.knownSource l f.source).isSome

/-- A filter of this scope is judged by the screen (R111, R145, R170). -/
def FilterScope.judgedBy : FilterScope → Screen → Bool
  | .announce, .announce => true
  | .wake, .wake => true
  | .both, _ => true
  | .announce, .wake => false
  | .wake, .announce => false
  | .unnamed, _ => false

/-- The positions a filter selects, in ascending order (R114). -/
def Filter.positions (flt : Filter) : List Nat :=
  ((List.range 64).filter fun j => flt.mask.getLsbD j).map fun j => flt.offset.toNat + j

/-- The selected bytes lie in the frame and their CRC-16 is the expected check (R116). -/
def Filter.matchesBytes (flt : Filter) (bs : List Byte) : Bool :=
  let ps := flt.positions
  !ps.isEmpty && ps.all (fun q => decide (q < bs.length)) && crc16 (ps.map (byteAt bs)) == flt.expected

/-- A filter is judged by the screen and matches the frame (R115, R116). -/
def Part.filterMatches (p : Part) (l : LoopId) (sc : Screen) (f : RxFrame) (flt : Filter) : Bool :=
  flt.enable && flt.scope.judgedBy sc && p.qualifies l sc f flt.qualifier && flt.matchesBytes f.screened

/-- The filters that match a frame, in ascending order: its triggered set (R111). -/
def Part.triggeredFilters (p : Part) (l : LoopId) (sc : Screen) (f : RxFrame) : List (Fin 16) :=
  (List.finRange 16).filter fun n => p.filterMatches l sc f p.screening.filters[n]

/-- A triggered set as sixteen flags. -/
def triggeredFlags (ns : List (Fin 16)) : BitVec 16 :=
  ns.foldl (fun acc n => acc ||| (1 <<< n.val)) 0

/-- The update of a matching filter (R117). -/
def Filter.hit (flt : Filter) : Filter := { flt with triggered := true, matchCount := satInc flt.matchCount }

/-- The updates of all matching filters (R117). -/
def ScreeningStore.hitAll : List (Fin 16) → ScreeningStore → ScreeningStore
  | [], s => s
  | n :: ns, s => ScreeningStore.hitAll ns { s with filters := s.filters.set n (s.filters[n]).hit }

/-! ### The catch buffer (R118, R119) -/

/-- The first transfer of a catch walk: the chain head, or the link of the parked record (R38). -/
def CatchUnit.firstOp (c : CatchUnit) : CatchOp :=
  match c.parked with
  | none => .readHead
  | some k => .readLink k

/-- An accepted frame: into an EMPTY buffer, with its walk begun at once, or dropped (R119). -/
def Part.acceptFrame (l : LoopId) (f : CatchFrame) (p : Part) : Part :=
  match (p.eng l).catcher.buffer with
  | none =>
    p.modEng l fun e =>
      { e with catcher := { e.catcher with
          accepted := satInc e.catcher.accepted, buffer := some f, walk := some e.catcher.firstOp
          poolBase := e.poolBase, poolSize := e.poolSize } }
  | some _ =>
    Part.pushUrgent l [.writeLoopHalf, .raise .starved]
      (p.modEng l fun e =>
        { e with catcher := { e.catcher with
            accepted := satInc e.catcher.accepted, drops := satInc e.catcher.drops } })

/-- The reason that the announce screen gives a frame, if it accepts it (R111, R112, R113). -/
def Part.announceReason (p : Part) (l : LoopId) (f : RxFrame) (hits : List (Fin 16)) : Option CatchReason :=
  let station := controlKind f.control == .announce && f.destination == 0 &&
    (match p.knownSource l f.source with
     | some i => (p.ctx i).fresh.acceptAnnounce
     | none => false)
  if station then some .station
  else if p.screening.groupListed .announce f.destination then some .group
  else if f.destination == 255 && p.screening.wakeConfig.allCallAccept then some .allCall
  else if hits.isEmpty then none
  else some .filter

/-- The announce screen (R111): the filters are judged and updated whichever rule holds. -/
def Part.announceScreen (l : LoopId) (f : RxFrame) (p : Part) : Part :=
  let hits := p.triggeredFilters l .announce f
  let q := { p with screening := p.screening.hitAll hits }
  match p.announceReason l f hits with
  | none => q
  | some r =>
    q.acceptFrame l
      { destination := f.destination, source := f.source, control := f.control, payload := f.payload
        reason := r, filter := if r = .filter then hits.head? else none
        triggered := triggeredFlags hits
        cycle := (p.eng l).rep.cycleNumber.extractLsb' 0 16 }

/-! ### The catch walk (R38, R120, R121) -/

/-- A drop for no room (R121). -/
def Part.catchDrop (l : LoopId) (stalled : Bool) (p : Part) : Part :=
  Part.pushUrgent l [.writeLoopHalf, .raise .starved]
    (p.modEng l fun e =>
      { e with catcher := { e.catcher with
          buffer := none, walk := none, drops := satInc e.catcher.drops, stalled := stalled } })

/-- The walk goes on with another transfer. -/
def Part.catchNext (l : LoopId) (op : CatchOp) (p : Part) : Part :=
  p.modEng l fun e => { e with catcher := { e.catcher with walk := some op } }

/-- The walk acts on a link (R38). -/
def Part.catchLink (l : LoopId) (link : RecordIx) (p : Part) : Part :=
  if link = Config.linkEnd then p.catchDrop l false
  else if link.toNat < (p.eng l).catcher.poolSize.toNat then
    Part.catchNext l (.readState link)
      (p.modEng l fun e => { e with catcher := { e.catcher with stalled := false } })
  else p.catchDrop l true

/-- The fill, once FILLED is written (R120). -/
def Part.catchFill (l : LoopId) (k : RecordIx) (p : Part) : Part :=
  Part.pushUrgent l [.writeLoopHalf, .raiseCatch]
    (p.modEng l fun e =>
      { e with catcher := { e.catcher with
          buffer := none, walk := none, fills := satInc e.catcher.fills, stalled := false
          parked := some k } })

/-- The payload of the held frame is written only when it has one (R37). -/
def CatchUnit.hasPayload (c : CatchUnit) : Bool :=
  match c.buffer with
  | some f => !f.payload.isEmpty
  | none => false

/-- A transfer of the catch walk has completed (R38, R120, R121). -/
def Part.catchDone (l : LoopId) (data : List Byte) (p : Part) : Part :=
  match (p.eng l).catcher.walk with
  | none => p
  | some .readHead => p.catchLink l (linkField (wordAt data 0))
  | some (.readLink _) => p.catchLink l (linkField (wordAt data 0))
  | some (.readState k) =>
    if byteAt data 0 = 4 then p.catchNext l (.writeFields k) else p.catchDrop l false
  | some (.writeFields k) =>
    if (p.eng l).catcher.hasPayload then p.catchNext l (.writePayload k)
    else p.catchNext l (.writeFilled k)
  | some (.writePayload k) => p.catchNext l (.writeFilled k)
  | some (.writeFilled k) => p.catchFill l k

/-! ### Waking (R144 to R148) -/

/-- The wake record of a loop is filled (R147). -/
def ScreeningStore.fillWake (l : LoopId) (r : WakeRecord) (s : ScreeningStore) : ScreeningStore :=
  match l with
  | .A => { s with wakeA := some r }
  | .B => { s with wakeB := some r }

/-- A wake: the record, then the WAKE cause, then STARTING by a wake entry (R148). -/
def Part.wake (l : LoopId) (r : WakeRecord) (p : Part) : Part :=
  Part.enterStarting l false
    (Part.raiseCause l .wake { p with screening := p.screening.fillWake l r })

/-- The wake record of a wake without a frame: HOST or ENERGY (R147). -/
def WakeRecord.plain (r : WakeReason) : WakeRecord :=
  { reason := r, source := 0, destination := 0, filter := none, triggered := 0 }

/-- The wake marker of a loop: six bytes 0xFF and four times the identity (R146). -/
def wakeMarker (identity : Word) : List Byte :=
  let id := bytesOfWord identity
  [0xFF, 0xFF, 0xFF, 0xFF, 0xFF, 0xFF] ++ id ++ id ++ id ++ id

/-- A byte sequence holds another at some position (R146). -/
def holdsRun (run : List Byte) : List Byte → Bool
  | [] => run.isPrefixOf []
  | b :: bs => run.isPrefixOf (b :: bs) || holdsRun run bs

/-- The reason that the wake screen gives a frame, if it wakes the loop (R145). -/
def Part.wakeReason (p : Part) (l : LoopId) (f : RxFrame) (hits : List (Fin 16)) : Option WakeReason :=
  let station := match p.knownSource l f.source with
    | some i => (p.ctx i).fresh.wake
    | none => false
  if holdsRun (wakeMarker (p.eng l).cfg.identity) f.payload then some .marker
  else if station then some .station
  else if p.screening.groupListed .wake f.destination then some .group
  else if f.destination == 255 && p.screening.wakeConfig.wakeAllCall then some .allCall
  else if hits.isEmpty then none
  else some .filter

/-- The wake screen of a valid frame that ends in QUIET (R145). -/
def Part.wakeScreen (l : LoopId) (f : RxFrame) (p : Part) : Part :=
  let hits := p.triggeredFilters l .wake f
  let q := { p with screening := p.screening.hitAll hits }
  match p.wakeReason l f hits with
  | none => q
  | some r =>
    q.wake l { reason := r, source := f.source, destination := f.destination
               filter := if r = .filter then hits.head? else none, triggered := triggeredFlags hits }

/-- A valid frame that is not the reply of an attempt, by the loop state (R80, R110, R135, R154). -/
def Part.unsolicited (l : LoopId) (f : RxFrame) (p : Part) : Part :=
  match (p.eng l).ctl.state with
  | .starting | .rollcall | .running | .draining => p.announceScreen l f
  | .quiet => p.wakeScreen l f
  | .down | .jammed | .test | .off | .fault => p

end Sys2Proof.Machine
end

