-- ==== Sys2Proof/Machine/Cycle.lean ====
section
/-! DEFINITION. The Cycle Scheduler: boundary work, beacon, windows and turns (04, 02 R33, R34). -/

namespace Sys2Proof.Machine

open Sys2Proof

/-! ### Times (R65, R67, R71, R72) -/

/-- The start of the announce window: the next grid point less the latched announce window (R72;
log 14). -/
def Engine.announceStart (e : Engine) : Nat :=
  (e.cyc.boundaryAt + groupTime e.cfg.cycleLength) - groupTime e.cfg.announceWindow

/-- The announce window of the cycle has started: there is one, and its instant has come (R72). -/
def Engine.announceDue (e : Engine) (now : Nat) : Bool :=
  e.ctl.state == .running && e.cyc.phase != .none && e.cfg.announceWindow != 0 &&
    decide (e.announceStart ≤ now)

/-- The end of the periodic window (R67). -/
def Engine.periodicEnd (e : Engine) : Nat :=
  min (e.cyc.beaconEnd + groupTime e.cfg.periodicBudget) e.announceStart

/-- The estimate of an attempt, in CLK periods (R65). -/
def Part.estimate (p : Part) (l : LoopId) (k : AttemptKind) (i : StationIx) : Nat :=
  let c := p.ctx i
  (7 + (c.requestPayload k).length + 7 + (c.allowance k).toNat + 4) * (p.eng l).charTime
    + c.fresh.replyTimeout.toNat * Config.clkPer100us

/-- The time left in the window of a turn (R67, R71). -/
def Part.timeLeft (p : Part) (l : LoopId) (periodic : Bool) : Nat :=
  (if periodic then (p.eng l).periodicEnd else (p.eng l).announceStart) - p.now

/-! ### The windows (R66, R69 to R71) -/

/-- A station is due in a cycle: PERIODIC, on the roster, READY or ACTIVE, and the cycle number modulo
the interval equals the phase (R66). -/
def Context.due (l : LoopId) (cycle : Word) (c : Context) : Bool :=
  c.admittedTo l && c.servable && c.binding.cls == .periodic &&
    cycle.toNat % 2 ^ c.fresh.intervalCode.toNat == c.fresh.phase.toNat

/-- A candidate of the aperiodic window (R70). -/
def Context.candidate (l : LoopId) (c : Context) : Bool :=
  c.admittedTo l && c.servable && c.binding.cls == .aperiodic

/-- The candidates of the aperiodic window, in ascending index. -/
def Part.candidates (p : Part) (l : LoopId) : List StationIx :=
  allStations.filter fun i => (p.ctx i).candidate l

/-- The next candidate: the first at or above the pointer, else the first (R70). -/
def Part.nextCandidate (p : Part) (l : LoopId) : Option StationIx :=
  match (p.candidates l).find? fun i => decide ((p.eng l).cyc.pointer.val ≤ i.val) with
  | some i => some i
  | none => (p.candidates l).head?

/-- A due station may still have its turn (R66). -/
def Part.mayServe (p : Part) (l : LoopId) (i : StationIx) : Bool :=
  (p.ctx i).admittedTo l && (p.ctx i).servable

/-- The announce window bars the turns that are left of the periodic window: it has started, and not
before the beacon ended, a case in which R67 has every due station with work count a miss (R72; log 13). -/
def Engine.announceBars (e : Engine) : Bool :=
  e.cyc.announceStarted && decide (e.cyc.beaconEnd < e.announceStart)

/-- Between turns of RUNNING the windows follow on one another: the periodic window ends with its last
due station (R69) or at the announce window (R72), the aperiodic one at the announce window or after a full
round without an attempt (R71). -/
def Part.followWindows (l : LoopId) (p : Part) : Part :=
  let e := p.eng l
  if e.ctl.state = .running && e.cyc.turn.isNone then
    let passed := e.cyc.phase = .periodic && (e.announceBars || !(e.cyc.dueSet.any (p.mayServe l)))
    let phase : CyclePhase := if passed then .aperiodic else e.cyc.phase
    let visited := if passed then [] else e.cyc.visited
    let ended := phase = .aperiodic &&
      (e.cyc.announceStarted || (p.candidates l).all (fun i => visited.contains i))
    p.modEng l fun e =>
      { e with cyc := { e.cyc with phase := if ended then .closed else phase, visited := visited } }
  else p

/-- The end of the beacon: the periodic window opens with the due set of the cycle (R63, R66). A cycle
given up has no due set (R59), and a roll-call that waits starts no window (R137). -/
def Part.beaconEnded (l : LoopId) (p : Part) : Part :=
  let e := p.eng l
  if e.ctl.state = .running && e.cyc.phase = .beacon && e.cyc.marked.isNone && !e.ctl.rollRequest then
    Part.followWindows l
      (p.modEng l fun e =>
        { e with cyc := { e.cyc with
            phase := .periodic, beaconEnd := p.now, visited := []
            dueSet := allStations.filter fun i => (p.ctx i).due l e.rep.cycleNumber } })
  else p

/-! ### Boundary work (R60 to R63) -/

/-- The steps of the boundary work in order (R60). -/
def boundaryOps : List SchedOp :=
  scanOps ++ [.retimeStep, .mark, .cycleStep, .reportStep, .writeLoopHalf, .raiseRetimeRefused, .mark,
    .beaconStep]

/-- The boundary is taken: its work begins, and the cycle's own items are cleared (R59, R60). The marks
stay until their report. -/
def Part.takeBoundary (l : LoopId) (at_ : Nat) (p : Part) : Part :=
  Part.push l boundaryOps
    (p.modEng l fun e =>
      { e.dropHeld .beacon with cyc := { e.cyc with
          marked := none, late := false, lateTaken := e.cyc.late, boundaryAt := at_,
          phase := .boundary, dueSet := [], visited := []
          announceStarted := false } })

/-- Boundary step 2: with RETIME pending the timing group is read (R60, R62). -/
def Part.retimeStep (l : LoopId) (p : Part) : Part :=
  if (p.eng l).ctl.retimePending then p.pushFront l [.readLoopHost .retiming] else p

/-- A read for a RETIME that ends now is judged: the loop has not entered DRAINING since, from whose entry
on RETIME is not judged (R128), whatever DOWN or JAMMED follows it (log 20); a boundary that DOWN or JAMMED
cuts short in RUNNING still ends its step (R134). -/
def LoopControl.judgesRetime (c : LoopControl) : Bool :=
  match c.state with
  | .running => true
  | .down | .jammed => c.returnTarget == some .running
  | .off | .starting | .rollcall | .draining | .quiet | .test | .fault => false

/-- The timing group of a descriptor is latched, and governs from this boundary on (R61, R62): the next grid
point falls one new length after it (R57), and the announce window has started only where the new one has
(R72). -/
def Engine.adoptTiming (h : LoopHost) (now : Nat) (e : Engine) : Engine :=
  let f : Engine := { e with
    cfg := { e.cfg with cycleLength := h.cycleLength, periodicBudget := h.periodicBudget,
                        announceWindow := h.announceWindow }
    rep := { e.rep with retimeResult := .adopted }
    cyc := { e.cyc with nextGrid := if e.ctl.state = .running then
                                      some (e.cyc.boundaryAt + groupTime h.cycleLength)
                                    else e.cyc.nextGrid } }
  { f with cyc := { f.cyc with announceStarted := f.announceDue now } }

/-- The judgement of a RETIME on the descriptor read (R62). -/
def Part.retimeJudge (l : LoopId) (h : LoopHost) (p : Part) : Part :=
  p.modEng l fun e =>
    let f := { e with ctl := { e.ctl with retimePending := false } }
    if timingFits e.cfg.bitRate h.cycleLength h.periodicBudget h.announceWindow then f.adoptTiming h p.now
    else
      { f with rep := { e.rep with retimeResult := .refused }, cyc := { e.cyc with retimeRefused := true } }

/-- Boundary step 3: the cycle number, and the late beacon of this boundary (R58, R60, R63). -/
def Part.cycleStep (l : LoopId) (p : Part) : Part :=
  p.modEng l fun e =>
    { e with
      rep := { e.rep with
        cycleNumber := if e.cyc.firstCycle then e.rep.cycleNumber else e.rep.cycleNumber + 1
        lateBeacons := if e.cyc.lateTaken then satInc e.rep.lateBeacons else e.rep.lateBeacons }
      cyc := { e.cyc with firstCycle := false, lateTaken := false } }

/-- The silent-cycle run after the marks of a cycle (R132). -/
def silentRunAfter (attempted answered : Bool) (run : Byte) : Byte :=
  if answered then 0 else if attempted then satInc run else run

/-- Boundary step 4: the marks go to the Line Monitor, which opens a new error window when the new cycle
number is a multiple of W and may find the SILENCE criterion met; then the later steps are not made. The
first boundary of a grid makes no report (R60, R73, R132). -/
def Part.reportStep (l : LoopId) (p : Part) : Part :=
  p.modEng l fun e =>
    let newWindow := !e.cyc.firstOfGrid && e.rep.cycleNumber.toNat % atLeastOne e.cfg.errorWindow == 0
    let run := if e.cyc.firstOfGrid then e.mon.silentRun
      else silentRunAfter e.cyc.attempted e.cyc.answered e.mon.silentRun
    let silent := !e.cyc.firstOfGrid && e.cfg.silenceThreshold != 0 &&
      decide (e.cfg.silenceThreshold.toNat ≤ run.toNat)
    { e with
      mon := { e.mon with windowErrors := if newWindow then 0 else e.mon.windowErrors, silentRun := run,
                          silenceMet := silent }
      cyc := { e.cyc with attempted := false, answered := false, firstOfGrid := false, overrun := false }
      sched := if silent then [] else e.sched }

/-- The beacon frame of a cycle (R9, R63). -/
def Engine.cycleBeacon (e : Engine) : TxFrame :=
  { purpose := .beacon, destination := 255, control := controlByte .beacon false false
    payload := beaconPayload e.rep.cycleNumber e.cfg.identity (e.cfg.announceWindow != 0) false }

/-- Boundary step 6: the beacon goes to the Framer, unless the next boundary has fallen (R59) or a
roll-call waits (R137). That the announce window has started holds it back neither here nor in the Framer: R63 has it
sent as soon as the line is idle, R72 lets the part send no frame there, and the model follows R63 (log 54). -/
def Part.beaconStep (l : LoopId) (p : Part) : Part :=
  p.modEng l fun e =>
    let f := { e with cyc := { e.cyc with phase := .beacon } }
    if e.cyc.marked.isSome || e.ctl.rollRequest || e.ctl.state != .running then f
    else f.handFrame p.now e.cycleBeacon

/-! ### Turns (R33, R34, R64, R67 to R71) -/

/-- No attempt is started once the loop has left RUNNING, a boundary has fallen or a roll-call waits
(R59, R128, R137). -/
def Engine.mayAttempt (e : Engine) : Bool :=
  e.ctl.state == .running && e.cyc.marked.isNone && !e.ctl.rollRequest

/-- A walk may go on with its next transfer: the loop is RUNNING, or drains with the fetch in progress
(R128, R134). -/
def Engine.walkGoesOn (e : Engine) : Bool := e.ctl.state == .running || e.ctl.state == .draining

/-- The walk acts on a link (R33). A bad link halts the station (R50). -/
def Part.followLink (l : LoopId) (i : StationIx) (link : RecordIx) (p : Part) : Part :=
  if !(p.eng l).walkGoesOn then p
  else if link = Config.linkEnd then p.pushFront l [.endTurn]
  else if link.toNat < (p.eng l).poolSize.toNat then p.pushFront l [.readRecord i link]
  else Part.haltStation l i .badLink ((p.turnWrites l).pushFront l [.endTurn])

/-- The record read is taken if it is POSTED (R33, R34). -/
def Part.seeRecord (l : LoopId) (i : StationIx) (k : RecordIx) (data : List Byte) (p : Part) : Part :=
  if !(p.eng l).walkGoesOn then p
  else if byteAt data 0 = 1 then p.pushFront l [.writeActive i k (RecordCopy.decode data)]
  else p.pushFront l [.endTurn]

/-- The ACTIVE write has completed: the record is in hand (R34). -/
def Part.recordTaken (l : LoopId) (i : StationIx) (k : RecordIx) (copy : RecordCopy) (p : Part) : Part :=
  let q := p.modCtx i (Context.take k copy)
  if (p.eng l).walkGoesOn then q.pushFront l [.writeStationHalf i, .takeCheck i] else q

/-- The copy is checked: a bad record is completed BAD_RECORD at once and the turn ends (R34, R91). -/
def Part.takeCheck (l : LoopId) (i : StationIx) (p : Part) : Part :=
  let c := p.ctx i
  match c.copy with
  | some r =>
    if r.bad c.relayed then
      (p.turnWrites l).pushFront l (p.completionOf i .badRecord [] .none .ready ++ [.endTurn])
    else p.pushFront l [.fitTest i]
  | none => p.pushFront l [.endTurn]

/-- A turn begins: with a record in hand it makes no fetch, otherwise it walks the chain (R33, R64). -/
def Part.startTurn (l : LoopId) (i : StationIx) (periodic : Bool) (p : Part) : Part :=
  let q := p.modEng l fun e =>
    { e with cyc := { e.cyc with turn := some { station := i, periodic := periodic, stage := .fetch,
                                                attempted := false, closing := false } } }
  match (p.ctx i).inHand, (p.ctx i).parked with
  | some _, _ => q.push l [.fitTest i]
  | none, some _ => q.push l [.readLink i]
  | none, none => q.followLink l i (p.ctx i).fresh.chainHead

/-- A turn may begin: no turn, no procedure and no attempt is under way (R64, R74). -/
def Engine.turnFree (e : Engine) : Bool :=
  e.mayAttempt && e.cyc.turn.isNone && e.sched.isEmpty && e.xu.state == .idle

/-- The next turn of the loop, in the window that is open (R64, R66, R70). -/
def Part.nextTurn (l : LoopId) (p : Part) : Part :=
  let q := p.followWindows l
  match (q.eng l).cyc.phase with
  | .periodic =>
    match (q.eng l).cyc.dueSet.dropWhile (fun i => !q.mayServe l i) with
    | i :: rest =>
      Part.startTurn l i true (q.modEng l fun e => { e with cyc := { e.cyc with dueSet := rest } })
    | [] => q
  | .aperiodic =>
    match q.nextCandidate l with
    | some i => q.startTurn l i false
    | none => q
  | .none | .boundary | .beacon | .closed => q

/-- The turn ends (R64 step 6): the pointer moves on after a visit, or stays where a failed fit test
closed the window (R70, R71). It moves on too after a visit that a boundary or a waiting ROLLCALL has
stopped before its fit test (log 40). -/
def Part.endTurn (l : LoopId) (p : Part) : Part :=
  match (p.eng l).cyc.turn with
  | none => p
  | some t =>
    Part.followWindows l
      (p.modEng l fun e =>
        { e with cyc :=
          if t.periodic then { e.cyc with turn := none }
          else if t.closing then { e.cyc with turn := none, pointer := t.station, phase := .closed }
          else { e.cyc with turn := none, pointer := t.station + 1,
                            visited := if t.attempted then e.cyc.visited
                                       else t.station :: e.cyc.visited } })

/-- The attempt a station's phase calls for (R83, R101). -/
def Context.nextAttempt (c : Context) : AttemptKind :=
  if c.relayed then
    (if c.phase = .relayCollect then .relayCollect else .relayStart)
  else if c.phase = .probe then .probe
  else if c.polls then .poll
  else .put

/-- The estimate fits the time left (R64 step 3). -/
def Part.fits (p : Part) (l : LoopId) (k : AttemptKind) (i : StationIx) (periodic : Bool) : Bool :=
  decide (p.estimate l k i ≤ p.timeLeft l periodic)

/-- OVERRUN at the first miss of a cycle (R67). -/
def Part.noteOverrun (l : LoopId) (p : Part) : Part × List SchedOp :=
  if (p.eng l).cyc.overrun then (p, [])
  else
    (p.modEng l fun e => { e with cyc := { e.cyc with overrun := true },
                                  rep := { e.rep with overruns := satInc e.rep.overruns } },
      [.raise .overrun])

/-- STRICT of the record in hand. -/
def Context.strict (c : Context) : Bool :=
  match c.copy with
  | some r => r.strict
  | none => false

/-- A due station's attempt does not fit: a miss, and with STRICT the record ends MISSED (R67, R68). -/
def Part.countMiss (l : LoopId) (i : StationIx) (p : Part) : Part :=
  let q := (p.turnWrites l).modCtx i fun c => { c with missCount := satInc c.missCount }
  let o := q.noteOverrun l
  let follow := o.2 ++ [.endTurn]
  if (p.ctx i).strict then
    Part.pushFront l (o.1.completionOf i .missed [] .none .ready ++ follow) (o.1.releaseRelay i)
  else o.1.pushFront l (.writeStationHalf i :: follow)

/-- The consequences of a failed fit test (R67, R71). -/
def Part.doesNotFit (l : LoopId) (i : StationIx) (periodic : Bool) (p : Part) : Part :=
  if periodic then p.countMiss l i
  else
    Part.pushFront l [.endTurn]
      (p.modEng l fun e =>
        { e with cyc := { e.cyc with turn := e.cyc.turn.map fun t => { t with closing := true } } })

/-- The turn under way is one of the periodic window. -/
def Engine.periodicTurn (e : Engine) : Bool :=
  match e.cyc.turn with
  | some t => t.periodic
  | none => false

/-- The claim of a relay entry for a RELAY_START, on the table as it stands (R99). -/
def Part.claimFor (p : Part) (l : LoopId) (i : StationIx) : Option Part :=
  match couplerIndex (p.ctx i).binding.coupler, (p.ctx i).inHand with
  | some j, some k =>
    p.claimRelay { loop := l, coupler := j, station := i, record := k, phase := .starting,
                   startCycle := (p.eng l).rep.cycleNumber, waiting := 0 }
  | _, _ => none

/-- A relayed station's turn is passed at its choice of attempt: its coupler is not admitted (R97), or
its collect delay is not over (R69, R101). The delay is compared at every RELAY_COLLECT turn, with the value
of the last scan, also after a first collect (R104; log 43). -/
def Part.passedTurn (p : Part) (l : LoopId) (k : AttemptKind) (i : StationIx) : Bool :=
  let c := p.ctx i
  match k with
  | .relayStart | .relayCollect =>
    (match couplerIndex c.binding.coupler with
     | some j => !(p.ctx j).admittedTo l
     | none => true) ||
    (k == .relayCollect && decide (p.relayAge l i < c.fresh.collectDelay.toNat))
  | .poll | .put | .probe | .roll | .test => false

/-- Choice of attempt, fit test, claim and attempt (R64 steps 2 to 4, R69, R99). Once a boundary has
fallen (R59), or while a ROLLCALL waits (R137), no fit test is made, so none fails: no miss is counted and no
STRICT record ends MISSED, which is the model's choice (log 40). -/
def Part.fitTest (l : LoopId) (i : StationIx) (p : Part) : Part :=
  let e := p.eng l
  let k := (p.ctx i).nextAttempt
  if !e.mayAttempt || p.passedTurn l k i then p.pushFront l [.endTurn]
  else if !p.fits l k i e.periodicTurn then p.doesNotFit l i e.periodicTurn
  else if k = .relayStart then
    match p.claimFor l i with
    | some q => q.startAttempt l k i
    | none => p.pushFront l [.endTurn]
  else p.startAttempt l k i

/-- The follow-on PUT after a READY (R64 step 5, R87): one that does not fit counts no miss, and in the
aperiodic window it closes the window. After a boundary it is not sent (R59), nor while a ROLLCALL waits
(R137); no fit test is made then, the model's choice (log 40). -/
def Part.followOnPut (l : LoopId) (i : StationIx) (p : Part) : Part :=
  let e := p.eng l
  if !e.mayAttempt then p.pushFront l [.endTurn]
  else if p.fits l .put i e.periodicTurn then p.startAttempt l .put i
  else if e.periodicTurn then p.pushFront l [.endTurn]
  else p.doesNotFit l i false

end Sys2Proof.Machine
end

