-- ==== Sys2Proof/Machine/Procedure.lean ====
section
/-! DEFINITION. Carrying out the procedure of a scheduler requester: the acts between its transfers, and
what each completed transfer leads to. -/

namespace Sys2Proof.Machine

open Sys2Proof

/-- REFUSED for a RETIME that was refused, raised once (R62). -/
def Part.raiseRetimeRefused (l : LoopId) (p : Part) : Part :=
  if (p.eng l).cyc.retimeRefused then
    Part.raiseCause l .refused
      (p.modEng l fun e => { e with cyc := { e.cyc with retimeRefused := false } })
  else p

/-- The settlement of one record in hand: the station is READY after it (R129, R134). -/
def Part.settleOne (l : LoopId) (i : StationIx) (outcome : RecordOutcome) (p : Part) : Part :=
  p.settleRecord l i outcome .ready []

/-- The roll list is done: RUNNING, its write, and ROLLDONE (R139). -/
def Part.rollEnd (l : LoopId) (p : Part) : Part :=
  if (p.eng l).ctl.state = .rollcall then p.enterRunning l [.raise .rolldone] else p

/-- A start given up before validation: OFF with no write and no cause (R126). A catch frame that a wake
entry still held is a drop that no write of this entry carries (log 41). -/
def Part.startAbort (l : LoopId) (p : Part) : Part := p.enterOff l []

/-- One act of a procedure. A transfer is no act: it waits for its end. -/
def Part.act (l : LoopId) (op : SchedOp) (p : Part) : Part :=
  match op with
  | .raise c => p.raiseCause l c
  | .raiseCatch => if (p.eng l).cfg.catchNotify then p.raiseCause l .catch_ else p
  | .raiseRetimeRefused => p.raiseRetimeRefused l
  | .mark => p
  | .startValidate => p.startValidate l
  | .awaitTransmitter => p
  | .startLatch => p.startLatch l
  | .startResets => p.startResets l
  | .startNext => p.startNext l
  | .startAbort => p.startAbort l
  | .judge i => p.judgeEntry l i
  | .retimeStep => p.retimeStep l
  | .cycleStep => p.cycleStep l
  | .reportStep => p.reportStep l
  | .beaconStep => p.beaconStep l
  | .takeCheck i => p.takeCheck l i
  | .fitTest i => p.fitTest l i
  | .followOn i => p.followOnPut l i
  | .endTurn => p.endTurn l
  | .settleAll o => p.pushFront l (p.settleAllOps l o)
  | .settle i o => p.settleOne l i o
  | .enterTarget => p.enterTarget l
  | .enterOff => p.enterOff l [.writeLoopHalf, .raiseRetimeRefused]
  | .disown i => p.modCtx i fun c => { c with owner := none, state := .disabled }
  | .rollEnd => p.rollEnd l
  | .testValidate => p.testValidate l
  | .testFirst => p.testFirst l
  | .testAbort => p.testAbort l
  | .readGlobal | .readLoopHost _ | .readStationHost _ | .readLink _ | .readRecord _ _
  | .writeActive _ _ _ | .writePayload _ _ | .writeResult _ _ _ _ | .writeDone _ _ _ _
  | .writeStationHalf _ | .writeLoopHalf => p

/-- The procedure waits at this operation: for a transfer, or for the end of a keepalive being sent
(R143). -/
def Part.waitsAt (p : Part) (l : LoopId) (op : SchedOp) : Bool :=
  (p.schedAction l op).isSome ||
    (op == .awaitTransmitter && (p.eng l).framer.sending.isSome)

/-- Take the first operation off the procedure. -/
def Part.popSched (l : LoopId) (p : Part) : Part :=
  p.modEng l fun e => { e with sched := e.sched.drop 1 }

/-- The procedure waits at its first operation, or there is none: so it stands between two steps. -/
def Part.paused (p : Part) (l : LoopId) : Bool :=
  match (p.eng l).sched with
  | [] => true
  | op :: _ => p.waitsAt l op

/-- Where the bound on acts is met, the procedure goes on from its next transfer (log 25). -/
def Part.cutActs (l : LoopId) (p : Part) : Part :=
  p.modEng l fun e => { e with sched := e.sched.dropWhile fun op => !p.waitsAt l op }

/-- Carry out acts until the procedure waits or ends; `n` bounds their number (log 25). -/
def Part.runSched : Nat → LoopId → Part → Part
  | 0, l, p => p.cutActs l
  | n + 1, l, p =>
    match (p.eng l).sched with
    | [] => p
    | op :: _ => if p.waitsAt l op then p else Part.runSched n l (Part.act l op (p.popSched l))

/-- The acts that follow a part-half write of R120, up to its next one. -/
def Part.runUrgent (l : LoopId) : List SchedOp → Part → Part
  | [], p => p.modEng l fun e => { e with urgent := [] }
  | op :: rest, p =>
    if (p.schedAction l op).isSome then p.modEng l fun e => { e with urgent := op :: rest }
    else Part.runUrgent l rest (Part.act l op p)

/-- A waiting ROLLCALL is to enter ROLLCALL: the Scheduler's work under way has ended (R137). -/
def Engine.rollcallDue (e : Engine) : Bool :=
  e.ctl.state == .running && e.ctl.rollRequest && e.cyc.turn.isNone && e.sched.isEmpty &&
    e.cyc.phase != .boundary && !e.isSending .beacon

/-- A waiting ROLLCALL enters ROLLCALL once the Scheduler's work under way has ended (R137). -/
def Part.rollcallIfDue (l : LoopId) (p : Part) : Part :=
  if (p.eng l).rollcallDue then p.enterRollcall l [] else p

/-- What an event of a loop leads to at once: the acts of its procedure, then a roll-call that has been
waiting for them. -/
def Part.proceed (l : LoopId) (p : Part) : Part :=
  (Part.runSched Config.actBound l p).rollcallIfDue l

/-- The completed transfer of a procedure: the values read, or what the write stands for. -/
def Part.schedDone (l : LoopId) (op : SchedOp) (data : List Byte) (p : Part) : Part :=
  match op with
  | .readGlobal =>
    p.modEng l fun e => { e with globalBase := (decodeGlobal data).1, globalSize := (decodeGlobal data).2 }
  | .readLoopHost .starting => p.modEng l fun e => { e with hostBuf := LoopHost.decode data }
  | .readLoopHost .testing => p.modEng l fun e => { e with hostBuf := LoopHost.decode data }
  | .readLoopHost .retiming =>
    if (p.eng l).ctl.judgesRetime then p.retimeJudge l (LoopHost.decode data) else p
  | .readStationHost i => p.modEng l fun e => { e with scan := e.scan.set i (StationHost.decode data) }
  | .readLink i => p.followLink l i (linkField (wordAt data 0))
  | .readRecord i k => p.seeRecord l i k data
  | .writeActive i k copy => p.recordTaken l i k copy
  | .writeDone i k flip after => p.modCtx i (Context.complete k flip after)
  | .writePayload _ _ | .writeResult _ _ _ _ | .writeStationHalf _ | .writeLoopHalf => p
  | .raise _ | .raiseCatch | .raiseRetimeRefused | .mark | .startValidate | .awaitTransmitter
  | .startLatch | .startResets | .startNext | .startAbort | .judge _ | .retimeStep | .cycleStep
  | .reportStep | .beaconStep | .takeCheck _ | .fitTest _ | .followOn _ | .endTurn | .settleAll _
  | .settle _ _ | .enterTarget | .enterOff | .disown _ | .rollEnd | .testValidate | .testFirst
  | .testAbort => p

/-- A transfer of the scheduler requester has completed. -/
def Part.schedTransferDone (l : LoopId) (urgent : Bool) (data : List Byte) (p : Part) : Part :=
  if urgent then Part.runUrgent l ((p.eng l).urgent.drop 1) p
  else
    match (p.eng l).sched with
    | [] => p
    | op :: _ => Part.schedDone l op data (p.popSched l)

/-- A transfer has completed and its result is awaited: its requester goes on (R164). -/
def Part.transferDone (t : Transfer) (data : List Byte) (p : Part) : Part :=
  if t.orphan then p
  else
    match t.requester with
    | .sched l => (p.schedTransferDone l t.urgent data).proceed l
    | .catcher l => (p.catchDone l data).proceed l

end Sys2Proof.Machine
end

