-- ==== Sys2Proof/Machine/HostCommands.lean ====
section
/-! DEFINITION. The commands of CONTROL: START, STOP, QUIET, WAKE, ROLLCALL, RETIME, TEST, an undefined
code, and the soft reset (08 R125, 11 R159, R166, R167). -/

namespace Sys2Proof.Machine

open Sys2Proof

/-- A step of the part after `dt` CLK periods: what happens in it, then the arbiter's grant (R164). -/
def State.onPart (s : State) (dt : Nat) (f : Part → Part) : Host.Outcome State Fault Refusal :=
  .next { s with part := (f (s.part.tick dt)).arbitrate }

/-- An event of a loop: it has no effect when its condition does not hold, nor while the part is held in
reset or RESETTING (R166, R168; log 2). -/
def Part.loopEvent (can : Part → Bool) (f : Part → Part) (p : Part) : Part :=
  if p.live && can p then f p else p

/-- An event of a loop that its procedure may go on from. -/
def Part.loopStep (l : LoopId) (can : Part → Bool) (f : Part → Part) (p : Part) : Part :=
  p.loopEvent can fun q => (f q).proceed l

/-- The slots of both loops are empty: a CONTROL write can be taken (R159). -/
def Part.latchFree (p : Part) : Bool := p.engA.ctl.slot.isNone && p.engB.ctl.slot.isNone

/-- Fill or empty the slot of a loop (R159). -/
def Part.setSlot (l : LoopId) (slot : Option (BitVec 4)) (p : Part) : Part :=
  p.modEng l fun e => { e with ctl := { e.ctl with slot := slot } }

/-- The slot content of a command field: code 0 leaves the slot empty (R159). -/
def slotOf (field : BitVec 4) : Option (BitVec 4) := if field = 0 then none else some field

/-- The engine of loop `l` takes the command of a code and carries it out (R159). A write is taken only
when both slots are empty, is ignored while RESETTING, and is not answered while the part is held in
reset; from the latch only the command that stands in the slot is taken. -/
def Part.takeCommand (l : LoopId) (via : CommandPath) (code : BitVec 4) (run : Part → Part) (p : Part) :
    Part :=
  if p.live then
    match via with
    | .written other =>
      if p.latchFree then run (p.setSlot (otherLoop l) (slotOf other)) else p
    | .latched =>
      if (p.eng l).ctl.slot = some code then run (p.setSlot l none) else p
  else p

/-- The command is refused: REFUSED is raised and nothing else changes (R125). -/
def Part.refuse (l : LoopId) (p : Part) : Part := p.raiseCause l .refused

/-- START (R125, R126). -/
def Part.doStart (l : LoopId) (p : Part) : Part :=
  if (p.eng l).ctl.state = .off then (p.enterStarting l true).proceed l else p.refuse l

/-- What is left of the entry to DOWN or JAMMED when a STOP is taken: its write and cause are not made if
they have not begun (R135). -/
def cutDownReport : List SchedOp → List SchedOp
  | [.writeLoopHalf, .raise _, .raiseRetimeRefused] => []
  | op :: rest => op :: cutDownReport rest
  | [] => []

/-- STOP in DOWN or JAMMED: the settlements that remain are made, then the loop enters OFF (R135). -/
def Part.stopDown (l : LoopId) (p : Part) : Part :=
  let sched := (p.eng l).sched
  let rest := if p.schedTransferring l then sched.take 1 ++ cutDownReport (sched.drop 1)
    else cutDownReport sched
  p.modEng l fun e => { e with sched := rest.filter (fun op => op != .enterOff) ++ [.enterOff] }

/-- An operation of STARTING or TEST entry up to its validation, or the end of one given up. -/
def SchedOp.ofEntry : SchedOp → Bool
  | .readGlobal | .readLoopHost _ | .startValidate | .testValidate | .startAbort | .testAbort => true
  | _ => false

/-- What an earlier event has still to write and raise ahead of a start or test entry not yet validated. -/
def Engine.aheadOfEntry (e : Engine) : List SchedOp :=
  if e.ctl.validated then [] else e.sched.takeWhile fun op => !op.ofEntry

/-- A start or test entry is given up (R126, R151): once its transfer in progress has completed, or at once
where what an earlier event has to write and raise is still ahead of its first transfer. That is made. In a wake's
STARTING a keepalive still on the line is cut off at the entry to OFF (R130), and so runs on until the transfer in
progress has ended (R126), where R143's row has the STOP cut it off at once: the model's choice (log 55). -/
def Part.giveUp (l : LoopId) (last : SchedOp) (p : Part) : Part :=
  match (p.eng l).aheadOfEntry with
  | [] =>
    let keep := p.keepTransfer l
    p.modEng l fun e => { e with sched := keep ++ [last] }
  | ahead => Part.act l last (p.modEng l fun e => { e with sched := ahead })

/-- What a STOP does in each state in which it is taken (R125, R126, R128, R130, R135, R140, R151,
R156). -/
def Part.stopLoop (l : LoopId) (p : Part) : Part :=
  let e := p.eng l
  match e.ctl.state with
  | .off => p
  | .starting => if e.ctl.validated then p.enterDraining l .off else p.giveUp l .startAbort
  | .rollcall | .running => p.enterDraining l .off
  | .draining =>
    Part.pushUrgent l [.writeLoopHalf]
      (p.modEng l fun e => { e with ctl := { e.ctl with drainTarget := some .off } })
  | .quiet => p.enterOff l [.writeLoopHalf]
  | .fault => p.enterOff l []
  | .down | .jammed => p.stopDown l
  | .test => if e.enteringTest then p.giveUp l .testAbort else p.stopTest l

/-- A STOP is refused in OFF; after a test that has just ended, REFUSED follows its TESTDONE (R156). Where a
bus error ends the write before TESTDONE, the waiting REFUSED is dropped with the procedure (log 47). A second STOP
after a test that a STOP has ended waits in the same way (log 53). -/
def Part.refuseStop (l : LoopId) (p : Part) : Part :=
  if (p.eng l).sched.contains (.raise .testdone) then p.push l [.raise .refused] else p.refuse l

/-- STOP: refused in OFF alone (R125). -/
def Part.doStop (l : LoopId) (p : Part) : Part :=
  if (p.eng l).ctl.state = .off then p.refuseStop l else (p.stopLoop l).proceed l

/-- QUIET (R125, R141). -/
def Part.doQuiet (l : LoopId) (p : Part) : Part :=
  if (p.eng l).ctl.state = .running && p.screening.wakeConfig.setupComplete then
    (p.enterDraining l .quiet).proceed l
  else p.refuse l

/-- WAKE (R125, R148). -/
def Part.doWake (l : LoopId) (p : Part) : Part :=
  if (p.eng l).ctl.state = .quiet then (p.wake l (WakeRecord.plain .host)).proceed l else p.refuse l

/-- ROLLCALL (R125, R137): the flag is set; the entry comes when the work under way has ended. -/
def Part.doRollcall (l : LoopId) (p : Part) : Part :=
  if (p.eng l).ctl.state = .running then
    Part.proceed l (p.modEng l fun e => { e with ctl := { e.ctl with rollRequest := true } })
  else p.refuse l

/-- The loop states in which a RETIME is taken (R61). -/
def LoopState.takesRetime : LoopState → Bool
  | .running | .rollcall | .down | .jammed => true
  | .off | .starting | .draining | .quiet | .test | .fault => false

/-- RETIME (R61, R125). -/
def Part.doRetime (l : LoopId) (p : Part) : Part :=
  if (p.eng l).ctl.state.takesRetime then
    p.modEng l fun e => { e with ctl := { e.ctl with retimePending := true } }
  else p.refuse l

/-- TEST: the claim of the Test Pattern Unit and the entry to TEST (R125, R150, R151). -/
def Part.doTest (l : LoopId) (p : Part) : Part :=
  if (p.eng l).ctl.state = .off && p.testUnit.owner.isNone then
    (p.enterTest l).proceed l
  else p.refuse l

/-- The start of a soft reset (R166): RESETTING, CAUSE cleared, the Framers stopped, the Exchange Units
IDLE, and every waiting request withdrawn with what was to follow it. `done` is the DONE write in progress, whose
context change R35 lets stand. -/
def Engine.cutShort (done : List SchedOp) (e : Engine) : Engine :=
  { e.stopFramer with
    ctl := { e.ctl with slot := none }
    xu := { state := .idle, attempt := none }
    sched := done, urgent := []
    catcher := { e.catcher with walk := none } }

/-- A CONTROL write with the soft-reset bit (R159, R166). -/
def Part.beginSoftReset (p : Part) : Part :=
  if p.live && p.latchFree then
    { p with resetting := true, cause := 0
             engA := p.engA.cutShort (p.doneInProgress .A), engB := p.engB.cutShort (p.doneInProgress .B) }
  else p

/-- The part after a soft reset (R167): AREA, MASK and the Screening Store are kept. -/
def Part.softReset (p : Part) : Part :=
  { Part.powerOn p.now p.engA.mon.biasOk p.engB.mon.biasOk with
    area := p.area, mask := p.mask, screening := p.screening, busRead := p.busRead
    port := { inFlight := p.port.inFlight, pointer := .catcher .B } }

/-- The soft reset ends once no transfer is in progress (R166, R167). -/
def Part.endSoftReset (p : Part) : Part :=
  if p.resetting && !p.resetHeld && p.port.inFlight.isNone then p.softReset else p

/-! ### The meanings -/

/-- START (R126). -/
def execStart (dt : Nat) (l : LoopId) (via : CommandPath) (s : State) : Host.Outcome State Fault Refusal :=
  s.onPart dt (Part.takeCommand l via 1 (Part.doStart l))

/-- STOP (R130). -/
def execStop (dt : Nat) (l : LoopId) (via : CommandPath) (s : State) : Host.Outcome State Fault Refusal :=
  s.onPart dt (Part.takeCommand l via 2 (Part.doStop l))

/-- QUIET (R128). -/
def execQuiet (dt : Nat) (l : LoopId) (via : CommandPath) (s : State) : Host.Outcome State Fault Refusal :=
  s.onPart dt (Part.takeCommand l via 3 (Part.doQuiet l))

/-- WAKE (R148). -/
def execWake (dt : Nat) (l : LoopId) (via : CommandPath) (s : State) : Host.Outcome State Fault Refusal :=
  s.onPart dt (Part.takeCommand l via 4 (Part.doWake l))

/-- ROLLCALL (R137). -/
def execRollcall (dt : Nat) (l : LoopId) (via : CommandPath) (s : State) :
    Host.Outcome State Fault Refusal :=
  s.onPart dt (Part.takeCommand l via 5 (Part.doRollcall l))

/-- RETIME (R61). -/
def execRetime (dt : Nat) (l : LoopId) (via : CommandPath) (s : State) : Host.Outcome State Fault Refusal :=
  s.onPart dt (Part.takeCommand l via 6 (Part.doRetime l))

/-- TEST (R151). -/
def execLineTest (dt : Nat) (l : LoopId) (via : CommandPath) (s : State) :
    Host.Outcome State Fault Refusal :=
  s.onPart dt (Part.takeCommand l via 7 (Part.doTest l))

/-- An undefined command code is a refused command (R159). A code that names a command is none (log 2). -/
def execUndefinedCommand (dt : Nat) (l : LoopId) (code : BitVec 4) (via : CommandPath) (s : State) :
    Host.Outcome State Fault Refusal :=
  s.onPart dt fun p => if undefinedCode code then p.takeCommand l via code (Part.refuse l) else p

/-- A soft reset begins; the command fields of the write are discarded (R159, R166). -/
def execSoftReset (dt : Nat) (_fields : BitVec 8) (s : State) : Host.Outcome State Fault Refusal :=
  s.onPart dt Part.beginSoftReset

/-- The soft reset ends (R166, R167). -/
def execSoftResetComplete (dt : Nat) (s : State) : Host.Outcome State Fault Refusal :=
  s.onPart dt Part.endSoftReset

end Sys2Proof.Machine
end

