-- ==== Sys2Proof/Machine/RegisterPort.lean ====
section
/-! DEFINITION. The Register Port: AREA, CAUSE, MASK, WINDOW_POINTER, WINDOW_DATA and the nine window
spaces; RESET_N (11; 12 R170). -/

namespace Sys2Proof.Machine

open Sys2Proof

/-! ### WINDOW_POINTER (R161) -/

/-- The code of a step mode (12_formats, "Registers"). -/
def StepMode.code : StepMode → BitVec 2
  | .fixed => 0 | .all => 1 | .writes => 2 | .reads => 3

/-- The step mode of a code. -/
def StepMode.ofCode (c : BitVec 2) : StepMode :=
  if c = 0 then .fixed else if c = 1 then .all else if c = 2 then .writes else .reads

/-- A step is made after a read (R161). -/
def StepMode.afterRead : StepMode → Bool
  | .all | .reads => true
  | .fixed | .writes => false

/-- A step is made after a write (R161). -/
def StepMode.afterWrite : StepMode → Bool
  | .all | .writes => true
  | .fixed | .reads => false

/-- WINDOW_POINTER from a written word (12_formats, "Registers"). -/
def WindowPointer.ofWord (w : Word) : WindowPointer :=
  { space := w.extractLsb' 16 4, offset := w.extractLsb' 0 12, mode := .ofCode (w.extractLsb' 24 2) }

/-- WINDOW_POINTER as a read returns it (12_formats, "Registers"). The bits assigned to nothing there return 0
(log 48). -/
def WindowPointer.toWord (w : WindowPointer) : Word :=
  (0 : BitVec 6) ++ w.mode.code ++ (0 : BitVec 4) ++ w.space ++ (0 : BitVec 4) ++ w.offset

/-- The step of the offset, which wraps from 4095 to 0 (R161). -/
def WindowPointer.step (stepped : Bool) (w : WindowPointer) : WindowPointer :=
  if stepped then { w with offset := w.offset + 1 } else w

/-! ### Reading the window spaces (R162, R170) -/

/-- Space 0: identity and capacities. -/
def identityRead (offset : Nat) : Word :=
  match offset with
  | 0 => Config.identityWord
  | 1 => Config.capacityWord
  | 2 => Config.poolWord
  | _ => 0

/-- Code of a filter scope (R170). -/
def FilterScope.code : FilterScope → BitVec 2
  | .announce => 0 | .wake => 1 | .both => 2 | .unnamed => 3

/-- The filter scope of a code (R170). -/
def FilterScope.ofCode (c : BitVec 2) : FilterScope :=
  if c = 0 then .announce else if c = 1 then .wake else if c = 2 then .both else .unnamed

/-- Code of a qualifier (R170). -/
def Qualifier.code : Qualifier → BitVec 2
  | .any => 0 | .toConcentrator => 1 | .groupListed => 2 | .knownSource => 3

/-- The qualifier of a code (R170). -/
def Qualifier.ofCode (c : BitVec 2) : Qualifier :=
  if c = 0 then .any else if c = 1 then .toConcentrator else if c = 2 then .groupListed else .knownSource

/-- The eight words of a filter (R114, R170). -/
def Filter.readWord (f : Filter) (word : Nat) : Word :=
  match word with
  | 0 => (0 : BitVec 1) ++ f.offset ++ (0 : BitVec 6) ++ f.qualifier.code ++ (0 : BitVec 6) ++ f.scope.code
          ++ (0 : BitVec 7) ++ BitVec.ofBool f.enable
  | 1 => f.mask.extractLsb' 0 32
  | 2 => f.mask.extractLsb' 32 32
  | 3 => (0 : BitVec 16) ++ f.expected
  | 4 => (0 : BitVec 16) ++ f.matchCount ++ (0 : BitVec 7) ++ BitVec.ofBool f.triggered
  | _ => 0

/-- Space 1: the filter bank. -/
def ScreeningStore.filterRead (s : ScreeningStore) (offset : Nat) : Word :=
  if h : offset / 8 < 16 then (s.filters[offset / 8]).readWord (offset % 8) else 0

/-- The word of the wake configuration (R141, R170). -/
def WakeConfig.readWord (w : WakeConfig) : Word :=
  (0 : BitVec 28) ++ BitVec.ofBool w.setupComplete ++ BitVec.ofBool w.allCallAccept
    ++ BitVec.ofBool w.wakeAllCall ++ BitVec.ofBool w.wakeOnEnergy

/-- The word of a group entry (R113, R170). -/
def GroupEntry.readWord (g : GroupEntry) : Word :=
  (0 : BitVec 30) ++ BitVec.ofBool g.wake ++ BitVec.ofBool g.announceAccept

/-- Space 2: the group table and the wake configuration. -/
def ScreeningStore.groupRead (s : ScreeningStore) (offset : Nat) : Word :=
  if h : offset < 15 then (s.groups[offset]).readWord
  else if offset = 15 then s.wakeConfig.readWord
  else 0

/-- An optional filter index as an 8-bit field: 0xFF for none (R169). -/
def filterIndexByte : Option (Fin 16) → Byte
  | none => 0xFF
  | some i => BitVec.ofNat 8 i.val

/-- The four words of a wake record; an EMPTY one reads as zeros (R147, R170). -/
def wakeRecordRead (r : Option WakeRecord) (word : Nat) : Word :=
  match r with
  | none => 0
  | some w =>
    match word with
    | 0 => (0 : BitVec 16) ++ w.reason.code ++ (1 : BitVec 8)
    | 1 => (0 : BitVec 16) ++ w.destination ++ w.source
    | 2 => w.triggered ++ (0 : BitVec 8) ++ filterIndexByte w.filter
    | _ => 0

/-- Space 3: the wake records. -/
def ScreeningStore.wakeRead (s : ScreeningStore) (offset : Nat) : Word :=
  if offset < 4 then wakeRecordRead s.wakeA offset
  else if offset < 8 then wakeRecordRead s.wakeB (offset - 4)
  else 0

/-- Spaces 4 and 5: the monitor counters (R131). -/
def LineMonitor.readWord (m : LineMonitor) (offset : Nat) : Word :=
  match offset with
  | 0 => (0 : BitVec 24) ++ m.windowErrors
  | 1 => (0 : BitVec 16) ++ m.totalErrors
  | 2 => (0 : BitVec 16) ++ m.collisions
  | 3 => (0 : BitVec 24) ++ m.silentRun
  | _ => 0

/-- The three words of a trap slot (R94, R170). -/
def TrapSlot.readWord (t : TrapSlot) (word : Nat) : Word :=
  match word with
  | 0 => BitVec.ofBool (!t.armed) ++ (0 : BitVec 9) ++ t.station ++ t.latency
  | 1 => (0 : BitVec 16) ++ t.cycle
  | 2 => (0 : BitVec 24) ++ t.missed
  | _ => 0

/-- Space 6: the trap slots. -/
def Part.trapRead (p : Part) (offset : Nat) : Word :=
  if offset < 3 then p.engA.trap.readWord offset
  else if offset < 6 then p.engB.trap.readWord (offset - 3)
  else 0

/-- The three words of a relay entry in use (R98, R170). -/
def RelayEntry.readWord (r : RelayEntry) (word : Nat) : Word :=
  match word with
  | 0 => (1 : BitVec 1) ++ BitVec.ofBool (r.loop == .B) ++ BitVec.ofBool (r.phase == .collecting)
          ++ (0 : BitVec 7) ++ BitVec.ofNat 6 r.coupler.val ++ (0 : BitVec 2) ++ BitVec.ofNat 6 r.station.val
          ++ r.waiting
  | 1 => (0 : BitVec 22) ++ r.record
  | 2 => r.startCycle
  | _ => 0

/-- Space 7: the Relay Table; a free entry reads as zeros (R170). -/
def Part.relayRead (p : Part) (offset : Nat) : Word :=
  if h : offset / 3 < 8 then
    match p.relays[offset / 3] with
    | some r => r.readWord (offset % 3)
    | none => 0
  else 0

/-- Space 8: the Test Pattern Unit (R150). -/
def TestUnit.readWord (u : TestUnit) (offset : Nat) : Word :=
  match offset with
  | 0 => (0 : BitVec 21) ++ u.status.code ++ (0 : BitVec 6) ++ ownerCode u.owner
  | 1 => (0 : BitVec 16) ++ u.sent
  | 2 => (0 : BitVec 16) ++ u.intact
  | 3 => (0 : BitVec 16) ++ u.lost
  | 4 => (0 : BitVec 16) ++ u.mismatched
  | _ => 0

/-- The word at a space and offset; beyond the end of a space and in spaces 9 to 15 it is 0 (R161). -/
def Part.windowWord (p : Part) (space : BitVec 4) (offset : BitVec 12) : Word :=
  match space.toNat with
  | 0 => identityRead offset.toNat
  | 1 => p.screening.filterRead offset.toNat
  | 2 => p.screening.groupRead offset.toNat
  | 3 => p.screening.wakeRead offset.toNat
  | 4 => p.engA.mon.readWord offset.toNat
  | 5 => p.engB.mon.readWord offset.toNat
  | 6 => p.trapRead offset.toNat
  | 7 => p.relayRead offset.toNat
  | 8 => p.testUnit.readWord offset.toNat
  | _ => 0

/-! ### Side effects of reads (R94, R131, R150, R162) -/

/-- A read of total frame errors or of collisions clears it (R131). -/
def LineMonitor.readEffect (m : LineMonitor) (offset : Nat) : LineMonitor :=
  if offset = 1 then { m with totalErrors := 0 }
  else if offset = 2 then { m with collisions := 0 }
  else m

/-- A read of the capture word re-arms the slot and empties the capture; a read of the missed word clears
it (R94). -/
def TrapSlot.readEffect (t : TrapSlot) (word : Nat) : TrapSlot :=
  if word = 0 then { TrapSlot.reset with missed := t.missed }
  else if word = 2 then { t with missed := 0 }
  else t

/-- The side effect of a read of a trap word (R94). -/
def Part.trapEffect (offset : Nat) (p : Part) : Part :=
  if offset < 3 then p.modEng .A fun e => { e with trap := e.trap.readEffect offset }
  else if offset < 6 then p.modEng .B fun e => { e with trap := e.trap.readEffect (offset - 3) }
  else p

/-- A read of the mismatched-bytes word clears it (R150). -/
def TestUnit.readEffect (u : TestUnit) (offset : Nat) : TestUnit :=
  if offset = 4 then { u with mismatched := 0 } else u

/-- The side effect of a read at a space and offset (R162). -/
def Part.windowEffect (space : BitVec 4) (offset : BitVec 12) (p : Part) : Part :=
  match space.toNat with
  | 4 => p.modEng .A fun e => { e with mon := e.mon.readEffect offset.toNat }
  | 5 => p.modEng .B fun e => { e with mon := e.mon.readEffect offset.toNat }
  | 6 => p.trapEffect offset.toNat
  | 8 => { p with testUnit := p.testUnit.readEffect offset.toNat }
  | _ => p

/-! ### Writing the window spaces (R113, R114, R141, R147, R162) -/

/-- A write of one of the eight words of a filter (R114, R170). -/
def Filter.writeWord (f : Filter) (word : Nat) (v : Word) : Filter :=
  match word with
  | 0 => { f with enable := v.getLsbD 0, scope := .ofCode (v.extractLsb' 8 2),
                  qualifier := .ofCode (v.extractLsb' 16 2), offset := v.extractLsb' 24 7 }
  | 1 => { f with mask := f.mask.extractLsb' 32 32 ++ v }
  | 2 => { f with mask := v ++ f.mask.extractLsb' 0 32 }
  | 3 => { f with expected := v.extractLsb' 0 16 }
  | 4 => { f with triggered := v.getLsbD 0, matchCount := v.extractLsb' 8 8 }
  | _ => f

/-- A write in space 1. -/
def ScreeningStore.filterWrite (s : ScreeningStore) (offset : Nat) (v : Word) : ScreeningStore :=
  if h : offset / 8 < 16 then
    { s with filters := s.filters.set (offset / 8) ((s.filters[offset / 8]).writeWord (offset % 8) v) }
  else s

/-- A write in space 2 (R113, R141). -/
def ScreeningStore.groupWrite (s : ScreeningStore) (offset : Nat) (v : Word) : ScreeningStore :=
  if h : offset < 15 then
    { s with groups := s.groups.set offset { announceAccept := v.getLsbD 0, wake := v.getLsbD 1 } }
  else if offset = 15 then
    { s with wakeConfig := { wakeOnEnergy := v.getLsbD 0, wakeAllCall := v.getLsbD 1,
                             allCallAccept := v.getLsbD 2, setupComplete := v.getLsbD 3 } }
  else s

/-- A write of any value to any word of a loop's wake record empties it (R147). -/
def ScreeningStore.wakeWrite (s : ScreeningStore) (offset : Nat) : ScreeningStore :=
  if offset < 4 then { s with wakeA := none }
  else if offset < 8 then { s with wakeB := none }
  else s

/-- A write at a space and offset; every word outside spaces 1 to 3 is read-only (R162). -/
def Part.windowStore (space : BitVec 4) (offset : BitVec 12) (v : Word) (p : Part) : Part :=
  match space.toNat with
  | 1 => { p with screening := p.screening.filterWrite offset.toNat v }
  | 2 => { p with screening := p.screening.groupWrite offset.toNat v }
  | 3 => { p with screening := p.screening.wakeWrite offset.toNat }
  | _ => p

/-! ### The registers (R157, R158, R160, R163) -/

/-- What a read of a register offset returns; WINDOW_DATA is the word before the read's effects (R157).
Reads other than that of WINDOW_DATA change nothing and have no command (log 30). -/
def Part.readRegister (p : Part) (offset : Word) : Word :=
  if offset = 0x00 then p.areaBase
  else if offset = 0x04 then p.controlRead
  else if offset = 0x08 then (if p.resetting then 0 else p.cause)
  else if offset = 0x0C then p.mask
  else if offset = 0x10 then (if p.resetting then 0 else p.window.toWord)
  else if offset = 0x14 then
    (if p.resetting then 0 else p.windowWord p.window.space p.window.offset)
  else 0

/-- A write of AREA is taken while both loops are OFF (R158). -/
def Part.writeArea (value : Word) (p : Part) : Part :=
  if p.live && p.engA.ctl.state == .off && p.engB.ctl.state == .off then
    { p with area := value.extractLsb' 12 20 }
  else p

/-- A write of CAUSE clears the flags written as 1 (R163). -/
def Part.writeCause (value : Word) (p : Part) : Part :=
  if p.live then { p with cause := p.cause &&& ~~~value } else p

/-- A write of MASK is taken during RESETTING too (R157, R163). -/
def Part.writeMask (value : Word) (p : Part) : Part :=
  if p.resetHeld then p else { p with mask := value }

/-- A write of WINDOW_POINTER sets space, offset and step mode at once (R161). -/
def Part.writePointer (value : Word) (p : Part) : Part :=
  if p.live then { p with window := .ofWord value } else p

/-- A read of WINDOW_DATA: the word, its side effect, and the step. During RESETTING it returns 0 with
neither (R157, R161). -/
def Part.readData (p : Part) : Part :=
  if p.resetHeld then p
  else if p.resetting then { p with busRead := 0 }
  else
    let w := p.window
    { p.windowEffect w.space w.offset with
      busRead := p.windowWord w.space w.offset, window := w.step w.mode.afterRead }

/-- A write of WINDOW_DATA: the effect of the word's store, and the step (R157, R161). -/
def Part.writeData (value : Word) (p : Part) : Part :=
  if p.live then
    let w := p.window
    { p.windowStore w.space w.offset value with window := w.step w.mode.afterWrite }
  else p

/-! ### RESET_N (R168) -/

/-- The part while RESET_N is active: every item at its reset value, and no access answered. -/
def Part.holdReset (p : Part) : Part :=
  { Part.powerOn p.now p.engA.mon.biasOk p.engB.mon.biasOk with resetHeld := true }

/-- RESET_N becomes active. -/
def Part.assertReset (p : Part) : Part := if p.resetHeld then p else p.holdReset

/-- RESET_N becomes inactive. -/
def Part.releaseReset (p : Part) : Part :=
  if p.resetHeld then Part.powerOn p.now p.engA.mon.biasOk p.engB.mon.biasOk else p

/-- The bytes of the write in progress that stand in memory when RESET_N cuts it (R168). -/
def State.memAtReset (s : State) (landed : BitVec 128) : Memory :=
  match s.part.port.inFlight with
  | some t => match t.action with
    | .write a data => Memory.writeLanded s.mem a landed data
    | .read _ _ => s.mem
  | none => s.mem

/-! ### The meanings -/

/-- AREA_WRITE (R158). -/
def execAreaWrite (dt : Nat) (value : Word) (s : State) : Host.Outcome State Fault Refusal :=
  s.onPart dt (Part.writeArea value)

/-- CAUSE_WRITE (R163). -/
def execCauseWrite (dt : Nat) (value : Word) (s : State) : Host.Outcome State Fault Refusal :=
  s.onPart dt (Part.writeCause value)

/-- MASK_WRITE (R163). -/
def execMaskWrite (dt : Nat) (value : Word) (s : State) : Host.Outcome State Fault Refusal :=
  s.onPart dt (Part.writeMask value)

/-- WINDOW_POINTER_WRITE (R161). -/
def execWindowPointerWrite (dt : Nat) (value : Word) (s : State) : Host.Outcome State Fault Refusal :=
  s.onPart dt (Part.writePointer value)

/-- WINDOW_DATA_READ (R161, R162). -/
def execWindowDataRead (dt : Nat) (s : State) : Host.Outcome State Fault Refusal :=
  s.onPart dt Part.readData

/-- WINDOW_DATA_WRITE (R161, R162). -/
def execWindowDataWrite (dt : Nat) (value : Word) (s : State) : Host.Outcome State Fault Refusal :=
  s.onPart dt (Part.writeData value)

/-- REGISTER_WRITE_OTHER is ignored (R157). -/
def execRegisterWriteOther (dt : Nat) (_offset _value : Word) (s : State) :
    Host.Outcome State Fault Refusal :=
  s.onPart dt fun p => p

/-- RESET_N_ASSERT (R168): the memory port's transfer is abandoned at once. -/
def execResetNAssert (dt : Nat) (landed : BitVec 128) (s : State) : Host.Outcome State Fault Refusal :=
  State.onPart { s with mem := s.memAtReset landed } dt Part.assertReset

/-- RESET_N_RELEASE (R168). -/
def execResetNRelease (dt : Nat) (s : State) : Host.Outcome State Fault Refusal :=
  s.onPart dt Part.releaseReset

end Sys2Proof.Machine
end

