-- ==== Sys2Proof/Machine/LineEvents.lean ====
section
/-! DEFINITION. Events of the line and of BIAS_OK: activity, characters, idle line, frame ends, collisions,
ends of frames sent, reply timeouts (01 R2 to R13; 05 R76 to R79; 08 R133; 09 R144). -/

namespace Sys2Proof.Machine

open Sys2Proof

/-! ### BIAS_OK (R133, R136) -/

/-- BIAS_OK goes absent: the carrier measure starts if the Framer runs, and the presence measure of R136
ends. The level is that of a pin: it changes whatever the part does. -/
def LineMonitor.biasLost (now : Nat) (running : Bool) (m : LineMonitor) : LineMonitor :=
  if m.biasOk then
    { m with biasOk := false, carrierSince := if running then some now else none, presenceSince := none }
  else m

/-- BIAS_OK becomes present: the carrier measure returns to 0, and after the down hold the presence
measure starts (R136). -/
def LineMonitor.biasBack (now : Nat) (waiting : Bool) (m : LineMonitor) : LineMonitor :=
  if m.biasOk then m
  else { m with biasOk := true, carrierSince := none, presenceSince := if waiting then some now else none }

/-- BIAS_OK goes absent on a loop. -/
def Part.biasLoss (l : LoopId) (p : Part) : Part :=
  p.modEng l fun e => { e with mon := e.mon.biasLost p.now e.framer.running }

/-- The loop waits in DOWN, its hold over, for BIAS_OK (R136). -/
def Engine.awaitsBias (e : Engine) : Bool := e.ctl.state == .down && e.mon.holdPassed

/-- BIAS_OK becomes present on a loop. -/
def Part.biasRestore (l : LoopId) (p : Part) : Part :=
  p.modEng l fun e => { e with mon := e.mon.biasBack p.now e.awaitsBias }

/-! ### Frame errors (R5, R11, R76, R77, R79, R154, R155) -/

/-- The receiver of a loop takes a state. -/
def Part.setReceiver (l : LoopId) (r : Receiver) (p : Part) : Part :=
  p.modEng l fun e => { e with framer := { e.framer with receiver := r } }

/-- A test frame of INTERNAL_RETURN is in flight (R153). A frame error then counts it lost, also where it
comes from the rest of an earlier frame while this one is still held: no run reaches that, as every frame
is fed whole before it is judged (log 24). -/
def Part.internalInFlight (p : Part) (l : LoopId) : Bool :=
  (p.eng l).internalReturn && !p.testUnit.copy.isEmpty

/-- A frame error is reported once to the Line Monitor, then to the Exchange Unit, or in INTERNAL_RETURN
to the Test Pattern Unit (R11, R155). -/
def Part.frameError (l : LoopId) (atFrameEnd : Bool) (p : Part) : Part :=
  let q := p.modEng l Engine.countFrameError
  if (p.eng l).internalReturn then (if p.internalInFlight l then q.testLost l else q)
  else q.exchangeError l atFrameEnd

/-- A disturbance: one frame error, and the receiver in DISCARD (R5). -/
def Part.disturbed (l : LoopId) (p : Part) : Part :=
  (p.setReceiver l .discard).frameError l false

/-! ### Activity (R2, R13, R144) -/

/-- An activity start is reported: the line was at mark for 2 C or more before `start`, with no activity
lasting and nothing being sent; an RXD that is not listened to reports none (R13, R153). -/
def Engine.activityCanStart (e : Engine) (start : Nat) : Bool :=
  e.framer.running && !e.internalReturn && e.framer.sending.isNone && e.framer.activity.isNone &&
    decide (e.framer.markSince + 2 * e.charTime ≤ start)

/-- An activity start at `start`: the jam measure begins, the next stop bit is due one C later, and in
QUIET with wake-on-energy set the loop wakes, its receiver in DISCARD (R133, R144). A start bit that came before the
entry to QUIET, whose character ends in it, is no activity start in QUIET. -/
def Part.activityStarts (l : LoopId) (start : Nat) (p : Part) : Part :=
  let q := p.modEng l fun e =>
    { e with framer := { e.framer with activity := some start, markSince := start + e.charTime } }
  if (p.eng l).ctl.state == .quiet && p.screening.wakeConfig.wakeOnEnergy &&
      decide ((p.eng l).quietFrom ≤ start) then
    (q.setReceiver l .discard).wake l (WakeRecord.plain .energy)
  else q

/-- A start bit after 2 C or more of mark. -/
def Part.activityStart (l : LoopId) (start : Nat) (p : Part) : Part :=
  if (p.eng l).activityCanStart start then p.activityStarts l start else p

/-- The line has been at mark for `n` C, the part sending nothing. -/
def Engine.atMark (e : Engine) (n now : Nat) : Bool :=
  e.framer.running && e.framer.sending.isNone && decide (e.framer.markSince + n * e.charTime ≤ now)

/-- An activity lasts, or a frame is being collected: 2 C of mark end it (R2, R5). -/
def Engine.activityCanEnd (e : Engine) (now : Nat) : Bool :=
  e.atMark 2 now && (e.framer.activity.isSome || e.framer.receiver.collecting)

/-- The activity ends: the jam measure returns to 0, and a frame still being collected suffers a framing
error (R2, R4, R5). -/
def Part.endActivity (l : LoopId) (p : Part) : Part :=
  let q := p.modEng l fun e => { e with framer := { e.framer with activity := none } }
  if (p.eng l).framer.receiver.collecting then q.disturbed l else q

/-- The unit waits for 4 C of mark after a broken overlong reply (R79). -/
def Engine.skipWaits (e : Engine) : Bool :=
  e.xu.state == .skipping &&
    (match e.xu.attempt with
     | some a => a.skipBroken
     | none => false)

/-- The line is idle: the receiver leaves DISCARD, unless no rate is latched yet (R14), a broken overlong
reply has finished, and a held frame is sent (R2, R4, R79). A cycle beacon held since before the announce window
is sent in it (R63 against R72, the model's choice; log 54). -/
def Part.idleLine (l : LoopId) (p : Part) : Part :=
  let q := p.modEng l fun e =>
    { e with framer := { e.framer with
        receiver := if e.rateLatched then e.framer.receiver.afterIdle else e.framer.receiver } }
  let r := if (q.eng l).skipWaits then q.overlongFinished l false else q
  if (r.eng l).lineIsIdle r.now then r.modEng l (Engine.beginSend r.now) else r

/-- After 4 C of mark; an activity that has not been reported as ended ends first (R2). -/
def Part.lineIdle (l : LoopId) (p : Part) : Part := (p.endActivity l).idleLine l

/-! ### Collisions (R12) -/

/-- What the abandoned frame meant for its sender (R12). -/
def Part.abandonedFrame (l : LoopId) (purpose : TxPurpose) (p : Part) : Part :=
  match purpose with
  | .beacon => p.beaconEnded l
  | .keepalive => p
  | .request | .test => p.attemptFailed l

/-- A collision: the transmission stops at once, one collision and one frame error are counted, and the
receiver is in DISCARD. The activity of the other party lasts from then on (R12, R133; log 18). -/
def Engine.collide (now : Nat) (e : Engine) : Engine :=
  Engine.countCollision
    { e with framer := { e.framer with
        sending := none, receiver := .discard, activity := some now, markSince := now } }

/-- The part sends on the line (R12, R153). -/
def Engine.drivesLine (e : Engine) : Bool := e.framer.sending.isSome && !e.internalReturn

/-- A collision on a loop that is sending on the line. -/
def Part.collision (l : LoopId) (p : Part) : Part :=
  match (p.eng l).framer.sending with
  | some x => (p.modEng l (Engine.collide p.now)).abandonedFrame l x.frame.purpose
  | none => p

/-! ### Characters (R4, R5, R12, R76, R77) -/

/-- The character sent at this place has been read back, or fed to the receiver in INTERNAL_RETURN; the
next one is due. -/
def Part.readBack (l : LoopId) (x : Sending) (p : Part) : Part :=
  p.modEng l fun e =>
    { e with framer := { e.framer with sending := some { x with readBack := x.readBack + 1 } } }

/-- A latency in units of 10 µs, any fraction dropped (R92). -/
def latencyOf (endOfFrame start : Nat) : BitVec 16 :=
  BitVec.ofNat 16 ((start - endOfFrame) / Config.clkPer10us)

/-- A lead character taken in HUNT, its start bit at `start`: in AWAITING, when it starts no later than
the reply timeout, the unit measures the latency and enters RECEIVING (R76, R92). -/
def ExchangeUnit.lead (start : Nat) (x : ExchangeUnit) : ExchangeUnit :=
  match x.state, x.attempt with
  | .awaiting, some a =>
    if start ≤ a.endOfFrame + a.timeout then
      { state := .receiving, attempt := some { a with latency := some (latencyOf a.endOfFrame start) } }
    else x
  | _, _ => x

/-- The timeout has passed with a character under way, and the next character begins after it: the one
waited for has not been taken, and this one is not the attempt's (R76, R80). -/
def ExchangeUnit.missed (start : Nat) (x : ExchangeUnit) : Bool :=
  x.state == .awaiting &&
    (match x.attempt with
     | some a => a.timeoutPassed && decide (a.endOfFrame + a.timeout < start)
     | none => false)

/-- Header complete, with a length of 96 or less: an overlong reply of the expected source sends the unit
to SKIPPING (R77, R79). -/
def ExchangeUnit.header (destination source length : Byte) (x : ExchangeUnit) : ExchangeUnit :=
  match x.state, x.attempt with
  | .receiving, some a =>
    if destination == 0 && source == a.source && decide (a.allowance.toNat < length.toNat) then
      { x with state := .skipping }
    else x
  | _, _ => x

/-- A payload byte goes into the reply buffer (R77). -/
def ExchangeUnit.payloadByte (b : Byte) (x : ExchangeUnit) : ExchangeUnit :=
  match x.state, x.attempt with
  | .receiving, some a => { x with attempt := some { a with buffer := a.buffer ++ [b] } }
  | _, _ => x

/-- What the unit does with the character that makes the collected frame `cs` (R77). -/
def ExchangeUnit.character (cs : List Byte) (x : ExchangeUnit) : ExchangeUnit :=
  if cs.length = 5 then x.header (byteAt cs 1) (byteAt cs 2) (byteAt cs 4)
  else if 5 < cs.length && decide (cs.length ≤ 5 + charsLength cs) then
    x.payloadByte (byteAt cs (cs.length - 1))
  else x

/-- A first character in HUNT, begun at `start` (R4, R5, R76). A wrong one, or a lead with a bad stop bit,
is a frame error. -/
def Part.firstCharacter (l : LoopId) (start : Nat) (value : Byte) (stopOk : Bool) (p : Part) : Part :=
  if value == Config.lead && stopOk then
    let q := p.modEng l fun e =>
      { e with framer := { e.framer with receiver := .frame [value] }, xu := e.xu.lead start }
    if (p.eng l).xu.missed start then q.attemptFailed l else q
  else p.disturbed l

/-- The next character of the frame `cs` (R4, R5). A length above 96 is a frame error at once. -/
def Part.nextCharacter (l : LoopId) (cs : List Byte) (value : Byte) (stopOk : Bool) (p : Part) : Part :=
  let cs' := cs ++ [value]
  if frameComplete cs then p
  else if !stopOk then p.disturbed l
  else if cs'.length = 5 && decide (96 < value.toNat) then p.disturbed l
  else
    p.modEng l fun e =>
      { e with framer := { e.framer with receiver := .frame cs' }, xu := e.xu.character cs' }

/-- A character taken from the line or from the internal path, by the receiver's state (R4). -/
def Part.takeCharacter (l : LoopId) (start : Nat) (value : Byte) (stopOk : Bool) (p : Part) : Part :=
  match (p.eng l).framer.receiver with
  | .hunt => p.firstCharacter l start value stopOk
  | .frame cs => p.nextCharacter l cs value stopOk
  | .discard | .readback => p

/-- The end of a character's stop bit on the line: it begins or carries on the activity (R2). -/
def Engine.markCharacter (now : Nat) (e : Engine) : Engine :=
  { e with framer := { e.framer with
      markSince := now
      activity := if e.internalReturn then e.framer.activity
                  else some (e.framer.activity.getD (now - e.charTime)) } }

/-- A character can come: from a frame being sent while some of its characters are still to be read back
or, in INTERNAL_RETURN, fed to the receiver; with nothing being sent, on a line that the receiver listens
to (R4, R12, R153). -/
def Engine.hearsCharacter (e : Engine) : Bool :=
  e.framer.running &&
    (match e.framer.sending with
     | some x => decide (x.readBack < x.frame.chars.length)
     | none => !e.internalReturn)

/-- The stop bit of a character ends; the character began one C earlier (R1; log 9). While the part sends
on the line, the character is read back, and a difference is a collision (R12). In INTERNAL_RETURN the
receiver is fed the next character of the frame being sent, whatever RXD shows (R153; log 24). -/
def Part.character (l : LoopId) (value : Byte) (stopOk : Bool) (p : Part) : Part :=
  let e := p.eng l
  let start := p.now - e.charTime
  match e.framer.sending with
  | some x =>
    if e.internalReturn then
      Part.takeCharacter l start (byteAt x.frame.chars x.readBack) true
        (Part.modEng l (Engine.markCharacter p.now) (p.readBack l x))
    else if stopOk && byteAt x.frame.chars x.readBack == value then p.readBack l x
    else p.collision l
  | none =>
    Part.takeCharacter l start value stopOk
      (Part.modEng l (Engine.markCharacter p.now) (p.activityStart l start))

/-! ### The frame end (R3, R11, R78, R80, R153, R154) -/

/-- A valid frame at its frame-end event (R11, R79, R80, R154). -/
def Part.validFrame (l : LoopId) (f : RxFrame) (p : Part) : Part :=
  if (p.eng l).internalReturn then
    if p.internalInFlight l then
      if controlKind f.control = .test then p.testReturned l f.payload else p.testLost l
    else p
  else
    match (p.eng l).xu.state with
    | .receiving => p.judgeReply l f
    | .skipping => p.overlongFinished l true
    | .idle | .sending | .awaiting => p.unsolicited l f

/-- The characters of a frame collected whole and not yet judged (R3). -/
def Receiver.whole : Receiver → Option (List Byte)
  | .frame cs => if frameComplete cs then some cs else none
  | .hunt | .discard | .readback => none

/-- The frame-end event of the frame collected: the receiver is back in HUNT, and the frame is valid or a
frame error (R4, R11). -/
def Part.frameEnd (l : LoopId) (p : Part) : Part :=
  match (p.eng l).framer.receiver.whole with
  | some cs =>
    let q := p.setReceiver l .hunt
    if frameValid cs then q.validFrame l (RxFrame.ofChars cs) else q.frameError l true
  | none => p

/-! ### The end of a frame sent (R2, R12, R13) -/

/-- READBACK is left for HUNT at the end of frame (R4). -/
def Receiver.afterReadback : Receiver → Receiver
  | .readback => .hunt
  | r => r

/-- The frame being sent has had its time on the line (R2). One of INTERNAL_RETURN has then been fed to
the receiver whole (R153). -/
def Engine.sendingDone (e : Engine) (now : Nat) : Bool :=
  match e.framer.sending with
  | some x =>
    decide (x.start + e.frameTime x.frame ≤ now) &&
      (!e.internalReturn || decide (x.frame.chars.length ≤ x.readBack))
  | none => false

/-- What is left of the part's own activity at an end of frame: the line is active until 2 C of mark have
passed, and the jam measure runs from then; a keepalive is no line activity for it, and a frame of the
internal path is none at all (R133, R143, R153; log 18). -/
def Engine.activityAfter (e : Engine) (now : Nat) (purpose : TxPurpose) : Option Nat :=
  if e.internalReturn || purpose == .keepalive then none else some now

/-- The end of frame: nothing is driven any more (R2, R4, R13). -/
def Engine.endSend (now : Nat) (purpose : TxPurpose) (e : Engine) : Engine :=
  { e with framer := { e.framer with
      sending := none, receiver := e.framer.receiver.afterReadback, markSince := now
      activity := e.activityAfter now purpose } }

/-- The reply window opens at the end of frame of a request (R75, R153). -/
def ExchangeUnit.await (now : Nat) (x : ExchangeUnit) : ExchangeUnit :=
  match x.state, x.attempt with
  | .sending, some a => { state := .awaiting, attempt := some { a with endOfFrame := now } }
  | _, _ => x

/-- What an end of frame means for the sender of the frame (R13, R63, R75). -/
def Part.sentFrame (l : LoopId) (purpose : TxPurpose) (p : Part) : Part :=
  match purpose with
  | .beacon => p.beaconEnded l
  | .keepalive => p
  | .request | .test => p.modEng l fun e => { e with xu := e.xu.await p.now }

/-- The last stop bit of the frame being sent. -/
def Part.endOfFrame (l : LoopId) (p : Part) : Part :=
  match (p.eng l).framer.sending with
  | some x => (p.modEng l (Engine.endSend p.now x.frame.purpose)).sentFrame l x.frame.purpose
  | none => p

/-! ### The reply timeout (R76) -/

/-- The reply timeout of the attempt in AWAITING has passed. -/
def ExchangeUnit.timedOut (now : Nat) (x : ExchangeUnit) : Bool :=
  x.state == .awaiting &&
    (match x.attempt with
     | some a => decide (a.endOfFrame + a.timeout ≤ now) && !a.timeoutPassed
     | none => false)

/-- The unit waits for the character under way (R76). -/
def ExchangeUnit.waitCharacter (x : ExchangeUnit) : ExchangeUnit :=
  { x with attempt := x.attempt.map fun a => { a with timeoutPassed := true } }

/-- The reply timeout expires (R76). -/
def Part.replyTimeout (l : LoopId) (underWay : Bool) (p : Part) : Part :=
  if underWay && (p.eng l).framer.receiver == .hunt then
    p.modEng l fun e => { e with xu := e.xu.waitCharacter }
  else p.attemptFailed l

/-! ### The meanings -/

/-- BIAS_OK_LOSS (R133). -/
def execBiasOkLoss (dt : Nat) (l : LoopId) (s : State) : Host.Outcome State Fault Refusal :=
  s.onPart dt (Part.biasLoss l)

/-- BIAS_OK_RESTORE (R133). -/
def execBiasOkRestore (dt : Nat) (l : LoopId) (s : State) : Host.Outcome State Fault Refusal :=
  s.onPart dt (Part.biasRestore l)

/-- ACTIVITY_START (R13). -/
def execActivityStart (dt : Nat) (l : LoopId) (s : State) : Host.Outcome State Fault Refusal :=
  s.onPart dt
    (Part.loopStep l (fun p => (p.eng l).activityCanStart p.now) fun p => p.activityStarts l p.now)

/-- CHARACTER_RECEIVED (R4). -/
def execCharacterReceived (dt : Nat) (l : LoopId) (value : Byte) (stopOk : Bool) (s : State) :
    Host.Outcome State Fault Refusal :=
  s.onPart dt (Part.loopStep l (fun p => (p.eng l).hearsCharacter) (Part.character l value stopOk))

/-- ACTIVITY_END (R2). -/
def execActivityEnd (dt : Nat) (l : LoopId) (s : State) : Host.Outcome State Fault Refusal :=
  s.onPart dt (Part.loopStep l (fun p => (p.eng l).activityCanEnd p.now) (Part.endActivity l))

/-- LINE_IDLE (R2). -/
def execLineIdle (dt : Nat) (l : LoopId) (s : State) : Host.Outcome State Fault Refusal :=
  s.onPart dt (Part.loopStep l (fun p => (p.eng l).atMark 4 p.now) (Part.lineIdle l))

/-- FRAME_END (R11). -/
def execFrameEnd (dt : Nat) (l : LoopId) (s : State) : Host.Outcome State Fault Refusal :=
  s.onPart dt (Part.loopStep l (fun p => (p.eng l).framer.receiver.whole.isSome) (Part.frameEnd l))

/-- COLLISION (R12). -/
def execCollision (dt : Nat) (l : LoopId) (s : State) : Host.Outcome State Fault Refusal :=
  s.onPart dt (Part.loopStep l (fun p => (p.eng l).drivesLine) (Part.collision l))

/-- END_OF_FRAME (R13). -/
def execEndOfFrame (dt : Nat) (l : LoopId) (s : State) : Host.Outcome State Fault Refusal :=
  s.onPart dt (Part.loopStep l (fun p => (p.eng l).sendingDone p.now) (Part.endOfFrame l))

/-- REPLY_TIMEOUT (R76). -/
def execReplyTimeout (dt : Nat) (l : LoopId) (underWay : Bool) (s : State) :
    Host.Outcome State Fault Refusal :=
  s.onPart dt (Part.loopStep l (fun p => (p.eng l).xu.timedOut p.now) (Part.replyTimeout l underWay))

end Sys2Proof.Machine
end

