-- ==== Sys2Proof/Machine/CycleEvents.lean ====
section
/-! DEFINITION. Events of the Cycle Scheduler: grid points, boundaries, the announce window, turns, the
settlements of DRAINING, roll attempts and keepalives (04 R57 to R72; 08 R129, R138; 09 R143). -/

namespace Sys2Proof.Machine

open Sys2Proof

/-! ### The grid (R57, R59, R63) -/

/-- A boundary falls at `g`: it is marked, its lateness is judged unless it is merged with one that still
waits, and the next one falls a cycle length later (R57, R59, R63). In the BEACON phase a beacon not yet
begun is given up. -/
def Engine.markBoundary (g : Nat) (e : Engine) : Engine :=
  let f := if e.cyc.phase = .beacon then e.dropHeld .beacon else e
  { f with cyc := { f.cyc with
      marked := some g
      late := if e.cyc.marked.isSome then e.cyc.late else e.lineTaken
      nextGrid := some (g + groupTime e.cfg.cycleLength) } }

/-- A grid point of a running loop has come. -/
def Engine.gridDue (e : Engine) (now : Nat) : Bool :=
  e.ctl.state == .running &&
    (match e.cyc.nextGrid with
     | some g => decide (g ≤ now)
     | none => false)

/-- The cycle timer marks the grid point. -/
def Part.gridPoint (l : LoopId) (p : Part) : Part :=
  match (p.eng l).cyc.nextGrid with
  | some g => p.modEng l (Engine.markBoundary g)
  | none => p

/-- A boundary is marked and can be taken: no turn, no boundary work and no beacon on the line is under
way, and no roll-call waits (R59, R137). So a boundary that fell before a ROLLCALL was taken, and still waits
behind a turn, is never taken (log 44). -/
def Engine.takesBoundary (e : Engine) : Bool :=
  e.cyc.marked.isSome && e.ctl.state == .running && e.cyc.turn.isNone && !e.ctl.rollRequest &&
    e.cyc.phase != .boundary && !e.isSending .beacon

/-- The Scheduler takes the marked boundary (R59, R60). -/
def Part.boundaryTaken (l : LoopId) (p : Part) : Part :=
  match (p.eng l).cyc.marked with
  | some g => p.takeBoundary l g
  | none => p

/-- The announce window starts: the aperiodic window closes (R71, R72). -/
def Part.announceWindow (l : LoopId) (p : Part) : Part :=
  Part.followWindows l (p.modEng l fun e => { e with cyc := { e.cyc with announceStarted := true } })

/-! ### The settlements of DRAINING (R129) -/

/-- The work of R128 has ended: no turn, no procedure, no part-half write, no attempt and no frame being
sent. -/
def Engine.drained (e : Engine) : Bool :=
  e.ctl.state == .draining && e.cyc.turn.isNone && e.sched.isEmpty && e.urgent.isEmpty &&
    e.xu.state == .idle && e.framer.sending.isNone

/-- The records in hand are settled STOPPED one after another, and the loop enters its drain target. -/
def Part.drainSettlement (l : LoopId) (p : Part) : Part :=
  p.push l [.settleAll .stopped, .enterTarget]

/-! ### Roll-call (R138) -/

/-- A ROLL attempt can be made: the Exchange Unit is IDLE and the roll list is not done. -/
def Engine.canRoll (e : Engine) : Bool :=
  e.ctl.state == .rollcall && e.xu.state == .idle && !e.rollList.isEmpty

/-- The next ROLL attempt asks the station at the head of the roll list. The Framer sends the frame once
the line is idle. -/
def Part.rollAttempt (l : LoopId) (p : Part) : Part :=
  match (p.eng l).rollList with
  | i :: _ => p.sendRequest l .roll i
  | [] => p

/-! ### Keepalives (R143) -/

/-- A keepalive interval in CLK periods (R22). -/
def keepaliveTime (interval : Byte) : Nat := interval.toNat * 1000 * Config.clkPerMs

/-- The keepalive beacon: the held cycle number, QUIET set, ANNOUNCE_OPEN clear (R9, R143). -/
def Engine.keepaliveBeacon (e : Engine) : TxFrame :=
  { purpose := .keepalive, destination := 255, control := controlByte .beacon false false
    payload := beaconPayload e.rep.cycleNumber e.cfg.identity false true }

/-- The keepalive timer has reached the interval. -/
def Engine.keepaliveDue (e : Engine) (now : Nat) : Bool :=
  e.ctl.state == .quiet && e.cfg.keepalive != 0 &&
    decide (e.keepaliveFrom + keepaliveTime e.cfg.keepalive ≤ now)

/-- A keepalive beacon goes to the Framer, and the timer starts again (R143). -/
def Part.keepalive (l : LoopId) (p : Part) : Part :=
  p.modEng l fun e => { e.handFrame p.now e.keepaliveBeacon with keepaliveFrom := p.now }

/-! ### The meanings -/

/-- GRID_POINT (R59). -/
def execGridPoint (dt : Nat) (l : LoopId) (s : State) : Host.Outcome State Fault Refusal :=
  s.onPart dt (Part.loopEvent (fun p => (p.eng l).gridDue p.now) (Part.gridPoint l))

/-- BOUNDARY_TAKEN (R60). -/
def execBoundaryTaken (dt : Nat) (l : LoopId) (s : State) : Host.Outcome State Fault Refusal :=
  s.onPart dt (Part.loopStep l (fun p => (p.eng l).takesBoundary) (Part.boundaryTaken l))

/-- ANNOUNCE_WINDOW_START (R72). -/
def execAnnounceWindowStart (dt : Nat) (l : LoopId) (s : State) : Host.Outcome State Fault Refusal :=
  s.onPart dt (Part.loopEvent (fun p => (p.eng l).announceDue p.now) (Part.announceWindow l))

/-- TURN (R64). -/
def execTurn (dt : Nat) (l : LoopId) (s : State) : Host.Outcome State Fault Refusal :=
  s.onPart dt (Part.loopStep l (fun p => (p.eng l).turnFree) (Part.nextTurn l))

/-- DRAIN_SETTLEMENT (R129). -/
def execDrainSettlement (dt : Nat) (l : LoopId) (s : State) : Host.Outcome State Fault Refusal :=
  s.onPart dt (Part.loopStep l (fun p => (p.eng l).drained) (Part.drainSettlement l))

/-- ROLL_ATTEMPT (R138). -/
def execRollAttempt (dt : Nat) (l : LoopId) (s : State) : Host.Outcome State Fault Refusal :=
  s.onPart dt (Part.loopEvent (fun p => (p.eng l).canRoll) (Part.rollAttempt l))

/-- KEEPALIVE_TIMER (R143). -/
def execKeepaliveTimer (dt : Nat) (l : LoopId) (s : State) : Host.Outcome State Fault Refusal :=
  s.onPart dt (Part.loopEvent (fun p => (p.eng l).keepaliveDue p.now) (Part.keepalive l))

end Sys2Proof.Machine
end

