-- ==== Sys2Proof/Machine/Supervision.lean ====
section
/-! DEFINITION. Events of the Line Monitor: the four criteria, the down hold, recovery and jam release
(08 R132, R133, R136). -/

namespace Sys2Proof.Machine

open Sys2Proof

/-- A measure that began at `since`, if it runs, has reached a duration. -/
def measured (since : Option Nat) (duration now : Nat) : Bool :=
  match since with
  | some t => decide (t + duration ≤ now)
  | none => false

/-- The CARRIER criterion is met (R133). -/
def Engine.carrierMet (e : Engine) (now : Nat) : Bool :=
  e.ctl.state.judgesCarrier && e.cfg.carrierEnable && measured e.mon.carrierSince Config.carrierLimit now

/-- A jam time or jam release time in CLK periods (R22). -/
def tensOfMs (n : Nat) : Nat := n * 10 * Config.clkPerMs

/-- The activity that lasts began before the entry to QUIET (R144), or at its instant (log 45). -/
def Engine.activityOlder (e : Engine) : Bool :=
  match e.framer.activity with
  | some t => decide (t ≤ e.quietFrom)
  | none => false

/-- The JAM criterion is met: the jam time is not 0, and the part is not transmitting (R133). In QUIET with
wake-on-energy set, given here as `energy`, it acts on no activity but one that began before the entry (R144). -/
def Engine.jamMet (energy : Bool) (e : Engine) (now : Nat) : Bool :=
  e.ctl.state.judgesJam && e.cfg.jamTime != 0 && e.framer.sending.isNone &&
    (e.ctl.state != .quiet || !energy || e.activityOlder) &&
    measured e.framer.activity (tensOfMs e.cfg.jamTime.toNat) now

/-- The ERRORS criterion has been met in a state in which it is judged (R132; log 12). -/
def Engine.errorsDue (e : Engine) : Bool := e.mon.errorsMet && e.ctl.state.countsErrors

/-- The SILENCE criterion has been met at a boundary report (R132). -/
def Engine.silenceDue (e : Engine) : Bool := e.mon.silenceMet && e.ctl.state == .running

/-- The down hold has passed since the entry to DOWN (R136). -/
def Engine.holdOver (e : Engine) (now : Nat) : Bool :=
  e.ctl.state == .down && !e.mon.holdPassed &&
    measured e.mon.downSince (atLeastOne e.cfg.downHold * 100 * Config.clkPerMs) now

/-- The end of the down hold starts the presence measure if BIAS_OK is present (R136). -/
def Part.holdExpiry (l : LoopId) (p : Part) : Part :=
  p.modEng l fun e =>
    { e with mon := { e.mon with holdPassed := true,
                                 presenceSince := if e.mon.biasOk then some p.now else none } }

/-- BIAS_OK has been present for 100 ms after the hold, and the entry's own writes are done (R136;
log 22). -/
def Engine.recovers (e : Engine) (now : Nat) : Bool :=
  e.ctl.state == .down && e.mon.holdPassed && e.sched.isEmpty &&
    measured e.mon.presenceSince Config.presenceLimit now

/-- The line has rested at mark for the jam release time, and the entry's own writes are done (R136;
log 22). JAM is met only while activity lasts (R133), so the measure runs from the end of the last stop bit on
the line, also of one before the entry, and each start bit begins it again. -/
def Engine.released (e : Engine) (now : Nat) : Bool :=
  e.ctl.state == .jammed && e.framer.activity.isNone && e.sched.isEmpty &&
    measured (some e.framer.markSince) (tensOfMs (atLeastOne e.cfg.jamRelease)) now

/-! ### The meanings -/

/-- CARRIER_CRITERION (R133). -/
def execCarrierCriterion (dt : Nat) (l : LoopId) (s : State) : Host.Outcome State Fault Refusal :=
  s.onPart dt (Part.loopStep l (fun p => (p.eng l).carrierMet p.now) (Part.enterDown l .carrier))

/-- JAM_CRITERION (R133). -/
def execJamCriterion (dt : Nat) (l : LoopId) (s : State) : Host.Outcome State Fault Refusal :=
  s.onPart dt
    (Part.loopStep l (fun p => (p.eng l).jamMet p.screening.wakeConfig.wakeOnEnergy p.now) (Part.enterDown l .jam))

/-- ERRORS_CRITERION (R132). -/
def execErrorsCriterion (dt : Nat) (l : LoopId) (s : State) : Host.Outcome State Fault Refusal :=
  s.onPart dt (Part.loopStep l (fun p => (p.eng l).errorsDue) (Part.enterDown l .errors))

/-- SILENCE_CRITERION (R132). -/
def execSilenceCriterion (dt : Nat) (l : LoopId) (s : State) : Host.Outcome State Fault Refusal :=
  s.onPart dt (Part.loopStep l (fun p => (p.eng l).silenceDue) (Part.enterDown l .silence))

/-- DOWN_HOLD_EXPIRY (R136). -/
def execDownHoldExpiry (dt : Nat) (l : LoopId) (s : State) : Host.Outcome State Fault Refusal :=
  s.onPart dt (Part.loopEvent (fun p => (p.eng l).holdOver p.now) (Part.holdExpiry l))

/-- DOWN_RECOVERY (R136). -/
def execDownRecovery (dt : Nat) (l : LoopId) (s : State) : Host.Outcome State Fault Refusal :=
  s.onPart dt (Part.loopStep l (fun p => (p.eng l).recovers p.now) (Part.recover l))

/-- JAM_RELEASE (R136). -/
def execJamRelease (dt : Nat) (l : LoopId) (s : State) : Host.Outcome State Fault Refusal :=
  s.onPart dt (Part.loopStep l (fun p => (p.eng l).released p.now) (Part.recover l))

end Sys2Proof.Machine
end

