-- ==== Sys2Proof/Machine/MemoryEvents.lean ====
section
/-! DEFINITION. The end of a memory transfer: completed, or with a bus error (11 R164, R165). -/

namespace Sys2Proof.Machine

open Sys2Proof

/-- Memory after a transfer that has completed (R164). -/
def BusAction.apply (m : Memory) : BusAction → Memory
  | .read _ _ => m
  | .write a data => Memory.writeBytes m a data

/-- The data a completed transfer brings its requester (R164). -/
def BusAction.data (m : Memory) : BusAction → List Byte
  | .read a n => Memory.readBytes m a n
  | .write _ _ => []

/-- Memory after a transfer that failed: some, all or none of a write's bytes (R165). -/
def BusAction.applyFailed (m : Memory) (landed : BitVec 128) : BusAction → Memory
  | .read _ _ => m
  | .write a data => Memory.writeLanded m a landed data

/-- The port is free again. -/
def Part.freePort (p : Part) : Part := { p with port := { p.port with inFlight := none } }

/-- The loop a requester belongs to (R164). -/
def Requester.loop : Requester → LoopId
  | .sched l => l
  | .catcher l => l

/-- A DONE write that a soft reset found in progress has completed: the context changes, and nothing more follows
(R35, R166). Every other result goes nowhere. -/
def Part.doneCut (t : Transfer) (p : Part) : Part :=
  match t.orphan || t.urgent, t.requester with
  | false, .sched l =>
    match (p.eng l).sched with
    | .writeDone i k flip after :: _ => (p.popSched l).modCtx i (Context.complete k flip after)
    | _ => p
  | _, _ => p

/-- The transfer in progress has completed. During a soft reset only a DONE write still changes its context (R35,
R166). -/
def Part.completeTransfer (t : Transfer) (data : List Byte) (p : Part) : Part :=
  if p.live then Part.transferDone t data p.freePort
  else if p.resetHeld then p.freePort
  else Part.doneCut t p.freePort

/-- A requester has no request waiting: what it was to do is given up (R164). -/
def Part.withdraw (r : Requester) (p : Part) : Part :=
  match r with
  | .sched l => p.modEng l fun e => { e with sched := [], urgent := [] }
  | .catcher l => p.modEng l fun e => { e with catcher := { e.catcher with walk := none } }

/-- The transfer in progress has failed: its loop enters FAULT, before the next grant or after it
(R140, R165). The requester whose transfer failed presents no further one, so a grant that is taken first
can go to the loop's other requester or to the other loop alone. During a soft reset the error is
discarded. -/
def Part.failTransfer (t : Transfer) (grantFirst : Bool) (p : Part) : Part :=
  if p.live then
    Part.enterFault t.requester.loop
      (if grantFirst then (p.freePort.withdraw t.requester).arbitrate else p.freePort)
  else p.freePort

/-! ### The meanings -/

/-- TRANSFER_COMPLETE (R164). With no transfer in progress only the host's own writes are made. -/
def execTransferComplete (dt : Nat) (hostWrites : List (Word × Byte)) (s : State) :
    Host.Outcome State Fault Refusal :=
  let m := Memory.hostWrites s.mem hostWrites
  match s.part.port.inFlight with
  | some t => State.onPart { s with mem := t.action.apply m } dt (Part.completeTransfer t (t.action.data m))
  | none => State.onPart { s with mem := m } dt fun p => p

/-- BUS_ERROR (R165). -/
def execBusError (dt : Nat) (hostWrites : List (Word × Byte)) (landed : BitVec 128) (grantFirst : Bool)
    (s : State) : Host.Outcome State Fault Refusal :=
  let m := Memory.hostWrites s.mem hostWrites
  match s.part.port.inFlight with
  | some t => State.onPart { s with mem := t.action.applyFailed m landed } dt (Part.failTransfer t grantFirst)
  | none => State.onPart { s with mem := m } dt fun p => p

end Sys2Proof.Machine
end

