-- ==== Sys2Proof/Machine/Dispatch.lean ====
section
/-! DEFINITION. The meaning of every command: one arm per constructor of Instr. -/

namespace Sys2Proof.Machine

open Sys2Proof

/-- The effect of a command on everything but the queue. -/
def exec (i : Instr) (s : State) : Host.Outcome State Fault Refusal :=
  match i with
  | .start dt l via => Sys2Proof.Machine.execStart dt l via s
  | .stop dt l via => Sys2Proof.Machine.execStop dt l via s
  | .quiet dt l via => Sys2Proof.Machine.execQuiet dt l via s
  | .wake dt l via => Sys2Proof.Machine.execWake dt l via s
  | .rollcall dt l via => Sys2Proof.Machine.execRollcall dt l via s
  | .retime dt l via => Sys2Proof.Machine.execRetime dt l via s
  | .lineTest dt l via => Sys2Proof.Machine.execLineTest dt l via s
  | .undefinedCommand dt l code via => Sys2Proof.Machine.execUndefinedCommand dt l code via s
  | .softReset dt fields => Sys2Proof.Machine.execSoftReset dt fields s
  | .softResetComplete dt => Sys2Proof.Machine.execSoftResetComplete dt s
  | .areaWrite dt value => Sys2Proof.Machine.execAreaWrite dt value s
  | .causeWrite dt value => Sys2Proof.Machine.execCauseWrite dt value s
  | .maskWrite dt value => Sys2Proof.Machine.execMaskWrite dt value s
  | .windowPointerWrite dt value => Sys2Proof.Machine.execWindowPointerWrite dt value s
  | .windowDataRead dt => Sys2Proof.Machine.execWindowDataRead dt s
  | .windowDataWrite dt value => Sys2Proof.Machine.execWindowDataWrite dt value s
  | .registerWriteOther dt offset value => Sys2Proof.Machine.execRegisterWriteOther dt offset value s
  | .resetNAssert dt landed => Sys2Proof.Machine.execResetNAssert dt landed s
  | .resetNRelease dt => Sys2Proof.Machine.execResetNRelease dt s
  | .biasOkLoss dt l => Sys2Proof.Machine.execBiasOkLoss dt l s
  | .biasOkRestore dt l => Sys2Proof.Machine.execBiasOkRestore dt l s
  | .activityStart dt l => Sys2Proof.Machine.execActivityStart dt l s
  | .characterReceived dt l value stopOk => Sys2Proof.Machine.execCharacterReceived dt l value stopOk s
  | .activityEnd dt l => Sys2Proof.Machine.execActivityEnd dt l s
  | .lineIdle dt l => Sys2Proof.Machine.execLineIdle dt l s
  | .frameEnd dt l => Sys2Proof.Machine.execFrameEnd dt l s
  | .collision dt l => Sys2Proof.Machine.execCollision dt l s
  | .endOfFrame dt l => Sys2Proof.Machine.execEndOfFrame dt l s
  | .replyTimeout dt l underWay => Sys2Proof.Machine.execReplyTimeout dt l underWay s
  | .gridPoint dt l => Sys2Proof.Machine.execGridPoint dt l s
  | .boundaryTaken dt l => Sys2Proof.Machine.execBoundaryTaken dt l s
  | .announceWindowStart dt l => Sys2Proof.Machine.execAnnounceWindowStart dt l s
  | .turn dt l => Sys2Proof.Machine.execTurn dt l s
  | .drainSettlement dt l => Sys2Proof.Machine.execDrainSettlement dt l s
  | .rollAttempt dt l => Sys2Proof.Machine.execRollAttempt dt l s
  | .keepaliveTimer dt l => Sys2Proof.Machine.execKeepaliveTimer dt l s
  | .carrierCriterion dt l => Sys2Proof.Machine.execCarrierCriterion dt l s
  | .jamCriterion dt l => Sys2Proof.Machine.execJamCriterion dt l s
  | .errorsCriterion dt l => Sys2Proof.Machine.execErrorsCriterion dt l s
  | .silenceCriterion dt l => Sys2Proof.Machine.execSilenceCriterion dt l s
  | .downHoldExpiry dt l => Sys2Proof.Machine.execDownHoldExpiry dt l s
  | .downRecovery dt l => Sys2Proof.Machine.execDownRecovery dt l s
  | .jamRelease dt l => Sys2Proof.Machine.execJamRelease dt l s
  | .transferComplete dt hostWrites => Sys2Proof.Machine.execTransferComplete dt hostWrites s
  | .busError dt hostWrites landed grantFirst => Sys2Proof.Machine.execBusError dt hostWrites landed grantFirst s

end Sys2Proof.Machine
end

