-- ==== Sys2Proof/Machine/Step.lean ====
section
/-! DEFINITION. A step takes the command at the front of the queue. -/

namespace Sys2Proof.Machine

open Sys2Proof

/-- The command at the front of the queue is taken off and carried out; with an empty queue the block
idles (log 4). -/
def step (s : State) : Host.Outcome State Fault Refusal :=
  match s.pending with
  | [] => .next s
  | c :: rest => exec c { s with pending := rest }

/-- The command that a word spells goes to the front of the queue; no word spells one. -/
def State.withFetchWord (s : State) (nbits w : Nat) : State :=
  match decodeTableWord nbits w with
  | some c => { s with pending := c :: s.pending }
  | none => s

end Sys2Proof.Machine
end

