-- ==== Sys2Proof/Safety.lean ====
section
/-! DEFINITION. The properties of states that the statements speak of: the invariants, and the names of
what a statement says is kept. -/

namespace Sys2Proof.Machine

open Sys2Proof

/-! ### The catch path (R119 to R123) -/

/-- The accepted count equals fills plus drops plus one for an occupied buffer (R123). The counters
saturate, so the equation is claimed up to the accepted count's largest value. -/
abbrev CatchUnit.conserves (c : CatchUnit) : Prop :=
  c.accepted = BitVec.allOnes 32 ∨
    c.accepted.toNat = c.fills.toNat + c.drops.toNat + (if c.buffer.isSome then 1 else 0)

/-- A walk is made for a held frame alone (R119). -/
abbrev CatchUnit.walksForFrame (c : CatchUnit) : Prop := c.walk.isSome = true → c.buffer.isSome = true

/-! ### What a loop does in each state (R124, R135, R140) -/

/-- The states in which the Framer is stopped (R124). -/
def LoopState.framerStopped : LoopState → Bool
  | .off | .fault => true
  | .starting | .rollcall | .running | .draining | .quiet | .down | .jammed | .test => false

/-- The states in which the part sends nothing and makes no attempt (R124, R135). -/
def LoopState.sendsNothing : LoopState → Bool
  | .off | .down | .jammed | .fault => true
  | .starting | .rollcall | .running | .draining | .quiet | .test => false

/-- An Exchange Unit with no attempt (R74). -/
def ExchangeUnit.idle : ExchangeUnit := { state := .idle, attempt := none }

/-- In OFF and FAULT the Framer is stopped; there and in DOWN and JAMMED nothing is being sent or waits to
be sent, and the Exchange Unit is IDLE (R124, R135). -/
abbrev Engine.restsInState (e : Engine) : Prop :=
  (e.ctl.state.framerStopped = true → e.framer.running = false) ∧
    (e.ctl.state.sendsNothing = true →
      e.framer.sending = none ∧ e.framer.held = none ∧ e.xu = ExchangeUnit.idle)

/-- The invariants of one engine. -/
abbrev Engine.sound (e : Engine) : Prop :=
  e.catcher.conserves ∧ e.catcher.walksForFrame ∧ e.restsInState

/-! ### Shared stores -/

/-- No two entries of the Relay Table in use name one coupler (R98, R99). -/
abbrev Part.couplersDistinct (p : Part) : Prop :=
  ∀ a b : Fin 8, a ≠ b → ∀ r ∈ p.relays[a], ∀ q ∈ p.relays[b], r.coupler ≠ q.coupler

/-- The part keeps the copy of a record exactly while it is in hand (R34). -/
abbrev Context.copyHeld (c : Context) : Prop := c.inHand.isSome = c.copy.isSome

/-- Every context keeps its record copy so. -/
abbrev Part.copiesHeld (p : Part) : Prop := ∀ i : StationIx, (p.ctx i).copyHeld

/-- A loop in TEST holds the Test Pattern Unit (R150). -/
abbrev Part.testOwned (p : Part) : Prop :=
  ∀ l : LoopId, (p.eng l).ctl.state = .test → p.testUnit.owner = some l

/-! ### The Relay Table and the work of the loops (R98, R100)

What keeps an entry at the record in hand of its relayed station is the order of the loops' work: which operations
may wait in a procedure together, in which loop state, and beside which attempt. -/

/-- No two entries of the Relay Table in use are for one relayed station (R98). -/
abbrev Part.relayStationsDistinct (p : Part) : Prop :=
  ∀ a b : Fin 8, a ≠ b → ∀ r ∈ p.relays[a], ∀ q ∈ p.relays[b], r.station ≠ q.station

/-- Every entry in use names the record in hand of its relayed station, a station of the loop that claimed the entry
and bound to its coupler (R98, R99). -/
abbrev Part.entriesHeld (p : Part) : Prop :=
  ∀ a : Fin 8, ∀ r ∈ p.relays[a],
    (p.ctx r.station).inHand = some r.record ∧ (p.ctx r.station).owner = some r.loop ∧
      couplerIndex (p.ctx r.station).binding.coupler = some r.coupler

/-- No relay entry is for station `i`. -/
abbrev Part.entryless (p : Part) (i : StationIx) : Prop := ∀ a : Fin 8, ∀ r ∈ p.relays[a], r.station ≠ i

/-- The station that an operation needs to belong to the loop still when its time comes. -/
def SchedOp.station : SchedOp → Option StationIx
  | .readLink i | .readRecord i _ | .writeActive i _ _ | .takeCheck i | .fitTest i | .followOn i
  | .settle i _ | .writeDone i _ _ _ | .disown i => some i
  | _ => none

/-- The operations that stand in a procedure only while no entry is for their station: those of a fetch up to the
check of the record taken (R33, R34), and the end of a record and the return to owner none, which come after the
release (R100). -/
def SchedOp.afterRelease : SchedOp → Bool
  | .readLink _ | .readRecord _ _ | .writeActive _ _ _ | .takeCheck _ | .writeDone _ _ _ _ | .disown _ => true
  | _ => false

/-- The operations of a turn (R64). -/
def SchedOp.ofTurn : SchedOp → Bool
  | .readLink _ | .readRecord _ _ | .writeActive _ _ _ | .takeCheck _ | .fitTest _ | .followOn _ | .endTurn => true
  | _ => false

/-- The judgements of a roster scan, and what a disable leaves to do (R42, R52). -/
def SchedOp.ofScan : SchedOp → Bool
  | .judge _ | .disown _ => true
  | _ => false

/-- The operations of an entry to TEST (R151). -/
def SchedOp.ofTestEntry : SchedOp → Bool
  | .testValidate | .testFirst | .testAbort => true
  | _ => false

/-- The operations after which the loop is in another state, or may be. -/
def SchedOp.changesState : SchedOp → Bool
  | .startValidate | .startAbort | .startNext | .rollEnd | .enterTarget | .enterOff => true
  | op => op.ofTestEntry

/-- The operations that do not stand in a procedure beside an attempt on a station. -/
def SchedOp.excludesAttempt (op : SchedOp) : Bool :=
  op.changesState || op.ofTurn || op.ofScan || op == .startResets

/-- The operations that stand directly behind the end of a step, so that what gives up the later steps gives them
up (R126, R128, R134). -/
def SchedOp.beginsStep : SchedOp → Bool
  | .startResets | .startNext | .enterTarget => true
  | _ => false

/-- The part-half write that goes ahead of a procedure, and the causes that come after it (R120, R128). -/
def SchedOp.ofReport : SchedOp → Bool
  | .writeLoopHalf | .raise _ | .raiseCatch => true
  | _ => false

/-- The loop states in which an operation may stand in the procedure. -/
def LoopControl.mayHold (c : LoopControl) (op : SchedOp) : Bool :=
  let validated := c.state == .starting && c.validated
  let down := c.state == .down || c.state == .jammed
  let atWork := c.state == .running || c.state == .draining || down
  match op with
  | .startValidate | .startAbort => c.state == .starting && !c.validated
  | .startResets | .startNext => validated
  | .judge _ | .disown _ => validated || atWork
  | .rollEnd => c.state == .rollcall
  | .enterTarget => c.state == .draining
  | .enterOff => down
  | .testValidate => c.state == .test && !c.validated
  | .testFirst => c.state == .test && c.validated
  | .testAbort => c.state == .test
  | op => !op.ofTurn || atWork

/-- Operation `y` may stand somewhere behind `x` in a procedure. -/
def SchedOp.mayPrecede (x y : SchedOp) : Bool :=
  if x.changesState then y.station.isNone && !y.excludesAttempt
  else if x.ofTurn then y.station.isNone && y != .endTurn
  else match x with
    | .judge _ | .startResets => y.station.isNone
    | .disown i => y.station != some i
    | _ => true

/-- The procedure of an engine is in order: every operation in a loop state that may hold it, none behind one that
it may not follow, and those that begin a step behind the end of another. Ahead of it go part-half writes and their
causes alone. -/
abbrev Engine.workOrdered (e : Engine) : Prop :=
  (∀ op ∈ e.sched, e.ctl.mayHold op = true) ∧
  e.sched.Pairwise (fun x y => x.mayPrecede y = true) ∧
  (∀ op ∈ e.sched.head?, op.beginsStep = false) ∧
  e.sched.IsChain (fun x y => y.beginsStep = true → x = .mark) ∧
  ∀ op ∈ e.urgent, op.ofReport = true

/-- The operations of the procedure work for stations of the loop, and those that come after a release for stations
that no entry is for. -/
abbrev Part.workOwned (p : Part) (l : LoopId) : Prop :=
  ∀ op ∈ (p.eng l).sched, ∀ i ∈ op.station,
    (p.ctx i).owner = some l ∧ (op.afterRelease = true → p.entryless i)

/-- In RUNNING the operations of a turn stand within a turn, with no scan under way. The roll list holds stations of
the loop, and has come to its end where the roll-call's end is due. Until the first test frame no frame of the test is
in flight. -/
abbrev Part.workPlaced (p : Part) (l : LoopId) : Prop :=
  let e := p.eng l
  (e.ctl.state = .running → (∃ op ∈ e.sched, op.ofTurn = true) →
    e.cyc.turn.isSome = true ∧ ∀ op ∈ e.sched, op.ofScan = false) ∧
  (e.ctl.state = .rollcall → ∀ i ∈ e.rollList, (p.ctx i).owner = some l) ∧
  (.rollEnd ∈ e.sched → e.rollList = []) ∧
  ((∃ op ∈ e.sched, op.ofTestEntry = true) →
    e.xu.attempt = none ∧ (e.ctl.validated = true → p.testUnit.copy = []))

/-- An Exchange Unit that is IDLE has no attempt (R74). The attempt of a test frame is one of TEST; any other is for a
station of the loop, in a turn of RUNNING, in ROLLCALL for a ROLL, or left over in DRAINING, and nothing that excludes
it waits in the procedure. -/
abbrev Part.attemptPlaced (p : Part) (l : LoopId) : Prop :=
  let e := p.eng l
  (e.xu.state = .idle → e.xu.attempt = none) ∧
  ∀ a ∈ e.xu.attempt,
    (a.kind = .test → e.ctl.state = .test) ∧
    (a.kind ≠ .test →
      (∀ i ∈ a.station, (p.ctx i).owner = some l) ∧ (∀ op ∈ e.sched, op.excludesAttempt = false) ∧
      (e.ctl.state = .draining ∨ (a.kind = .roll ∧ e.ctl.state = .rollcall) ∨
        (a.kind ≠ .roll ∧ e.ctl.state = .running ∧ e.cyc.turn.isSome = true)))

/-- The Relay Table agrees with the station contexts, and the work of both loops is in such an order that every step
keeps it so. A REJECTED station has no record in hand. -/
abbrev Part.relaysOrdered (p : Part) : Prop :=
  p.entriesHeld ∧ (∀ i : StationIx, (p.ctx i).state = .rejected → (p.ctx i).inHand = none) ∧
  ∀ l : LoopId, (p.eng l).workOrdered ∧ p.workOwned l ∧ p.workPlaced l ∧ p.attemptPlaced l

/-! ### The whole part -/

/-- While the part is held in reset or RESETTING, no loop sends anything or makes an attempt (R166, R168). -/
abbrev Part.resetsSilent (p : Part) : Prop :=
  p.live = false → ∀ l : LoopId,
    (p.eng l).framer.sending = none ∧ (p.eng l).framer.held = none ∧ (p.eng l).xu = ExchangeUnit.idle

/-- The procedure of a loop stands between two steps: at a transfer, at the end of a keepalive that it
waits for, or at its end with no roll-call due. Between commands every procedure of a running part stands
so. -/
def Part.settled (p : Part) (l : LoopId) : Bool := p.paused l && !(p.eng l).rollcallDue

/-- The procedure of a loop is at its end, or at a transfer. -/
def Part.atTransfer (p : Part) (l : LoopId) : Bool :=
  match (p.eng l).sched with
  | [] => true
  | op :: _ => (p.schedAction l op).isSome

/-- Every procedure stands so while the part runs. -/
abbrev Part.standing (p : Part) : Prop := p.live = true → ∀ l : LoopId, p.settled l = true

/-- A CONTROL write is taken when it comes: the part runs, and both slots of the latch are empty (R159). -/
def Part.takesWrite (p : Part) : Bool := p.live && p.latchFree

/-- What an entry to OFF makes of a held catch frame (R122): a FILLED write in progress still makes its fill.
Otherwise the walk ends, its transfer in progress, if there is one, is left without a result, the frame is discarded
and the count of drops rises by one, up to its largest value. -/
def Part.catchDropped (l : LoopId) (p : Part) : Part :=
  let filling : Bool := match (p.eng l).catcher.walk, p.port.inFlight with
    | some (.writeFilled _), some t => t.requester = .catcher l ∧ t.orphan = false
    | _, _ => false
  if (p.eng l).catcher.buffer = none ∨ filling = true then p
  else
    Part.modEng l
      (fun e =>
        { e with catcher := { e.catcher with
            buffer := none, walk := none
            drops := if e.catcher.drops = 0xFFFFFFFF then 0xFFFFFFFF else e.catcher.drops + 1 } })
      { p with port := { p.port with
          inFlight := p.port.inFlight.map fun t =>
            if t.requester = Requester.catcher l then { t with orphan := true } else t } }

/-- What R130 makes of a loop at an entry to OFF, its held catch frame dealt with before and the Test Pattern Unit
freed if the loop holds it (R150): `follow` is what is written and raised after the entry. -/
def Part.offState (l : LoopId) (follow : List SchedOp) (p : Part) : Part :=
  Part.modEng l
    (fun e =>
      { e with
        ctl := { e.ctl with state := .off, drainTarget := none, returnTarget := none, rollRequest := false,
                            retimePending := false, validated := false }
        cyc := { e.cyc.stop with turn := none }
        xu := ExchangeUnit.idle
        framer := { running := false, receiver := .discard, held := none, sending := none, activity := none,
                    markSince := 0 }
        mon := { e.mon with carrierSince := none, errorsMet := false, silenceMet := false,
                            downSince := none, holdPassed := false, presenceSince := none }
        rollList := [], rollSecond := false
        sched := e.sched ++ follow })
    { p.catchDropped l with
      testUnit := if p.testUnit.owner = some l then { p.testUnit with owner := none } else p.testUnit }

/-- What the end of turn `t` makes of the cycle (R64 step 6, R69 to R72). After a turn of the aperiodic window the
pointer moves on, or it stays where a failed fit test has closed the window. Then, in RUNNING, a periodic window
with no station left to serve, or one that the announce window bars (log 13), gives way to the aperiodic one, and
that one closes when the announce window has started or every candidate has been visited. -/
def Part.turnOver (l : LoopId) (t : Turn) (p : Part) : Part :=
  p.modEng l fun e =>
    let announceStart :=
      e.cyc.boundaryAt + e.cfg.cycleLength.toNat * 2500 - e.cfg.announceWindow.toNat * 2500
    let c : CycleScheduler :=
      if t.periodic then { e.cyc with turn := none }
      else if t.closing then { e.cyc with turn := none, pointer := t.station, phase := .closed }
      else { e.cyc with turn := none, pointer := t.station + 1
                        visited := if t.attempted then e.cyc.visited else t.station :: e.cyc.visited }
    let passed := c.phase = .periodic ∧
      ((c.announceStarted = true ∧ c.beaconEnd < announceStart) ∨
        ∀ i ∈ c.dueSet, ¬ ((p.ctx i).owner = some l ∧
          ((p.ctx i).state = .ready ∨ (p.ctx i).state = .active)))
    let visited := if passed then [] else c.visited
    let over_ := c.announceStarted = true ∨
      ∀ i : StationIx, (p.ctx i).owner = some l ∧ ((p.ctx i).state = .ready ∨ (p.ctx i).state = .active) ∧
        (p.ctx i).binding.cls = .aperiodic → i ∈ visited
    { e with cyc :=
      if e.ctl.state = .running then
        { c with visited := visited
                 phase := if passed ∨ c.phase = .aperiodic then (if over_ then .closed else .aperiodic)
                          else c.phase }
      else c }

/-- A frame given to the Framer: it goes out at once on an idle line, and is held until the line is idle if
not (R2). -/
def Engine.transmits (now : Nat) (f : TxFrame) (e : Engine) : Engine :=
  { e with framer :=
      if e.framer.sending = none ∧ e.framer.activity = none ∧ e.framer.markSince + 4 * e.charTime ≤ now then
        { e.framer with held := none, receiver := .readback
                        sending := some { frame := f, start := now, readBack := 0 } }
      else { e.framer with held := some f } }

/-- What R153 and R156 make of a test once a frame has been counted in `u`: at the frame count it is COMPLETE
and the loop enters OFF; before it, the next frame is drawn, counted and given to the Framer. In INTERNAL_RETURN
the receiver is not turned to READBACK: it leaves DISCARD with the frame and is fed. -/
def Part.testGoesOn (l : LoopId) (u : TestUnit) (p : Part) : Part :=
  let e := p.eng l
  let drawn := lfsrBytes e.cfg.testLength.toNat u.generator
  let frame : TxFrame :=
    { purpose := .test, destination := if e.cfg.testMode = 1 then e.cfg.echoAddress else 0
      control := 8, payload := drawn.2 }
  if e.cfg.testCount ≠ 0 ∧ u.sent = e.cfg.testCount then
    Part.offState l [.writeLoopHalf, .raise .testdone]
      { p with testUnit := { u with copy := [], status := .complete } }
  else
    Part.modEng l
      (fun e =>
        if e.cfg.testMode = 1 then
          Engine.transmits p.now frame
            { e with xu :=
              { state := .sending
                attempt := some
                  { kind := .test, station := none, seq := false, timeout := 255 * 2500
                    allowance := e.cfg.testLength, source := e.cfg.echoAddress, latency := none
                    buffer := [], endOfFrame := 0, timeoutPassed := false, skipBroken := false } } }
        else
          let x := Engine.transmits p.now frame { e with xu := ExchangeUnit.idle }
          { x with framer := { x.framer with
              receiver := if x.framer.held = none ∧ e.framer.receiver = .discard then .hunt
                          else e.framer.receiver } })
      { p with testUnit := { u with
          generator := drawn.1, copy := drawn.2
          sent := if u.sent = 65535 then 65535 else u.sent + 1 } }

/-- The roll list (R137): the direct admitted stations of the loop that are READY, ACTIVE, SILENT or ABSENT. -/
def Part.rollCandidates (p : Part) (l : LoopId) : List StationIx :=
  allStations.filter fun i =>
    (p.ctx i).owner = some l ∧ (p.ctx i).binding.coupler = 0xFF ∧
      ((p.ctx i).state = .ready ∨ (p.ctx i).state = .active ∨ (p.ctx i).state = .silent ∨
        (p.ctx i).state = .absent)

/-- What R137 makes of a loop at an entry to ROLLCALL; with an empty roll list it goes on to a new grid of RUNNING
and ROLLDONE (R139). `follow` are the causes that come after the write of the part half. -/
def Part.rollcallState (l : LoopId) (follow : List SchedOp) (p : Part) : Part :=
  p.modEng l fun e =>
    let entered : Engine :=
      { e.dropHeld .beacon with
        ctl := { e.ctl with state := .rollcall, drainTarget := none, returnTarget := none
                            rollRequest := false }
        cyc := { e.cyc.stop with turn := none }
        rep := { e.rep with rollPresent := 0, rollAbsent := 0 }
        rollList := p.rollCandidates l, rollSecond := false }
    if p.rollCandidates l = [] then
      { entered with
        ctl := { entered.ctl with state := .running }
        cyc := { entered.cyc with
          nextGrid := some (p.now + e.cfg.cycleLength.toNat * 2500), marked := some p.now
          late := e.framer.receiver.receiving, firstOfGrid := true }
        sched := e.sched ++ .writeLoopHalf :: follow ++ [.raise .rolldone] }
    else { entered with sched := e.sched ++ .writeLoopHalf :: follow }

/-- Once the Scheduler's work under way has ended, a ROLLCALL that has been waiting for it in RUNNING is entered
(R137): no turn, no procedure, no boundary work and no beacon on the line is under way. -/
def Part.workOver (l : LoopId) (p : Part) : Part :=
  let e := p.eng l
  if e.ctl.state = .running ∧ e.ctl.rollRequest = true ∧ e.cyc.turn = none ∧ e.sched = [] ∧
      e.cyc.phase ≠ .boundary ∧ ¬ (e.framer.sending.map fun x => x.frame.purpose) = some .beacon then
    p.rollcallState l []
  else p

/-- The loop serves station `j` in its turns (R66, R70). -/
abbrev Part.serves (p : Part) (l : LoopId) (j : StationIx) : Prop :=
  (p.ctx j).owner = some l ∧ ((p.ctx j).state = .ready ∨ (p.ctx j).state = .active)

/-- The next turn of the loop is that of station `i` (R64, R66, R70), `rest` being due after it. In the periodic
window it is the first of the due set that the loop still serves; those before it are skipped; the announce window has
not started, or the beacon ended after its start (log 13). The aperiodic window is open, or follows on a periodic one
with no due station left that the loop serves; there it is the first candidate at or above the pointer, or else the
first of all. -/
abbrev Part.picks (p : Part) (l : LoopId) (i : StationIx) (periodic : Bool) (rest : List StationIx) : Prop :=
  let e := p.eng l
  let announceStart :=
    e.cyc.boundaryAt + e.cfg.cycleLength.toNat * 2500 - e.cfg.announceWindow.toNat * 2500
  let candidate := fun j : StationIx => p.serves l j ∧ (p.ctx j).binding.cls = .aperiodic
  p.live = true ∧ e.ctl.state = .running ∧ e.cyc.marked = none ∧ e.ctl.rollRequest = false ∧
  e.cyc.turn = none ∧ e.sched = [] ∧ e.xu.state = .idle ∧
  (periodic = true → e.cyc.phase = .periodic ∧
    (e.cyc.announceStarted = false ∨ announceStart ≤ e.cyc.beaconEnd) ∧ p.serves l i ∧
    ∃ skipped : List StationIx, e.cyc.dueSet = skipped ++ i :: rest ∧ ∀ j ∈ skipped, ¬ p.serves l j) ∧
  (periodic = false → e.cyc.announceStarted = false ∧ e.cyc.dueSet = rest ∧ candidate i ∧
    ((e.cyc.phase = .aperiodic ∧ ∃ j, candidate j ∧ j ∉ e.cyc.visited) ∨
      (e.cyc.phase = .periodic ∧ ∀ j ∈ rest, ¬ p.serves l j)) ∧
    ((e.cyc.pointer ≤ i ∧ ∀ j, candidate j → j < i → j < e.cyc.pointer) ∨
      ∀ j, candidate j → j < e.cyc.pointer ∧ i ≤ j))

/-- The turn that begins for station `i`. -/
def Turn.begun (i : StationIx) (periodic : Bool) : Turn :=
  { station := i, periodic := periodic, stage := .fetch, attempted := false, closing := false }

/-- The loop with that turn begun, in its window; a round of the aperiodic window that only opens now has visited
nobody. -/
def Part.turnBegun (l : LoopId) (i : StationIx) (periodic : Bool) (rest : List StationIx) (p : Part) : Part :=
  p.modEng l fun e =>
    { e with cyc := { e.cyc with
        dueSet := rest, turn := some (Turn.begun i periodic)
        phase := if periodic then .periodic else .aperiodic
        visited := if periodic = false ∧ e.cyc.phase = .periodic then [] else e.cyc.visited } }

/-- A good record (R34): a POLL of up to 8 request bytes or a PUT of 1 to 96, of up to 93 for a relayed station. -/
abbrev RecordCopy.good (r : RecordCopy) (relayed : Bool) : Prop :=
  let n := r.requestLength.toNat
  ((r.kind = 1 ∧ n ≤ 8) ∨ (r.kind = 2 ∧ 1 ≤ n ∧ n ≤ 96)) ∧ (relayed = true → n ≤ 93)

/-- Memory after the host's writes and the end of transfer `t` (R164). -/
def Transfer.memoryAfter (t : Transfer) (ws : List (Word × Byte)) (m : Memory) : Memory :=
  match t.action with
  | .read _ _ => Memory.hostWrites m ws
  | .write a data => Memory.writeBytes (Memory.hostWrites m ws) a data

/-- Command `c` brings the turn `turn` of station `i` to its choice of attempt and its fit test (R64 steps 2 and 3),
in the part `b` and with the memory `m`: a TURN does for a station with a record in hand, and the end of the part-half
write after a take does for the good record just taken (R34). -/
abbrev State.comesToFit (s : State) (l : LoopId) (i : StationIx) (turn : Turn) (c : Instr) (b : Part) (m : Memory) :
    Prop :=
  (∃ (dt : Nat) (rest : List StationIx),
    c = .turn dt l ∧ m = s.mem ∧ (s.part.tick dt).picks l i turn.periodic rest ∧
    turn = Turn.begun i turn.periodic ∧ b = (s.part.tick dt).turnBegun l i turn.periodic rest) ∨
  ∃ (dt : Nat) (ws : List (Word × Byte)) (t : Transfer) (r : RecordCopy),
    let p := s.part.tick dt
    c = .transferComplete dt ws ∧ s.part.port.inFlight = some t ∧ m = t.memoryAfter ws s.mem ∧ p.live = true ∧
    t.requester = .sched l ∧ t.orphan = false ∧ t.urgent = false ∧
    (p.eng l).sched = [.writeStationHalf i, .takeCheck i] ∧ (p.eng l).cyc.turn = some turn ∧
    (p.ctx i).copy = some r ∧ r.good ((p.ctx i).binding.coupler ≠ 0xFF) ∧
    b = Part.modEng l (fun e => { e with sched := [] }) { p with port := { p.port with inFlight := none } }

/-- The control character of a request: its kind in bits 3:0, SEQ in bit 4, SYNC in bit 5 (R8). -/
def AttemptKind.control (k : AttemptKind) (seq sync : Bool) : Byte :=
  (match k with
    | .poll => 2 | .put => 3 | .probe => 4 | .relayStart => 5 | .relayCollect => 6 | .roll => 7 | .test => 8)
  ||| (if seq then 0x10 else 0) ||| (if sync then 0x20 else 0)

/-- What the end of a beacon makes of the cycle (R63, R66): with a station due the periodic window opens, unless
the announce window is marked as started before its start; with none due the aperiodic one, or none where the announce
window has started or no candidate stands. A cycle given up opens none (R59). -/
def Part.beaconOver (l : LoopId) (p : Part) : Part :=
  p.modEng l fun e =>
    let announceStart :=
      e.cyc.boundaryAt + e.cfg.cycleLength.toNat * 2500 - e.cfg.announceWindow.toNat * 2500
    let due := allStations.filter fun i =>
      (p.ctx i).owner = some l ∧ ((p.ctx i).state = .ready ∨ (p.ctx i).state = .active) ∧
        (p.ctx i).binding.cls = .periodic ∧
        e.rep.cycleNumber.toNat % 2 ^ (p.ctx i).fresh.intervalCode.toNat = (p.ctx i).fresh.phase.toNat
    if e.ctl.state = .running ∧ e.cyc.phase = .beacon ∧ e.cyc.marked = none ∧ e.ctl.rollRequest = false then
      { e with cyc := { e.cyc with
          beaconEnd := p.now, visited := [], dueSet := due
          phase :=
            if due ≠ [] ∧ ¬ (e.cyc.announceStarted = true ∧ p.now < announceStart) then .periodic
            else if e.cyc.announceStarted = true ∨ p.candidates l = [] then .closed
            else .aperiodic } }
    else e

/-- What STARTING latches from the descriptor `h` that it has read, and what it clears (R126 step 3, R127), before
the write of its part half and the scan. -/
def Engine.startLatched (h : LoopHost) (e : Engine) : Engine :=
  { e with
    hostBuf := h
    cfg := { h with testLength := e.cfg.testLength, echoAddress := e.cfg.echoAddress
                    testCount := e.cfg.testCount, testMode := e.cfg.testMode
                    counterMode := e.cfg.counterMode }
    poolBase := e.globalBase, poolSize := e.globalSize
    framer := { e.framer with receiver := .discard }
    rep := { e.rep with startError := .none }
    ctl := { e.ctl with retimePending := false, validated := true }
    xu := ExchangeUnit.idle
    mon := { e.mon with windowErrors := 0, silentRun := 0, errorsMet := false, silenceMet := false }
    sched := .writeLoopHalf :: .mark :: allStations.map .readStationHost ++ allStations.map .judge
      ++ [.mark, .startNext] }

/-- What a wake makes of a loop in QUIET (R144, R148, R149): the wake record is filled, WAKE is raised, and the
loop enters STARTING by a wake entry. -/
def Part.wokenState (l : LoopId) (record : WakeRecord) (p : Part) : Part :=
  Part.modEng l
    (fun e =>
      { e.dropHeld .keepalive with
        ctl := { e.ctl with state := .starting, retimePending := false, startFromOff := false
                            validated := false }
        cyc := { e.cyc.stop with turn := none, firstCycle := false }
        xu := ExchangeUnit.idle
        sched := e.sched ++ [.readGlobal, .readLoopHost .starting, .startValidate] })
    { p with
      screening := match l with
        | .A => { p.screening with wakeA := some record }
        | .B => { p.screening with wakeB := some record }
      cause := p.cause ||| causeBit l .wake }

/-- What the transfer `op` of a procedure leaves, of those that lead to nothing of their own: the host half of a
station is kept for the judgements of its scan (R41), a write of a payload, of result fields or of a part half leaves
nothing. -/
def Part.transferred (l : LoopId) (op : SchedOp) (data : List Byte) (p : Part) : Option Part :=
  match op with
  | .readStationHost j => some (p.modEng l fun e => { e with scan := e.scan.set j (StationHost.decode data) })
  | .writePayload _ _ | .writeResult _ _ _ _ | .writeStationHalf _ | .writeLoopHalf => some p
  | _ => none

/-- What the acts between two transfers of a procedure leave, of those that have nothing to write: a cause is
raised, REFUSED too once for a refused RETIME (R62), a disabled station loses its owner (R52), a step ends, and a
station is judged with no write to make. -/
def Part.goesThrough (l : LoopId) : List SchedOp → Part → Option Part
  | [], p => some p
  | .raise c :: acts, p => Part.goesThrough l acts { p with cause := p.cause ||| causeBit l c }
  | .disown i :: acts, p =>
    Part.goesThrough l acts (p.modCtx i fun c => { c with owner := none, state := .disabled })
  | .raiseRetimeRefused :: acts, p =>
    Part.goesThrough l acts
      (if (p.eng l).cyc.retimeRefused then
        Part.modEng l (fun e => { e with cyc := { e.cyc with retimeRefused := false } })
          { p with cause := p.cause ||| causeBit l .refused }
      else p)
  | .mark :: acts, p => Part.goesThrough l acts p
  | .judge i :: acts, p =>
    let q := p.judgeEntry l i
    if (q.eng l).sched = (p.eng l).sched then Part.goesThrough l acts q else none
  | _ :: _, _ => none

/-- What is left when the transfer `op` of a procedure has ended and the acts `acts` after it are done; `rest` is
what the procedure still has before it. -/
def Part.goesOn (l : LoopId) (op : SchedOp) (data : List Byte) (acts rest : List SchedOp) (p : Part) :
    Option Part :=
  (Part.transferred l op data (Part.modEng l (fun e => { e with sched := rest })
    { p with port := { p.port with inFlight := none } })).bind (Part.goesThrough l acts)

/-- What R134 makes of a loop at an entry to DOWN or JAMMED: `ops` is its procedure after the entry. -/
def Part.downState (l : LoopId) (r : DownReason) (ops : List SchedOp) (p : Part) : Part :=
  p.modEng l fun e =>
    { e with
      ctl := { e.ctl with
        state := if r = .jam then .jammed else .down
        drainTarget := none
        returnTarget := if e.ctl.state = .quiet ∨ (e.ctl.state = .draining ∧ e.ctl.drainTarget = some .quiet)
                          then some .quiet
                        else if e.ctl.state = .draining then some .off
                        else if e.ctl.state = .rollcall then some .rollcall
                        else some .running }
      rep := { e.rep with downReason := r }
      cyc := { e.cyc.stop with turn := none }
      xu := ExchangeUnit.idle
      framer := if e.framer.sending = none then { e.framer with held := none }
                else { e.framer with held := none, sending := none, receiver := .discard, markSince := p.now }
      mon := { e.mon with windowErrors := 0, silentRun := 0, errorsMet := false, silenceMet := false
                          downSince := some p.now, holdPassed := false, presenceSince := none }
      rollList := [], rollSecond := false
      sched := ops }

/-- A latency exceeds the trap threshold of its loop (R93). -/
abbrev Engine.exceeds (latency : BitVec 16) (e : Engine) : Prop :=
  e.cfg.trapThreshold ≠ 0 ∧ e.cfg.trapThreshold.toNat < latency.toNat

/-- The trap slot once the latency of station `i` has been offered to it (R93). -/
def Engine.trapAfter (i : StationIx) (latency : BitVec 16) (e : Engine) : TrapSlot :=
  if e.exceeds latency then
    (if e.trap.armed then
      { e.trap with armed := false, station := BitVec.ofNat 6 i.val, latency := latency
                    cycle := e.rep.cycleNumber.setWidth 16 }
    else { e.trap with missed := satInc e.trap.missed })
  else e.trap

/-- TRAP, where that offer is captured (R93). -/
def Engine.trapCause (latency : BitVec 16) (e : Engine) : List SchedOp :=
  if e.exceeds latency ∧ e.trap.armed = true then [.raise .trap] else []

/-- The state in which a part is, its arbiter having made its grant (R164). -/
def State.become (s : State) (p : Part) : State := { s with part := p.arbitrate }

/-- The loop a command is for: a command or event names it, the end of a transfer is for the loop of the
transfer's requester, and an access of the Register Port or a reset is for none. -/
def State.commandLoop (s : State) : Instr → Option LoopId
  | .start _ l _ | .stop _ l _ | .quiet _ l _ | .wake _ l _ | .rollcall _ l _ | .retime _ l _
  | .lineTest _ l _ | .undefinedCommand _ l _ _ => some l
  | .biasOkLoss _ l | .biasOkRestore _ l | .activityStart _ l | .characterReceived _ l _ _
  | .activityEnd _ l | .lineIdle _ l | .frameEnd _ l | .collision _ l | .endOfFrame _ l
  | .replyTimeout _ l _ | .gridPoint _ l | .boundaryTaken _ l | .announceWindowStart _ l | .turn _ l
  | .drainSettlement _ l | .rollAttempt _ l | .keepaliveTimer _ l | .carrierCriterion _ l
  | .jamCriterion _ l | .errorsCriterion _ l | .silenceCriterion _ l | .downHoldExpiry _ l
  | .downRecovery _ l | .jamRelease _ l => some l
  | .transferComplete _ _ | .busError _ _ _ _ => s.part.port.inFlight.map fun t => t.requester.loop
  | .softReset _ _ | .softResetComplete _ | .areaWrite _ _ | .causeWrite _ _ | .maskWrite _ _
  | .windowPointerWrite _ _ | .windowDataRead _ | .windowDataWrite _ _ | .registerWriteOther _ _ _
  | .resetNAssert _ _ | .resetNRelease _ => none

/-- The CLK periods that have passed before a command. -/
def commandTime : Instr → Nat
  | .start dt _ _ | .stop dt _ _ | .quiet dt _ _ | .wake dt _ _ | .rollcall dt _ _ | .retime dt _ _
  | .lineTest dt _ _ | .undefinedCommand dt _ _ _ | .softReset dt _ | .softResetComplete dt
  | .areaWrite dt _ | .causeWrite dt _ | .maskWrite dt _ | .windowPointerWrite dt _ | .windowDataRead dt
  | .windowDataWrite dt _ | .registerWriteOther dt _ _ | .resetNAssert dt _ | .resetNRelease dt
  | .biasOkLoss dt _ | .biasOkRestore dt _ | .activityStart dt _ | .characterReceived dt _ _ _
  | .activityEnd dt _ | .lineIdle dt _ | .frameEnd dt _ | .collision dt _ | .endOfFrame dt _
  | .replyTimeout dt _ _ | .gridPoint dt _ | .boundaryTaken dt _ | .announceWindowStart dt _ | .turn dt _
  | .drainSettlement dt _ | .rollAttempt dt _ | .keepaliveTimer dt _ | .carrierCriterion dt _
  | .jamCriterion dt _ | .errorsCriterion dt _ | .silenceCriterion dt _ | .downHoldExpiry dt _
  | .downRecovery dt _ | .jamRelease dt _ | .transferComplete dt _ | .busError dt _ _ _ => dt

/-- The command of a command code (R159, 12_formats). -/
def hostCommand (code : BitVec 4) (dt : Nat) (l : LoopId) (via : CommandPath) : Instr :=
  if code = 1 then .start dt l via
  else if code = 2 then .stop dt l via
  else if code = 3 then .quiet dt l via
  else if code = 4 then .wake dt l via
  else if code = 5 then .rollcall dt l via
  else if code = 6 then .retime dt l via
  else if code = 7 then .lineTest dt l via
  else .undefinedCommand dt l code via

/-- The commands that R125 takes, by code, in the state of loop `l`. -/
def Part.takes (p : Part) (l : LoopId) (code : BitVec 4) : Bool :=
  let state := (p.eng l).ctl.state
  if code = 1 then state == .off
  else if code = 2 then state != .off
  else if code = 3 then state == .running && p.screening.wakeConfig.setupComplete
  else if code = 4 then state == .quiet
  else if code = 5 then state == .running
  else if code = 6 then state == .running || state == .rollcall || state == .down || state == .jammed
  else if code = 7 then state == .off && p.testUnit.owner.isNone
  else false

end Sys2Proof.Machine
end

