-- ==== Sys2Proof/Certificates/Slice0/Obligations.lean ====
section
/-! DEFINITION. The statements for the provers. Throughout, `s.become q` is the state `s` with the part `q`
after its arbiter's grant (R164), so an equation with it also says that memory and the queue are as before,
and that every item that `q` does not name is as in the part after the time `dt` has passed. -/

section

open Sys2Proof Sys2Proof.Machine

/-! ### The machine -/

/-- A step runs the command at the front of the queue, with the rest of the queue left (the model's queue,
log 4). -/
def Obligations.StepRunsFrontCommand : Prop :=
  ∀ (c : Instr) (rest : List Instr) (s : State),
    step { s with pending := c :: rest } = exec c { s with pending := rest }

/-- Every command answers a next state, in which the time it names has passed and the queue is as before; and
so does every step, which with no command waiting leaves the state as it is (the model's choice, log 4). -/
def Obligations.EveryCommandAnswersNext : Prop :=
  (∀ (c : Instr) (s : State), ∃ t : State,
    exec c s = .next t ∧ t.pending = s.pending ∧ t.part.now = s.part.now + commandTime c) ∧
  (∀ s : State, s.pending = [] → step s = .next s) ∧
  ∀ s : State, ∃ t : State, step s = .next t

/-! ### Reset -/

/-- The part after a power-on reset: every item at the value that the spec gives it there (R14, R24, R39, R57,
R58, R61, R70, R74, R95, R98, R118, R124, R131, R150, R159, R161, R164, R167, R168). The model's state at reset is
this part, with no byte of memory written and no command waiting. The model's choices: logs 5, 7 and 29 (memory
reads 0, BIAS_OK is present on both loops, the last word read through the window is 0, and so are the values read
and not yet used, the instants that nothing has set, and the latched fields where nothing is latched). -/
def Obligations.PowerOnValues : Prop :=
  State.reset.part = Part.powerOn 0 true true ∧ State.reset.pending = [] ∧
  (∀ a : Nat, Memory.read State.reset.mem a = 0) ∧
  ∀ (now : Nat) (biasA biasB : Bool),
    let p := Part.powerOn now biasA biasB
    let zero : LoopHost :=
      { cycleLength := 0, periodicBudget := 0, announceWindow := 0, bitRate := 0, rollAtStart := false
        rollAtRecovery := false, catchNotify := false, carrierEnable := false, identity := 0
        errorThreshold := 0, errorWindow := 0, silenceThreshold := 0, downHold := 0, jamTime := 0
        jamRelease := 0, keepalive := 0, trapThreshold := 0, testLength := 0, echoAddress := 0
        testCount := 0, testMode := 0, counterMode := 0 }
    p.resetHeld = false ∧ p.resetting = false ∧ p.area = 0 ∧ p.mask = 0 ∧ p.cause = 0 ∧ p.busRead = 0 ∧
    p.window = { space := 0, offset := 0, mode := .fixed } ∧
    p.port = { inFlight := none, pointer := .catcher .B } ∧
    p.now = now ∧
    (∀ i : StationIx, p.ctx i =
      { owner := none, state := .disabled
        binding := { loop := .A, cls := .periodic, lineAddress := 0, coupler := 0 }
        fresh := { intervalCode := 0, phase := 0, maxReply := 0, replyTimeout := 0, retryLimit := 0
                   acceptAnnounce := false, wake := false, halt := false, releaseCount := 0, chainHead := 0
                   collectDelay := 0, patience := 0 }
        phase := .none, reason := .none, failures := 0, txSeq := false
        rxSeq := false, syncPending := false, present := false, parked := none, inHand := none
        completed := 0, missCount := 0, duplicates := 0, maxLatency := 0, latchedRelease := 0, copy := none
        recAttempts := 0, recHolds := 0, recDuplicates := 0, recLatency := 0 }) ∧
    (∀ e : Fin 8, p.relays[e] = none) ∧
    (∀ n : Fin 16, p.screening.filters[n] =
      { enable := false, scope := .announce, qualifier := .any, offset := 0, mask := 0, expected := 0,
        triggered := false, matchCount := 0 }) ∧
    (∀ g : Fin 15, p.screening.groups[g] = { announceAccept := false, wake := false }) ∧
    p.screening.wakeConfig =
      { wakeOnEnergy := false, wakeAllCall := false, allCallAccept := false, setupComplete := false } ∧
    p.screening.wakeA = none ∧ p.screening.wakeB = none ∧
    p.testUnit = { owner := none, status := .none, generator := BitVec.allOnes 15, copy := [], sent := 0,
                   intact := 0, lost := 0, mismatched := 0 } ∧
    (∀ l : LoopId,
      let e := p.eng l
      e.ctl = { state := .off, drainTarget := none, returnTarget := none, rollRequest := false,
                retimePending := false, slot := none, startFromOff := false, validated := false } ∧
      e.rep = { downReason := .none, startError := .none, retimeResult := .none, cycleNumber := 0,
                lateBeacons := 0, overruns := 0, rollPresent := 0, rollAbsent := 0 } ∧
      e.cfg = zero ∧ e.poolBase = 0 ∧ e.poolSize = 0 ∧ e.sched = [] ∧ e.urgent = [] ∧
      (∀ i : StationIx, e.scan[i] =
        { enable := false, loop := .A, cls := .periodic, acceptAnnounce := false, wake := false, halt := false
          lineAddress := 0, coupler := 0, releaseCount := 0, intervalCode := 0, phase := 0, maxReply := 0
          replyTimeout := 0, retryLimit := 0, collectDelay := 0, patience := 0, chainHead := 0 }) ∧
      e.hostBuf = zero ∧ e.globalBase = 0 ∧ e.globalSize = 0 ∧ e.resetSet = [] ∧
      e.framer = { running := false, receiver := .discard, held := none, sending := none, activity := none,
                   markSince := 0 } ∧
      e.xu = { state := .idle, attempt := none } ∧
      e.mon = { windowErrors := 0, totalErrors := 0, collisions := 0, silentRun := 0
                biasOk := (match l with | .A => biasA | .B => biasB)
                carrierSince := none, errorsMet := false, silenceMet := false, downSince := none
                holdPassed := false, presenceSince := none } ∧
      e.trap = { armed := true, station := 0, latency := 0, cycle := 0, missed := 0 } ∧
      e.catcher = { buffer := none, walk := none, poolBase := 0, poolSize := 0, fills := 0, drops := 0
                    accepted := 0, stalled := false, parked := none } ∧
      e.cyc = { firstCycle := false, nextGrid := none, marked := none, late := false, lateTaken := false
                boundaryAt := 0, phase := .none, dueSet := [], pointer := 0, visited := [], beaconEnd := 0
                attempted := false, answered := false, firstOfGrid := false, overrun := false
                announceStarted := false, retimeRefused := false, turn := none } ∧
      e.keepaliveFrom = 0 ∧ e.quietFrom = 0 ∧ e.rollList = [] ∧ e.rollSecond = false)

/-- A CONTROL write with the soft-reset bit begins the soft reset, whatever its command fields. It ends once
no transfer is in progress: all is then as after a power-on reset, but that AREA, MASK and the Screening
Store are kept, and with them the data of the last window read and the levels of the BIAS_OK pins. Until then
it waits. Of what was under way only a DONE write in progress is kept, whose context change R35 lets stand, as
TransferComplete says. The model's choices: logs 7 and 27. -/
def Obligations.SoftReset : Prop :=
  ∀ (dt : Nat) (fields : BitVec 8) (s : State),
    let p := s.part.tick dt
    let cut := fun (l : LoopId) (e : Engine) =>
      { e with ctl := { e.ctl with slot := none }
               framer := { running := false, receiver := .discard, held := none, sending := none
                           activity := none, markSince := 0 }
               mon := { e.mon with carrierSince := none }, xu := { state := .idle, attempt := none }
               sched := match p.port.inFlight, e.sched with
                 | some t, .writeDone i k flip y :: _ =>
                   if t.requester = .sched l ∧ t.orphan = false ∧ t.urgent = false then [.writeDone i k flip y]
                   else []
                 | _, _ => []
               urgent := [], catcher := { e.catcher with walk := none } }
    (p.live = true → p.latchFree = true →
      exec (.softReset dt fields) s =
        .next { s with part := { p with resetting := true, cause := 0, engA := cut .A p.engA
                                        engB := cut .B p.engB } }) ∧
    ((p.live && p.latchFree) = false → exec (.softReset dt fields) s = .next (s.become p)) ∧
    (p.resetHeld = false → p.resetting = true → p.port.inFlight = none →
      exec (.softResetComplete dt) s =
        .next { s with part :=
          { Part.powerOn p.now p.engA.mon.biasOk p.engB.mon.biasOk with
            area := p.area, mask := p.mask, screening := p.screening, busRead := p.busRead } }) ∧
    (p.live = false → p.port.inFlight.isSome = true → exec (.softResetComplete dt) s = .next (s.become p))

/-- RESET_N active holds the part in reset, abandons the transfer in progress and leaves in memory the
bytes of a write that had landed; INT_N is inactive and nothing is driven. RESET_N inactive gives the
power-on values. In between nothing but the levels of the BIAS_OK pins acts on the part.
The model's choices: logs 2, 7 and 8. -/
def Obligations.ResetPin : Prop :=
  ∀ (dt : Nat) (landed : BitVec 128) (s : State),
    let p := s.part.tick dt
    let reset := Part.powerOn p.now p.engA.mon.biasOk p.engB.mon.biasOk
    (p.resetHeld = false →
      exec (.resetNAssert dt landed) s =
        .next { s with
          part := { reset with resetHeld := true }
          mem := match p.port.inFlight with
            | some { action := .write a data, .. } => Memory.writeLanded s.mem a landed data
            | _ => s.mem }) ∧
    (p.resetHeld = true → exec (.resetNRelease dt) s = .next { s with part := reset }) ∧
    Part.intActive { reset with resetHeld := true } = false ∧
    (∀ l : LoopId, ((Part.eng { reset with resetHeld := true } l).txen = false)) ∧
    ∀ c : Instr, s.part.resetHeld = true → s.part.port.inFlight = none →
      (∀ dt, c ≠ .resetNRelease dt) → (∀ dt l, c ≠ .biasOkLoss dt l) →
      (∀ dt l, c ≠ .biasOkRestore dt l) →
      ∃ t : State, exec c s = .next t ∧ t.part = s.part.tick (commandTime c)

/-- The bytes of system memory after a write transfer, whole or cut: byte `i` of its data at its address plus
`i`, modulo 2^32, where it was written, and every other byte as before. A read brings its bytes in order, and
the host's own writes are made in order. The model's choices: logs 5 and 8. -/
def Obligations.TransferBytes : Prop :=
  ∀ (m : Memory) (a : Word) (landed : BitVec 128) (data : List Byte) (n : Nat) (x : Word),
    Memory.wf m → data.length ≤ 128 →
      Memory.read (Memory.writeLanded m a landed data) x.toNat =
        (if h : (x - a).toNat < data.length then
          if landed.getLsbD (x - a).toNat then data[(x - a).toNat] else Memory.read m x.toNat
        else Memory.read m x.toNat) ∧
      Memory.read (Memory.writeBytes m a data) x.toNat =
        (if h : (x - a).toNat < data.length then data[(x - a).toNat] else Memory.read m x.toNat) ∧
      Memory.readBytes m a n = (List.range n).map (fun i => Memory.read m (a + BitVec.ofNat 32 i).toNat) ∧
      ∀ (b : Byte) (ws : List (Word × Byte)),
        Memory.read (Memory.hostWrites m (ws ++ [(a, b)])) x.toNat =
          if x = a then b else Memory.read (Memory.hostWrites m ws) x.toNat


/-! ### The Register Port -/

/-- R158: AREA reads with its low twelve bits 0; a write is taken while both loops are OFF, drops its low
twelve bits, and is ignored while either loop is in any other state; a power-on reset and RESET_N clear
AREA, and a soft reset keeps it. The reads of a START use the base as it stands. -/
def Obligations.AreaRegister : Prop :=
  (∀ p : Part, p.readRegister 0x00 &&& 0xFFF = 0) ∧
  (∀ (dt : Nat) (value : Word) (s : State),
    let p := s.part.tick dt
    p.live = true →
    ((∀ l, (p.eng l).ctl.state = .off) →
      exec (.areaWrite dt value) s = .next (s.become { p with area := value.extractLsb' 12 20 }) ∧
      Part.readRegister { p with area := value.extractLsb' 12 20 } 0x00 = value &&& 0xFFFFF000) ∧
    ((∃ l, (p.eng l).ctl.state ≠ .off) → exec (.areaWrite dt value) s = .next (s.become p))) ∧
  (∀ (now : Nat) (a b : Bool), (Part.powerOn now a b).area = 0) ∧
  (∀ (dt : Nat) (fields : BitVec 8) (s : State), ∃ t, exec (.softReset dt fields) s = .next t ∧
    t.part.area = s.part.area) ∧
  (∀ (dt : Nat) (s : State), ∃ t, exec (.softResetComplete dt) s = .next t ∧ t.part.area = s.part.area) ∧
  (∀ (dt : Nat) (landed : BitVec 128) (s : State),
    (s.part.resetHeld = false → ∃ t, exec (.resetNAssert dt landed) s = .next t ∧ t.part.area = 0) ∧
    (s.part.resetHeld = true → ∃ t, exec (.resetNRelease dt) s = .next t ∧ t.part.area = 0)) ∧
  (∀ (p : Part) (l : LoopId), p.schedAction l .readGlobal = some (.read (p.readRegister 0x00) 64))

/-- R163: the flags of CAUSE at their bits, set requests, host writes and reads of CAUSE and MASK, their resets, and
INT_N, which is active exactly when CAUSE and MASK have a set flag in common. -/
def Obligations.CauseUnit : Prop :=
  (∀ (c : Cause) (n : Nat), n < 32 →
    c.index < 16 ∧ (causeBit .A c).getLsbD n = (n == c.index) ∧
      (causeBit .B c).getLsbD n = (n == 16 + c.index)) ∧
  (∀ c : Cause, c.index = match c with
    | .exdone => 0 | .exfault => 1 | .catch_ => 2 | .starved => 3 | .wake => 4 | .down => 5 | .up => 6
    | .jam => 7 | .overrun => 8 | .halted => 9 | .trap => 10 | .rolldone => 11 | .testdone => 12
    | .refused => 13 | .busfault => 14 | .reject => 15) ∧
  (∀ c d : Cause, c.index = d.index → c = d) ∧
  (∀ (p : Part) (l : LoopId) (c : Cause),
    (p.resetting = false → p.raiseCause l c = { p with cause := p.cause ||| causeBit l c }) ∧
    (p.resetting = true → p.raiseCause l c = p)) ∧
  (∀ (dt : Nat) (value : Word) (s : State),
    let p := s.part.tick dt
    (p.live = true → exec (.causeWrite dt value) s =
      .next (s.become { p with cause := p.cause &&& ~~~ value })) ∧
    (p.resetHeld = false → exec (.maskWrite dt value) s = .next (s.become { p with mask := value }))) ∧
  (∀ p : Part, (p.live = true → p.readRegister 0x08 = p.cause) ∧ p.readRegister 0x0C = p.mask) ∧
  (∀ (p : Part) (l : LoopId) (c : Cause) (value : Word), p.resetting = false →
    (Part.raiseCause l c { p with cause := p.cause &&& ~~~ value }).cause &&& causeBit l c = causeBit l c ∧
    (value &&& causeBit l c = causeBit l c →
      ((p.raiseCause l c).cause &&& ~~~ value) &&& causeBit l c = 0)) ∧
  (∀ (now : Nat) (a b : Bool), (Part.powerOn now a b).mask = 0 ∧ (Part.powerOn now a b).cause = 0) ∧
  (∀ (dt : Nat) (fields : BitVec 8) (s : State), ∃ t, exec (.softReset dt fields) s = .next t ∧
    t.part.mask = s.part.mask ∧ ((s.part.live && s.part.latchFree) = true → t.part.cause = 0)) ∧
  (∀ (dt : Nat) (s : State), ∃ t, exec (.softResetComplete dt) s = .next t ∧ t.part.mask = s.part.mask) ∧
  (∀ (dt : Nat) (landed : BitVec 128) (s : State),
    (s.part.resetHeld = false →
      ∃ t, exec (.resetNAssert dt landed) s = .next t ∧ t.part.mask = 0 ∧ t.part.cause = 0) ∧
    (s.part.resetHeld = true →
      ∃ t, exec (.resetNRelease dt) s = .next t ∧ t.part.mask = 0 ∧ t.part.cause = 0)) ∧
  (∀ p : Part, p.resetHeld = false →
    (p.intActive = true ↔ ∃ n < 32, p.cause.getLsbD n = true ∧ p.mask.getLsbD n = true))

/-- R161: a write of WINDOW_POINTER sets space, offset and step mode at once, and a read gives them back. A read
of WINDOW_DATA returns the word at the current space and offset and has the side effect of its store; a write
has the effect of the store there. The offset then steps, in the modes STEP_ALL and STEP_READS after a read, and
STEP_ALL and STEP_WRITES after a write. At or beyond the end of a space a word reads 0, ignores writes and has
no side effect, and so does every word of spaces 9 to 15; the read-only spaces ignore writes. All resets set the
pointer to 0. The model's choices: logs 30 and 48 (the bits of the pointer's word that no field takes read 0). -/
def Obligations.WindowRegisters : Prop :=
  (∀ (dt : Nat) (value : Word) (s : State),
    let p := s.part.tick dt
    let w := p.window
    let written : WindowPointer :=
      { space := value.extractLsb' 16 4, offset := value.extractLsb' 0 12
        mode := match (value.extractLsb' 24 2).toNat with
          | 0 => .fixed
          | 1 => .all
          | 2 => .writes
          | _ => .reads }
    p.live = true →
      exec (.windowPointerWrite dt value) s = .next (s.become { p with window := written }) ∧
      Part.readRegister { p with window := written } 0x10 = value &&& 0x030F0FFF ∧
      exec (.windowDataRead dt) s =
        .next (s.become
          { p.windowEffect w.space w.offset with
            busRead := p.readRegister 0x14
            window := if w.mode = .all ∨ w.mode = .reads then { w with offset := w.offset + 1 } else w }) ∧
      p.readRegister 0x14 = p.windowWord w.space w.offset ∧
      exec (.windowDataWrite dt value) s =
        .next (s.become
          { p.windowStore w.space w.offset value with
            window := if w.mode = .all ∨ w.mode = .writes then { w with offset := w.offset + 1 }
                      else w })) ∧
  (∀ (p : Part) (space : BitVec 4) (offset : BitVec 12) (value : Word),
    ([3, 128, 16, 8, 4, 4, 6, 24, 5].getD space.toNat 0 ≤ offset.toNat →
      p.windowWord space offset = 0 ∧ p.windowStore space offset value = p ∧
        p.windowEffect space offset = p) ∧
    (space ≠ 1 → space ≠ 2 → space ≠ 3 → p.windowStore space offset value = p)) ∧
  (∀ (dt : Nat) (landed : BitVec 128) (s : State),
    let zero : WindowPointer := { space := 0, offset := 0, mode := .fixed }
    State.reset.part.window = zero ∧
    (s.part.resetHeld = false → ∃ t, exec (.resetNAssert dt landed) s = .next t ∧ t.part.window = zero) ∧
    (s.part.resetHeld = true → ∃ t, exec (.resetNRelease dt) s = .next t ∧ t.part.window = zero) ∧
    (s.part.resetHeld = false → s.part.resetting = true → s.part.port.inFlight = none →
      ∃ t, exec (.softResetComplete dt) s = .next t ∧ t.part.window = zero))


/-- Every word of the window spaces as it reads, by the stored fields, and the ends of all spaces. The side effects of
reads: the two read-to-clear counters of each Line Monitor, the capture and missed words of each trap slot and the
mismatched-bytes word; no other read has one. -/
def Obligations.WindowReads : Prop :=
  (∀ p : Part,
    p.windowWord 0 0 = 0x00012408 ∧
    p.windowWord 0 1 = 2 ||| (64 <<< 8) ||| (8 <<< 16) ||| (16 <<< 24) ∧
    p.windowWord 0 2 = 15 ||| (1023 <<< 16) ∧
    (∀ n : Fin 16,
      let f := p.screening.filters[n]
      let at_ := fun word : Nat => p.windowWord 1 (BitVec.ofNat 12 (8 * n.val + word))
      at_ 0 = (if f.enable then 1 else 0)
        ||| (match f.scope with | .announce => 0 | .wake => 0x100 | .both => 0x200 | .unnamed => 0x300)
        ||| (match f.qualifier with
          | .any => 0 | .toConcentrator => 0x10000 | .groupListed => 0x20000 | .knownSource => 0x30000)
        ||| (f.offset.setWidth 32 <<< 24) ∧
      at_ 1 = f.mask.setWidth 32 ∧ at_ 2 = (f.mask >>> 32).setWidth 32 ∧ at_ 3 = f.expected.setWidth 32 ∧
      at_ 4 = (if f.triggered then 1 else 0) ||| (f.matchCount.setWidth 32 <<< 8)) ∧
    (∀ g : Fin 15,
      p.windowWord 2 (BitVec.ofNat 12 g.val) =
        (if p.screening.groups[g].announceAccept then 1 else 0)
        ||| (if p.screening.groups[g].wake then 2 else 0)) ∧
    p.windowWord 2 15 =
      (let w := p.screening.wakeConfig
       (if w.wakeOnEnergy then 1 else 0) ||| (if w.wakeAllCall then 2 else 0)
         ||| (if w.allCallAccept then 4 else 0) ||| (if w.setupComplete then 8 else 0)) ∧
    (∀ l : LoopId,
      let space : BitVec 4 := match l with | .A => 4 | .B => 5
      let trap : BitVec 12 := match l with | .A => 0 | .B => 3
      let m := (p.eng l).mon
      let t := (p.eng l).trap
      p.windowWord space 0 = m.windowErrors.setWidth 32 ∧
      p.windowWord space 1 = m.totalErrors.setWidth 32 ∧
      p.windowWord space 2 = m.collisions.setWidth 32 ∧
      p.windowWord space 3 = m.silentRun.setWidth 32 ∧
      p.windowWord 6 trap = t.latency.setWidth 32 ||| (t.station.setWidth 32 <<< 16)
        ||| (if t.armed then 0 else 0x80000000) ∧
      p.windowWord 6 (trap + 1) = t.cycle.setWidth 32 ∧
      p.windowWord 6 (trap + 2) = t.missed.setWidth 32) ∧
    (∀ e : Fin 8,
      let at_ := fun word : Nat => p.windowWord 7 (BitVec.ofNat 12 (3 * e.val + word))
      match p.relays[e] with
      | none => at_ 0 = 0 ∧ at_ 1 = 0 ∧ at_ 2 = 0
      | some r =>
        at_ 0 = r.waiting.setWidth 32 ||| (BitVec.ofNat 32 r.station.val <<< 8)
          ||| (BitVec.ofNat 32 r.coupler.val <<< 16)
          ||| (if r.phase = .collecting then 0x20000000 else 0) ||| (if r.loop = .B then 0x40000000 else 0)
          ||| 0x80000000 ∧
        at_ 1 = r.record.setWidth 32 ∧ at_ 2 = r.startCycle) ∧
    p.windowWord 8 0 =
      (match p.testUnit.owner with | none => 0 | some .A => 1 | some .B => 2)
      ||| (match p.testUnit.status with
        | .none => 0 | .running => 0x100 | .complete => 0x200 | .stopped => 0x300 | .abandoned => 0x400) ∧
    p.windowWord 8 1 = p.testUnit.sent.setWidth 32 ∧ p.windowWord 8 2 = p.testUnit.intact.setWidth 32 ∧
    p.windowWord 8 3 = p.testUnit.lost.setWidth 32 ∧ p.windowWord 8 4 = p.testUnit.mismatched.setWidth 32 ∧
    (∀ l : LoopId,
      let record := match l with | .A => p.screening.wakeA | .B => p.screening.wakeB
      let at_ := fun word : Nat => p.windowWord 3 (BitVec.ofNat 12 ((match l with | .A => 0 | .B => 4) + word))
      match record with
      | none => ∀ w < 4, at_ w = 0
      | some r =>
        at_ 0 = 1 ||| (match r.reason with
          | .host => 0x100 | .energy => 0x200 | .marker => 0x300 | .station => 0x400 | .group => 0x500
          | .allCall => 0x600 | .filter => 0x700) ∧
        at_ 1 = r.source.setWidth 32 ||| (r.destination.setWidth 32 <<< 8) ∧
        at_ 2 = (match r.filter with | none => 0xFF | some i => BitVec.ofNat 32 i.val)
          ||| (r.triggered.setWidth 32 <<< 16) ∧
        at_ 3 = 0) ∧
    (∀ (space : BitVec 4) (offset : BitVec 12),
      [3, 128, 16, 8, 4, 4, 6, 24, 5].getD space.toNat 0 ≤ offset.toNat → p.windowWord space offset = 0)) ∧
  ∀ (p : Part) (space : BitVec 4) (offset : BitVec 12),
    let loop : LoopId := if space = 4 then .A else .B
    let trapLoop : LoopId := if offset.toNat < 3 then .A else .B
    p.windowEffect space offset =
      if (space = 4 ∨ space = 5) ∧ offset = 1 then
        p.modEng loop fun e => { e with mon := { e.mon with totalErrors := 0 } }
      else if (space = 4 ∨ space = 5) ∧ offset = 2 then
        p.modEng loop fun e => { e with mon := { e.mon with collisions := 0 } }
      else if space = 6 ∧ (offset = 0 ∨ offset = 3) then
        p.modEng trapLoop fun e =>
          { e with trap := { armed := true, station := 0, latency := 0, cycle := 0
                             missed := e.trap.missed } }
      else if space = 6 ∧ (offset = 2 ∨ offset = 5) then
        p.modEng trapLoop fun e => { e with trap := { e.trap with missed := 0 } }
      else if space = 8 ∧ offset = 4 then { p with testUnit := { p.testUnit with mismatched := 0 } }
      else p

/-- The writable words: the fields of a filter, of a group entry and of the wake configuration that a write of `v`
stores, bit by bit, what the word then reads, that a write to a word of a loop's wake record empties that record, that every other word reads as before, that a write changes nothing of the part but
the Screening Store, and that no other write has an effect. The model's choice: log 32. -/
def Obligations.WindowStores : Prop :=
  ∀ (p : Part) (v : Word),
    let after := fun (space : BitVec 4) (offset : Nat) => p.windowStore space (BitVec.ofNat 12 offset) v
    let word := fun (q : Part) (space : BitVec 4) (offset : Nat) => q.windowWord space (BitVec.ofNat 12 offset)
    let stores := fun (space : BitVec 4) (offset : Nat) (store : ScreeningStore) =>
      (after space offset).screening = store
    (∀ n : Fin 16,
      let was := p.screening.filters[n]
      let written := fun f : Filter => { p.screening with filters := p.screening.filters.set n f }
      stores 1 (8 * n.val) (written
        { was with
          enable := v.getLsbD 0
          scope := match (v.extractLsb' 8 2).toNat with | 0 => .announce | 1 => .wake | 2 => .both | _ => .unnamed
          qualifier := match (v.extractLsb' 16 2).toNat with
            | 0 => .any | 1 => .toConcentrator | 2 => .groupListed | _ => .knownSource
          offset := v.extractLsb' 24 7 }) ∧
      (∃ mask : BitVec 64, stores 1 (8 * n.val + 1) (written { was with mask := mask }) ∧
        ∀ j < 64, mask.getLsbD j = if j < 32 then v.getLsbD j else was.mask.getLsbD j) ∧
      (∃ mask : BitVec 64, stores 1 (8 * n.val + 2) (written { was with mask := mask }) ∧
        ∀ j < 64, mask.getLsbD j = if j < 32 then was.mask.getLsbD j else v.getLsbD (j - 32)) ∧
      stores 1 (8 * n.val + 3) (written { was with expected := v.extractLsb' 0 16 }) ∧
      stores 1 (8 * n.val + 4) (written
        { was with triggered := v.getLsbD 0, matchCount := v.extractLsb' 8 8 })) ∧
    (∀ g : Fin 15, stores 2 g.val
      { p.screening with
        groups := p.screening.groups.set g { announceAccept := v.getLsbD 0, wake := v.getLsbD 1 } }) ∧
    stores 2 15
      { p.screening with
        wakeConfig := { wakeOnEnergy := v.getLsbD 0, wakeAllCall := v.getLsbD 1
                        allCallAccept := v.getLsbD 2, setupComplete := v.getLsbD 3 } } ∧
    (∀ f < 16,
      word (after 1 (8 * f)) 1 (8 * f) = v &&& 0x7F030301 ∧
      word (after 1 (8 * f + 1)) 1 (8 * f + 1) = v ∧
      word (after 1 (8 * f + 2)) 1 (8 * f + 2) = v ∧
      word (after 1 (8 * f + 3)) 1 (8 * f + 3) = v &&& 0xFFFF ∧
      word (after 1 (8 * f + 4)) 1 (8 * f + 4) = v &&& 0xFF01 ∧
      ∀ w < 3, after 1 (8 * f + 5 + w) = p ∧ word p 1 (8 * f + 5 + w) = 0) ∧
    (∀ g < 15, word (after 2 g) 2 g = v &&& 3) ∧
    word (after 2 15) 2 15 = v &&& 0xF ∧
    (∀ w < 4, (after 3 w).screening.wakeA = none ∧ (after 3 w).screening.wakeB = p.screening.wakeB ∧
      (after 3 (4 + w)).screening.wakeB = none ∧ (after 3 (4 + w)).screening.wakeA = p.screening.wakeA) ∧
    (∀ (space space' : BitVec 4) (offset offset' : BitVec 12), space ≠ 3 → (space, offset) ≠ (space', offset') →
      (p.windowStore space offset v).windowWord space' offset' = p.windowWord space' offset') ∧
    (∀ (space' : BitVec 4) (offset offset' : BitVec 12),
      space' ≠ 3 ∨ offset'.toNat / 4 ≠ offset.toNat / 4 →
      (p.windowStore 3 offset v).windowWord space' offset' = p.windowWord space' offset') ∧
    (∀ (space : BitVec 4) (offset : BitVec 12),
      p.windowStore space offset v = { p with screening := (p.windowStore space offset v).screening }) ∧
    (∀ (space : BitVec 4) (offset : BitVec 12),
      (space ≠ 1 ∧ space ≠ 2 ∧ space ≠ 3) ∨ [3, 128, 16, 8].getD space.toNat 0 ≤ offset.toNat →
      p.windowStore space offset v = p)

/-- R157: an offset that names no register reads 0 and ignores writes; while a soft reset is in progress
MASK alone takes writes, and the registers read as the rule's table says. A read of CONTROL returns
both loop states, both RETIME pending flags, the owner of the test unit and RESETTING, as they stand. The model's
choices: logs 30 (the word a read of WINDOW_DATA returns is kept in the state) and 48 (bits 30:12 of a CONTROL read
are 0). -/
def Obligations.RegisterAccess : Prop :=
  (∀ p : Part, p.resetting = false →
    let w := p.readRegister 0x04
    w.extractLsb' 0 4 = p.engA.ctl.state.code.setWidth 4 ∧
    w.extractLsb' 4 4 = p.engB.ctl.state.code.setWidth 4 ∧
    w.getLsbD 8 = p.engA.ctl.retimePending ∧ w.getLsbD 9 = p.engB.ctl.retimePending ∧
    w.extractLsb' 10 2 = (match p.testUnit.owner with | none => 0 | some .A => 1 | some .B => 2) ∧
    w.extractLsb' 12 20 = 0) ∧
  (∀ (dt : Nat) (offset value : Word) (s : State),
    Instr.wellFormed (.registerWriteOther dt offset value) = true →
    exec (.registerWriteOther dt offset value) s = .next (s.become (s.part.tick dt)) ∧
    s.part.readRegister offset = 0) ∧
  (∀ (dt : Nat) (value : Word) (fields code : BitVec 4) (l : LoopId) (s : State),
    let p := s.part.tick dt
    p.resetHeld = false → p.resetting = true →
      exec (.maskWrite dt value) s = .next { s with part := { p with mask := value } } ∧
      p.readRegister 0x0C = p.mask ∧
      exec (hostCommand code dt l (.written fields)) s = .next { s with part := p } ∧
      exec (.softReset dt (fields ++ code)) s = .next { s with part := p } ∧
      p.readRegister 0x04 = 0x80000000 ∧
      exec (.areaWrite dt value) s = .next { s with part := p } ∧
      p.readRegister 0x00 = p.area ++ (0 : BitVec 12) ∧
      exec (.causeWrite dt value) s = .next { s with part := p } ∧ p.readRegister 0x08 = 0 ∧
      exec (.windowPointerWrite dt value) s = .next { s with part := p } ∧ p.readRegister 0x10 = 0 ∧
      exec (.windowDataWrite dt value) s = .next { s with part := p } ∧ p.readRegister 0x14 = 0 ∧
      exec (.windowDataRead dt) s = .next { s with part := { p with busRead := 0 } })


/-! ### The commands of CONTROL -/

/-- A command that R125 does not take in the state of its loop, or whose code names no command, raises REFUSED
for its loop and changes nothing else, but that the write's field for the other loop goes into that loop's slot;
for a STOP that comes while TESTDONE of the test before it is still to be raised, REFUSED is raised after that.
A command that an engine takes out of its slot has the effect it would have had as a CONTROL write of its own,
and empties the slot. A write that comes while a slot still holds a command waits, with no effect. The model's
choices: logs 6, 27 and 53. -/
def Obligations.RefusedAndLatchedCommands : Prop :=
  ∀ (dt : Nat) (l : LoopId) (code other : BitVec 4) (s : State),
    let p := (s.part.tick dt).setSlot (otherLoop l) (slotOf other)
    let testdoneWaits := (.raise .testdone) ∈ (p.eng l).sched
    ((s.part.tick dt).takesWrite = true → code ≠ 0 → p.takes l code = false →
      (¬ (code = 2 ∧ testdoneWaits) →
        exec (hostCommand code dt l (.written other)) s =
          .next (s.become { p with cause := p.cause ||| causeBit l .refused })) ∧
      (code = 2 → testdoneWaits →
        exec (hostCommand code dt l (.written other)) s =
          .next (s.become (p.modEng l fun e => { e with sched := e.sched ++ [.raise .refused] })))) ∧
    (s.part.live = true → code ≠ 0 → (s.part.eng l).ctl.slot = some code →
      (s.part.eng (otherLoop l)).ctl.slot = slotOf other →
      exec (hostCommand code dt l .latched) s =
        exec (hostCommand code dt l (.written other))
          { s with part := (s.part.setSlot l none).setSlot (otherLoop l) none }) ∧
    (s.part.live = true → s.part.latchFree = false →
      exec (hostCommand code dt l (.written other)) s = .next (s.become (s.part.tick dt)))


/-- START in OFF: the loop enters STARTING, its Framer starts with the receiver in DISCARD, and the reads of
the global descriptor and of the loop descriptor come first. WAKE in QUIET: the wake record is filled with reason HOST,
WAKE is raised, and the loop enters STARTING by a wake entry, its first-cycle flag clear and a keepalive held for an
idle line being discarded. The model's choices: logs 6 and 17. -/
def Obligations.StartAndWakeCommands : Prop :=
  ∀ (dt : Nat) (l : LoopId) (other : BitVec 4) (s : State),
    let p := (s.part.tick dt).setSlot (otherLoop l) (slotOf other)
    (s.part.tick dt).takesWrite = true →
      ((p.eng l).ctl.state = .off → p.atTransfer l = true →
        exec (.start dt l (.written other)) s =
          .next (s.become (p.modEng l fun e =>
            { e with
              ctl := { e.ctl with state := .starting, retimePending := false, startFromOff := true
                                  validated := false }
              framer := { running := true, receiver := .discard, held := none, sending := none
                          activity := none, markSince := p.now }
              mon := { e.mon with carrierSince := if e.mon.biasOk then none else some p.now }
              cyc := { e.cyc.stop with turn := none }
              xu := ExchangeUnit.idle
              sched := e.sched ++ [.readGlobal, .readLoopHost .starting, .startValidate] }))) ∧
      ((p.eng l).ctl.state = .quiet → p.settled l = true →
        exec (.wake dt l (.written other)) s =
          .next (s.become (p.wokenState l
            { reason := .host, source := 0, destination := 0, filter := none, triggered := 0 })))

/-- STOP and QUIET. STOP in ROLLCALL, RUNNING or, once validated, STARTING, and QUIET in RUNNING with setup-complete
set: the loop enters DRAINING with the target, the step or turn under way stays, and the part half is to be
written. STOP in QUIET, in DOWN or JAMMED with its settlements done, in FAULT and in a running TEST: the loop
enters OFF. The part half is written but in FAULT; in TEST the status becomes STOPPED, a frame in flight is lost,
and TESTDONE follows. A STARTING or TEST entry that is not yet validated is given up: the loop enters OFF, in TEST
with the part half written, at once or, while a transfer of the entry is in progress, after it; what an earlier
event has still to write and raise is made. Once a TEST entry is validated its STOP also makes the status STOPPED
and raises TESTDONE. In DRAINING the target becomes OFF and the part half is to be written. In DOWN or JAMMED with
settlements still to make, these are made and the loop then enters OFF; of the entry's write and cause only what has
begun is made, and a REFUSED owed for a refused RETIME comes after the write of OFF (log 20). The model's choices:
logs 6, 19, 20, 23, 35 (no part half is written for the stations that a STARTING so cut short has reset), 41, 52 (after
validation a keepalive still on the line runs to its end) and 55 (before it, until the transfer in progress has
ended). -/
def Obligations.StopAndQuietCommands : Prop :=
  ∀ (dt : Nat) (l : LoopId) (other : BitVec 4) (s : State),
    let p := (s.part.tick dt).setSlot (otherLoop l) (slotOf other)
    let e := p.eng l
    let state := e.ctl.state
    let draining := fun target => p.modEng l fun e =>
      { e.dropHeld .beacon with
        ctl := { e.ctl with state := .draining, drainTarget := some target, rollRequest := false }
        cyc := { e.cyc.stop with turn := e.cyc.turn }
        mon := { e.mon with silenceMet := false }
        sched := (keepStep e.sched).filter fun op => op != .rollEnd
        urgent := e.urgent ++ [.writeLoopHalf] }
    let answers := fun q : Part => exec (.stop dt l (.written other)) s = .next (s.become q)
    let withSched := fun ops : List SchedOp => p.modEng l fun e => { e with sched := ops }
    let entering := (state = .starting ∨ (state = .test ∧ e.enteringTest = true))
    let last : SchedOp := if state = .starting then .startAbort else .testAbort
    let follow : List SchedOp := if state = .starting then [] else [.writeLoopHalf]
    (s.part.tick dt).takesWrite = true →
      (p.settled l = true →
        (state = .rollcall ∨ state = .running ∨ (state = .starting ∧ e.ctl.validated = true) →
          answers (draining .off)) ∧
        (state = .running → p.screening.wakeConfig.setupComplete = true →
          exec (.quiet dt l (.written other)) s = .next (s.become (draining .quiet))) ∧
        (state = .draining →
          answers (p.modEng l fun e =>
            { e with ctl := { e.ctl with drainTarget := some .off }
                     urgent := e.urgent ++ [.writeLoopHalf] }))) ∧
      (p.atTransfer l = true →
        (state = .quiet → answers (p.offState l [.writeLoopHalf])) ∧
        (state = .down ∨ state = .jammed → e.sched = [] →
          answers (p.offState l [.writeLoopHalf, .raiseRetimeRefused])) ∧
        (∀ ops c, state = .down ∨ state = .jammed →
          e.sched = ops ++ [.writeLoopHalf, .raise c, .raiseRetimeRefused] → .enterOff ∉ ops →
          (ops ≠ [] → answers (withSched (ops ++ [.enterOff]))) ∧
          (ops = [] → p.schedTransferring l = true → answers (withSched (e.sched ++ [.enterOff]))) ∧
          (ops = [] → p.schedTransferring l = false →
            answers (Part.offState l [.writeLoopHalf, .raiseRetimeRefused] (withSched [])))) ∧
        (state = .fault → answers (p.offState l [])) ∧
        (state = .test → e.enteringTest = false →
          answers (Part.offState l [.writeLoopHalf, .raise .testdone]
            { p with testUnit := { p.testUnit with
                status := .stopped, copy := []
                lost := if p.testUnit.copy = [] then p.testUnit.lost else satInc p.testUnit.lost } })) ∧
        (∀ ahead op rest, entering → e.ctl.validated = false → e.sched = ahead ++ op :: rest → ahead ≠ [] →
          (∀ o ∈ ahead, o.ofEntry = false) → op.ofEntry = true →
          answers (Part.offState l follow (withSched ahead)))) ∧
      (entering → e.ctl.validated = false →
        (e.sched.head?.all SchedOp.ofEntry = true → p.schedTransferring l = false →
          answers (Part.offState l follow (withSched []))) ∧
        (∀ op rest, e.sched = op :: rest → op.ofEntry = true → p.schedTransferring l = true →
          (p.schedAction l op).isSome = true → answers (withSched [op, last]))) ∧
      (state = .test → e.enteringTest = true → e.ctl.validated = true →
        (p.schedTransferring l = false →
          answers (Part.offState l [.writeLoopHalf, .raise .testdone]
            { withSched [] with testUnit := { p.testUnit with status := .stopped } })) ∧
        (∀ op rest, e.sched = op :: rest → p.schedTransferring l = true → (p.schedAction l op).isSome = true →
          answers (withSched [op, .testAbort])))


/-- ROLLCALL in RUNNING: the request flag is set, and nothing else while work of the Scheduler is under
way; otherwise the loop enters ROLLCALL with its roll list, or goes on to a new grid of RUNNING and ROLLDONE
when the list is empty. RETIME in RUNNING, ROLLCALL, DOWN or JAMMED sets RETIME pending and nothing else. TEST in OFF
with the Test Pattern Unit free: the loop claims the unit, enters TEST with its Framer started, and reads its
descriptor. The model's choices: logs 6, 17 and 38. -/
def Obligations.RollcallRetimeAndTestCommands : Prop :=
  ∀ (dt : Nat) (l : LoopId) (other : BitVec 4) (s : State),
    let p := (s.part.tick dt).setSlot (otherLoop l) (slotOf other)
    let e := p.eng l
    let state := e.ctl.state
    (s.part.tick dt).takesWrite = true →
      (state = .running → p.settled l = true →
        (e.cyc.turn.isSome = true ∨ e.sched ≠ [] ∨ e.cyc.phase = .boundary ∨ e.isSending .beacon = true) →
        exec (.rollcall dt l (.written other)) s =
          .next (s.become (p.modEng l fun e => { e with ctl := { e.ctl with rollRequest := true } }))) ∧
      (state = .running → e.cyc.turn = none → e.sched = [] → e.cyc.phase ≠ .boundary →
        e.isSending .beacon = false →
        exec (.rollcall dt l (.written other)) s = .next (s.become (p.rollcallState l []))) ∧
      (state = .running ∨ state = .rollcall ∨ state = .down ∨ state = .jammed →
        exec (.retime dt l (.written other)) s =
          .next (s.become (p.modEng l fun e => { e with ctl := { e.ctl with retimePending := true } }))) ∧
      (state = .off → p.testUnit.owner = none → p.atTransfer l = true →
        exec (.lineTest dt l (.written other)) s =
          .next (s.become (Part.modEng l
            (fun e =>
              { e with
                ctl := { e.ctl with state := .test, validated := false }
                framer := { running := true, receiver := .discard, held := none, sending := none
                            activity := none, markSince := p.now }
                mon := { e.mon with carrierSince := if e.mon.biasOk then none else some p.now }
                sched := e.sched ++ [.readLoopHost .testing, .testValidate] })
            { p with testUnit := { p.testUnit with owner := some l } })))

/-! ### Events of the line -/

/-- BIAS_OK going absent starts the carrier measure of a running Framer and ends the presence measure;
becoming present it ends the carrier measure and, in DOWN after the hold, starts the presence measure. An activity
start after 2 C of mark begins the jam measure; in QUIET with wake-on-energy set it also wakes the loop with
reason ENERGY, which an activity that began before the entry does not. The model's choices: logs 3 and 45. -/
def Obligations.BiasAndActivity : Prop :=
  ∀ (dt : Nat) (l : LoopId) (s : State),
    let p := s.part.tick dt
    let e := p.eng l
    let record : WakeRecord :=
      { reason := .energy, source := 0, destination := 0, filter := none, triggered := 0 }
    let screening := match l with
      | .A => { p.screening with wakeA := some record }
      | .B => { p.screening with wakeB := some record }
    (exec (.biasOkLoss dt l) s =
        .next (s.become (p.modEng l fun e =>
          { e with mon :=
            if e.mon.biasOk then
              { e.mon with biasOk := false, presenceSince := none
                           carrierSince := if e.framer.running then some p.now else none }
            else e.mon })) ∧
      exec (.biasOkRestore dt l) s =
        .next (s.become (p.modEng l fun e =>
          { e with mon :=
            if e.mon.biasOk then e.mon
            else
              { e.mon with biasOk := true, carrierSince := none
                           presenceSince := if e.ctl.state = .down ∧ e.mon.holdPassed then some p.now
                                            else none } }))) ∧
    (p.live = true → e.framer.running = true → e.internalReturn = false → e.framer.sending = none →
    e.framer.activity = none → e.framer.markSince + 2 * e.charTime ≤ p.now → p.settled l = true →
      (¬ (e.ctl.state = .quiet ∧ p.screening.wakeConfig.wakeOnEnergy = true ∧ e.quietFrom ≤ p.now) →
        exec (.activityStart dt l) s =
          .next (s.become (p.modEng l fun e =>
            { e with framer := { e.framer with activity := some p.now, markSince := p.now + e.charTime } }))) ∧
      (e.ctl.state = .quiet → p.screening.wakeConfig.wakeOnEnergy = true → e.quietFrom ≤ p.now →
        exec (.activityStart dt l) s =
          .next (s.become (Part.modEng l
            (fun e =>
              { Engine.dropHeld .keepalive
                  { e with framer := { e.framer with
                      activity := some p.now, markSince := p.now + e.charTime, receiver := .discard } } with
                ctl := { e.ctl with state := .starting, retimePending := false, startFromOff := false
                                    validated := false }
                cyc := { e.cyc.stop with turn := none, firstCycle := false }
                xu := ExchangeUnit.idle
                sched := e.sched ++ [.readGlobal, .readLoopHost .starting, .startValidate] })
            { p with screening := screening, cause := p.cause ||| causeBit l .wake }))))


/-- After 2 C of mark an activity has ended; a frame still being collected then suffers a framing error, which acts on
an attempt as CharacterTaken says of any, and the receiver is in DISCARD. After 4 C the line is idle: the receiver
leaves DISCARD, but not before an entry to STARTING from OFF or to TEST has latched the bit rate, a frame held for an
idle line is sent and read back, and an overlong reply that broke off has finished, as AttemptFailure says. In a test
of INTERNAL_RETURN the line is the internal path: a framing error there loses the test frame in flight, and a frame sent
is fed to the receiver, not read back (R153, R155). The model's choices: logs 3, 24 and 54 (a held cycle beacon is sent
in the announce window too). -/
def Obligations.LineAtMark : Prop :=
  ∀ (dt : Nat) (l : LoopId) (s : State),
    let p := s.part.tick dt
    let e := p.eng l
    let internal := e.ctl.state = .test ∧ e.ctl.validated = true ∧ e.cfg.testMode = 0
    p.live = true → e.framer.running = true → e.framer.sending = none → p.settled l = true →
      (e.framer.markSince + 2 * e.charTime ≤ p.now →
        (e.framer.activity.isSome = true → e.framer.receiver.collecting = false →
          exec (.activityEnd dt l) s =
            .next (s.become (p.modEng l fun e =>
              { e with framer := { e.framer with activity := none } }))) ∧
        (e.framer.receiver.collecting = true →
          let erred := fun e : Engine => Engine.countFrameError
            { e with framer := { e.framer with activity := none, receiver := .discard } }
          let answers := fun q : Part => exec (.activityEnd dt l) s = .next (s.become q)
          (internal → p.testUnit.copy = [] → answers (p.modEng l erred)) ∧
          (internal → p.testUnit.copy ≠ [] →
            answers (Part.testGoesOn l { p.testUnit with lost := satInc p.testUnit.lost } (p.modEng l erred))) ∧
          (¬ internal → e.xu.state = .idle ∨ e.xu.state = .sending ∨
            (∃ a, e.xu = { state := .awaiting, attempt := some a } ∧ a.timeoutPassed = false) →
            answers (p.modEng l erred)) ∧
          (∀ a, ¬ internal → e.xu = { state := .receiving, attempt := some a } ∨
            (e.xu = { state := .awaiting, attempt := some a } ∧ a.timeoutPassed = true) →
            let failed := (p.modEng l erred).attemptFailed l
            failed.settled l = true → answers failed) ∧
          (∀ a, ¬ internal → e.xu = { state := .skipping, attempt := some a } →
            answers (p.modEng l fun e =>
              { erred e with xu := { e.xu with attempt := some { a with skipBroken := true } } })))) ∧
      (e.framer.markSince + 4 * e.charTime ≤ p.now → e.framer.receiver.collecting = false →
        let unlatched := e.ctl.validated = false ∧
          (e.ctl.state = .test ∨ (e.ctl.state = .starting ∧ e.ctl.startFromOff = true))
        let receiver := if e.framer.receiver = .discard ∧ ¬ unlatched then .hunt else e.framer.receiver
        let rested := p.modEng l fun e =>
          { e with framer := { e.framer with activity := none, receiver := receiver } }
        let broken := ∃ a, e.xu = { state := .skipping, attempt := some a } ∧ a.skipBroken = true
        (broken →
          let finished := rested.overlongFinished l false
          (finished.eng l).framer.held = none → finished.settled l = true →
          exec (.lineIdle dt l) s = .next (s.become finished)) ∧
        (¬ broken → e.framer.held = none → exec (.lineIdle dt l) s = .next (s.become rested)) ∧
        (∀ f, ¬ broken → e.framer.held = some f →
          exec (.lineIdle dt l) s =
            .next (s.become (p.modEng l fun e =>
              { e with framer := { e.framer with
                  activity := none, receiver := if internal then receiver else .readback, held := none
                  sending := some { frame := f, start := p.now, readBack := 0 } } }))))

/-- A frame error is counted once in the totals and, in ROLLCALL, RUNNING and DRAINING, in the window errors;
the ERRORS criterion is met when these reach the threshold, if it is not 0. The model's choice: log 12. -/
def Obligations.FrameErrorCount : Prop :=
  ∀ e : Engine,
    let total := if e.mon.totalErrors = 65535 then 65535 else e.mon.totalErrors + 1
    let window := if e.mon.windowErrors = 255 then 255 else e.mon.windowErrors + 1
    e.countFrameError =
      if e.ctl.state = .rollcall ∨ e.ctl.state = .running ∨ e.ctl.state = .draining then
        { e with mon := { e.mon with
            totalErrors := total, windowErrors := window
            errorsMet := e.mon.errorsMet ∨ (e.cfg.errorThreshold ≠ 0 ∧ window = e.cfg.errorThreshold) } }
      else { e with mon := { e.mon with totalErrors := total } }

/-- A character by the receiver's state: in HUNT the lead begins a frame, and an awaited reply if its start bit came
in time, and anything else is a frame error; a lead whose start bit comes after the reply timeout, with the unit
waiting for an earlier character, ends the attempt as a failure and is taken as a frame of no attempt; in FRAME it
is stored, the two check characters too, a length above the allowance makes the reply of the expected source an
overlong one, whose rest is skipped, and a length above 96 or a bad stop bit is a frame error; in DISCARD it is
thrown away; and while the part sends it is read back, where a difference is a collision. A frame error ends an
attempt whose reply is being received as a failure, and one in AWAITING only if the timeout has passed; an overlong
reply it breaks off. A character that comes with no activity reported begins one at its start bit, which in QUIET
with wake-on-energy set wakes the loop after 2 C of mark, if it began in QUIET. The model's choices: logs 9, 11 and
45. -/
def Obligations.CharacterTaken : Prop :=
  ∀ (dt : Nat) (l : LoopId) (value : Byte) (stopOk : Bool) (s : State),
    let p := s.part.tick dt
    let e := p.eng l
    let start := p.now - e.charTime
    let marked := fun (r : Receiver) (e : Engine) =>
      { e with framer := { e.framer with
          receiver := r, markSince := p.now, activity := some (e.framer.activity.getD start) } }
    let wakes := e.ctl.state = .quiet ∧ p.screening.wakeConfig.wakeOnEnergy = true ∧ e.framer.activity = none ∧
      e.framer.markSince + 2 * e.charTime ≤ start ∧ e.quietFrom ≤ start
    let answers := fun q : Part => exec (.characterReceived dt l value stopOk) s = .next (s.become q)
    p.live = true → e.framer.running = true → e.internalReturn = false → p.settled l = true →
      (e.framer.sending = none → wakes →
        answers (Part.wokenState l
          { reason := .energy, source := 0, destination := 0, filter := none, triggered := 0 }
          (p.modEng l (marked .discard)))) ∧
      (e.framer.sending = none → ¬ wakes →
        (e.framer.receiver = .hunt → value = 0xA5 → stopOk = true →
          (∀ a, e.xu = { state := .awaiting, attempt := some a } → a.timeoutPassed = true →
            start ≤ a.endOfFrame + a.timeout) →
          answers (p.modEng l fun e =>
            { marked (.frame [0xA5]) e with
              xu := match e.xu with
                | { state := .awaiting, attempt := some a } =>
                  if start ≤ a.endOfFrame + a.timeout then
                    { state := .receiving
                      attempt := some { a with
                        latency := some (BitVec.ofNat 16 ((start - a.endOfFrame) / 250)) } }
                  else e.xu
                | _ => e.xu })) ∧
        (∀ a, e.framer.receiver = .hunt → value = 0xA5 → stopOk = true →
          e.xu = { state := .awaiting, attempt := some a } → a.timeoutPassed = true →
          a.endOfFrame + a.timeout < start →
          let failed := (p.modEng l (marked (.frame [0xA5]))).attemptFailed l
          failed.settled l = true → answers failed) ∧
        ((e.framer.receiver = .hunt ∧ (value ≠ 0xA5 ∨ stopOk = false)) ∨
          (∃ cs, e.framer.receiver = .frame cs ∧ frameComplete cs = false ∧
            (stopOk = false ∨ (cs.length = 4 ∧ 96 < value.toNat))) →
          let erred := fun e : Engine => Engine.countFrameError (marked .discard e)
          (e.xu.state = .idle ∨ e.xu.state = .sending ∨
            (∃ a, e.xu = { state := .awaiting, attempt := some a } ∧ a.timeoutPassed = false) →
            answers (p.modEng l erred)) ∧
          (∀ a, e.xu = { state := .receiving, attempt := some a } ∨
            (e.xu = { state := .awaiting, attempt := some a } ∧ a.timeoutPassed = true) →
            let failed := (p.modEng l erred).attemptFailed l
            failed.settled l = true → answers failed) ∧
          (∀ a, e.xu = { state := .skipping, attempt := some a } →
            answers (p.modEng l fun e =>
              { erred e with xu := { e.xu with attempt := some { a with skipBroken := true } } }))) ∧
        (∀ cs, e.framer.receiver = .frame cs → frameComplete cs = false →
          (stopOk = true → cs.length = 4 → value.toNat ≤ 96 →
            answers (p.modEng l fun e =>
              { marked (.frame (cs ++ [value])) e with
                xu := match e.xu with
                  | { state := .receiving, attempt := some a } =>
                    if byteAt cs 1 = 0 ∧ byteAt cs 2 = a.source ∧ a.allowance.toNat < value.toNat then
                      { e.xu with state := .skipping }
                    else e.xu
                  | _ => e.xu })) ∧
          (stopOk = true → 5 ≤ cs.length → cs.length < 5 + (byteAt cs 4).toNat →
            answers (p.modEng l fun e =>
              { marked (.frame (cs ++ [value])) e with
                xu := match e.xu with
                  | { state := .receiving, attempt := some a } =>
                    { e.xu with attempt := some { a with buffer := a.buffer ++ [value] } }
                  | _ => e.xu })) ∧
          (stopOk = true → cs.length < 4 ∨ (5 ≤ cs.length ∧ 5 + (byteAt cs 4).toNat ≤ cs.length) →
            answers (p.modEng l (marked (.frame (cs ++ [value])))))) ∧
        (e.framer.receiver = .discard → answers (p.modEng l (marked .discard)))) ∧
      (∀ x, e.framer.sending = some x → x.readBack < x.frame.chars.length →
        (stopOk = true → byteAt x.frame.chars x.readBack = value →
          answers (p.modEng l fun e =>
            { e with framer := { e.framer with
                sending := some { x with readBack := x.readBack + 1 } } })) ∧
        (stopOk = false ∨ byteAt x.frame.chars x.readBack ≠ value →
          exec (.characterReceived dt l value stopOk) s = exec (.collision dt l) s))

/-- At the frame-end event the receiver is back in HUNT. A frame with bad control bits or a bad check is a frame
error, and a failure of the attempt whose reply it is; so is a valid reply of a wrong destination, source or kind. A
frame that an overlong reply was finishes that reply, as AttemptFailure says. A valid frame that no attempt awaits
is discarded in DOWN and JAMMED, and in TEST a frame on the line that takes no reply window, with no filter judged or
updated. In QUIET it meets the wake screen: the filters that match are updated, and a reason fills the wake record,
raises WAKE and takes the loop to STARTING, with nothing caught. The model's choice: log 11. -/
def Obligations.FrameEndJudged : Prop :=
  ∀ (dt : Nat) (l : LoopId) (cs : List Byte) (s : State),
    let p := s.part.tick dt
    let e := p.eng l
    let f := RxFrame.ofChars cs
    let hunting := fun e : Engine => { e with framer := { e.framer with receiver := .hunt } }
    let hits := p.triggeredFilters l .wake f
    let store := p.screening.hitAll hits
    let answers := fun q : Part => exec (.frameEnd dt l) s = .next (s.become q)
    let kind := f.control.extractLsb' 0 4
    let allowed := fun k : AttemptKind => match k with
      | .poll => kind = 9 ∨ kind = 11 ∨ kind = 12
      | .put | .relayStart => kind = 10 ∨ kind = 11 ∨ kind = 12
      | .probe => kind = 13 ∨ kind = 11
      | .roll => kind = 14
      | .test => kind = 0
      | .relayCollect => kind = 9 ∨ kind = 11
    let erred := p.modEng l fun e => (hunting e).countFrameError
    p.live = true → e.internalReturn = false → p.settled l = true →
    e.framer.receiver = .frame cs → frameComplete cs = true →
      (frameValid cs = false →
        (e.xu.state = .idle ∨ e.xu.state = .sending ∨
          (∃ a, e.xu = { state := .awaiting, attempt := some a } ∧ a.timeoutPassed = false) →
          answers erred) ∧
        (∀ a, e.xu = { state := .receiving, attempt := some a } ∨
          (e.xu = { state := .awaiting, attempt := some a } ∧ a.timeoutPassed = true) →
          (erred.attemptFailed l).settled l = true → answers (erred.attemptFailed l)) ∧
        (∀ a, e.xu = { state := .skipping, attempt := some a } →
          (erred.overlongFinished l false).settled l = true → answers (erred.overlongFinished l false))) ∧
      (∀ a, frameValid cs = true → e.xu = { state := .receiving, attempt := some a } →
        f.destination ≠ 0 ∨ f.source ≠ a.source ∨ ¬ allowed a.kind →
        let failed := (p.modEng l hunting).attemptFailed l
        failed.settled l = true → answers failed) ∧
      (∀ a, frameValid cs = true → e.xu = { state := .skipping, attempt := some a } →
        let finished := (p.modEng l hunting).overlongFinished l true
        finished.settled l = true → answers finished) ∧
      (frameValid cs = true → e.xu.state ≠ .receiving → e.xu.state ≠ .skipping →
        (e.ctl.state = .down ∨ e.ctl.state = .jammed ∨ e.ctl.state = .test → answers (p.modEng l hunting)) ∧
        (e.ctl.state = .quiet →
          (p.wakeReason l f hits = none → answers (Part.modEng l hunting { p with screening := store })) ∧
          (∀ r, p.wakeReason l f hits = some r →
            let record : WakeRecord :=
              { reason := r, source := f.source, destination := f.destination
                filter := if r = .filter then hits.head? else none, triggered := triggeredFlags hits }
            let filled := match l with
              | .A => { store with wakeA := some record }
              | .B => { store with wakeB := some record }
            answers (Part.modEng l
              (fun e =>
                { (hunting e).dropHeld .keepalive with
                  ctl := { e.ctl with state := .starting, retimePending := false, startFromOff := false
                                      validated := false }
                  cyc := { e.cyc.stop with turn := none, firstCycle := false }
                  xu := ExchangeUnit.idle
                  sched := e.sched ++ [.readGlobal, .readLoopHost .starting, .startValidate] })
              { p with screening := filled, cause := p.cause ||| causeBit l .wake }))))

/-- The announce screen: a valid unsolicited frame updates every filter that matches it; accepted into an
EMPTY catch buffer it begins a walk, accepted while the buffer is HELD it is a drop, and it is discarded
when no rule accepts it. The model's choice: log 11. -/
def Obligations.AnnounceScreen : Prop :=
  ∀ (dt : Nat) (l : LoopId) (cs : List Byte) (s : State),
    let p := s.part.tick dt
    let e := p.eng l
    let f := RxFrame.ofChars cs
    let hits := p.triggeredFilters l .announce f
    let q := { p with screening := p.screening.hitAll hits }
    p.live = true → e.internalReturn = false → p.settled l = true →
    e.framer.receiver = .frame cs → frameComplete cs = true → frameValid cs = true →
    e.xu.state ≠ .receiving → e.xu.state ≠ .skipping →
    e.ctl.state = .starting ∨ e.ctl.state = .rollcall ∨ e.ctl.state = .running ∨ e.ctl.state = .draining →
      (p.announceReason l f hits = none →
        exec (.frameEnd dt l) s =
          .next (s.become (q.modEng l fun e =>
            { e with framer := { e.framer with receiver := .hunt } }))) ∧
      (∀ r, p.announceReason l f hits = some r →
        (e.catcher.buffer = none →
          exec (.frameEnd dt l) s =
            .next (s.become (q.modEng l fun e =>
              { e with
                framer := { e.framer with receiver := .hunt }
                catcher := { e.catcher with
                  accepted := satInc e.catcher.accepted
                  buffer := some
                    { destination := f.destination, source := f.source, control := f.control
                      payload := f.payload, reason := r
                      filter := if r = .filter then hits.head? else none
                      triggered := triggeredFlags hits
                      cycle := e.rep.cycleNumber.setWidth 16 }
                  walk := some (match e.catcher.parked with
                    | none => .readHead
                    | some k => .readLink k)
                  poolBase := e.poolBase, poolSize := e.poolSize } }))) ∧
        (e.catcher.buffer.isSome = true →
          exec (.frameEnd dt l) s =
            .next (s.become (q.modEng l fun e =>
              { e with
                framer := { e.framer with receiver := .hunt }
                catcher := { e.catcher with
                  accepted := satInc e.catcher.accepted, drops := satInc e.catcher.drops }
                urgent := e.urgent ++ [.writeLoopHalf, .raise .starved] }))))

/-- The first of the four acceptance rules that holds gives the reason: STATION, GROUP, ALLCALL, FILTER; and of
the rules of the wake screen for a frame MARKER, STATION, GROUP, ALLCALL, FILTER. The station looked for is the
admitted direct station of the loop with the source's address; of several, the first. -/
def Obligations.AcceptanceRules : Prop :=
  ∀ (p : Part) (l : LoopId) (f : RxFrame) (hits : List (Fin 16)),
    let matching := fun i : StationIx =>
      (p.ctx i).owner = some l ∧
      ((p.ctx i).state = .ready ∨ (p.ctx i).state = .active ∨ (p.ctx i).state = .silent ∨
        (p.ctx i).state = .absent ∨ (p.ctx i).state = .halted) ∧
      (p.ctx i).binding.coupler = 0xFF ∧ (p.ctx i).binding.lineAddress = f.source
    let found := fun i : StationIx => matching i ∧ ∀ j, j < i → ¬ matching j
    (let station := f.control.extractLsb' 0 4 = 15 ∧ f.destination = 0 ∧
      ∃ i, found i ∧ (p.ctx i).fresh.acceptAnnounce = true
    let group := ∃ g : Fin 15, f.destination.toNat = 240 + g.val ∧
      p.screening.groups[g].announceAccept = true
    let allCall := f.destination = 255 ∧ p.screening.wakeConfig.allCallAccept = true
    (station → p.announceReason l f hits = some .station) ∧
    (¬ station → group → p.announceReason l f hits = some .group) ∧
    (¬ station → ¬ group → allCall → p.announceReason l f hits = some .allCall) ∧
    (¬ station → ¬ group → ¬ allCall → hits ≠ [] → p.announceReason l f hits = some .filter) ∧
    (¬ station → ¬ group → ¬ allCall → hits = [] → p.announceReason l f hits = none)) ∧
    (let marker := holdsRun (wakeMarker (p.eng l).cfg.identity) f.payload = true
    let station := ∃ i, found i ∧ (p.ctx i).fresh.wake = true
    let group := ∃ g : Fin 15, f.destination.toNat = 240 + g.val ∧ p.screening.groups[g].wake = true
    let allCall := f.destination = 255 ∧ p.screening.wakeConfig.wakeAllCall = true
    (marker → p.wakeReason l f hits = some .marker) ∧
    (¬ marker → station → p.wakeReason l f hits = some .station) ∧
    (¬ marker → ¬ station → group → p.wakeReason l f hits = some .group) ∧
    (¬ marker → ¬ station → ¬ group → allCall → p.wakeReason l f hits = some .allCall) ∧
    (¬ marker → ¬ station → ¬ group → ¬ allCall → hits ≠ [] → p.wakeReason l f hits = some .filter) ∧
    (¬ marker → ¬ station → ¬ group → ¬ allCall → hits = [] → p.wakeReason l f hits = none))

/-- A valid DATA with the SEQ the POLL carried, or a valid ACK to a PUT, completes the record OK: the payload
is written if there is one, then the result fields, DONE, the station's part half and the causes; the
latency is committed and offered to the trap. The model's choice: log 11. -/
def Obligations.ReplyCompletes : Prop :=
  ∀ (dt : Nat) (l : LoopId) (cs : List Byte) (a : Attempt) (i : StationIx) (k : RecordIx) (latency : BitVec 16)
    (s : State),
    let p := s.part.tick dt
    let e := p.eng l
    let c := p.ctx i
    let f := RxFrame.ofChars cs
    let exceeds := e.cfg.trapThreshold ≠ 0 ∧ e.cfg.trapThreshold.toNat < latency.toNat
    let completes := fun (payload : List Byte) (flip : SeqFlip) =>
      exec (.frameEnd dt l) s =
        .next (s.become (Part.modEng l
          (fun e =>
            { e with
              framer := { e.framer with receiver := .hunt }
              xu := ExchangeUnit.idle
              cyc := { e.cyc with answered := true
                                  turn := e.cyc.turn.map fun t => { t with stage := .writes } }
              trap :=
                if exceeds then
                  (if e.trap.armed then
                    { e.trap with armed := false, station := BitVec.ofNat 6 i.val, latency := latency
                                  cycle := e.rep.cycleNumber.setWidth 16 }
                  else { e.trap with missed := satInc e.trap.missed })
                else e.trap
              sched :=
                (if payload = [] then [] else [.writePayload k payload])
                ++ [.writeResult i k .ok (BitVec.ofNat 8 payload.length), .writeDone i k flip .ready,
                    .writeStationHalf i]
                ++ (if c.notify then [.raise .exdone] else [])
                ++ (if exceeds ∧ e.trap.armed then [.raise .trap] else [])
                ++ [.endTurn] })
          ((p.releaseRelay i).modCtx i fun c =>
            { c with
              failures := 0, syncPending := false, recLatency := latency
              maxLatency := if c.maxLatency.toNat < latency.toNat then latency else c.maxLatency })))
    p.live = true → e.internalReturn = false → e.sched = [] →
    e.framer.receiver = .frame cs → frameComplete cs = true → frameValid cs = true →
    e.xu = { state := .receiving, attempt := some a } → a.station = some i → a.latency = some latency →
    latency.toNat < 65535 → c.inHand = some k → f.destination = 0 → f.source = a.source →
      (a.kind = .poll → f.control.extractLsb' 0 4 = 9 → f.control.getLsbD 4 = a.seq →
        completes a.buffer .rx) ∧
      (a.kind = .put → f.control.extractLsb' 0 4 = 10 → completes [] .tx)

/-- The other valid replies of a direct station: a DATA with the other SEQ is a
duplicate; a HOLD adds one to the record's holds and ends it HELD at the hold limit; READY leads to the PUT
in the same turn; REFUSE ends the record REFUSED and, with the DONE write, halts the
station. Each commits the latency and offers it to the trap, whose cause comes after the other causes. The model's
choice: log 11. -/
def Obligations.OtherReplies : Prop :=
  ∀ (dt : Nat) (l : LoopId) (cs : List Byte) (a : Attempt) (i : StationIx) (k : RecordIx) (latency : BitVec 16)
    (r : RecordCopy) (s : State),
    let p := s.part.tick dt
    let e := p.eng l
    let c := p.ctx i
    let f := RxFrame.ofChars cs
    let kind := f.control.extractLsb' 0 4
    let held := if c.recHolds = 255 then 255 else c.recHolds + 1
    let replied := fun (q : Part) (ops : List SchedOp) (last : SchedOp) (change : Context → Context) =>
      exec (.frameEnd dt l) s =
        .next (s.become (Part.modEng l
          (fun e =>
            { e with
              framer := { e.framer with receiver := .hunt }
              xu := ExchangeUnit.idle
              cyc := { e.cyc with answered := true
                                  turn := e.cyc.turn.map fun t => { t with stage := .writes } }
              trap := e.trapAfter i latency
              sched := ops ++ e.trapCause latency ++ [last] })
          (q.modCtx i fun c => change
            { c with
              failures := 0, syncPending := false, recLatency := latency
              maxLatency := if c.maxLatency.toNat < latency.toNat then latency else c.maxLatency })))
    p.live = true → e.internalReturn = false → e.sched = [] →
    e.framer.receiver = .frame cs → frameComplete cs = true → frameValid cs = true →
    e.xu = { state := .receiving, attempt := some a } → a.station = some i → a.latency = some latency →
    latency.toNat < 65535 → c.inHand = some k → c.copy = some r → f.destination = 0 → f.source = a.source →
      (a.kind = .poll → kind = 9 → f.control.getLsbD 4 ≠ a.seq →
        replied p [.writeStationHalf i] .endTurn fun c =>
          { c with phase := .retry, recDuplicates := satInc c.recDuplicates
                   duplicates := satInc c.duplicates }) ∧
      (kind = 11 → a.kind = .poll ∨ a.kind = .put ∨ a.kind = .probe →
        (r.holdLimit = 0 ∨ held ≠ r.holdLimit →
          replied p [.writeStationHalf i] .endTurn fun c =>
            { c with recHolds := held, phase := if a.kind = .poll then .retry else .probe }) ∧
        (r.holdLimit ≠ 0 → held = r.holdLimit →
          replied (p.releaseRelay i)
            [.writeResult i k .held 0, .writeDone i k .none .ready, .writeStationHalf i, .raise .exfault]
            .endTurn fun c => { c with recHolds := held })) ∧
      (a.kind = .probe → kind = 13 →
        replied p [.writeStationHalf i] (.followOn i) fun c => { c with phase := .retry }) ∧
      (a.kind = .poll ∨ a.kind = .put → kind = 12 →
        replied (p.releaseRelay i)
          [.writeResult i k .refused 0, .writeDone i k .none (.halted .refused), .writeStationHalf i,
           .raise .exfault, .raise .halted]
          .endTurn id)

/-- A well-formed DATA of a coupler to a collect. It is a valid reply of the coupler, its latency being offered to
the trap, and it carries the inner outcome of the relayed station: inner DATA with the SEQ sent, or an inner ACK,
completes the record OK; inner DATA with the other SEQ is a duplicate, inner HOLD adds one to the holds, and NONE,
like a wrong inner kind (DATA to a PUT, ACK to a POLL), is an attempt failure that leaves SYNC pending as it is. All
of these free the relay entry and leave the record in RELAY_START, but that a HOLD at the hold limit ends it HELD
and a failure at the retry limit NO_ANSWER, with the station SILENT; inner REFUSE ends it REFUSED and, with the DONE
write, halts the station. The model's choices: logs 11, 31 and 39 (a wrong inner kind is no valid reply of the
station). -/
def Obligations.CollectReply : Prop :=
  ∀ (dt : Nat) (l : LoopId) (cs : List Byte) (a : Attempt) (i j : StationIx) (k : RecordIx)
    (latency : BitVec 16) (r : RecordCopy) (s : State),
    let p := s.part.tick dt
    let e := p.eng l
    let c := p.ctx i
    let f := RxFrame.ofChars cs
    let b := a.buffer
    let inner := byteAt b 1
    let kind := inner.extractLsb' 0 4
    let held := if c.recHolds = 255 then 255 else c.recHolds + 1
    let coupler : List SchedOp :=
      if (p.ctx j).failures = 0 ∧ (p.ctx j).syncPending = false then [] else [.writeStationHalf j]
    let replied := fun (ops : List SchedOp) (change : Context → Context) =>
      exec (.frameEnd dt l) s =
        .next (s.become (Part.modEng l
          (fun e =>
            { e with
              framer := { e.framer with receiver := .hunt }
              xu := ExchangeUnit.idle
              cyc := { e.cyc with answered := true
                                  turn := e.cyc.turn.map fun t => { t with stage := .writes } }
              trap := e.trapAfter i latency
              sched := ops ++ coupler ++ e.trapCause latency ++ [.endTurn] })
          (Part.modCtx i
            (fun c => change
              { c with recLatency := latency
                       maxLatency := if c.maxLatency.toNat < latency.toNat then latency
                                     else c.maxLatency })
            ((p.releaseRelay i).modCtx j fun c => { c with failures := 0, syncPending := false }))))
    let heard := fun c : Context => { c with failures := 0, syncPending := false }
    let completes := fun (payload : List Byte) (flip : SeqFlip) =>
      replied
        ((if payload = [] then [] else [.writePayload k payload])
          ++ [.writeResult i k .ok (BitVec.ofNat 8 payload.length), .writeDone i k flip .ready,
              .writeStationHalf i]
          ++ (if c.notify then [.raise .exdone] else []))
        heard
    p.live = true → e.internalReturn = false → e.sched = [] →
    e.framer.receiver = .frame cs → frameComplete cs = true → frameValid cs = true →
    e.xu = { state := .receiving, attempt := some a } → a.kind = .relayCollect → a.station = some i →
    a.latency = some latency → latency.toNat < 65535 → c.inHand = some k → c.copy = some r →
    c.binding.coupler.toNat = j.val → f.destination = 0 → f.source = a.source →
    f.control.extractLsb' 0 4 = 9 →
    3 ≤ b.length → (byteAt b 2).toNat = b.length - 3 → byteAt b 0 = c.binding.lineAddress →
    inner.extractLsb' 6 2 = 0 →
      (r.kind = 1 → kind = 9 → inner.getLsbD 4 = a.seq → completes (b.drop 3) .rx) ∧
      (r.kind ≠ 1 → kind = 10 → b.length = 3 → completes [] .tx) ∧
      (r.kind = 1 → kind = 9 → inner.getLsbD 4 ≠ a.seq →
        replied [.writeStationHalf i] fun c =>
          { heard c with phase := .relayStart, recDuplicates := satInc c.recDuplicates
                         duplicates := satInc c.duplicates }) ∧
      (kind = 11 → b.length = 3 →
        (r.holdLimit = 0 ∨ held ≠ r.holdLimit →
          replied [.writeStationHalf i] fun c => { heard c with recHolds := held, phase := .relayStart }) ∧
        (r.holdLimit ≠ 0 → held = r.holdLimit →
          replied [.writeResult i k .held 0, .writeDone i k .none .ready, .writeStationHalf i, .raise .exfault]
            fun c => { heard c with recHolds := held })) ∧
      (kind = 12 → b.length = 3 →
        replied [.writeResult i k .refused 0, .writeDone i k .none (.halted .refused), .writeStationHalf i,
                 .raise .exfault, .raise .halted] heard) ∧
      ((kind = 0 ∧ b.length = 3) ∨ (r.kind = 1 ∧ kind = 10 ∧ b.length = 3) ∨ (r.kind ≠ 1 ∧ kind = 9) → i ≠ j →
        let attempts := fun c : Context => if c.recAttempts.toNat < 7 then c.recAttempts + 1 else c.recAttempts
        (c.failures.toNat + 1 < c.fresh.retryLimit.toNat →
          replied [.writeStationHalf i] fun c =>
            { c with phase := .relayStart, failures := c.failures + 1, recAttempts := attempts c }) ∧
        (c.fresh.retryLimit.toNat ≤ c.failures.toNat + 1 →
          replied [.writeResult i k .noAnswer 0, .writeDone i k .none .silent, .writeStationHalf i, .raise .exfault]
            fun c => { c with failures := 0, recAttempts := attempts c }))

/-- The replies of a coupler that carry no inner outcome. The latency of each valid one is offered to the trap. To a
RELAY_START: ACK puts the entry in COLLECTING and the record in RELAY_COLLECT; HOLD frees the entry, adds one to the
record's holds and leaves it in RELAY_START or, at the hold limit, ends it HELD; REFUSE ends it REFUSED and halts
the station. To a collect: HOLD adds one to the waiting count, and the record stays in RELAY_COLLECT or, its
patience over, ends RELAY_LOST; a DATA that is not well-formed is an attempt failure. The model's choices: logs 11
and 31. -/
def Obligations.RelayReplies : Prop :=
  ∀ (dt : Nat) (l : LoopId) (cs : List Byte) (a : Attempt) (i j : StationIx) (k : RecordIx)
    (latency : BitVec 16) (r : RecordCopy) (s : State),
    let p := s.part.tick dt
    let e := p.eng l
    let c := p.ctx i
    let f := RxFrame.ofChars cs
    let b := a.buffer
    let kind := f.control.extractLsb' 0 4
    let inner := byteAt b 1
    let innerKind := inner.extractLsb' 0 4
    let held := if c.recHolds = 255 then 255 else c.recHolds + 1
    let coupler : List SchedOp :=
      if (p.ctx j).failures = 0 ∧ (p.ctx j).syncPending = false then [] else [.writeStationHalf j]
    let entry := fun (change : RelayEntry → Option RelayEntry) =>
      p.relays.map fun o => o.bind fun x => if x.station = i then change x else some x
    let replied := fun (relays : Vector (Option RelayEntry) 8) (ops : List SchedOp)
        (change : Context → Context) =>
      exec (.frameEnd dt l) s =
        .next (s.become (Part.modEng l
          (fun e =>
            { e with
              framer := { e.framer with receiver := .hunt }
              xu := ExchangeUnit.idle
              cyc := { e.cyc with answered := true
                                  turn := e.cyc.turn.map fun t => { t with stage := .writes } }
              trap := e.trapAfter i latency
              sched := ops ++ coupler ++ e.trapCause latency ++ [.endTurn] })
          (Part.modCtx i
            (fun c => change
              { c with recLatency := latency
                       maxLatency := if c.maxLatency.toNat < latency.toNat then latency
                                     else c.maxLatency })
            (Part.modCtx j (fun c => { c with failures := 0, syncPending := false })
              { p with relays := relays }))))
    p.live = true → e.internalReturn = false → e.sched = [] →
    e.framer.receiver = .frame cs → frameComplete cs = true → frameValid cs = true →
    e.xu = { state := .receiving, attempt := some a } → a.station = some i → a.latency = some latency →
    latency.toNat < 65535 → c.inHand = some k → c.copy = some r → c.binding.coupler.toNat = j.val →
    f.destination = 0 → f.source = a.source →
      (a.kind = .relayStart →
        (kind = 10 →
          replied (entry fun x => some { x with phase := .collecting }) [.writeStationHalf i] fun c =>
            { c with phase := .relayCollect }) ∧
        (kind = 11 → r.holdLimit = 0 ∨ held ≠ r.holdLimit →
          replied (entry fun _ => none) [.writeStationHalf i] fun c =>
            { c with recHolds := held, phase := .relayStart }) ∧
        (kind = 11 → r.holdLimit ≠ 0 → held = r.holdLimit →
          replied (entry fun _ => none)
            [.writeResult i k .held 0, .writeDone i k .none .ready, .writeStationHalf i, .raise .exfault]
            fun c => { c with recHolds := held }) ∧
        (kind = 12 →
          replied (entry fun _ => none)
            [.writeResult i k .refused 0, .writeDone i k .none (.halted .refused), .writeStationHalf i,
             .raise .exfault, .raise .halted] id)) ∧
      (a.kind = .relayCollect →
        (∀ x, kind = 11 → p.relayOf i = some x →
          let age := (e.rep.cycleNumber - x.startCycle).toNat
          (age < c.fresh.patience.toNat →
            replied (entry fun x => some { x with waiting := if x.waiting = 255 then 255 else x.waiting + 1 })
              [.writeStationHalf i] fun c => { c with phase := .relayCollect }) ∧
          (c.fresh.patience.toNat ≤ age →
            replied (entry fun _ => none)
              [.writeResult i k .relayLost 0, .writeDone i k .none .ready, .writeStationHalf i,
               .raise .exfault] id)) ∧
        (kind = 9 →
          ¬ (3 ≤ b.length ∧ (byteAt b 2).toNat = b.length - 3 ∧ byteAt b 0 = c.binding.lineAddress ∧
            inner.extractLsb' 6 2 = 0 ∧
            (innerKind = 0 ∨ innerKind = 9 ∨ innerKind = 10 ∨ innerKind = 11 ∨ innerKind = 12) ∧
            (byteAt b 2 = 0 ∨ innerKind = 9)) →
          let failed := Part.attemptFailed l
            (p.modEng l fun e => { e with framer := { e.framer with receiver := .hunt } })
          failed.settled l = true → exec (.frameEnd dt l) s = .next (s.become failed)))

/-- Test frames. In INTERNAL_RETURN each character of the frame being sent is fed to the receiver in its turn,
whatever stands on the line; an activity on RXD has no effect there, nor has a character while none is due to be fed,
and nothing collides. A frame returned as an exact copy is intact, and otherwise the bytes that differ are
counted by the counter mode; in INTERNAL_RETURN a frame of another kind, or one in error, is lost. After each the
test goes on: at the frame count it is COMPLETE and the loop enters OFF; before it, the next frame is drawn, counted
and handed to the Framer. With no test frame in flight a valid frame of INTERNAL_RETURN is discarded without screening,
and one in error is counted as a frame error alone; FrameEndJudged says the same of STATION_ECHO. The model's choices:
logs 11 and 24. -/
def Obligations.TestFrameReturned : Prop :=
  ∀ (dt : Nat) (l : LoopId) (s : State),
    let p := s.part.tick dt
    let e := p.eng l
    let u := p.testUnit
    let differ := fun payload : List Byte =>
      ((List.range u.copy.length).filter fun n => u.copy[n]? ≠ payload[n]?).length
    let judged := fun payload : List Byte =>
      if payload = u.copy then { u with intact := if u.intact = 65535 then 65535 else u.intact + 1 }
      else
        { u with mismatched :=
            if e.cfg.counterMode = 1 then u.mismatched + BitVec.ofNat 16 (differ payload)
            else BitVec.ofNat 16 (min 65535 (u.mismatched.toNat + differ payload)) }
    let lost : TestUnit := { u with lost := if u.lost = 65535 then 65535 else u.lost + 1 }
    let hunting := p.modEng l fun e => { e with framer := { e.framer with receiver := .hunt } }
    let answers := fun q : Part => exec (.frameEnd dt l) s = .next (s.become q)
    (e.ctl.state = .test → e.ctl.validated = true → e.cfg.testMode = 0 →
      exec (.activityStart dt l) s = .next (s.become p) ∧ exec (.collision dt l) s = .next (s.become p) ∧
      ((∀ x, e.framer.sending = some x → x.frame.chars.length ≤ x.readBack) →
        ∀ value stopOk, exec (.characterReceived dt l value stopOk) s = .next (s.become p)) ∧
      (∀ cs, p.live = true → p.settled l = true → e.framer.receiver = .frame cs → frameComplete cs = true →
        u.copy = [] →
        (frameValid cs = true → answers hunting) ∧
        (frameValid cs = false → answers (hunting.modEng l Engine.countFrameError)))) ∧
    (p.live = true → e.ctl.state = .test → e.sched = [] → e.cyc.turn = none →
      (∀ cs a, e.framer.receiver = .frame cs → frameComplete cs = true → frameValid cs = true →
        e.internalReturn = false → e.cfg.testMode = 1 → e.xu = { state := .receiving, attempt := some a } →
        a.kind = .test → (RxFrame.ofChars cs).destination = 0 → (RxFrame.ofChars cs).source = a.source →
        (RxFrame.ofChars cs).control.extractLsb' 0 4 = 0 →
        answers (hunting.testGoesOn l (judged (RxFrame.ofChars cs).payload))) ∧
      (∀ cs, e.framer.receiver = .frame cs → frameComplete cs = true → e.internalReturn = true →
        e.xu = ExchangeUnit.idle → u.copy ≠ [] →
        (frameValid cs = true → (RxFrame.ofChars cs).control.extractLsb' 0 4 = 8 →
          answers (hunting.testGoesOn l (judged (RxFrame.ofChars cs).payload))) ∧
        (frameValid cs = true → (RxFrame.ofChars cs).control.extractLsb' 0 4 ≠ 8 →
          answers (hunting.testGoesOn l lost)) ∧
        (frameValid cs = false → answers ((hunting.modEng l Engine.countFrameError).testGoesOn l lost))) ∧
      (∀ x value stopOk, e.internalReturn = true → e.framer.running = true → e.framer.sending = some x →
        x.readBack < x.frame.chars.length → e.xu = ExchangeUnit.idle →
        let fed := byteAt x.frame.chars x.readBack
        let answers := fun r : Receiver =>
          exec (.characterReceived dt l value stopOk) s =
            .next (s.become (p.modEng l fun e =>
              { e with framer := { e.framer with
                  receiver := r, markSince := p.now
                  sending := some { x with readBack := x.readBack + 1 } } }))
        (e.framer.receiver = .hunt → fed = 0xA5 → answers (.frame [0xA5])) ∧
        (∀ cs, e.framer.receiver = .frame cs → frameComplete cs = false → cs.length ≠ 4 ∨ fed.toNat ≤ 96 →
          answers (.frame (cs ++ [fed]))) ∧
        (e.framer.receiver = .discard → answers .discard)))

/-- What an attempt failure does. A test frame is lost and the test goes on. A first ROLL of a station is followed
by a second while the roll-call lasts; after the second the station is ABSENT, its record in hand ends NO_ANSWER,
and the roll-call goes on to the next of its list or ends. For a record's attempt the attempts and the consecutive
failures rise and the latency becomes 65535: below the retry limit a direct record goes to its next phase, a
RELAY_START frees its entry, and a collect goes on until its patience is over and then ends RELAY_LOST; at the limit
the record ends NO_ANSWER and the station is SILENT. An overlong reply that has finished ends its record OVERLONG
with the latency measured, which is offered to the trap, a valid one being also a valid reply of the station or of
its coupler; for a ROLL and a test frame it is a failure. -/
def Obligations.AttemptFailure : Prop :=
  ∀ (l : LoopId) (a : Attempt) (p : Part),
    let e := p.eng l
    let ended := p.modEng l fun e =>
      { e with xu := ExchangeUnit.idle
               cyc := { e.cyc with turn := e.cyc.turn.map fun t => { t with stage := .writes } } }
    e.xu.attempt = some a →
      (a.kind = .test → e.ctl.state = .test → e.cfg.testMode = 1 →
        p.attemptFailed l = ended.testGoesOn l
          { p.testUnit with lost := if p.testUnit.lost = 65535 then 65535 else p.testUnit.lost + 1 }) ∧
      (∀ i, a.kind = .roll → a.station = some i → e.rollSecond = false →
        p.attemptFailed l =
          if e.ctl.state = .rollcall then ended.modEng l fun e => { e with rollSecond := true } else ended) ∧
      (∀ i, a.kind = .roll → a.station = some i → e.rollSecond = true →
        let rest := e.rollList.drop 1
        let ops : List SchedOp := match (p.ctx i).inHand with
          | some k => [.writeResult i k .noAnswer 0, .writeDone i k .none .absent, .writeStationHalf i,
                       .raise .exfault]
          | none => [.writeStationHalf i]
        p.attemptFailed l = Part.modEng l
          (fun e =>
            { e with
              rep := { e.rep with
                rollAbsent := if e.rep.rollAbsent = 255 then 255 else e.rep.rollAbsent + 1 }
              rollList := rest, rollSecond := false
              sched := e.sched ++ ops ++ if rest = [] ∧ e.ctl.state = .rollcall then [.rollEnd] else [] })
          ((ended.releaseRelay i).modCtx i fun c => { c with present := false, state := .absent })) ∧
      (∀ valid : Bool,
        (a.kind = .test ∨ a.kind = .roll → p.overlongFinished l valid = p.attemptFailed l) ∧
        ∀ i j k latency, a.station = some i → a.kind ≠ .test → a.kind ≠ .roll → a.latency = some latency →
          latency.toNat < 65535 → (p.ctx i).inHand = some k →
          let relay := a.kind = .relayStart ∨ a.kind = .relayCollect
          let replier := if relay then j else i
          let coupler : List SchedOp :=
            if valid = true ∧ relay ∧ ¬ ((p.ctx j).failures = 0 ∧ (p.ctx j).syncPending = false) then
              [.writeStationHalf j]
            else []
          (relay → (p.ctx i).binding.coupler.toNat = j.val) →
          p.overlongFinished l valid = Part.modEng l
            (fun e =>
              { e with
                cyc := { e.cyc with answered := e.cyc.answered || valid }
                trap := e.trapAfter i latency
                sched := e.sched
                  ++ [.writeResult i k .overlong 0, .writeDone i k .none .ready, .writeStationHalf i,
                      .raise .exfault]
                  ++ coupler ++ e.trapCause latency ++ [.endTurn] })
            (Part.modCtx i
              (fun c =>
                { c with recLatency := latency
                         maxLatency := if c.maxLatency.toNat < latency.toNat then latency else c.maxLatency })
              ((ended.releaseRelay i).modCtx replier fun c =>
                if valid then { c with failures := 0, syncPending := false } else c))) ∧
      ∀ i, a.station = some i → a.kind ≠ .test → a.kind ≠ .roll →
        let c := p.ctx i
        let fails := fun (q : Part) (ops : List SchedOp) (change : Context → Context) =>
          p.attemptFailed l = Part.modEng l (fun e => { e with sched := e.sched ++ ops ++ [.endTurn] })
            (q.modCtx i fun c => change
              { c with
                recAttempts := if c.recAttempts.toNat < 7 then c.recAttempts + 1 else c.recAttempts
                recLatency := 0xFFFF, failures := c.failures + 1 })
        (c.failures.toNat + 1 < c.fresh.retryLimit.toNat →
          (a.kind = .poll ∨ a.kind = .put ∨ a.kind = .probe →
            fails ended [.writeStationHalf i] fun c =>
              { c with phase := if c.phase = .first then .retry else c.phase }) ∧
          (a.kind = .relayStart →
            fails (ended.releaseRelay i) [.writeStationHalf i] fun c => { c with phase := .relayStart }) ∧
          (∀ x, a.kind = .relayCollect → p.relayOf i = some x →
            let age := (e.rep.cycleNumber - x.startCycle).toNat
            (age < c.fresh.patience.toNat →
              fails ended [.writeStationHalf i] fun c => { c with phase := .relayCollect }) ∧
            (∀ k, c.fresh.patience.toNat ≤ age → c.inHand = some k →
              fails (ended.releaseRelay i)
                [.writeResult i k .relayLost 0, .writeDone i k .none .ready, .writeStationHalf i,
                 .raise .exfault] id))) ∧
        (∀ k, c.fresh.retryLimit.toNat ≤ c.failures.toNat + 1 → c.inHand = some k →
          fails (ended.releaseRelay i)
            [.writeResult i k .noAnswer 0, .writeDone i k .none .silent, .writeStationHalf i, .raise .exfault]
            fun c => { c with failures := 0 })

/-- The reply timeout: while a character begun in HUNT is under way the unit waits for it; otherwise the attempt
has failed, as AttemptFailure says for every kind of attempt, and the record of a direct attempt goes to its next
phase or, at the retry limit, ends NO_ANSWER with the station SILENT. The model's choices: logs 3 and 10. -/
def Obligations.ReplyTimeout : Prop :=
  ∀ (dt : Nat) (l : LoopId) (underWay : Bool) (a : Attempt) (i : StationIx) (k : RecordIx) (s : State),
    let p := s.part.tick dt
    let e := p.eng l
    let c := p.ctx i
    let ended := fun (ops : List SchedOp) (e : Engine) =>
      { e with xu := ExchangeUnit.idle
               cyc := { e.cyc with turn := e.cyc.turn.map fun t => { t with stage := .writes } }
               sched := ops }
    let attempts := fun c : Context => if c.recAttempts.toNat < 7 then c.recAttempts + 1 else c.recAttempts
    p.live = true → e.xu = { state := .awaiting, attempt := some a } →
    a.endOfFrame + a.timeout ≤ p.now → a.timeoutPassed = false →
      (underWay = true → e.framer.receiver = .hunt → p.settled l = true →
        exec (.replyTimeout dt l underWay) s =
          .next (s.become (p.modEng l fun e =>
            { e with xu := { e.xu with attempt := some { a with timeoutPassed := true } } }))) ∧
      (underWay = false ∨ e.framer.receiver ≠ .hunt → (p.attemptFailed l).settled l = true →
        exec (.replyTimeout dt l underWay) s = .next (s.become (p.attemptFailed l))) ∧
      (underWay = false ∨ e.framer.receiver ≠ .hunt → e.sched = [] → a.station = some i →
        a.kind = .poll ∨ a.kind = .put ∨ a.kind = .probe →
        (c.failures.toNat + 1 < c.fresh.retryLimit.toNat →
          exec (.replyTimeout dt l underWay) s =
            .next (s.become (Part.modEng l (ended [.writeStationHalf i, .endTurn])
              (p.modCtx i fun c =>
                { c with recAttempts := attempts c, recLatency := 0xFFFF, failures := c.failures + 1
                         phase := if c.phase = .first then .retry else c.phase })))) ∧
        (c.failures.toNat + 1 = c.fresh.retryLimit.toNat → c.inHand = some k →
          exec (.replyTimeout dt l underWay) s =
            .next (s.become (Part.modEng l
              (ended [.writeResult i k .noAnswer 0, .writeDone i k .none .silent, .writeStationHalf i,
                      .raise .exfault, .endTurn])
              ((p.releaseRelay i).modCtx i fun c =>
                { c with recAttempts := attempts c, recLatency := 0xFFFF, failures := 0 })))))

/-- A collision stops the transmission, counts one collision and one frame error and leaves the receiver in
DISCARD. A keepalive is not sent again, and a wake STARTING that waits for its end latches; a beacon's cycle goes on as
at its end, but a cycle given up opens no window and a waiting ROLLCALL enters ROLLCALL; the attempt of a request
or of a test frame has failed, as AttemptFailure says for every kind of attempt. The model's choices: logs 18, 42 (the
pool is latched at the end of the wait) and 44 (the ROLLCALL is entered with a boundary marked too). -/
def Obligations.Collision : Prop :=
  ∀ (dt : Nat) (l : LoopId) (x : Sending) (a : Attempt) (i : StationIx) (s : State),
    let p := s.part.tick dt
    let e := p.eng l
    let cut := fun e : Engine =>
      Engine.countFrameError
        { e with
          framer := { e.framer with sending := none, receiver := .discard, activity := some p.now
                                    markSince := p.now }
          mon := { e.mon with collisions := satInc e.mon.collisions } }
    p.live = true → e.internalReturn = false → e.framer.sending = some x →
      (x.frame.purpose = .keepalive → p.settled l = true → p.atTransfer l = true →
        exec (.collision dt l) s = .next (s.become (p.modEng l cut))) ∧
      (x.frame.purpose = .keepalive → e.ctl.state = .starting → e.ctl.startFromOff = false →
        e.ctl.validated = true →
        e.sched = [.awaitTransmitter, .startLatch, .mark, .startResets, .writeLoopHalf, .mark]
          ++ (allStations.map .readStationHost ++ allStations.map .judge ++ [.mark, .startNext]) →
        exec (.collision dt l) s =
          .next (s.become (p.modEng l fun e =>
            { Engine.startLatched e.hostBuf (cut e) with resetSet := [] }))) ∧
      (x.frame.purpose = .beacon → p.atTransfer l = true → e.cyc.turn = none → e.ctl.rollRequest = false →
        exec (.collision dt l) s = .next (s.become ((p.modEng l cut).beaconOver l))) ∧
      (x.frame.purpose = .beacon → e.ctl.state = .running → e.ctl.rollRequest = true → e.cyc.phase = .beacon →
        e.cyc.turn = none → e.sched = [] →
        exec (.collision dt l) s = .next (s.become ((p.modEng l cut).rollcallState l []))) ∧
      (x.frame.purpose = .request ∨ x.frame.purpose = .test →
        let failed := (p.modEng l cut).attemptFailed l
        failed.settled l = true → exec (.collision dt l) s = .next (s.become failed)) ∧
      (x.frame.purpose = .request → e.xu = { state := .sending, attempt := some a } → a.station = some i →
        a.kind = .poll ∨ a.kind = .put ∨ a.kind = .probe → e.sched = [] →
        (p.ctx i).failures.toNat + 1 < (p.ctx i).fresh.retryLimit.toNat →
        exec (.collision dt l) s =
          .next (s.become (Part.modEng l
            (fun e =>
              { cut e with
                xu := ExchangeUnit.idle
                cyc := { e.cyc with turn := e.cyc.turn.map fun t => { t with stage := .writes } }
                sched := [.writeStationHalf i, .endTurn] })
            (p.modCtx i fun c =>
              { c with
                recAttempts := if c.recAttempts.toNat < 7 then c.recAttempts + 1 else c.recAttempts
                recLatency := 0xFFFF, failures := c.failures + 1
                phase := if c.phase = .first then .retry else c.phase }))))

/-- The end of frame of a request, or of a test frame on the line, opens its reply window. That of a cycle beacon
forms the due set of the cycle. When a station is due the periodic window opens, also when the announce window has
started by then; when none is due the aperiodic window opens, but the phase is closed when the announce window has
started or no candidate stands. (With the window marked as started before its start, which no run reaches, the phase
is closed in any case.) With the next boundary marked by then no window opens; with a ROLLCALL waiting none does
either, and the loop enters ROLLCALL. The end of a keepalive leaves no line activity, and a wake STARTING that waits
for it latches; that of a test frame of INTERNAL_RETURN, which comes once its characters have been fed, leaves none
either. The model's choices: logs 3, 13, 18, 42 (the pool is latched at the end of the wait) and 44 (the ROLLCALL is
entered with a boundary marked too). -/
def Obligations.EndOfFrame : Prop :=
  ∀ (dt : Nat) (l : LoopId) (x : Sending) (a : Attempt) (s : State),
    let p := s.part.tick dt
    let e := p.eng l
    let ended := fun (activity : Option Nat) (e : Engine) =>
      { e with framer := { e.framer with
          sending := none, activity := activity, markSince := p.now
          receiver := if e.framer.receiver = .readback then .hunt else e.framer.receiver } }
    let answers := fun q : Part => exec (.endOfFrame dt l) s = .next (s.become q)
    p.live = true → e.framer.sending = some x →
    x.start + (7 + x.frame.payload.length) * e.charTime ≤ p.now →
      (x.frame.purpose = .beacon → e.ctl.state = .running → e.ctl.rollRequest = true → e.cyc.phase = .beacon →
        e.cyc.turn = none → e.sched = [] →
        answers (Part.rollcallState l [] (p.modEng l (ended (some p.now))))) ∧
      (x.frame.purpose = .keepalive → e.ctl.state = .starting → e.ctl.startFromOff = false →
        e.ctl.validated = true →
        e.sched = [.awaitTransmitter, .startLatch, .mark, .startResets, .writeLoopHalf, .mark]
          ++ (allStations.map .readStationHost ++ allStations.map .judge ++ [.mark, .startNext]) →
        answers (p.modEng l fun e =>
          { Engine.startLatched e.hostBuf (ended none e) with resetSet := [] })) ∧
      (p.atTransfer l = true → e.ctl.rollRequest = false ∨ e.cyc.turn.isSome = true →
        (x.frame.purpose = .test → e.internalReturn = true → e.xu = ExchangeUnit.idle →
          x.frame.chars.length ≤ x.readBack → answers (p.modEng l (ended none))) ∧
        (x.frame.purpose = .request ∨ x.frame.purpose = .test → e.internalReturn = false →
          e.xu = { state := .sending, attempt := some a } →
          answers (p.modEng l fun e =>
            { ended (some p.now) e with
              xu := { state := .awaiting, attempt := some { a with endOfFrame := p.now } } })) ∧
        (x.frame.purpose = .keepalive → e.internalReturn = false → answers (p.modEng l (ended none))) ∧
        (x.frame.purpose = .beacon → e.internalReturn = false → e.cyc.turn = none →
          answers (Part.beaconOver l (p.modEng l (ended (some p.now))))))

/-! ### The cycle -/

/-- A grid point marks a boundary one cycle length before the next one, and gives up a beacon not yet begun. The
beacon of the first boundary so marked is late when a frame is being received then, which it is from the end of its
lead character on, or an attempt of a turn is on the line: its request being sent, its reply awaited or received. The
announce window closes the aperiodic window, and the periodic one too unless the beacon ended after its start; and the
marked boundary is taken with its marks kept, its cycle cleared and its work in order. The model's choices: logs 3,
13, 14, 15, 38 and 50 (an overlong reply being skipped is on the line). -/
def Obligations.Boundary : Prop :=
  ∀ (dt : Nat) (l : LoopId) (g : Nat) (s : State),
    let p := s.part.tick dt
    let e := p.eng l
    let receiving := match e.framer.receiver with
      | .frame _ => true
      | .hunt | .discard | .readback => false
    let asking := match e.framer.sending with
      | some x => x.frame.purpose == .request
      | none => false
    let awaited := e.xu.state == .awaiting || e.xu.state == .receiving || e.xu.state == .skipping
    let taken := receiving || (e.cyc.turn.isSome && (asking || awaited))
    e.lineTaken = taken ∧
    (p.live = true → e.ctl.state = .running →
      (e.cyc.nextGrid = some g → g ≤ p.now →
        exec (.gridPoint dt l) s =
          .next (s.become (p.modEng l fun e =>
            { (if e.cyc.phase = .beacon then e.dropHeld .beacon else e) with
              cyc := { e.cyc with
                marked := some g
                late := if e.cyc.marked.isSome then e.cyc.late else taken
                nextGrid := some (g + e.cfg.cycleLength.toNat * 2500) } }))) ∧
      (e.cfg.announceWindow ≠ 0 → e.cyc.phase ≠ .none →
        let start :=
          e.cyc.boundaryAt + e.cfg.cycleLength.toNat * 2500 - e.cfg.announceWindow.toNat * 2500
        let served := ∃ i ∈ e.cyc.dueSet, (p.ctx i).owner = some l ∧
          ((p.ctx i).state = .ready ∨ (p.ctx i).state = .active)
        let passed := e.cyc.turn = none ∧ e.cyc.phase = .periodic ∧ (e.cyc.beaconEnd < start ∨ ¬ served)
        start ≤ p.now →
        exec (.announceWindowStart dt l) s =
          .next (s.become (p.modEng l fun e =>
            { e with cyc := { e.cyc with
                announceStarted := true
                visited := if passed then [] else e.cyc.visited
                phase := if passed ∨ (e.cyc.turn = none ∧ e.cyc.phase = .aperiodic) then .closed
                         else e.cyc.phase } }))) ∧
      (e.cyc.marked = some g → e.cyc.turn = none → e.ctl.rollRequest = false → e.cyc.phase ≠ .boundary →
        e.isSending .beacon = false → p.atTransfer l = true →
        exec (.boundaryTaken dt l) s =
          .next (s.become (p.modEng l fun e =>
            { e.dropHeld .beacon with
              cyc := { e.cyc with
                marked := none, late := false, lateTaken := e.cyc.late, boundaryAt := g, phase := .boundary
                dueSet := [], visited := [], announceStarted := false }
              sched := e.sched ++ (allStations.map .readStationHost ++ allStations.map .judge
                ++ [.mark, .retimeStep, .mark, .cycleStep, .reportStep, .writeLoopHalf, .raiseRetimeRefused,
                    .mark, .beaconStep]) }))))

/-- The choice of attempt and the fit test of a turn, for a station with a record in hand: in a turn that has just
begun, in the periodic window for the first due station that is still READY or ACTIVE or in the aperiodic one for the
next candidate, and after the part-half write of a take. For a direct station: when the estimate fits the budget that is
left, or the time before the announce window, its request goes to the Framer and the attempt begins. When it does not,
in the periodic window the station counts a miss, the first of a cycle an overrun, and a STRICT record ends MISSED; the
aperiodic window closes with no miss, its pointer on the station. Once the loop has left RUNNING, the next boundary is
marked or a ROLLCALL waits, the turn ends with no fit test, and the ROLLCALL is entered. The model's choices: logs 5, 13
and 40. -/
def Obligations.TurnFitTest : Prop :=
  ∀ (l : LoopId) (i : StationIx) (turn : Turn) (command : Instr) (p : Part) (m : Memory) (s : State),
    let e := p.eng l
    let c := p.ctx i
    let answers := fun q : Part => exec command s = .next (State.become { s with mem := m } q)
    s.comesToFit l i turn command p m →
      (e.ctl.state ≠ .running ∨ e.cyc.marked.isSome = true ∨ e.ctl.rollRequest = true →
        answers ((Part.turnOver l turn p).workOver l)) ∧
      (∀ (k : RecordIx) (r : RecordCopy),
        let kind : AttemptKind := if c.phase = .probe then .probe else if r.kind = 1 then .poll else .put
        let payload := if kind = .probe then [] else r.request
        let allowance := if kind = .poll then c.fresh.maxReply else 0
        let seq := if kind = .poll then c.rxSeq else if kind = .put then c.txSeq else false
        let estimate := (7 + payload.length + 7 + allowance.toNat + 4) * e.charTime
          + c.fresh.replyTimeout.toNat * 2500
        let announceStart :=
          e.cyc.boundaryAt + e.cfg.cycleLength.toNat * 2500 - e.cfg.announceWindow.toNat * 2500
        let windowEnd :=
          if turn.periodic then min (e.cyc.beaconEnd + e.cfg.periodicBudget.toNat * 2500) announceStart
          else announceStart
        let missed := fun (ops : List SchedOp) (e : Engine) =>
          { e with
            cyc := { e.cyc with turn := some { turn with stage := .writes }, overrun := true }
            rep := { e.rep with overruns := if e.cyc.overrun then e.rep.overruns else satInc e.rep.overruns }
            sched := ops ++ (if e.cyc.overrun then [] else [.raise .overrun]) ++ [.endTurn] }
        let counted := p.modCtx i fun c => { c with missCount := satInc c.missCount }
        e.ctl.state = .running → e.cyc.marked = none → e.ctl.rollRequest = false →
        c.binding.coupler = 0xFF → c.inHand = some k → c.copy = some r →
          (p.now + estimate ≤ windowEnd →
            answers (p.modEng l fun e =>
              Engine.transmits p.now
                { purpose := .request, destination := c.binding.lineAddress
                  control := kind.control seq c.syncPending, payload := payload }
                { e with
                  xu := { state := .sending
                          attempt := some
                            { kind := kind, station := some i, seq := seq
                              timeout := c.fresh.replyTimeout.toNat * 2500, allowance := allowance
                              source := c.binding.lineAddress, latency := none, buffer := [], endOfFrame := 0
                              timeoutPassed := false, skipBroken := false } }
                  cyc := { e.cyc with
                    attempted := true, visited := []
                    turn := some { turn with stage := .attempt, attempted := true } } })) ∧
          (windowEnd < p.now + estimate → turn.periodic = true → r.strict = false →
            answers (counted.modEng l (missed [.writeStationHalf i]))) ∧
          (windowEnd < p.now + estimate → turn.periodic = true → r.strict = true →
            answers ((counted.releaseRelay i).modEng l
              (missed [.writeResult i k .missed 0, .writeDone i k .none .ready, .writeStationHalf i,
                       .raise .exfault]))) ∧
          (windowEnd < p.now + estimate → turn.periodic = false →
            answers (Part.turnOver l { turn with closing := true } p)))

/-- The choice of attempt and the fit test of a turn, for a relayed station with a record in hand, where TurnFitTest has
them. It ends with no attempt when the coupler is not admitted, when the collect delay is not over, or when a RELAY_START
that fits finds its coupler claimed or no entry free. A RELAY_START that fits claims the lowest free entry; it and a
collect that fits go to the coupler with the payload that R9 gives them. One that does not fit is a miss in the periodic
window, as a direct station's is, and closes the aperiodic window. The model's choices: logs 5, 13 and 43 (the collect
delay is compared at every collect turn). -/
def Obligations.RelayTurn : Prop :=
  ∀ (l : LoopId) (i j : StationIx) (k : RecordIx) (r : RecordCopy) (turn : Turn) (command : Instr) (p : Part)
    (m : Memory) (s : State),
    let e := p.eng l
    let c := p.ctx i
    let kind : AttemptKind := if c.phase = .relayCollect then .relayCollect else .relayStart
    let seq := if r.kind = 1 then c.rxSeq else c.txSeq
    let innerKind : AttemptKind := if r.kind = 1 then .poll else .put
    let payload := if kind = .relayCollect then [c.binding.lineAddress]
      else [c.binding.lineAddress, innerKind.control seq c.syncPending, BitVec.ofNat 8 r.request.length]
        ++ r.request
    let allowance : Byte := if kind = .relayCollect then 3 + c.fresh.maxReply else 0
    let estimate := (7 + payload.length + 7 + allowance.toNat + 4) * e.charTime
      + c.fresh.replyTimeout.toNat * 2500
    let announceStart :=
      e.cyc.boundaryAt + e.cfg.cycleLength.toNat * 2500 - e.cfg.announceWindow.toNat * 2500
    let windowEnd :=
      if turn.periodic then min (e.cyc.beaconEnd + e.cfg.periodicBudget.toNat * 2500) announceStart
      else announceStart
    let admitted := (p.ctx j).owner = some l ∧
      ((p.ctx j).state = .ready ∨ (p.ctx j).state = .active ∨ (p.ctx j).state = .silent ∨
        (p.ctx j).state = .absent ∨ (p.ctx j).state = .halted)
    let delayed := ∃ x, kind = .relayCollect ∧ p.relayOf i = some x ∧
      (e.rep.cycleNumber - x.startCycle).toNat < c.fresh.collectDelay.toNat
    let over_ := kind = .relayStart ∨ ∃ x, p.relayOf i = some x ∧
      c.fresh.collectDelay.toNat ≤ (e.rep.cycleNumber - x.startCycle).toNat
    let claimed := ∃ (n : Fin 8) (x : RelayEntry), p.relays[n] = some x ∧ x.coupler = j
    let answers := fun q : Part => exec command s = .next (State.become { s with mem := m } q)
    let passed := answers (Part.turnOver l turn p)
    let attempted := fun relays : Vector (Option RelayEntry) 8 =>
      answers (Part.modEng l
        (fun e =>
          Engine.transmits p.now
            { purpose := .request, destination := (p.ctx j).binding.lineAddress
              control := kind.control false (p.ctx j).syncPending, payload := payload }
            { e with
              xu := { state := .sending
                      attempt := some
                        { kind := kind, station := some i, seq := seq
                          timeout := c.fresh.replyTimeout.toNat * 2500, allowance := allowance
                          source := (p.ctx j).binding.lineAddress, latency := none, buffer := []
                          endOfFrame := 0, timeoutPassed := false, skipBroken := false } }
              cyc := { e.cyc with
                attempted := true, visited := []
                turn := some { turn with stage := .attempt, attempted := true } } })
        { p with relays := relays })
    let missed := fun (ops : List SchedOp) (e : Engine) =>
      { e with
        cyc := { e.cyc with turn := some { turn with stage := .writes }, overrun := true }
        rep := { e.rep with overruns := if e.cyc.overrun then e.rep.overruns else satInc e.rep.overruns }
        sched := ops ++ (if e.cyc.overrun then [] else [.raise .overrun]) ++ [.endTurn] }
    let counted := p.modCtx i fun c => { c with missCount := satInc c.missCount }
    s.comesToFit l i turn command p m →
    e.ctl.state = .running → e.cyc.marked = none → e.ctl.rollRequest = false →
    c.binding.coupler.toNat = j.val → c.inHand = some k → c.copy = some r →
      (¬ admitted ∨ delayed → passed) ∧
      (admitted → over_ → p.now + estimate ≤ windowEnd →
        (kind = .relayStart → claimed ∨ (∀ n : Fin 8, p.relays[n] ≠ none) → passed) ∧
        (∀ n : Fin 8, kind = .relayStart → ¬ claimed → p.relays[n] = none →
          (∀ m, m < n → p.relays[m] ≠ none) →
          attempted (p.relays.set n (some
            { loop := l, coupler := j, station := i, record := k, phase := .starting
              startCycle := e.rep.cycleNumber, waiting := 0 }))) ∧
        (kind = .relayCollect → attempted p.relays)) ∧
      (admitted → over_ → windowEnd < p.now + estimate →
        (turn.periodic = false → answers (Part.turnOver l { turn with closing := true } p)) ∧
        (turn.periodic = true → r.strict = false →
          answers (counted.modEng l (missed [.writeStationHalf i]))) ∧
        (turn.periodic = true → r.strict = true →
          answers ((counted.releaseRelay i).modEng l
            (missed [.writeResult i k .missed 0, .writeDone i k .none .ready, .writeStationHalf i,
                     .raise .exfault]))))

/-- A turn for a station with no record in hand fetches: the link of its parked record, or the record its chain
head names; a head outside the pool, not END, halts it with BAD_LINK; with END it has no work, and the turn is over. In
the periodic window the turn is that of the first due station that is still READY or ACTIVE, those before it being
skipped; in the aperiodic one, or in a periodic one with no such station left, it is that of the first candidate at or
above the pointer, or else of the first of all. In the periodic window the announce window has not started, or the
beacon ended after its start (the model's choice, log 13). With the announce window started, or every candidate visited
since the last attempt, the aperiodic window closes with no turn. -/
def Obligations.TurnFetch : Prop :=
  ∀ (dt : Nat) (l : LoopId) (i : StationIx) (periodic : Bool) (rest : List StationIx) (s : State),
    let p := s.part.tick dt
    let e := p.eng l
    let c := p.ctx i
    let head := c.fresh.chainHead
    let begun := p.turnBegun l i periodic rest
    let turn := Turn.begun i periodic
    let fetching := fun (stage : TurnStage) (ops : List SchedOp) (q : Part) =>
      q.modEng l fun e => { e with cyc := { e.cyc with turn := some { turn with stage := stage } }, sched := ops }
    let candidate := fun j : StationIx => p.serves l j ∧ (p.ctx j).binding.cls = .aperiodic
    let answers := fun q : Part => exec (.turn dt l) s = .next (s.become q)
    (p.picks l i periodic rest → c.inHand = none →
      (c.parked.isSome = true → answers (fetching .fetch [.readLink i] begun)) ∧
      (c.parked = none → head ≠ 1023 → head.toNat < e.poolSize.toNat →
        answers (fetching .fetch [.readRecord i head] begun)) ∧
      (c.parked = none → head ≠ 1023 → e.poolSize.toNat ≤ head.toNat →
        answers (fetching .writes [.writeStationHalf i, .raise .halted, .endTurn]
          ((begun.releaseRelay i).modCtx i fun c =>
            { c with state := .halted, reason := .badLink, latchedRelease := c.fresh.releaseCount
                     failures := 0 }))) ∧
      (c.parked = none → head = 1023 → answers (Part.turnOver l turn begun))) ∧
    (p.live = true → e.ctl.state = .running → e.cyc.marked = none → e.ctl.rollRequest = false →
      e.cyc.turn = none → e.sched = [] → e.xu.state = .idle → e.cyc.phase = .aperiodic →
      e.cyc.announceStarted = true ∨ (∀ j, candidate j → j ∈ e.cyc.visited) →
      answers (p.modEng l fun e => { e with cyc := { e.cyc with phase := .closed } }))

/-- A boundary once its scan is done: with no RETIME pending its cycle is counted, and with one pending the timing
group is read first. Then the judgement of that read, and the steps after it: timing that fits is latched and
governs from this boundary on, so it moves the next grid point, and the announce window has started only where the
new one has; other timing is refused; the cycle number and the late beacons rise; and the marks go to the Line
Monitor, whose error window opens anew every W cycles. When the silent-cycle run then stands at the threshold, if
that is not 0, the SILENCE criterion is met and the later steps are not made; otherwise the part half is written. A
loop that has gone over to DRAINING judges no RETIME, nor does one that has gone from there to DOWN; one that has
gone there from RUNNING does, since its step runs to its end. The model's choices: logs 5, 12, 15 and 20. -/
def Obligations.BoundaryReport : Prop :=
  ∀ (dt : Nat) (ws : List (Word × Byte)) (l : LoopId) (t : Transfer) (rest : List SchedOp) (s : State),
    let p := s.part.tick dt
    let e := p.eng l
    let m := Memory.hostWrites s.mem ws
    let after := match t.action with
      | .read _ _ => m
      | .write a data => Memory.writeBytes m a data
    let data := match t.action with
      | .read a n => Memory.readBytes m a n
      | .write _ _ => []
    let h := LoopHost.decode data
    let fits := 100 ≤ h.cycleLength.toNat ∧
      20 * e.charTime + h.periodicBudget.toNat * 2500 + h.announceWindow.toNat * 2500
        ≤ h.cycleLength.toNat * 2500
    let latched := if fits then { e.cfg with cycleLength := h.cycleLength, periodicBudget := h.periodicBudget
                                             announceWindow := h.announceWindow }
      else e.cfg
    let newStarted := e.cyc.phase ≠ .none ∧ h.announceWindow ≠ 0 ∧
      e.cyc.boundaryAt + h.cycleLength.toNat * 2500 - h.announceWindow.toNat * 2500 ≤ p.now
    let free := { p with port := { p.port with inFlight := none } }
    let reported := fun e : Engine =>
      let cycle := if e.cyc.firstCycle then e.rep.cycleNumber else e.rep.cycleNumber + 1
      let window := if e.cfg.errorWindow = 0 then 1 else e.cfg.errorWindow.toNat
      let run := if e.cyc.firstOfGrid then e.mon.silentRun
        else if e.cyc.answered then 0
        else if e.cyc.attempted then satInc e.mon.silentRun
        else e.mon.silentRun
      let silent := e.cyc.firstOfGrid = false ∧ e.cfg.silenceThreshold ≠ 0 ∧
        e.cfg.silenceThreshold.toNat ≤ run.toNat
      { e with
        rep := { e.rep with
          cycleNumber := cycle
          lateBeacons := if e.cyc.lateTaken then satInc e.rep.lateBeacons else e.rep.lateBeacons }
        cyc := { e.cyc with
          firstCycle := false, lateTaken := false, attempted := false, answered := false
          firstOfGrid := false, overrun := false }
        mon := { e.mon with
          silenceMet := decide silent
          windowErrors := if e.cyc.firstOfGrid = false ∧ cycle.toNat % window = 0 then 0
                          else e.mon.windowErrors
          silentRun := run }
        sched := if silent then [] else .writeLoopHalf :: rest }
    let counting : List SchedOp := [.mark, .cycleStep, .reportStep, .writeLoopHalf] ++ rest
    let answers := fun q : Part =>
      exec (.transferComplete dt ws) s = .next (State.become { s with mem := after } q)
    p.live = true → s.part.port.inFlight = some t → t.orphan = false → t.requester = .sched l →
    t.urgent = false →
      (∀ op acts q, e.ctl.state = .running → e.ctl.rollRequest = false ∨ e.cyc.phase = .boundary →
        e.sched = op :: acts ++ .retimeStep :: counting → acts.length ≤ 100 →
        p.goesOn l op data acts (.retimeStep :: counting) = some q →
        (e.ctl.retimePending = false → answers (q.modEng l reported)) ∧
        (e.ctl.retimePending = true →
          answers (q.modEng l fun e => { e with sched := .readLoopHost .retiming :: counting }))) ∧
      (e.ctl.state = .draining → e.sched = [.readLoopHost .retiming, .mark] →
        answers (free.modEng l fun e => { e with sched := [] })) ∧
      (∀ c, e.ctl.state = .down ∨ e.ctl.state = .jammed →
        e.sched = [.readLoopHost .retiming, .mark, .settleAll .lineLost, .writeLoopHalf, .raise c,
                   .raiseRetimeRefused] →
        (∀ i : StationIx, (p.ctx i).owner = some l → (p.ctx i).inHand = none) →
        let last : List SchedOp := [.writeLoopHalf, .raise c, .raiseRetimeRefused]
        (e.ctl.returnTarget ≠ some .running → answers (free.modEng l fun e => { e with sched := last })) ∧
        (e.ctl.returnTarget = some .running →
          answers (free.modEng l fun e =>
            { e with
              ctl := { e.ctl with retimePending := false }
              cfg := latched
              rep := { e.rep with retimeResult := if fits then .adopted else .refused }
              cyc := { e.cyc with
                retimeRefused := if fits then e.cyc.retimeRefused else true
                announceStarted := if fits then false else e.cyc.announceStarted }
              sched := last }))) ∧
      (e.ctl.state = .running → e.ctl.rollRequest = false ∨ e.cyc.phase = .boundary →
        e.sched = .readLoopHost .retiming :: counting →
        answers (free.modEng l fun e => reported
          { e with
            ctl := { e.ctl with retimePending := false }
            cfg := latched
            rep := { e.rep with retimeResult := if fits then .adopted else .refused }
            cyc := { e.cyc with
              nextGrid := if fits then some (e.cyc.boundaryAt + h.cycleLength.toNat * 2500) else e.cyc.nextGrid
              retimeRefused := if fits then e.cyc.retimeRefused else true
              announceStarted := if fits then decide newStarted else e.cyc.announceStarted } }))

/-- With the draining work ended and no record in hand, the loop enters its drain target; a record in hand is
settled STOPPED, the stations in ascending index, before that. The model's choice: log 20. -/
def Obligations.DrainSettlement : Prop :=
  ∀ (dt : Nat) (l : LoopId) (s : State),
    let p := s.part.tick dt
    let e := p.eng l
    let holders := allStations.filter fun i => (p.ctx i).owner = some l ∧ (p.ctx i).inHand.isSome = true
    p.live = true → e.ctl.state = .draining → e.cyc.turn = none → e.sched = [] → e.urgent = [] →
    e.xu.state = .idle → e.framer.sending = none →
      (holders = [] → e.ctl.drainTarget = some .off →
        exec (.drainSettlement dt l) s =
          .next (s.become (p.offState l [.writeLoopHalf, .raiseRetimeRefused]))) ∧
      (holders = [] → e.ctl.drainTarget = some .quiet →
        exec (.drainSettlement dt l) s =
          .next (s.become (p.modEng l fun e =>
            { e with
              ctl := { e.ctl with state := .quiet, drainTarget := none, returnTarget := none }
              cyc := { e.cyc.stop with turn := none }
              keepaliveFrom := p.now, quietFrom := p.now
              sched := [.writeLoopHalf, .raiseRetimeRefused] }))) ∧
      (∀ i rest k, holders = i :: rest → (p.ctx i).inHand = some k →
        exec (.drainSettlement dt l) s =
          .next (s.become ((p.releaseRelay i).modEng l fun e =>
            { e with sched :=
                [.writeResult i k .stopped 0, .writeDone i k .none .ready, .writeStationHalf i,
                 .raise .exfault, .mark]
                ++ rest.flatMap (fun j => [.settle j .stopped, .mark]) ++ [.enterTarget] })))

/-- A roll-call asks the station at the head of its list by a ROLL frame. Its PRESENT counts, revives the station
and the relayed stations behind it, and the roll-call goes on to the next of its list or ends. And when the
keepalive timer reaches the interval, a keepalive beacon with the held cycle number and QUIET set goes to the
Framer and the timer starts again; it takes the place of one still held. The model's choices: logs 3, 11, 28 and 37. -/
def Obligations.SchedulerFrames : Prop :=
  ∀ (dt : Nat) (l : LoopId) (s : State),
    let p := s.part.tick dt
    let e := p.eng l
    let n := e.rep.cycleNumber
    let id := e.cfg.identity
    p.live = true →
      (∀ i rest, e.ctl.state = .rollcall → e.xu.state = .idle → e.rollList = i :: rest →
        exec (.rollAttempt dt l) s =
          .next (s.become (p.modEng l fun e =>
            Engine.transmits p.now
              { purpose := .request, destination := (p.ctx i).binding.lineAddress
                control := 7 ||| (if (p.ctx i).syncPending then 0x20 else 0), payload := [] }
              { e with xu :=
                { state := .sending
                  attempt := some
                    { kind := .roll, station := some i, seq := false
                      timeout := (p.ctx i).fresh.replyTimeout.toNat * 2500, allowance := 0
                      source := (p.ctx i).binding.lineAddress, latency := none, buffer := [], endOfFrame := 0
                      timeoutPassed := false, skipBroken := false } } }))) ∧
      (∀ cs a i, e.ctl.state = .rollcall → e.sched = [] → e.framer.receiver = .frame cs →
        frameComplete cs = true → frameValid cs = true → e.xu = { state := .receiving, attempt := some a } →
        a.kind = .roll → a.station = some i → (RxFrame.ofChars cs).destination = 0 →
        (RxFrame.ofChars cs).source = a.source → (RxFrame.ofChars cs).control.extractLsb' 0 4 = 14 →
        let rest := e.rollList.drop 1
        let behind := allStations.filter fun j =>
          (p.ctx j).owner = some l ∧ (p.ctx j).binding.coupler.toNat = i.val ∧ (p.ctx j).state = .silent
        let revived := fun c : Context =>
          { c with state := .ready, txSeq := false, rxSeq := false, syncPending := true }
        let present := p.modCtx i fun c =>
          let h := { c with failures := 0, syncPending := false, present := true }
          if c.state = .silent ∨ c.state = .absent then revived h else h
        exec (.frameEnd dt l) s =
          .next (s.become (Part.modEng l
            (fun e =>
              { e with
                framer := { e.framer with receiver := .hunt }
                xu := ExchangeUnit.idle
                cyc := { e.cyc with turn := e.cyc.turn.map fun t => { t with stage := .writes } }
                rep := { e.rep with
                  rollPresent := if e.rep.rollPresent = 255 then 255 else e.rep.rollPresent + 1 }
                rollList := rest, rollSecond := false
                sched := .writeStationHalf i :: behind.map .writeStationHalf
                  ++ if rest = [] then [.rollEnd] else [] })
            (behind.foldl (fun q j => q.modCtx j revived) present)))) ∧
      (e.ctl.state = .quiet → e.cfg.keepalive ≠ 0 →
        e.keepaliveFrom + e.cfg.keepalive.toNat * 25000000 ≤ p.now →
        exec (.keepaliveTimer dt l) s =
          .next (s.become (p.modEng l fun e =>
            Engine.transmits p.now
              { purpose := .keepalive, destination := 255, control := 1
                payload := [n.extractLsb' 24 8, n.extractLsb' 16 8, n.extractLsb' 8 8, n.extractLsb' 0 8,
                            id.extractLsb' 0 8, id.extractLsb' 8 8, id.extractLsb' 16 8, id.extractLsb' 24 8,
                            2] }
              { e with keepaliveFrom := p.now })))

/-! ### Supervision -/

/-- Each of the four criteria takes the loop to DOWN with its reason, or to JAMMED: the work under way is cut off
but for the step it is in, a fetch but for its transfer in progress, the records in hand are settled LINE_LOST one
station after another, and the part half and then the cause follow. In QUIET with wake-on-energy set JAM acts only on an
activity that began before the entry (R144). The model's choices: logs 3, 12, 16, 21, 45 (an activity begun at the
instant of the entry) and 51 (the round-robin pointer stays where it is). -/
def Obligations.DownEntry : Prop :=
  ∀ (dt : Nat) (l : LoopId) (s : State),
    let p := s.part.tick dt
    let e := p.eng l
    let state := e.ctl.state
    let holders := allStations.filter fun i => (p.ctx i).owner = some l ∧ (p.ctx i).inHand.isSome = true
    let abandoned : Part := match e.xu.attempt with
      | none => p
      | some a =>
        if a.kind = AttemptKind.roll ∨ a.kind = AttemptKind.test then p
        else match a.station with
          | some i => p.modCtx i fun c => { c with recLatency := 0xFFFF }
          | none => p
    let reached := fun (since : Option Nat) (duration : Nat) => ∃ t, since = some t ∧ t + duration ≤ p.now
    let answers := fun (r : DownReason) (q : Part) =>
      (r = .carrier → state = .rollcall ∨ state = .running ∨ state = .draining ∨ state = .quiet →
        e.cfg.carrierEnable = true → reached e.mon.carrierSince 500000 →
        exec (.carrierCriterion dt l) s = .next (s.become q)) ∧
      (r = .jam → state = .rollcall ∨ state = .running ∨ state = .quiet → e.cfg.jamTime ≠ 0 →
        e.framer.sending = none → reached e.framer.activity (e.cfg.jamTime.toNat * 250000) →
        (state = .quiet → p.screening.wakeConfig.wakeOnEnergy = true →
          ∃ t, e.framer.activity = some t ∧ t ≤ e.quietFrom) →
        exec (.jamCriterion dt l) s = .next (s.become q)) ∧
      (r = .errors → state = .rollcall ∨ state = .running ∨ state = .draining → e.mon.errorsMet = true →
        exec (.errorsCriterion dt l) s = .next (s.become q)) ∧
      (r = .silence → state = .running → e.mon.silenceMet = true →
        exec (.silenceCriterion dt l) s = .next (s.become q))
    let nothingRuns := e.sched = [] ∨
      (p.schedTransferring l = false ∧ ∃ t, e.cyc.turn = some t ∧ t.stage = .fetch)
    p.live = true → ∀ r : DownReason,
      let last : List SchedOp := [.writeLoopHalf, .raise (if r = .jam then .jam else .down), .raiseRetimeRefused]
      (nothingRuns → holders = [] → answers r (abandoned.downState l r last)) ∧
      (∀ i rest k, nothingRuns → holders = i :: rest → (p.ctx i).inHand = some k →
        answers r ((abandoned.releaseRelay i).downState l r
          ([.writeResult i k .lineLost 0, .writeDone i k .none .ready, .writeStationHalf i, .raise .exfault,
            .mark]
           ++ rest.flatMap (fun j => [.settle j .lineLost, .mark]) ++ last))) ∧
      (∀ op ops, e.sched = op :: ops → (p.schedAction l op).isSome = true →
        (∀ t, e.cyc.turn = some t → t.stage ≠ .fetch) →
        answers r (abandoned.downState l r
          ((keepStep e.sched).filter (fun o => match o with
              | .rollEnd | .followOn _ | .endTurn => false
              | _ => true)
           ++ .settleAll .lineLost :: last))) ∧
      (∀ op ops t, e.sched = op :: ops → (p.schedAction l op).isSome = true → p.schedTransferring l = true →
        e.cyc.turn = some t → t.stage = .fetch →
        answers r (abandoned.downState l r (op :: .settleAll .lineLost :: last)))

/-- The end of the down hold starts the presence measure. When presence has lasted 100 ms in DOWN, or the line
has rested for the jam release time in JAMMED, the loop goes by its return target, and its part half and then
UP follow. An empty roll list ends in RUNNING and ROLLDONE. The beacon of a new grid is late when the line is taken, as
Boundary says what takes it (log 38). The model's choices: logs 3 and 22. -/
def Obligations.Recovery : Prop :=
  ∀ (dt : Nat) (l : LoopId) (s : State),
    let p := s.part.tick dt
    let e := p.eng l
    let atLeast := fun x : Byte => if x = 0 then 1 else x.toNat
    let left := fun (state : LoopState) (e : Engine) =>
      { e with ctl := { e.ctl with state := state, drainTarget := none, returnTarget := none }
               mon := { e.mon with downSince := none, holdPassed := false, presenceSince := none }
               cyc := { e.cyc.stop with turn := none }
               sched := [.writeLoopHalf, .raise .up] }
    p.live = true →
      (∀ t, e.ctl.state = .down → e.mon.holdPassed = false → e.mon.downSince = some t →
        t + atLeast e.cfg.downHold * 2500000 ≤ p.now →
        exec (.downHoldExpiry dt l) s =
          .next (s.become (p.modEng l fun e =>
            { e with mon := { e.mon with
                holdPassed := true, presenceSince := if e.mon.biasOk then some p.now else none } }))) ∧
      (∀ c : Instr,
        (∃ t, c = .downRecovery dt l ∧ e.ctl.state = .down ∧ e.mon.holdPassed = true ∧
          e.mon.presenceSince = some t ∧ t + 2500000 ≤ p.now) ∨
        (c = .jamRelease dt l ∧ e.ctl.state = .jammed ∧ e.framer.activity = none ∧
          e.framer.markSince + atLeast e.cfg.jamRelease * 250000 ≤ p.now) →
        e.sched = [] →
        let toRollcall := e.ctl.returnTarget = some .rollcall ∨
          (e.ctl.returnTarget = some .running ∧ (e.cfg.rollAtRecovery = true ∨ e.ctl.rollRequest = true))
        (e.ctl.returnTarget = some .quiet →
          exec c s = .next (s.become (p.modEng l fun e =>
            { left .quiet e with keepaliveFrom := p.now, quietFrom := p.now }))) ∧
        (e.ctl.returnTarget = some .off →
          exec c s = .next (s.become (p.offState l [.writeLoopHalf, .raise .up]))) ∧
        (toRollcall →
          exec c s =
            .next (s.become (Part.rollcallState l [.raise .up] (p.modEng l fun e =>
              { e with mon := (left .rollcall e).mon })))) ∧
        (e.ctl.returnTarget = some .running → e.cfg.rollAtRecovery = false → e.ctl.rollRequest = false →
          exec c s =
            .next (s.become (p.modEng l fun e =>
              { left .running e with
                cyc := { (left .running e).cyc with
                  nextGrid := some (p.now + e.cfg.cycleLength.toNat * 2500), marked := some p.now
                  late := e.lineTaken, firstOfGrid := true } }))))

/-! ### The Memory Port -/

/-- The end of a transfer frees the port and makes a write's bytes. Its result goes nowhere during a soft reset or
when its procedure has been given up, but that a DONE write which a soft reset found in progress still changes its
context (R35); otherwise the write of a part half is followed by its causes, the ACTIVE write puts the record in hand,
whose copy is then checked: a bad record ends BAD_RECORD, a good one goes to its fit test (TurnFitTest, RelayTurn).
The DONE write gives the station what R35 gives it and the state that its outcome calls for. A link leads to its
record, to the end of the turn at END, or to BAD_LINK outside the pool; a record is taken if POSTED, and ends the
turn if not. The follow-on PUT after a READY is sent if it fits, with no miss if not. After its last write and
causes a turn is over. The writes that come one after another, and judgements with nothing to write, are
ProcedureGoesOn's. What a scan reads is kept and leads, with each write it makes, to its next judgement. The write
for the last station of a roll-call, with its causes, is followed by RUNNING and ROLLDONE, that of a boundary by its
beacon, which is not sent once the next boundary is marked or a ROLLCALL waits, that of a fill by CATCH when CATCH_NOTIFY
is set; and a part-half write after a refused RETIME by REFUSED, once. A ROLLCALL that waits for the end of a turn or of
the boundary work is entered there. A beacon of RUNNING entered so is late as Boundary says (log 38). The model's
choices: logs 5, 20, 25, 40, 44 and 54 (the beacon goes to the Framer in the announce window too). -/
def Obligations.TransferComplete : Prop :=
  ∀ (dt : Nat) (ws : List (Word × Byte)) (l : LoopId) (t : Transfer) (s : State),
    let p := s.part.tick dt
    let e := p.eng l
    let m := Memory.hostWrites s.mem ws
    let after := match t.action with
      | .read _ _ => m
      | .write a data => Memory.writeBytes m a data
    let data := match t.action with
      | .read a n => Memory.readBytes m a n
      | .write _ _ => []
    let free := { p with port := { p.port with inFlight := none } }
    let answers := fun q : Part =>
      exec (.transferComplete dt ws) s = .next (State.become { s with mem := after } q)
    let procedure := fun (ops : List SchedOp) (q : Part) => q.modEng l fun e => { e with sched := ops }
    let completed := fun (k : RecordIx) (flip : SeqFlip) (y : AfterRecord) (c : Context) =>
      let d := { c with
        parked := some k, inHand := none, copy := none, phase := .none
        completed := c.completed + 1
        txSeq := if flip = .tx then !c.txSeq else c.txSeq
        rxSeq := if flip = .rx then !c.rxSeq else c.rxSeq }
      match y with
      | .ready => { d with state := .ready }
      | .silent => { d with state := .silent }
      | .absent => { d with state := .absent }
      | .halted r =>
        if c.state = .halted then d
        else { d with state := .halted, reason := r, latchedRelease := c.fresh.releaseCount
                      failures := 0 }
      | .disabled => { d with state := .disabled, reason := .none, parked := none }
      | .rejected => { d with state := .rejected, reason := .field, parked := none }
    (s.part.port.inFlight = none →
      exec (.transferComplete dt ws) s = .next (State.become { s with mem := m } p)) ∧
    (s.part.port.inFlight = some t →
      (t.orphan = true ∨ p.resetHeld = true → answers free) ∧
      (p.live = false →
        t.urgent = true ∨ (∃ x, t.requester = .catcher x) ∨
          (t.requester = .sched l ∧ ∀ i k flip y rest, e.sched ≠ .writeDone i k flip y :: rest) →
        answers free) ∧
      (∀ i k flip y rest, p.resetHeld = false → p.resetting = true → t.orphan = false → t.urgent = false →
        t.requester = .sched l → e.sched = .writeDone i k flip y :: rest →
        answers (procedure rest (free.modCtx i (completed k flip y)))) ∧
      (p.live = true → t.orphan = false → t.requester = .sched l → t.urgent = true → ∀ op c rest,
        e.urgent = op :: .raise c :: rest → rest = [] ∨ rest.head? = some .writeLoopHalf → p.settled l = true →
        answers { (free.modEng l fun e => { e with urgent := rest }) with
                  cause := p.cause ||| causeBit l c }) ∧
      (p.live = true → t.orphan = false → t.requester = .sched l → t.urgent = true → ∀ op rest,
        e.urgent = op :: .raiseCatch :: rest → rest = [] ∨ rest.head? = some .writeLoopHalf →
        p.settled l = true →
        answers { (free.modEng l fun e => { e with urgent := rest }) with
                  cause := if e.cfg.catchNotify then p.cause ||| causeBit l .catch_ else p.cause }) ∧
      (p.live = true → t.orphan = false → t.requester = .sched l → t.urgent = true → ∀ op rest,
        e.urgent = op :: rest → rest = [] ∨ rest.head? = some .writeLoopHalf → p.settled l = true →
        answers (free.modEng l fun e => { e with urgent := rest })) ∧
      (p.live = true → t.orphan = false → t.requester = .sched l → t.urgent = false →
        (∀ op c rest, e.sched = op :: .raise c :: rest →
          op = .writeLoopHalf ∨ (∃ i, op = .writeStationHalf i) → (procedure rest free).settled l = true →
          answers { procedure rest free with cause := p.cause ||| causeBit l c }) ∧
        (∀ i k flip y rest, e.sched = .writeDone i k flip y :: .writeStationHalf i :: rest →
          answers (procedure (.writeStationHalf i :: rest) (free.modCtx i (completed k flip y)))) ∧
        (∀ j op rest, e.sched = .readStationHost j :: op :: rest →
          let read := procedure (op :: rest)
            (free.modEng l fun e => { e with scan := e.scan.set j (StationHost.decode data) })
          ((p.schedAction l op).isSome = true → answers read) ∧
          (∀ i, op = .judge i →
            let judged := (procedure rest read).judgeEntry l i
            judged.settled l = true → answers judged)) ∧
        (∀ j i rest, e.sched = .writeStationHalf j :: .judge i :: rest →
          let judged := (procedure rest free).judgeEntry l i
          judged.settled l = true → answers judged) ∧
        (∀ op acts q, e.sched = op :: acts ++ [.rollEnd] → e.ctl.state = .rollcall → acts.length ≤ 100 →
          p.goesOn l op data acts [.rollEnd] = some q →
          answers (q.modEng l fun e =>
            { e with
              ctl := { e.ctl with state := .running, drainTarget := none, returnTarget := none }
              cyc := { e.cyc.stop with
                nextGrid := some (p.now + e.cfg.cycleLength.toNat * 2500), marked := some p.now
                late := e.lineTaken, firstOfGrid := true, turn := none }
              sched := [.writeLoopHalf, .raise .rolldone] })) ∧
        (∀ i k copy, e.sched = [.writeActive i k copy] → e.ctl.state = .running ∨ e.ctl.state = .draining →
          answers (procedure [.writeStationHalf i, .takeCheck i] (free.modCtx i fun c =>
            { c with
              inHand := some k, copy := some copy, state := .active, phase := .first, recAttempts := 0
              recHolds := 0, recDuplicates := 0, recLatency := 0xFFFF }))) ∧
        (∀ i k r, e.sched = [.writeStationHalf i, .takeCheck i] → (p.ctx i).copy = some r →
          (p.ctx i).inHand = some k →
          let n := r.requestLength.toNat
          let bad := (r.kind ≠ 1 ∧ r.kind ≠ 2) ∨ (r.kind = 1 ∧ 8 < n) ∨ (r.kind = 2 ∧ (n = 0 ∨ 96 < n)) ∨
            ((p.ctx i).binding.coupler ≠ 0xFF ∧ 93 < n)
          let tested := (procedure [] free).fitTest l i
          (bad → answers (free.modEng l fun e =>
            { e with
              cyc := { e.cyc with turn := e.cyc.turn.map fun t => { t with stage := .writes } }
              sched := [.writeResult i k .badRecord 0, .writeDone i k .none .ready, .writeStationHalf i,
                        .raise .exfault, .endTurn] })) ∧
          (¬ bad → tested.settled l = true → answers tested)) ∧
        (∀ i, e.sched = [.readLink i] → e.ctl.state = .running ∨ e.ctl.state = .draining →
          let link := (wordAt data 0).extractLsb' 0 10
          (link ≠ 1023 → link.toNat < e.poolSize.toNat → answers (procedure [.readRecord i link] free)) ∧
          (link ≠ 1023 → e.poolSize.toNat ≤ link.toNat → (p.ctx i).inHand = none → (p.ctx i).state ≠ .halted →
            answers (Part.modEng l
              (fun e =>
                { e with
                  cyc := { e.cyc with turn := e.cyc.turn.map fun t => { t with stage := .writes } }
                  sched := [.writeStationHalf i, .raise .halted, .endTurn] })
              ((free.releaseRelay i).modCtx i fun c =>
                { c with state := .halted, reason := .badLink, latchedRelease := c.fresh.releaseCount
                         failures := 0 }))) ∧
          (∀ turn, link = 1023 → e.cyc.turn = some turn →
            answers ((Part.turnOver l turn (procedure [] free)).workOver l))) ∧
        (∀ i k, e.sched = [.readRecord i k] → e.ctl.state = .running ∨ e.ctl.state = .draining →
          (byteAt data 0 = 1 →
            answers (procedure [.writeActive i k
              { kind := byteAt data 8, notify := (byteAt data 9).getLsbD 0
                strict := (byteAt data 9).getLsbD 1, requestLength := byteAt data 10
                holdLimit := byteAt data 11, request := (data.drop 32).take (byteAt data 10).toNat }] free)) ∧
          (∀ turn, byteAt data 0 ≠ 1 → e.cyc.turn = some turn →
            answers ((Part.turnOver l turn (procedure [] free)).workOver l))) ∧
        (∀ i r turn, e.sched = [.writeStationHalf i, .followOn i] →
          (p.ctx i).binding.coupler = 0xFF → (p.ctx i).copy = some r → e.cyc.turn = some turn →
          let c := p.ctx i
          let estimate := (7 + r.request.length + 7 + 0 + 4) * e.charTime + c.fresh.replyTimeout.toNat * 2500
          let announceStart :=
            e.cyc.boundaryAt + e.cfg.cycleLength.toNat * 2500 - e.cfg.announceWindow.toNat * 2500
          let windowEnd :=
            if turn.periodic then min (e.cyc.beaconEnd + e.cfg.periodicBudget.toNat * 2500) announceStart
            else announceStart
          (e.ctl.state = .running → e.cyc.marked = none → e.ctl.rollRequest = false →
            p.now + estimate ≤ windowEnd →
            answers (free.modEng l fun e =>
              Engine.transmits p.now
                { purpose := .request, destination := c.binding.lineAddress
                  control := AttemptKind.control .put c.txSeq c.syncPending, payload := r.request }
                { e with
                  xu := { state := .sending
                          attempt := some
                            { kind := .put, station := some i, seq := c.txSeq
                              timeout := c.fresh.replyTimeout.toNat * 2500, allowance := 0
                              source := c.binding.lineAddress, latency := none, buffer := [], endOfFrame := 0
                              timeoutPassed := false, skipBroken := false } }
                  cyc := { e.cyc with attempted := true, visited := []
                                      turn := some { turn with stage := .attempt, attempted := true } }
                  sched := [] })) ∧
          (e.ctl.state = .running → e.cyc.marked = none → e.ctl.rollRequest = false →
            windowEnd < p.now + estimate →
            answers (Part.turnOver l { turn with closing := turn.closing || !turn.periodic }
              (procedure [] free))) ∧
          (e.ctl.state ≠ .running ∨ e.cyc.marked.isSome = true ∨ e.ctl.rollRequest = true →
            answers ((Part.turnOver l turn (procedure [] free)).workOver l))) ∧
        (∀ i (cs : List Cause) turn, e.sched = .writeStationHalf i :: cs.map .raise ++ [.endTurn] →
          cs.length ≤ 3 → e.cyc.turn = some turn →
          answers (Part.workOver l { Part.turnOver l turn (procedure [] free) with
                    cause := cs.foldl (fun x c => x ||| causeBit l c) p.cause })) ∧
        (∀ c : Option Cause, e.sched = .writeLoopHalf :: c.toList.map .raise ++ [.raiseRetimeRefused] →
          (procedure [] free).settled l = true →
          answers { (free.modEng l fun e =>
                      { e with cyc := { e.cyc with retimeRefused := false }, sched := [] }) with
                    cause := c.toList.foldl (fun x c => x ||| causeBit l c) p.cause
                      ||| (if e.cyc.retimeRefused then causeBit l .refused else 0) }) ∧
        (e.sched = [.writeLoopHalf, .raiseRetimeRefused, .mark, .beaconStep] → e.ctl.state = .running →
          e.cyc.marked = none → e.ctl.rollRequest = false →
          let n := e.rep.cycleNumber
          let id := e.cfg.identity
          answers (Part.modEng l
            (fun e =>
              Engine.transmits p.now
                { purpose := .beacon, destination := 255, control := 1
                  payload := [n.extractLsb' 24 8, n.extractLsb' 16 8, n.extractLsb' 8 8, n.extractLsb' 0 8,
                              id.extractLsb' 0 8, id.extractLsb' 8 8, id.extractLsb' 16 8, id.extractLsb' 24 8,
                              if e.cfg.announceWindow = 0 then 0 else 1] }
                { e with cyc := { e.cyc with phase := .beacon, retimeRefused := false }, sched := [] })
            { free with cause :=
              if e.cyc.retimeRefused then p.cause ||| causeBit l .refused else p.cause })) ∧
        (e.sched = [.writeLoopHalf, .raiseRetimeRefused, .mark, .beaconStep] →
          e.ctl.state ≠ .running ∨ e.cyc.marked.isSome = true ∨ e.ctl.rollRequest = true →
          answers (Part.workOver l (Part.modEng l
            (fun e => { e with cyc := { e.cyc with phase := .beacon, retimeRefused := false }, sched := [] })
            { free with cause :=
              if e.cyc.retimeRefused then p.cause ||| causeBit l .refused else p.cause })))))

/-- A procedure goes on from the end of one transfer to the next. The writes of R35 follow one another in their
order, the part halves of a coupler and of the stations behind it too, and the memory has the bytes of each. Between
them its causes are raised, a disabled station loses its owner, and stations are judged with nothing to write, up to a
judgement that has something to write. The settlements of an entry to DOWN, JAMMED or a drain target follow one another
in ascending index, then come the write of that entry, the drain target, or OFF after a STOP. The end of a turn, and of
the work of a boundary with its beacon, come in the same way, and a ROLLCALL that waits for the end of the work is
entered there. The model's choices: logs 5, 20 (REFUSED after the write of the entry), 23, 25, 44 and 54 (the beacon
goes to the Framer in the announce window too). -/
def Obligations.ProcedureGoesOn : Prop :=
  ∀ (dt : Nat) (ws : List (Word × Byte)) (l : LoopId) (t : Transfer) (op : SchedOp) (acts rest : List SchedOp)
    (q : Part) (s : State),
    let p := s.part.tick dt
    let e := p.eng l
    let m := Memory.hostWrites s.mem ws
    let after := match t.action with
      | .read _ _ => m
      | .write a data => Memory.writeBytes m a data
    let data := match t.action with
      | .read a n => Memory.readBytes m a n
      | .write _ _ => []
    let answers := fun q : Part =>
      exec (.transferComplete dt ws) s = .next (State.become { s with mem := after } q)
    let withSched := fun ops : List SchedOp => q.modEng l fun e => { e with sched := ops }
    let holders := allStations.filter fun i => (q.ctx i).owner = some l ∧ (q.ctx i).inHand.isSome = true
    let settled := fun (i : StationIx) (k : RecordIx) (o : RecordOutcome) (follow : List SchedOp) =>
      (q.releaseRelay i).modEng l fun e =>
        { e with sched :=
            [.writeResult i k o 0, .writeDone i k .none .ready, .writeStationHalf i, .raise .exfault] ++ follow }
    s.part.port.inFlight = some t → p.live = true → t.orphan = false → t.requester = .sched l →
    t.urgent = false → e.sched = op :: acts ++ rest → acts.length ≤ 100 →
    p.goesOn l op data acts rest = some q →
      (q.settled l = true → answers q) ∧
      (rest = [] → answers (q.workOver l)) ∧
      (∀ turn, rest = [.endTurn] → e.cyc.turn = some turn →
        answers ((Part.turnOver l turn (withSched [])).workOver l)) ∧
      (rest = [.beaconStep] →
        let n := (q.eng l).rep.cycleNumber
        let id := e.cfg.identity
        (e.ctl.state = .running → e.cyc.marked = none → e.ctl.rollRequest = false →
          answers (q.modEng l fun e =>
            Engine.transmits p.now
              { purpose := .beacon, destination := 255, control := 1
                payload := [n.extractLsb' 24 8, n.extractLsb' 16 8, n.extractLsb' 8 8, n.extractLsb' 0 8,
                            id.extractLsb' 0 8, id.extractLsb' 8 8, id.extractLsb' 16 8, id.extractLsb' 24 8,
                            if e.cfg.announceWindow = 0 then 0 else 1] }
              { e with cyc := { e.cyc with phase := .beacon }, sched := [] })) ∧
        (e.ctl.state ≠ .running ∨ e.cyc.marked.isSome = true ∨ e.ctl.rollRequest = true →
          answers (Part.workOver l (q.modEng l fun e =>
            { e with cyc := { e.cyc with phase := .beacon }, sched := [] })))) ∧
      (∀ i tail, rest = .judge i :: tail →
        let judged := (withSched tail).judgeEntry l i
        judged.settled l = true → answers judged) ∧
      (∀ o, o = .stopped ∨ o = .lineLost →
        (∀ i k tail, rest = .settle i o :: tail → (q.ctx i).inHand = some k → answers (settled i k o tail)) ∧
        (∀ tail, rest = .settleAll o :: tail →
          (holders = [] → (withSched tail).settled l = true → answers (withSched tail)) ∧
          (∀ i k others, holders = i :: others → (q.ctx i).inHand = some k →
            answers (settled i k o (.mark :: others.flatMap (fun j => [.settle j o, .mark]) ++ tail))))) ∧
      (rest = [.enterOff] ∨ (rest = [.enterTarget] ∧ e.ctl.drainTarget = some .off) →
        answers (Part.offState l [.writeLoopHalf, .raiseRetimeRefused] (withSched []))) ∧
      (rest = [.enterTarget] → e.ctl.drainTarget = some .quiet →
        answers (q.modEng l fun e =>
          { e with
            ctl := { e.ctl with state := .quiet, drainTarget := none, returnTarget := none }
            cyc := { e.cyc.stop with turn := none }
            keepaliveFrom := p.now, quietFrom := p.now
            sched := [.writeLoopHalf, .raiseRetimeRefused] }))

/-- The judgement of station entry `i` on the host half that the scan has read. A candidate is admitted, with halt set
to HALTED at once, or rejected; a REJECTED station is examined again; an admitted station is rejected when its fields
fail, and otherwise takes its fresh fields, leaves HALTED on a new release count, or enters HALTED on halt; a station
no longer enabled for the loop is disabled. A record in hand is settled first. The entries of the other loop are left
alone, those that this STARTING reset too (the model's choice, log 49), and a station that this STARTING reset and does
not admit has its part half written. -/
def Obligations.RosterJudgements : Prop :=
  ∀ (p : Part) (l : LoopId) (i : StationIx),
    let h := (p.eng l).scan[i]
    let c := p.ctx i
    let admitted := fun j : StationIx => (p.ctx j).owner = some l ∧
      ((p.ctx j).state = .ready ∨ (p.ctx j).state = .active ∨ (p.ctx j).state = .silent ∨
        (p.ctx j).state = .absent ∨ (p.ctx j).state = .halted)
    let valid := fun b : Binding =>
      1 ≤ b.lineAddress.toNat ∧ b.lineAddress.toNat ≤ 239 ∧ h.intervalCode.toNat ≤ 7 ∧
      (b.cls = .aperiodic ∨ h.phase.toNat < 2 ^ h.intervalCode.toNat) ∧ 1 ≤ h.replyTimeout.toNat ∧
      1 ≤ h.retryLimit.toNat ∧ h.retryLimit.toNat ≤ 7 ∧
      (b.coupler = 0xFF → h.maxReply.toNat ≤ 96) ∧
      (b.coupler ≠ 0xFF → h.maxReply.toNat ≤ 93 ∧ h.collectDelay.toNat ≤ 15 ∧ 1 ≤ h.patience.toNat ∧
        ∃ j : StationIx, b.coupler.toNat = j.val ∧ j ≠ i ∧ admitted j ∧ (p.ctx j).binding.coupler = 0xFF)
    let clash := fun b : Binding => ∃ j : StationIx, j ≠ i ∧ admitted j ∧
      (p.ctx j).binding.coupler = b.coupler ∧ (p.ctx j).binding.lineAddress = b.lineAddress
    let here : Binding :=
      { loop := h.loop, cls := h.cls, lineAddress := h.lineAddress, coupler := h.coupler }
    let fresh : Fresh :=
      { intervalCode := h.intervalCode, phase := h.phase, maxReply := h.maxReply
        replyTimeout := h.replyTimeout, retryLimit := h.retryLimit, acceptAnnounce := h.acceptAnnounce
        wake := h.wake, halt := h.halt, releaseCount := h.releaseCount, chainHead := h.chainHead
        collectDelay := h.collectDelay, patience := h.patience }
    let newcomer : Context :=
      { Context.reset with owner := some l, state := .ready, binding := here, fresh := fresh
                           syncPending := true, latchedRelease := h.releaseCount }
    let becomes := fun (q : Part) (ops : List SchedOp) (change : Context → Context) =>
      p.judgeEntry l i = Part.modEng l
        (fun e => { e with resetSet := e.resetSet.filter fun j => j != i, sched := ops ++ e.sched })
        (q.modCtx i change)
    let admits :=
      (h.halt = false → becomes p [.writeStationHalf i] fun _ => newcomer) ∧
      (h.halt = true → becomes p [.writeStationHalf i, .raise .halted] fun _ =>
        { newcomer with state := .halted, reason := .host })
    let settles := fun (outcome : RecordOutcome) (k : RecordIx) (y : AfterRecord) (last : List SchedOp) =>
      [.writeResult i k outcome 0, .writeDone i k .none y, .writeStationHalf i, .raise .exfault] ++ last
    let mine := h.enable = true ∧ h.loop = l
    (c.owner = some (otherLoop l) → becomes p [] id) ∧
    (c.owner = none →
      (¬ mine → becomes p (if i ∈ (p.eng l).resetSet then [.writeStationHalf i] else []) id) ∧
      (mine → valid here → ¬ clash here → admits) ∧
      (mine → ¬ valid here → becomes p [.writeStationHalf i, .raise .reject] fun _ =>
        { newcomer with state := .rejected, reason := .field }) ∧
      (mine → valid here → clash here → becomes p [.writeStationHalf i, .raise .reject] fun _ =>
        { newcomer with state := .rejected, reason := .duplicate })) ∧
    (c.owner = some l →
      (¬ mine →
        (∀ k, c.inHand = some k → becomes (p.releaseRelay i) (settles .disabled k .disabled [.disown i]) id) ∧
        (c.inHand = none → becomes (p.releaseRelay i) [.writeStationHalf i, .disown i] fun c =>
          { c with state := .disabled, reason := .none, phase := .none, parked := none })) ∧
      (mine → c.state = .rejected →
        (valid here → ¬ clash here → admits) ∧
        (∀ r : ReasonCode, (¬ valid here ∧ r = .field) ∨ (valid here ∧ clash here ∧ r = .duplicate) →
          becomes p (if r = c.reason then [] else [.writeStationHalf i]) fun c =>
            { c with binding := here, fresh := fresh, reason := r })) ∧
      (mine → c.state ≠ .rejected →
        let clipped := if h.retryLimit.toNat ≤ c.failures.toNat then h.retryLimit - 1 else c.failures
        let refreshed := fun c : Context => { c with fresh := fresh, failures := clipped }
        (¬ valid c.binding →
          (∀ k, c.inHand = some k →
            becomes (p.releaseRelay i) (settles .disabled k .rejected [.raise .reject]) id) ∧
          (c.inHand = none → becomes (p.releaseRelay i) [.writeStationHalf i, .raise .reject] fun c =>
            { c with state := .rejected, reason := .field, parked := none })) ∧
        (valid c.binding →
          (c.state = .halted →
            (h.halt = false ∧ h.releaseCount ≠ c.latchedRelease →
              becomes p [.writeStationHalf i] fun c =>
                { refreshed c with state := .ready, reason := .none, txSeq := false, rxSeq := false
                                   syncPending := true }) ∧
            (h.halt = true ∨ h.releaseCount = c.latchedRelease → becomes p [] refreshed)) ∧
          (c.state ≠ .halted →
            (h.halt = false →
              becomes p (if clipped = c.failures then [] else [.writeStationHalf i]) refreshed) ∧
            (∀ k, h.halt = true → c.inHand = some k →
              becomes (p.releaseRelay i) (settles .halted k (.halted .host) [.raise .halted]) refreshed) ∧
            (h.halt = true → c.inHand = none →
              becomes (p.releaseRelay i) [.writeStationHalf i, .raise .halted] fun c =>
                { refreshed c with state := .halted, reason := .host, latchedRelease := h.releaseCount
                                   failures := 0 })))))

/-- STARTING and TEST entry, transfer by transfer. The global descriptor's read gives the pool; on the loop
descriptor's the entry is validated. A fault found takes the loop to OFF with its code, the part half written and
REFUSED raised. Otherwise STARTING latches the pool and the descriptor, the test fields kept, once no keepalive is
being sent; from OFF it resets what R127 names, while a wake entry keeps it; the write of the part half, the scan
and, after its last write or its last judgement with nothing to write, RUNNING or ROLLCALL follow. TEST latches its
fields, resets the test unit, and after the write of the part half draws and sends its first frame. The first beacon
of RUNNING is late as Boundary says. The model's choices: logs 5, 34, 38, 42 and 46 (the internal path of an
INTERNAL_RETURN test is at mark from the latch on). -/
def Obligations.StartingSteps : Prop :=
  ∀ (dt : Nat) (ws : List (Word × Byte)) (l : LoopId) (t : Transfer) (s : State),
    let p := s.part.tick dt
    let e := p.eng l
    let m := Memory.hostWrites s.mem ws
    let after := match t.action with
      | .read _ _ => m
      | .write a data => Memory.writeBytes m a data
    let data := match t.action with
      | .read a n => Memory.readBytes m a n
      | .write _ _ => []
    let free := { p with port := { p.port with inFlight := none } }
    let answers := fun q : Part =>
      exec (.transferComplete dt ws) s = .next (State.become { s with mem := after } q)
    let h := LoopHost.decode data
    let fits := 100 ≤ h.cycleLength.toNat ∧
      20 * Config.charTime h.bitRate + h.periodicBudget.toNat * 2500 + h.announceWindow.toNat * 2500
        ≤ h.cycleLength.toNat * 2500
    let poolFits := 1 ≤ e.globalSize.toNat ∧ e.globalSize.toNat ≤ 1023
    let testFits := h.testMode.toNat ≤ 1 ∧ h.counterMode.toNat ≤ 1 ∧ 1 ≤ h.testLength.toNat ∧
      h.testLength.toNat ≤ 96 ∧
      (h.testMode = 1 → 1 ≤ h.echoAddress.toNat ∧ h.echoAddress.toNat ≤ 239)
    let refused := fun err : StartError =>
      answers (Part.offState l [.writeLoopHalf, .raise .refused] (free.modEng l fun e =>
        { e with hostBuf := h, sched := [], rep := { e.rep with startError := err } }))
    let scan : List SchedOp := allStations.map .readStationHost ++ allStations.map .judge ++ [.mark, .startNext]
    s.part.port.inFlight = some t → p.live = true → t.orphan = false → t.requester = .sched l →
    t.urgent = false →
      (∀ op rest, e.sched = .readGlobal :: op :: rest → (p.schedAction l op).isSome = true →
        answers (free.modEng l fun e =>
          { e with globalBase := wordAt data 0 &&& 0xFFFFFF80, globalSize := halfAt data 4
                   sched := op :: rest })) ∧
      (e.ctl.state = .starting → e.sched = [.readLoopHost .starting, .startValidate] →
        (¬ poolFits → refused .pool) ∧
        (poolFits → 3 < h.bitRate.toNat → refused .rate) ∧
        (poolFits → h.bitRate.toNat ≤ 3 → ¬ fits → refused .timing) ∧
        (poolFits → h.bitRate.toNat ≤ 3 → fits →
          (e.framer.sending.isSome = true →
            answers (free.modEng l fun e =>
              { e with
                hostBuf := h, ctl := { e.ctl with validated := true }
                sched := [.awaitTransmitter, .startLatch, .mark, .startResets, .writeLoopHalf, .mark]
                  ++ scan })) ∧
          (e.framer.sending = none → e.ctl.startFromOff = false →
            answers (free.modEng l fun e => { e.startLatched h with resetSet := [] })) ∧
          (e.framer.sending = none → e.ctl.startFromOff = true →
            answers (Part.modEng l
              (fun e =>
                { e.startLatched h with
                  rep := LoopReport.reset
                  cyc := { e.cyc with firstCycle := true, pointer := 0 }
                  trap := TrapSlot.reset, catcher := CatchUnit.reset
                  resetSet := allStations.filter fun i => (p.ctx i).owner = some l })
              { free with
                contexts := p.contexts.map fun c => if c.owner = some l then Context.reset else c
                relays := p.relays.map fun o =>
                  o.bind fun r => if r.loop = l then none else some r })))) ∧
      (∀ op acts q, e.ctl.state = .starting → e.sched = op :: acts ++ [.startNext] → acts.length ≤ 100 →
        p.goesOn l op data acts [.startNext] = some q →
        (e.cfg.rollAtStart = false →
          answers (q.modEng l fun e =>
            { e with
              ctl := { e.ctl with state := .running, drainTarget := none, returnTarget := none }
              cyc := { e.cyc.stop with
                nextGrid := some (p.now + e.cfg.cycleLength.toNat * 2500), marked := some p.now
                late := e.lineTaken, firstOfGrid := true, turn := none }
              sched := [.writeLoopHalf] })) ∧
        (e.cfg.rollAtStart = true →
          answers (Part.rollcallState l [] (q.modEng l fun e => { e with sched := [] })))) ∧
      (e.ctl.state = .test → e.sched = [.readLoopHost .testing, .testValidate] →
        (3 < h.bitRate.toNat → refused .rate) ∧
        (h.bitRate.toNat ≤ 3 → ¬ testFits → refused .test) ∧
        (h.bitRate.toNat ≤ 3 → testFits →
          answers (Part.modEng l
            (fun e =>
              { e with
                hostBuf := h
                cfg := { e.cfg with
                  bitRate := h.bitRate, testLength := h.testLength, echoAddress := h.echoAddress
                  testCount := h.testCount, testMode := h.testMode, counterMode := h.counterMode }
                ctl := { e.ctl with validated := true }
                framer := { e.framer with
                  receiver := .discard
                  activity := if h.testMode = 0 then none else e.framer.activity
                  markSince := if h.testMode = 0 then p.now else e.framer.markSince }
                rep := { e.rep with startError := .none }
                xu := ExchangeUnit.idle
                sched := [.writeLoopHalf, .testFirst] })
            { free with testUnit :=
              { owner := p.testUnit.owner, status := .running, generator := BitVec.allOnes 15, copy := []
                sent := 0, intact := 0, lost := 0, mismatched := 0 } }))) ∧
      (e.ctl.state = .test → e.ctl.validated = true → e.sched = [.writeLoopHalf, .testFirst] →
        p.testUnit.sent = 0 → e.cfg.testMode.toNat ≤ 1 →
        answers (Part.testGoesOn l p.testUnit (free.modEng l fun e => { e with sched := [] })))

/-- The catch walk: a link in the pool leads to the record's state, an OPEN record is written and filled, and
END, a link outside the pool or a record not OPEN drops the frame. The model's choice: log 5. -/
def Obligations.CatchWalk : Prop :=
  ∀ (dt : Nat) (ws : List (Word × Byte)) (l : LoopId) (t : Transfer) (op : CatchOp) (f : CatchFrame)
    (s : State),
    let p := s.part.tick dt
    let e := p.eng l
    let m := Memory.hostWrites s.mem ws
    let after := match t.action with
      | .read _ _ => m
      | .write a data => Memory.writeBytes m a data
    let data := match t.action with
      | .read a n => Memory.readBytes m a n
      | .write _ _ => []
    let answers := fun (change : Engine → Engine) =>
      exec (.transferComplete dt ws) s =
        .next (State.become { s with mem := after }
          (Part.modEng l change { p with port := { p.port with inFlight := none } }))
    let walks := fun (o : CatchOp) (e : Engine) => { e with catcher := { e.catcher with walk := some o } }
    let drops := fun (stalled : Bool) (e : Engine) =>
      { e with catcher := { e.catcher with
                 buffer := none, walk := none, drops := satInc e.catcher.drops, stalled := stalled }
               urgent := e.urgent ++ [.writeLoopHalf, .raise .starved] }
    let link := (wordAt data 0).extractLsb' 0 10
    s.part.port.inFlight = some t → t.requester = .catcher l → t.orphan = false → p.live = true →
    p.settled l = true → e.catcher.walk = some op → e.catcher.buffer = some f →
      (op = .readHead ∨ (∃ j, op = .readLink j) →
        (link = 1023 → answers (drops false)) ∧
        (link ≠ 1023 → link.toNat < e.catcher.poolSize.toNat →
          answers fun e => { e with catcher := { e.catcher with stalled := false
                                                                walk := some (.readState link) } }) ∧
        (link ≠ 1023 → e.catcher.poolSize.toNat ≤ link.toNat → answers (drops true))) ∧
      (∀ k, op = .readState k →
        (byteAt data 0 = 4 → answers (walks (.writeFields k))) ∧
        (byteAt data 0 ≠ 4 → answers (drops false))) ∧
      (∀ k, op = .writeFields k →
        answers (walks (if f.payload = [] then .writeFilled k else .writePayload k))) ∧
      (∀ k, op = .writePayload k → answers (walks (.writeFilled k))) ∧
      (∀ k, op = .writeFilled k →
        answers fun e =>
          { e with catcher := { e.catcher with
                     buffer := none, walk := none, fills := satInc e.catcher.fills, stalled := false
                     parked := some k }
                   urgent := e.urgent ++ [.writeLoopHalf, .raiseCatch] })

/-- A bus error puts the loop of the failed transfer in FAULT with BUSFAULT, its Framer stopped, its procedures
given up, its contexts, relay entries and test unit dealt with, and its other transfer, if the next grant came
first, without a result, but that a DONE write so granted still makes its context change. That grant is not for the
requester whose transfer failed. A REFUSED still owed for a refused RETIME is not raised (log 20), nor is one that waits
behind TESTDONE (log 47), both the model's choices. Only the bytes of a failed write that landed stand. During a soft
reset the error is discarded. The model's other choices: logs 5 and 8. -/
def Obligations.BusError : Prop :=
  ∀ (dt : Nat) (ws : List (Word × Byte)) (landed : BitVec 128) (grantFirst : Bool) (t : Transfer) (s : State),
    let p := s.part.tick dt
    let l := match t.requester with | .sched l => l | .catcher l => l
    let m := Memory.hostWrites s.mem ws
    let after := match t.action with
      | .read _ _ => m
      | .write a data => Memory.writeLanded m a landed data
    let free := { p with port := { p.port with inFlight := none } }
    let withdrawn := match t.requester with
      | .sched l => free.modEng l fun e => { e with sched := [], urgent := [] }
      | .catcher l => free.modEng l fun e => { e with catcher := { e.catcher with walk := none } }
    let base := if grantFirst then withdrawn.arbitrate else free
    let done : List SchedOp := match base.port.inFlight, (base.eng l).sched with
      | some u, .writeDone i k x y :: _ =>
        if u.requester = .sched l ∧ u.orphan = false ∧ u.urgent = false then [.writeDone i k x y] else []
      | _, _ => []
    let answers := fun q : Part =>
      exec (.busError dt ws landed grantFirst) s = .next (State.become { s with mem := after } q)
    (s.part.port.inFlight = none →
      exec (.busError dt ws landed grantFirst) s = .next (State.become { s with mem := m } p)) ∧
    (s.part.port.inFlight = some t → p.live = false → answers free) ∧
    (s.part.port.inFlight = some t → p.live = true →
      answers (Part.modEng l
        (fun e =>
          { e with
            ctl := { e.ctl with state := .fault, drainTarget := none, returnTarget := none
                                rollRequest := false, validated := false }
            cyc := { e.cyc.stop with turn := none, retimeRefused := false }
            xu := ExchangeUnit.idle
            framer := { running := false, receiver := .discard, held := none, sending := none
                        activity := none, markSince := 0 }
            mon := { e.mon with carrierSince := none, errorsMet := false, silenceMet := false
                                downSince := none, holdPassed := false, presenceSince := none }
            rollList := [], rollSecond := false, sched := done, urgent := []
            catcher := { e.catcher with walk := none } })
        { base with
          cause := p.cause ||| causeBit l .busfault
          contexts := p.contexts.map fun c =>
            if c.owner = some l then
              { c with inHand := none, copy := none, phase := .none
                       state := if c.state = .active then .ready else c.state }
            else c
          relays := p.relays.map fun o => o.bind fun r => if r.loop = l then none else some r
          testUnit :=
            if p.testUnit.owner = some l then
              { p.testUnit with
                owner := none, status := .abandoned, copy := []
                lost := if p.testUnit.copy = [] then p.testUnit.lost else satInc p.testUnit.lost }
            else p.testUnit
          port := { base.port with inFlight := base.port.inFlight.map fun u =>
            if (u.requester = .sched l ∧ done = []) ∨ u.requester = .catcher l then { u with orphan := true }
            else u } }))

/-- The arbiter grants the first requester with a waiting request, counting from the one after the requester it
granted last in the order A scheduler, B scheduler, A catch writer, B catch writer, and makes no grant while a
transfer is in progress or the part is held in reset or RESETTING. A scheduler requester asks for the first transfer
of the part-half writes of R120 if there is one, and otherwise for that of its procedure; a catch writer for the
next one of its walk. What the transfers of a procedure and of a catch walk read and write, with the addresses of
R20 and R28. The model's choices: logs 26 and 36. -/
def Obligations.PortTransfers : Prop :=
  (∀ (p : Part) (r : Requester),
    let rank := fun q : Requester => match q with
      | .sched .A => 0 | .sched .B => 1 | .catcher .A => 2 | .catcher .B => 3
    let turn := fun q : Requester => (rank q + 3 - rank p.port.pointer) % 4
    (∀ t, p.live = true → p.port.inFlight = none → p.request r = some t →
      (∀ q, turn q < turn r → p.request q = none) →
      p.arbitrate = { p with port := { inFlight := some t, pointer := r } }) ∧
    (p.live = true → p.port.inFlight = none → (∀ q, p.request q = none) → p.arbitrate = p) ∧
    (p.live = false ∨ p.port.inFlight.isSome = true → p.arbitrate = p)) ∧
  (∀ (p : Part) (l : LoopId),
    let e := p.eng l
    let asks := fun (urgent : Bool) (action : Option BusAction) => p.request (.sched l) = action.map fun a =>
      ({ requester := .sched l, action := a, urgent := urgent, orphan := false } : Transfer)
    (∀ op rest, e.urgent = op :: rest → asks true (p.schedAction l op)) ∧
    (∀ op rest, e.urgent = [] → e.sched = op :: rest → asks false (p.schedAction l op)) ∧
    (e.urgent = [] → e.sched = [] → asks false none) ∧
    (∀ op, e.catcher.walk = some op → p.request (.catcher l) =
      some { requester := .catcher l, action := p.catchAction l op, urgent := false, orphan := false }) ∧
    (e.catcher.walk = none → p.request (.catcher l) = none)) ∧
  (∀ (p : Part) (l : LoopId) (i : StationIx) (k : RecordIx) (n : Byte) (o : RecordOutcome) (x : SeqFlip)
    (y : AfterRecord) (copy : RecordCopy) (use : HostReadUse) (payload : List Byte),
    let area := p.area ++ (0 : BitVec 12)
    let loop : Word := area + match l with | .A => 0x40 | .B => 0x80
    let station : Word := area + 0x100 + BitVec.ofNat 32 (32 * i.val)
    let at_ := fun (pool : Word) (k : RecordIx) => pool + BitVec.ofNat 32 (128 * k.toNat)
    let record : Word := at_ (p.eng l).poolBase k
    let caught : Word := at_ (p.eng l).catcher.poolBase k
    let padded := fun bs : List Byte => bs ++ List.replicate ((4 - bs.length % 4) % 4) 0
    let low := fun h : BitVec 16 => h.extractLsb' 0 8
    let high := fun h : BitVec 16 => h.extractLsb' 8 8
    let outcome : Byte := match o with
      | .ok => 0 | .held => 1 | .noAnswer => 2 | .refused => 3 | .overlong => 4 | .missed => 5
      | .halted => 6 | .disabled => 7 | .stopped => 8 | .lineLost => 9 | .relayLost => 10 | .badRecord => 11
    p.schedAction l .readGlobal = some (.read area 64) ∧
    p.schedAction l (.readLoopHost use) = some (.read loop 32) ∧
    p.schedAction l (.readStationHost i) = some (.read station 16) ∧
    (∀ parked, (p.ctx i).parked = some parked →
      p.schedAction l (.readLink i) = some (.read (at_ (p.eng l).poolBase parked + 4) 4)) ∧
    p.schedAction l (.readRecord i k) = some (.read record 128) ∧
    p.schedAction l (.writeActive i k copy) = some (.write record [2, 0, 0, 0]) ∧
    p.schedAction l (.writePayload k payload) = some (.write (record + 0x20) (padded payload)) ∧
    p.schedAction l (.writeDone i k x y) = some (.write record [3, 0, 0, 0]) ∧
    p.schedAction l (.writeResult i k o n) =
      some (.write (record + 0x10)
        [outcome, (p.ctx i).recAttempts, (p.ctx i).recHolds, (p.ctx i).recDuplicates, n, 0,
         (p.eng l).rep.cycleNumber.extractLsb' 0 8, (p.eng l).rep.cycleNumber.extractLsb' 8 8,
         low (p.ctx i).recLatency, high (p.ctx i).recLatency, 0, 0, 0, 0, 0, 0]) ∧
    p.schedAction l (.writeStationHalf i) = some (.write (station + 0x10) (p.ctx i).partHalf) ∧
    p.schedAction l .writeLoopHalf = some (.write (loop + 0x20) (p.eng l).partHalf) ∧
    p.schedAction l .awaitTransmitter = none ∧
    p.catchAction l .readHead = .read (loop + 0x08) 4 ∧
    p.catchAction l (.readLink k) = .read (caught + 4) 4 ∧
    p.catchAction l (.readState k) = .read caught 4 ∧
    p.catchAction l (.writeFilled k) = .write caught [5, 0, 0, 0] ∧
    ∀ f, (p.eng l).catcher.buffer = some f →
      p.catchAction l (.writeFields k) = .write (caught + 8)
        [(match f.reason with | .station => 1 | .group => 2 | .allCall => 3 | .filter => 4),
         (match f.filter with | none => 0xFF | some g => BitVec.ofNat 8 g.val),
         low f.triggered, high f.triggered, f.destination, f.source, f.control,
         BitVec.ofNat 8 f.payload.length, low f.cycle, high f.cycle,
         0, 0, 0, 0, 0, 0, 0, 0, 0, 0, 0, 0, 0, 0] ∧
      p.catchAction l (.writePayload k) = .write (caught + 0x20) (padded f.payload))

/-- The layouts of 12_formats that the transfers carry: the bytes of the part half of a station and of a loop, with
the codes of their states and reasons, and the fields that are read from the host half of a station and of a loop.
Bytes are in the order of rising addresses. -/
def Obligations.DescriptorLayouts : Prop :=
  let low := fun h : BitVec 16 => h.extractLsb' 0 8
  let high := fun h : BitVec 16 => h.extractLsb' 8 8
  let word := fun w : Word =>
    [w.extractLsb' 0 8, w.extractLsb' 8 8, w.extractLsb' 16 8, w.extractLsb' 24 8]
  let index := fun o : Option RecordIx => match o with
    | none => [(0xFF : Byte), 0xFF]
    | some k => [BitVec.ofNat 8 (k.toNat % 256), BitVec.ofNat 8 (k.toNat / 256)]
  (∀ c : Context,
    let state : Byte := match c.state with
      | .disabled => 0 | .rejected => 1 | .ready => 2 | .active => 3 | .silent => 4 | .absent => 5 | .halted => 6
    let phase : Byte := match c.phase with
      | .none => 0 | .first => 1 | .retry => 2 | .probe => 3 | .relayStart => 4 | .relayCollect => 5
    let reason : Byte := match c.reason with
      | .none => 0 | .host => 1 | .refused => 2 | .badLink => 3 | .duplicate => 4 | .field => 5
    ∃ flags : Byte,
      flags.getLsbD 0 = c.txSeq ∧ flags.getLsbD 1 = c.rxSeq ∧ flags.getLsbD 2 = c.syncPending ∧
      flags.getLsbD 3 = c.present ∧ flags.extractLsb' 4 4 = 0 ∧
      c.partHalf =
        [state, phase, reason, c.failures, flags, c.missCount, c.duplicates, c.latchedRelease]
        ++ index c.parked ++ index c.inHand
        ++ [low c.completed, high c.completed, low c.maxLatency, high c.maxLatency]) ∧
  (∀ e : Engine,
    let state : Byte := match e.ctl.state with
      | .off => 0 | .starting => 1 | .rollcall => 2 | .running => 3 | .draining => 4 | .quiet => 5
      | .down => 6 | .jammed => 7 | .test => 8 | .fault => 9
    let target : Byte := if e.ctl.drainTarget = some .quiet then 1 else 0
    let reason : Byte := match e.rep.downReason with
      | .none => 0 | .errors => 1 | .silence => 2 | .carrier => 3 | .jam => 4
    let error : Byte := match e.rep.startError with
      | .none => 0 | .pool => 1 | .rate => 2 | .timing => 3 | .test => 4
    let retime : Byte := match e.rep.retimeResult with
      | .none => 0 | .adopted => 1 | .refused => 2
    e.partHalf =
      [state, target, reason, error] ++ word e.rep.cycleNumber
      ++ [low e.rep.lateBeacons, high e.rep.lateBeacons, low e.rep.overruns, high e.rep.overruns]
      ++ word e.catcher.fills ++ word e.catcher.drops ++ word e.catcher.accepted
      ++ [e.rep.rollPresent, e.rep.rollAbsent, retime, if e.catcher.stalled then 1 else 0]
      ++ index e.catcher.parked ++ [0, 0]) ∧
  ∀ bs : List Byte,
    let half := fun n : Nat => byteAt bs (n + 1) ++ byteAt bs n
    let bit := fun (n i : Nat) => (byteAt bs n).getLsbD i
    StationHost.decode bs =
      { enable := bit 0 0, loop := if bit 0 1 then .B else .A
        cls := if bit 0 2 then .aperiodic else .periodic
        acceptAnnounce := bit 0 3, wake := bit 0 4, halt := bit 0 5
        lineAddress := byteAt bs 1, coupler := byteAt bs 2, releaseCount := byteAt bs 3
        intervalCode := byteAt bs 4, phase := byteAt bs 5, maxReply := byteAt bs 6, replyTimeout := byteAt bs 7
        retryLimit := byteAt bs 8, collectDelay := byteAt bs 9, patience := byteAt bs 10
        chainHead := (half 12).extractLsb' 0 10 } ∧
    LoopHost.decode bs =
      { cycleLength := half 0, periodicBudget := half 2, announceWindow := half 4, bitRate := byteAt bs 6
        rollAtStart := bit 7 0, rollAtRecovery := bit 7 1, catchNotify := bit 7 2, carrierEnable := bit 7 3
        identity := half 14 ++ half 12
        errorThreshold := byteAt bs 16, errorWindow := byteAt bs 17, silenceThreshold := byteAt bs 18
        downHold := byteAt bs 19, jamTime := byteAt bs 20, jamRelease := byteAt bs 21, keepalive := byteAt bs 22
        trapThreshold := half 24, testLength := byteAt bs 26, echoAddress := byteAt bs 27
        testCount := half 28, testMode := byteAt bs 30, counterMode := byteAt bs 31 }

/-! ### Checks and patterns -/

/-- R6: the check of a frame. The register is preset to all ones, takes each byte's bits from the most
significant on, and is shifted as the rule says; it covers header and payload in order, is sent high byte
first, and a received frame's check matches when the two are equal. The filters use the same computation. -/
def Obligations.FrameCheck : Prop :=
  crc16 [] = 0xFFFF ∧
  (∀ (bs : List Byte) (b : Byte),
    crc16 (bs ++ [b]) =
      (List.range 8).foldl
        (fun (r : BitVec 16) (i : Nat) =>
          if r.getLsbD 15 ≠ b.getLsbD (7 - i) then (r <<< 1) ^^^ 0x1021 else r <<< 1)
        (crc16 bs)) ∧
  crc16 [0x31, 0x32, 0x33, 0x34, 0x35, 0x36, 0x37, 0x38, 0x39] = 0x29B1 ∧
  (∀ f : TxFrame,
    let body := [f.destination, 0, f.control, BitVec.ofNat 8 f.payload.length] ++ f.payload
    f.chars = [0xA5] ++ body ++ [(crc16 body).extractLsb' 8 8, (crc16 body).extractLsb' 0 8]) ∧
  (∀ (header payload : List Byte) (high low : Byte), header.length = 4 →
    byteAt header 3 = BitVec.ofNat 8 payload.length → payload.length ≤ 96 →
    (frameValid ([0xA5] ++ header ++ payload ++ [high, low]) = true ↔
      (byteAt header 2).extractLsb' 6 2 = 0 ∧ crc16 (header ++ payload) = high ++ low)) ∧
  (∀ (flt : Filter) (bytes : List Byte), flt.matchesBytes bytes = true →
    crc16 (((List.range 64).filter fun j => flt.mask.getLsbD j).map
      fun j => byteAt bytes (flt.offset.toNat + j)) = flt.expected)

/-- R115, R116 and R117: when a filter that is judged matches a frame. Each filter that matches is then updated, once,
and no other: its triggered flag is set and its count rises by 1 and stays at 255; the triggered set of the frame names
it. The updates and a host's write of a status word act one after another in either order, the later on what the
earlier left, and so do the updates of the two loops: both are counted. A write of another of its words touches other
fields. R146: when a payload holds the wake marker of a loop identity, and that a loop searches for its own. -/
def Obligations.FilterAndMarkerMatches : Prop :=
  (∀ (p : Part) (l : LoopId) (screen : Screen) (f : RxFrame) (flt : Filter),
    let bytes := [f.destination, f.source, f.control, BitVec.ofNat 8 f.payload.length] ++ f.payload
    let selected := (List.range 64).filter fun j => flt.mask.getLsbD j
    let listed := ∃ g : Fin 15, f.destination.toNat = 240 + g.val ∧
      (match screen with
       | .announce => p.screening.groups[g].announceAccept
       | .wake => p.screening.groups[g].wake) = true
    let known := ∃ i : StationIx, (p.ctx i).owner = some l ∧
      ((p.ctx i).state = .ready ∨ (p.ctx i).state = .active ∨ (p.ctx i).state = .silent ∨
        (p.ctx i).state = .absent ∨ (p.ctx i).state = .halted) ∧
      (p.ctx i).binding.coupler = 0xFF ∧ (p.ctx i).binding.lineAddress = f.source
    let qualified := match flt.qualifier with
      | .any => True
      | .toConcentrator => f.destination = 0
      | .groupListed => listed
      | .knownSource => known
    let judged := flt.enable = true ∧
      (flt.scope = .both ∨ (flt.scope = .announce ∧ screen = .announce) ∨ (flt.scope = .wake ∧ screen = .wake))
    (p.filterMatches l screen f flt = true ↔
      judged ∧ qualified ∧ flt.mask ≠ 0 ∧ (∀ j ∈ selected, flt.offset.toNat + j < bytes.length) ∧
        crc16 (selected.map fun j => byteAt bytes (flt.offset.toNat + j)) = flt.expected) ∧
    (∀ n : Fin 16,
      (p.screening.hitAll (p.triggeredFilters l screen f)).filters[n] =
        if p.filterMatches l screen f p.screening.filters[n] = true then
          { p.screening.filters[n] with
            triggered := true
            matchCount := if p.screening.filters[n].matchCount = 255 then 255
                          else p.screening.filters[n].matchCount + 1 }
        else p.screening.filters[n]) ∧
    (∀ n : Fin 16, (triggeredFlags (p.triggeredFilters l screen f)).getLsbD n.val = true ↔
      p.filterMatches l screen f p.screening.filters[n] = true) ∧
    ∀ (n : Fin 16) (v : Word),
      let raised := fun x : Byte => if x = 255 then 255 else x + 1
      let status := fun q : Part => (q.screening.filters[n].triggered, q.screening.filters[n].matchCount)
      let update := fun q : Part => { q with screening := q.screening.hitAll [n] }
      let storeWord := fun (w : Nat) (q : Part) => q.windowStore 1 (BitVec.ofNat 12 (8 * n.val + w)) v
      let store := storeWord 4
      let written := (v.getLsbD 0, v.extractLsb' 8 8)
      status (update p) = (true, raised (status p).2) ∧ status (store p) = written ∧
      status (update (store p)) = (true, raised written.2) ∧ status (store (update p)) = written ∧
      status (update (update p)) = (true, raised (raised (status p).2)) ∧
      ∀ w < 8, w ≠ 4 → update (storeWord w p) = storeWord w (update p)) ∧
  (∀ (identity : Word) (payload : List Byte),
    holdsRun (wakeMarker identity) payload = true ↔
      ∃ q : Nat, q + 22 ≤ payload.length ∧
        (∀ j < 6, byteAt payload (q + j) = 0xFF) ∧
        ∀ copy < 4, ∀ j < 4,
          byteAt payload (q + 6 + 4 * copy + j) = (identity >>> (8 * j)).setWidth 8) ∧
  ∀ (p : Part) (l : LoopId) (f : RxFrame) (hits : List (Fin 16)),
    p.wakeReason l f hits = some .marker ↔
      holdsRun (wakeMarker (p.eng l).cfg.identity) f.payload = true

/-- R152: the pattern generator, and the payload bytes drawn from it. -/
def Obligations.TestGenerator : Prop :=
  (∀ (g : BitVec 15),
    let new := g.getLsbD 13 ^^ g.getLsbD 14
    (lfsrStep g).2 = new ∧ (lfsrStep g).1.getLsbD 0 = new ∧
      ∀ k, 1 ≤ k → k < 15 → (lfsrStep g).1.getLsbD k = g.getLsbD (k - 1)) ∧
  (∀ (n : Nat) (g : BitVec 15),
    let at_ := fun steps : Nat => Nat.repeat (fun h => (lfsrStep h).1) steps g
    (lfsrBytes n g).1 = at_ (8 * n) ∧ (lfsrBytes n g).2.length = n ∧
      ∀ i < n, ∀ b < 8,
        (byteAt (lfsrBytes n g).2 i).getLsbD (7 - b) = (lfsrStep (at_ (8 * i + b))).2) ∧
  (lfsrBytes 12 (BitVec.allOnes 15)).2 =
    [0x00, 0x02, 0x00, 0x0C, 0x00, 0x28, 0x00, 0xF0, 0x02, 0x20, 0x0C, 0xC0]

/-! ### What every step keeps -/

/-- System memory keeps its canonical form (log 5). -/
def Obligations.MemoryCanonical : Prop :=
  ∀ s t : State, Memory.wf s.mem → step s = .next t → Memory.wf t.mem

/-- The frames accepted are those filled, those dropped and the one held, at every step, until the count of
accepted frames, which saturates, stands at its end; a walk is made for a held frame alone. -/
def Obligations.CatchConservation : Prop :=
  ∀ s t : State, (∀ l : LoopId, (s.part.eng l).sound) → step s = .next t →
    ∀ l : LoopId, (t.part.eng l).catcher.conserves ∧ (t.part.eng l).catcher.walksForFrame

/-- A loop in OFF or FAULT has its Framer stopped. In OFF, DOWN, JAMMED and FAULT, and in a part held in reset or
RESETTING whatever the state, it is sending nothing, holds no frame to send, its Exchange Unit is IDLE, and its TXEN is
inactive. TXEN is active exactly while the Framer sends a frame on the line: throughout INTERNAL_RETURN, from the latch
of TEST entry on, it is inactive. -/
def Obligations.LoopsRest : Prop :=
  (∀ e : Engine, e.txen = true ↔
    e.framer.sending.isSome = true ∧
      ¬ (e.ctl.state = .test ∧ e.ctl.validated = true ∧ e.cfg.testMode = 0)) ∧
  ∀ s t : State, (∀ l : LoopId, (s.part.eng l).sound) → s.part.resetsSilent → step s = .next t →
    (∀ l : LoopId, (t.part.eng l).restsInState) ∧ t.part.resetsSilent ∧
      ∀ l : LoopId, (t.part.eng l).ctl.state.sendsNothing = true ∨ t.part.live = false →
        (t.part.eng l).txen = false

/-- No two relay entries name one coupler (R98's other limits are RelayEntries'), a record's copy is kept exactly while
it is in hand, and a loop in TEST holds the Test Pattern Unit. -/
def Obligations.SharedStores : Prop :=
  ∀ s t : State, s.part.couplersDistinct → s.part.copiesHeld → s.part.testOwned → step s = .next t →
    t.part.couplersDistinct ∧ t.part.copiesHeld ∧ t.part.testOwned

/-- No two entries of the Relay Table are for one relayed station, and every entry names a record that is in hand for
its relayed station (R98). What keeps it so is the order of the loops' work, `Part.relaysOrdered`, which every step
keeps with it, the couplers being distinct and the procedures standing between two steps. -/
def Obligations.RelayEntries : Prop :=
  ∀ s t : State, s.part.couplersDistinct → s.part.testOwned → s.part.standing → s.part.relaysOrdered →
    step s = .next t →
    t.part.relayStationsDistinct ∧
      (∀ a : Fin 8, ∀ r ∈ t.part.relays[a], (t.part.ctx r.station).inHand = some r.record) ∧
      t.part.relaysOrdered

/-- Between commands every procedure of a running part stands at a transfer, at the keepalive it waits for, or
at its end with no roll-call due. -/
def Obligations.ProceduresStand : Prop :=
  ∀ s t : State, s.part.standing → step s = .next t → t.part.standing

/-- A command for one loop leaves the engine of the other as it was, but for that loop's slot of the CONTROL
latch, and sets no cause of the other loop. -/
def Obligations.LoopIndependence : Prop :=
  ∀ (c : Instr) (l : LoopId) (s t : State), s.commandLoop c = some l → exec c s = .next t →
    (∃ slot, t.part.eng (otherLoop l) =
      { s.part.eng (otherLoop l) with ctl := { (s.part.eng (otherLoop l)).ctl with slot := slot } }) ∧
    ∀ x : Cause, t.part.cause &&& causeBit (otherLoop l) x = s.part.cause &&& causeBit (otherLoop l) x

/-- The invariants hold at reset. -/
def Obligations.InvariantsAtReset : Prop :=
  Memory.wf State.reset.mem ∧ (∀ l : LoopId, (State.reset.part.eng l).sound) ∧
    State.reset.part.resetsSilent ∧ State.reset.part.couplersDistinct ∧ State.reset.part.copiesHeld ∧
    State.reset.part.testOwned ∧ State.reset.part.relaysOrdered ∧ State.reset.part.standing

end
end

