-- ==== Sys2Proof/Laws/State.lean ====
section
/-! SUPPORT. What each field of the part is after each named update: one lemma per field and update. -/

namespace Sys2Proof.Machine

open Sys2Proof

/-! ### Loops -/

@[simp] theorem otherLoop_otherLoop (l : LoopId) : otherLoop (otherLoop l) = l := by cases l <;> rfl

@[simp] theorem otherLoop_ne (l : LoopId) : otherLoop l ≠ l := by cases l <;> decide

@[simp] theorem ne_otherLoop (l : LoopId) : l ≠ otherLoop l := by cases l <;> decide

theorem eq_or_eq_otherLoop (l m : LoopId) : m = l ∨ m = otherLoop l := by
  cases l <;> cases m <;> decide

@[simp] theorem Part.eng_A (p : Part) : p.eng .A = p.engA := rfl

@[simp] theorem Part.eng_B (p : Part) : p.eng .B = p.engB := rfl

/-! ### The engine and the other engine after a change of one -/

@[simp] theorem Part.eng_modEng (l : LoopId) (f : Engine → Engine) (p : Part) :
    (p.modEng l f).eng l = f (p.eng l) := by cases l <;> rfl

@[simp] theorem Part.eng_modEng_other (l : LoopId) (f : Engine → Engine) (p : Part) :
    (p.modEng l f).eng (otherLoop l) = p.eng (otherLoop l) := by cases l <;> rfl

@[simp] theorem Part.eng_modEng_of_other (l : LoopId) (f : Engine → Engine) (p : Part) :
    (p.modEng (otherLoop l) f).eng l = p.eng l := by cases l <;> rfl

theorem Part.modEng_modEng (l : LoopId) (f g : Engine → Engine) (p : Part) :
    (p.modEng l f).modEng l g = p.modEng l fun e => g (f e) := by cases l <;> rfl

theorem Part.modEng_comm (l : LoopId) (f g : Engine → Engine) (p : Part) :
    (p.modEng (otherLoop l) g).modEng l f = (p.modEng l f).modEng (otherLoop l) g := by
  cases l <;> rfl

theorem Part.modEng_congr (l : LoopId) (f g : Engine → Engine) (p : Part) (h : f (p.eng l) = g (p.eng l)) :
    p.modEng l f = p.modEng l g := by
  cases l <;> simp only [Part.modEng] <;> simp only [Part.eng_A, Part.eng_B] at h <;> rw [h]

theorem Part.modEng_self (l : LoopId) (f : Engine → Engine) (p : Part) (h : f (p.eng l) = p.eng l) :
    p.modEng l f = p := by
  cases l <;> simp only [Part.modEng] <;> simp only [Part.eng_A, Part.eng_B] at h <;> rw [h]

/-! ### A change of one engine -/

@[simp] theorem Part.modEng_now (l : LoopId) (f : Engine → Engine) (p : Part) :
    (p.modEng l f).now = p.now := by cases l <;> rfl

@[simp] theorem Part.modEng_resetHeld (l : LoopId) (f : Engine → Engine) (p : Part) :
    (p.modEng l f).resetHeld = p.resetHeld := by cases l <;> rfl

@[simp] theorem Part.modEng_resetting (l : LoopId) (f : Engine → Engine) (p : Part) :
    (p.modEng l f).resetting = p.resetting := by cases l <;> rfl

@[simp] theorem Part.modEng_area (l : LoopId) (f : Engine → Engine) (p : Part) :
    (p.modEng l f).area = p.area := by cases l <;> rfl

@[simp] theorem Part.modEng_mask (l : LoopId) (f : Engine → Engine) (p : Part) :
    (p.modEng l f).mask = p.mask := by cases l <;> rfl

@[simp] theorem Part.modEng_cause (l : LoopId) (f : Engine → Engine) (p : Part) :
    (p.modEng l f).cause = p.cause := by cases l <;> rfl

@[simp] theorem Part.modEng_window (l : LoopId) (f : Engine → Engine) (p : Part) :
    (p.modEng l f).window = p.window := by cases l <;> rfl

@[simp] theorem Part.modEng_busRead (l : LoopId) (f : Engine → Engine) (p : Part) :
    (p.modEng l f).busRead = p.busRead := by cases l <;> rfl

@[simp] theorem Part.modEng_port (l : LoopId) (f : Engine → Engine) (p : Part) :
    (p.modEng l f).port = p.port := by cases l <;> rfl

@[simp] theorem Part.modEng_contexts (l : LoopId) (f : Engine → Engine) (p : Part) :
    (p.modEng l f).contexts = p.contexts := by cases l <;> rfl

@[simp] theorem Part.modEng_relays (l : LoopId) (f : Engine → Engine) (p : Part) :
    (p.modEng l f).relays = p.relays := by cases l <;> rfl

@[simp] theorem Part.modEng_screening (l : LoopId) (f : Engine → Engine) (p : Part) :
    (p.modEng l f).screening = p.screening := by cases l <;> rfl

@[simp] theorem Part.modEng_testUnit (l : LoopId) (f : Engine → Engine) (p : Part) :
    (p.modEng l f).testUnit = p.testUnit := by cases l <;> rfl

@[simp] theorem Part.modEng_live (l : LoopId) (f : Engine → Engine) (p : Part) :
    (p.modEng l f).live = p.live := by cases l <;> rfl

@[simp] theorem Part.modEng_ctx (l : LoopId) (f : Engine → Engine) (p : Part) (i : StationIx) :
    (p.modEng l f).ctx i = p.ctx i := by cases l <;> rfl

/-! ### Time -/

@[simp] theorem Part.tick_resetHeld (dt : Nat) (p : Part) :
    (p.tick dt).resetHeld = p.resetHeld := rfl

@[simp] theorem Part.tick_resetting (dt : Nat) (p : Part) :
    (p.tick dt).resetting = p.resetting := rfl

@[simp] theorem Part.tick_area (dt : Nat) (p : Part) :
    (p.tick dt).area = p.area := rfl

@[simp] theorem Part.tick_mask (dt : Nat) (p : Part) :
    (p.tick dt).mask = p.mask := rfl

@[simp] theorem Part.tick_cause (dt : Nat) (p : Part) :
    (p.tick dt).cause = p.cause := rfl

@[simp] theorem Part.tick_window (dt : Nat) (p : Part) :
    (p.tick dt).window = p.window := rfl

@[simp] theorem Part.tick_busRead (dt : Nat) (p : Part) :
    (p.tick dt).busRead = p.busRead := rfl

@[simp] theorem Part.tick_port (dt : Nat) (p : Part) :
    (p.tick dt).port = p.port := rfl

@[simp] theorem Part.tick_contexts (dt : Nat) (p : Part) :
    (p.tick dt).contexts = p.contexts := rfl

@[simp] theorem Part.tick_relays (dt : Nat) (p : Part) :
    (p.tick dt).relays = p.relays := rfl

@[simp] theorem Part.tick_screening (dt : Nat) (p : Part) :
    (p.tick dt).screening = p.screening := rfl

@[simp] theorem Part.tick_testUnit (dt : Nat) (p : Part) :
    (p.tick dt).testUnit = p.testUnit := rfl

@[simp] theorem Part.tick_engA (dt : Nat) (p : Part) :
    (p.tick dt).engA = p.engA := rfl

@[simp] theorem Part.tick_engB (dt : Nat) (p : Part) :
    (p.tick dt).engB = p.engB := rfl

@[simp] theorem Part.tick_eng (dt : Nat) (p : Part) (m : LoopId) :
    (p.tick dt).eng m = p.eng m := by cases m <;> rfl

@[simp] theorem Part.tick_now (dt : Nat) (p : Part) : (p.tick dt).now = p.now + dt := rfl

@[simp] theorem Part.tick_ctx (dt : Nat) (p : Part) (i : StationIx) : (p.tick dt).ctx i = p.ctx i := rfl

@[simp] theorem Part.tick_live (dt : Nat) (p : Part) : (p.tick dt).live = p.live := rfl

theorem Part.tick_modEng (dt : Nat) (l : LoopId) (f : Engine → Engine) (p : Part) :
    (p.modEng l f).tick dt = (p.tick dt).modEng l f := by cases l <;> rfl

/-! ### A change of one context -/

@[simp] theorem Part.modCtx_now (i : StationIx) (f : Context → Context) (p : Part) :
    (p.modCtx i f).now = p.now := rfl

@[simp] theorem Part.modCtx_resetHeld (i : StationIx) (f : Context → Context) (p : Part) :
    (p.modCtx i f).resetHeld = p.resetHeld := rfl

@[simp] theorem Part.modCtx_resetting (i : StationIx) (f : Context → Context) (p : Part) :
    (p.modCtx i f).resetting = p.resetting := rfl

@[simp] theorem Part.modCtx_area (i : StationIx) (f : Context → Context) (p : Part) :
    (p.modCtx i f).area = p.area := rfl

@[simp] theorem Part.modCtx_mask (i : StationIx) (f : Context → Context) (p : Part) :
    (p.modCtx i f).mask = p.mask := rfl

@[simp] theorem Part.modCtx_cause (i : StationIx) (f : Context → Context) (p : Part) :
    (p.modCtx i f).cause = p.cause := rfl

@[simp] theorem Part.modCtx_window (i : StationIx) (f : Context → Context) (p : Part) :
    (p.modCtx i f).window = p.window := rfl

@[simp] theorem Part.modCtx_busRead (i : StationIx) (f : Context → Context) (p : Part) :
    (p.modCtx i f).busRead = p.busRead := rfl

@[simp] theorem Part.modCtx_port (i : StationIx) (f : Context → Context) (p : Part) :
    (p.modCtx i f).port = p.port := rfl

@[simp] theorem Part.modCtx_relays (i : StationIx) (f : Context → Context) (p : Part) :
    (p.modCtx i f).relays = p.relays := rfl

@[simp] theorem Part.modCtx_screening (i : StationIx) (f : Context → Context) (p : Part) :
    (p.modCtx i f).screening = p.screening := rfl

@[simp] theorem Part.modCtx_testUnit (i : StationIx) (f : Context → Context) (p : Part) :
    (p.modCtx i f).testUnit = p.testUnit := rfl

@[simp] theorem Part.modCtx_engA (i : StationIx) (f : Context → Context) (p : Part) :
    (p.modCtx i f).engA = p.engA := rfl

@[simp] theorem Part.modCtx_engB (i : StationIx) (f : Context → Context) (p : Part) :
    (p.modCtx i f).engB = p.engB := rfl

@[simp] theorem Part.modCtx_eng (i : StationIx) (f : Context → Context) (p : Part) (m : LoopId) :
    (p.modCtx i f).eng m = p.eng m := by cases m <;> rfl

@[simp] theorem Part.modCtx_live (i : StationIx) (f : Context → Context) (p : Part) :
    (p.modCtx i f).live = p.live := rfl

@[simp] theorem Part.ctx_modCtx (i : StationIx) (f : Context → Context) (p : Part) :
    (p.modCtx i f).ctx i = f (p.ctx i) := by simp [Part.modCtx, Part.ctx]

@[simp] theorem Part.ctx_modCtx_ne (i j : StationIx) (f : Context → Context) (p : Part) (h : j ≠ i) :
    (p.modCtx i f).ctx j = p.ctx j := by
  have h' : i.val ≠ j.val := fun e => h (Fin.ext e.symm)
  simp [Part.modCtx, Part.ctx, h']

theorem Part.modCtx_modCtx (i : StationIx) (f g : Context → Context) (p : Part) :
    (p.modCtx i f).modCtx i g = p.modCtx i (fun c => g (f c)) := by unfold Part.modCtx; simp

theorem Part.modCtx_congr (i : StationIx) (f g : Context → Context) (p : Part)
    (h : f (p.ctx i) = g (p.ctx i)) : p.modCtx i f = p.modCtx i g := by
  unfold Part.modCtx
  unfold Part.ctx at h
  rw [h]

theorem Part.modCtx_modEng (i : StationIx) (f : Context → Context) (l : LoopId) (g : Engine → Engine)
    (p : Part) : (p.modEng l g).modCtx i f = (p.modCtx i f).modEng l g := by cases l <;> rfl

/-! ### A cause -/

@[simp] theorem Part.raiseCause_now (l : LoopId) (c : Cause) (p : Part) :
    (p.raiseCause l c).now = p.now := by
  unfold Part.raiseCause; split <;> rfl

@[simp] theorem Part.raiseCause_resetHeld (l : LoopId) (c : Cause) (p : Part) :
    (p.raiseCause l c).resetHeld = p.resetHeld := by
  unfold Part.raiseCause; split <;> rfl

@[simp] theorem Part.raiseCause_resetting (l : LoopId) (c : Cause) (p : Part) :
    (p.raiseCause l c).resetting = p.resetting := by
  unfold Part.raiseCause; split <;> rfl

@[simp] theorem Part.raiseCause_area (l : LoopId) (c : Cause) (p : Part) :
    (p.raiseCause l c).area = p.area := by
  unfold Part.raiseCause; split <;> rfl

@[simp] theorem Part.raiseCause_mask (l : LoopId) (c : Cause) (p : Part) :
    (p.raiseCause l c).mask = p.mask := by
  unfold Part.raiseCause; split <;> rfl

@[simp] theorem Part.raiseCause_window (l : LoopId) (c : Cause) (p : Part) :
    (p.raiseCause l c).window = p.window := by
  unfold Part.raiseCause; split <;> rfl

@[simp] theorem Part.raiseCause_busRead (l : LoopId) (c : Cause) (p : Part) :
    (p.raiseCause l c).busRead = p.busRead := by
  unfold Part.raiseCause; split <;> rfl

@[simp] theorem Part.raiseCause_port (l : LoopId) (c : Cause) (p : Part) :
    (p.raiseCause l c).port = p.port := by
  unfold Part.raiseCause; split <;> rfl

@[simp] theorem Part.raiseCause_contexts (l : LoopId) (c : Cause) (p : Part) :
    (p.raiseCause l c).contexts = p.contexts := by
  unfold Part.raiseCause; split <;> rfl

@[simp] theorem Part.raiseCause_relays (l : LoopId) (c : Cause) (p : Part) :
    (p.raiseCause l c).relays = p.relays := by
  unfold Part.raiseCause; split <;> rfl

@[simp] theorem Part.raiseCause_screening (l : LoopId) (c : Cause) (p : Part) :
    (p.raiseCause l c).screening = p.screening := by
  unfold Part.raiseCause; split <;> rfl

@[simp] theorem Part.raiseCause_testUnit (l : LoopId) (c : Cause) (p : Part) :
    (p.raiseCause l c).testUnit = p.testUnit := by
  unfold Part.raiseCause; split <;> rfl

@[simp] theorem Part.raiseCause_engA (l : LoopId) (c : Cause) (p : Part) :
    (p.raiseCause l c).engA = p.engA := by
  unfold Part.raiseCause; split <;> rfl

@[simp] theorem Part.raiseCause_engB (l : LoopId) (c : Cause) (p : Part) :
    (p.raiseCause l c).engB = p.engB := by
  unfold Part.raiseCause; split <;> rfl

@[simp] theorem Part.raiseCause_eng (l : LoopId) (c : Cause) (p : Part) (m : LoopId) :
    (p.raiseCause l c).eng m = p.eng m := by cases m <;> simp

theorem Part.raiseCause_cause (l : LoopId) (c : Cause) (p : Part) :
    (p.raiseCause l c).cause = if p.resetting then p.cause else p.cause ||| causeBit l c := by
  unfold Part.raiseCause; split <;> rfl

@[simp] theorem Part.raiseCause_live (l : LoopId) (c : Cause) (p : Part) :
    (p.raiseCause l c).live = p.live := by unfold Part.raiseCause; split <;> rfl

@[simp] theorem Part.raiseCause_ctx (l : LoopId) (c : Cause) (p : Part) (i : StationIx) :
    (p.raiseCause l c).ctx i = p.ctx i := by unfold Part.raiseCause; split <;> rfl

theorem Part.raiseCause_of_live (l : LoopId) (c : Cause) (p : Part) (h : p.live = true) :
    p.raiseCause l c = { p with cause := p.cause ||| causeBit l c } := by
  unfold Part.live at h
  unfold Part.raiseCause
  simp at h
  simp [h.2]

/-! ### The Relay Table -/

theorem Part.mapRelays_modCtx (i : StationIx) (f : Context → Context) (g : RelayEntry → Option RelayEntry)
    (p : Part) : (p.modCtx i f).mapRelays g = (p.mapRelays g).modCtx i f := rfl

theorem Part.mapRelays_modEng (l : LoopId) (f : Engine → Engine) (g : RelayEntry → Option RelayEntry)
    (p : Part) : (p.modEng l f).mapRelays g = (p.mapRelays g).modEng l f := by cases l <;> rfl

@[simp] theorem Part.mapRelays_now (f : RelayEntry → Option RelayEntry) (p : Part) :
    (p.mapRelays f).now = p.now := rfl

@[simp] theorem Part.mapRelays_resetHeld (f : RelayEntry → Option RelayEntry) (p : Part) :
    (p.mapRelays f).resetHeld = p.resetHeld := rfl

@[simp] theorem Part.mapRelays_resetting (f : RelayEntry → Option RelayEntry) (p : Part) :
    (p.mapRelays f).resetting = p.resetting := rfl

@[simp] theorem Part.mapRelays_area (f : RelayEntry → Option RelayEntry) (p : Part) :
    (p.mapRelays f).area = p.area := rfl

@[simp] theorem Part.mapRelays_mask (f : RelayEntry → Option RelayEntry) (p : Part) :
    (p.mapRelays f).mask = p.mask := rfl

@[simp] theorem Part.mapRelays_cause (f : RelayEntry → Option RelayEntry) (p : Part) :
    (p.mapRelays f).cause = p.cause := rfl

@[simp] theorem Part.mapRelays_window (f : RelayEntry → Option RelayEntry) (p : Part) :
    (p.mapRelays f).window = p.window := rfl

@[simp] theorem Part.mapRelays_busRead (f : RelayEntry → Option RelayEntry) (p : Part) :
    (p.mapRelays f).busRead = p.busRead := rfl

@[simp] theorem Part.mapRelays_port (f : RelayEntry → Option RelayEntry) (p : Part) :
    (p.mapRelays f).port = p.port := rfl

@[simp] theorem Part.mapRelays_contexts (f : RelayEntry → Option RelayEntry) (p : Part) :
    (p.mapRelays f).contexts = p.contexts := rfl

@[simp] theorem Part.mapRelays_screening (f : RelayEntry → Option RelayEntry) (p : Part) :
    (p.mapRelays f).screening = p.screening := rfl

@[simp] theorem Part.mapRelays_testUnit (f : RelayEntry → Option RelayEntry) (p : Part) :
    (p.mapRelays f).testUnit = p.testUnit := rfl

@[simp] theorem Part.mapRelays_engA (f : RelayEntry → Option RelayEntry) (p : Part) :
    (p.mapRelays f).engA = p.engA := rfl

@[simp] theorem Part.mapRelays_engB (f : RelayEntry → Option RelayEntry) (p : Part) :
    (p.mapRelays f).engB = p.engB := rfl

@[simp] theorem Part.mapRelays_eng (f : RelayEntry → Option RelayEntry) (p : Part) (m : LoopId) :
    (p.mapRelays f).eng m = p.eng m := by cases m <;> rfl

@[simp] theorem Part.mapRelays_ctx (f : RelayEntry → Option RelayEntry) (p : Part) (i : StationIx) :
    (p.mapRelays f).ctx i = p.ctx i := rfl

@[simp] theorem Part.mapRelays_relay (f : RelayEntry → Option RelayEntry) (p : Part) (e : Fin 8) :
    (p.mapRelays f).relays[e] = p.relays[e].bind f := by simp [Part.mapRelays]

/-! ### The contexts of a loop -/

@[simp] theorem Part.mapOwned_now (l : LoopId) (f : Context → Context) (p : Part) :
    (p.mapOwned l f).now = p.now := rfl

@[simp] theorem Part.mapOwned_resetHeld (l : LoopId) (f : Context → Context) (p : Part) :
    (p.mapOwned l f).resetHeld = p.resetHeld := rfl

@[simp] theorem Part.mapOwned_resetting (l : LoopId) (f : Context → Context) (p : Part) :
    (p.mapOwned l f).resetting = p.resetting := rfl

@[simp] theorem Part.mapOwned_area (l : LoopId) (f : Context → Context) (p : Part) :
    (p.mapOwned l f).area = p.area := rfl

@[simp] theorem Part.mapOwned_mask (l : LoopId) (f : Context → Context) (p : Part) :
    (p.mapOwned l f).mask = p.mask := rfl

@[simp] theorem Part.mapOwned_cause (l : LoopId) (f : Context → Context) (p : Part) :
    (p.mapOwned l f).cause = p.cause := rfl

@[simp] theorem Part.mapOwned_window (l : LoopId) (f : Context → Context) (p : Part) :
    (p.mapOwned l f).window = p.window := rfl

@[simp] theorem Part.mapOwned_busRead (l : LoopId) (f : Context → Context) (p : Part) :
    (p.mapOwned l f).busRead = p.busRead := rfl

@[simp] theorem Part.mapOwned_port (l : LoopId) (f : Context → Context) (p : Part) :
    (p.mapOwned l f).port = p.port := rfl

@[simp] theorem Part.mapOwned_relays (l : LoopId) (f : Context → Context) (p : Part) :
    (p.mapOwned l f).relays = p.relays := rfl

@[simp] theorem Part.mapOwned_screening (l : LoopId) (f : Context → Context) (p : Part) :
    (p.mapOwned l f).screening = p.screening := rfl

@[simp] theorem Part.mapOwned_testUnit (l : LoopId) (f : Context → Context) (p : Part) :
    (p.mapOwned l f).testUnit = p.testUnit := rfl

@[simp] theorem Part.mapOwned_engA (l : LoopId) (f : Context → Context) (p : Part) :
    (p.mapOwned l f).engA = p.engA := rfl

@[simp] theorem Part.mapOwned_engB (l : LoopId) (f : Context → Context) (p : Part) :
    (p.mapOwned l f).engB = p.engB := rfl

@[simp] theorem Part.mapOwned_eng (l : LoopId) (f : Context → Context) (p : Part) (m : LoopId) :
    (p.mapOwned l f).eng m = p.eng m := by cases m <;> rfl

@[simp] theorem Part.mapOwned_ctx (l : LoopId) (f : Context → Context) (p : Part) (i : StationIx) :
    (p.mapOwned l f).ctx i = if (p.ctx i).owner = some l then f (p.ctx i) else p.ctx i := by
  show (Vector.map _ p.contexts)[i.val] = _
  rw [Vector.getElem_map]
  rfl

/-! ### The port -/

@[simp] theorem Part.orphan_now (r : Requester) (p : Part) :
    (p.orphan r).now = p.now := by
  unfold Part.orphan; split <;> (try split) <;> rfl

@[simp] theorem Part.orphan_resetHeld (r : Requester) (p : Part) :
    (p.orphan r).resetHeld = p.resetHeld := by
  unfold Part.orphan; split <;> (try split) <;> rfl

@[simp] theorem Part.orphan_resetting (r : Requester) (p : Part) :
    (p.orphan r).resetting = p.resetting := by
  unfold Part.orphan; split <;> (try split) <;> rfl

@[simp] theorem Part.orphan_area (r : Requester) (p : Part) :
    (p.orphan r).area = p.area := by
  unfold Part.orphan; split <;> (try split) <;> rfl

@[simp] theorem Part.orphan_mask (r : Requester) (p : Part) :
    (p.orphan r).mask = p.mask := by
  unfold Part.orphan; split <;> (try split) <;> rfl

@[simp] theorem Part.orphan_cause (r : Requester) (p : Part) :
    (p.orphan r).cause = p.cause := by
  unfold Part.orphan; split <;> (try split) <;> rfl

@[simp] theorem Part.orphan_window (r : Requester) (p : Part) :
    (p.orphan r).window = p.window := by
  unfold Part.orphan; split <;> (try split) <;> rfl

@[simp] theorem Part.orphan_busRead (r : Requester) (p : Part) :
    (p.orphan r).busRead = p.busRead := by
  unfold Part.orphan; split <;> (try split) <;> rfl

@[simp] theorem Part.orphan_contexts (r : Requester) (p : Part) :
    (p.orphan r).contexts = p.contexts := by
  unfold Part.orphan; split <;> (try split) <;> rfl

@[simp] theorem Part.orphan_relays (r : Requester) (p : Part) :
    (p.orphan r).relays = p.relays := by
  unfold Part.orphan; split <;> (try split) <;> rfl

@[simp] theorem Part.orphan_screening (r : Requester) (p : Part) :
    (p.orphan r).screening = p.screening := by
  unfold Part.orphan; split <;> (try split) <;> rfl

@[simp] theorem Part.orphan_testUnit (r : Requester) (p : Part) :
    (p.orphan r).testUnit = p.testUnit := by
  unfold Part.orphan; split <;> (try split) <;> rfl

@[simp] theorem Part.orphan_engA (r : Requester) (p : Part) :
    (p.orphan r).engA = p.engA := by
  unfold Part.orphan; split <;> (try split) <;> rfl

@[simp] theorem Part.orphan_engB (r : Requester) (p : Part) :
    (p.orphan r).engB = p.engB := by
  unfold Part.orphan; split <;> (try split) <;> rfl

@[simp] theorem Part.orphan_eng (r : Requester) (p : Part) (m : LoopId) :
    (p.orphan r).eng m = p.eng m := by cases m <;> simp

@[simp] theorem Part.orphan_ctx (r : Requester) (p : Part) (i : StationIx) :
    (p.orphan r).ctx i = p.ctx i := by unfold Part.ctx; simp

@[simp] theorem Part.orphan_live (r : Requester) (p : Part) :
    (p.orphan r).live = p.live := by unfold Part.live; simp

/-! ### The grant -/

@[simp] theorem Part.arbitrate_now (p : Part) :
    (p.arbitrate).now = p.now := by
  unfold Part.arbitrate; split <;> (try split) <;> rfl

@[simp] theorem Part.arbitrate_resetHeld (p : Part) :
    (p.arbitrate).resetHeld = p.resetHeld := by
  unfold Part.arbitrate; split <;> (try split) <;> rfl

@[simp] theorem Part.arbitrate_resetting (p : Part) :
    (p.arbitrate).resetting = p.resetting := by
  unfold Part.arbitrate; split <;> (try split) <;> rfl

@[simp] theorem Part.arbitrate_area (p : Part) :
    (p.arbitrate).area = p.area := by
  unfold Part.arbitrate; split <;> (try split) <;> rfl

@[simp] theorem Part.arbitrate_mask (p : Part) :
    (p.arbitrate).mask = p.mask := by
  unfold Part.arbitrate; split <;> (try split) <;> rfl

@[simp] theorem Part.arbitrate_cause (p : Part) :
    (p.arbitrate).cause = p.cause := by
  unfold Part.arbitrate; split <;> (try split) <;> rfl

@[simp] theorem Part.arbitrate_window (p : Part) :
    (p.arbitrate).window = p.window := by
  unfold Part.arbitrate; split <;> (try split) <;> rfl

@[simp] theorem Part.arbitrate_busRead (p : Part) :
    (p.arbitrate).busRead = p.busRead := by
  unfold Part.arbitrate; split <;> (try split) <;> rfl

@[simp] theorem Part.arbitrate_contexts (p : Part) :
    (p.arbitrate).contexts = p.contexts := by
  unfold Part.arbitrate; split <;> (try split) <;> rfl

@[simp] theorem Part.arbitrate_relays (p : Part) :
    (p.arbitrate).relays = p.relays := by
  unfold Part.arbitrate; split <;> (try split) <;> rfl

@[simp] theorem Part.arbitrate_screening (p : Part) :
    (p.arbitrate).screening = p.screening := by
  unfold Part.arbitrate; split <;> (try split) <;> rfl

@[simp] theorem Part.arbitrate_testUnit (p : Part) :
    (p.arbitrate).testUnit = p.testUnit := by
  unfold Part.arbitrate; split <;> (try split) <;> rfl

@[simp] theorem Part.arbitrate_engA (p : Part) :
    (p.arbitrate).engA = p.engA := by
  unfold Part.arbitrate; split <;> (try split) <;> rfl

@[simp] theorem Part.arbitrate_engB (p : Part) :
    (p.arbitrate).engB = p.engB := by
  unfold Part.arbitrate; split <;> (try split) <;> rfl

@[simp] theorem Part.arbitrate_eng (p : Part) (m : LoopId) :
    (p.arbitrate).eng m = p.eng m := by cases m <;> simp

@[simp] theorem Part.arbitrate_ctx (p : Part) (i : StationIx) : (p.arbitrate).ctx i = p.ctx i := by
  unfold Part.ctx; simp

@[simp] theorem Part.arbitrate_live (p : Part) : (p.arbitrate).live = p.live := by
  unfold Part.live; simp

/-! ### The free port -/

@[simp] theorem Part.freePort_now (p : Part) :
    (p.freePort).now = p.now := rfl

@[simp] theorem Part.freePort_resetHeld (p : Part) :
    (p.freePort).resetHeld = p.resetHeld := rfl

@[simp] theorem Part.freePort_resetting (p : Part) :
    (p.freePort).resetting = p.resetting := rfl

@[simp] theorem Part.freePort_area (p : Part) :
    (p.freePort).area = p.area := rfl

@[simp] theorem Part.freePort_mask (p : Part) :
    (p.freePort).mask = p.mask := rfl

@[simp] theorem Part.freePort_cause (p : Part) :
    (p.freePort).cause = p.cause := rfl

@[simp] theorem Part.freePort_window (p : Part) :
    (p.freePort).window = p.window := rfl

@[simp] theorem Part.freePort_busRead (p : Part) :
    (p.freePort).busRead = p.busRead := rfl

@[simp] theorem Part.freePort_contexts (p : Part) :
    (p.freePort).contexts = p.contexts := rfl

@[simp] theorem Part.freePort_relays (p : Part) :
    (p.freePort).relays = p.relays := rfl

@[simp] theorem Part.freePort_screening (p : Part) :
    (p.freePort).screening = p.screening := rfl

@[simp] theorem Part.freePort_testUnit (p : Part) :
    (p.freePort).testUnit = p.testUnit := rfl

@[simp] theorem Part.freePort_engA (p : Part) :
    (p.freePort).engA = p.engA := rfl

@[simp] theorem Part.freePort_engB (p : Part) :
    (p.freePort).engB = p.engB := rfl

@[simp] theorem Part.freePort_eng (p : Part) (m : LoopId) :
    (p.freePort).eng m = p.eng m := by cases m <;> rfl

@[simp] theorem Part.freePort_ctx (p : Part) (i : StationIx) : (p.freePort).ctx i = p.ctx i := rfl

@[simp] theorem Part.freePort_live (p : Part) : (p.freePort).live = p.live := rfl

/-! ### A slot of the CONTROL latch -/

@[simp] theorem Part.setSlot_eng (l : LoopId) (x : Option (BitVec 4)) (p : Part) :
    (p.setSlot l x).eng l = { p.eng l with ctl := { (p.eng l).ctl with slot := x } } := by
  simp [Part.setSlot]

@[simp] theorem Part.setSlot_eng_of_other (l : LoopId) (x : Option (BitVec 4)) (p : Part) :
    (p.setSlot (otherLoop l) x).eng l = p.eng l := by simp [Part.setSlot]

@[simp] theorem Part.setSlot_eng_other (l : LoopId) (x : Option (BitVec 4)) (p : Part) :
    (p.setSlot l x).eng (otherLoop l) = p.eng (otherLoop l) := by simp [Part.setSlot]

end Sys2Proof.Machine
end

