-- ==== Sys2Proof/Laws/Procedure.lean ====
section
/-! SUPPORT. The procedure of a scheduler requester: when it waits, and where it stands after an event. -/

namespace Sys2Proof.Machine

open Sys2Proof

/-- An operation of a procedure that is a transfer. -/
def SchedOp.transfers : SchedOp → Bool
  | .readGlobal | .readLoopHost _ | .readStationHost _ | .readLink _ | .readRecord _ _
  | .writeActive _ _ _ | .writePayload _ _ | .writeResult _ _ _ _ | .writeDone _ _ _ _
  | .writeStationHalf _ | .writeLoopHalf => true
  | .raise _ | .raiseCatch | .raiseRetimeRefused | .mark | .startValidate | .awaitTransmitter
  | .startLatch | .startResets | .startNext | .startAbort | .judge _ | .retimeStep | .cycleStep
  | .reportStep | .beaconStep | .takeCheck _ | .fitTest _ | .followOn _ | .endTurn | .settleAll _
  | .settle _ _ | .enterTarget | .enterOff | .disown _ | .rollEnd | .testValidate | .testFirst
  | .testAbort => false

@[simp] theorem Part.schedAction_isSome (p : Part) (l : LoopId) (op : SchedOp) :
    (p.schedAction l op).isSome = op.transfers := by cases op <;> rfl

/-- A procedure waits at a transfer, and at the end of a keepalive being sent. -/
theorem Part.waitsAt_eq (p : Part) (l : LoopId) (op : SchedOp) :
    p.waitsAt l op =
      (op.transfers || (op == .awaitTransmitter && (p.eng l).framer.sending.isSome)) := by
  unfold Part.waitsAt; rw [Part.schedAction_isSome]

/-- Where a procedure waits depends on its engine alone. -/
theorem Part.waitsAt_congr (p q : Part) (l : LoopId) (op : SchedOp)
    (h : (q.eng l).framer.sending.isSome = (p.eng l).framer.sending.isSome) :
    q.waitsAt l op = p.waitsAt l op := by
  rw [Part.waitsAt_eq, Part.waitsAt_eq, h]

/-- Whether a procedure stands depends on its list and on what is being sent alone. -/
theorem Part.paused_congr (p q : Part) (l : LoopId) (hs : (q.eng l).sched = (p.eng l).sched)
    (h : (q.eng l).framer.sending.isSome = (p.eng l).framer.sending.isSome) :
    q.paused l = p.paused l := by
  unfold Part.paused
  rw [hs]
  cases (p.eng l).sched with
  | nil => rfl
  | cons op rest => exact Part.waitsAt_congr p q l op h

theorem Part.paused_of_eng (p q : Part) (l : LoopId) (h : q.eng l = p.eng l) :
    q.paused l = p.paused l := Part.paused_congr p q l (by rw [h]) (by rw [h])

/-- An empty procedure stands. -/
theorem Part.paused_nil (p : Part) (l : LoopId) (h : (p.eng l).sched = []) : p.paused l = true := by
  unfold Part.paused; rw [h]

/-- A procedure stands at a transfer. -/
theorem Part.paused_cons (p : Part) (l : LoopId) (op : SchedOp) (rest : List SchedOp)
    (h : (p.eng l).sched = op :: rest) (ht : op.transfers = true) : p.paused l = true := by
  unfold Part.paused; rw [h]; simp [Part.waitsAt_eq, ht]

/-- Work added behind a procedure that stands at an operation leaves it standing there. -/
theorem Part.paused_append (p q : Part) (l : LoopId) (ops : List SchedOp)
    (hs : (q.eng l).sched = (p.eng l).sched ++ ops) (hne : (p.eng l).sched ≠ [])
    (h : (q.eng l).framer.sending.isSome = (p.eng l).framer.sending.isSome) :
    q.paused l = p.paused l := by
  unfold Part.paused
  rw [hs]
  cases hp : (p.eng l).sched with
  | nil => exact absurd hp hne
  | cons op rest => exact Part.waitsAt_congr p q l op h

/-- A procedure that stands is not carried on. -/
theorem Part.runSched_of_paused (n : Nat) (l : LoopId) (p : Part) (h : p.paused l = true) :
    Part.runSched n l p = p := by
  unfold Part.paused at h
  cases n with
  | zero =>
    unfold Part.runSched Part.cutActs
    refine Part.modEng_self l _ p ?_
    cases hs : (p.eng l).sched with
    | nil => simp only [List.dropWhile]; rw [← hs]
    | cons op rest =>
      simp only [hs] at h
      simp only [List.dropWhile, h, Bool.not_true]
      rw [← hs]
  | succ n =>
    unfold Part.runSched
    cases hs : (p.eng l).sched with
    | nil => rfl
    | cons op rest =>
      simp only [hs] at h
      simp [h]

/-- One act of a procedure that does not stand. -/
theorem Part.runSched_act (n : Nat) (l : LoopId) (p : Part) (op : SchedOp) (rest : List SchedOp)
    (hs : (p.eng l).sched = op :: rest) (h : p.waitsAt l op = false) :
    Part.runSched (n + 1) l p = Part.runSched n l (Part.act l op (p.popSched l)) := by
  rw [Part.runSched]; simp [hs, h]

/-- After its acts a procedure stands. -/
theorem Part.paused_runSched (n : Nat) (l : LoopId) (p : Part) :
    (Part.runSched n l p).paused l = true := by
  induction n generalizing p with
  | zero =>
    unfold Part.runSched Part.cutActs Part.paused
    simp only [Part.eng_modEng]
    have key : ∀ ops : List SchedOp,
        (match ops.dropWhile (fun op => !p.waitsAt l op) with
          | [] => true
          | op :: _ => Part.waitsAt (Part.modEng l (fun e =>
              { e with sched := e.sched.dropWhile fun op => !p.waitsAt l op }) p) l op) = true := by
      intro ops
      induction ops with
      | nil => rfl
      | cons op rest ih =>
        cases hw : p.waitsAt l op with
        | false => simpa [List.dropWhile, hw] using ih
        | true =>
          simp only [List.dropWhile, hw, Bool.not_true]
          rw [Part.waitsAt_congr p _ l op (by simp), hw]
    exact key _
  | succ n ih =>
    rw [Part.runSched]
    split
    · rename_i hs
      exact Part.paused_nil p l hs
    · rename_i op rest hs
      split
      · rename_i hw
        unfold Part.paused
        rw [hs]
        exact hw
      · exact ih _

/-- A roll-call that is not due leaves the part as it is. -/
theorem Part.rollcallIfDue_of_not (l : LoopId) (p : Part) (h : (p.eng l).rollcallDue = false) :
    p.rollcallIfDue l = p := by
  unfold Part.rollcallIfDue; rw [h]; rfl

/-- No roll-call is due outside RUNNING. -/
theorem Engine.rollcallDue_of_state (e : Engine) (h : e.ctl.state ≠ .running) : e.rollcallDue = false := by
  unfold Engine.rollcallDue; simp [h]

/-- No roll-call is due while a procedure is under way. -/
theorem Engine.rollcallDue_of_sched (e : Engine) (h : e.sched ≠ []) : e.rollcallDue = false := by
  unfold Engine.rollcallDue; simp [h]

/-- No roll-call is due during a turn. -/
theorem Engine.rollcallDue_of_turn (e : Engine) (h : e.cyc.turn.isSome = true) : e.rollcallDue = false := by
  unfold Engine.rollcallDue
  cases ht : e.cyc.turn with
  | none => rw [ht] at h; exact absurd h (by simp)
  | some t => simp

/-- No roll-call is due without a ROLLCALL that waits. -/
theorem Engine.rollcallDue_of_request (e : Engine) (h : e.ctl.rollRequest = false) :
    e.rollcallDue = false := by
  unfold Engine.rollcallDue; simp [h]

/-- The entry to RUNNING leaves the procedure at a transfer, if it stood. -/
theorem Part.paused_enterRunning (l : LoopId) (p : Part) (follow : List SchedOp)
    (h : (p.eng l).sched = []) : (p.enterRunning l follow).paused l = true := by
  refine Part.paused_cons _ l .writeLoopHalf follow ?_ rfl
  simp [Part.enterRunning, Part.push, Engine.toRunning, h]

/-- The entry to ROLLCALL leaves the procedure at a transfer, if it stood at its end. -/
theorem Part.paused_enterRollcall (l : LoopId) (p : Part) (follow : List SchedOp)
    (h : (p.eng l).sched = []) : (p.enterRollcall l follow).paused l = true := by
  have hd : ((p.eng l).dropHeld .beacon).sched = [] := by
    unfold Engine.dropHeld
    split
    · split <;> exact h
    · exact h
  unfold Part.enterRollcall
  simp only
  split
  · exact Part.paused_enterRunning l _ _ (by simpa using hd)
  · exact Part.paused_cons _ l .writeLoopHalf follow (by simp [Part.push, hd]) rfl

/-- After an event of the loop its procedure stands. -/
theorem Part.paused_proceed (l : LoopId) (p : Part) : (p.proceed l).paused l = true := by
  unfold Part.proceed
  have h := Part.paused_runSched Config.actBound l p
  generalize Part.runSched Config.actBound l p = q at h
  unfold Part.rollcallIfDue
  split
  · rename_i hc
    unfold Engine.rollcallDue at hc
    simp at hc
    exact Part.paused_enterRollcall l q [] hc.1.1.2
  · exact h

/-- After an event of the loop no roll-call is due: one that was has been entered. -/
theorem Part.rollcallDue_proceed (l : LoopId) (p : Part) : ((p.proceed l).eng l).rollcallDue = false := by
  unfold Part.proceed
  generalize Part.runSched Config.actBound l p = q
  unfold Part.rollcallIfDue
  split
  · rename_i hc
    unfold Engine.rollcallDue at hc
    simp at hc
    unfold Part.enterRollcall
    simp only
    split
    · exact Engine.rollcallDue_of_sched _ (by simp [Part.enterRunning, Part.push])
    · exact Engine.rollcallDue_of_sched _ (by simp [Part.push])
  · rename_i hc
    simpa using hc

/-- After an event of the loop its procedure stands between two steps. -/
theorem Part.settled_proceed (l : LoopId) (p : Part) : (p.proceed l).settled l = true := by
  unfold Part.settled
  rw [Part.paused_proceed, Part.rollcallDue_proceed]
  rfl

/-- A procedure that stands between two steps is not carried on. -/
theorem Part.proceed_of_settled (l : LoopId) (p : Part) (h : p.settled l = true) : p.proceed l = p := by
  unfold Part.settled at h
  simp at h
  unfold Part.proceed
  rw [Part.runSched_of_paused _ l p h.1, Part.rollcallIfDue_of_not l p h.2]

/-- A procedure stands at a transfer, or at its end when no roll-call is due. -/
theorem Part.settled_of_atTransfer (l : LoopId) (p : Part) (h : p.atTransfer l = true)
    (hr : (p.eng l).rollcallDue = false) : p.settled l = true := by
  unfold Part.settled
  rw [hr]
  unfold Part.atTransfer at h
  unfold Part.paused
  cases hs : (p.eng l).sched with
  | nil => rfl
  | cons op rest =>
    rw [hs] at h
    simp only at h
    simp only [Part.waitsAt, h, Bool.true_or, Bool.not_false, Bool.and_self]

/-- A procedure stands at a transfer: no roll-call is due then. -/
theorem Part.settled_cons (l : LoopId) (p : Part) (op : SchedOp) (rest : List SchedOp)
    (h : (p.eng l).sched = op :: rest) (ht : op.transfers = true) : p.settled l = true := by
  unfold Part.settled
  rw [Part.paused_cons p l op rest h ht, Engine.rollcallDue_of_sched _ (by rw [h]; simp)]
  rfl

/-- A procedure at its end stands, when no roll-call is due. -/
theorem Part.settled_nil (l : LoopId) (p : Part) (h : (p.eng l).sched = [])
    (hr : (p.eng l).rollcallDue = false) : p.settled l = true := by
  unfold Part.settled
  rw [Part.paused_nil p l h, hr]
  rfl

/-- Outside RUNNING a procedure stands as soon as it waits. -/
theorem Part.settled_of_state (l : LoopId) (p : Part) (h : p.paused l = true)
    (hs : (p.eng l).ctl.state ≠ .running) : p.settled l = true := by
  unfold Part.settled
  rw [h, Engine.rollcallDue_of_state _ hs]
  rfl

/-- Work added behind a procedure that is at its end or at a transfer leaves it at a transfer, if the work
begins with one. -/
theorem Part.settled_append (l : LoopId) (p q : Part) (op : SchedOp) (ops : List SchedOp)
    (h : p.atTransfer l = true) (hq : (q.eng l).sched = (p.eng l).sched ++ op :: ops)
    (ht : op.transfers = true) : q.settled l = true := by
  unfold Part.atTransfer at h
  cases hs : (p.eng l).sched with
  | nil => exact Part.settled_cons l q op ops (by rw [hq, hs]; rfl) ht
  | cons a rest =>
    rw [hs] at h
    exact Part.settled_cons l q a (rest ++ op :: ops) (by rw [hq, hs]; rfl) (by simpa using h)

/-- Whether a procedure stands depends on its list, on what is being sent, and on whether a roll-call is
due. -/
theorem Part.settled_congr (l : LoopId) (p q : Part) (h : p.settled l = true)
    (hs : (q.eng l).sched = (p.eng l).sched)
    (hx : (q.eng l).framer.sending.isSome = (p.eng l).framer.sending.isSome)
    (hr : (q.eng l).rollcallDue = false) : q.settled l = true := by
  unfold Part.settled at h ⊢
  simp at h
  rw [Part.paused_congr p q l hs hx, h.1, hr]
  rfl

/-- Whether a procedure stands between two steps depends on its engine alone. -/
theorem Part.settled_of_eng (p q : Part) (l : LoopId) (h : q.eng l = p.eng l) : q.settled l = p.settled l := by
  unfold Part.settled
  rw [Part.paused_of_eng p q l h, h]

end Sys2Proof.Machine
end

