-- ==== Sys2Proof/Laws/Within.lean ====
section
/-! SUPPORT. What the work of one loop can change: the relation, and the lemmas for the named updates. -/

namespace Sys2Proof.Machine

open Sys2Proof

/-- The port after work of loop `l`: at most a transfer of the loop has lost its claimant. -/
def MemoryPort.Within (l : LoopId) (a b : MemoryPort) : Prop :=
  b.pointer = a.pointer ∧
    (b.inFlight = a.inFlight ∨
      ∃ t, a.inFlight = some t ∧ t.requester.loop = l ∧ b.inFlight = some { t with orphan := true })

/-- The CAUSE flags of a loop (R163). -/
def loopCauses : LoopId → Word
  | .A => 0x0000FFFF
  | .B => 0xFFFF0000

/-- `q` comes out of `p` by work of loop `l`: the other loop's engine, the registers, the window and the
grant pointer are as before, CAUSE has gained flags of the loop alone, and the invariants are kept. -/
structure Part.Within (l : LoopId) (p q : Part) : Prop where
  other : q.eng (otherLoop l) = p.eng (otherLoop l)
  now : q.now = p.now
  resetHeld : q.resetHeld = p.resetHeld
  resetting : q.resetting = p.resetting
  area : q.area = p.area
  mask : q.mask = p.mask
  window : q.window = p.window
  busRead : q.busRead = p.busRead
  causes : q.cause &&& p.cause = p.cause ∧ q.cause &&& ~~~ loopCauses l = p.cause &&& ~~~ loopCauses l
  port : MemoryPort.Within l p.port q.port
  engine : (p.eng l).sound → (q.eng l).sound
  relays : p.couplersDistinct → q.couplersDistinct
  copies : p.copiesHeld → q.copiesHeld
  owner : q.testUnit.owner = p.testUnit.owner ∨ (p.testUnit.owner = some l ∧ q.testUnit.owner = none) ∨
    (p.testUnit.owner = none ∧ q.testUnit.owner = some l)
  test : ((p.eng l).ctl.state = .test → p.testUnit.owner = some l) →
    (q.eng l).ctl.state = .test → q.testUnit.owner = some l

namespace Part.Within

variable {l : LoopId} {p q r : Part}

theorem refl (l : LoopId) (p : Part) : Part.Within l p p where
  other := rfl
  now := rfl
  resetHeld := rfl
  resetting := rfl
  area := rfl
  mask := rfl
  window := rfl
  busRead := rfl
  causes := ⟨by simp, rfl⟩
  port := ⟨rfl, .inl rfl⟩
  engine := id
  relays := id
  copies := id
  owner := .inl rfl
  test := fun h => h

theorem trans (h : Part.Within l p q) (k : Part.Within l q r) : Part.Within l p r where
  other := k.other.trans h.other
  now := k.now.trans h.now
  resetHeld := k.resetHeld.trans h.resetHeld
  resetting := k.resetting.trans h.resetting
  area := k.area.trans h.area
  mask := k.mask.trans h.mask
  window := k.window.trans h.window
  busRead := k.busRead.trans h.busRead
  causes := by
    obtain ⟨a, b⟩ := h.causes
    obtain ⟨c, d⟩ := k.causes
    refine ⟨?_, d.trans b⟩
    rw [← a, ← BitVec.and_assoc, c]
  port := by
    obtain ⟨a, b⟩ := h.port
    obtain ⟨c, d⟩ := k.port
    refine ⟨c.trans a, ?_⟩
    rcases b with b | ⟨t, b1, b2, b3⟩ <;> rcases d with d | ⟨u, d1, d2, d3⟩
    · exact .inl (d.trans b)
    · exact .inr ⟨u, b ▸ d1, d2, d3⟩
    · exact .inr ⟨t, b1, b2, d.trans b3⟩
    · refine .inr ⟨t, b1, b2, ?_⟩
      rw [b3] at d1
      cases d1
      exact d3
  engine := fun x => k.engine (h.engine x)
  relays := fun x => k.relays (h.relays x)
  copies := fun x => k.copies (h.copies x)
  owner := by
    rcases h.owner with a | a | a <;> rcases k.owner with b | b | b
    · exact .inl (b.trans a)
    · exact .inr (.inl ⟨a ▸ b.1, b.2⟩)
    · exact .inr (.inr ⟨a ▸ b.1, b.2⟩)
    · exact .inr (.inl ⟨a.1, b.trans a.2⟩)
    · exact .inr (.inl ⟨a.1, b.2⟩)
    · exact .inl (b.2.trans a.1.symm)
    · exact .inr (.inr ⟨a.1, b.trans a.2⟩)
    · exact .inl (b.2.trans a.1.symm)
    · rw [a.2] at b; exact absurd b.1 (by simp)
  test := fun x => k.test (h.test x)

/-- A change of the loop's engine. -/
theorem modEng {f : Engine → Engine} (h : Part.Within l p q)
    (hs : (q.eng l).sound → (f (q.eng l)).sound)
    (ht : (f (q.eng l)).ctl.state = .test → (q.eng l).ctl.state = .test) :
    Part.Within l p (q.modEng l f) :=
  h.trans
    { other := by simp
      now := by simp
      resetHeld := by simp
      resetting := by simp
      area := by simp
      mask := by simp
      window := by simp
      busRead := by simp
      causes := by simp
      port := by simp [MemoryPort.Within]
      engine := by simpa using hs
      relays := by
        intro h
        unfold Part.couplersDistinct at h ⊢
        simpa using h
      copies := by
        intro h i
        simpa using h i
      owner := by simp
      test := by
        intro h
        simp only [Part.eng_modEng, Part.modEng_testUnit]
        exact fun x => h (ht x) }

/-- A change of one context. -/
theorem modCtx {f : Context → Context} {i : StationIx} (h : Part.Within l p q)
    (hf : (q.ctx i).copyHeld → (f (q.ctx i)).copyHeld) : Part.Within l p (q.modCtx i f) :=
  h.trans
    { other := by simp
      now := by simp
      resetHeld := by simp
      resetting := by simp
      area := by simp
      mask := by simp
      window := by simp
      busRead := by simp
      causes := by simp
      port := by simp [MemoryPort.Within]
      engine := by simp
      relays := by
        intro h
        unfold Part.couplersDistinct at h ⊢
        simpa using h
      copies := by
        intro h j
        by_cases hj : j = i
        · subst hj; simpa using hf (h j)
        · rw [Part.ctx_modCtx_ne i j f q hj]; exact h j
      owner := by simp
      test := by
        intro h
        simpa using h }

theorem causeBit_and (l : LoopId) (c : Cause) : causeBit l c &&& ~~~ loopCauses l = 0 := by
  cases l <;> cases c <;> decide

/-- A cause of the loop. -/
theorem raiseCause {c : Cause} (h : Part.Within l p q) : Part.Within l p (q.raiseCause l c) :=
  h.trans
    { other := by simp
      now := by simp
      resetHeld := by simp
      resetting := by simp
      area := by simp
      mask := by simp
      window := by simp
      busRead := by simp
      causes := by
        rw [Part.raiseCause_cause]
        split
        · simp
        · have hb := causeBit_and l c
          constructor
          · ext i hi
            simp only [BitVec.getElem_and, BitVec.getElem_or]
            cases q.cause[i] <;> simp
          · rw [show (q.cause ||| causeBit l c) &&& ~~~ loopCauses l
                = (q.cause &&& ~~~ loopCauses l) ||| (causeBit l c &&& ~~~ loopCauses l) by
                  ext i hi; simp [Bool.and_or_distrib_right], hb]
            simp
      port := by simp [MemoryPort.Within]
      engine := by simp
      relays := by
        intro h
        unfold Part.couplersDistinct at h ⊢
        simpa using h
      copies := by
        intro h i
        simpa using h i
      owner := by simp
      test := by
        intro h
        simpa using h }

/-- A change of relay entries, each by itself, that leaves their couplers. -/
theorem mapRelays {f : RelayEntry → Option RelayEntry} (h : Part.Within l p q)
    (hf : ∀ r r', f r = some r' → r'.coupler = r.coupler) : Part.Within l p (q.mapRelays f) :=
  h.trans
    { other := by simp
      now := by simp
      resetHeld := by simp
      resetting := by simp
      area := by simp
      mask := by simp
      window := by simp
      busRead := by simp
      causes := by simp
      port := by simp [MemoryPort.Within]
      engine := by simp
      relays := by
        intro h a b hab r hr s hs
        rw [Part.mapRelays_relay] at hr hs
        simp only [Option.mem_def, Option.bind_eq_some_iff] at hr hs
        obtain ⟨r0, hr0, hr1⟩ := hr
        obtain ⟨s0, hs0, hs1⟩ := hs
        rw [hf _ _ hr1, hf _ _ hs1]
        exact h a b hab r0 hr0 s0 hs0
      copies := by
        intro h i
        simpa using h i
      owner := by simp
      test := by
        intro h
        simpa using h }

/-- A change of the contexts of the loop. -/
theorem mapOwned {f : Context → Context} (h : Part.Within l p q)
    (hf : ∀ c, c.copyHeld → (f c).copyHeld) : Part.Within l p (q.mapOwned l f) :=
  h.trans
    { other := by simp
      now := by simp
      resetHeld := by simp
      resetting := by simp
      area := by simp
      mask := by simp
      window := by simp
      busRead := by simp
      causes := by simp
      port := by simp [MemoryPort.Within]
      engine := by simp
      relays := by
        intro h
        unfold Part.couplersDistinct at h ⊢
        simpa using h
      copies := by
        intro h i
        rw [Part.mapOwned_ctx]
        split
        · exact hf _ (h i)
        · exact h i
      owner := by simp
      test := by
        intro h
        simpa using h }

/-- A procedure of the loop is given up. -/
theorem orphan {w : Requester} (h : Part.Within l p q) (hw : w.loop = l) :
    Part.Within l p (q.orphan w) :=
  h.trans
    { other := by simp
      now := by simp
      resetHeld := by simp
      resetting := by simp
      area := by simp
      mask := by simp
      window := by simp
      busRead := by simp
      causes := by simp
      port := by
        unfold Part.orphan
        split
        · rename_i t ht
          split
          · rename_i hr
            exact ⟨rfl, .inr ⟨t, ht, by rw [hr, hw], rfl⟩⟩
          · exact ⟨rfl, .inl rfl⟩
        · exact ⟨rfl, .inl rfl⟩
      engine := by simp
      relays := by
        intro h
        unfold Part.couplersDistinct at h ⊢
        simpa using h
      copies := by
        intro h i
        simpa using h i
      owner := by simp
      test := by
        intro h
        simpa using h }

/-- A change of the Screening Store. -/
theorem screening {s : ScreeningStore} (h : Part.Within l p q) :
    Part.Within l p { q with screening := s } :=
  h.trans
    { other := by cases l <;> rfl
      now := rfl
      resetHeld := rfl
      resetting := rfl
      area := rfl
      mask := rfl
      window := rfl
      busRead := rfl
      causes := by simp
      port := ⟨rfl, .inl rfl⟩
      engine := by cases l <;> exact id
      relays := id
      copies := id
      owner := .inl rfl
      test := by cases l <;> exact id }

/-- A change of the Test Pattern Unit that leaves its owner. -/
theorem testUnit {u : TestUnit} (h : Part.Within l p q) (hu : u.owner = q.testUnit.owner) :
    Part.Within l p { q with testUnit := u } :=
  h.trans
    { other := by cases l <;> rfl
      now := rfl
      resetHeld := rfl
      resetting := rfl
      area := rfl
      mask := rfl
      window := rfl
      busRead := rfl
      causes := by simp
      port := ⟨rfl, .inl rfl⟩
      engine := by cases l <;> exact id
      relays := id
      copies := id
      owner := .inl hu
      test := by
        intro h x
        refine hu.trans (h ?_)
        cases l <;> exact x }

/-- The invariant of the other loop's engine is kept too. -/
theorem engines (h : Part.Within l p q) (m : LoopId) (hm : (p.eng m).sound) : (q.eng m).sound := by
  rcases eq_or_eq_otherLoop l m with e | e
  · subst e; exact h.engine hm
  · rw [e, h.other, ← e]; exact hm

/-- A loop in TEST holds the Test Pattern Unit still. -/
theorem testOwned (h : Part.Within l p q) (hp : p.testOwned) : q.testOwned := by
  intro m hm
  rcases eq_or_eq_otherLoop l m with e | e
  · subst e; exact h.test (hp m) hm
  · subst e
    rw [h.other] at hm
    have ho := hp _ hm
    rcases h.owner with a | a | a
    · rw [a]; exact ho
    · rw [ho] at a; exact absurd (Option.some.inj a.1) (otherLoop_ne l)
    · rw [ho] at a; exact absurd a.1 (by simp)

end Part.Within

end Sys2Proof.Machine
end

