-- ==== Sys2Proof/Laws/Engines.lean ====
section
/-! SUPPORT. The named changes of an engine keep its invariants. -/

namespace Sys2Proof.Machine.Engine

open Sys2Proof

/-- Without a walk there is nothing to hold. -/
theorem walks_none {c : CatchUnit} (h : c.walk = none) : c.walksForFrame := by
  intro hw
  rw [h] at hw
  cases hw

/-- A change that leaves the catch path, the loop state, the attempt and what is sent. -/
theorem sound_congr {e f : Engine} (hc : f.catcher = e.catcher) (hs : f.ctl.state = e.ctl.state)
    (hr : f.framer.running = e.framer.running) (hx : f.framer.sending = e.framer.sending)
    (hh : f.framer.held = e.framer.held) (hu : f.xu = e.xu) (h : e.sound) : f.sound := by
  unfold sound restsInState at *
  rw [hc, hs, hr, hx, hh, hu]
  exact h

/-- The invariants, where nothing is sent and no attempt is made. -/
theorem sound_of_idle {e : Engine} (hc : e.catcher.conserves) (hw : e.catcher.walksForFrame)
    (hr : e.ctl.state.framerStopped = true → e.framer.running = false)
    (hx : e.framer.sending = none) (hh : e.framer.held = none) (hu : e.xu = ExchangeUnit.idle) :
    e.sound := ⟨hc, hw, hr, fun _ => ⟨hx, hh, hu⟩⟩

/-- The invariants, in a state in which the Framer runs and the part may send. -/
theorem sound_of_active {e : Engine} (hc : e.catcher.conserves) (hw : e.catcher.walksForFrame)
    (hs : e.ctl.state.sendsNothing = false) : e.sound := by
  refine ⟨hc, hw, fun h => ?_, fun h => ?_⟩
  · cases hst : e.ctl.state <;> simp_all [LoopState.framerStopped, LoopState.sendsNothing]
  · rw [hs] at h; exact absurd h (by decide)

theorem sound_catcher {e : Engine} {c : CatchUnit} (h : e.sound) (hc : c.conserves)
    (hw : c.walksForFrame) : ({ e with catcher := c } : Engine).sound := ⟨hc, hw, h.2.2⟩

theorem sound_dropHeld {e : Engine} {x : TxPurpose} (h : e.sound) : (e.dropHeld x).sound := by
  unfold dropHeld
  split
  · split
    · exact ⟨h.1, h.2.1, h.2.2.1, fun hs => ⟨(h.2.2.2 hs).1, rfl, (h.2.2.2 hs).2.2⟩⟩
    · exact h
  · exact h

@[simp] theorem dropHeld_ctl (e : Engine) (x : TxPurpose) : (e.dropHeld x).ctl = e.ctl := by
  unfold dropHeld; split <;> (try split) <;> rfl

@[simp] theorem dropHeld_catcher (e : Engine) (x : TxPurpose) :
    (e.dropHeld x).catcher = e.catcher := by unfold dropHeld; split <;> (try split) <;> rfl

@[simp] theorem dropHeld_cyc (e : Engine) (x : TxPurpose) : (e.dropHeld x).cyc = e.cyc := by
  unfold dropHeld; split <;> (try split) <;> rfl

@[simp] theorem dropHeld_sched (e : Engine) (x : TxPurpose) : (e.dropHeld x).sched = e.sched := by
  unfold dropHeld; split <;> (try split) <;> rfl

@[simp] theorem dropHeld_xu (e : Engine) (x : TxPurpose) : (e.dropHeld x).xu = e.xu := by
  unfold dropHeld; split <;> (try split) <;> rfl

@[simp] theorem dropHeld_cfg (e : Engine) (x : TxPurpose) : (e.dropHeld x).cfg = e.cfg := by
  unfold dropHeld; split <;> (try split) <;> rfl

@[simp] theorem dropHeld_rep (e : Engine) (x : TxPurpose) : (e.dropHeld x).rep = e.rep := by
  unfold dropHeld; split <;> (try split) <;> rfl

@[simp] theorem dropHeld_mon (e : Engine) (x : TxPurpose) : (e.dropHeld x).mon = e.mon := by
  unfold dropHeld; split <;> (try split) <;> rfl

@[simp] theorem dropHeld_urgent (e : Engine) (x : TxPurpose) : (e.dropHeld x).urgent = e.urgent := by
  unfold Engine.dropHeld; split <;> (try split) <;> rfl

@[simp] theorem dropHeld_sending (e : Engine) (x : TxPurpose) :
    (e.dropHeld x).framer.sending = e.framer.sending := by
  unfold dropHeld; split <;> (try split) <;> rfl

@[simp] theorem dropHeld_running (e : Engine) (x : TxPurpose) :
    (e.dropHeld x).framer.running = e.framer.running := by
  unfold dropHeld; split <;> (try split) <;> rfl

@[simp] theorem dropHeld_none (e : Engine) (x : TxPurpose) (h : e.framer.held = none) :
    e.dropHeld x = e := by unfold dropHeld; rw [h]

theorem sound_beginSend {e : Engine} {now : Nat} (h : e.sound) : (e.beginSend now).sound := by
  unfold beginSend
  split
  · exact h
  · rename_i f hf
    refine ⟨h.1, h.2.1, h.2.2.1, fun hs => ?_⟩
    have := (h.2.2.2 hs).2.1
    rw [hf] at this
    exact absurd this (by simp)

@[simp] theorem beginSend_ctl (e : Engine) (now : Nat) : (e.beginSend now).ctl = e.ctl := by
  unfold beginSend; split <;> rfl

@[simp] theorem beginSend_catcher (e : Engine) (now : Nat) : (e.beginSend now).catcher = e.catcher := by
  unfold beginSend; split <;> rfl

@[simp] theorem beginSend_sched (e : Engine) (now : Nat) : (e.beginSend now).sched = e.sched := by
  unfold beginSend; split <;> rfl

@[simp] theorem beginSend_xu (e : Engine) (now : Nat) : (e.beginSend now).xu = e.xu := by
  unfold beginSend; split <;> rfl

@[simp] theorem beginSend_cyc (e : Engine) (now : Nat) : (e.beginSend now).cyc = e.cyc := by
  unfold beginSend; split <;> rfl

@[simp] theorem handFrame_ctl (e : Engine) (now : Nat) (f : TxFrame) :
    (e.handFrame now f).ctl = e.ctl := by
  unfold handFrame; split
  · simp only; split <;> simp
  · rfl

@[simp] theorem handFrame_catcher (e : Engine) (now : Nat) (f : TxFrame) :
    (e.handFrame now f).catcher = e.catcher := by
  unfold handFrame; split
  · simp only; split <;> simp
  · rfl

@[simp] theorem handFrame_sched (e : Engine) (now : Nat) (f : TxFrame) :
    (e.handFrame now f).sched = e.sched := by
  unfold handFrame; split
  · simp only; split <;> simp
  · rfl

@[simp] theorem handFrame_xu (e : Engine) (now : Nat) (f : TxFrame) :
    (e.handFrame now f).xu = e.xu := by
  unfold handFrame; split
  · simp only; split <;> simp
  · rfl

@[simp] theorem handFrame_cyc (e : Engine) (now : Nat) (f : TxFrame) :
    (e.handFrame now f).cyc = e.cyc := by
  unfold handFrame; split
  · simp only; split <;> simp
  · rfl

/-- A frame that may be sent in a state is sent in a state in which the part sends. -/
theorem maySend_active {s : LoopState} {x : TxPurpose} (h : s.maySend x = true) :
    s.sendsNothing = false := by cases s <;> cases x <;> simp_all [LoopState.maySend, LoopState.sendsNothing]

theorem sound_handFrame {e : Engine} {now : Nat} {f : TxFrame} (h : e.sound) :
    (e.handFrame now f).sound := by
  by_cases hm : e.ctl.state.maySend f.purpose = true
  · exact sound_of_active (by simpa using h.1) (by simpa using h.2.1)
      (by simpa using maySend_active hm)
  · unfold handFrame
    rw [if_neg (by simpa using hm)]
    exact h

theorem sound_cutOff {e : Engine} {now : Nat} (h : e.sound) : (e.cutOff now).sound := by
  unfold cutOff
  split
  · exact ⟨h.1, h.2.1, h.2.2.1, fun hs => ⟨rfl, rfl, (h.2.2.2 hs).2.2⟩⟩
  · exact ⟨h.1, h.2.1, h.2.2.1, fun hs => ⟨(h.2.2.2 hs).1, rfl, (h.2.2.2 hs).2.2⟩⟩

@[simp] theorem cutOff_ctl (e : Engine) (now : Nat) : (e.cutOff now).ctl = e.ctl := by
  unfold cutOff; split <;> rfl

@[simp] theorem cutOff_catcher (e : Engine) (now : Nat) : (e.cutOff now).catcher = e.catcher := by
  unfold cutOff; split <;> rfl

@[simp] theorem cutOff_sending (e : Engine) (now : Nat) : (e.cutOff now).framer.sending = none := by
  unfold cutOff; split
  · rfl
  · rename_i h; exact h

@[simp] theorem cutOff_held (e : Engine) (now : Nat) : (e.cutOff now).framer.held = none := by
  unfold cutOff; split <;> rfl

theorem sound_countFrameError {e : Engine} (h : e.sound) : e.countFrameError.sound := by
  unfold countFrameError
  simp only
  split <;> exact h

@[simp] theorem countFrameError_ctl (e : Engine) : e.countFrameError.ctl = e.ctl := by
  unfold countFrameError; simp only; split <;> rfl

@[simp] theorem countFrameError_xu (e : Engine) : e.countFrameError.xu = e.xu := by
  unfold countFrameError; simp only; split <;> rfl

@[simp] theorem countFrameError_framer (e : Engine) : e.countFrameError.framer = e.framer := by
  unfold countFrameError; simp only; split <;> rfl

@[simp] theorem countFrameError_catcher (e : Engine) : e.countFrameError.catcher = e.catcher := by
  unfold countFrameError; simp only; split <;> rfl

@[simp] theorem countFrameError_sched (e : Engine) : e.countFrameError.sched = e.sched := by
  unfold countFrameError; simp only; split <;> rfl

@[simp] theorem countFrameError_cfg (e : Engine) : e.countFrameError.cfg = e.cfg := by
  unfold countFrameError; simp only; split <;> rfl

@[simp] theorem countFrameError_cyc (e : Engine) : e.countFrameError.cyc = e.cyc := by
  unfold countFrameError; simp only; split <;> rfl

theorem sound_collide {e : Engine} {now : Nat} (h : e.sound) : (e.collide now).sound := by
  unfold collide countCollision
  refine sound_countFrameError ⟨h.1, h.2.1, h.2.2.1, fun hs => ⟨rfl, (h.2.2.2 hs).2.1, (h.2.2.2 hs).2.2⟩⟩

@[simp] theorem collide_ctl (e : Engine) (now : Nat) : (e.collide now).ctl = e.ctl := by
  simp [collide, countCollision]

theorem sound_endSend {e : Engine} {now : Nat} {x : TxPurpose} (h : e.sound) :
    (e.endSend now x).sound :=
  ⟨h.1, h.2.1, h.2.2.1, fun hs => ⟨rfl, (h.2.2.2 hs).2.1, (h.2.2.2 hs).2.2⟩⟩

theorem sound_toOff {e : Engine} (h : e.sound) : e.toOff.sound :=
  ⟨h.1, h.2.1, fun _ => rfl, fun _ => ⟨rfl, rfl, rfl⟩⟩

theorem sound_toFault {e : Engine} (h : e.sound) : e.toFault.sound :=
  ⟨h.1, walks_none rfl, fun _ => rfl, fun _ => ⟨rfl, rfl, rfl⟩⟩

theorem sound_cutShort {e : Engine} {done : List SchedOp} (h : e.sound) : (e.cutShort done).sound :=
  ⟨h.1, walks_none rfl, fun _ => rfl, fun _ => ⟨rfl, rfl, rfl⟩⟩

theorem sound_reset (biasOk : Bool) : (Engine.reset biasOk).sound :=
  ⟨.inr rfl, walks_none rfl, fun _ => rfl, fun _ => ⟨rfl, rfl, rfl⟩⟩

/-- A unit with no attempt takes no lead. -/
@[simp] theorem lead_idle (start : Nat) : ExchangeUnit.idle.lead start = ExchangeUnit.idle := rfl

@[simp] theorem character_idle (cs : List Byte) :
    ExchangeUnit.idle.character cs = ExchangeUnit.idle := by
  unfold ExchangeUnit.character
  split
  · rfl
  · split <;> rfl

@[simp] theorem await_idle (now : Nat) : ExchangeUnit.idle.await now = ExchangeUnit.idle := rfl

/-- A change of the Exchange Unit that leaves an idle one idle. -/
theorem sound_xu {e : Engine} {f : ExchangeUnit → ExchangeUnit} (hf : f ExchangeUnit.idle = ExchangeUnit.idle)
    (h : e.sound) : ({ e with xu := f e.xu } : Engine).sound :=
  ⟨h.1, h.2.1, h.2.2.1, fun hs => ⟨(h.2.2.2 hs).1, (h.2.2.2 hs).2.1, by
    show f e.xu = _
    rw [(h.2.2.2 hs).2.2, hf]⟩⟩

end Sys2Proof.Machine.Engine
end

