-- ==== Sys2Proof/Laws/Loops.lean ====
section
/-! SUPPORT. Everything that the work of one loop does stays within that loop: for each operation, from
the changes of stations up to the procedures. -/

namespace Sys2Proof.Machine.Part.Within

open Sys2Proof

variable {l : LoopId} {p q : Part}

/-! ### Procedures -/

theorem push {ops : List SchedOp} (h : Within l p q) : Within l p (q.push l ops) :=
  h.modEng id id

theorem pushFront {ops : List SchedOp} (h : Within l p q) : Within l p (q.pushFront l ops) :=
  h.modEng id id

theorem pushUrgent {ops : List SchedOp} (h : Within l p q) : Within l p (q.pushUrgent l ops) :=
  h.modEng id id

theorem turnWrites (h : Within l p q) : Within l p (q.turnWrites l) := h.modEng id id

theorem popSched (h : Within l p q) : Within l p (q.popSched l) := h.modEng id id

theorem cutActs (h : Within l p q) : Within l p (q.cutActs l) := h.modEng id id

/-! ### Stations -/

theorem copyHeld_halt (r : ReasonCode) (c : Context) (h : c.copyHeld) : (c.halt r).copyHeld := by
  unfold Context.halt; split <;> exact h

theorem copyHeld_flip (f : SeqFlip) (c : Context) (h : c.copyHeld) : (c.flip f).copyHeld := by
  cases f <;> exact h

theorem copyHeld_afterRecord (a : AfterRecord) (c : Context) (h : c.copyHeld) :
    (c.afterRecord a).copyHeld := by
  cases a with
  | halted r => exact copyHeld_halt r c h
  | _ => exact h

theorem copyHeld_complete (k : RecordIx) (f : SeqFlip) (a : AfterRecord) (c : Context) :
    (c.complete k f a).copyHeld :=
  copyHeld_afterRecord a _ (copyHeld_flip f _ rfl)

theorem copyHeld_clip (n : Byte) (c : Context) (h : c.copyHeld) : (c.clip n).copyHeld := by
  unfold Context.clip; split <;> exact h

theorem releaseRelay {i : StationIx} (h : Within l p q) : Within l p (q.releaseRelay i) := by
  refine h.mapRelays fun r r' hr => ?_
  split at hr
  · exact absurd hr (by simp)
  · cases hr; rfl

theorem releaseLoopRelays {m : LoopId} (h : Within l p q) : Within l p (q.releaseLoopRelays m) := by
  refine h.mapRelays fun r r' hr => ?_
  split at hr
  · exact absurd hr (by simp)
  · cases hr; rfl

theorem collectRelay {i : StationIx} (h : Within l p q) : Within l p (q.collectRelay i) := by
  refine h.mapRelays fun r r' hr => ?_
  split at hr <;> cases hr <;> rfl

theorem waitRelay {i : StationIx} (h : Within l p q) : Within l p (q.waitRelay i) := by
  refine h.mapRelays fun r r' hr => ?_
  split at hr <;> cases hr <;> rfl

theorem settleRecord {i : StationIx} {o : RecordOutcome} {a : AfterRecord} {ops : List SchedOp}
    (h : Within l p q) : Within l p (q.settleRecord l i o a ops) := h.releaseRelay.pushFront

theorem commitLatency {i : StationIx} {x : BitVec 16} (h : Within l p q) :
    Within l p (q.commitLatency l i x).1 := by
  unfold Part.commitLatency
  dsimp only
  exact Within.modCtx (h.modEng id id) id

/-! ### Loop states -/

theorem freeTest_owner (q : Part) :
    (q.freeTest l).testUnit.owner = q.testUnit.owner ∨
      (q.testUnit.owner = some l ∧ (q.freeTest l).testUnit.owner = none) := by
  unfold Part.freeTest
  split
  · rename_i ho; exact .inr ⟨ho, rfl⟩
  · exact .inl rfl

/-- The Test Pattern Unit freed or given up by a loop that leaves TEST at the same moment. -/
theorem freedWith {u : TestUnit} {f : Engine → Engine} (h : Within l p q)
    (hu : u.owner = q.testUnit.owner ∨ (q.testUnit.owner = some l ∧ u.owner = none))
    (hs : (q.eng l).sound → (f (q.eng l)).sound) (ht : (f (q.eng l)).ctl.state ≠ .test) :
    Within l p (Part.modEng l f { q with testUnit := u }) := by
  refine h.trans
    { other := by cases l <;> rfl
      now := by cases l <;> rfl
      resetHeld := by cases l <;> rfl
      resetting := by cases l <;> rfl
      area := by cases l <;> rfl
      mask := by cases l <;> rfl
      window := by cases l <;> rfl
      busRead := by cases l <;> rfl
      causes := by simp
      port := by simp [MemoryPort.Within]
      engine := by
        intro hq
        rw [Part.eng_modEng]
        have : Part.eng { q with testUnit := u } l = q.eng l := by cases l <;> rfl
        rw [this]
        exact hs hq
      relays := by cases l <;> exact id
      copies := by cases l <;> exact id
      owner := by
        rw [Part.modEng_testUnit]
        rcases hu with a | a
        · exact .inl a
        · exact .inr (.inl a)
      test := by
        intro _ hx
        rw [Part.eng_modEng] at hx
        have : Part.eng { q with testUnit := u } l = q.eng l := by cases l <;> rfl
        rw [this] at hx
        exact absurd hx ht }

theorem satInc_conserves {a b c : Word} {n m : Nat}
    (h : a = BitVec.allOnes 32 ∨ a.toNat = b.toNat + c.toNat + n) (hn : n = m + 1) :
    a = BitVec.allOnes 32 ∨ a.toNat = b.toNat + (satInc c).toNat + m := by
  rcases h with h | h
  · exact .inl h
  · by_cases hc : c = BitVec.allOnes 32
    · left
      have hb := a.isLt
      have : c.toNat = 2 ^ 32 - 1 := by rw [hc]; rfl
      omega
    · right
      have hlt : c.toNat < 2 ^ 32 - 1 := by
        have := c.isLt
        rcases Nat.lt_or_ge c.toNat (2 ^ 32 - 1) with h | h
        · exact h
        · exact absurd (BitVec.eq_of_toNat_eq (x := c) (y := BitVec.allOnes 32)
            (by rw [BitVec.toNat_allOnes]; omega)) hc
      unfold satInc
      rw [if_neg hc, BitVec.toNat_add]
      simp
      omega

theorem satInc_accepted {a b c : Word} {n : Nat}
    (h : a = BitVec.allOnes 32 ∨ a.toNat = b.toNat + c.toNat + n) :
    satInc a = BitVec.allOnes 32 ∨ (satInc a).toNat = b.toNat + c.toNat + (n + 1) := by
  by_cases ha : a = BitVec.allOnes 32
  · left; unfold satInc; rw [if_pos ha]; exact ha
  · rcases h with h | h
    · exact absurd h ha
    · right
      have hlt : a.toNat < 2 ^ 32 - 1 := by
        have := a.isLt
        rcases Nat.lt_or_ge a.toNat (2 ^ 32 - 1) with h | h
        · exact h
        · exact absurd (BitVec.eq_of_toNat_eq (x := a) (y := BitVec.allOnes 32)
            (by rw [BitVec.toNat_allOnes]; omega)) ha
      unfold satInc
      rw [if_neg ha, BitVec.toNat_add]
      simp
      omega

theorem dropCatch (h : Within l p q) : Within l p (q.dropCatch l) := by
  unfold Part.dropCatch
  split
  · exact h
  · rename_i f hf
    have hd : Within l p (Part.modEng l (fun e => { e with catcher := { e.catcher with
        buffer := none, walk := none, drops := satInc e.catcher.drops } })
        (q.orphan (.catcher l))) := by
      refine Within.modEng (h.orphan rfl) (fun hs => ?_) (fun hx => hx)
      simp only [Part.orphan_eng] at hs ⊢
      refine Engine.sound_catcher hs ?_ (Engine.walks_none rfl)
      have hc := hs.1
      unfold CatchUnit.conserves at hc ⊢
      rw [hf] at hc
      exact satInc_conserves hc rfl
    simp only
    split
    · split
      · exact h
      · exact hd
    · exact hd

theorem orphan_testUnit (w : Requester) (s : Part) (u : TestUnit) :
    Part.orphan w { s with testUnit := u } = { s.orphan w with testUnit := u } := by
  unfold Part.orphan
  cases hp : s.port.inFlight with
  | none => simp only
  | some t =>
    simp only
    split <;> rfl

theorem enterOff {ops : List SchedOp} (h : Within l p q) : Within l p (q.enterOff l ops) := by
  unfold Part.enterOff
  refine Within.push ?_
  generalize hr : q.dropCatch l = r
  have hd : Within l p r := hr ▸ h.dropCatch
  unfold Part.freeTest
  split
  · rename_i ho
    exact hd.freedWith (.inr ⟨ho, rfl⟩) Engine.sound_toOff (by simp [Engine.toOff])
  · exact hd.modEng Engine.sound_toOff (fun hx => absurd hx (by simp [Engine.toOff]))

/-- A change of the loop state to one that is not TEST and in which the Framer runs and the part may
send. -/
theorem toActive {f : Engine → Engine} (h : Within l p q) (hc : (f (q.eng l)).catcher = (q.eng l).catcher)
    (hs : (f (q.eng l)).ctl.state.sendsNothing = false) (ht : (f (q.eng l)).ctl.state ≠ .test) :
    Within l p (q.modEng l f) :=
  h.modEng
    (fun hq => Engine.sound_of_active (by rw [hc]; exact hq.1) (by rw [hc]; exact hq.2.1) hs)
    (fun hx => absurd hx ht)

theorem enterRunning {ops : List SchedOp} (h : Within l p q) : Within l p (q.enterRunning l ops) :=
  Within.push (h.toActive rfl rfl (by simp [Engine.toRunning]))

theorem enterRollcall {ops : List SchedOp} (h : Within l p q) : Within l p (q.enterRollcall l ops) := by
  unfold Part.enterRollcall
  simp only
  split
  · exact Within.enterRunning (h.toActive (by simp) rfl (by simp))
  · exact Within.push (h.toActive (by simp) rfl (by simp))

theorem enterQuiet {ops : List SchedOp} (h : Within l p q) : Within l p (q.enterQuiet l ops) :=
  Within.push (h.toActive rfl rfl (by simp))

theorem enterStarting {b : Bool} (h : Within l p q) : Within l p (q.enterStarting l b) := by
  unfold Part.enterStarting
  refine Within.push (h.toActive ?_ rfl (by simp))
  simp only
  split <;> simp [Engine.startFramer]

theorem refuseStart {x : StartError} (h : Within l p q) : Within l p (q.refuseStart l x) :=
  Within.enterOff (h.modEng id id)

theorem startValidate (h : Within l p q) : Within l p (q.startValidate l) := by
  unfold Part.startValidate
  simp only
  split
  · exact Within.pushFront (h.modEng id id)
  · exact h.refuseStart

theorem startLatch (h : Within l p q) : Within l p (q.startLatch l) :=
  h.modEng (fun hs => ⟨hs.1, hs.2.1, hs.2.2.1, fun x => ⟨(hs.2.2.2 x).1, (hs.2.2.2 x).2.1, rfl⟩⟩) id

theorem startResets (h : Within l p q) : Within l p (q.startResets l) := by
  unfold Part.startResets
  split
  · simp only
    refine Within.modEng (Within.orphan (Within.releaseLoopRelays (h.mapOwned fun _ _ => rfl)) rfl)
      (fun hs => ?_) id
    refine ⟨.inr rfl, Engine.walks_none rfl, hs.2.2⟩
  · exact h.modEng id id

theorem startNext (h : Within l p q) : Within l p (q.startNext l) := by
  unfold Part.startNext
  split
  · exact h.enterRollcall
  · exact h.enterRunning

theorem enterDraining {x : DrainTarget} (h : Within l p q) : Within l p (q.enterDraining l x) :=
  Within.pushUrgent (h.toActive (by simp) rfl (by simp))

theorem enterTarget (h : Within l p q) : Within l p (q.enterTarget l) := by
  unfold Part.enterTarget
  split
  · exact h.enterQuiet
  · exact h.enterOff
  · exact h.enterOff

theorem abandonLatency (h : Within l p q) : Within l p (q.abandonLatency l) := by
  unfold Part.abandonLatency
  split
  · split
    · exact h
    · exact h
    · exact h.modCtx id
    · exact h
  · exact h

theorem enterDown {r : DownReason} (h : Within l p q) : Within l p (q.enterDown l r) := by
  unfold Part.enterDown
  refine Within.modEng h.abandonLatency (fun hs => ?_) (fun hx => ?_)
  · refine Engine.sound_of_idle (by simpa using hs.1) (by simpa using hs.2.1) ?_ (by simp) (by simp) rfl
    intro hf
    simp only at hf
    split at hf <;> exact absurd hf (by decide)
  · simp only at hx
    split at hx <;> exact absurd hx (by decide)

theorem recover (h : Within l p q) : Within l p (q.recover l) := by
  unfold Part.recover
  have hm : Within l p (q.modEng l fun e =>
      { e with mon := { e.mon with downSince := none, holdPassed := false, presenceSince := none } }) :=
    h.modEng id id
  simp only
  split
  · exact hm.enterQuiet
  · exact hm.enterRollcall
  · split
    · exact hm.enterRollcall
    · exact hm.enterRunning
  · exact hm.enterOff
  · exact hm.enterOff

theorem enterFault (h : Within l p q) : Within l p (q.enterFault l) := by
  unfold Part.enterFault
  refine Within.raiseCause ?_
  have hr : Within l p ((q.mapOwned l Context.faulted).releaseLoopRelays l) :=
    (h.mapOwned fun _ _ => rfl).releaseLoopRelays
  generalize (q.mapOwned l Context.faulted).releaseLoopRelays l = r at hr
  have key : ∀ (s : Part), Within l p s →
      ∀ u : TestUnit, (u.owner = s.testUnit.owner ∨ (s.testUnit.owner = some l ∧ u.owner = none)) →
      Within l p (Part.push l (q.doneInProgress l) (Part.modEng l Engine.toFault
        (Part.orphan (.catcher l)
          (if (q.doneInProgress l).isEmpty then Part.orphan (.sched l) { s with testUnit := u }
           else { s with testUnit := u })))) := by
    intro s hs u hu
    refine Within.push ?_
    split
    · rw [orphan_testUnit (.sched l) s u, orphan_testUnit (.catcher l) (s.orphan (.sched l)) u]
      exact (Within.orphan (w := .catcher l) (Within.orphan (w := .sched l) hs rfl) rfl).freedWith
        (by simpa using hu) Engine.sound_toFault (by simp [Engine.toFault])
    · rw [orphan_testUnit (.catcher l) s u]
      exact (Within.orphan (w := .catcher l) hs rfl).freedWith
        (by simpa using hu) Engine.sound_toFault (by simp [Engine.toFault])
  unfold Part.abandonTest
  by_cases ho : r.testUnit.owner = some l
  · rw [if_pos ho]; exact key r hr _ (.inr ⟨ho, rfl⟩)
  · rw [if_neg ho]; exact key r hr r.testUnit (.inl rfl)

/-! ### Line test -/

/-- A claim of the Test Pattern Unit that succeeds. -/
theorem enterTest (h : Within l p q) (ho : q.testUnit.owner = none) : Within l p (q.enterTest l) := by
  unfold Part.enterTest
  refine Within.push (h.trans ?_)
  exact
    { other := by cases l <;> rfl
      now := by cases l <;> rfl
      resetHeld := by cases l <;> rfl
      resetting := by cases l <;> rfl
      area := by cases l <;> rfl
      mask := by cases l <;> rfl
      window := by cases l <;> rfl
      busRead := by cases l <;> rfl
      causes := by simp
      port := by simp [MemoryPort.Within]
      engine := by
        intro hs
        rw [Part.eng_modEng]
        have : Part.eng { q with testUnit := { q.testUnit with owner := some l } } l = q.eng l := by
          cases l <;> rfl
        rw [this]
        exact Engine.sound_of_active hs.1 hs.2.1 rfl
      relays := by cases l <;> exact id
      copies := by cases l <;> exact id
      owner := by
        rw [Part.modEng_testUnit]
        exact .inr (.inr ⟨ho, rfl⟩)
      test := by
        intro _ _
        rw [Part.modEng_testUnit] }

theorem testValidate (h : Within l p q) : Within l p (q.testValidate l) := by
  unfold Part.testValidate
  simp only
  split
  · refine Within.pushFront (Within.modEng (h.testUnit rfl) (fun hs => ?_) id)
    exact ⟨hs.1, hs.2.1, hs.2.2.1, fun x => ⟨(hs.2.2.2 x).1, (hs.2.2.2 x).2.1, rfl⟩⟩
  · exact h.refuseStart

theorem prepareTest (h : Within l p q) (ht : (q.eng l).ctl.state = .test) :
    Within l p (q.prepareTest l) := by
  unfold Part.prepareTest
  simp only
  refine Within.modEng (h.testUnit rfl) (fun hs => ?_) (by simp)
  refine Engine.sound_handFrame ?_
  have e : Part.eng { q with testUnit := { q.testUnit with
      generator := (lfsrBytes (q.eng l).cfg.testLength.toNat q.testUnit.generator).1
      copy := (lfsrBytes (q.eng l).cfg.testLength.toNat q.testUnit.generator).2
      sent := satInc q.testUnit.sent } } l = q.eng l := by cases l <;> rfl
  rw [e] at hs ⊢
  exact Engine.sound_of_active hs.1 hs.2.1 (by simp [ht, LoopState.sendsNothing])

theorem testFirst (h : Within l p q) : Within l p (q.testFirst l) := by
  unfold Part.testFirst
  split
  · rename_i ht; exact h.prepareTest ht
  · exact h

theorem testNext (h : Within l p q) : Within l p (q.testNext l) := by
  unfold Part.testNext
  simp only
  split
  · exact Within.enterOff (Within.testUnit (h.testUnit rfl) rfl)
  · exact Within.testFirst (h.testUnit rfl)

theorem testLost (h : Within l p q) : Within l p (q.testLost l) :=
  Within.testNext (h.testUnit rfl)

theorem testReturned {bs : List Byte} (h : Within l p q) : Within l p (q.testReturned l bs) := by
  unfold Part.testReturned
  simp only
  split
  · exact Within.testNext (h.testUnit rfl)
  · exact Within.testNext (h.testUnit rfl)

theorem stopTest (h : Within l p q) : Within l p (q.stopTest l) :=
  Within.enterOff (h.testUnit rfl)

theorem testAbort (h : Within l p q) : Within l p (q.testAbort l) := by
  unfold Part.testAbort
  split
  · exact Within.enterOff (h.testUnit rfl)
  · exact h.enterOff

/-! ### The roster scan -/

theorem admitStation {i : StationIx} {x : StationHost} (h : Within l p q) : Within l p (q.admitStation l i x) := by
  unfold Part.admitStation
  split
  · exact Within.pushFront (h.modCtx fun _ => copyHeld_halt _ _ rfl)
  · exact Within.pushFront (h.modCtx fun _ => rfl)

theorem judgeCandidate {i : StationIx} {x : StationHost} (h : Within l p q) :
    Within l p (q.judgeCandidate l i x) := by
  unfold Part.judgeCandidate
  split
  · exact h.admitStation
  · exact Within.pushFront (h.modCtx fun _ => rfl)

theorem reexamine {i : StationIx} {x : StationHost} (h : Within l p q) :
    Within l p (q.reexamine l i x) := by
  unfold Part.reexamine
  split
  · exact h.admitStation
  · simp only
    split
    · exact h.modCtx id
    · exact Within.pushFront (h.modCtx id)

theorem disableStation {i : StationIx} (h : Within l p q) : Within l p (q.disableStation l i) := by
  unfold Part.disableStation
  split
  · exact h.settleRecord
  · exact Within.pushFront (h.releaseRelay.modCtx id)

theorem rejectStation {i : StationIx} (h : Within l p q) : Within l p (q.rejectStation l i) := by
  unfold Part.rejectStation
  split
  · exact h.settleRecord
  · exact Within.pushFront (h.releaseRelay.modCtx id)

theorem haltStation {i : StationIx} {r : ReasonCode} (h : Within l p q) :
    Within l p (q.haltStation l i r) := by
  unfold Part.haltStation
  split
  · exact h.settleRecord
  · exact Within.pushFront (h.releaseRelay.modCtx (copyHeld_halt _ _))

theorem judgeAdmitted {i : StationIx} {x : StationHost} (h : Within l p q) :
    Within l p (q.judgeAdmitted l i x) := by
  unfold Part.judgeAdmitted
  simp only
  split
  · exact h.rejectStation
  · have hm : Within l p (q.modCtx i fun c => Context.clip x.retryLimit { c with fresh := x.fresh }) :=
      h.modCtx fun hc => copyHeld_clip _ _ hc
    split
    · split
      · exact Within.pushFront (hm.modCtx id)
      · exact hm
    · split
      · exact hm.haltStation
      · split
        · exact hm
        · exact hm.pushFront

theorem judgeEntry {i : StationIx} (h : Within l p q) : Within l p (q.judgeEntry l i) := by
  unfold Part.judgeEntry
  have hm : Within l p (q.modEng l fun e =>
      { e with resetSet := e.resetSet.filter (fun j => j != i) }) := h.modEng id id
  simp only
  split
  · split
    · split
      · exact hm.disableStation
      · split
        · exact hm.reexamine
        · exact hm.judgeAdmitted
    · exact hm
  · split
    · exact hm.judgeCandidate
    · split
      · exact hm.pushFront
      · exact hm

/-! ### Exchanges -/

theorem sendRequest {k : AttemptKind} {i : StationIx} (h : Within l p q)
    (hs : (q.eng l).ctl.state.sendsNothing = false) : Within l p (q.sendRequest l k i) :=
  h.modEng
    (fun hq => Engine.sound_handFrame (Engine.sound_of_active hq.1 hq.2.1 hs))
    (by simp)

theorem startAttempt {k : AttemptKind} {i : StationIx} (h : Within l p q)
    (hs : (q.eng l).ctl.state.sendsNothing = false) : Within l p (q.startAttempt l k i) :=
  Within.sendRequest (h.modEng id id) (by simpa using hs)

theorem endAttempt (h : Within l p q) : Within l p (q.endAttempt l) :=
  h.modEng (fun hs => ⟨hs.1, hs.2.1, hs.2.2.1, fun x => ⟨(hs.2.2.2 x).1, (hs.2.2.2 x).2.1, rfl⟩⟩) id

theorem keepRecord {i : StationIx} {ph : RecordPhase} {ops : List SchedOp} (h : Within l p q) :
    Within l p (q.keepRecord l i ph ops) := Within.push (h.modCtx id)

theorem completeRecord {i : StationIx} {o : RecordOutcome} {bs : List Byte} {f : SeqFlip}
    {a : AfterRecord} {ops : List SchedOp} (h : Within l p q) :
    Within l p (q.completeRecord l i o bs f a ops) := Within.push h.releaseRelay

theorem refuseRecord {i : StationIx} {ops : List SchedOp} (h : Within l p q) :
    Within l p (q.refuseRecord l i ops) := h.completeRecord

theorem holdRecord {i : StationIx} {ph : RecordPhase} {ops : List SchedOp} (h : Within l p q) :
    Within l p (q.holdRecord l i ph ops) := by
  unfold Part.holdRecord
  have hm : Within l p (q.modCtx i fun c => { c with recHolds := satInc c.recHolds }) := h.modCtx id
  simp only
  split
  · exact hm.completeRecord
  · exact hm.keepRecord

theorem judgePatience {i : StationIx} {ops : List SchedOp} (h : Within l p q) :
    Within l p (q.judgePatience l i ops) := by
  unfold Part.judgePatience
  split
  · exact h.completeRecord
  · exact h.keepRecord

theorem failRecord {k : AttemptKind} {i : StationIx} {ops : List SchedOp} (h : Within l p q) :
    Within l p (q.failRecord l k i ops) := by
  unfold Part.failRecord
  have hm : Within l p (q.modCtx i fun c =>
      { c with recAttempts := incTo 7 c.recAttempts, failures := c.failures + 1 }) := h.modCtx id
  simp only
  split
  · exact Within.completeRecord (hm.modCtx id)
  · split
    · exact hm.releaseRelay.keepRecord
    · exact hm.judgePatience
    all_goals exact hm.keepRecord

theorem markAnswered (h : Within l p q) : Within l p (q.markAnswered l) := h.modEng id id

theorem couplerHeard {i : StationIx} (h : Within l p q) : Within l p (q.couplerHeard i).1 := by
  unfold Part.couplerHeard
  split
  · exact h.modCtx id
  · exact h

theorem duplicateReply {i : StationIx} {ph : RecordPhase} {ops : List SchedOp} (h : Within l p q) :
    Within l p (q.duplicateReply l i ph ops) := Within.keepRecord (h.modCtx id)

theorem judgeDirect {a : Attempt} {i : StationIx} {f : RxFrame} {ops : List SchedOp}
    (h : Within l p q) : Within l p (q.judgeDirect l a i f ops) := by
  unfold Part.judgeDirect
  simp only
  split
  · split
    · exact h.completeRecord
    · exact h.duplicateReply
  · exact h.holdRecord
  · exact h.completeRecord
  · exact h.holdRecord
  · exact h.keepRecord
  · exact h.holdRecord
  · exact h.refuseRecord

theorem judgeInner {a : Attempt} {i : StationIx} {ops : List SchedOp} (h : Within l p q) :
    Within l p (q.judgeInner l a i ops) := by
  unfold Part.judgeInner
  have hm : Within l p (q.modCtx i Context.heard) := h.modCtx id
  simp only
  split
  · split
    · exact hm.completeRecord
    · exact hm.releaseRelay.duplicateReply
  · exact hm.completeRecord
  · exact hm.releaseRelay.holdRecord
  · exact hm.refuseRecord
  · exact h.failRecord

theorem recordAttemptFailed {k : AttemptKind} {i : StationIx} (h : Within l p q) :
    Within l p (q.recordAttemptFailed l k i) := Within.failRecord (h.modCtx id)

theorem recordReply {a : Attempt} {i : StationIx} {f : RxFrame} (h : Within l p q) :
    Within l p (q.recordReply l a i f) := by
  unfold Part.recordReply
  have hc : Within l p ((q.markAnswered l).couplerHeard i).1 := h.markAnswered.couplerHeard
  simp only
  split
  · split
    · exact hc.commitLatency.collectRelay.keepRecord
    · exact hc.commitLatency.releaseRelay.holdRecord
    · exact hc.commitLatency.refuseRecord
  · split
    · exact h.recordAttemptFailed
    · split
      · exact hc.commitLatency.judgeInner
      · exact hc.commitLatency.waitRelay.judgePatience
  all_goals exact Within.judgeDirect (Within.commitLatency (h.markAnswered.modCtx id))

theorem recordOverlong {a : Attempt} {i : StationIx} {v : Bool} (h : Within l p q) :
    Within l p (q.recordOverlong l a i v) := by
  unfold Part.recordOverlong
  simp only
  refine Within.completeRecord (Within.commitLatency ?_)
  split
  · exact h
  · split
    · exact h.markAnswered.couplerHeard
    · exact h.markAnswered.modCtx id

theorem rollAdvance {ops : List SchedOp} (h : Within l p q) : Within l p (q.rollAdvance l ops) :=
  Within.push (h.modEng id id)

theorem reviveAll {js : List StationIx} (h : Within l p q) : Within l p (q.reviveAll js) := by
  induction js generalizing q with
  | nil => exact h
  | cons j js ih => exact ih (h.modCtx id)

theorem rollPresent {i : StationIx} (h : Within l p q) : Within l p (q.rollPresent l i) := by
  unfold Part.rollPresent
  simp only
  refine Within.rollAdvance (Within.modEng (Within.reviveAll (h.modCtx fun hc => ?_)) id id)
  split <;> exact hc

theorem rollAbsent {i : StationIx} (h : Within l p q) : Within l p (q.rollAbsent l i) := by
  unfold Part.rollAbsent
  simp only
  exact Within.rollAdvance (Within.releaseRelay (Within.modEng (h.modCtx id) id id))

theorem rollFailed {i : StationIx} (h : Within l p q) : Within l p (q.rollFailed l i) := by
  unfold Part.rollFailed
  split
  · exact h.rollAbsent
  · split
    · exact h.modEng id id
    · exact h

theorem attemptFailed (h : Within l p q) : Within l p (q.attemptFailed l) := by
  unfold Part.attemptFailed
  split
  · exact h
  · simp only
    split
    · exact h.endAttempt.testLost
    · exact h.endAttempt.rollFailed
    · exact h.endAttempt.recordAttemptFailed
    · exact h.endAttempt

theorem overlongFinished {v : Bool} (h : Within l p q) : Within l p (q.overlongFinished l v) := by
  unfold Part.overlongFinished
  split
  · exact h
  · simp only
    split
    · exact h.endAttempt.testLost
    · exact h.endAttempt.rollFailed
    · exact h.endAttempt.recordOverlong
    · exact h.endAttempt

theorem judgeReply {f : RxFrame} (h : Within l p q) : Within l p (q.judgeReply l f) := by
  unfold Part.judgeReply
  split
  · exact h
  · split
    · simp only
      split
      · exact h.endAttempt.testReturned
      · exact h.endAttempt.rollPresent
      · exact h.endAttempt.recordReply
      · exact h.endAttempt
    · exact h.attemptFailed

theorem exchangeError {b : Bool} (h : Within l p q) : Within l p (q.exchangeError l b) := by
  unfold Part.exchangeError
  split
  · exact h.attemptFailed
  · split
    · exact h.attemptFailed
    · exact h
  · rename_i a hst ha
    split
    · exact h.overlongFinished
    · refine h.modEng (fun hs => ⟨hs.1, hs.2.1, hs.2.2.1, fun x => ?_⟩) id
      have := (hs.2.2.2 x).2.2
      rw [this] at ha
      exact absurd ha (by simp [ExchangeUnit.idle])
  · exact h

/-! ### Screening -/

theorem acceptFrame {f : CatchFrame} (h : Within l p q) : Within l p (q.acceptFrame l f) := by
  unfold Part.acceptFrame
  split
  · rename_i hb
    refine h.modEng (fun hs => Engine.sound_catcher hs ?_ (fun _ => rfl)) id
    have hc := hs.1
    unfold CatchUnit.conserves at hc ⊢
    rw [hb] at hc
    exact satInc_accepted hc
  · rename_i g hb
    refine Within.pushUrgent (h.modEng (fun hs => Engine.sound_catcher hs ?_ hs.2.1) id)
    have hc := hs.1
    unfold CatchUnit.conserves at hc ⊢
    exact satInc_conserves (satInc_accepted hc) rfl

theorem announceScreen {f : RxFrame} (h : Within l p q) : Within l p (q.announceScreen l f) := by
  unfold Part.announceScreen
  simp only
  split
  · exact h.screening
  · exact h.screening.acceptFrame

theorem catchDrop {b : Bool} (h : Within l p q) (hb : (q.eng l).sound → (q.eng l).catcher.buffer.isSome = true) :
    Within l p (q.catchDrop l b) := by
  refine Within.pushUrgent (h.modEng (fun hs => Engine.sound_catcher hs ?_ (Engine.walks_none rfl)) id)
  have hc := hs.1
  unfold CatchUnit.conserves at hc ⊢
  rw [hb hs] at hc
  exact satInc_conserves hc rfl

theorem catchNext {o : CatchOp} (h : Within l p q) (hb : (q.eng l).sound → (q.eng l).catcher.buffer.isSome = true) :
    Within l p (q.catchNext l o) :=
  h.modEng (fun hs => Engine.sound_catcher hs hs.1 (fun _ => hb hs)) id

theorem catchLink {k : RecordIx} (h : Within l p q) (hb : (q.eng l).sound → (q.eng l).catcher.buffer.isSome = true) :
    Within l p (q.catchLink l k) := by
  unfold Part.catchLink
  split
  · exact h.catchDrop hb
  · split
    · refine Within.catchNext (h.modEng id id) (fun hs => ?_)
      rw [Part.eng_modEng] at hs ⊢
      exact hb hs
    · exact h.catchDrop hb

theorem satInc_fills {a b c : Word} {n m : Nat}
    (h : a = BitVec.allOnes 32 ∨ a.toNat = b.toNat + c.toNat + n) (hn : n = m + 1) :
    a = BitVec.allOnes 32 ∨ a.toNat = (satInc b).toNat + c.toNat + m := by
  rw [Nat.add_comm b.toNat] at h
  rw [Nat.add_comm (satInc b).toNat]
  exact satInc_conserves h hn

theorem catchFill {k : RecordIx} (h : Within l p q) (hb : (q.eng l).sound → (q.eng l).catcher.buffer.isSome = true) :
    Within l p (q.catchFill l k) := by
  refine Within.pushUrgent (h.modEng (fun hs => Engine.sound_catcher hs ?_ (Engine.walks_none rfl)) id)
  have hc := hs.1
  unfold CatchUnit.conserves at hc ⊢
  rw [hb hs] at hc
  exact satInc_fills hc rfl

theorem catchDone {bs : List Byte} (h : Within l p q) : Within l p (q.catchDone l bs) := by
  have hb : ∀ o, (q.eng l).catcher.walk = some o →
      (q.eng l).sound → (q.eng l).catcher.buffer.isSome = true := by
    intro o ho hs
    exact hs.2.1 (by rw [ho]; rfl)
  unfold Part.catchDone
  split
  · exact h
  · rename_i ho; exact h.catchLink (hb _ ho)
  · rename_i ho; exact h.catchLink (hb _ ho)
  · rename_i ho
    split
    · exact h.catchNext (hb _ ho)
    · exact h.catchDrop (hb _ ho)
  · rename_i ho
    split
    · exact h.catchNext (hb _ ho)
    · exact h.catchNext (hb _ ho)
  · rename_i ho; exact h.catchNext (hb _ ho)
  · rename_i ho; exact h.catchFill (hb _ ho)

theorem wake {r : WakeRecord} (h : Within l p q) : Within l p (q.wake l r) :=
  Within.enterStarting (Within.raiseCause h.screening)

theorem wakeScreen {f : RxFrame} (h : Within l p q) : Within l p (q.wakeScreen l f) := by
  unfold Part.wakeScreen
  simp only
  split
  · exact h.screening
  · exact h.screening.wake

theorem unsolicited {f : RxFrame} (h : Within l p q) : Within l p (q.unsolicited l f) := by
  unfold Part.unsolicited
  split
  all_goals first
    | exact h.announceScreen
    | exact h.wakeScreen
    | exact h

/-! ### The cycle -/

theorem followWindows (h : Within l p q) : Within l p (q.followWindows l) := by
  unfold Part.followWindows
  simp only
  split
  · exact h.modEng id id
  · exact h

theorem beaconEnded (h : Within l p q) : Within l p (q.beaconEnded l) := by
  unfold Part.beaconEnded
  simp only
  split
  · exact Within.followWindows (h.modEng id id)
  · exact h

theorem takeBoundary {g : Nat} (h : Within l p q) : Within l p (q.takeBoundary l g) :=
  Within.push (h.modEng (fun hs => Engine.sound_dropHeld hs) (by simp))

theorem retimeStep (h : Within l p q) : Within l p (q.retimeStep l) := by
  unfold Part.retimeStep
  split
  · exact h.pushFront
  · exact h

theorem retimeJudge {x : LoopHost} (h : Within l p q) : Within l p (q.retimeJudge l x) := by
  unfold Part.retimeJudge
  refine h.modEng (fun hs => ?_) ?_
  · simp only; split <;> exact hs
  · simp only; split <;> exact id

theorem cycleStep (h : Within l p q) : Within l p (q.cycleStep l) := h.modEng id id

theorem reportStep (h : Within l p q) : Within l p (q.reportStep l) := h.modEng id id

theorem beaconStep (h : Within l p q) : Within l p (q.beaconStep l) := by
  unfold Part.beaconStep
  refine h.modEng (fun hs => ?_) ?_
  · simp only
    split
    · exact hs
    · exact Engine.sound_handFrame hs
  · simp only
    split <;> simp

theorem followLink {i : StationIx} {k : RecordIx} (h : Within l p q) :
    Within l p (q.followLink l i k) := by
  unfold Part.followLink
  split
  · exact h
  · split
    · exact h.pushFront
    · split
      · exact h.pushFront
      · exact h.turnWrites.pushFront.haltStation

theorem seeRecord {i : StationIx} {k : RecordIx} {bs : List Byte} (h : Within l p q) :
    Within l p (q.seeRecord l i k bs) := by
  unfold Part.seeRecord
  split
  · exact h
  · split <;> exact h.pushFront

theorem recordTaken {i : StationIx} {k : RecordIx} {c : RecordCopy} (h : Within l p q) :
    Within l p (q.recordTaken l i k c) := by
  unfold Part.recordTaken
  have hm : Within l p (q.modCtx i (Context.take k c)) := h.modCtx fun _ => rfl
  simp only
  split
  · exact hm.pushFront
  · exact hm

theorem takeCheck {i : StationIx} (h : Within l p q) : Within l p (q.takeCheck l i) := by
  unfold Part.takeCheck
  simp only
  split
  · split
    · exact h.turnWrites.pushFront
    · exact h.pushFront
  · exact h.pushFront

theorem startTurn {i : StationIx} {b : Bool} (h : Within l p q) : Within l p (q.startTurn l i b) := by
  unfold Part.startTurn
  have hm : Within l p (q.modEng l fun e =>
      { e with cyc := { e.cyc with turn := some { station := i, periodic := b, stage := .fetch,
                                                  attempted := false, closing := false } } }) :=
    h.modEng id id
  simp only
  split
  · exact hm.push
  · exact hm.push
  · exact hm.followLink

theorem nextTurn (h : Within l p q) : Within l p (q.nextTurn l) := by
  unfold Part.nextTurn
  have hw : Within l p (q.followWindows l) := h.followWindows
  simp only
  split
  · split
    · exact Within.startTurn (hw.modEng id id)
    · exact hw
  · split
    · exact hw.startTurn
    · exact hw
  all_goals exact hw

theorem endTurn (h : Within l p q) : Within l p (q.endTurn l) := by
  unfold Part.endTurn
  split
  · exact h
  · exact Within.followWindows (h.modEng id id)

theorem noteOverrun (h : Within l p q) : Within l p (q.noteOverrun l).1 := by
  unfold Part.noteOverrun
  split
  · exact h
  · dsimp only
    exact h.modEng id id

theorem countMiss {i : StationIx} (h : Within l p q) : Within l p (q.countMiss l i) := by
  unfold Part.countMiss
  have hm : Within l p
      (((q.turnWrites l).modCtx i fun c => { c with missCount := satInc c.missCount }).noteOverrun l).1 :=
    (h.turnWrites.modCtx id).noteOverrun
  simp only
  split
  · exact hm.releaseRelay.pushFront
  · exact hm.pushFront

theorem doesNotFit {i : StationIx} {b : Bool} (h : Within l p q) : Within l p (q.doesNotFit l i b) := by
  unfold Part.doesNotFit
  split
  · exact h.countMiss
  · exact Within.pushFront (h.modEng id id)

/-- A claim judged on the table gives a coupler that no entry in use names. -/
theorem claimRelay {r : RelayEntry} {q' : Part} (h : Within l p q) (hc : q.claimRelay r = some q') :
    Within l p q' ∧ q'.eng l = q.eng l := by
  unfold Part.claimRelay at hc
  split at hc
  · exact absurd hc (by simp)
  · rename_i hn
    simp only [Option.map_eq_some_iff] at hc
    obtain ⟨e, he, hq⟩ := hc
    subst hq
    have hfree : ∀ (a : Fin 8) (x : RelayEntry), q.relays[a] = some x → x.coupler ≠ r.coupler := by
      intro a x hx hxr
      refine hn ?_
      unfold Part.couplerClaimed relayIndexes
      rw [List.any_eq_true]
      exact ⟨a, List.mem_finRange a, by rw [hx]; simp [hxr]⟩
    refine ⟨h.trans
      { other := by cases l <;> rfl
        now := rfl
        resetHeld := rfl
        resetting := rfl
        area := rfl
        mask := rfl
        window := rfl
        busRead := rfl
        causes := by simp
        port := ⟨rfl, .inl rfl⟩
        engine := by cases l <;> exact id
        relays := by
          intro hd a b hab x hx y hy
          have get : ∀ c : Fin 8, (q.relays.set e (some r))[c] =
              if e = c then some r else q.relays[c] := by
            intro c
            show (q.relays.set e.val (some r))[c.val] = _
            rw [Vector.getElem_set]
            by_cases hec : e = c
            · subst hec; simp
            · have : e.val ≠ c.val := fun hv => hec (Fin.ext hv)
              simp [this, hec]
          simp only [get] at hx hy
          split at hx
          · split at hy
            · rename_i h1 h2
              exact absurd (h1.symm.trans h2) hab
            · cases hx
              exact (hfree b y hy).symm
          · split at hy
            · cases hy
              exact hfree a x hx
            · exact hd a b hab x hx y hy
        copies := id
        owner := .inl rfl
        test := by cases l <;> exact id }, by cases l <;> rfl⟩

theorem claimFor {i : StationIx} {q' : Part} (h : Within l p q) (hc : q.claimFor l i = some q') :
    Within l p q' ∧ q'.eng l = q.eng l := by
  unfold Part.claimFor at hc
  split at hc
  · exact h.claimRelay hc
  · exact absurd hc (by simp)

theorem mayAttempt_active {e : Engine} (h : e.mayAttempt = true) : e.ctl.state.sendsNothing = false := by
  unfold Engine.mayAttempt at h
  simp at h
  rw [h.1.1]
  rfl

theorem fitTest {i : StationIx} (h : Within l p q) : Within l p (q.fitTest l i) := by
  unfold Part.fitTest
  simp only
  split
  · exact h.pushFront
  · rename_i hm
    simp only [Bool.or_eq_true, Bool.not_eq_true', not_or, Bool.not_eq_false] at hm
    have ha := mayAttempt_active hm.1
    split
    · exact h.doesNotFit
    · split
      · split
        · rename_i q' hq
          obtain ⟨hw, he⟩ := h.claimFor hq
          exact hw.startAttempt (by rw [he]; exact ha)
        · exact h.pushFront
      · exact h.startAttempt ha

theorem followOnPut {i : StationIx} (h : Within l p q) : Within l p (q.followOnPut l i) := by
  unfold Part.followOnPut
  simp only
  split
  · exact h.pushFront
  · rename_i hm
    simp only [Bool.not_eq_true', Bool.not_eq_false] at hm
    split
    · exact h.startAttempt (mayAttempt_active hm)
    · split
      · exact h.pushFront
      · exact h.doesNotFit

/-! ### Procedures carried on -/

theorem raiseRetimeRefused (h : Within l p q) : Within l p (q.raiseRetimeRefused l) := by
  unfold Part.raiseRetimeRefused
  split
  · exact Within.raiseCause (h.modEng id id)
  · exact h

theorem rollEnd (h : Within l p q) : Within l p (q.rollEnd l) := by
  unfold Part.rollEnd
  split
  · exact h.enterRunning
  · exact h

theorem act {op : SchedOp} (h : Within l p q) : Within l p (Part.act l op q) := by
  cases op with
  | raise c => exact h.raiseCause
  | raiseCatch =>
    show Within l p (if (q.eng l).cfg.catchNotify then _ else _)
    split
    · exact h.raiseCause
    · exact h
  | raiseRetimeRefused => exact h.raiseRetimeRefused
  | startValidate => exact h.startValidate
  | startLatch => exact h.startLatch
  | startResets => exact h.startResets
  | startNext => exact h.startNext
  | startAbort => exact h.enterOff
  | judge i => exact h.judgeEntry
  | retimeStep => exact h.retimeStep
  | cycleStep => exact h.cycleStep
  | reportStep => exact h.reportStep
  | beaconStep => exact h.beaconStep
  | takeCheck i => exact h.takeCheck
  | fitTest i => exact h.fitTest
  | followOn i => exact h.followOnPut
  | endTurn => exact h.endTurn
  | settleAll o => exact h.pushFront
  | settle i o => exact h.settleRecord
  | enterTarget => exact h.enterTarget
  | enterOff => exact h.enterOff
  | disown i =>
    unfold Part.act
    dsimp only
    exact h.modCtx id
  | rollEnd => exact h.rollEnd
  | testValidate => exact h.testValidate
  | testFirst => exact h.testFirst
  | testAbort => exact h.testAbort
  | _ => exact h

theorem runSched {n : Nat} (h : Within l p q) : Within l p (Part.runSched n l q) := by
  induction n generalizing q with
  | zero => exact h.cutActs
  | succ n ih =>
    rw [Part.runSched]
    split
    · exact h
    · split
      · exact h
      · exact ih (Within.act h.popSched)

theorem runUrgent {ops : List SchedOp} (h : Within l p q) : Within l p (Part.runUrgent l ops q) := by
  induction ops generalizing q with
  | nil => exact h.modEng id id
  | cons op rest ih =>
    rw [Part.runUrgent]
    split
    · exact h.modEng id id
    · exact ih h.act

theorem rollcallIfDue (h : Within l p q) : Within l p (q.rollcallIfDue l) := by
  unfold Part.rollcallIfDue
  split
  · exact h.enterRollcall
  · exact h

theorem proceed (h : Within l p q) : Within l p (q.proceed l) := h.runSched.rollcallIfDue

theorem schedDone {op : SchedOp} {bs : List Byte} (h : Within l p q) :
    Within l p (Part.schedDone l op bs q) := by
  cases op with
  | readGlobal =>
    unfold Part.schedDone
    dsimp only
    exact h.modEng id id
  | readLoopHost u =>
    cases u with
    | starting =>
      unfold Part.schedDone
      dsimp only
      exact h.modEng id id
    | testing =>
      unfold Part.schedDone
      dsimp only
      exact h.modEng id id
    | retiming =>
      unfold Part.schedDone
      dsimp only
      split
      · exact h.retimeJudge
      · exact h
  | readStationHost i =>
    unfold Part.schedDone
    dsimp only
    exact h.modEng id id
  | readLink i => exact h.followLink
  | readRecord i k => exact h.seeRecord
  | writeActive i k c => exact h.recordTaken
  | writeDone i k f a => exact h.modCtx fun _ => copyHeld_complete k f a _
  | _ => exact h

theorem schedTransferDone {u : Bool} {bs : List Byte} (h : Within l p q) :
    Within l p (q.schedTransferDone l u bs) := by
  unfold Part.schedTransferDone
  split
  · exact h.runUrgent
  · split
    · exact h
    · exact h.popSched.schedDone

/-- A DONE write that a soft reset found in progress stays within its loop. -/
theorem doneCut {t : Transfer} (h : Within l p q) (ht : t.requester.loop = l) :
    Within l p (Part.doneCut t q) := by
  unfold Part.doneCut
  split
  · rename_i m _ hm
    rw [hm] at ht
    cases ht
    split
    · exact h.popSched.modCtx fun _ => copyHeld_complete _ _ _ _
    · exact h
  · exact h

theorem transferDone {t : Transfer} {bs : List Byte} (h : Within l p q) (ht : t.requester.loop = l) :
    Within l p (Part.transferDone t bs q) := by
  unfold Part.transferDone
  split
  · exact h
  · split
    · rename_i m hm
      rw [hm] at ht
      cases ht
      exact h.schedTransferDone.proceed
    · rename_i m hm
      rw [hm] at ht
      cases ht
      exact h.catchDone.proceed

end Sys2Proof.Machine.Part.Within
end

