-- ==== Sys2Proof/Laws/Events.lean ====
section
/-! SUPPORT. Everything that a command or an event of one loop does stays within that loop. -/

namespace Sys2Proof.Machine.Part.Within

open Sys2Proof

variable {l : LoopId} {p q : Part}

/-! ### Commands of CONTROL -/

theorem setSlot {x : Option (BitVec 4)} (h : Within l p q) : Within l p (q.setSlot l x) :=
  h.modEng id id

theorem refuse (h : Within l p q) : Within l p (q.refuse l) := h.raiseCause

theorem doStart (h : Within l p q) : Within l p (q.doStart l) := by
  unfold Part.doStart
  split
  · exact h.enterStarting.proceed
  · exact h.refuse

theorem giveUp {x : SchedOp} (h : Within l p q) : Within l p (q.giveUp l x) := by
  unfold Part.giveUp
  split
  · exact h.modEng id id
  · exact Within.act (h.modEng id id)

theorem stopDown (h : Within l p q) : Within l p (q.stopDown l) := by
  unfold Part.stopDown
  exact h.modEng id id

theorem stopLoop (h : Within l p q) : Within l p (q.stopLoop l) := by
  unfold Part.stopLoop
  simp only
  split
  · exact h
  · split
    · exact h.enterDraining
    · exact h.giveUp
  · exact h.enterDraining
  · exact h.enterDraining
  · exact Within.pushUrgent (h.modEng id id)
  · exact h.enterOff
  · exact h.enterOff
  · exact h.stopDown
  · exact h.stopDown
  · split
    · exact h.giveUp
    · exact h.stopTest

theorem refuseStop (h : Within l p q) : Within l p (q.refuseStop l) := by
  unfold Part.refuseStop
  split
  · exact h.push
  · exact h.refuse

theorem doStop (h : Within l p q) : Within l p (q.doStop l) := by
  unfold Part.doStop
  split
  · exact h.refuseStop
  · exact h.stopLoop.proceed

theorem doQuiet (h : Within l p q) : Within l p (q.doQuiet l) := by
  unfold Part.doQuiet
  split
  · exact h.enterDraining.proceed
  · exact h.refuse

theorem doWake (h : Within l p q) : Within l p (q.doWake l) := by
  unfold Part.doWake
  split
  · exact h.wake.proceed
  · exact h.refuse

theorem doRollcall (h : Within l p q) : Within l p (q.doRollcall l) := by
  unfold Part.doRollcall
  split
  · exact Within.proceed (h.modEng id id)
  · exact h.refuse

theorem doRetime (h : Within l p q) : Within l p (q.doRetime l) := by
  unfold Part.doRetime
  split
  · exact h.modEng id id
  · exact h.refuse

theorem doTest (h : Within l p q) : Within l p (q.doTest l) := by
  unfold Part.doTest
  split
  · rename_i hc
    simp at hc
    exact (h.enterTest hc.2).proceed
  · exact h.refuse

/-! ### Events -/

theorem loopEvent {can : Part → Bool} {f : Part → Part} (h : Within l p q)
    (hf : can q = true → Within l p (f q)) : Within l p (q.loopEvent can f) := by
  unfold Part.loopEvent
  split
  · rename_i hc
    exact hf (by simp at hc; exact hc.2)
  · exact h

theorem loopStep {can : Part → Bool} {f : Part → Part} (h : Within l p q)
    (hf : can q = true → Within l p (f q)) : Within l p (q.loopStep l can f) :=
  h.loopEvent fun hc => (hf hc).proceed

theorem biasLoss (h : Within l p q) : Within l p (q.biasLoss l) := h.modEng id id

theorem biasRestore (h : Within l p q) : Within l p (q.biasRestore l) := h.modEng id id

theorem setReceiver {r : Receiver} (h : Within l p q) : Within l p (q.setReceiver l r) :=
  h.modEng id id

theorem frameError {b : Bool} (h : Within l p q) : Within l p (q.frameError l b) := by
  unfold Part.frameError
  have hm : Within l p (q.modEng l Engine.countFrameError) :=
    h.modEng Engine.sound_countFrameError (by simp)
  simp only
  split
  · split
    · exact hm.testLost
    · exact hm
  · exact hm.exchangeError

theorem disturbed (h : Within l p q) : Within l p (q.disturbed l) := h.setReceiver.frameError

theorem activityStarts {n : Nat} (h : Within l p q) : Within l p (q.activityStarts l n) := by
  unfold Part.activityStarts
  have hm : Within l p (q.modEng l fun e =>
      { e with framer := { e.framer with activity := some n, markSince := n + e.charTime } }) :=
    h.modEng id id
  simp only
  split
  · exact hm.setReceiver.wake
  · exact hm

theorem activityStart {n : Nat} (h : Within l p q) : Within l p (q.activityStart l n) := by
  unfold Part.activityStart
  split
  · exact h.activityStarts
  · exact h

theorem endActivity (h : Within l p q) : Within l p (q.endActivity l) := by
  unfold Part.endActivity
  have hm : Within l p (q.modEng l fun e => { e with framer := { e.framer with activity := none } }) :=
    h.modEng id id
  simp only
  split
  · exact hm.disturbed
  · exact hm

theorem idleLine (h : Within l p q) : Within l p (q.idleLine l) := by
  unfold Part.idleLine
  have hm : Within l p (q.modEng l fun e =>
      { e with framer := { e.framer with
          receiver := if e.rateLatched then e.framer.receiver.afterIdle else e.framer.receiver } }) :=
    h.modEng id id
  generalize (q.modEng l fun e =>
      { e with framer := { e.framer with
          receiver := if e.rateLatched then e.framer.receiver.afterIdle else e.framer.receiver } }) = r at hm
  have aux : ∀ r : Part, Within l p r →
      Within l p (if (r.eng l).lineIsIdle r.now then r.modEng l (Engine.beginSend r.now) else r) := by
    intro r hr
    split
    · exact hr.modEng Engine.sound_beginSend (by simp)
    · exact hr
  refine aux (if (r.eng l).skipWaits then r.overlongFinished l false else r) ?_
  split
  · exact hm.overlongFinished
  · exact hm

theorem lineIdle (h : Within l p q) : Within l p (q.lineIdle l) := h.endActivity.idleLine

theorem abandonedFrame {x : TxPurpose} (h : Within l p q) : Within l p (q.abandonedFrame l x) := by
  unfold Part.abandonedFrame
  split
  · exact h.beaconEnded
  · exact h
  · exact h.attemptFailed
  · exact h.attemptFailed

theorem collision (h : Within l p q) : Within l p (q.collision l) := by
  unfold Part.collision
  split
  · exact Within.abandonedFrame (h.modEng Engine.sound_collide (by simp))
  · exact h

theorem readBack {x : Sending} (h : Within l p q) (hx : (q.eng l).framer.sending = some x) :
    Within l p (q.readBack l x) := by
  refine h.modEng (fun hs => ⟨hs.1, hs.2.1, hs.2.2.1, fun hn => ?_⟩) id
  have := (hs.2.2.2 hn).1
  rw [hx] at this
  exact absurd this (by simp)

theorem character_idle_xu {cs : List Byte} {r : Receiver} (h : Within l p q) :
    Within l p (q.modEng l fun e =>
      { e with framer := { e.framer with receiver := r }, xu := e.xu.character cs }) :=
  h.modEng (fun hs => ⟨hs.1, hs.2.1, hs.2.2.1, fun hn =>
    ⟨(hs.2.2.2 hn).1, (hs.2.2.2 hn).2.1, by
      show (q.eng l).xu.character cs = _
      rw [(hs.2.2.2 hn).2.2, Engine.character_idle]⟩⟩) id

theorem firstCharacter {n : Nat} {v : Byte} {b : Bool} (h : Within l p q) :
    Within l p (q.firstCharacter l n v b) := by
  unfold Part.firstCharacter
  split
  · have hm : Within l p (q.modEng l fun e =>
        { e with framer := { e.framer with receiver := .frame [v] }, xu := e.xu.lead n }) :=
      h.modEng (fun hs => ⟨hs.1, hs.2.1, hs.2.2.1, fun hn =>
        ⟨(hs.2.2.2 hn).1, (hs.2.2.2 hn).2.1, by
          show (q.eng l).xu.lead n = _
          rw [(hs.2.2.2 hn).2.2, Engine.lead_idle]⟩⟩) id
    simp only
    split
    · exact hm.attemptFailed
    · exact hm
  · exact h.disturbed

theorem nextCharacter {cs : List Byte} {v : Byte} {b : Bool} (h : Within l p q) :
    Within l p (q.nextCharacter l cs v b) := by
  unfold Part.nextCharacter
  simp only
  split
  · exact h
  · split
    · exact h.disturbed
    · split
      · exact h.disturbed
      · exact h.character_idle_xu

theorem takeCharacter {n : Nat} {v : Byte} {b : Bool} (h : Within l p q) :
    Within l p (q.takeCharacter l n v b) := by
  unfold Part.takeCharacter
  split
  · exact h.firstCharacter
  · exact h.nextCharacter
  · exact h
  · exact h

theorem character {v : Byte} {b : Bool} (h : Within l p q) : Within l p (q.character l v b) := by
  unfold Part.character
  simp only
  split
  · rename_i x hx
    split
    · exact Within.takeCharacter ((h.readBack hx).modEng id id)
    · split
      · exact h.readBack hx
      · exact h.collision
  · exact Within.takeCharacter (h.activityStart.modEng id id)

theorem validFrame {f : RxFrame} (h : Within l p q) : Within l p (q.validFrame l f) := by
  unfold Part.validFrame
  split
  · split
    · split
      · exact h.testReturned
      · exact h.testLost
    · exact h
  · split
    · exact h.judgeReply
    · exact h.overlongFinished
    all_goals exact h.unsolicited

theorem frameEnd (h : Within l p q) : Within l p (q.frameEnd l) := by
  unfold Part.frameEnd
  split
  · simp only
    split
    · exact h.setReceiver.validFrame
    · exact h.setReceiver.frameError
  · exact h

theorem sentFrame {x : TxPurpose} (h : Within l p q) : Within l p (q.sentFrame l x) := by
  unfold Part.sentFrame
  have hm : Within l p (q.modEng l fun e => { e with xu := e.xu.await q.now }) :=
    h.modEng (fun hs => ⟨hs.1, hs.2.1, hs.2.2.1, fun hn =>
      ⟨(hs.2.2.2 hn).1, (hs.2.2.2 hn).2.1, by
        show (q.eng l).xu.await q.now = _
        rw [(hs.2.2.2 hn).2.2, Engine.await_idle]⟩⟩) id
  split
  · exact h.beaconEnded
  · exact h
  · exact hm
  · exact hm

theorem endOfFrame (h : Within l p q) : Within l p (q.endOfFrame l) := by
  unfold Part.endOfFrame
  split
  · exact Within.sentFrame (h.modEng Engine.sound_endSend id)
  · exact h

theorem replyTimeout {b : Bool} (h : Within l p q) : Within l p (q.replyTimeout l b) := by
  unfold Part.replyTimeout
  split
  · exact h.modEng (fun hs => ⟨hs.1, hs.2.1, hs.2.2.1, fun hn =>
      ⟨(hs.2.2.2 hn).1, (hs.2.2.2 hn).2.1, by
        show (q.eng l).xu.waitCharacter = _
        rw [(hs.2.2.2 hn).2.2]; rfl⟩⟩) id
  · exact h.attemptFailed

theorem gridPoint (h : Within l p q) : Within l p (q.gridPoint l) := by
  unfold Part.gridPoint
  split
  · refine h.modEng (fun hs => ?_) ?_
    · unfold Engine.markBoundary
      simp only
      split
      · exact Engine.sound_congr rfl rfl rfl rfl rfl rfl (Engine.sound_dropHeld hs)
      · exact hs
    · unfold Engine.markBoundary
      simp only
      split <;> simp
  · exact h

theorem boundaryTaken (h : Within l p q) : Within l p (q.boundaryTaken l) := by
  unfold Part.boundaryTaken
  split
  · exact h.takeBoundary
  · exact h

theorem announceWindow (h : Within l p q) : Within l p (q.announceWindow l) :=
  Within.followWindows (h.modEng id id)

theorem drainSettlement (h : Within l p q) : Within l p (q.drainSettlement l) := h.push

theorem rollAttempt (h : Within l p q) (hs : (q.eng l).canRoll = true) :
    Within l p (q.rollAttempt l) := by
  unfold Part.rollAttempt
  split
  · refine h.sendRequest ?_
    unfold Engine.canRoll at hs
    simp at hs
    rw [hs.1.1]
    rfl
  · exact h

theorem keepalive (h : Within l p q) : Within l p (q.keepalive l) :=
  h.modEng (fun hs => Engine.sound_congr rfl rfl rfl rfl rfl rfl (Engine.sound_handFrame hs)) (by simp)

theorem holdExpiry (h : Within l p q) : Within l p (q.holdExpiry l) := h.modEng id id

/-! ### Transfers -/

theorem withdraw {w : Requester} (h : Within l p q) (hw : w.loop = l) : Within l p (q.withdraw w) := by
  subst hw
  cases w <;> unfold Part.withdraw <;> simp only [Requester.loop] at *
  · exact h.modEng id id
  · exact h.modEng (fun hs => Engine.sound_catcher hs hs.1 (Engine.walks_none rfl)) id

theorem freePort_port (h : Within l p q) : (q.freePort).port.pointer = p.port.pointer := h.port.1

end Sys2Proof.Machine.Part.Within
end

