-- ==== Sys2Proof/Laws/Memory.lean ====
section
/-! SUPPORT. System memory: every operation keeps the canonical form, and what a read returns after a
write. -/

namespace Sys2Proof.Machine

open Sys2Proof

/-- The addresses of a memory rise. -/
abbrev Memory.rising (m : Memory) : Prop := m.Pairwise fun x y => x.1 < y.1

/-- An address below every entry is not listed. -/
theorem Memory.read_of_lt (m : Memory) (a : Nat) (h : ∀ c ∈ m, a < c.1) :
    Memory.read m a = Memory.unlisted := by
  induction m with
  | nil => rfl
  | cons c rest ih =>
    have hc := h c (by simp)
    simp only [Memory.read]
    rw [if_neg (by omega)]
    exact ih fun d hd => h d (by simp [hd])

/-- The entries of a write are the one written and those there before. -/
theorem Memory.mem_write (m : Memory) (a : Nat) (b : Byte) (c : Host.Cell)
    (h : c ∈ Memory.write m a b) : (c = (a, b) ∧ b ≠ Memory.unlisted) ∨ c ∈ m := by
  induction m with
  | nil =>
    simp only [Memory.write] at h
    split at h
    · simp at h
    · rename_i hb
      simp at h
      exact .inl ⟨h, hb⟩
  | cons d rest ih =>
    simp only [Memory.write] at h
    split at h
    · split at h
      · exact .inr h
      · rename_i hb
        rcases List.mem_cons.1 h with h | h
        · exact .inl ⟨h, hb⟩
        · exact .inr h
    · split at h
      · split at h
        · exact .inr (by simp [h])
        · rename_i hb
          rcases List.mem_cons.1 h with h | h
          · exact .inl ⟨h, hb⟩
          · exact .inr (by simp [h])
      · rcases List.mem_cons.1 h with h | h
        · exact .inr (by simp [h])
        · rcases ih h with h | h
          · exact .inl h
          · exact .inr (by simp [h])

/-- A write keeps the addresses rising. -/
theorem Memory.rising_write (m : Memory) (a : Nat) (b : Byte) (h : Memory.rising m) :
    Memory.rising (Memory.write m a b) := by
  induction m with
  | nil =>
    simp only [Memory.write]
    split <;> simp
  | cons d rest ih =>
    have hd := List.pairwise_cons.1 h
    simp only [Memory.write]
    split
    · rename_i hlt
      split
      · exact h
      · refine List.pairwise_cons.2 ⟨fun c hc => ?_, h⟩
        rcases List.mem_cons.1 hc with hc | hc
        · rw [hc]; exact hlt
        · exact Nat.lt_trans hlt (hd.1 c hc)
    · split
      · rename_i heq
        split
        · exact hd.2
        · exact List.pairwise_cons.2 ⟨fun c hc => heq ▸ hd.1 c hc, hd.2⟩
      · rename_i hge hne
        refine List.pairwise_cons.2 ⟨fun c hc => ?_, ih hd.2⟩
        rcases Memory.mem_write rest a b c hc with hc | hc
        · rw [hc.1]; omega
        · exact hd.1 c hc

/-- A read after a write of one byte: the byte written there, and every other byte as before. -/
theorem Memory.read_write (m : Memory) (a : Nat) (b : Byte) (c : Nat) (h : Memory.rising m) :
    Memory.read (Memory.write m a b) c = if c = a then b else Memory.read m c := by
  induction m with
  | nil =>
    simp only [Memory.write]
    split
    · rename_i hb
      simp [Memory.read, hb]
    · simp only [Memory.read]
      by_cases hc : a = c
      · simp [hc]
      · simp [hc, Ne.symm hc]
  | cons d rest ih =>
    obtain ⟨x, v⟩ := d
    have hd := List.pairwise_cons.1 h
    have below : a < x → Memory.read ((x, v) :: rest) a = Memory.unlisted := by
      intro hlt
      refine Memory.read_of_lt _ a fun e he => ?_
      rcases List.mem_cons.1 he with he | he
      · rw [he]; exact hlt
      · exact Nat.lt_trans hlt (hd.1 e he)
    simp only [Memory.write]
    split
    · rename_i hlt
      split
      · rename_i hb
        by_cases hc : c = a
        · rw [if_pos hc, hc, below hlt, hb]
        · rw [if_neg hc]
      · by_cases hc : c = a
        · simp [Memory.read, hc]
        · rw [if_neg hc]
          show (if a = c then b else Memory.read ((x, v) :: rest) c) = _
          rw [if_neg (Ne.symm hc)]
    · split
      · rename_i heq
        have hrest : Memory.read rest a = Memory.unlisted :=
          Memory.read_of_lt _ a fun e he => heq ▸ hd.1 e he
        split
        · rename_i hb
          by_cases hc : c = a
          · rw [if_pos hc, hc, hrest, hb]
          · rw [if_neg hc]
            show _ = (if x = c then v else Memory.read rest c)
            rw [if_neg (by omega)]
        · by_cases hc : c = a
          · simp [Memory.read, hc]
          · rw [if_neg hc]
            show (if a = c then b else Memory.read rest c) = (if x = c then v else Memory.read rest c)
            rw [if_neg (Ne.symm hc), if_neg (by omega)]
      · rename_i hge hne
        show (if x = c then v else Memory.read (Memory.write rest a b) c) =
          if c = a then b else (if x = c then v else Memory.read rest c)
        rw [ih hd.2]
        by_cases hx : x = c
        · rw [if_pos hx, if_pos hx, if_neg (by omega)]
        · rw [if_neg hx, if_neg hx]

/-- A write of one byte within the address space keeps the canonical form. -/
theorem Memory.wf_write (m : Memory) (a : Nat) (b : Byte) (h : Memory.wf m) (ha : a < 2 ^ 32) :
    Memory.wf (Memory.write m a b) := by
  refine ⟨Memory.rising_write m a b h.1, fun c hc => ?_⟩
  rcases Memory.mem_write m a b c hc with hc | hc
  · rw [hc.1]; exact ⟨hc.2, ha⟩
  · exact h.2 c hc

/-- A write transfer keeps the canonical form. -/
theorem Memory.wf_writeBytes (bs : List Byte) (m : Memory) (a : Word) (h : Memory.wf m) :
    Memory.wf (Memory.writeBytes m a bs) := by
  induction bs generalizing m a with
  | nil => exact h
  | cons b bs ih => exact ih _ _ (Memory.wf_write m _ b h a.isLt)

/-- A write transfer that fails or is cut keeps the canonical form. -/
theorem Memory.wf_writeLanded (bs : List Byte) (m : Memory) (a : Word) (landed : BitVec 128)
    (h : Memory.wf m) : Memory.wf (Memory.writeLanded m a landed bs) := by
  induction bs generalizing m a landed with
  | nil => exact h
  | cons b bs ih =>
    refine ih _ _ _ ?_
    split
    · exact Memory.wf_write m _ b h a.isLt
    · exact h

/-- The host's own writes keep the canonical form. -/
theorem Memory.wf_hostWrites (ws : List (Word × Byte)) (m : Memory) (h : Memory.wf m) :
    Memory.wf (Memory.hostWrites m ws) := by
  induction ws generalizing m with
  | nil => exact h
  | cons w ws ih => exact ih _ (Memory.wf_write m _ w.2 h w.1.isLt)

/-- A completed transfer keeps the canonical form. -/
theorem BusAction.wf_apply (a : BusAction) (m : Memory) (h : Memory.wf m) : Memory.wf (a.apply m) := by
  cases a with
  | read a n => exact h
  | write a bs => exact Memory.wf_writeBytes bs m a h

/-- A failed transfer keeps the canonical form. -/
theorem BusAction.wf_applyFailed (a : BusAction) (m : Memory) (landed : BitVec 128) (h : Memory.wf m) :
    Memory.wf (a.applyFailed m landed) := by
  cases a with
  | read a n => exact h
  | write a bs => exact Memory.wf_writeLanded bs m a landed h

/-- What RESET_N leaves of a write in progress keeps the canonical form. -/
theorem State.wf_memAtReset (s : State) (landed : BitVec 128) (h : Memory.wf s.mem) :
    Memory.wf (s.memAtReset landed) := by
  unfold State.memAtReset
  split
  · split
    · exact Memory.wf_writeLanded _ _ _ _ h
    · exact h
  · exact h

/-- A write transfer leaves every byte outside the written ones as it was, and puts byte `j` at the
`j`-th address, for a transfer no longer than the address space. -/
theorem Memory.read_writeBytes (bs : List Byte) (m : Memory) (a c : Word) (h : Memory.rising m)
    (hl : bs.length ≤ 2 ^ 32) :
    Memory.read (Memory.writeBytes m a bs) c.toNat =
      if (c - a).toNat < bs.length then bs.getD (c - a).toNat 0 else Memory.read m c.toNat := by
  induction bs generalizing m a with
  | nil => simp [Memory.writeBytes]
  | cons b bs ih =>
    have hr := Memory.rising_write m a.toNat b h
    rw [Memory.writeBytes, ih _ _ hr (by simp at hl; omega), Memory.read_write _ _ _ _ h]
    simp only [List.length_cons] at hl ⊢
    by_cases hca : c = a
    · subst hca
      have e1 : (c - (c + 1)).toNat = 2 ^ 32 - 1 := by
        rw [show c - (c + 1) = -1#32 by bv_omega]; rfl
      have e2 : (c - c).toNat = 0 := by simp
      rw [e1, e2, if_neg (by omega), if_pos rfl, if_pos (by omega)]
      rfl
    · have hne : c.toNat ≠ a.toNat := fun e => hca (BitVec.eq_of_toNat_eq e)
      have e3 : (c - a).toNat = (c - (a + 1)).toNat + 1 := by bv_omega
      rw [e3, if_neg hne]
      by_cases hlt : (c - (a + 1)).toNat < bs.length
      · rw [if_pos hlt, if_pos (by omega)]
        simp
      · rw [if_neg hlt, if_neg (by omega)]

end Sys2Proof.Machine
end

