-- ==== Sys2Proof/Laws/Steps.lean ====
section
/-! SUPPORT. What one command does, said once for all of them: the time that passes, its work on the part,
its work on memory, and the grant. -/

namespace Sys2Proof.Machine

open Sys2Proof

/-- The work of a command on the part, after the time that has passed and before the grant. -/
def commandWork (c : Instr) (s : State) (p : Part) : Part :=
  match c with
  | .start _ l via => p.takeCommand l via 1 (Part.doStart l)
  | .stop _ l via => p.takeCommand l via 2 (Part.doStop l)
  | .quiet _ l via => p.takeCommand l via 3 (Part.doQuiet l)
  | .wake _ l via => p.takeCommand l via 4 (Part.doWake l)
  | .rollcall _ l via => p.takeCommand l via 5 (Part.doRollcall l)
  | .retime _ l via => p.takeCommand l via 6 (Part.doRetime l)
  | .lineTest _ l via => p.takeCommand l via 7 (Part.doTest l)
  | .undefinedCommand _ l code via =>
    if undefinedCode code then p.takeCommand l via code (Part.refuse l) else p
  | .softReset _ _ => p.beginSoftReset
  | .softResetComplete _ => p.endSoftReset
  | .areaWrite _ value => p.writeArea value
  | .causeWrite _ value => p.writeCause value
  | .maskWrite _ value => p.writeMask value
  | .windowPointerWrite _ value => p.writePointer value
  | .windowDataRead _ => p.readData
  | .windowDataWrite _ value => p.writeData value
  | .registerWriteOther _ _ _ => p
  | .resetNAssert _ _ => p.assertReset
  | .resetNRelease _ => p.releaseReset
  | .biasOkLoss _ l => p.biasLoss l
  | .biasOkRestore _ l => p.biasRestore l
  | .activityStart _ l =>
    p.loopStep l (fun p => (p.eng l).activityCanStart p.now) fun p => p.activityStarts l p.now
  | .characterReceived _ l value stopOk =>
    p.loopStep l (fun p => (p.eng l).hearsCharacter) (Part.character l value stopOk)
  | .activityEnd _ l => p.loopStep l (fun p => (p.eng l).activityCanEnd p.now) (Part.endActivity l)
  | .lineIdle _ l => p.loopStep l (fun p => (p.eng l).atMark 4 p.now) (Part.lineIdle l)
  | .frameEnd _ l => p.loopStep l (fun p => (p.eng l).framer.receiver.whole.isSome) (Part.frameEnd l)
  | .collision _ l => p.loopStep l (fun p => (p.eng l).drivesLine) (Part.collision l)
  | .endOfFrame _ l => p.loopStep l (fun p => (p.eng l).sendingDone p.now) (Part.endOfFrame l)
  | .replyTimeout _ l underWay =>
    p.loopStep l (fun p => (p.eng l).xu.timedOut p.now) (Part.replyTimeout l underWay)
  | .gridPoint _ l => p.loopEvent (fun p => (p.eng l).gridDue p.now) (Part.gridPoint l)
  | .boundaryTaken _ l => p.loopStep l (fun p => (p.eng l).takesBoundary) (Part.boundaryTaken l)
  | .announceWindowStart _ l => p.loopEvent (fun p => (p.eng l).announceDue p.now) (Part.announceWindow l)
  | .turn _ l => p.loopStep l (fun p => (p.eng l).turnFree) (Part.nextTurn l)
  | .drainSettlement _ l => p.loopStep l (fun p => (p.eng l).drained) (Part.drainSettlement l)
  | .rollAttempt _ l => p.loopEvent (fun p => (p.eng l).canRoll) (Part.rollAttempt l)
  | .keepaliveTimer _ l => p.loopEvent (fun p => (p.eng l).keepaliveDue p.now) (Part.keepalive l)
  | .carrierCriterion _ l =>
    p.loopStep l (fun p => (p.eng l).carrierMet p.now) (Part.enterDown l .carrier)
  | .jamCriterion _ l =>
    p.loopStep l (fun p => (p.eng l).jamMet p.screening.wakeConfig.wakeOnEnergy p.now) (Part.enterDown l .jam)
  | .errorsCriterion _ l => p.loopStep l (fun p => (p.eng l).errorsDue) (Part.enterDown l .errors)
  | .silenceCriterion _ l => p.loopStep l (fun p => (p.eng l).silenceDue) (Part.enterDown l .silence)
  | .downHoldExpiry _ l => p.loopEvent (fun p => (p.eng l).holdOver p.now) (Part.holdExpiry l)
  | .downRecovery _ l => p.loopStep l (fun p => (p.eng l).recovers p.now) (Part.recover l)
  | .jamRelease _ l => p.loopStep l (fun p => (p.eng l).released p.now) (Part.recover l)
  | .transferComplete _ hostWrites =>
    match s.part.port.inFlight with
    | some t => p.completeTransfer t (t.action.data (Memory.hostWrites s.mem hostWrites))
    | none => p
  | .busError _ _ _ grantFirst =>
    match s.part.port.inFlight with
    | some t => p.failTransfer t grantFirst
    | none => p

/-- The work of a command on system memory. -/
def commandMemory (c : Instr) (s : State) : Memory :=
  match c with
  | .resetNAssert _ landed => s.memAtReset landed
  | .transferComplete _ hostWrites =>
    match s.part.port.inFlight with
    | some t => t.action.apply (Memory.hostWrites s.mem hostWrites)
    | none => Memory.hostWrites s.mem hostWrites
  | .busError _ hostWrites landed _ =>
    match s.part.port.inFlight with
    | some t => t.action.applyFailed (Memory.hostWrites s.mem hostWrites) landed
    | none => Memory.hostWrites s.mem hostWrites
  | _ => s.mem

/-- Every command answers the next state that its work gives. -/
theorem exec_eq (c : Instr) (s : State) :
    exec c s = .next { s with
      part := (commandWork c s (s.part.tick (commandTime c))).arbitrate, mem := commandMemory c s } := by
  cases c with
  | transferComplete dt ws =>
    simp only [exec, execTransferComplete, commandWork, commandMemory, commandTime]
    cases s.part.port.inFlight <;> rfl
  | busError dt ws landed g =>
    simp only [exec, execBusError, commandWork, commandMemory, commandTime]
    cases s.part.port.inFlight <;> rfl
  | _ => rfl

/-- A CONTROL write that is taken: the engine runs its command with the field for the other loop in that
loop's slot. -/
theorem Part.takeCommand_written {l : LoopId} {other code : BitVec 4} {run : Part → Part} {p : Part}
    (h : p.takesWrite = true) :
    p.takeCommand l (.written other) code run = run (p.setSlot (otherLoop l) (slotOf other)) := by
  unfold Part.takesWrite at h
  simp at h
  simp [Part.takeCommand, h]

/-- An event whose condition holds in a running part has its effect. -/
theorem Part.loopEvent_of {can : Part → Bool} {f : Part → Part} {p : Part} (hl : p.live = true)
    (hc : can p = true) : p.loopEvent can f = f p := by
  simp [Part.loopEvent, hl, hc]

/-- An event whose condition holds has its effect, and the procedure goes on from it. -/
theorem Part.loopStep_of {l : LoopId} {can : Part → Bool} {f : Part → Part} {p : Part} (hl : p.live = true)
    (hc : can p = true) : p.loopStep l can f = (f p).proceed l := by
  simp [Part.loopStep, Part.loopEvent, hl, hc]

/-- An event after which the procedure stands. -/
theorem Part.loopStep_settled {l : LoopId} {can : Part → Bool} {f : Part → Part} {p : Part}
    (hl : p.live = true) (hc : can p = true) (hs : (f p).settled l = true) : p.loopStep l can f = f p := by
  rw [Part.loopStep_of hl hc, Part.proceed_of_settled l _ hs]

/-- A command for an engine leaves the engine of the loop as it was, but for the other loop's slot. -/
@[simp] theorem Part.eng_setSlot_other (l : LoopId) (x : Option (BitVec 4)) (p : Part) :
    (p.setSlot (otherLoop l) x).eng l = p.eng l := by
  unfold Part.setSlot; cases l <;> rfl

@[simp] theorem Part.live_setSlot (l : LoopId) (x : Option (BitVec 4)) (p : Part) :
    (p.setSlot l x).live = p.live := by
  unfold Part.setSlot; simp

/-- A command keeps the canonical form of memory. -/
theorem wf_commandMemory (c : Instr) (s : State) (h : Memory.wf s.mem) : Memory.wf (commandMemory c s) := by
  unfold commandMemory
  split
  · exact State.wf_memAtReset s _ h
  · split
    · exact BusAction.wf_apply _ _ (Memory.wf_hostWrites _ _ h)
    · exact Memory.wf_hostWrites _ _ h
  · split
    · exact BusAction.wf_applyFailed _ _ _ (Memory.wf_hostWrites _ _ h)
    · exact Memory.wf_hostWrites _ _ h
  · exact h

/-- What the work of a command for loop `l` starts from: the part as it stands, or with a command put
into the slot of the other loop, or with the port free, or free and granted again. -/
inductive CommandBase (l : LoopId) (p : Part) : Part → Prop
  | same : CommandBase l p p
  | slot (x : Option (BitVec 4)) : CommandBase l p (p.setSlot (otherLoop l) x)
  | freed : CommandBase l p p.freePort
  | granted (r : Requester) (h : r.loop = l) : CommandBase l p (p.freePort.withdraw r).arbitrate

/-- A command taken from CONTROL stays within its loop, but for the slot of the other loop that its write
fills. -/
theorem takeCommand_within {l : LoopId} {p : Part} {via : CommandPath} {code : BitVec 4}
    {run : Part → Part} (h : ∀ q, Part.Within l q (run q)) :
    ∃ b, CommandBase l p b ∧ Part.Within l b (p.takeCommand l via code run) := by
  unfold Part.takeCommand
  split
  · split
    · rename_i other
      split
      · exact ⟨_, .slot (slotOf other), h _⟩
      · exact ⟨p, .same, .refl l p⟩
    · split
      · exact ⟨p, .same, (Part.Within.setSlot (.refl l p)).trans (h _)⟩
      · exact ⟨p, .same, .refl l p⟩
  · exact ⟨p, .same, .refl l p⟩

/-- The work of a command for loop `l` stays within that loop. -/
theorem commandWork_within (c : Instr) (s : State) (p : Part) (l : LoopId) (h : s.commandLoop c = some l) :
    ∃ b, CommandBase l p b ∧ Part.Within l b (commandWork c s p) := by
  have same : ∀ q, Part.Within l p q → ∃ b, CommandBase l p b ∧ Part.Within l b q :=
    fun q hq => ⟨p, .same, hq⟩
  have r := Part.Within.refl l p
  cases c <;> simp only [State.commandLoop, Option.some.injEq, reduceCtorEq] at h <;>
    simp only [commandWork]
  case start => subst h; exact takeCommand_within fun q => (Part.Within.refl _ q).doStart
  case stop => subst h; exact takeCommand_within fun q => (Part.Within.refl _ q).doStop
  case quiet => subst h; exact takeCommand_within fun q => (Part.Within.refl _ q).doQuiet
  case wake => subst h; exact takeCommand_within fun q => (Part.Within.refl _ q).doWake
  case rollcall => subst h; exact takeCommand_within fun q => (Part.Within.refl _ q).doRollcall
  case retime => subst h; exact takeCommand_within fun q => (Part.Within.refl _ q).doRetime
  case lineTest => subst h; exact takeCommand_within fun q => (Part.Within.refl _ q).doTest
  case undefinedCommand =>
    subst h
    split
    · exact takeCommand_within fun q => (Part.Within.refl _ q).refuse
    · exact same _ r
  case biasOkLoss => subst h; exact same _ r.biasLoss
  case biasOkRestore => subst h; exact same _ r.biasRestore
  case activityStart => subst h; exact same _ (r.loopStep fun _ => r.activityStarts)
  case characterReceived => subst h; exact same _ (r.loopStep fun _ => r.character)
  case activityEnd => subst h; exact same _ (r.loopStep fun _ => r.endActivity)
  case lineIdle => subst h; exact same _ (r.loopStep fun _ => r.lineIdle)
  case frameEnd => subst h; exact same _ (r.loopStep fun _ => r.frameEnd)
  case collision => subst h; exact same _ (r.loopStep fun _ => r.collision)
  case endOfFrame => subst h; exact same _ (r.loopStep fun _ => r.endOfFrame)
  case replyTimeout => subst h; exact same _ (r.loopStep fun _ => r.replyTimeout)
  case gridPoint => subst h; exact same _ (r.loopEvent fun _ => r.gridPoint)
  case boundaryTaken => subst h; exact same _ (r.loopStep fun _ => r.boundaryTaken)
  case announceWindowStart => subst h; exact same _ (r.loopEvent fun _ => r.announceWindow)
  case turn => subst h; exact same _ (r.loopStep fun _ => r.nextTurn)
  case drainSettlement => subst h; exact same _ (r.loopStep fun _ => r.drainSettlement)
  case rollAttempt => subst h; exact same _ (r.loopEvent fun hc => r.rollAttempt hc)
  case keepaliveTimer => subst h; exact same _ (r.loopEvent fun _ => r.keepalive)
  case carrierCriterion => subst h; exact same _ (r.loopStep fun _ => r.enterDown)
  case jamCriterion => subst h; exact same _ (r.loopStep fun _ => r.enterDown)
  case errorsCriterion => subst h; exact same _ (r.loopStep fun _ => r.enterDown)
  case silenceCriterion => subst h; exact same _ (r.loopStep fun _ => r.enterDown)
  case downHoldExpiry => subst h; exact same _ (r.loopEvent fun _ => r.holdExpiry)
  case downRecovery => subst h; exact same _ (r.loopStep fun _ => r.recover)
  case jamRelease => subst h; exact same _ (r.loopStep fun _ => r.recover)
  case transferComplete =>
    cases ht : s.part.port.inFlight with
    | none => rw [ht] at h; exact absurd h (by simp)
    | some t =>
      rw [ht] at h
      simp only [Option.map_some, Option.some.injEq] at h
      refine ⟨p.freePort, .freed, ?_⟩
      simp only
      unfold Part.completeTransfer
      split
      · exact (Part.Within.refl l _).transferDone h
      · split
        · exact .refl l _
        · exact (Part.Within.refl l _).doneCut h
  case busError =>
    cases ht : s.part.port.inFlight with
    | none => rw [ht] at h; exact absurd h (by simp)
    | some t =>
      rw [ht] at h
      simp only [Option.map_some, Option.some.injEq] at h
      unfold Part.failTransfer
      simp only
      split
      · rw [h]
        split
        · exact ⟨_, .granted t.requester h, (Part.Within.refl l _).enterFault⟩
        · exact ⟨p.freePort, .freed, (Part.Within.refl l _).enterFault⟩
      · exact ⟨p.freePort, .freed, .refl l _⟩

end Sys2Proof.Machine
end

