-- ==== Sys2Proof/Laws/Turns.lean ====
section
/-! SUPPORT. The end of a turn: `Part.endTurn` is `Part.turnOver` of the turn under way. -/

namespace Sys2Proof.Machine

/-- Membership in the candidates of the aperiodic window, spelt out. -/
theorem Part.mem_candidates (p : Part) (l : LoopId) (j : StationIx) :
    j ∈ p.candidates l ↔
      (p.ctx j).owner = some l ∧ ((p.ctx j).state = .ready ∨ (p.ctx j).state = .active) ∧
        (p.ctx j).binding.cls = .aperiodic := by
  have hj : j ∈ allStations := List.mem_finRange j
  unfold Part.candidates Context.candidate Context.admittedTo Context.servable
  rw [List.mem_filter]
  cases (p.ctx j).state <;> by_cases ho : (p.ctx j).owner = some l <;> cases (p.ctx j).binding.cls <;>
    simp [ho, hj]

/-- A station that a turn may serve, spelt out. -/
theorem Part.mayServe_iff (p : Part) (l : LoopId) (j : StationIx) :
    p.mayServe l j = true ↔
      (p.ctx j).owner = some l ∧ ((p.ctx j).state = .ready ∨ (p.ctx j).state = .active) := by
  unfold Part.mayServe Context.admittedTo Context.servable
  cases (p.ctx j).state <;> by_cases ho : (p.ctx j).owner = some l <;> simp [ho]

/-- The windows of the cycle `c` after a turn: a periodic window that is over gives way to the aperiodic one,
and that one closes at its end. -/
def Part.windowsAfter (p : Part) (l : LoopId) (announceStart : Nat) (c : CycleScheduler) : CycleScheduler :=
  let passed := c.phase = .periodic ∧
    ((c.announceStarted = true ∧ c.beaconEnd < announceStart) ∨
      ∀ i ∈ c.dueSet, ¬ ((p.ctx i).owner = some l ∧
        ((p.ctx i).state = .ready ∨ (p.ctx i).state = .active)))
  let visited := if passed then [] else c.visited
  let over_ := c.announceStarted = true ∨
    ∀ i : StationIx, (p.ctx i).owner = some l ∧ ((p.ctx i).state = .ready ∨ (p.ctx i).state = .active) ∧
      (p.ctx i).binding.cls = .aperiodic → i ∈ visited
  { c with visited := visited
           phase := if passed ∨ c.phase = .aperiodic then (if over_ then .closed else .aperiodic) else c.phase }

/-- In RUNNING, with no turn under way, the windows follow one another. -/
theorem Part.followWindows_of_running (p : Part) (l : LoopId) (hr : (p.eng l).ctl.state = .running)
    (ht : (p.eng l).cyc.turn = none) :
    p.followWindows l = p.modEng l fun e =>
      let announceStart :=
        e.cyc.boundaryAt + e.cfg.cycleLength.toNat * 2500 - e.cfg.announceWindow.toNat * 2500
      { e with cyc := p.windowsAfter l announceStart e.cyc } := by
  unfold Part.followWindows
  simp only [hr, ht, Option.isNone_none, decide_true, Bool.and_true, if_true]
  apply Part.modEng_congr
  unfold Part.windowsAfter
  have start : (p.eng l).cyc.boundaryAt + (p.eng l).cfg.cycleLength.toNat * 2500
      - (p.eng l).cfg.announceWindow.toNat * 2500 = (p.eng l).announceStart := rfl
  dsimp only
  rw [start]
  have passed : (decide ((p.eng l).cyc.phase = .periodic) &&
        ((p.eng l).announceBars || !((p.eng l).cyc.dueSet.any (p.mayServe l)))) = true ↔
      ((p.eng l).cyc.phase = .periodic ∧
        (((p.eng l).cyc.announceStarted = true ∧ (p.eng l).cyc.beaconEnd < (p.eng l).announceStart) ∨
          ∀ i ∈ (p.eng l).cyc.dueSet, ¬ ((p.ctx i).owner = some l ∧
            ((p.ctx i).state = .ready ∨ (p.ctx i).state = .active)))) := by
    simp only [Bool.and_eq_true, decide_eq_true_eq, Bool.or_eq_true, Bool.not_eq_true', Engine.announceBars]
    refine and_congr_right fun _ =>
      or_congr Iff.rfl ?_
    rw [← Bool.not_eq_true, List.any_eq_true]
    simp only [Part.mayServe_iff, not_exists, not_and]
  have all_visited : ∀ v : List StationIx, ((p.candidates l).all fun i => v.contains i) = true ↔
      ∀ i : StationIx, (p.ctx i).owner = some l ∧ ((p.ctx i).state = .ready ∨ (p.ctx i).state = .active) ∧
        (p.ctx i).binding.cls = .aperiodic → i ∈ v := by
    intro v
    rw [List.all_eq_true]
    simp only [Part.mem_candidates]
    simp
  generalize (decide ((p.eng l).cyc.phase = .periodic) &&
    ((p.eng l).announceBars || !((p.eng l).cyc.dueSet.any (p.mayServe l)))) = b at passed
  cases b with
  | true =>
    have h := passed.1 rfl
    rw [if_pos h, if_pos (Or.inl h)]
    simp only [if_true, decide_true, Bool.true_and, Bool.or_eq_true, all_visited]
  | false =>
    have h := fun h => Bool.false_ne_true (passed.2 h)
    rw [if_neg h]
    simp only [if_false, Bool.false_eq_true]
    by_cases ha : (p.eng l).cyc.phase = .aperiodic
    · rw [if_pos (Or.inr ha)]
      simp only [ha, decide_true, Bool.true_and, Bool.or_eq_true, all_visited]
    · rw [if_neg (not_or.2 ⟨h, ha⟩)]
      simp only [ha, decide_false, Bool.false_and, if_false, Bool.false_eq_true]

/-- Out of RUNNING no window follows. -/
theorem Part.followWindows_of_not_running (p : Part) (l : LoopId) (hr : (p.eng l).ctl.state ≠ .running) :
    p.followWindows l = p := by
  unfold Part.followWindows
  simp [hr]

/-- The end of a turn, with the turn named. -/
theorem Part.endTurn_eq (l : LoopId) (p : Part) (t : Turn) (ht : (p.eng l).cyc.turn = some t) :
    p.endTurn l = p.turnOver l t := by
  unfold Part.endTurn Part.turnOver
  rw [ht]
  simp only
  by_cases hr : (p.eng l).ctl.state = .running
  · rw [Part.followWindows_of_running _ _ (by rw [Part.eng_modEng]; exact hr)
      (by rw [Part.eng_modEng]; simp only; split_ifs <;> rfl), Part.modEng_modEng]
    apply Part.modEng_congr
    simp only [hr, if_true, Part.windowsAfter, Part.modEng_ctx]
    split_ifs <;> rfl
  · rw [Part.followWindows_of_not_running _ _ (by rw [Part.eng_modEng]; exact hr)]
    apply Part.modEng_congr
    simp only [hr, if_false]

end Sys2Proof.Machine
end

