-- ==== Sys2Proof/Tests/Slice0.lean ====
section
/-! SUPPORT. The model's own tests: the well-formedness checks, published values of the spec, small steps,
and for every obligation with hypotheses states and operands that meet them, clause by clause. -/

namespace Sys2Proof.Tests

open Sys2Proof Sys2Proof.Machine

-- One theorem after another, so that the kernel's evaluations do not wait for each other in many threads.
set_option Elab.async false

/-! ### The operand checks of the commands -/

theorem test_undefinedCommand_defined_code_refused :
    Instr.wellFormed (.undefinedCommand 0 .A 7 .latched) = false := by decide

theorem test_undefinedCommand_codes :
    Instr.wellFormed (.undefinedCommand 0 .A 8 .latched) = true ∧
    Instr.wellFormed (.undefinedCommand 0 .A 15 (.written 0)) = true ∧
    Instr.wellFormed (.undefinedCommand 0 .A 0 (.written 0)) = false := by decide

theorem test_registerWriteOther_register_refused :
    Instr.wellFormed (.registerWriteOther 0 0x00 1) = false ∧
    Instr.wellFormed (.registerWriteOther 0 0x14 1) = false := by decide

theorem test_registerWriteOther_offset :
    Instr.wellFormed (.registerWriteOther 0 0x18 1) = true ∧
    Instr.wellFormed (.registerWriteOther 0 0x01 1) = true := by decide

/-! ### Values that the spec prints -/

/-- The published check of ASCII "123456789" (01, R6). -/
theorem test_crc16_published :
    crc16 [0x31, 0x32, 0x33, 0x34, 0x35, 0x36, 0x37, 0x38, 0x39] = 0x29B1 := by decide +kernel

/-- The frame of a PROBE to station 5 (01). -/
theorem test_probe_frame :
    TxFrame.chars { purpose := .request, destination := 5, control := 4, payload := [] } =
      [0xA5, 0x05, 0x00, 0x04, 0x00, 0xF4, 0x41] := by decide +kernel

/-- The check of the two bytes selected by the example filter (07). -/
theorem test_filter_check : crc16 [0x0F, 0x31] = 0x2B43 := by decide +kernel

/-- The first twelve bytes of the pattern (R152). -/
theorem test_pattern :
    (lfsrBytes 12 (BitVec.allOnes 15)).2 =
      [0x00, 0x02, 0x00, 0x0C, 0x00, 0x28, 0x00, 0xF0, 0x02, 0x20, 0x0C, 0xC0] := by decide +kernel

theorem test_identity_words :
    State.reset.part.windowWord 0 0 = 0x00012408 ∧ State.reset.part.windowWord 0 1 = 0x10084002 ∧
    State.reset.part.windowWord 0 2 = 0x03FF000F := by decide +kernel

/-- A read of an empty trap slot and of a word past the end of a space. -/
theorem test_window_ends :
    State.reset.part.windowWord 6 5 = 0 ∧ State.reset.part.windowWord 6 6 = 0 ∧
    State.reset.part.windowWord 15 0 = 0 := by decide +kernel

/-! ### Small states

Loop A of `part` is in the given state, its line at rest for long, with the configuration `config`; station 0
is a direct periodic station of the loop with a record in hand. -/

/-- A time well after everything that the small states have seen. -/
def late : Nat := 10000000000

/-- Cycles of 100 ms, a periodic budget of 40 ms, an announce window of 10 ms, 50 kbit/s and every criterion
armed. -/
def config : LoopHost :=
  { LoopHost.zero with
    cycleLength := 1000, periodicBudget := 400, announceWindow := 100, bitRate := 3, identity := 0x12345678
    carrierEnable := true, errorThreshold := 2, errorWindow := 4, downHold := 1, jamTime := 1, jamRelease := 1
    keepalive := 1, testLength := 2, echoAddress := 9, testCount := 4, testMode := 1 }

def part (x : LoopState) (change : Engine → Engine) : Part :=
  Part.modEng .A
    (fun e => change
      { e with ctl := { e.ctl with state := x }, cfg := config, poolBase := 0x10000, poolSize := 16
               framer := { e.framer with running := true, receiver := .hunt } })
    (Part.powerOn late true true)

def stateOf (p : Part) : State := { part := p, mem := [], pending := [] }

/-- A POLL record with a two-byte request. -/
def poll : RecordCopy :=
  { kind := 1, notify := true, strict := false, requestLength := 2, holdLimit := 2, request := [1, 2] }

def station : Context :=
  { Context.reset with
    owner := some .A, state := .active
    binding := { loop := .A, cls := .periodic, lineAddress := 5, coupler := 0xFF }
    fresh := { Context.reset.fresh with retryLimit := 2, replyTimeout := 1, maxReply := 8, chainHead := 3
                                        acceptAnnounce := true, wake := true }
    phase := .first, inHand := some 3, copy := some poll }

def withStation (i : StationIx) (c : Context) (p : Part) : Part := p.modCtx i fun _ => c

def request : TxFrame := { purpose := .request, destination := 5, control := 2, payload := [1, 2] }

def sending (purpose : TxPurpose) : Sending :=
  { frame := { request with purpose := purpose }, start := 0, readBack := 0 }

def attempt (kind : AttemptKind) : Attempt :=
  { kind := kind, station := some 0, seq := false, timeout := 2500, allowance := 8, source := 5
    latency := some 4, buffer := [], endOfFrame := 0, timeoutPassed := false, skipBroken := false }

def awaiting (x : ExchangeState) (a : Attempt) (e : Engine) : Engine :=
  { e with xu := { state := x, attempt := some a } }

def hearing (cs : List Byte) (e : Engine) : Engine := { e with framer := { e.framer with receiver := .frame cs } }

/-- The characters of a valid frame. -/
def chars (destination source control : Byte) (payload : List Byte) : List Byte :=
  let body := [destination, source, control, BitVec.ofNat 8 payload.length] ++ payload
  [0xA5] ++ body ++ [(crc16 body).extractLsb' 8 8, (crc16 body).extractLsb' 0 8]

def moving (r : Requester) (a : BusAction) (urgent : Bool) (p : Part) : Part :=
  { p with port := { p.port with
      inFlight := some { requester := r, action := a, urgent := urgent, orphan := false } } }

/-- The part in which a CONTROL write with no field for the other loop is judged. -/
def written (p : Part) : Part := (p.tick 0).setSlot (otherLoop .A) (slotOf 0)

def resetting : Part := { Part.powerOn late true true with resetting := true }

def held : Part := { Part.powerOn late true true with resetHeld := true }

/-! ### Small steps -/

/-- START after reset: STARTING, and the read of the global descriptor in progress. -/
theorem test_start_after_reset :
    ∃ t, exec (.start 0 .A (.written 0)) State.reset = .next t ∧ t.part.engA.ctl.state = .starting ∧
      t.part.port.inFlight =
        some { requester := .sched .A, action := .read 0 64, urgent := false, orphan := false } :=
  ⟨_, rfl, by decide +kernel⟩

/-- STOP after reset is refused. -/
theorem test_stop_after_reset :
    ∃ t, exec (.stop 0 .B (.written 0)) State.reset = .next t ∧ t.part.cause = 0x20000000 :=
  ⟨_, rfl, by decide +kernel⟩

/-- An empty control area makes a START fail with error POOL, and the loop is in OFF again. -/
theorem test_start_without_pool :
    ∃ t, exec (.transferComplete 0 [])
        (stateOf (moving (.sched .A) (.read 0 32) false (part .starting fun e =>
          { e with sched := [.readLoopHost .starting, .startValidate] }))) = .next t ∧
      t.part.engA.ctl.state = .off ∧ t.part.engA.rep.startError = .pool :=
  ⟨_, rfl, by decide +kernel⟩

/-- A grid point that was marked is taken, and the boundary's first read begins. -/
theorem test_boundary_taken :
    ∃ t, exec (.boundaryTaken 0 .A)
        (stateOf (part .running fun e => { e with cyc := { e.cyc with marked := some late } })) = .next t ∧
      t.part.engA.cyc.boundaryAt = late ∧
      t.part.port.inFlight =
        some { requester := .sched .A, action := .read 0x100 16, urgent := false, orphan := false } :=
  ⟨_, rfl, by decide +kernel⟩

/-- The queue is first in, first out, and an empty one idles. -/
theorem test_queue :
    step State.reset = .next State.reset ∧
    ∃ t, step { State.reset with pending := [.maskWrite 3 1, .causeWrite 4 2] } = .next t ∧
      t.part.mask = 1 ∧ t.part.now = 3 ∧ t.pending = [.causeWrite 4 2] :=
  ⟨rfl, _, rfl, by decide +kernel⟩

/-! ### What the hypotheses of the statements are met by -/

theorem witness_EveryCommandAnswersNext : State.reset.pending = [] := rfl

theorem witness_SoftReset :
    (((part .running id).tick 0).live = true ∧ ((part .running id).tick 0).latchFree = true) ∧
    (((held.tick 0).live && (held.tick 0).latchFree) = false ∧
      (let q := (part .running id).setSlot .B (some 1)
       ((q.tick 0).live && (q.tick 0).latchFree) = false)) ∧
    ((resetting.tick 0).resetHeld = false ∧ (resetting.tick 0).resetting = true ∧
      (resetting.tick 0).port.inFlight = none) ∧
    (let q := moving (.sched .A) (.read 0 64) false resetting
     (q.tick 0).live = false ∧ (q.tick 0).port.inFlight.isSome = true) := by decide +kernel

/-- A soft reset that finds a DONE write in progress, and one that finds it waiting for its grant. -/
theorem witness_SoftReset_done :
    let ops : List SchedOp := [.writeDone 0 3 .rx .ready, .writeStationHalf 0, .endTurn]
    let p := withStation 0 station (part .running fun e => { e with sched := ops })
    let q := Part.tick 0 (moving (.sched .A) (.write 0x10180 [3, 0, 0, 0]) false p)
    q.live = true ∧ q.latchFree = true ∧ (q.eng .A).sched = ops ∧
      q.port.inFlight =
        some { requester := .sched .A, action := .write 0x10180 [3, 0, 0, 0], urgent := false, orphan := false } ∧
      ((q.beginSoftReset).eng .A).sched = [.writeDone 0 3 .rx .ready] ∧
      (p.tick 0).live = true ∧ (p.tick 0).latchFree = true ∧ (p.tick 0).port.inFlight = none ∧
      (((p.tick 0).beginSoftReset).eng .A).sched = [] := by decide +kernel

theorem witness_ResetPin :
    ((part .running id).tick 0).resetHeld = false ∧ (held.tick 0).resetHeld = true ∧
    (stateOf held).part.resetHeld = true ∧ (stateOf held).part.port.inFlight = none ∧
    (∀ dt, (Instr.windowDataRead 7) ≠ .resetNRelease dt) ∧
    (∀ dt l, (Instr.windowDataRead 7) ≠ .biasOkLoss dt l) ∧
    (∀ dt l, (Instr.windowDataRead 7) ≠ .biasOkRestore dt l) :=
  ⟨by decide +kernel, by decide +kernel, rfl, rfl, nofun, nofun, nofun⟩

theorem witness_TransferBytes :
    Memory.wf [] ∧ Memory.wf [(0, 1), (4294967295, 2)] ∧ (List.replicate 128 (1 : Byte)).length ≤ 128 := by
  decide +kernel

theorem witness_AreaRegister :
    ((State.reset.part.tick 0).live = true ∧ ∀ l, ((State.reset.part.tick 0).eng l).ctl.state = .off) ∧
    (((part .fault id).tick 0).live = true ∧ ((part .fault id).eng .A).ctl.state ≠ .off) ∧
    (State.reset.part.resetHeld = false ∧ held.resetHeld = true) :=
  ⟨⟨rfl, fun l => by cases l <;> rfl⟩, by decide +kernel, by decide +kernel⟩

theorem witness_CauseUnit :
    (Cause.exdone.index = 0 ∧ Cause.reject.index = 15) ∧
    (State.reset.part.resetting = false ∧ resetting.resetting = true) ∧
    (State.reset.part.tick 0).live = true ∧ (resetting.tick 0).resetHeld = false ∧
    (0x80008000 &&& causeBit .A .reject = causeBit .A .reject) ∧
    (0x80008000 &&& causeBit .B .reject = causeBit .B .reject) ∧
    State.reset.part.resetHeld = false ∧ held.resetHeld = true ∧
    (State.reset.part.live && State.reset.part.latchFree) = true := by decide +kernel

theorem witness_WindowRegisters :
    (State.reset.part.tick 0).live = true ∧
    ([3, 128, 16, 8, 4, 4, 6, 24, 5].getD (0 : BitVec 4).toNat 0 ≤ (3 : BitVec 12).toNat) ∧
    ([3, 128, 16, 8, 4, 4, 6, 24, 5].getD (1 : BitVec 4).toNat 0 ≤ (128 : BitVec 12).toNat) ∧
    ([3, 128, 16, 8, 4, 4, 6, 24, 5].getD (9 : BitVec 4).toNat 0 ≤ (0 : BitVec 12).toNat) ∧
    ((4 : BitVec 4) ≠ 1 ∧ (4 : BitVec 4) ≠ 2 ∧ (4 : BitVec 4) ≠ 3) ∧
    State.reset.part.resetHeld = false ∧ held.resetHeld = true ∧
    (resetting.resetHeld = false ∧ resetting.resetting = true ∧ resetting.port.inFlight = none) := by
  decide +kernel

theorem witness_WindowReads :
    (3 < 4) ∧ ([3, 128, 16, 8, 4, 4, 6, 24, 5].getD (8 : BitVec 4).toNat 0 ≤ (5 : BitVec 12).toNat) := by
  decide +kernel

theorem witness_WindowStores :
    (15 < 16 ∧ 2 < 3 ∧ 14 < 15 ∧ 3 < 4) ∧
    ((2 : BitVec 4) ≠ 3 ∧ ((2 : BitVec 4), (15 : BitVec 12)) ≠ (2, 14)) ∧
    ((1 : BitVec 4) ≠ 3 ∨ (3 : BitVec 12).toNat / 4 ≠ (0 : BitVec 12).toNat / 4) ∧
    ((3 : BitVec 4) ≠ 3 ∨ (3 : BitVec 12).toNat / 4 ≠ (4 : BitVec 12).toNat / 4) ∧
    (((0 : BitVec 4) ≠ 1 ∧ (0 : BitVec 4) ≠ 2 ∧ (0 : BitVec 4) ≠ 3) ∧
      [3, 128, 16, 8].getD (3 : BitVec 4).toNat 0 ≤ (8 : BitVec 12).toNat) := by decide +kernel

/-- The fields that the words of filter 3 set, each bit written on its own place. -/
theorem test_filter_words :
    let after := fun (w : Nat) (v : Word) =>
      ((State.reset.part.windowStore 1 (BitVec.ofNat 12 (8 * 3 + w)) v).screening.filters[(3 : Fin 16)])
    after 0 0x4A020201 =
      { Filter.reset with enable := true, scope := .both, qualifier := .groupListed, offset := 0x4A } ∧
    after 0 0x00010100 = { Filter.reset with scope := .wake, qualifier := .toConcentrator } ∧
    after 0 0x00030300 = { Filter.reset with scope := .unnamed, qualifier := .knownSource } ∧
    after 1 0x80000001 = { Filter.reset with mask := 0x0000000080000001 } ∧
    after 2 0x80000001 = { Filter.reset with mask := 0x8000000100000000 } ∧
    after 3 0x12342B43 = { Filter.reset with expected := 0x2B43 } ∧
    after 4 0x00000501 = { Filter.reset with triggered := true, matchCount := 5 } := by decide +kernel

/-- The flags of group 15 and of the wake configuration. -/
theorem test_group_words :
    let after := fun (g : Nat) (v : Word) =>
      (State.reset.part.windowStore 2 (BitVec.ofNat 12 g) v).screening
    (after 14 1).groups[(14 : Fin 15)] = { announceAccept := true, wake := false } ∧
    (after 14 2).groups[(14 : Fin 15)] = { announceAccept := false, wake := true } ∧
    (after 15 1).wakeConfig = { State.reset.part.screening.wakeConfig with wakeOnEnergy := true } ∧
    (after 15 2).wakeConfig = { State.reset.part.screening.wakeConfig with wakeAllCall := true } ∧
    (after 15 4).wakeConfig = { State.reset.part.screening.wakeConfig with allCallAccept := true } ∧
    (after 15 8).wakeConfig = { State.reset.part.screening.wakeConfig with setupComplete := true } := by
  decide +kernel

theorem witness_RegisterAccess :
    State.reset.part.resetting = false ∧ Instr.wellFormed (.registerWriteOther 0 0x18 1) = true ∧
    (resetting.tick 0).resetHeld = false ∧ (resetting.tick 0).resetting = true := by decide +kernel

/-- STOP in OFF, ROLLCALL in OFF, an undefined code, and START in a loop that is not OFF. -/
theorem witness_RefusedAndLatchedCommands :
    (State.reset.part.tick 0).takesWrite = true ∧ (2 : BitVec 4) ≠ 0 ∧ (15 : BitVec 4) ≠ 0 ∧
    (written State.reset.part).takes .A 2 = false ∧ (written State.reset.part).takes .A 5 = false ∧
    (written State.reset.part).takes .A 8 = false ∧ (written State.reset.part).takes .A 15 = false ∧
    ((part .running id).tick 0).takesWrite = true ∧ (written (part .running id)).takes .A 1 = false ∧
    (written (part .running id)).takes .A 3 = false := by decide +kernel

theorem witness_RefusedAndLatchedCommands_latched :
    (let q := (part .running id).setSlot .A (some 2)
     q.live = true ∧ (2 : BitVec 4) ≠ 0 ∧ (q.eng .A).ctl.slot = some 2 ∧
       (q.eng (otherLoop .A)).ctl.slot = slotOf 0 ∧ q.latchFree = false) ∧
    (let q := ((part .running id).setSlot .A (some 2)).setSlot .B (some 15)
     q.live = true ∧ (q.eng .A).ctl.slot = some 2 ∧ (q.eng (otherLoop .A)).ctl.slot = slotOf 15) := by
  decide +kernel

/-- A STOP in OFF while the TESTDONE of the test before it waits for the write of the part half. -/
theorem witness_RefusedAndLatchedCommands_testdone :
    let p := part .off fun e => { e with sched := [.writeLoopHalf, .raise .testdone] }
    (p.tick 0).takesWrite = true ∧ (written p).takes .A 2 = false ∧
      (.raise .testdone) ∈ ((written p).eng .A).sched := by decide +kernel

theorem witness_StartAndWakeCommands :
    ((State.reset.part.tick 0).takesWrite = true ∧ ((written State.reset.part).eng .A).ctl.state = .off ∧
      (written State.reset.part).atTransfer .A = true) ∧
    (((part .quiet id).tick 0).takesWrite = true ∧ ((written (part .quiet id)).eng .A).ctl.state = .quiet ∧
      (written (part .quiet id)).settled .A = true) := by decide +kernel

theorem witness_StopAndQuietCommands_draining :
    (((part .rollcall id).tick 0).takesWrite = true ∧ (written (part .rollcall id)).settled .A = true ∧
      ((written (part .rollcall id)).eng .A).ctl.state = .rollcall) ∧
    (let p := part .starting fun e =>
       { e with ctl := { e.ctl with validated := true }, sched := [.readStationHost 63, .judge 63] }
     (p.tick 0).takesWrite = true ∧ (written p).settled .A = true ∧
       ((written p).eng .A).ctl.state = .starting ∧ ((written p).eng .A).ctl.validated = true) ∧
    (let q := part .running id
     let p := { q with screening := { q.screening with
       wakeConfig := { q.screening.wakeConfig with setupComplete := true } } }
     (p.tick 0).takesWrite = true ∧ (written p).settled .A = true ∧
       ((written p).eng .A).ctl.state = .running ∧
       (written p).screening.wakeConfig.setupComplete = true) := by decide +kernel

theorem witness_StopAndQuietCommands :
    (((part .quiet id).tick 0).takesWrite = true ∧ (written (part .quiet id)).atTransfer .A = true ∧
      ((written (part .quiet id)).eng .A).ctl.state = .quiet) ∧
    (((part .down id).tick 0).takesWrite = true ∧ (written (part .down id)).atTransfer .A = true ∧
      ((written (part .down id)).eng .A).ctl.state = .down ∧
      ((written (part .down id)).eng .A).sched = []) ∧
    (((part .jammed id).tick 0).takesWrite = true ∧ (written (part .jammed id)).atTransfer .A = true ∧
      ((written (part .jammed id)).eng .A).ctl.state = .jammed ∧
      ((written (part .jammed id)).eng .A).sched = []) ∧
    (((part .fault id).tick 0).takesWrite = true ∧ (written (part .fault id)).atTransfer .A = true ∧
      ((written (part .fault id)).eng .A).ctl.state = .fault) ∧
    (let p := part .test fun e => { e with ctl := { e.ctl with validated := true } }
     (p.tick 0).takesWrite = true ∧ (written p).atTransfer .A = true ∧
       ((written p).eng .A).ctl.state = .test ∧ ((written p).eng .A).enteringTest = false) ∧
    (((part .draining id).tick 0).takesWrite = true ∧ (written (part .draining id)).settled .A = true ∧
      ((written (part .draining id)).eng .A).ctl.state = .draining) := by decide +kernel

/-- A catch frame held at an entry to OFF: with no walk, with a walk whose transfer is in progress, with the count of
drops at its end, and with its FILLED write waiting for the grant; only a FILLED write in progress keeps it. -/
theorem test_catchDropped :
    let frame : CatchFrame :=
      { destination := 0, source := 5, control := 0x0F, payload := [1], reason := .station, filter := none
        triggered := 0, cycle := 0 }
    let holds := fun (drops : Word) (walk : Option CatchOp) => part .quiet fun e =>
      { e with catcher := { e.catcher with buffer := some frame, walk := walk, drops := drops } }
    let dropped := fun (p : Part) (drops : Word) =>
      let q := Part.catchDropped .A p
      (q.eng .A).catcher.buffer = none ∧ (q.eng .A).catcher.walk = none ∧ (q.eng .A).catcher.drops = drops ∧
        q.port.inFlight.all (·.orphan) = true
    let filling := moving (.catcher .A) (.write 0x10180 [5, 0, 0, 0]) false (holds 0 (some (.writeFilled 3)))
    dropped (holds 0 none) 1 ∧
      dropped (moving (.catcher .A) (.read 0x48 4) false (holds 7 (some .readHead))) 8 ∧
      dropped (holds 0xFFFFFFFF none) 0xFFFFFFFF ∧ dropped (holds 0 (some (.writeFilled 3))) 1 ∧
      Part.catchDropped .A filling = filling := by decide +kernel

/-- DOWN and JAMMED with settlements still to make, and with the entry's write alone, begun or not. -/
theorem witness_StopAndQuietCommands_settling :
    let last : List SchedOp := [.writeLoopHalf, .raise .down, .raiseRetimeRefused]
    let meets := fun (x : LoopState) (ops : List SchedOp) (transferring : Bool) =>
      let q := part x fun e => { e with sched := ops ++ last }
      let p := if transferring then moving (.sched .A) (.write 0x60 []) false q else q
      (p.tick 0).takesWrite = true ∧ ((written p).eng .A).ctl.state = x ∧ (written p).atTransfer .A = true ∧
        ((written p).eng .A).sched = ops ++ last ∧ .enterOff ∉ ops ∧
        (written p).schedTransferring .A = transferring
    ∀ x ∈ [LoopState.down, LoopState.jammed], meets x [] true ∧ meets x [] false ∧
      ∀ t ∈ [true, false], meets x [.writeStationHalf 0, .mark, .settleAll .lineLost] t := by decide +kernel

theorem witness_StopAndQuietCommands_entering :
    (((part .starting id).tick 0).takesWrite = true ∧
      ((written (part .starting id)).eng .A).ctl.state = .starting ∧
      ((written (part .starting id)).eng .A).ctl.validated = false ∧
      (written (part .starting id)).schedTransferring .A = false) ∧
    (let p := moving (.sched .A) (.read 0 64) false (part .starting fun e =>
       { e with sched := [.readGlobal, .readLoopHost .starting, .startValidate] })
     (p.tick 0).takesWrite = true ∧ ((written p).eng .A).ctl.state = .starting ∧
       ((written p).eng .A).ctl.validated = false ∧ (written p).schedTransferring .A = true ∧
       ((written p).eng .A).sched = .readGlobal :: [.readLoopHost .starting, .startValidate] ∧
       ((written p).schedAction .A .readGlobal).isSome = true) := by decide +kernel

/-- An entry that is not validated: behind what an earlier event has left, and of a TEST. -/
theorem witness_StopAndQuietCommands_ahead :
    let meets := fun (x : LoopState) (ahead : List SchedOp) (op : SchedOp) (rest : List SchedOp) =>
      let p := part x fun e => { e with sched := ahead ++ op :: rest }
      (p.tick 0).takesWrite = true ∧ ((written p).eng .A).ctl.state = x ∧
        ((written p).eng .A).ctl.validated = false ∧ ((written p).eng .A).sched = ahead ++ op :: rest ∧
        (∀ o ∈ ahead, o.ofEntry = false) ∧ op.ofEntry = true ∧ (written p).atTransfer .A = true ∧
        (written p).schedTransferring .A = false ∧
        (x = .test → ((written p).eng .A).enteringTest = true)
    meets .starting [.writeLoopHalf, .raise .refused] .readGlobal [.readLoopHost .starting, .startValidate] ∧
      meets .test [.writeLoopHalf, .raise .testdone] (.readLoopHost .testing) [.testValidate] ∧
      meets .starting [] .readGlobal [.readLoopHost .starting, .startValidate] := by decide +kernel

/-- A TEST entry whose read is in progress, and one that is validated, before its write is granted and after. -/
theorem witness_StopAndQuietCommands_test :
    let meets := fun (p : Part) (validated transferring : Bool) (op : SchedOp) (rest : List SchedOp) =>
      (p.tick 0).takesWrite = true ∧ ((written p).eng .A).ctl.state = .test ∧
        ((written p).eng .A).enteringTest = true ∧ ((written p).eng .A).ctl.validated = validated ∧
        ((written p).eng .A).sched = op :: rest ∧ (written p).schedTransferring .A = transferring ∧
        ((written p).schedAction .A op).isSome = true
    let reading := part .test fun e => { e with sched := [.readLoopHost .testing, .testValidate] }
    let valid := part .test fun e =>
      { e with ctl := { e.ctl with validated := true }, sched := [.writeLoopHalf, .testFirst] }
    meets (moving (.sched .A) (.read 0x40 32) false reading) false true (.readLoopHost .testing)
        [.testValidate] ∧
      meets valid true false .writeLoopHalf [.testFirst] ∧
      meets (moving (.sched .A) (.write 0x60 []) false valid) true true .writeLoopHalf [.testFirst] := by
  decide +kernel

theorem witness_RollcallRetimeAndTestCommands :
    (let p := part .running fun e => { e with cyc := { e.cyc with phase := .boundary } }
     (p.tick 0).takesWrite = true ∧ ((written p).eng .A).ctl.state = .running ∧
       (written p).settled .A = true ∧ ((written p).eng .A).cyc.phase = .boundary) ∧
    (let free := fun p : Part =>
       (p.tick 0).takesWrite = true ∧ ((written p).eng .A).ctl.state = .running ∧
         ((written p).eng .A).cyc.turn = none ∧ ((written p).eng .A).sched = [] ∧
         ((written p).eng .A).cyc.phase ≠ .boundary ∧ ((written p).eng .A).isSending .beacon = false
     (free (withStation 63 station (part .running id)) ∧
       (written (withStation 63 station (part .running id))).rollCandidates .A ≠ []) ∧
     (free (part .running id) ∧ (written (part .running id)).rollCandidates .A = [])) ∧
    (∀ x ∈ [LoopState.running, .rollcall, .down, .jammed], ((part x id).tick 0).takesWrite = true ∧
      ((written (part x id)).eng .A).ctl.state = x) ∧
    ((State.reset.part.tick 0).takesWrite = true ∧ ((written State.reset.part).eng .A).ctl.state = .off ∧
      (written State.reset.part).testUnit.owner = none ∧
      (written State.reset.part).atTransfer .A = true) := by decide +kernel

/-! The hypotheses that the events of the line share. -/

/-- The line of loop A is heard: the part runs, and the Framer runs and is fed by the line. -/
abbrev heard (p : Part) : Prop :=
  p.live = true ∧ (p.eng .A).framer.running = true ∧ (p.eng .A).internalReturn = false ∧ p.settled .A = true

theorem witness_BiasAndActivity :
    (let p := (part .running id).tick 0
     heard p ∧ (p.eng .A).framer.sending = none ∧ (p.eng .A).framer.activity = none ∧
       (p.eng .A).framer.markSince + 2 * (p.eng .A).charTime ≤ p.now ∧
       ¬ ((p.eng .A).ctl.state = .quiet ∧ p.screening.wakeConfig.wakeOnEnergy = true ∧
         (p.eng .A).quietFrom ≤ p.now)) ∧
    (let q := part .quiet fun e =>
       { e with framer := { e.framer with markSince := late - 2 * Config.charTime 3 }, quietFrom := late }
     let p := Part.tick 0 { q with screening := { q.screening with
       wakeConfig := { q.screening.wakeConfig with wakeOnEnergy := true } } }
     heard p ∧ (p.eng .A).framer.sending = none ∧ (p.eng .A).framer.activity = none ∧
       (p.eng .A).framer.markSince + 2 * (p.eng .A).charTime = p.now ∧
       (p.eng .A).ctl.state = .quiet ∧ p.screening.wakeConfig.wakeOnEnergy = true ∧
       (p.eng .A).quietFrom = p.now) := by decide +kernel

theorem witness_LineAtMark :
    (let p := (part .running fun e => { e with framer := { e.framer with
       activity := some 0, markSince := late - 2 * Config.charTime 3 } }).tick 0
     heard p ∧ (p.eng .A).framer.sending = none ∧
       (p.eng .A).framer.markSince + 2 * (p.eng .A).charTime ≤ p.now ∧
       (p.eng .A).framer.activity.isSome = true ∧ (p.eng .A).framer.receiver.collecting = false) ∧
    (let p := (part .running (hearing [0xA5, 0])).tick 0
     heard p ∧ (p.eng .A).framer.sending = none ∧
       (p.eng .A).framer.markSince + 2 * (p.eng .A).charTime ≤ p.now ∧
       (p.eng .A).framer.receiver.collecting = true ∧ (p.eng .A).xu.state = .idle) ∧
    (let p := (part .running fun e => { e with framer := { e.framer with receiver := .discard } }).tick 0
     heard p ∧ (p.eng .A).framer.sending = none ∧
       (p.eng .A).framer.markSince + 4 * (p.eng .A).charTime ≤ p.now ∧
       (p.eng .A).framer.receiver.collecting = false ∧ (p.eng .A).xu.state ≠ .skipping ∧
       (p.eng .A).framer.held = none) ∧
    (let p := (part .running fun e => { e with framer := { e.framer with
       held := some request, markSince := late - 4 * Config.charTime 3 } }).tick 0
     heard p ∧ (p.eng .A).framer.sending = none ∧
       (p.eng .A).framer.markSince + 4 * (p.eng .A).charTime ≤ p.now ∧
       (p.eng .A).framer.receiver.collecting = false ∧ (p.eng .A).xu.state ≠ .skipping ∧
       (p.eng .A).framer.held = some request) := by decide +kernel

/-- Station 0 with an attempt `a` that is not idle, on a line changed by `change`. -/
def attempting (x : ExchangeState) (a : Attempt) (change : Framer → Framer) : Part :=
  Part.tick 0 (withStation 0 station (part .running fun e =>
    { awaiting x a e with framer := change { e.framer with activity := some 0 } }))

/-- Of the two attempts whose reply a frame error ends, one is being received, the other's timeout has passed. -/
def failing : List (ExchangeState × Attempt) :=
  [(.receiving, attempt .poll), (.awaiting, { attempt .poll with timeoutPassed := true })]

/-- The part after a frame error that leaves the receiver in DISCARD. -/
def erred (p : Part) : Part :=
  p.modEng .A fun e => Engine.countFrameError { e with framer := { e.framer with receiver := .discard } }

/-- A frame that breaks off in every state of the Exchange Unit. -/
theorem witness_LineAtMark_exchange :
    let broken := fun (x : ExchangeState) (a : Attempt) =>
      attempting x a fun f => { f with receiver := .frame [0xA5, 0] }
    let meets := fun (x : ExchangeState) (a : Attempt) =>
      let p := broken x a
      heard p ∧ (p.eng .A).framer.sending = none ∧ (p.eng .A).xu = { state := x, attempt := some a } ∧
        (p.eng .A).framer.markSince + 2 * (p.eng .A).charTime ≤ p.now ∧
        (p.eng .A).framer.receiver.collecting = true
    (∀ x ∈ [ExchangeState.sending, .awaiting, .skipping], meets x (attempt .poll)) ∧
    (attempt .poll).timeoutPassed = false ∧
    (∀ x ∈ failing, meets x.1 x.2 ∧ ((erred (broken x.1 x.2)).attemptFailed .A).settled .A = true) := by
  decide +kernel

/-- An overlong reply that broke off, on the idle line. -/
theorem witness_LineAtMark_overlong :
    let a := { attempt .poll with skipBroken := true }
    let p := attempting .skipping a fun f => { f with receiver := .discard }
    heard p ∧ (p.eng .A).framer.sending = none ∧ (p.eng .A).xu = { state := .skipping, attempt := some a } ∧
      (p.eng .A).framer.markSince + 4 * (p.eng .A).charTime ≤ p.now ∧
      (p.eng .A).framer.receiver.collecting = false ∧ (p.eng .A).framer.held = none ∧
      (p.overlongFinished .A false).settled .A = true ∧
      ((p.overlongFinished .A false).eng .A).framer.held = none := by decide +kernel

/-- A part that collects `cs`, the line being active. -/
def collecting (cs : List Byte) : Part :=
  Part.tick 0 (part .running fun e =>
    { e with framer := { e.framer with receiver := .frame cs, activity := some 0 } })

theorem witness_CharacterTaken_hunt :
    let p := (part .running fun e => { e with framer := { e.framer with activity := some 0 } }).tick 0
    heard p ∧ (p.eng .A).framer.sending = none ∧ (p.eng .A).ctl.state ≠ .quiet ∧
      (p.eng .A).framer.receiver = .hunt ∧ (0xA5 : Byte) = 0xA5 ∧ (0xA4 : Byte) ≠ 0xA5 ∧
      (p.eng .A).xu.state = .idle := by decide +kernel

/-- A lead while the unit waits for an earlier character: its start bit in time, and after the timeout. -/
theorem witness_CharacterTaken_late :
    let meets := fun (p : Part) (a : Attempt) =>
      heard p ∧ (p.eng .A).framer.sending = none ∧ (p.eng .A).ctl.state ≠ .quiet ∧
        (p.eng .A).framer.receiver = .hunt ∧ (p.eng .A).xu = { state := .awaiting, attempt := some a } ∧
        a.timeoutPassed = true
    let waits := fun (ended : Nat) => { attempt .poll with endOfFrame := ended, timeoutPassed := true }
    let waiting := fun (a : Attempt) => Part.tick 0 (withStation 0 station (part .running fun e =>
      awaiting .awaiting a { e with framer := { e.framer with activity := some 0 } }))
    let start := late - Config.charTime 3
    (meets (waiting (waits (start - 2500))) (waits (start - 2500)) ∧ start ≤ start - 2500 + 2500) ∧
    (meets (waiting (waits (start - 2501))) (waits (start - 2501)) ∧ start - 2501 + 2500 < start ∧
      (Part.attemptFailed .A (Part.modEng .A
        (fun e => { e with framer := { e.framer with receiver := .frame [0xA5], markSince := late } })
        (waiting (waits (start - 2501))))).settled .A = true) := by decide +kernel

theorem witness_CharacterTaken_frame :
    (∀ cs ∈ [[0xA5], [0xA5, 0, 5, 9], [0xA5, 0, 5, 9, 1], [0xA5, 0, 5, 9, 1, 7],
        [0xA5, 0, 5, 9, 1, 7, 3]],
      heard (collecting cs) ∧ ((collecting cs).eng .A).framer.sending = none ∧
      ((collecting cs).eng .A).ctl.state ≠ .quiet ∧
      ((collecting cs).eng .A).framer.receiver = .frame cs ∧ frameComplete cs = false ∧
      ((collecting cs).eng .A).xu.state = .idle) ∧
    (let cs : List Byte := [0xA5, 0, 5, 9]
     cs.length = 4 ∧ (96 : Byte).toNat ≤ 96 ∧ 96 < (97 : Byte).toNat) ∧
    (let cs : List Byte := [0xA5, 0, 5, 9, 1]
     5 ≤ cs.length ∧ cs.length < 5 + (byteAt cs 4).toNat) ∧
    (let cs : List Byte := [0xA5]
     cs.length < 4) ∧
    (let first : List Byte := [0xA5, 0, 5, 9, 1, 7]
     let second : List Byte := [0xA5, 0, 5, 9, 1, 7, 3]
     first.length = 5 + (byteAt first 4).toNat ∧ second.length = 6 + (byteAt second 4).toNat) := by decide +kernel

/-- A first character that comes with no activity reported: in RUNNING, and in QUIET with wake-on-energy set after 2 C
of mark, after less, and with its start bit before the entry to QUIET. -/
theorem witness_CharacterTaken_activity :
    let unreported := fun (x : LoopState) (marked quiet : Nat) =>
      let q := part x fun e =>
        { e with framer := { e.framer with markSince := late - Config.charTime 3 - marked }, quietFrom := quiet }
      Part.tick 0 { q with screening := { q.screening with
        wakeConfig := { q.screening.wakeConfig with wakeOnEnergy := true } } }
    let meets := fun (p : Part) (x : LoopState) =>
      heard p ∧ (p.eng .A).framer.sending = none ∧ (p.eng .A).framer.activity = none ∧
        (p.eng .A).framer.receiver = .hunt ∧ (p.eng .A).ctl.state = x ∧
        p.screening.wakeConfig.wakeOnEnergy = true ∧ (p.eng .A).xu.state = .idle
    let wakes := fun p : Part =>
      (p.eng .A).framer.markSince + 2 * (p.eng .A).charTime ≤ p.now - (p.eng .A).charTime ∧
        (p.eng .A).quietFrom ≤ p.now - (p.eng .A).charTime
    let twice := 2 * Config.charTime 3
    let start := late - Config.charTime 3
    meets (unreported .running twice start) .running ∧ meets (unreported .quiet twice start) .quiet ∧
      wakes (unreported .quiet twice start) ∧ meets (unreported .quiet (twice - 1) start) .quiet ∧
      ¬ wakes (unreported .quiet (twice - 1) start) ∧ meets (unreported .quiet twice (start + 1)) .quiet ∧
      ¬ wakes (unreported .quiet twice (start + 1)) := by decide +kernel

/-- Frame errors of a character in every state of the Exchange Unit: no lead in HUNT, a bad stop bit, and a
length above 96. -/
theorem witness_CharacterTaken_exchange :
    let meets := fun (r : Receiver) (x : ExchangeState) (a : Attempt) =>
      let p := attempting x a fun f => { f with receiver := r }
      heard p ∧ (p.eng .A).framer.sending = none ∧ (p.eng .A).ctl.state ≠ .quiet ∧
        (p.eng .A).framer.receiver = r ∧ (p.eng .A).xu = { state := x, attempt := some a }
    (∀ r ∈ [Receiver.hunt, .frame [0xA5, 0, 5, 9], .frame [0xA5]],
      (∀ x ∈ [ExchangeState.sending, .awaiting, .skipping], meets r x (attempt .poll)) ∧
      (∀ x ∈ failing, meets r x.1 x.2 ∧
        ((erred (attempting x.1 x.2 fun f => { f with receiver := r })).attemptFailed .A).settled .A = true)) ∧
    (0xA4 : Byte) ≠ 0xA5 ∧ frameComplete [0xA5, 0, 5, 9] = false ∧ frameComplete [0xA5] = false ∧
    96 < (97 : Byte).toNat ∧ ([0xA5, 0, 5, 9] : List Byte).length = 4 := by decide +kernel

/-- A header whose length is above the allowance of the attempt, and one that meets it. -/
theorem witness_CharacterTaken_overlong :
    let cs : List Byte := [0xA5, 0, 5, 9]
    let p := attempting .receiving (attempt .poll) fun f => { f with receiver := .frame cs }
    heard p ∧ (p.eng .A).framer.sending = none ∧ (p.eng .A).ctl.state ≠ .quiet ∧
      (p.eng .A).framer.receiver = .frame cs ∧ frameComplete cs = false ∧ cs.length = 4 ∧
      (p.eng .A).xu = { state := .receiving, attempt := some (attempt .poll) } ∧ (9 : Byte).toNat ≤ 96 ∧
      byteAt cs 1 = 0 ∧ byteAt cs 2 = (attempt .poll).source ∧
      (attempt .poll).allowance.toNat < (9 : Byte).toNat ∧
      ¬ (attempt .poll).allowance.toNat < (8 : Byte).toNat := by decide +kernel

theorem witness_CharacterTaken_other :
    (let p := (part .running fun e => { e with framer := { e.framer with
       receiver := .discard, activity := some 0 } }).tick 0
     heard p ∧ (p.eng .A).framer.sending = none ∧ (p.eng .A).ctl.state ≠ .quiet ∧
       (p.eng .A).framer.receiver = .discard) ∧
    (let x := sending .request
     let p := (part .running fun e => { e with framer := { e.framer with sending := some x } }).tick 0
     heard p ∧ (p.eng .A).framer.sending = some x ∧ x.readBack < x.frame.chars.length ∧
       byteAt x.frame.chars x.readBack = 0xA5 ∧ byteAt x.frame.chars x.readBack ≠ 0xA4) := by decide +kernel

theorem witness_FrameEndJudged :
    (let cs : List Byte := [0xA5, 0, 5, 0x0F, 0, 0, 0]
     let p := (part .running (hearing cs)).tick 0
     heard p ∧ (p.eng .A).framer.receiver = .frame cs ∧ frameComplete cs = true ∧
       (p.eng .A).xu.state = .idle ∧ frameValid cs = false) ∧
    (let cs := chars 0 5 0x0F []
     ∀ x ∈ [LoopState.down, LoopState.jammed, LoopState.test, LoopState.quiet],
       let p := (part x (hearing cs)).tick 0
       heard p ∧ (p.eng .A).framer.receiver = .frame cs ∧ frameComplete cs = true ∧
         (p.eng .A).xu.state = .idle ∧ frameValid cs = true ∧ (p.eng .A).ctl.state = x ∧
         p.wakeReason .A (RxFrame.ofChars cs) (p.triggeredFilters .A .wake (RxFrame.ofChars cs)) = none) ∧
    (let cs := chars 0 5 0x0F []
     let p := (withStation 0 station (part .quiet (hearing cs))).tick 0
     heard p ∧ (p.eng .A).framer.receiver = .frame cs ∧ frameComplete cs = true ∧
       (p.eng .A).xu.state = .idle ∧ frameValid cs = true ∧ (p.eng .A).ctl.state = .quiet ∧
       p.wakeReason .A (RxFrame.ofChars cs) (p.triggeredFilters .A .wake (RxFrame.ofChars cs)) =
         some .station) := by decide +kernel

/-- A frame with a bad check in every state of the Exchange Unit, and valid frames that are wrong replies: one
for another destination, one of another source, and one of a kind that a POLL does not allow. -/
theorem witness_FrameEndJudged_exchange :
    let ends := fun (cs : List Byte) (x : ExchangeState) (a : Attempt) =>
      attempting x a fun f => { f with receiver := .frame cs }
    let meets := fun (cs : List Byte) (x : ExchangeState) (a : Attempt) =>
      let p := ends cs x a
      heard p ∧ (p.eng .A).framer.receiver = .frame cs ∧ frameComplete cs = true ∧
        (p.eng .A).xu = { state := x, attempt := some a }
    let hunting := fun p : Part => p.modEng .A fun e => { e with framer := { e.framer with receiver := .hunt } }
    let bad : List Byte := [0xA5, 0, 5, 9, 0, 0, 0]
    frameValid bad = false ∧
    (∀ x ∈ [ExchangeState.sending, .awaiting, .skipping], meets bad x (attempt .poll)) ∧
    (∀ x ∈ failing, meets bad x.1 x.2 ∧
      (((hunting (ends bad x.1 x.2)).modEng .A Engine.countFrameError).attemptFailed .A).settled .A = true) ∧
    (((hunting (ends bad .skipping (attempt .poll))).modEng .A Engine.countFrameError).overlongFinished .A
      false).settled .A = true ∧
    (∀ cs ∈ [chars 1 5 9 [], chars 0 6 9 [], chars 0 5 0x0A []], frameValid cs = true ∧
      meets cs .receiving (attempt .poll) ∧
      ((hunting (ends cs .receiving (attempt .poll))).attemptFailed .A).settled .A = true) ∧
    ((RxFrame.ofChars (chars 1 5 9 [])).destination ≠ 0 ∧ (RxFrame.ofChars (chars 0 6 9 [])).source ≠ 5 ∧
      (RxFrame.ofChars (chars 0 5 0x0A [])).control.extractLsb' 0 4 = 10) ∧
    (let cs := chars 0 5 9 [1, 2, 3, 4, 5, 6, 7, 8, 9]
     frameValid cs = true ∧ meets cs .skipping (attempt .poll) ∧
       ((hunting (ends cs .skipping (attempt .poll))).overlongFinished .A true).settled .A = true) := by
  decide +kernel

theorem witness_AnnounceScreen :
    let cs := chars 0 5 0x0F []
    let f := RxFrame.ofChars cs
    let meets := fun p : Part =>
      heard p ∧ (p.eng .A).framer.receiver = .frame cs ∧ frameComplete cs = true ∧ frameValid cs = true ∧
        (p.eng .A).xu.state = .idle ∧ (p.eng .A).ctl.state = .running
    (let p := (part .running (hearing cs)).tick 0
     meets p ∧ p.announceReason .A f (p.triggeredFilters .A .announce f) = none) ∧
    (let p := (withStation 0 station (part .running (hearing cs))).tick 0
     meets p ∧ p.announceReason .A f (p.triggeredFilters .A .announce f) = some .station ∧
       (p.eng .A).catcher.buffer = none) ∧
    (let frame : CatchFrame :=
       { destination := 0, source := 5, control := 0x0F, payload := [], reason := .station, filter := none
         triggered := 0, cycle := 0 }
     let p := (withStation 0 station (part .running fun e =>
       { hearing cs e with catcher := { e.catcher with buffer := some frame } })).tick 0
     meets p ∧ p.announceReason .A f (p.triggeredFilters .A .announce f) = some .station ∧
       (p.eng .A).catcher.buffer.isSome = true) := by decide +kernel

/-- The station that the acceptance rules find for a source. -/
def found (p : Part) (f : RxFrame) (i : StationIx) : Bool :=
  let matching := fun i : StationIx =>
    decide ((p.ctx i).owner = some .A ∧
      ((p.ctx i).state = .ready ∨ (p.ctx i).state = .active ∨ (p.ctx i).state = .silent ∨
        (p.ctx i).state = .absent ∨ (p.ctx i).state = .halted) ∧
      (p.ctx i).binding.coupler = 0xFF ∧ (p.ctx i).binding.lineAddress = f.source)
  matching i && decide (∀ j, j < i → matching j = false)

/-- A group list and all-calls accepted and waking. -/
def listening : Part :=
  let p := withStation 0 station (part .quiet id)
  { p with screening := { p.screening with
      groups := Vector.replicate 15 { announceAccept := true, wake := true }
      wakeConfig := { p.screening.wakeConfig with allCallAccept := true, wakeAllCall := true } } }

/-- The four conditions of the announce screen, and of the wake screen, for a frame heard by `listening`. -/
def rules (x : Screen) (f : RxFrame) : List Bool :=
  let p := listening
  match x with
  | .announce =>
    [decide (f.control.extractLsb' 0 4 = 15 ∧ f.destination = 0 ∧
       ∃ i, found p f i = true ∧ (p.ctx i).fresh.acceptAnnounce = true),
     decide (∃ g : Fin 15, f.destination.toNat = 240 + g.val ∧ p.screening.groups[g].announceAccept = true),
     decide (f.destination = 255 ∧ p.screening.wakeConfig.allCallAccept = true)]
  | .wake =>
    [holdsRun (wakeMarker (p.eng .A).cfg.identity) f.payload,
     decide (∃ i, found p f i = true ∧ (p.ctx i).fresh.wake = true),
     decide (∃ g : Fin 15, f.destination.toNat = 240 + g.val ∧ p.screening.groups[g].wake = true),
     decide (f.destination = 255 ∧ p.screening.wakeConfig.wakeAllCall = true)]

/-- Each rule holds with none before it, and none holds: station, lowest and highest group, all-call. -/
theorem witness_AcceptanceRules_announce :
    let frame := fun (d : Byte) => RxFrame.ofChars (chars d 5 0x0F [])
    rules .announce (frame 0) = [true, false, false] ∧
    rules .announce (frame 240) = [false, true, false] ∧
    rules .announce (frame 254) = [false, true, false] ∧
    rules .announce (frame 255) = [false, false, true] ∧
    rules .announce (frame 1) = [false, false, false] := by decide +kernel

theorem witness_AcceptanceRules_wake :
    let frame := fun (d source : Byte) => RxFrame.ofChars (chars d source 0x0F [])
    rules .wake (RxFrame.ofChars (chars 1 6 0x0F (wakeMarker 0x12345678))) = [true, false, false, false] ∧
    rules .wake (frame 1 5) = [false, true, false, false] ∧
    rules .wake (frame 240 6) = [false, false, true, false] ∧
    rules .wake (frame 255 6) = [false, false, false, true] ∧
    rules .wake (frame 1 6) = [false, false, false, false] := by decide +kernel

/-- A part whose attempt `a` with station 0, holding `c`, has received the frame `cs` whole. -/
def answered (c : Context) (a : Attempt) (cs : List Byte) : Part :=
  (withStation 0 c (part .running fun e => hearing cs (awaiting .receiving a e))).tick 0

/-- The hypotheses that the statements of the replies share. -/
def replies (c : Context) (a : Attempt) (cs : List Byte) : Bool :=
  let p := answered c a cs
  decide (p.live = true ∧ (p.eng .A).internalReturn = false ∧ (p.eng .A).sched = [] ∧
    (p.eng .A).framer.receiver = .frame cs ∧ frameComplete cs = true ∧ frameValid cs = true ∧
    (p.eng .A).xu = { state := .receiving, attempt := some a } ∧ a.station = some 0 ∧ a.latency = some 4 ∧
    (4 : BitVec 16).toNat < 65535 ∧ (p.ctx 0).inHand = some 3 ∧
    (RxFrame.ofChars cs).destination = 0 ∧ (RxFrame.ofChars cs).source = a.source)

theorem witness_ReplyCompletes :
    (let cs := chars 0 5 0x09 [7]
     let a := { attempt .poll with buffer := [7] }
     replies station a cs ∧ (RxFrame.ofChars cs).control.extractLsb' 0 4 = 9 ∧
       (RxFrame.ofChars cs).control.getLsbD 4 = a.seq) ∧
    (let cs := chars 0 5 0x0A []
     replies { station with copy := some { poll with kind := 2 } } (attempt .put) cs ∧
       (RxFrame.ofChars cs).control.extractLsb' 0 4 = 10) := by decide +kernel

/-- A latency above the threshold is captured by an armed slot and raises TRAP, and is missed by one that has
captured; one at the threshold is neither, nor is any with the threshold 0. -/
theorem test_trapAfter :
    let e := fun (threshold : BitVec 16) (armed : Bool) =>
      (part .running fun e => { e with
        cfg := { e.cfg with trapThreshold := threshold }, trap := { e.trap with armed := armed } }).eng .A
    (e 3 true).trapAfter 5 4 = { (e 3 true).trap with armed := false, station := 5, latency := 4, cycle := 0 } ∧
      (e 3 true).trapCause 4 = [.raise .trap] ∧
      (e 3 false).trapAfter 5 4 = { (e 3 false).trap with missed := 1 } ∧ (e 3 false).trapCause 4 = [] ∧
      (e 4 true).trapAfter 5 4 = (e 4 true).trap ∧ (e 4 true).trapCause 4 = [] ∧
      (e 0 true).trapAfter 5 4 = (e 0 true).trap ∧ (e 0 true).trapCause 4 = [] := by decide +kernel

theorem witness_OtherReplies :
    (let cs := chars 0 5 0x19 [7]
     replies station { attempt .poll with buffer := [7] } cs ∧ station.copy = some poll ∧
       (RxFrame.ofChars cs).control.extractLsb' 0 4 = 9 ∧
       (RxFrame.ofChars cs).control.getLsbD 4 ≠ false) ∧
    (let cs := chars 0 5 0x0B []
     let held := fun c : Context => if c.recHolds = 255 then 255 else c.recHolds + 1
     (RxFrame.ofChars cs).control.extractLsb' 0 4 = 11 ∧
     (∀ k ∈ [AttemptKind.poll, AttemptKind.put, AttemptKind.probe], replies station (attempt k) cs) ∧
       held station ≠ poll.holdLimit ∧
     (let c := { station with recHolds := 1 }
      replies c (attempt .poll) cs ∧ c.copy = some poll ∧ poll.holdLimit ≠ 0 ∧ held c = poll.holdLimit)) ∧
    (let cs := chars 0 5 0x0D []
     replies station (attempt .probe) cs ∧ (RxFrame.ofChars cs).control.extractLsb' 0 4 = 13) ∧
    (let cs := chars 0 5 0x0C []
     replies station (attempt .poll) cs ∧ replies station (attempt .put) cs ∧
       (RxFrame.ofChars cs).control.extractLsb' 0 4 = 12) := by decide +kernel

/-- A relayed station behind the coupler 1, its record in the given phase. -/
def relayed (x : RecordPhase) (r : RecordCopy) : Context :=
  { station with binding := { station.binding with coupler := 1 }, copy := some r, phase := x
                 fresh := { station.fresh with collectDelay := 1, patience := 2 } }

/-- The hypotheses that the replies to a collect share; the coupler is station 1. -/
def collects (r : RecordCopy) (b : List Byte) : Bool :=
  let c := relayed .relayCollect r
  let a := { attempt .relayCollect with buffer := b, source := 6 }
  let cs := chars 0 6 0x09 b
  replies c a cs && decide (c.binding.coupler.toNat = (1 : StationIx).val ∧ c.copy = some r ∧
    (RxFrame.ofChars cs).control.extractLsb' 0 4 = 9 ∧
    3 ≤ b.length ∧ (byteAt b 2).toNat = b.length - 3 ∧ byteAt b 0 = c.binding.lineAddress ∧
    (byteAt b 1).extractLsb' 6 2 = 0)

theorem witness_CollectReply :
    (collects poll [5, 0x09, 1, 7] ∧ poll.kind = 1 ∧ (0x09 : Byte).extractLsb' 0 4 = 9 ∧
      (0x09 : Byte).getLsbD 4 = false) ∧
    (collects { poll with kind := 2 } [5, 0x0A, 0] ∧ (0x0A : Byte).extractLsb' 0 4 = 10) ∧
    (collects poll [5, 0x19, 0] ∧ (0x19 : Byte).getLsbD 4 ≠ false) ∧
    (collects poll [5, 0x0B, 0] ∧ (0x0B : Byte).extractLsb' 0 4 = 11 ∧ station.recHolds + 1 ≠ poll.holdLimit ∧
      collects { poll with holdLimit := 1 } [5, 0x0B, 0] ∧ station.recHolds + 1 = 1) ∧
    (collects poll [5, 0x0C, 0] ∧ (0x0C : Byte).extractLsb' 0 4 = 12) ∧
    (collects poll [5, 0x00, 0] ∧ (0x00 : Byte).extractLsb' 0 4 = 0 ∧ (0 : StationIx) ≠ 1 ∧
      station.failures.toNat + 1 < station.fresh.retryLimit.toNat) := by decide +kernel

/-- The wrong inner kinds, and a failure at the retry limit. -/
theorem witness_CollectReply_wrong :
    (collects poll [5, 0x0A, 0] ∧ poll.kind = 1 ∧ (0x0A : Byte).extractLsb' 0 4 = 10) ∧
    (collects { poll with kind := 2 } [5, 0x09, 1, 7] ∧ collects { poll with kind := 2 } [5, 0x09, 0] ∧
      (0x09 : Byte).extractLsb' 0 4 = 9) ∧
    (let c := { relayed .relayCollect poll with failures := 1 }
     replies c { attempt .relayCollect with buffer := [5, 0, 0], source := 6 } (chars 0 6 0x09 [5, 0, 0]) ∧
       c.fresh.retryLimit.toNat ≤ c.failures.toNat + 1) := by decide +kernel

/-- A relay entry of loop A for station 0 behind the coupler 1, claimed in cycle 0. -/
def entry (x : RelayPhase) : RelayEntry :=
  { loop := .A, coupler := 1, station := 0, record := 3, phase := x, startCycle := 0, waiting := 0 }

def withEntry (x : RelayPhase) (p : Part) : Part := { p with relays := p.relays.set 0 (some (entry x)) }

theorem witness_RelayReplies :
    let meets := fun (k : AttemptKind) (control kind : Byte) (r : RecordCopy) =>
      let cs := chars 0 6 control []
      let c := relayed (if k = .relayStart then .relayStart else .relayCollect) r
      replies c { attempt k with source := 6 } cs ∧ c.binding.coupler.toNat = (1 : StationIx).val ∧
        c.copy = some r ∧
        ((RxFrame.ofChars cs).control.extractLsb' 0 4).setWidth 8 = kind
    (meets .relayStart 0x0A 10 poll ∧ meets .relayStart 0x0B 11 poll ∧ station.recHolds + 1 ≠ poll.holdLimit ∧
      meets .relayStart 0x0B 11 { poll with holdLimit := 1 } ∧ meets .relayStart 0x0C 12 poll) ∧
    (meets .relayCollect 0x0B 11 poll ∧
      (let p := withEntry .collecting (answered (relayed .relayCollect poll) (attempt .relayCollect) [])
       p.relayOf 0 = some (entry .collecting) ∧ (p.eng .A).rep.cycleNumber = 0 ∧
         (p.ctx 0).fresh.patience.toNat = 2) ∧
      (0 - (0 : Word)).toNat < 2 ∧ 2 ≤ (2 - (0 : Word)).toNat) := by decide +kernel

theorem witness_RelayReplies_malformed :
    let a := { attempt .relayCollect with buffer := [5], source := 6 }
    let p := answered (relayed .relayCollect poll) a (chars 0 6 0x09 [5])
    replies (relayed .relayCollect poll) a (chars 0 6 0x09 [5]) ∧ ¬ 3 ≤ a.buffer.length ∧
      (Part.attemptFailed .A (p.modEng .A fun e =>
        { e with framer := { e.framer with receiver := .hunt } })).settled .A = true := by decide +kernel

/-- A loop in TEST whose test frame of two bytes is in flight. -/
def testing (mode : Byte) (change : Engine → Engine) : Part :=
  let q := part .test fun e => change
    { e with ctl := { e.ctl with validated := true }, cfg := { e.cfg with testMode := mode } }
  Part.tick 0 { q with testUnit := { q.testUnit with
    owner := some .A, status := .running, copy := [0, 2], sent := 1 } }

/-- The line of INTERNAL_RETURN at mark: a frame that breaks off with a test frame in flight and with none, the
receiver in DISCARD, and a frame held for an idle line. -/
theorem witness_LineAtMark_internal :
    let meets := fun (p : Part) (n : Nat) =>
      p.live = true ∧ (p.eng .A).framer.running = true ∧ (p.eng .A).framer.sending = none ∧ p.settled .A = true ∧
        (p.eng .A).ctl.state = .test ∧ (p.eng .A).ctl.validated = true ∧ (p.eng .A).cfg.testMode = 0 ∧
        (p.eng .A).framer.markSince + n * (p.eng .A).charTime ≤ p.now
    let broken := testing 0 (hearing [0xA5, 0])
    let resting := fun h : Option TxFrame =>
      testing 0 fun e => { e with framer := { e.framer with receiver := .discard, held := h } }
    (meets broken 2 ∧ (broken.eng .A).framer.receiver.collecting = true ∧ broken.testUnit.copy ≠ []) ∧
    (let p := { broken with testUnit := { broken.testUnit with copy := [] } }
     meets p 2 ∧ (p.eng .A).framer.receiver.collecting = true ∧ p.testUnit.copy = []) ∧
    ∀ h ∈ [none, some { request with purpose := .test }],
      meets (resting h) 4 ∧ ((resting h).eng .A).framer.receiver.collecting = false ∧
        ((resting h).eng .A).framer.held = h ∧ ((resting h).eng .A).xu.state = .idle := by decide +kernel

/-- The hypotheses that the statements of a test share. -/
abbrev tests (p : Part) : Prop :=
  p.live = true ∧ (p.eng .A).ctl.state = .test ∧ (p.eng .A).sched = [] ∧ (p.eng .A).cyc.turn = none

theorem witness_TestFrameReturned :
    (let cs := chars 0 9 0x00 [0, 2]
     let a := { attempt .test with station := none, source := 9, buffer := [0, 2] }
     let p := testing 1 fun e => hearing cs (awaiting .receiving a e)
     tests p ∧ (p.eng .A).framer.receiver = .frame cs ∧ frameComplete cs = true ∧ frameValid cs = true ∧
       (p.eng .A).internalReturn = false ∧ (p.eng .A).cfg.testMode = 1 ∧
       (p.eng .A).xu = { state := .receiving, attempt := some a } ∧ a.kind = .test ∧
       (RxFrame.ofChars cs).destination = 0 ∧ (RxFrame.ofChars cs).source = a.source ∧
       (RxFrame.ofChars cs).control.extractLsb' 0 4 = 0) ∧
    (let meets := fun cs : List Byte =>
       let p := testing 0 (hearing cs)
       tests p ∧ (p.eng .A).framer.receiver = .frame cs ∧ frameComplete cs = true ∧
         (p.eng .A).internalReturn = true ∧ (p.eng .A).xu = ExchangeUnit.idle ∧ p.testUnit.copy ≠ []
     (meets (chars 0 0 0x08 [0, 2]) ∧ frameValid (chars 0 0 0x08 [0, 2]) = true ∧
       (RxFrame.ofChars (chars 0 0 0x08 [0, 2])).control.extractLsb' 0 4 = 8) ∧
     (meets (chars 0 0 0x01 []) ∧ frameValid (chars 0 0 0x01 []) = true ∧
       (RxFrame.ofChars (chars 0 0 0x01 [])).control.extractLsb' 0 4 ≠ 8) ∧
     (meets [0xA5, 0, 0, 8, 0, 0, 0] ∧ frameValid [0xA5, 0, 0, 8, 0, 0, 0] = false)) := by decide +kernel

/-- A test of INTERNAL_RETURN: nothing being sent, and a frame fed whole; a valid and an invalid frame with none of
the test in flight. In STATION_ECHO a valid frame while the next test frame waits for an idle line. -/
theorem witness_TestFrameReturned_unawaited :
    let frame : TxFrame := { purpose := .test, destination := 0, control := 8, payload := [0, 2] }
    let internal := fun p : Part => (p.eng .A).ctl.state = .test ∧ (p.eng .A).ctl.validated = true ∧
      (p.eng .A).cfg.testMode = 0
    (internal (testing 0 id) ∧ ((testing 0 id).eng .A).framer.sending = none) ∧
    (let x : Sending := { frame := frame, start := 0, readBack := 9 }
     let p := testing 0 fun e => { e with framer := { e.framer with sending := some x } }
     internal p ∧ (p.eng .A).framer.sending = some x ∧ x.frame.chars.length ≤ x.readBack) ∧
    (∀ cs ∈ [chars 0 5 0x0F [], [0xA5, 0, 5, 0x0F, 0, 0, 0]],
      let q := testing 0 (hearing cs)
      let p := { q with testUnit := { q.testUnit with copy := [] } }
      internal p ∧ p.live = true ∧ p.settled .A = true ∧ (p.eng .A).framer.receiver = .frame cs ∧
        frameComplete cs = true ∧ p.testUnit.copy = []) ∧
    (frameValid (chars 0 5 0x0F []) = true ∧ frameValid [0xA5, 0, 5, 0x0F, 0, 0, 0] = false) ∧
    (let cs := chars 0 5 0x0F []
     let p := testing 1 fun e => hearing cs (awaiting .sending { attempt .test with station := none } e)
     heard p ∧ (p.eng .A).framer.receiver = .frame cs ∧ (p.eng .A).ctl.state = .test ∧
       (p.eng .A).xu.state ≠ .receiving ∧ (p.eng .A).xu.state ≠ .skipping) := by decide +kernel

theorem witness_TestFrameReturned_fed :
    let frame : TxFrame := { purpose := .test, destination := 0, control := 8, payload := [0, 2] }
    let meets := fun (r : Receiver) (n : Nat) =>
      let x : Sending := { frame := frame, start := 0, readBack := n }
      let p := testing 0 fun e => { e with framer := { e.framer with receiver := r, sending := some x } }
      tests p ∧ (p.eng .A).internalReturn = true ∧ (p.eng .A).framer.running = true ∧
        (p.eng .A).framer.sending = some x ∧ x.readBack < x.frame.chars.length ∧
        (p.eng .A).xu = ExchangeUnit.idle ∧ (p.eng .A).framer.receiver = r
    (meets .hunt 0 ∧ byteAt frame.chars 0 = 0xA5) ∧
    (meets (.frame [0xA5, 0, 0]) 3 ∧ frameComplete [0xA5, 0, 0] = false) ∧
    (meets (.frame [0xA5, 0, 0, 8]) 4 ∧ (byteAt frame.chars 4).toNat ≤ 96) ∧ meets .discard 8 := by
  decide +kernel

theorem witness_AttemptFailure :
    (let a := { attempt .test with station := none }
     let p := testing 1 (awaiting .awaiting a)
     (p.eng .A).xu.attempt = some a ∧ (p.eng .A).ctl.state = .test ∧ (p.eng .A).cfg.testMode = 1) ∧
    (∀ second ∈ [true, false],
      let p := part .rollcall fun e => { awaiting .awaiting (attempt .roll) e with rollSecond := second }
      (p.eng .A).xu.attempt = some (attempt .roll) ∧ (attempt .roll).station = some 0 ∧
        (p.eng .A).rollSecond = second) ∧
    (∀ k ∈ [AttemptKind.poll, AttemptKind.put, AttemptKind.probe, AttemptKind.relayStart,
        AttemptKind.relayCollect],
      let p := fun n : Byte => withEntry .collecting (withStation 0
        { relayed .relayCollect poll with failures := n } (part .running (awaiting .awaiting (attempt k))))
      (attempt k).station = some 0 ∧ (attempt k).kind ≠ .test ∧ (attempt k).kind ≠ .roll ∧
        ((p 0).ctx 0).failures.toNat + 1 < ((p 0).ctx 0).fresh.retryLimit.toNat ∧
        ((p 1).ctx 0).fresh.retryLimit.toNat ≤ ((p 1).ctx 0).failures.toNat + 1 ∧
        ((p 0).ctx 0).inHand = some 3 ∧ (p 0).relayOf 0 = some (entry .collecting) ∧
        (((p 0).eng .A).rep.cycleNumber - 0).toNat < ((p 0).ctx 0).fresh.patience.toNat ∧
        ((p 0).ctx 0).fresh.patience.toNat ≤ (2 - (0 : Word)).toNat) := by decide +kernel

/-- An overlong reply: of a test frame and a ROLL, of a direct station, and of a coupler. -/
theorem witness_AttemptFailure_overlong :
    (∀ k ∈ [AttemptKind.test, .roll], ((attempting .skipping (attempt k) id).eng .A).xu.attempt =
      some (attempt k) ∧ (attempt k).kind = k) ∧
    (∀ k ∈ [AttemptKind.poll, .put, .probe, .relayStart, .relayCollect],
      let p := attempting .skipping (attempt k) id
      (p.eng .A).xu.attempt = some (attempt k) ∧ (attempt k).station = some 0 ∧ k ≠ .test ∧ k ≠ .roll ∧
        (attempt k).latency = some 4 ∧ (4 : BitVec 16).toNat < 65535 ∧
        (p.ctx 0).inHand = some 3) ∧
    (relayed .relayCollect poll).binding.coupler.toNat = (1 : StationIx).val := by decide +kernel

theorem witness_ReplyTimeout :
    let meets := fun (p : Part) (a : Attempt) =>
      p.live = true ∧ (p.eng .A).xu = { state := .awaiting, attempt := some a } ∧
        a.endOfFrame + a.timeout ≤ p.now ∧ a.timeoutPassed = false ∧ a.station = some 0 ∧
        p.settled .A = true ∧ (p.eng .A).framer.receiver = .hunt ∧ (p.eng .A).sched = []
    (∀ k ∈ [AttemptKind.poll, AttemptKind.put, AttemptKind.probe],
      let p := (withStation 0 station (part .running (awaiting .awaiting (attempt k)))).tick 0
      meets p (attempt k) ∧ (p.ctx 0).failures.toNat + 1 < (p.ctx 0).fresh.retryLimit.toNat) ∧
    (let a := { attempt .poll with endOfFrame := late - 2500 }
     let p := (withStation 0 { station with failures := 1 } (part .running (awaiting .awaiting a))).tick 0
     meets p a ∧ a.endOfFrame + a.timeout = p.now ∧
       (p.ctx 0).failures.toNat + 1 = (p.ctx 0).fresh.retryLimit.toNat ∧
       (p.ctx 0).inHand = some 3) := by decide +kernel

/-- Every kind of attempt fails at its timeout: here a ROLL, a collect and a test frame. -/
theorem witness_ReplyTimeout_failure :
    let meets := fun (p : Part) (a : Attempt) =>
      p.live = true ∧ (p.eng .A).xu = { state := .awaiting, attempt := some a } ∧
        a.endOfFrame + a.timeout ≤ p.now ∧ a.timeoutPassed = false ∧ (p.attemptFailed .A).settled .A = true
    meets ((part .rollcall fun e =>
        { awaiting .awaiting (attempt .roll) e with rollList := [0] }).tick 0) (attempt .roll) ∧
      meets ((withStation 0 (relayed .relayCollect poll)
        (part .running (awaiting .awaiting (attempt .relayCollect)))).tick 0) (attempt .relayCollect) ∧
      (let a := { attempt .test with station := none }
       meets (testing 1 (awaiting .awaiting a)) a) := by decide +kernel

/-- A wake STARTING whose validation is done and which waits for the end of the keepalive. -/
def awaitingKeepalive : Part :=
  Part.tick 0 (part .starting fun e =>
    { e with
      framer := { e.framer with sending := some (sending .keepalive) }
      ctl := { e.ctl with state := .starting, startFromOff := false, validated := true }
      sched := [.awaitTransmitter, .startLatch, .mark, .startResets, .writeLoopHalf, .mark]
        ++ (allStations.map .readStationHost ++ allStations.map .judge ++ [.mark, .startNext]) })

/-- The keepalive that a wake STARTING waits for: it ends, or it collides. -/
theorem witness_EndOfFrame_starting :
    let p := awaitingKeepalive
    p.live = true ∧ (p.eng .A).internalReturn = false ∧ (p.eng .A).framer.sending = some (sending .keepalive) ∧
      (sending .keepalive).frame.purpose = .keepalive ∧
      (sending .keepalive).start + (7 + (sending .keepalive).frame.payload.length) * (p.eng .A).charTime ≤ p.now ∧
      (p.eng .A).ctl.state = .starting ∧ (p.eng .A).ctl.startFromOff = false ∧
      (p.eng .A).ctl.validated = true ∧
      (p.eng .A).sched = [.awaitTransmitter, .startLatch, .mark, .startResets, .writeLoopHalf, .mark]
        ++ (allStations.map .readStationHost ++ allStations.map .judge ++ [.mark, .startNext]) := by
  decide +kernel

/-- A beacon that ends or collides with the next boundary marked, and with a ROLLCALL waiting and no station to
list. -/
theorem witness_EndOfFrame_givenUp :
    let sent := fun (marked : Option Nat) (request : Bool) => Part.tick 0 (part .running fun e =>
      { e with
        framer := { e.framer with sending := some (sending .beacon) }
        ctl := { e.ctl with state := .running, rollRequest := request }
        cyc := { e.cyc with phase := .beacon, marked := marked } })
    ∀ marked ∈ [none, some late], ∀ request ∈ [true, false],
      let p := sent marked request
      p.live = true ∧ (p.eng .A).internalReturn = false ∧ (p.eng .A).framer.sending = some (sending .beacon) ∧
        (sending .beacon).start + (7 + (sending .beacon).frame.payload.length) * (p.eng .A).charTime ≤ p.now ∧
        (p.eng .A).ctl.state = .running ∧ (p.eng .A).ctl.rollRequest = request ∧
        (p.eng .A).cyc.phase = .beacon ∧ (p.eng .A).cyc.marked = marked ∧ (p.eng .A).cyc.turn = none ∧
        (p.eng .A).sched = [] ∧ p.atTransfer .A = true ∧ p.rollCandidates .A = [] := by decide +kernel

theorem witness_Collision :
    let meets := fun (p : Part) (x : Sending) =>
      p.live = true ∧ (p.eng .A).internalReturn = false ∧ (p.eng .A).framer.sending = some x
    let driving := fun (x : Sending) (e : Engine) => { e with framer := { e.framer with sending := some x } }
    (let p := (part .quiet (driving (sending .keepalive))).tick 0
     meets p (sending .keepalive) ∧ p.settled .A = true ∧ p.atTransfer .A = true) ∧
    (let p := (part .running (driving (sending .beacon))).tick 0
     meets p (sending .beacon) ∧ p.atTransfer .A = true ∧ (p.eng .A).cyc.turn = none ∧
       (p.eng .A).ctl.rollRequest = false) ∧
    (∀ k ∈ [AttemptKind.poll, AttemptKind.put, AttemptKind.probe],
      let p := (withStation 0 station
        (part .running fun e => awaiting .sending (attempt k) (driving (sending .request) e))).tick 0
      meets p (sending .request) ∧ (p.eng .A).xu = { state := .sending, attempt := some (attempt k) } ∧
        (attempt k).station = some 0 ∧ (p.eng .A).sched = [] ∧
        (p.ctx 0).failures.toNat + 1 < (p.ctx 0).fresh.retryLimit.toNat) := by decide +kernel

theorem witness_Collision_test :
    let x := sending .test
    let a := { attempt .test with station := none }
    let p := testing 1 fun e => awaiting .sending a { e with framer := { e.framer with sending := some x } }
    p.live = true ∧ (p.eng .A).internalReturn = false ∧ (p.eng .A).framer.sending = some x ∧
      (Part.attemptFailed .A (p.modEng .A fun e => Engine.countFrameError
        { e with
          framer := { e.framer with sending := none, receiver := .discard, activity := some p.now
                                    markSince := p.now }
          mon := { e.mon with collisions := satInc e.mon.collisions } })).settled .A = true := by decide +kernel

theorem witness_EndOfFrame :
    let meets := fun (p : Part) (x : Sending) =>
      p.live = true ∧ (p.eng .A).internalReturn = false ∧ (p.eng .A).framer.sending = some x ∧
        x.start + (7 + x.frame.payload.length) * (p.eng .A).charTime ≤ p.now ∧ p.atTransfer .A = true ∧
        (p.eng .A).ctl.rollRequest = false
    let driving := fun (x : Sending) (e : Engine) => { e with framer := { e.framer with sending := some x } }
    (let p := (part .running fun e =>
       awaiting .sending (attempt .poll) (driving (sending .request) e)).tick 0
     meets p (sending .request) ∧
       (p.eng .A).xu = { state := .sending, attempt := some (attempt .poll) }) ∧
    meets ((part .quiet (driving (sending .keepalive))).tick 0) (sending .keepalive) ∧
    (let p := (part .running fun e =>
       { driving (sending .beacon) e with cyc := { e.cyc with phase := .beacon } }).tick 0
     meets p (sending .beacon) ∧ (p.eng .A).ctl.state = .running ∧ (p.eng .A).cyc.phase = .beacon ∧
       (p.eng .A).cyc.marked = none ∧ (p.eng .A).cyc.turn = none) ∧
    (let x := { sending .test with readBack := 9 }
     let p := testing 0 (driving x)
     p.live = true ∧ (p.eng .A).framer.sending = some x ∧ p.atTransfer .A = true ∧
       (p.eng .A).ctl.rollRequest = false ∧ (p.eng .A).internalReturn = true ∧
       (p.eng .A).xu = ExchangeUnit.idle ∧ x.frame.chars.length ≤ x.readBack ∧
       x.start + (7 + x.frame.payload.length) * (p.eng .A).charTime ≤ p.now) := by decide +kernel

/-- The end of a beacon with a ROLLCALL waiting, of a request with one waiting behind its turn, and of a test
frame on the line. -/
theorem witness_EndOfFrame_waiting :
    let meets := fun (p : Part) (x : Sending) =>
      p.live = true ∧ (p.eng .A).framer.sending = some x ∧
        x.start + (7 + x.frame.payload.length) * (p.eng .A).charTime ≤ p.now ∧ p.atTransfer .A = true
    let driving := fun (x : Sending) (e : Engine) => { e with framer := { e.framer with sending := some x } }
    (let p := (withStation 0 station (part .running fun e =>
       { driving (sending .beacon) e with
         ctl := { e.ctl with state := .running, rollRequest := true }
         cyc := { e.cyc with phase := .beacon } })).tick 0
     meets p (sending .beacon) ∧ (p.eng .A).ctl.state = .running ∧ (p.eng .A).ctl.rollRequest = true ∧
       (p.eng .A).cyc.phase = .beacon ∧ (p.eng .A).cyc.turn = none ∧ (p.eng .A).sched = [] ∧
       (allStations.filter fun i =>
         (p.ctx i).owner = some .A ∧ (p.ctx i).binding.coupler = 0xFF ∧
           ((p.ctx i).state = .ready ∨ (p.ctx i).state = .active ∨ (p.ctx i).state = .silent ∨
             (p.ctx i).state = .absent)) ≠ []) ∧
    (let turn : Turn := { station := 0, periodic := true, stage := .attempt, attempted := true, closing := false }
     let p := (part .running fun e =>
       { awaiting .sending (attempt .poll) (driving (sending .request) e) with
         ctl := { e.ctl with state := .running, rollRequest := true }
         cyc := { e.cyc with turn := some turn } }).tick 0
     meets p (sending .request) ∧ (p.eng .A).cyc.turn.isSome = true ∧
       (p.eng .A).xu = { state := .sending, attempt := some (attempt .poll) }) ∧
    (let a := { attempt .test with station := none }
     let p := testing 1 fun e => awaiting .sending a (driving (sending .test) e)
     meets p (sending .test) ∧ (p.eng .A).internalReturn = false ∧ (p.eng .A).ctl.rollRequest = false ∧
       (p.eng .A).xu = { state := .sending, attempt := some a }) := by decide +kernel

theorem witness_Boundary :
    (let p := (part .running fun e => { e with cyc := { e.cyc with nextGrid := some late } }).tick 0
     p.live = true ∧ (p.eng .A).ctl.state = .running ∧ (p.eng .A).cyc.nextGrid = some late ∧
       late ≤ p.now) ∧
    (∀ x ∈ [CyclePhase.boundary, CyclePhase.beacon, CyclePhase.periodic, CyclePhase.aperiodic,
        CyclePhase.closed],
      let p := (part .running fun e => { e with cyc := { e.cyc with phase := x } }).tick 0
      p.live = true ∧ (p.eng .A).ctl.state = .running ∧ (p.eng .A).cfg.announceWindow ≠ 0 ∧
        (p.eng .A).cyc.boundaryAt + (p.eng .A).cfg.cycleLength.toNat * 2500
          - (p.eng .A).cfg.announceWindow.toNat * 2500 ≤ p.now ∧
        (p.eng .A).cyc.phase = x ∧ x ≠ .none) ∧
    (let p := (part .running fun e => { e with cyc := { e.cyc with marked := some late } }).tick 0
     p.live = true ∧ (p.eng .A).ctl.state = .running ∧ (p.eng .A).cyc.marked = some late ∧
       (p.eng .A).cyc.turn = none ∧ (p.eng .A).ctl.rollRequest = false ∧
       (p.eng .A).cyc.phase ≠ .boundary ∧ (p.eng .A).isSending .beacon = false ∧
       p.atTransfer .A = true) := by decide +kernel

/-- The hypotheses that the statements of a turn share. -/
abbrev turns (p : Part) : Prop :=
  p.live = true ∧ (p.eng .A).ctl.state = .running ∧ (p.eng .A).cyc.marked = none ∧
    (p.eng .A).ctl.rollRequest = false ∧ (p.eng .A).cyc.turn = none ∧ (p.eng .A).sched = [] ∧
    (p.eng .A).xu.state = .idle

/-- The announce window bars no turn: it has not started, or the beacon ended after its start. -/
abbrev unbarred (p : Part) : Prop :=
  (p.eng .A).cyc.announceStarted = false ∨
    (p.eng .A).cyc.boundaryAt + (p.eng .A).cfg.cycleLength.toNat * 2500
      - (p.eng .A).cfg.announceWindow.toNat * 2500 ≤ (p.eng .A).cyc.beaconEnd

theorem witness_unbarred :
    let p := fun (started : Bool) (beacon : Nat) => part .running fun e => { e with cyc := { e.cyc with
      announceStarted := started, boundaryAt := late, beaconEnd := late + beacon } }
    unbarred (p false 0) ∧ unbarred (p true 2250000) ∧ ¬ unbarred (p true 2249999) := by decide +kernel

/-- The next turn is that of station `i`, due in the periodic window behind `skipped`, which the loop does not serve. -/
def due (p : Part) (skipped : List StationIx) (i : StationIx) (rest : List StationIx) : Bool :=
  decide (turns p ∧ (p.eng .A).cyc.phase = .periodic ∧ unbarred p ∧ p.serves .A i ∧
    (p.eng .A).cyc.dueSet = skipped ++ i :: rest ∧ ∀ j ∈ skipped, ¬ p.serves .A j)

/-- Station `j` is a candidate of the aperiodic window. -/
abbrev candidate (p : Part) (j : StationIx) : Prop := p.serves .A j ∧ (p.ctx j).binding.cls = .aperiodic

/-- The next turn is that of the candidate `i` of the aperiodic window, which is open or follows on a periodic one. -/
def chosen (p : Part) (i : StationIx) (rest : List StationIx) : Bool :=
  decide (turns p ∧ (p.eng .A).cyc.announceStarted = false ∧ (p.eng .A).cyc.dueSet = rest ∧ candidate p i ∧
    (((p.eng .A).cyc.phase = .aperiodic ∧ ∃ j, candidate p j ∧ j ∉ (p.eng .A).cyc.visited) ∨
      ((p.eng .A).cyc.phase = .periodic ∧ ∀ j ∈ rest, ¬ p.serves .A j)) ∧
    (((p.eng .A).cyc.pointer ≤ i ∧ ∀ j, candidate p j → j < i → j < (p.eng .A).cyc.pointer) ∨
      ∀ j, candidate p j → j < (p.eng .A).cyc.pointer ∧ i ≤ j))

theorem picks_of_due {p : Part} {skipped rest : List StationIx} {i : StationIx} (h : due p skipped i rest) :
    p.picks .A i true rest :=
  have ⟨⟨h1, h2, h3, h4, h5, h6, h7⟩, h8, h9, h10, h11⟩ := of_decide_eq_true h
  ⟨h1, h2, h3, h4, h5, h6, h7, fun _ => ⟨h8, h9, h10, skipped, h11⟩, nofun⟩

theorem picks_of_chosen {p : Part} {rest : List StationIx} {i : StationIx} (h : chosen p i rest) :
    p.picks .A i false rest :=
  have ⟨⟨h1, h2, h3, h4, h5, h6, h7⟩, h8⟩ := of_decide_eq_true h
  ⟨h1, h2, h3, h4, h5, h6, h7, nofun, fun _ => h8⟩

/-- A station that the next turn picks comes to its fit test by that turn. -/
theorem comesToFit_of_picks {p : Part} {rest : List StationIx} {i : StationIx} {periodic : Bool}
    (h : p.picks .A i periodic rest) :
    (stateOf p).comesToFit .A i (Turn.begun i periodic) (.turn 0 .A) (p.turnBegun .A i periodic rest) [] :=
  .inl ⟨0, rest, rfl, rfl, h, rfl, rfl⟩

/-- The part-half write after the take of the good record `r` by station `i` is in progress. -/
def taken (p : Part) (i : StationIx) (turn : Turn) (r : RecordCopy) : Bool :=
  decide (p.live = true ∧
    p.port.inFlight =
      some { requester := .sched .A, action := .write 0x110 [], urgent := false, orphan := false } ∧
    (p.eng .A).sched = [.writeStationHalf i, .takeCheck i] ∧ (p.eng .A).cyc.turn = some turn ∧
    (p.ctx i).copy = some r ∧ r.good ((p.ctx i).binding.coupler ≠ 0xFF))

/-- The part after the end of that write. -/
def freed (p : Part) : Part :=
  Part.modEng .A (fun e => { e with sched := [] }) { p with port := { p.port with inFlight := none } }

/-- A good record comes to its fit test by the end of the write after its take. -/
theorem comesToFit_of_taken {p : Part} {i : StationIx} {turn : Turn} {r : RecordCopy} (h : taken p i turn r) :
    (stateOf p).comesToFit .A i turn (.transferComplete 0 []) (freed p) [] :=
  have ⟨h1, h2, h3, h4, h5, h6⟩ := of_decide_eq_true h
  .inr ⟨0, [], _, r, rfl, h2, rfl, h1, rfl, rfl, rfl, h3, h4, h5, h6, rfl⟩

/-- What the clauses of an attempt ask of the part `b` at the fit test of station `i` with the record `r`. -/
def attempts (b : Part) (i : StationIx) (r : RecordCopy) : Bool :=
  decide ((b.eng .A).ctl.state = .running ∧ (b.eng .A).cyc.marked = none ∧ (b.eng .A).ctl.rollRequest = false ∧
    (b.ctx i).inHand = some 3 ∧ (b.ctx i).copy = some r)

/-- The periodic window of a cycle that began at `since`, with station 0 due and holding `c`, behind `skipped`; station
9 is SILENT. -/
def periodic (skipped : List StationIx) (since : Nat) (c : Context) : Part :=
  (withStation 0 c (withStation 9 { station with state := .silent, inHand := none, copy := none }
    (part .running fun e => { e with cyc := { e.cyc with
      phase := .periodic, dueSet := skipped ++ [0], boundaryAt := since, beaconEnd := since } }))).tick 0

/-- The due stations that are skipped: none, or one that no loop has and one that is SILENT. -/
def skips : List (List StationIx) := [[], [7, 9]]

/-- The estimate of the small states' POLL: 28 C and 100 µs. -/
def estimate : Nat := (7 + 2 + 7 + 8 + 4) * Config.charTime 3 + 1 * 2500

/-- The periodic window ends 40 ms after the beacon. -/
theorem witness_TurnFitTest :
    let edge := late - 400 * 2500 + estimate
    (∀ skipped ∈ skips, ∀ since ∈ [late, edge, edge - 1, 0], ∀ strict ∈ [true, false],
      let r := { poll with strict := strict }
      let p := periodic skipped since { station with copy := some r }
      let b := p.turnBegun .A 0 true []
      due p skipped 0 [] ∧ attempts b 0 r ∧ (b.ctx 0).binding.coupler = 0xFF ∧
        (b.eng .A).cyc.beaconEnd = since) ∧
    (late + estimate ≤ edge + 400 * 2500 ∧ edge - 1 + 400 * 2500 < late + estimate) := by decide +kernel

/-- The aperiodic window of a cycle that began at `since`, its pointer at `pointer`, with station 5 its one
candidate, holding `c`. -/
def aperiodic (since : Nat) (pointer : StationIx) (change : CycleScheduler → CycleScheduler) (c : Context) :
    Part :=
  (withStation 5 { c with binding := { c.binding with cls := .aperiodic } } (part .running fun e =>
    { e with cyc := change { e.cyc with phase := .aperiodic, pointer := pointer, boundaryAt := since } })).tick 0

/-- The pointer at station 5, below it, and above it, so that the turn goes round to the first candidate; the
window wide enough, and not; open already, or opened by this turn after a periodic one with nobody left to serve. -/
theorem witness_TurnFitTest_aperiodic :
    let after := fun c : CycleScheduler => { c with phase := .periodic, dueSet := [7] }
    (∀ pointer ∈ [(0 : StationIx), 5, 6, 63], ∀ since ∈ [late, 0], ∀ follows ∈ [true, false],
      let p := aperiodic since pointer (if follows then after else id) station
      let rest := if follows then [7] else []
      let b := p.turnBegun .A 5 false rest
      chosen p 5 rest ∧ attempts b 5 poll ∧ (b.ctx 5).binding.coupler = 0xFF) ∧
    late + estimate ≤ late + 1000 * 2500 - 100 * 2500 ∧ 0 + 1000 * 2500 - 100 * 2500 < late + estimate := by
  decide +kernel

/-- A turn of station 0 under way. -/
def underWay (periodic : Bool) : Turn :=
  { station := 0, periodic := periodic, stage := .fetch, attempted := false, closing := false }

/-- Station 0, holding `c`, in its turn with the procedure `ops` and its first transfer in progress. -/
def inTurn (c : Context) (ops : List SchedOp) (a : BusAction) (change : Engine → Engine) : Part :=
  Part.tick 0 (withStation 0 c (moving (.sched .A) a false (part .running fun e =>
    change { e with sched := ops, cyc := { e.cyc with phase := .periodic, turn := some (underWay true) } })))

/-- The take of a good record, in either window, before it ends; and with the loop gone over to DRAINING, the next
boundary marked or a ROLLCALL waiting, where no attempt follows. -/
theorem witness_TurnFitTest_taken :
    let takes := fun (r : RecordCopy) (change : Engine → Engine) =>
      inTurn { station with copy := some r } [.writeStationHalf 0, .takeCheck 0] (.write 0x110 []) change
    let inWindow := fun (periodic : Bool) (since : Nat) (e : Engine) =>
      { e with cyc := { e.cyc with boundaryAt := since, beaconEnd := since, turn := some (underWay periodic) } }
    (∀ r ∈ [{ poll with requestLength := 8 }, { poll with kind := 2, requestLength := 96 },
        { poll with kind := 2, requestLength := 1, strict := true }],
      ∀ window ∈ [true, false], ∀ since ∈ [late, 0],
      let p := takes r (inWindow window since)
      taken p 0 (underWay window) r ∧ attempts (freed p) 0 r ∧ ((freed p).ctx 0).binding.coupler = 0xFF) ∧
    (∀ change ∈ [fun e : Engine => { e with ctl := { e.ctl with state := .draining } },
        fun e : Engine => { e with ctl := { e.ctl with rollRequest := true } },
        fun e : Engine => { e with cyc := { e.cyc with marked := some late } }],
      let p := takes poll change
      taken p 0 (underWay true) poll ∧
        (((freed p).eng .A).ctl.state ≠ .running ∨ ((freed p).eng .A).cyc.marked.isSome = true ∨
          ((freed p).eng .A).ctl.rollRequest = true)) := by decide +kernel

/-- A direct station, which a relayed one has for its coupler where it is the station that is named there. -/
def direct : Context := { station with inHand := none, copy := none, phase := .none, state := .ready }

/-- A turn of a relayed station behind the coupler station 1, which holds `c`. -/
def relayTurn (skipped : List StationIx) (since : Nat) (c : Context) (x : RecordPhase) (r : RecordCopy) : Part :=
  withStation 1 c (periodic skipped since (relayed x r))

/-- The couplers of the turns: not admitted, claimed or not, and the table full; the delay over or not; the
window wide enough or not, with STRICT and without. -/
theorem witness_RelayTurn :
    let meets := fun (c : Context) (x : RecordPhase) (r : RecordCopy) (skipped : List StationIx) (since : Nat) =>
      let p := relayTurn skipped since c x r
      let b := p.turnBegun .A 0 true []
      due p skipped 0 [] ∧ attempts b 0 r ∧ (b.ctx 0).binding.coupler.toNat = (1 : StationIx).val ∧
        (b.ctx 1).owner = c.owner ∧ (b.ctx 1).state = c.state
    let claimed := fun p : Part => ∃ n : Fin 8, p.relays[n] = some (entry .starting)
    (∀ c ∈ [Context.reset, direct], ∀ x ∈ [RecordPhase.relayStart, RecordPhase.relayCollect],
      ∀ strict ∈ [true, false], ∀ skipped ∈ skips, ∀ since ∈ [late, 0],
      meets c x { poll with strict := strict } skipped since) ∧
    (Context.reset.owner = none ∧ direct.owner = some .A ∧ direct.state = .ready) ∧
    (let p := relayTurn [] late direct .relayStart poll
     ¬ claimed p ∧ claimed (withEntry .starting p) ∧ p.relays[(0 : Fin 8)] = none ∧
       (∀ n : Fin 8, (Vector.replicate 8 (some (entry .starting)))[n] ≠ none)) ∧
    (let p := withEntry .collecting (relayTurn [] late direct .relayCollect poll)
     p.relayOf 0 = some (entry .collecting) ∧
       ((p.eng .A).rep.cycleNumber - 0).toNat < (p.ctx 0).fresh.collectDelay.toNat ∧
       (p.ctx 0).fresh.collectDelay.toNat ≤ (1 - (0 : Word)).toNat) ∧
    (let estimate := (7 + 5 + 7 + 0 + 4) * Config.charTime 3 + 1 * 2500
     late + estimate ≤ late + 400 * 2500 ∧ 0 + 400 * 2500 < late + estimate) := by decide +kernel

/-- The aperiodic window, its candidate station 5 relayed behind the coupler 1: the coupler admitted or not, its
entry to claim or held by another, the window wide enough or not. -/
theorem witness_RelayTurn_aperiodic :
    let window := fun (since : Nat) (c : Context) (x : RecordPhase) =>
      withStation 1 c (aperiodic since 5 id (relayed x poll))
    let meets := fun p : Part =>
      let b := p.turnBegun .A 5 false []
      chosen p 5 [] ∧ attempts b 5 poll ∧ (b.ctx 5).binding.coupler.toNat = (1 : StationIx).val
    (∀ x ∈ [RecordPhase.relayStart, .relayCollect], ∀ since ∈ [late, 0], ∀ c ∈ [direct, Context.reset],
      meets (window since c x)) ∧
    (((window late direct .relayStart).ctx 1).owner = some .A ∧
      ((window late direct .relayStart).ctx 1).state = .ready ∧
      ((window late Context.reset .relayStart).ctx 1).owner = none) ∧
    (let p := window late direct .relayStart
     p.relays[(0 : Fin 8)] = none ∧ (withEntry .starting p).relays[(0 : Fin 8)] = some (entry .starting)) ∧
    (let estimate := (7 + 5 + 7 + 0 + 4) * Config.charTime 3 + 1 * 2500
     late + estimate ≤ late + 1000 * 2500 - 100 * 2500 ∧ 0 + 1000 * 2500 - 100 * 2500 < late + estimate) := by
  decide +kernel

/-- The take of a good record of 93 bytes by a relayed station. -/
theorem witness_RelayTurn_taken :
    let r := { poll with kind := 2, requestLength := 93 }
    let p := withStation 1 direct
      (inTurn (relayed .first r) [.writeStationHalf 0, .takeCheck 0] (.write 0x110 []) id)
    taken p 0 (underWay true) r ∧ attempts (freed p) 0 r ∧
      ((freed p).ctx 0).binding.coupler.toNat = (1 : StationIx).val := by decide +kernel

theorem witness_TurnFetch_periodic :
    let meets := fun (c : Context) (skipped : List StationIx) =>
      let p := periodic skipped late c
      due p skipped 0 [] ∧ (p.ctx 0).inHand = none
    (∀ skipped ∈ skips,
      meets { direct with parked := some 2 } skipped ∧
      meets { direct with fresh := { direct.fresh with chainHead := 15 } } skipped ∧
      meets { direct with fresh := { direct.fresh with chainHead := 16 } } skipped) ∧
    (15 : RecordIx).toNat < (((periodic [] late direct).eng .A).poolSize).toNat ∧
    ((16 : RecordIx) ≠ 1023 ∧
      (((periodic [] late direct).eng .A).poolSize).toNat ≤ (16 : RecordIx).toNat) := by decide +kernel

theorem witness_TurnFetch_aperiodic :
    let c := { direct with parked := some 2, binding := { direct.binding with cls := .aperiodic } }
    let p := (withStation 63 c (part .running fun e => { e with cyc := { e.cyc with
      phase := .aperiodic, pointer := 63 } })).tick 0
    chosen p 63 [] ∧ (p.ctx 63).inHand = none ∧ (p.ctx 63).parked.isSome = true := by decide +kernel

/-- Station 0 or 5 with an END head and no record in hand. -/
def workless : Context := { direct with fresh := { direct.fresh with chainHead := 1023 } }

/-- An END head in either window. -/
theorem witness_TurnFetch_end :
    let meets := fun (p : Part) (i : StationIx) =>
      (p.ctx i).inHand = none ∧ (p.ctx i).parked = none ∧ (p.ctx i).fresh.chainHead = 1023
    (∀ skipped ∈ skips, due (periodic skipped late workless) skipped 0 [] ∧
      meets (periodic skipped late workless) 0) ∧
    (chosen (aperiodic late 6 id workless) 5 [] ∧ meets (aperiodic late 6 id workless) 5) := by decide +kernel

/-- The aperiodic window with its end begun, and with its round made. -/
theorem witness_TurnFetch_closes :
    (let p := aperiodic late 0 (fun c => { c with announceStarted := true }) workless
     turns p ∧ (p.eng .A).cyc.phase = .aperiodic ∧ (p.eng .A).cyc.announceStarted = true) ∧
    (let p := aperiodic late 0 (fun c => { c with visited := [5] }) workless
     turns p ∧ (p.eng .A).cyc.phase = .aperiodic ∧
       ∀ j, candidate p j → j ∈ (p.eng .A).cyc.visited) := by decide +kernel

/-- The read of a RETIME, with a ROLLCALL waiting for the boundary's work and with none. -/
theorem witness_BoundaryReport :
    let ops : List SchedOp := [.readLoopHost .retiming, .mark, .cycleStep, .reportStep, .writeLoopHalf]
      ++ [.raiseRetimeRefused]
    ∀ waits ∈ [true, false],
    let s := stateOf (moving (.sched .A) (.read 0x40 32) false (part .running fun e =>
      { e with sched := ops, ctl := { e.ctl with rollRequest := waits }
               cyc := { e.cyc with phase := .boundary } }))
    let p := s.part.tick 0
    p.live = true ∧ (p.eng .A).ctl.state = .running ∧ (p.eng .A).ctl.rollRequest = waits ∧
      (p.eng .A).cyc.phase = .boundary ∧ (p.eng .A).sched = ops ∧
      s.part.port.inFlight =
        some { requester := .sched .A, action := .read 0x40 32, urgent := false, orphan := false } := by
  decide +kernel

/-- The last judgement of a boundary's scan, with nothing to write, and its last write; a RETIME pending, with a
ROLLCALL waiting, and none. -/
theorem witness_BoundaryReport_ordinary :
    let counting : List SchedOp := [.mark, .cycleStep, .reportStep, .writeLoopHalf]
      ++ [.raiseRetimeRefused, .mark, .beaconStep]
    let goes := fun (op : SchedOp) (acts : List SchedOp) (a : BusAction) (pending : Bool) =>
      let ops := op :: acts ++ .retimeStep :: counting
      let s := stateOf (moving (.sched .A) a false (part .running fun e =>
        { e with sched := ops, cyc := { e.cyc with phase := .boundary }
                 ctl := { e.ctl with state := .running, retimePending := pending, rollRequest := pending } }))
      let p := s.part.tick 0
      p.live = true ∧ (p.eng .A).ctl.state = .running ∧
        ((p.eng .A).ctl.rollRequest = false ∨ (p.eng .A).cyc.phase = .boundary) ∧
        (p.eng .A).sched = ops ∧ acts.length ≤ 100 ∧ (p.eng .A).ctl.retimePending = pending ∧
        s.part.port.inFlight = some { requester := .sched .A, action := a, urgent := false, orphan := false } ∧
        (p.goesOn .A op [] acts (.retimeStep :: counting)).isSome = true
    ∀ pending ∈ [true, false],
      goes (.readStationHost 63) (allStations.map .judge ++ [.mark]) (.read 0x8E0 16) pending ∧
        goes (.writeStationHalf 63) [.mark] (.write 0x8F0 []) pending := by decide +kernel

theorem witness_BoundaryReport_draining :
    let s := stateOf (moving (.sched .A) (.read 0x40 32) false (part .draining fun e =>
      { e with sched := [.readLoopHost .retiming, .mark] }))
    let p := s.part.tick 0
    p.live = true ∧ (p.eng .A).ctl.state = .draining ∧ (p.eng .A).sched = [.readLoopHost .retiming, .mark] ∧
      s.part.port.inFlight =
        some { requester := .sched .A, action := .read 0x40 32, urgent := false, orphan := false } := by
  decide +kernel

/-- A RETIME read that ends in DOWN or JAMMED, entered from RUNNING and from DRAINING. -/
theorem witness_BoundaryReport_down :
    let ops : List SchedOp := [.readLoopHost .retiming, .mark, .settleAll .lineLost, .writeLoopHalf,
      .raise .down, .raiseRetimeRefused]
    ∀ x ∈ [LoopState.down, .jammed], ∀ target ∈ [some ReturnTarget.running, some .off, none],
      let s := stateOf (moving (.sched .A) (.read 0x40 32) false (part x fun e =>
        { e with sched := ops, ctl := { e.ctl with state := x, returnTarget := target } }))
      let p := s.part.tick 0
      p.live = true ∧ (p.eng .A).ctl.state = x ∧ (p.eng .A).ctl.returnTarget = target ∧
        (p.eng .A).sched = ops ∧
        (∀ i : StationIx, (p.ctx i).owner = some .A → (p.ctx i).inHand = none) ∧
        s.part.port.inFlight =
          some { requester := .sched .A, action := .read 0x40 32, urgent := false, orphan := false } := by
  decide +kernel

theorem witness_DrainSettlement :
    let holders := fun p : Part =>
      allStations.filter fun i => (p.ctx i).owner = some .A ∧ (p.ctx i).inHand.isSome = true
    let meets := fun p : Part =>
      p.live = true ∧ (p.eng .A).ctl.state = .draining ∧ (p.eng .A).cyc.turn = none ∧
        (p.eng .A).sched = [] ∧ (p.eng .A).urgent = [] ∧ (p.eng .A).xu.state = .idle ∧
        (p.eng .A).framer.sending = none
    let target := fun (x : DrainTarget) (e : Engine) => { e with ctl := { e.ctl with drainTarget := some x } }
    (let p := (part .draining (target .off)).tick 0
     meets p ∧ holders p = [] ∧ (p.eng .A).ctl.drainTarget = some .off) ∧
    (let p := (part .draining (target .quiet)).tick 0
     meets p ∧ holders p = [] ∧ (p.eng .A).ctl.drainTarget = some .quiet) ∧
    (let p := (withStation 0 station (withStation 63 station (part .draining (target .off)))).tick 0
     meets p ∧ holders p = 0 :: [63] ∧ (p.ctx 0).inHand = some 3) := by decide +kernel

theorem witness_SchedulerFrames :
    (let p := (withStation 0 station (part .rollcall fun e => { e with rollList := [0] })).tick 0
     p.live = true ∧ (p.eng .A).ctl.state = .rollcall ∧ (p.eng .A).xu.state = .idle ∧
       (p.eng .A).rollList = 0 :: []) ∧
    (let p := (part .quiet fun e => { e with keepaliveFrom := late - 25000000 }).tick 0
     p.live = true ∧ (p.eng .A).ctl.state = .quiet ∧ (p.eng .A).cfg.keepalive ≠ 0 ∧
       (p.eng .A).keepaliveFrom + (p.eng .A).cfg.keepalive.toNat * 25000000 = p.now) := by decide +kernel

theorem witness_SchedulerFrames_present :
    let cs := chars 0 5 0x0E []
    let a := attempt .roll
    let p := (withStation 0 station (part .rollcall fun e =>
      { hearing cs (awaiting .receiving a e) with rollList := [0] })).tick 0
    p.live = true ∧ (p.eng .A).ctl.state = .rollcall ∧ (p.eng .A).sched = [] ∧
      (p.eng .A).framer.receiver = .frame cs ∧ frameComplete cs = true ∧ frameValid cs = true ∧
      (p.eng .A).xu = { state := .receiving, attempt := some a } ∧ a.kind = .roll ∧ a.station = some 0 ∧
      (RxFrame.ofChars cs).destination = 0 ∧ (RxFrame.ofChars cs).source = a.source ∧
      (RxFrame.ofChars cs).control.extractLsb' 0 4 = 14 := by decide +kernel

/-- Each criterion is met in each of the states it is judged in. -/
theorem witness_DownEntry_criteria :
    (∀ x ∈ [LoopState.rollcall, LoopState.running, LoopState.draining, LoopState.quiet],
      let p := (part x fun e => { e with mon := { e.mon with carrierSince := some (late - 500000) } }).tick 0
      p.live = true ∧ (p.eng .A).ctl.state = x ∧ (p.eng .A).cfg.carrierEnable = true ∧
        (p.eng .A).mon.carrierSince = some (late - 500000) ∧ late - 500000 + 500000 = p.now) ∧
    (∀ x ∈ [LoopState.rollcall, LoopState.running, LoopState.quiet],
      let p := (part x fun e => { e with framer := { e.framer with activity := some (late - 250000) } }).tick 0
      p.live = true ∧ (p.eng .A).ctl.state = x ∧ (p.eng .A).cfg.jamTime ≠ 0 ∧
        (p.eng .A).framer.sending = none ∧ (p.eng .A).framer.activity = some (late - 250000) ∧
        late - 250000 + (p.eng .A).cfg.jamTime.toNat * 250000 = p.now) ∧
    (∀ x ∈ [LoopState.rollcall, LoopState.running, LoopState.draining],
      let p := (part x fun e => { e with mon := { e.mon with errorsMet := true } }).tick 0
      p.live = true ∧ (p.eng .A).ctl.state = x ∧ (p.eng .A).mon.errorsMet = true) ∧
    (let p := (part .running fun e => { e with mon := { e.mon with silenceMet := true } }).tick 0
     p.live = true ∧ (p.eng .A).ctl.state = .running ∧ (p.eng .A).mon.silenceMet = true) := by decide +kernel

/-- JAM in QUIET with wake-on-energy set: on an activity that began before the entry, and on one begun in QUIET, which
does not meet the criterion. -/
theorem witness_DownEntry_quiet :
    let p := fun quiet : Nat =>
      let q := part .quiet fun e =>
        { e with framer := { e.framer with activity := some (late - 250000) }, quietFrom := quiet }
      Part.tick 0 { q with screening := { q.screening with
        wakeConfig := { q.screening.wakeConfig with wakeOnEnergy := true } } }
    let meets := fun q : Part =>
      q.live = true ∧ (q.eng .A).ctl.state = .quiet ∧ q.screening.wakeConfig.wakeOnEnergy = true ∧
        (q.eng .A).cfg.jamTime ≠ 0 ∧ (q.eng .A).framer.sending = none ∧
        (q.eng .A).framer.activity = some (late - 250000) ∧
        late - 250000 + (q.eng .A).cfg.jamTime.toNat * 250000 = q.now
    meets (p (late - 100000)) ∧ late - 250000 ≤ late - 100000 ∧ meets (p (late - 300000)) ∧
      ¬ late - 250000 ≤ late - 300000 ∧
      ((p (late - 300000)).eng .A).jamMet true late = false := by decide +kernel

/-- The courses of the entry: nothing in hand, a record in hand, in a step, in a fetch, and in one that waits for its
grant, with a record of another station in hand and with none; each with the criterion ERRORS met. -/
theorem witness_DownEntry_courses :
    let holders := fun p : Part =>
      allStations.filter fun i => (p.ctx i).owner = some .A ∧ (p.ctx i).inHand.isSome = true
    let meets := fun p : Part =>
      p.live = true ∧ (p.eng .A).ctl.state = .running ∧ (p.eng .A).mon.errorsMet = true
    let running := fun (change : Engine → Engine) =>
      part .running fun e => change { e with mon := { e.mon with errorsMet := true } }
    let turn := fun x : TurnStage =>
      some { station := 0, periodic := true, stage := x, attempted := false, closing := false : Turn }
    (let p := (running id).tick 0
     meets p ∧ (p.eng .A).sched = [] ∧ holders p = []) ∧
    (let p := (withStation 0 station (running id)).tick 0
     meets p ∧ (p.eng .A).sched = [] ∧ holders p = 0 :: [] ∧ (p.ctx 0).inHand = some 3) ∧
    (let p := (running fun e => { e with
       sched := [.writeStationHalf 0, .endTurn], cyc := { e.cyc with turn := turn .writes } }).tick 0
     meets p ∧ (p.eng .A).sched = .writeStationHalf 0 :: [.endTurn] ∧
       (p.schedAction .A (.writeStationHalf 0)).isSome = true ∧
       (p.eng .A).cyc.turn = turn .writes ∧ ∀ t ∈ turn .writes, t.stage ≠ .fetch) ∧
    (let p := (moving (.sched .A) (.read 0x10004 4) false (running fun e => { e with
       sched := [.readLink 0], cyc := { e.cyc with turn := turn .fetch } })).tick 0
     meets p ∧ (p.eng .A).sched = .readLink 0 :: [] ∧ (p.schedAction .A (.readLink 0)).isSome = true ∧
       p.schedTransferring .A = true ∧ (p.eng .A).cyc.turn = turn .fetch) ∧
    (let fetching := running fun e => { e with sched := [.readLink 0], cyc := { e.cyc with turn := turn .fetch } }
     let waits := fun p : Part =>
       meets p ∧ p.schedTransferring .A = false ∧ (p.eng .A).cyc.turn = turn .fetch
     waits (fetching.tick 0) ∧ holders (fetching.tick 0) = [] ∧
       waits ((withStation 5 station fetching).tick 0) ∧
       holders ((withStation 5 station fetching).tick 0) = 5 :: [] ∧
       (((withStation 5 station fetching).tick 0).ctx 5).inHand = some 3) := by
  decide +kernel

theorem witness_Recovery :
    (let p := (part .down fun e => { e with mon := { e.mon with downSince := some (late - 2500000) } }).tick 0
     p.live = true ∧ (p.eng .A).ctl.state = .down ∧ (p.eng .A).mon.holdPassed = false ∧
       (p.eng .A).mon.downSince = some (late - 2500000) ∧
       late - 2500000 + (p.eng .A).cfg.downHold.toNat * 2500000 = p.now) ∧
    (∀ r ∈ [ReturnTarget.quiet, ReturnTarget.off, ReturnTarget.running],
      let p := (part .down fun e => { e with
        ctl := { e.ctl with returnTarget := some r }
        mon := { e.mon with holdPassed := true, presenceSince := some (late - 2500000) } }).tick 0
      p.live = true ∧ (p.eng .A).ctl.state = .down ∧ (p.eng .A).mon.holdPassed = true ∧
        (p.eng .A).mon.presenceSince = some (late - 2500000) ∧ late - 2500000 + 2500000 = p.now ∧
        (p.eng .A).sched = [] ∧ (p.eng .A).ctl.returnTarget = some r ∧
        (p.eng .A).cfg.rollAtRecovery = false ∧ (p.eng .A).ctl.rollRequest = false) ∧
    (let p := (withStation 0 station (part .jammed fun e => { e with
       ctl := { e.ctl with returnTarget := some .rollcall }
       framer := { e.framer with markSince := late - 250000 } })).tick 0
     p.live = true ∧ (p.eng .A).ctl.state = .jammed ∧ (p.eng .A).framer.activity = none ∧
       (p.eng .A).framer.markSince + (p.eng .A).cfg.jamRelease.toNat * 250000 = p.now ∧
       (p.eng .A).sched = [] ∧ (p.eng .A).ctl.returnTarget = some .rollcall ∧ p.rollCandidates .A ≠ []) := by
  decide +kernel

/-- A jam that is over on the way back to RUNNING: with a roll-call asked for or not, and an empty roll list. -/
theorem witness_Recovery_running :
    ∀ request ∈ [true, false], ∀ atRecovery ∈ [true, false],
      let p := (part .jammed fun e => { e with
        ctl := { e.ctl with state := .jammed, returnTarget := some .running, rollRequest := request }
        cfg := { e.cfg with rollAtRecovery := atRecovery } }).tick 0
      p.live = true ∧ (p.eng .A).ctl.state = .jammed ∧ (p.eng .A).framer.activity = none ∧
        (p.eng .A).framer.markSince + (p.eng .A).cfg.jamRelease.toNat * 250000 ≤ p.now ∧
        (p.eng .A).sched = [] ∧ (p.eng .A).ctl.returnTarget = some .running ∧
        (p.eng .A).ctl.rollRequest = request ∧ (p.eng .A).cfg.rollAtRecovery = atRecovery ∧
        p.rollCandidates .A = [] := by decide +kernel

/-- Loop A with the procedure `ops` and its first transfer in progress. -/
def working (x : LoopState) (ops : List SchedOp) (a : BusAction) : Part :=
  moving (.sched .A) a false (part x fun e => { e with sched := ops })

theorem witness_TransferComplete_ends :
    State.reset.part.port.inFlight = none ∧
    (let s := stateOf (moving (.sched .A) (.read 0 64) false resetting)
     s.part.port.inFlight.isSome = true ∧ (s.part.tick 0).live = false) ∧
    (let s := stateOf (moving (.sched .A) (.write 0x60 [1, 2, 3, 4]) true (part .running fun e =>
       { e with urgent := [.writeLoopHalf, .raise .starved] }))
     let p := s.part.tick 0
     s.part.port.inFlight =
       some { requester := .sched .A, action := .write 0x60 [1, 2, 3, 4], urgent := true, orphan := false } ∧
     p.live = true ∧ (p.eng .A).urgent = .writeLoopHalf :: .raise .starved :: [] ∧ p.settled .A = true) := by
  decide +kernel

/-- During a soft reset: a DONE write that it found in progress, and transfers whose result goes nowhere. -/
theorem witness_TransferComplete_reset :
    let ends := fun (r : Requester) (urgent : Bool) (ops : List SchedOp) =>
      let q := moving r (.write 0x10180 [3, 0, 0, 0]) urgent (part .running fun e => { e with sched := ops })
      Part.tick 0 (withStation 0 station { q with resetting := true })
    let meets := fun p : Part =>
      p.resetHeld = false ∧ p.resetting = true ∧ p.live = false ∧ p.port.inFlight.all (!·.orphan) = true
    (let p := ends (.sched .A) false [.writeDone 0 3 .rx .ready]
     meets p ∧ (p.eng .A).sched = [.writeDone 0 3 .rx .ready] ∧ (p.ctx 0).inHand = some 3) ∧
    (let p := ends (.sched .A) false []
     meets p ∧ (p.eng .A).sched = []) ∧
    (let p := ends (.sched .A) true []
     meets p ∧ p.port.inFlight.all (·.urgent) = true) ∧
    (let p := ends (.catcher .B) false []
     meets p ∧ p.port.inFlight.map (·.requester) = some (.catcher .B)) := by decide +kernel

theorem witness_TransferComplete_procedure :
    (let p := (working .down [.writeLoopHalf, .raise .down] (.write 0x60 [])).tick 0
     p.live = true ∧ (p.eng .A).sched = .writeLoopHalf :: .raise .down :: [] ∧
       (Part.settled (Part.modEng .A (fun e => { e with sched := [] })
         { p with port := { p.port with inFlight := none } }) .A) = true) ∧
    (let ops : List SchedOp := [.writeDone 0 3 .rx .ready, .writeStationHalf 0, .endTurn]
     let p := (working .running ops (.write 0x10180 [3, 0, 0, 0])).tick 0
     p.live = true ∧ (p.eng .A).sched = .writeDone 0 3 .rx .ready :: .writeStationHalf 0 :: [.endTurn]) ∧
    (let p := (working .draining [.writeActive 0 3 poll] (.write 0x10180 [2, 0, 0, 0])).tick 0
     p.live = true ∧ (p.eng .A).sched = [.writeActive 0 3 poll] ∧ (p.eng .A).ctl.state = .draining) ∧
    (let p := (working .running [.readLink 0] (.read 0x10184 4)).tick 0
     p.live = true ∧ (p.eng .A).sched = [.readLink 0] ∧ (p.eng .A).ctl.state = .running ∧
       (15 : RecordIx) ≠ 1023 ∧ (15 : RecordIx).toNat < (p.eng .A).poolSize.toNat ∧
       (wordAt (Memory.readBytes [(0x10184, 15)] 0x10184 4) 0).extractLsb' 0 10 = 15) ∧
    (let p := (working .running [.readRecord 0 3] (.read 0x10180 128)).tick 0
     p.live = true ∧ (p.eng .A).sched = [.readRecord 0 3] ∧ (p.eng .A).ctl.state = .running ∧
       byteAt (Memory.readBytes [(0x10180, 1)] 0x10180 128) 0 = 1) ∧
    (let ops : List SchedOp := [.writeLoopHalf, .raiseRetimeRefused, .mark, .beaconStep]
     let p := (working .running ops (.write 0x60 [])).tick 0
     p.live = true ∧ (p.eng .A).sched = ops ∧ (p.eng .A).ctl.state = .running ∧
       (p.eng .A).cyc.retimeRefused = false ∧ (p.eng .A).cyc.marked = none ∧
       (p.eng .A).ctl.rollRequest = false) := by decide +kernel

/-- The beacon at the end of a boundary's work that is not sent: the next boundary is marked, a ROLLCALL waits, or the
loop is DRAINING; and the refused RETIME of that boundary. -/
theorem witness_TransferComplete_beacon :
    let ops : List SchedOp := [.writeLoopHalf, .raiseRetimeRefused, .mark, .beaconStep]
    let goes := fun (x : LoopState) (marked : Option Nat) (waits : Bool) =>
      let p := (moving (.sched .A) (.write 0x60 []) false (part x fun e =>
        { e with sched := ops, ctl := { e.ctl with rollRequest := waits }
                 cyc := { e.cyc with phase := .boundary, marked := marked, retimeRefused := waits } })).tick 0
      p.live = true ∧ (p.eng .A).sched = ops ∧
        ((p.eng .A).ctl.state ≠ .running ∨ (p.eng .A).cyc.marked.isSome = true ∨
          (p.eng .A).ctl.rollRequest = true)
    goes .running (some late) false ∧ goes .running none true ∧ goes .draining none false := by decide +kernel

/-- The scan's reads and writes, and the write for the last station of a roll-call. -/
theorem witness_TransferComplete_scan :
    let goes := fun (p : Part) (op : SchedOp) (rest : List SchedOp) =>
      (p.tick 0).live = true ∧ ((p.tick 0).eng .A).sched = op :: rest ∧
        p.port.inFlight.map (·.requester) = some (.sched .A) ∧
        p.port.inFlight.all (fun t => !t.urgent && !t.orphan) = true
    let judged := fun p : Part => (Part.judgeEntry .A 0 (p.modEng .A fun e => { e with sched := [] })).settled .A
    goes (working .starting [.readStationHost 0, .readStationHost 1] (.read 0x100 16)) (.readStationHost 0)
        [.readStationHost 1] ∧
      (State.reset.part.schedAction .A (.readStationHost 1)).isSome = true ∧
      (let p := working .running [.readStationHost 63, .judge 0] (.read 0x8E0 16)
       goes p (.readStationHost 63) [.judge 0] ∧ judged p = true) ∧
      (let p := working .running [.writeStationHalf 5, .judge 0] (.write 0x1B0 [])
       goes p (.writeStationHalf 5) [.judge 0] ∧ judged p = true) ∧
      (let p := working .rollcall [.writeStationHalf 0, .rollEnd] (.write 0x110 [])
       goes p (.writeStationHalf 0) [.rollEnd] ∧ (p.eng .A).ctl.state = .rollcall) := by decide +kernel

/-- The write of a fill, with CATCH_NOTIFY set and clear. -/
theorem witness_TransferComplete_catch :
    ∀ notify ∈ [true, false],
      let p := Part.tick 0 (moving (.sched .A) (.write 0x60 []) true (part .running fun e =>
        { e with urgent := [.writeLoopHalf, .raiseCatch], cfg := { e.cfg with catchNotify := notify } }))
      p.live = true ∧ (p.eng .A).urgent = .writeLoopHalf :: .raiseCatch :: [] ∧ p.settled .A = true ∧
        (p.eng .A).cfg.catchNotify = notify := by decide +kernel

/-- An urgent write with no cause after it: the last one, and one with another behind it. -/
theorem witness_TransferComplete_urgent :
    ∀ rest ∈ [[], [SchedOp.writeLoopHalf, .raise .starved]],
      let s := stateOf (moving (.sched .A) (.write 0x60 []) true (part .draining fun e =>
        { e with urgent := .writeLoopHalf :: rest }))
      let p := s.part.tick 0
      s.part.port.inFlight =
          some { requester := .sched .A, action := .write 0x60 [], urgent := true, orphan := false } ∧
        p.live = true ∧ (p.eng .A).urgent = .writeLoopHalf :: rest ∧ p.settled .A = true ∧
        (rest = [] ∨ rest.head? = some .writeLoopHalf) := by decide +kernel

/-- The end of a roll-call whose last station is ABSENT with a record that has ended, and of one whose last station
answered. -/
theorem witness_TransferComplete_rollEnd :
    let goes := fun (acts : List SchedOp) =>
      let p := (working .rollcall (.writeStationHalf 0 :: acts ++ [.rollEnd]) (.write 0x110 [])).tick 0
      p.live = true ∧ (p.eng .A).ctl.state = .rollcall ∧
        (p.eng .A).sched = .writeStationHalf 0 :: acts ++ [.rollEnd] ∧ acts.length ≤ 100 ∧
        (p.goesOn .A (.writeStationHalf 0) [] acts [.rollEnd]).isSome = true
    goes [] ∧ goes [.raise .exfault] := by decide +kernel

/-- The hypotheses of `Obligations.ProcedureGoesOn` for the transfer `op`, the acts `acts` and what is left, `rest`, in
the state `x`; and what is to hold of the part after them. -/
def goesTo (x : LoopState) (change : Part → Part) (op : SchedOp) (a : BusAction) (acts rest : List SchedOp)
    (holds : Part → Bool) : Bool :=
  let p := Part.tick 0 (change (working x (op :: acts ++ rest) a))
  p.live && (p.eng .A).sched == op :: acts ++ rest && decide (acts.length ≤ 100) &&
    p.port.inFlight.all (fun t => t.requester == .sched .A && !t.urgent && !t.orphan) &&
    p.port.inFlight.isSome && (p.goesOn .A op [] acts rest).any holds

/-- The writes of R35 one after another, part halves one after another, acts between them, and what comes at the end
of the work: nothing, a waiting ROLLCALL, the end of a turn, a boundary's beacon, or a judgement that has something to
write. -/
theorem witness_ProcedureGoesOn :
    goesTo .running id (.writePayload 3 [1]) (.write 0x101A0 []) [] [.writeResult 0 3 .ok 1, .endTurn]
      (fun q => q.settled .A) ∧
    goesTo .running id (.writeResult 0 3 .ok 1) (.write 0x10190 []) [] [.writeDone 0 3 .rx .ready]
      (fun q => q.settled .A) ∧
    goesTo .running id (.writeStationHalf 0) (.write 0x110 []) [.raise .exdone] [.writeStationHalf 1, .endTurn]
      (fun q => q.settled .A) ∧
    goesTo .running id (.writeStationHalf 0) (.write 0x110 []) [.disown 0, .judge 1, .judge 2, .mark]
      [.readLoopHost .retiming] (fun q => q.settled .A) ∧
    goesTo .down id .writeLoopHalf (.write 0x60 []) [.raise .down, .raiseRetimeRefused] []
      (fun q => q.settled .A) ∧
    goesTo .running
      (Part.modEng .A fun e => { e with ctl := { e.ctl with rollRequest := true } }) (.writeStationHalf 0)
      (.write 0x110 []) [.raise .exdone] []
      (fun q => decide ((q.eng .A).cyc.turn = none ∧ (q.eng .A).cyc.phase ≠ .boundary ∧
        (q.eng .A).isSending .beacon = false)) ∧
    (∀ waits ∈ [true, false],
      goesTo .running
        (Part.modEng .A fun e => { e with
          ctl := { e.ctl with rollRequest := waits }, cyc := { e.cyc with turn := some (underWay true) } })
        (.writeStationHalf 0) (.write 0x110 []) [.raise .exdone] [.endTurn]
        (fun q => decide ((q.eng .A).cyc.turn = some (underWay true)))) ∧
    (∀ x ∈ [(none, false), (none, true), (some late, false)],
      goesTo .running
        (Part.modEng .A fun e => { e with
          ctl := { e.ctl with rollRequest := x.2 }, cyc := { e.cyc with phase := .boundary, marked := x.1 } })
        .writeLoopHalf (.write 0x60 []) [.raiseRetimeRefused, .mark] [.beaconStep]
        (fun q => decide ((q.eng .A).ctl.state = .running ∧ (q.eng .A).cyc.marked = x.1 ∧
          (q.eng .A).ctl.rollRequest = x.2))) ∧
    goesTo .running
      (fun p => withStation 7 { Context.reset with owner := some .A, state := .ready } p) (.writeStationHalf 0)
      (.write 0x110 []) [.judge 1] [.judge 7, .mark]
      (fun q => (Part.judgeEntry .A 7 (q.modEng .A fun e => { e with sched := [.mark] })).settled .A) := by
  decide +kernel

/-- The settlements: one station's, those of an entry with a record in hand and with none, and the entries that
follow the last of them. -/
theorem witness_ProcedureGoesOn_settles :
    let holds := withStation 0 station
    (∀ o ∈ [RecordOutcome.stopped, .lineLost],
      goesTo .down holds (.writeStationHalf 1) (.write 0x130 []) [.raise .exfault, .mark] [.settle 0 o, .mark]
        (fun q => decide ((q.ctx 0).inHand = some 3)) ∧
      goesTo .down holds (.writeStationHalf 1) (.write 0x130 []) [] [.settleAll o, .writeLoopHalf]
        (fun q => decide ((q.ctx 0).inHand = some 3 ∧ (q.ctx 0).owner = some .A)) ∧
      goesTo .down id (.writeStationHalf 1) (.write 0x130 []) [] [.settleAll o, .writeLoopHalf]
        (fun q => (allStations.all fun i => (q.ctx i).inHand.isNone) &&
          (q.modEng .A fun e => { e with sched := [.writeLoopHalf] }).settled .A)) ∧
    goesTo .jammed id (.writeStationHalf 0) (.write 0x110 []) [.raise .exfault, .mark] [.enterOff]
      (fun q => q.live) ∧
    (∀ target ∈ [DrainTarget.off, .quiet],
      goesTo .draining
        (Part.modEng .A fun e => { e with ctl := { e.ctl with drainTarget := some target } })
        (.writeStationHalf 0) (.write 0x110 []) [.raise .exfault, .mark] [.enterTarget]
        (fun q => decide ((q.eng .A).ctl.drainTarget = some target))) := by decide +kernel

/-- The check of a record taken, good and bad. -/
theorem witness_TransferComplete_taken :
    ∀ r ∈ [poll, { poll with requestLength := 9 }, { poll with kind := 2, requestLength := 0 },
        { poll with kind := 3 }],
      let p := inTurn { station with copy := some r } [.writeStationHalf 0, .takeCheck 0] (.write 0x110 []) id
      p.live = true ∧ (p.eng .A).sched = [.writeStationHalf 0, .takeCheck 0] ∧ (p.ctx 0).copy = some r ∧
        (p.ctx 0).inHand = some 3 ∧
        (Part.fitTest .A 0 (Part.modEng .A (fun e => { e with sched := [] })
          { p with port := { p.port with inFlight := none } })).settled .A = true := by decide +kernel

/-- A link that is END, one outside the pool, and a record that is not POSTED; with a ROLLCALL waiting and with none. -/
theorem witness_TransferComplete_fetched :
    let idle := { station with inHand := none, copy := none, state := .ready, phase := .none }
    let goes := fun (ops : List SchedOp) (a : BusAction) =>
      ∀ waits ∈ [true, false],
      let p := inTurn idle ops a fun e => { e with ctl := { e.ctl with rollRequest := waits } }
      p.live = true ∧ (p.eng .A).sched = ops ∧ (p.eng .A).ctl.state = .running ∧
        (p.eng .A).cyc.turn = some (underWay true) ∧ (p.eng .A).ctl.rollRequest = waits ∧
        (p.ctx 0).inHand = none ∧ (p.ctx 0).state ≠ .halted ∧ (p.eng .A).poolSize = 16
    let link := fun m : Memory => (wordAt (Memory.readBytes m 0x10184 4) 0).extractLsb' 0 10
    goes [.readLink 0] (.read 0x10184 4) ∧ goes [.readRecord 0 3] (.read 0x10180 128) ∧
      link [(0x10184, 0xFF), (0x10185, 3)] = 1023 ∧ link [(0x10184, 16)] = 16 ∧
      byteAt (Memory.readBytes [(0x10180, 2)] 0x10180 128) 0 ≠ 1 := by decide +kernel

/-- The follow-on PUT in its window, beyond its end, and with a boundary or a ROLLCALL waiting. -/
theorem witness_TransferComplete_followOn :
    let r := { poll with kind := 2 }
    let estimate := (7 + 2 + 7 + 0 + 4) * Config.charTime 3 + 1 * 2500
    let goes := fun (beacon : Nat) (marked : Option Nat) (waits : Bool) =>
      let p := inTurn { station with copy := some r } [.writeStationHalf 0, .followOn 0] (.write 0x110 [])
        fun e => { e with ctl := { e.ctl with rollRequest := waits }
                          cyc := { e.cyc with beaconEnd := beacon, boundaryAt := late, marked := marked } }
      p.live = true ∧ (p.eng .A).sched = [.writeStationHalf 0, .followOn 0] ∧
        (p.eng .A).ctl.rollRequest = waits ∧ (p.ctx 0).binding.coupler = 0xFF ∧ (p.ctx 0).copy = some r ∧
        (p.eng .A).cyc.turn = some (underWay true) ∧ (p.eng .A).ctl.state = .running ∧
        (p.eng .A).cyc.marked = marked
    goes late none false ∧ goes 0 none false ∧ goes late (some late) false ∧ goes late none true ∧
      late + estimate ≤ late + 400 * 2500 ∧
      0 + 400 * 2500 < late + estimate := by decide +kernel

/-- The last write of a turn, with no cause to raise and with three, a ROLLCALL waiting or not, and that of a boundary
or an entry with a refused RETIME. -/
theorem witness_TransferComplete_last :
    (∀ cs ∈ [[], [Cause.exfault, .overrun, .halted]], ∀ waits ∈ [true, false],
      let ops := .writeStationHalf 0 :: cs.map SchedOp.raise ++ [.endTurn]
      let p := inTurn station ops (.write 0x110 []) fun e => { e with ctl := { e.ctl with rollRequest := waits } }
      p.live = true ∧ (p.eng .A).sched = ops ∧ cs.length ≤ 3 ∧ (p.eng .A).ctl.rollRequest = waits ∧
        (p.eng .A).cyc.turn = some (underWay true)) ∧
    (∀ c ∈ [none, some Cause.down], ∀ refused ∈ [true, false],
      let ops := SchedOp.writeLoopHalf :: c.toList.map SchedOp.raise ++ [.raiseRetimeRefused]
      let p := Part.tick 0 (moving (.sched .A) (.write 0x60 []) false (part .down fun e =>
        { e with sched := ops, cyc := { e.cyc with retimeRefused := refused } }))
      p.live = true ∧ (p.eng .A).sched = ops ∧ (p.eng .A).cyc.retimeRefused = refused ∧
        (Part.settled (Part.modEng .A (fun e => { e with sched := [] })
          { p with port := { p.port with inFlight := none } }) .A) = true) := by decide +kernel

/-- A host half that validation passes. -/
def hostHalf : StationHost :=
  { StationHost.zero with enable := true, lineAddress := 5, coupler := 0xFF, replyTimeout := 1, retryLimit := 2 }

/-- The fields of `h` are valid for a direct station with the binding `b` (R44). -/
abbrev valid (h : StationHost) (b : Binding) : Prop :=
  1 ≤ b.lineAddress.toNat ∧ b.lineAddress.toNat ≤ 239 ∧ h.intervalCode.toNat ≤ 7 ∧
    (b.cls = .aperiodic ∨ h.phase.toNat < 2 ^ h.intervalCode.toNat) ∧ 1 ≤ h.replyTimeout.toNat ∧
    1 ≤ h.retryLimit.toNat ∧ h.retryLimit.toNat ≤ 7 ∧ (b.coupler = 0xFF → h.maxReply.toNat ≤ 96)

/-- What the judgements look at: the owner, the state, a record in hand, the fields, halt and release. -/
theorem witness_RosterJudgements :
    let bad := { hostHalf with lineAddress := 240 }
    let binding := fun h : StationHost =>
      ({ loop := h.loop, cls := h.cls, lineAddress := h.lineAddress, coupler := h.coupler } : Binding)
    let judges := fun (c : Context) (h : StationHost) =>
      let p := withStation 0 c (part .running fun e => { e with scan := e.scan.set 0 h })
      (p.eng .A).scan[(0 : StationIx)] = h ∧ p.ctx 0 = c
    (valid hostHalf (binding hostHalf) ∧ ¬ valid bad (binding bad) ∧ (binding hostHalf).coupler = 0xFF ∧
      valid { hostHalf with lineAddress := 239, intervalCode := 7, phase := 127, retryLimit := 7 }
        (binding { hostHalf with lineAddress := 239 }) ∧
      ¬ valid { hostHalf with phase := 1 } (binding hostHalf)) ∧
    (∀ h ∈ [hostHalf, bad, { hostHalf with halt := true }, { hostHalf with halt := true, lineAddress := 240 },
        { hostHalf with enable := false }, { hostHalf with releaseCount := 1 }],
      ∀ c ∈ [Context.reset, { Context.reset with owner := some .B }, station,
        { station with inHand := none, copy := none, state := .ready },
        { station with inHand := none, copy := none, state := .halted },
        { station with inHand := none, copy := none, state := .rejected }], judges c h) ∧
    (let p := withStation 7 { station with binding := binding hostHalf } (part .running id)
     (7 : StationIx) ≠ 0 ∧ (p.ctx 7).owner = some .A ∧ (p.ctx 7).state = .active ∧
       (p.ctx 7).binding.coupler = hostHalf.coupler ∧ (p.ctx 7).binding.lineAddress = hostHalf.lineAddress) ∧
    (hostHalf.retryLimit.toNat ≤ (2 : Byte).toNat ∧ (1 : Byte).toNat < hostHalf.retryLimit.toNat ∧
      (1 : Byte) ≠ station.latchedRelease ∧ hostHalf.releaseCount = station.latchedRelease) := by
  decide +kernel

/-- A loop descriptor that STARTING and TEST take, cycle length 100 and test length 96, and ones they refuse. -/
theorem witness_StartingSteps_descriptors :
    let fits := fun h : LoopHost =>
      100 ≤ h.cycleLength.toNat ∧
        20 * Config.charTime h.bitRate + h.periodicBudget.toNat * 2500 + h.announceWindow.toNat * 2500
          ≤ h.cycleLength.toNat * 2500
    let testFits := fun h : LoopHost =>
      h.testMode.toNat ≤ 1 ∧ h.counterMode.toNat ≤ 1 ∧ 1 ≤ h.testLength.toNat ∧ h.testLength.toNat ≤ 96 ∧
        (h.testMode = 1 → 1 ≤ h.echoAddress.toNat ∧ h.echoAddress.toNat ≤ 239)
    let decoded := fun m : Memory => LoopHost.decode (Memory.readBytes m 0x40 32)
    (fits { LoopHost.zero with cycleLength := 100, bitRate := 3 } ∧
      ¬ fits { LoopHost.zero with cycleLength := 99, bitRate := 3 } ∧
      testFits { LoopHost.zero with testLength := 96, testMode := 1, echoAddress := 239 } ∧
      ¬ testFits { LoopHost.zero with testLength := 97 } ∧ ¬ testFits LoopHost.zero) ∧
    ((decoded []).bitRate.toNat ≤ 3 ∧ ¬ fits (decoded []) ∧ fits (decoded [(0x40, 100), (0x46, 3)]) ∧
      3 < (decoded [(0x46, 4)]).bitRate.toNat ∧ testFits (decoded [(0x5A, 1)]) ∧
      (decoded [(0x5A, 1)]).testMode = 0 ∧
      testFits (decoded [(0x5A, 1), (0x5B, 5), (0x5E, 1)]) ∧
      (decoded [(0x5A, 1), (0x5B, 5), (0x5E, 1)]).testMode = 1) ∧
    (1 ≤ (1 : BitVec 16).toNat ∧ (1023 : BitVec 16).toNat ≤ 1023 ∧ 1023 < (1024 : BitVec 16).toNat) := by
  decide +kernel

theorem witness_StartingSteps :
    let goes := fun (x : LoopState) (ops : List SchedOp) (change : Engine → Engine) =>
      let s := stateOf (moving (.sched .A) (.read 0x40 32) false
        (part x fun e => change { e with sched := ops }))
      let p := s.part.tick 0
      s.part.port.inFlight =
        some { requester := .sched .A, action := .read 0x40 32, urgent := false, orphan := false } ∧
        p.live = true ∧ (p.eng .A).ctl.state = x ∧ (p.eng .A).sched = ops
    let read : List SchedOp := [.readLoopHost .starting, .startValidate]
    let ended : List SchedOp := [.writeStationHalf 63, .mark, .startNext]
    goes .starting [.readGlobal, .readLoopHost .starting, .startValidate] id ∧
      goes .starting read (fun e => { e with globalSize := 16, framer := { e.framer with sending := none } }) ∧
      goes .starting read (fun e =>
        { e with globalSize := 16, framer := { e.framer with sending := some (sending .keepalive) } }) ∧
      (∀ from_ ∈ [true, false], goes .starting read fun e =>
        { e with globalSize := 16, ctl := { e.ctl with startFromOff := from_ } }) ∧
      (∀ roll ∈ [true, false], goes .starting ended fun e =>
        { e with cfg := { e.cfg with rollAtStart := roll } }) ∧
      goes .test [.readLoopHost .testing, .testValidate] id ∧
      goes .test [.writeLoopHalf, .testFirst] (fun e => { e with ctl := { e.ctl with validated := true } }) ∧
      config.testMode.toNat ≤ 1 ∧ State.reset.part.testUnit.sent = 0 ∧
      (allStations.filter fun i =>
        ((withStation 0 station (part .starting id)).ctx i).owner = some .A ∧
          ((withStation 0 station (part .starting id)).ctx i).state = .active) ≠ [] := by decide +kernel

/-- STARTING's last judgements with nothing to write, and its last write, before the entry to RUNNING or ROLLCALL. -/
theorem witness_StartingSteps_next :
    ∀ roll ∈ [true, false],
      let enters := Part.modEng .A fun e => { e with cfg := { e.cfg with rollAtStart := roll } }
      goesTo .starting enters (.readStationHost 63) (.read 0x8E0 16) (allStations.map .judge ++ [.mark])
          [.startNext] (fun q => (q.eng .A).cfg.rollAtStart == roll) ∧
        goesTo .starting enters (.writeStationHalf 63) (.write 0x8F0 []) [.mark] [.startNext]
          (fun q => (q.eng .A).cfg.rollAtStart == roll) := by decide +kernel

theorem witness_CatchWalk :
    let frame : CatchFrame :=
      { destination := 0, source := 5, control := 0x0F, payload := [1], reason := .station, filter := none
        triggered := 0, cycle := 0 }
    let meets := fun (op : CatchOp) (a : BusAction) =>
      let s := stateOf (moving (.catcher .A) a false (part .running fun e => { e with catcher := { e.catcher with
        buffer := some frame, walk := some op, poolBase := 0x10000, poolSize := 16 } }))
      let p := s.part.tick 0
      s.part.port.inFlight =
        some { requester := .catcher .A, action := a, urgent := false, orphan := false } ∧
        p.live = true ∧ p.settled .A = true ∧ (p.eng .A).catcher.walk = some op ∧
        (p.eng .A).catcher.buffer = some frame ∧ (p.eng .A).catcher.poolSize = 16
    meets .readHead (.read 0x48 4) ∧ meets (.readLink 3) (.read 0x10184 4) ∧
      meets (.readState 3) (.read 0x10180 4) ∧ meets (.writeFields 3) (.write 0x10188 []) ∧
      meets (.writePayload 3) (.write 0x101A0 [1, 0, 0, 0]) ∧ meets (.writeFilled 3) (.write 0x10180 []) ∧
    (let link := fun (low high : Byte) =>
       (wordAt (Memory.readBytes [(0x48, low), (0x49, high)] 0x48 4) 0).extractLsb' 0 10
     link 0xFF 0x03 = 1023 ∧ link 15 1 ≠ 1023 ∧ (link 15 0).toNat < (16 : BitVec 16).toNat ∧
       link 16 0 ≠ 1023 ∧ (16 : BitVec 16).toNat ≤ (link 16 0).toNat) ∧
    byteAt (Memory.readBytes [(0x10180, 4)] 0x10180 4) 0 = 4 ∧
    byteAt (Memory.readBytes [] 0x10180 4) 0 ≠ 4 := by decide +kernel

theorem witness_BusError :
    State.reset.part.port.inFlight = none ∧
    (let s := stateOf (moving (.sched .A) (.read 0 64) false resetting)
     s.part.port.inFlight =
       some { requester := .sched .A, action := .read 0 64, urgent := false, orphan := false } ∧
       (s.part.tick 0).live = false) ∧
    (let s := stateOf (moving (.catcher .A) (.write 0x10180 [5, 0, 0, 0]) false (part .running id))
     s.part.port.inFlight =
       some { requester := .catcher .A, action := .write 0x10180 [5, 0, 0, 0], urgent := false
              orphan := false } ∧
       (s.part.tick 0).live = true) := by decide +kernel

theorem witness_PortTransfers :
    (let p := part .running fun e => { e with sched := [.readGlobal] }
     p.live = true ∧ p.port.inFlight = none ∧
       p.request (.sched .A) =
         some { requester := .sched .A, action := .read 0 64, urgent := false, orphan := false } ∧
       p.port.pointer = .catcher .B) ∧
    (let p := part .running fun e => { e with
       catcher := { e.catcher with walk := some .readHead } }
     p.live = true ∧ p.port.inFlight = none ∧ (p.request (.catcher .A)).isSome = true ∧
       p.request (.sched .A) = none ∧ p.request (.sched .B) = none) ∧
    ((part .running id).live = true ∧ (part .running id).port.inFlight = none ∧
      (part .running id).request (.sched .A) = none ∧ (part .running id).request (.sched .B) = none ∧
      (part .running id).request (.catcher .A) = none ∧ (part .running id).request (.catcher .B) = none) ∧
    (resetting.live = false ∧
      (moving (.sched .A) (.read 0 64) false (part .running id)).port.inFlight.isSome = true) ∧
    (let frame : CatchFrame :=
       { destination := 0, source := 5, control := 0x0F, payload := [1], reason := .station, filter := none
         triggered := 0, cycle := 0 }
     let p := withStation 0 { station with parked := some 2 } (part .running fun e =>
       { e with catcher := { e.catcher with buffer := some frame } })
     (p.ctx 0).parked = some 2 ∧ (p.eng .A).catcher.buffer = some frame) := by
  decide +kernel

/-- What a loop asks the port for: its urgent write before its procedure, its procedure, and its catch walk. -/
theorem witness_PortTransfers_request :
    let asks := fun (urgent ops : List SchedOp) (walk : Option CatchOp) =>
      (part .running fun e =>
        { e with urgent := urgent, sched := ops, catcher := { e.catcher with walk := walk } })
    (((asks [.writeLoopHalf] [.readGlobal] none).eng .A).urgent = .writeLoopHalf :: [] ∧
      ((asks [.writeLoopHalf] [.readGlobal] none).request (.sched .A)).map (·.urgent) = some true) ∧
    (((asks [] [.readGlobal] none).eng .A).urgent = [] ∧
      ((asks [] [.readGlobal] none).eng .A).sched = .readGlobal :: []) ∧
    (((asks [] [] none).eng .A).urgent = [] ∧ ((asks [] [] none).eng .A).sched = [] ∧
      ((asks [] [] none).eng .A).catcher.walk = none) ∧
    ((asks [] [] (some .readHead)).eng .A).catcher.walk = some .readHead := by decide +kernel

theorem witness_FrameCheck :
    (let header : List Byte := [0, 5, 9, 96]
     let payload : List Byte := List.replicate 96 1
     header.length = 4 ∧ byteAt header 3 = BitVec.ofNat 8 payload.length ∧ payload.length ≤ 96) ∧
    (let header : List Byte := [0, 5, 9, 0]
     header.length = 4 ∧ byteAt header 3 = BitVec.ofNat 8 ([] : List Byte).length) ∧
    Filter.matchesBytes { Filter.reset with offset := 2, mask := 3, expected := 0x2B43 } [0, 5, 0x0F, 0x31] =
      true := by decide +kernel

/-- R115's bounds: the offset of a selected position below the end of the bytes, and one at it. -/
theorem test_filter_bounds :
    Filter.matchesBytes { Filter.reset with offset := 3, mask := 3, expected := 0x2B43 } [0, 5, 0x0F, 0x31] =
      false ∧ Filter.matchesBytes Filter.reset [0, 5, 0x0F, 0x31] = false := by decide +kernel

theorem witness_Invariants :
    (∀ l : LoopId, (State.reset.part.eng l).sound) ∧ Memory.wf State.reset.mem ∧
      State.reset.part.resetsSilent ∧ State.reset.part.couplersDistinct ∧ State.reset.part.copiesHeld ∧
      State.reset.part.testOwned ∧ step State.reset = .next State.reset :=
  ⟨fun l => by cases l <;> decide +kernel, by decide +kernel, fun h => absurd h (by decide +kernel),
   by decide +kernel, by decide +kernel, fun l h => by cases l <;> exact absurd h (by decide +kernel), rfl⟩

theorem witness_ProceduresStand : State.reset.part.standing := fun _ l => by cases l <;> decide +kernel

/-- TXEN while a keepalive is sent, in a test of each mode, and in DOWN. -/
theorem witness_LoopsRest_txen :
    let sends := fun (x : LoopState) (mode : Byte) =>
      (part x fun e => { e with ctl := { e.ctl with validated := true }, cfg := { e.cfg with testMode := mode }
                                framer := { e.framer with sending := some (sending .test) } }).eng .A
    (sends .quiet 0).txen = true ∧ (sends .test 1).txen = true ∧ (sends .test 0).txen = false ∧
      LoopState.down.sendsNothing = true ∧ resetting.live = false ∧
      ((part .down id).eng .A).txen = false := by decide +kernel

/-- Loop A in a turn of RUNNING: the relayed station 0 has a record in hand under an entry, its reply awaited. The
next writes of a completed record of station 2 wait beside a second entry in DRAINING of loop B, before the settlements
that follow. -/
def relaying : Part :=
  let other := { relayed .relayCollect poll with
    owner := some .B, inHand := some 7, binding := { station.binding with loop := .B, coupler := 4 } }
  let second : RelayEntry := { entry .collecting with loop := .B, coupler := 4, station := 3, record := 7 }
  let turn : Turn := { station := 0, periodic := true, stage := .attempt, attempted := true, closing := false }
  Part.modEng .B
    (fun e => { e with
      ctl := { e.ctl with state := .draining, drainTarget := some .off }
      sched := [.writeResult 2 5 .stopped 0, .writeDone 2 5 .none .ready, .writeStationHalf 2, .raise .exfault, .mark,
                .settle 3 .stopped, .mark, .enterTarget]
      urgent := [.writeLoopHalf] })
    (withStation 2 { station with owner := some .B, inHand := some 5 }
      (withStation 3 other
        (withStation 0 (relayed .relayStart poll)
          (withEntry .starting
            (part .running fun e =>
              { awaiting .awaiting { attempt .relayStart with source := 6 } e with
                cyc := { e.cyc with phase := .periodic, turn := some turn } })))))
    |> fun p => { p with relays := p.relays.set 5 (some second) }

theorem witness_RelayEntries_attempt : (relaying.eng .A).xu.attempt.isSome = true ∧ relaying.live = true ∧
    relaying.relayOf 0 ≠ none ∧ relaying.relayOf 3 ≠ none := by decide +kernel

theorem witness_RelayEntries :
    relaying.couplersDistinct ∧ relaying.testOwned ∧ relaying.standing ∧ relaying.relaysOrdered :=
  ⟨by decide +kernel, fun l h => by cases l <;> exact absurd h (by decide +kernel),
   fun _ l => by cases l <;> decide +kernel,
   by decide +kernel, by decide +kernel, fun l => by
    cases l <;> exact ⟨by decide +kernel, by decide +kernel, by decide +kernel, by decide +kernel⟩⟩

theorem witness_RelayEntries_reset : State.reset.part.relaysOrdered :=
  ⟨by decide +kernel, by decide +kernel, fun l => by
    cases l <;> exact ⟨by decide +kernel, by decide +kernel, by decide +kernel, by decide +kernel⟩⟩

theorem witness_LoopIndependence :
    State.commandLoop State.reset (.start 0 .A (.written 0)) = some .A ∧
    State.commandLoop (stateOf (moving (.catcher .B) (.read 0x88 4) false (part .running id)))
      (.transferComplete 0 []) = some .B := by decide +kernel

end Sys2Proof.Tests
end

