-- ==== Sys2Proof/Proofs/FrameCheck.lean ====
section
/-!
The check of a frame (R6): the shift register bit by bit, the check in the characters sent and in those received,
and its use by the pattern filters (R116).
-/
namespace Sys2Proof.Machine

open Sys2Proof

/-! ### Bytes of a list -/

theorem byteAt_append_left {as : List Byte} (bs : List Byte) {i : Nat} (h : i < as.length) :
    byteAt (as ++ bs) i = byteAt as i :=
  List.getD_append as bs 0 i h

theorem byteAt_append_add (as bs : List Byte) (i : Nat) :
    byteAt (as ++ bs) (as.length + i) = byteAt bs i := by
  rw [byteAt, List.getD_append_right _ _ _ _ (Nat.le_add_right ..), Nat.add_sub_cancel_left, byteAt]

/-! ### The register -/

/-- The bit that leaves the top of the register is its bit 15. -/
theorem crcBit_eq (r : BitVec 16) (b : Bool) :
    crcBit r b = if r.getLsbD 15 ≠ b then (r <<< 1) ^^^ 0x1021 else r <<< 1 := by
  simp only [crcBit, BitVec.msb_eq_getLsbD_last, bne_iff_ne]

theorem crcByte_eq_foldl (r : BitVec 16) (b : Byte) :
    crcByte r b = (List.range 8).foldl (fun r i => crcBit r (b.getLsbD (7 - i))) r := rfl

theorem crc16_append_singleton (bs : List Byte) (b : Byte) :
    crc16 (bs ++ [b]) = crcByte (crc16 bs) b :=
  List.foldl_concat ..

/-- Each byte takes the register through eight shift steps, its most significant bit first. -/
theorem crc16_append_singleton_eq_foldl (bs : List Byte) (b : Byte) :
    crc16 (bs ++ [b]) =
      (List.range 8).foldl
        (fun (r : BitVec 16) (i : Nat) =>
          if r.getLsbD 15 ≠ b.getLsbD (7 - i) then (r <<< 1) ^^^ 0x1021 else r <<< 1)
        (crc16 bs) := by
  simp only [crc16_append_singleton, crcByte_eq_foldl, crcBit_eq]

/-! ### The check in a frame -/

theorem TxFrame.chars_eq (f : TxFrame) :
    f.chars = [0xA5] ++ f.body ++ [(crc16 f.body).extractLsb' 8 8, (crc16 f.body).extractLsb' 0 8] := rfl

theorem controlClean_iff (c : Byte) : controlClean c = true ↔ c.extractLsb' 6 2 = 0 := beq_iff_eq

theorem frameValid_iff (cs : List Byte) :
    frameValid cs = true ↔ (byteAt cs 3).extractLsb' 6 2 = 0 ∧
      crc16 ((cs.drop 1).take (4 + charsLength cs)) =
        byteAt cs (5 + charsLength cs) ++ byteAt cs (6 + charsLength cs) := by
  rw [frameValid, Bool.and_eq_true, controlClean_iff, beq_iff_eq]

section Received

variable {header payload : List Byte} (lead high low : Byte)

/-- The header of a received frame follows its lead character. -/
theorem byteAt_frame_header {i : Nat} (h : i < header.length) :
    byteAt ([lead] ++ header ++ payload ++ [high, low]) (i + 1) = byteAt header i := by
  rw [List.append_assoc, List.append_assoc, Nat.add_comm]
  exact (byteAt_append_add [lead] _ i).trans (byteAt_append_left _ h)

/-- The two check characters of a received frame follow its header and payload. -/
theorem byteAt_frame_check (i : Nat) :
    byteAt ([lead] ++ header ++ payload ++ [high, low]) (1 + header.length + payload.length + i) =
      byteAt [high, low] i := by
  simpa [Nat.add_comm, Nat.add_assoc] using byteAt_append_add ([lead] ++ header ++ payload) [high, low] i

/-- What the check covers: all between the lead and the check characters. -/
theorem take_drop_frame :
    (([lead] ++ header ++ payload ++ [high, low]).drop 1).take (header.length + payload.length) =
      header ++ payload := by
  simpa using List.take_left (l₁ := header ++ payload) (l₂ := [high, low])

/-- The length character of a header names the payload's length, which fits a byte. -/
theorem charsLength_frame (hheader : header.length = 4)
    (hlength : byteAt header 3 = BitVec.ofNat 8 payload.length) (hfits : payload.length < 256) :
    charsLength ([lead] ++ header ++ payload ++ [high, low]) = payload.length := by
  rw [charsLength, byteAt_frame_header lead high low (i := 3) (by omega), hlength, BitVec.toNat_ofNat,
    Nat.mod_eq_of_lt hfits]

/-- A received frame's check matches when the computed check is the one received, high byte first. -/
theorem frameValid_frame_iff (hheader : header.length = 4)
    (hlength : byteAt header 3 = BitVec.ofNat 8 payload.length) (hfits : payload.length < 256) :
    frameValid ([lead] ++ header ++ payload ++ [high, low]) = true ↔
      (byteAt header 2).extractLsb' 6 2 = 0 ∧ crc16 (header ++ payload) = high ++ low := by
  have hcontrol := byteAt_frame_header (payload := payload) lead high low (i := 2) (by omega : 2 < header.length)
  have hcovered := take_drop_frame (header := header) (payload := payload) lead high low
  have hhigh := byteAt_frame_check (header := header) (payload := payload) lead high low 0
  have hlow := byteAt_frame_check (header := header) (payload := payload) lead high low 1
  rw [hheader] at hcovered hhigh hlow
  rw [frameValid_iff, charsLength_frame lead high low hheader hlength hfits, hcontrol, hcovered,
    show 5 + payload.length = 1 + 4 + payload.length + 0 by omega, hhigh,
    show 6 + payload.length = 1 + 4 + payload.length + 1 by omega, hlow]
  rfl

end Received

/-! ### The check of a filter -/

/-- A filter that matches has found its expected check over the bytes that it selects (R116). -/
theorem Filter.crc16_of_matchesBytes {flt : Filter} {bs : List Byte} (h : flt.matchesBytes bs = true) :
    crc16 (flt.positions.map (byteAt bs)) = flt.expected := by
  simp only [Filter.matchesBytes, Bool.and_eq_true, beq_iff_eq] at h
  obtain ⟨-, hcheck⟩ := h
  exact hcheck

theorem Filter.map_positions (flt : Filter) (bs : List Byte) :
    flt.positions.map (byteAt bs) =
      ((List.range 64).filter fun j => flt.mask.getLsbD j).map fun j => byteAt bs (flt.offset.toNat + j) :=
  List.map_map

/-- Settles O50: the register by its shift steps, the frame sent and the frame received by where the check stands in
their characters, the filters by the same computation over the bytes they select. -/
theorem frameCheck : Obligations.FrameCheck := by
  refine ⟨rfl, crc16_append_singleton_eq_foldl, by decide +kernel, TxFrame.chars_eq, ?received, ?filters⟩
  case received =>
    intro header payload high low hheader hlength hpayload
    exact frameValid_frame_iff 0xA5 high low hheader hlength (by omega)
  case filters =>
    intro flt bytes hmatch
    rw [← Filter.map_positions]
    exact Filter.crc16_of_matchesBytes hmatch

end Sys2Proof.Machine
end

