-- ==== Sys2Proof/Proofs/FilterMatches.lean ====
section
/-!
The pattern filters and the wake marker: when a filter matches (R115, R116), the updates of the filters and the
writes of their words as changes of one filter that act one after another (R117), and the search for the marker of a
loop identity (R146).
-/
namespace Sys2Proof.Machine

open Sys2Proof

/-! ### The qualifier (R112, R113, R115) -/

theorem Context.admittedTo_iff (c : Context) (l : LoopId) :
    c.admittedTo l = true ↔ c.owner = some l ∧
      (c.state = .ready ∨ c.state = .active ∨ c.state = .silent ∨ c.state = .absent ∨ c.state = .halted) := by
  simp only [Context.admittedTo, Bool.and_eq_true, Bool.or_eq_true, beq_iff_eq, or_assoc]

theorem Binding.direct_iff (b : Binding) : b.direct = true ↔ b.coupler = 0xFF := beq_iff_eq

theorem Part.knownSource_isSome_iff (p : Part) (l : LoopId) (source : Byte) :
    (p.knownSource l source).isSome = true ↔
      ∃ i : StationIx, (p.ctx i).admittedTo l = true ∧ (p.ctx i).binding.direct = true ∧
        (p.ctx i).binding.lineAddress = source := by
  simp only [Part.knownSource, List.find?_isSome, allStations, List.mem_finRange, true_and, Bool.and_eq_true,
    beq_iff_eq, and_assoc]

theorem ScreeningStore.group_eq_some_iff (s : ScreeningStore) (destination : Byte) (e : GroupEntry) :
    s.group destination = some e ↔ ∃ g : Fin 15, destination.toNat = 240 + g.val ∧ s.groups[g] = e := by
  rw [ScreeningStore.group, Option.dite_none_right_eq_some]
  constructor
  · rintro ⟨hrange, he⟩
    have hplace : destination.toNat = 240 + (destination.toNat - 240) := by omega
    have hentry : destination.toNat - 240 < 15 := by omega
    refine ⟨⟨destination.toNat - 240, hentry⟩, hplace, ?_⟩
    rw [Fin.getElem_fin]
    exact Option.some.inj he
  · rintro ⟨g, hg, he⟩
    have hindex : destination.toNat - 240 = g.val := by omega
    refine ⟨by omega, congrArg some ?_⟩
    simpa only [hindex, Fin.getElem_fin] using he

/-- The flag of a group entry that a screen uses (R113). -/
def GroupEntry.listedBy (e : GroupEntry) : Screen → Bool
  | .announce => e.announceAccept
  | .wake => e.wake

theorem ScreeningStore.groupListed_iff (s : ScreeningStore) (screen : Screen) (destination : Byte) :
    s.groupListed screen destination = true ↔
      ∃ g : Fin 15, destination.toNat = 240 + g.val ∧ s.groups[g].listedBy screen = true := by
  have hentry : s.groupListed screen destination = true ↔
      ∃ e, s.group destination = some e ∧ e.listedBy screen = true := by
    rw [ScreeningStore.groupListed]
    cases s.group destination with
    | none => simp
    | some e => cases screen <;> simp [GroupEntry.listedBy]
  simp only [hentry, ScreeningStore.group_eq_some_iff]
  constructor
  · rintro ⟨_, ⟨g, hg, rfl⟩, hlisted⟩
    exact ⟨g, hg, hlisted⟩
  · rintro ⟨g, hg, hlisted⟩
    exact ⟨_, ⟨g, hg, rfl⟩, hlisted⟩

theorem Part.qualifies_knownSource_iff (p : Part) (l : LoopId) (screen : Screen) (f : RxFrame) :
    p.qualifies l screen f .knownSource = true ↔
      ∃ i : StationIx, (p.ctx i).owner = some l ∧
        ((p.ctx i).state = .ready ∨ (p.ctx i).state = .active ∨ (p.ctx i).state = .silent ∨
          (p.ctx i).state = .absent ∨ (p.ctx i).state = .halted) ∧
        (p.ctx i).binding.coupler = 0xFF ∧ (p.ctx i).binding.lineAddress = f.source := by
  simp only [Part.qualifies, Part.knownSource_isSome_iff, Context.admittedTo_iff, Binding.direct_iff, and_assoc]

/-! ### The match of a filter (R114, R116) -/

theorem FilterScope.judgedBy_iff (scope : FilterScope) (screen : Screen) :
    scope.judgedBy screen = true ↔
      scope = .both ∨ (scope = .announce ∧ screen = .announce) ∨ (scope = .wake ∧ screen = .wake) := by
  cases scope <;> cases screen <;> decide

theorem mem_selected_iff (mask : BitVec 64) (j : Nat) :
    (j ∈ (List.range 64).filter fun j => mask.getLsbD j) ↔ mask.getLsbD j = true := by
  rw [List.mem_filter, List.mem_range]
  exact ⟨fun h => h.2, fun h => ⟨BitVec.lt_of_getLsbD h, h⟩⟩

theorem Filter.positions_eq_nil_iff (flt : Filter) : flt.positions = [] ↔ flt.mask = 0 := by
  rw [Filter.positions, List.map_eq_nil_iff, List.eq_nil_iff_forall_not_mem]
  simp only [mem_selected_iff]
  constructor
  · intro hclear
    exact BitVec.eq_of_getLsbD_eq fun j _ => by simpa using hclear j
  · intro hmask j
    simp [hmask]

theorem Filter.matchesBytes_iff (flt : Filter) (bytes : List Byte) :
    flt.matchesBytes bytes = true ↔
      flt.mask ≠ 0 ∧
      (∀ j ∈ (List.range 64).filter fun j => flt.mask.getLsbD j, flt.offset.toNat + j < bytes.length) ∧
      crc16 (((List.range 64).filter fun j => flt.mask.getLsbD j).map
        fun j => byteAt bytes (flt.offset.toNat + j)) = flt.expected := by
  have hfits : flt.positions.all (fun q => decide (q < bytes.length)) = true ↔
      ∀ j ∈ (List.range 64).filter fun j => flt.mask.getLsbD j, flt.offset.toNat + j < bytes.length := by
    simp only [Filter.positions, List.all_map, List.all_eq_true, Function.comp_apply, decide_eq_true_eq]
  have hselects : (!flt.positions.isEmpty) = true ↔ flt.mask ≠ 0 := by
    rw [Bool.not_eq_true', ← Bool.not_eq_true, List.isEmpty_iff, Filter.positions_eq_nil_iff]
  rw [Filter.matchesBytes, Bool.and_eq_true, Bool.and_eq_true, hselects, hfits, beq_iff_eq, Filter.map_positions,
    and_assoc]

theorem Part.filterMatches_iff (p : Part) (l : LoopId) (screen : Screen) (f : RxFrame) (flt : Filter) :
    p.filterMatches l screen f flt = true ↔
      (flt.enable = true ∧ flt.scope.judgedBy screen = true) ∧ p.qualifies l screen f flt.qualifier = true ∧
        flt.matchesBytes f.screened = true := by
  simp only [Part.filterMatches, Bool.and_eq_true, and_assoc]

/-! ### The triggered set (R111) -/

theorem Part.mem_triggeredFilters_iff (p : Part) (l : LoopId) (screen : Screen) (f : RxFrame) (n : Fin 16) :
    n ∈ p.triggeredFilters l screen f ↔ p.filterMatches l screen f p.screening.filters[n] = true := by
  simp [Part.triggeredFilters]

theorem Part.triggeredFilters_nodup (p : Part) (l : LoopId) (screen : Screen) (f : RxFrame) :
    (p.triggeredFilters l screen f).Nodup :=
  (List.nodup_finRange 16).filter _

theorem getLsbD_flag (m n : Fin 16) :
    ((1 <<< m.val : Nat) : BitVec 16).getLsbD n.val = true ↔ n = m := by
  rw [BitVec.natCast_eq_ofNat, BitVec.getLsbD_ofNat, Nat.one_shiftLeft, Nat.testBit_two_pow]
  simp [Fin.ext_iff, eq_comm]

theorem getLsbD_foldl_flags (ns : List (Fin 16)) (flags : BitVec 16) (n : Fin 16) :
    (ns.foldl (fun (acc : BitVec 16) m => acc ||| ((1 <<< m.val : Nat) : BitVec 16)) flags).getLsbD n.val = true ↔
      flags.getLsbD n.val = true ∨ n ∈ ns := by
  induction ns generalizing flags with
  | nil => simp
  | cons m ns ih =>
    rw [List.foldl_cons, ih, BitVec.getLsbD_or, Bool.or_eq_true, getLsbD_flag, List.mem_cons, or_assoc]

theorem getLsbD_triggeredFlags (ns : List (Fin 16)) (n : Fin 16) :
    (triggeredFlags ns).getLsbD n.val = true ↔ n ∈ ns := by
  rw [triggeredFlags, getLsbD_foldl_flags]
  simp

/-! ### A change of one filter (R117) -/

/-- A counter of a byte stays at 255. -/
theorem satInc_byte (x : Byte) : satInc x = if x = 255 then 255 else x + 1 := by
  by_cases h : x = 255
  · subst h
    decide
  · have hlast : x ≠ BitVec.allOnes 8 := h
    rw [satInc, if_neg hlast, if_neg h]

theorem Filter.hit_eq (flt : Filter) :
    flt.hit = { flt with
      triggered := true
      matchCount := if flt.matchCount = 255 then 255 else flt.matchCount + 1 } := by
  rw [Filter.hit, satInc_byte]

/-- The store with one filter changed. -/
def ScreeningStore.modFilter (n : Fin 16) (g : Filter → Filter) (s : ScreeningStore) : ScreeningStore :=
  { s with filters := s.filters.set n (g s.filters[n]) }

theorem ScreeningStore.filters_modFilter (n m : Fin 16) (g : Filter → Filter) (s : ScreeningStore) :
    (s.modFilter n g).filters[m] = if m = n then g s.filters[m] else s.filters[m] := by
  by_cases h : m = n
  · subst h
    simp [ScreeningStore.modFilter]
  · have hval : n.val ≠ m.val := fun hval => h (Fin.ext hval.symm)
    simp [ScreeningStore.modFilter, h, hval]

/-- Two changes of one filter act one after another, the later on what the earlier left. -/
theorem ScreeningStore.modFilter_modFilter (n : Fin 16) (g h : Filter → Filter) (s : ScreeningStore) :
    (s.modFilter n g).modFilter n h = s.modFilter n (h ∘ g) := by
  simp [ScreeningStore.modFilter]

theorem ScreeningStore.hitAll_cons (n : Fin 16) (ns : List (Fin 16)) (s : ScreeningStore) :
    s.hitAll (n :: ns) = (s.modFilter n Filter.hit).hitAll ns := rfl

/-- Each filter that is named once is updated once, and no other is. -/
theorem ScreeningStore.filters_hitAll (ns : List (Fin 16)) (hnodup : ns.Nodup) (s : ScreeningStore) (m : Fin 16) :
    (s.hitAll ns).filters[m] = if m ∈ ns then s.filters[m].hit else s.filters[m] := by
  induction ns generalizing s with
  | nil => simp [ScreeningStore.hitAll]
  | cons n ns ih =>
    obtain ⟨hn, hns⟩ := List.nodup_cons.mp hnodup
    rw [ScreeningStore.hitAll_cons, ih hns, ScreeningStore.filters_modFilter]
    by_cases h : m = n
    · subst h
      simp [hn]
    · simp [h]

theorem ScreeningStore.filterWrite_eq_modFilter (n : Fin 16) {w : Nat} (hw : w < 8) (v : Word)
    (s : ScreeningStore) :
    s.filterWrite (8 * n.val + w) v = s.modFilter n fun flt => flt.writeWord w v := by
  have hfilter : (8 * n.val + w) / 8 = n.val := by omega
  have hword : (8 * n.val + w) % 8 = w := by omega
  simp [ScreeningStore.filterWrite, ScreeningStore.modFilter, hfilter, hword]

/-- The part with one filter changed. -/
def Part.modFilter (n : Fin 16) (g : Filter → Filter) (p : Part) : Part :=
  { p with screening := p.screening.modFilter n g }

theorem Part.filters_modFilter (n : Fin 16) (g : Filter → Filter) (p : Part) :
    (p.modFilter n g).screening.filters[n] = g p.screening.filters[n] := by
  simp only [Part.modFilter, ScreeningStore.filters_modFilter, if_true]

theorem Part.modFilter_modFilter (n : Fin 16) (g h : Filter → Filter) (p : Part) :
    (p.modFilter n g).modFilter n h = p.modFilter n (h ∘ g) := by
  simp only [Part.modFilter, ScreeningStore.modFilter_modFilter]

/-- The update of one filter is a change of that filter. -/
theorem Part.hitAll_singleton (n : Fin 16) (p : Part) :
    { p with screening := p.screening.hitAll [n] } = p.modFilter n Filter.hit := rfl

/-- A write of one of the eight words of a filter is a change of that filter. -/
theorem Part.windowStore_filter (n : Fin 16) {w : Nat} (hw : w < 8) (v : Word) (p : Part) :
    p.windowStore 1 (BitVec.ofNat 12 (8 * n.val + w)) v = p.modFilter n fun flt => flt.writeWord w v := by
  have hoffset : (BitVec.ofNat 12 (8 * n.val + w)).toNat = 8 * n.val + w := by
    rw [BitVec.toNat_ofNat]
    omega
  rw [Part.modFilter, ← ScreeningStore.filterWrite_eq_modFilter n hw]
  exact congrArg (fun offset => { p with screening := p.screening.filterWrite offset v }) hoffset

/-- The status of a filter: its triggered flag and its match count. -/
def Filter.status (flt : Filter) : Bool × Byte := (flt.triggered, flt.matchCount)

theorem Filter.status_hit (flt : Filter) :
    flt.hit.status = (true, if flt.status.2 = 255 then 255 else flt.status.2 + 1) := by
  rw [Filter.hit_eq]
  rfl

theorem Filter.status_writeWord (flt : Filter) (v : Word) :
    (flt.writeWord 4 v).status = (v.getLsbD 0, v.extractLsb' 8 8) := rfl

/-- The update and a write of a word other than the status word touch different fields. -/
theorem Filter.hit_writeWord (flt : Filter) {w : Nat} (hw : w ≠ 4) (v : Word) :
    (flt.writeWord w v).hit = flt.hit.writeWord w v := by
  match w, hw with
  | 0, _ | 1, _ | 2, _ | 3, _ | _ + 5, _ => rfl

/-! ### The wake marker (R146) -/

theorem holdsRun_iff_infix (run bs : List Byte) : holdsRun run bs = true ↔ run <:+: bs := by
  induction bs with
  | nil => rw [holdsRun, List.isPrefixOf_iff_prefix, List.prefix_nil, List.infix_nil]
  | cons b bs ih =>
    rw [holdsRun, Bool.or_eq_true, List.isPrefixOf_iff_prefix, ih, List.infix_cons_iff]

theorem getElem?_eq_some_iff_byteAt {bs : List Byte} {i : Nat} (h : i < bs.length) (b : Byte) :
    bs[i]? = some b ↔ byteAt bs i = b := by
  rw [byteAt, List.getD_eq_getElem _ _ h, List.getElem?_eq_getElem h, Option.some.injEq]

/-- A byte sequence holds another where each byte of the other stands, from one position on. -/
theorem holdsRun_iff (run bs : List Byte) :
    holdsRun run bs = true ↔
      ∃ q : Nat, q + run.length ≤ bs.length ∧ ∀ i < run.length, byteAt bs (q + i) = byteAt run i := by
  rw [holdsRun_iff_infix, List.infix_iff_getElem?]
  refine exists_congr fun q => ?_
  rw [Nat.add_comm run.length q]
  refine and_congr_right fun hfits => forall₂_congr fun i hi => ?_
  rw [Nat.add_comm i q, getElem?_eq_some_iff_byteAt (by omega), byteAt, byteAt, List.getD_eq_getElem run 0 hi]

theorem wakeMarker_length (identity : Word) : (wakeMarker identity).length = 22 := rfl

theorem byteAt_wakeMarker_lead (identity : Word) {j : Nat} (hj : j < 6) :
    byteAt (wakeMarker identity) j = 0xFF := by
  interval_cases j <;> rfl

theorem byteAt_bytesOfWord (w : Word) {j : Nat} (hj : j < 4) :
    byteAt (bytesOfWord w) j = (w >>> (8 * j)).setWidth 8 := by
  rw [BitVec.setWidth_ushiftRight_eq_extractLsb]
  interval_cases j <;> rfl

theorem byteAt_wakeMarker_copy (identity : Word) {copy j : Nat} (hcopy : copy < 4) (hj : j < 4) :
    byteAt (wakeMarker identity) (6 + 4 * copy + j) = (identity >>> (8 * j)).setWidth 8 := by
  rw [← byteAt_bytesOfWord identity hj]
  interval_cases copy <;> interval_cases j <;> rfl

/-- The 22 places of a marker are six places and four groups of four. -/
theorem forall_lt_marker_iff (P : Nat → Prop) :
    (∀ i < 22, P i) ↔ (∀ j < 6, P j) ∧ ∀ copy < 4, ∀ j < 4, P (6 + 4 * copy + j) := by
  constructor
  · intro h
    exact ⟨fun j hj => h j (by omega), fun copy hcopy j hj => h _ (by omega)⟩
  · rintro ⟨hlead, hcopies⟩ i hi
    by_cases hi6 : i < 6
    · exact hlead i hi6
    · have hplace : 6 + 4 * ((i - 6) / 4) + (i - 6) % 4 = i := by omega
      exact hplace ▸ hcopies ((i - 6) / 4) (by omega) ((i - 6) % 4) (by omega)

theorem holdsRun_wakeMarker_iff (identity : Word) (payload : List Byte) :
    holdsRun (wakeMarker identity) payload = true ↔
      ∃ q : Nat, q + 22 ≤ payload.length ∧
        (∀ j < 6, byteAt payload (q + j) = 0xFF) ∧
        ∀ copy < 4, ∀ j < 4,
          byteAt payload (q + 6 + 4 * copy + j) = (identity >>> (8 * j)).setWidth 8 := by
  rw [holdsRun_iff, wakeMarker_length]
  refine exists_congr fun q => and_congr_right fun _ => ?_
  rw [forall_lt_marker_iff]
  refine and_congr ?lead ?copies
  case lead =>
    exact forall₂_congr fun j hj => by rw [byteAt_wakeMarker_lead identity hj]
  case copies =>
    refine forall₂_congr fun copy hcopy => forall₂_congr fun j hj => ?_
    rw [byteAt_wakeMarker_copy identity hcopy hj, ← Nat.add_assoc, ← Nat.add_assoc]

/-- The marker is the reason that a loop wakes exactly when the payload holds the marker of its own identity. -/
theorem Part.wakeReason_eq_marker_iff (p : Part) (l : LoopId) (f : RxFrame) (hits : List (Fin 16)) :
    p.wakeReason l f hits = some .marker ↔
      holdsRun (wakeMarker (p.eng l).cfg.identity) f.payload = true := by
  by_cases h : holdsRun (wakeMarker (p.eng l).cfg.identity) f.payload = true
  · simp only [Part.wakeReason, h, if_true]
  · refine iff_of_false ?_ h
    rw [Part.wakeReason, if_neg h]
    split_ifs <;> simp

/-! ### The obligation -/

/-- Settles O51: the match by its four conditions, the updates by the one change that each makes of its filter, the
marker by the places of its bytes. -/
theorem filterAndMarkerMatches : Obligations.FilterAndMarkerMatches := by
  refine ⟨fun p l screen f flt => ⟨?filterMatch, ?updated, ?named, fun n v => ?ordered⟩,
    holdsRun_wakeMarker_iff, Part.wakeReason_eq_marker_iff⟩
  case filterMatch =>
    rw [Part.filterMatches_iff, FilterScope.judgedBy_iff, Filter.matchesBytes_iff]
    refine and_congr_right fun _ => and_congr ?_ Iff.rfl
    cases flt.qualifier with
    | any => exact iff_of_true rfl trivial
    | toConcentrator => exact beq_iff_eq
    | groupListed =>
      cases screen with
      | announce => exact p.screening.groupListed_iff .announce f.destination
      | wake => exact p.screening.groupListed_iff .wake f.destination
    | knownSource => exact Part.qualifies_knownSource_iff ..
  case updated =>
    intro n
    rw [ScreeningStore.filters_hitAll _ (p.triggeredFilters_nodup l screen f)]
    simp only [Part.mem_triggeredFilters_iff, Filter.hit_eq]
  case named =>
    intro n
    rw [getLsbD_triggeredFlags, Part.mem_triggeredFilters_iff]
  case ordered =>
    intro raised status update storeWord store written
    have hstatus (g : Filter → Filter) (q : Part) :
        status (q.modFilter n g) = (g q.screening.filters[n]).status := by
      rw [← Part.filters_modFilter n g q]
      rfl
    have hupdate (q : Part) : update q = q.modFilter n Filter.hit := Part.hitAll_singleton n q
    have hstoreWord {w : Nat} (hw : w < 8) (q : Part) :
        storeWord w q = q.modFilter n fun flt => flt.writeWord w v :=
      Part.windowStore_filter n hw v q
    have hstore (q : Part) : store q = q.modFilter n fun flt => flt.writeWord 4 v :=
      hstoreWord (by decide) q
    refine ⟨?_, ?_, ?_, ?_, ?_, fun w hw hne => ?_⟩
    · rw [hupdate, hstatus, Filter.status_hit]
      rfl
    · rw [hstore, hstatus, Filter.status_writeWord]
    · rw [hstore, hupdate, Part.modFilter_modFilter, hstatus, Function.comp_apply, Filter.status_hit,
        Filter.status_writeWord]
    · rw [hupdate, hstore, Part.modFilter_modFilter, hstatus, Function.comp_apply, Filter.status_writeWord]
    · rw [hupdate, hupdate, Part.modFilter_modFilter, hstatus, Function.comp_apply, Filter.status_hit,
        Filter.status_hit]
      rfl
    · rw [hstoreWord hw, hstoreWord hw, hupdate, hupdate, Part.modFilter_modFilter, Part.modFilter_modFilter]
      exact congrArg (p.modFilter n ·) (funext fun flt => flt.hit_writeWord hne v)

end Sys2Proof.Machine
end

