-- ==== Sys2Proof/Proofs/Resets.lean ====
section
/-!
What the resets do to AREA, MASK and CAUSE: RESET_N and power-on clear them (R168), a soft reset clears CAUSE when it
begins and keeps the other two throughout (R166, R167).
-/
namespace Sys2Proof.Machine

open Sys2Proof

/-- A command that leaves memory alone answers the part after its work and the grant. -/
theorem exec_eq_become {c : Instr} {s : State} (hmem : commandMemory c s = s.mem) :
    exec c s = .next (s.become (commandWork c s (s.part.tick (commandTime c)))) := by
  rw [exec_eq, hmem, State.become]

theorem Part.live_iff (p : Part) : p.live = true ↔ p.resetHeld = false ∧ p.resetting = false := by
  rw [Part.live, Bool.and_eq_true, Bool.not_eq_true', Bool.not_eq_true']

/-! ### Power-on -/

@[simp] theorem Part.powerOn_area (now : Nat) (a b : Bool) : (Part.powerOn now a b).area = 0 := rfl

@[simp] theorem Part.powerOn_mask (now : Nat) (a b : Bool) : (Part.powerOn now a b).mask = 0 := rfl

@[simp] theorem Part.powerOn_cause (now : Nat) (a b : Bool) : (Part.powerOn now a b).cause = 0 := rfl

/-! ### RESET_N -/

theorem Part.assertReset_of {p : Part} (h : p.resetHeld = false) :
    p.assertReset = { Part.powerOn p.now p.engA.mon.biasOk p.engB.mon.biasOk with resetHeld := true } := by
  rw [Part.assertReset, h, if_neg Bool.false_ne_true, Part.holdReset]

theorem Part.releaseReset_of {p : Part} (h : p.resetHeld = true) :
    p.releaseReset = Part.powerOn p.now p.engA.mon.biasOk p.engB.mon.biasOk := by
  rw [Part.releaseReset, if_pos h]

/-- RESET_N becoming active in a part not held in reset clears the three registers. -/
theorem exec_resetNAssert_registers (dt : Nat) (landed : BitVec 128) {s : State}
    (h : s.part.resetHeld = false) :
    ∃ t, exec (.resetNAssert dt landed) s = .next t ∧
      t.part.area = 0 ∧ t.part.mask = 0 ∧ t.part.cause = 0 :=
  ⟨_, exec_eq _ s, by simp [commandWork, Part.assertReset_of, h]⟩

/-- RESET_N becoming inactive in a part held in reset leaves the three registers clear. -/
theorem exec_resetNRelease_registers (dt : Nat) {s : State} (h : s.part.resetHeld = true) :
    ∃ t, exec (.resetNRelease dt) s = .next t ∧ t.part.area = 0 ∧ t.part.mask = 0 ∧ t.part.cause = 0 :=
  ⟨_, exec_eq _ s, by simp [commandWork, Part.releaseReset_of, h]⟩

/-! ### The soft reset -/

@[simp] theorem Part.beginSoftReset_area (p : Part) : p.beginSoftReset.area = p.area := by
  unfold Part.beginSoftReset; split <;> rfl

@[simp] theorem Part.beginSoftReset_mask (p : Part) : p.beginSoftReset.mask = p.mask := by
  unfold Part.beginSoftReset; split <;> rfl

theorem Part.beginSoftReset_cause {p : Part} (h : (p.live && p.latchFree) = true) :
    p.beginSoftReset.cause = 0 := by
  rw [Part.beginSoftReset, if_pos h]

@[simp] theorem Part.endSoftReset_area (p : Part) : p.endSoftReset.area = p.area := by
  unfold Part.endSoftReset; split <;> rfl

@[simp] theorem Part.endSoftReset_mask (p : Part) : p.endSoftReset.mask = p.mask := by
  unfold Part.endSoftReset; split <;> rfl

/-- The write that begins a soft reset keeps AREA and MASK; where it is taken, it clears CAUSE. -/
theorem exec_softReset_registers (dt : Nat) (fields : BitVec 8) (s : State) :
    ∃ t, exec (.softReset dt fields) s = .next t ∧ t.part.area = s.part.area ∧ t.part.mask = s.part.mask ∧
      ((s.part.live && s.part.latchFree) = true → t.part.cause = 0) := by
  refine ⟨_, exec_eq _ s, by simp [commandWork], by simp [commandWork], fun htaken => ?_⟩
  rw [Part.arbitrate_cause]
  exact Part.beginSoftReset_cause (p := s.part.tick dt) htaken

/-- The end of a soft reset keeps AREA and MASK. -/
theorem exec_softResetComplete_registers (dt : Nat) (s : State) :
    ∃ t, exec (.softResetComplete dt) s = .next t ∧ t.part.area = s.part.area ∧ t.part.mask = s.part.mask :=
  ⟨_, exec_eq _ s, by simp [commandWork], by simp [commandWork]⟩

end Sys2Proof.Machine
end

