-- ==== Sys2Proof/Proofs/AreaRegister.lean ====
section
/-!
AREA (R158): the base of the control area as a read returns it, the write that the loop states gate, and the transfer
that is formed on it.
-/
namespace Sys2Proof.Machine

open Sys2Proof

/-! ### The base read -/

theorem Part.readRegister_area (p : Part) : p.readRegister 0x00 = p.areaBase := rfl

/-- The low twelve bits of the base are 0. -/
theorem Part.areaBase_and_low (p : Part) : p.areaBase &&& 0xFFF = 0 := by
  have hlow : (0xFFF : Word) = (0 : BitVec 20) ++ BitVec.allOnes 12 := rfl
  calc
    p.areaBase &&& 0xFFF = (p.area &&& 0) ++ (0 &&& BitVec.allOnes 12) := by
      rw [hlow, Part.areaBase, BitVec.and_append]
    _ = 0 := by simp

/-- The high twenty bits of a word, over twelve zeros, are the word with its low twelve bits dropped. -/
theorem extractLsb'_high_append_zero (w : Word) : w.extractLsb' 12 20 ++ 0#12 = w &&& 0xFFFFF000 := by
  have hhigh : (0xFFFFF000 : Word) = BitVec.allOnes 20 ++ 0#12 := rfl
  have hsplit : w.extractLsb' 12 20 ++ w.extractLsb' 0 12 = w :=
    BitVec.extractLsb'_append_extractLsb' (w := 20) (len := 12)
  calc
    w.extractLsb' 12 20 ++ 0#12
      = (w.extractLsb' 12 20 ++ w.extractLsb' 0 12) &&& (BitVec.allOnes 20 ++ 0#12) := by
        rw [BitVec.and_append, BitVec.and_allOnes, BitVec.and_zero]
    _ = w &&& 0xFFFFF000 := by rw [hsplit, hhigh]

theorem Part.readRegister_area_written (p : Part) (value : Word) :
    Part.readRegister { p with area := value.extractLsb' 12 20 } 0x00 = value &&& 0xFFFFF000 :=
  extractLsb'_high_append_zero value

/-- The first read of a START is made on the base as it stands (R126). -/
theorem Part.schedAction_readGlobal (p : Part) (l : LoopId) :
    p.schedAction l .readGlobal = some (.read (p.readRegister 0x00) 64) := rfl

/-! ### The write -/

theorem Part.writeArea_of_off {p : Part} (hlive : p.live = true) (hoff : ∀ l, (p.eng l).ctl.state = .off)
    (value : Word) : p.writeArea value = { p with area := value.extractLsb' 12 20 } := by
  have hA : p.engA.ctl.state = .off := hoff .A
  have hB : p.engB.ctl.state = .off := hoff .B
  simp [Part.writeArea, hlive, hA, hB]

theorem Part.writeArea_of_not_off {p : Part} {l : LoopId} (hl : (p.eng l).ctl.state ≠ .off) (value : Word) :
    p.writeArea value = p := by
  cases l with
  | A =>
    have hA : p.engA.ctl.state ≠ .off := hl
    simp [Part.writeArea, hA]
  | B =>
    have hB : p.engB.ctl.state ≠ .off := hl
    simp [Part.writeArea, hB]

theorem exec_areaWrite (dt : Nat) (value : Word) (s : State) :
    exec (.areaWrite dt value) s = .next (s.become ((s.part.tick dt).writeArea value)) :=
  exec_eq_become rfl

/-! ### The obligation -/

/-- Settles O7: the reads by the two parts of the base, the write by its gate, the resets by what each does to the
registers. -/
theorem areaRegister : Obligations.AreaRegister := by
  refine ⟨Part.areaBase_and_low, ?writes, Part.powerOn_area, ?softReset, ?softResetComplete, ?resetPin,
    Part.schedAction_readGlobal⟩
  case writes =>
    intro dt value s p hlive
    refine ⟨fun hoff => ⟨?_, p.readRegister_area_written value⟩, fun ⟨l, hl⟩ => ?_⟩
    · rw [exec_areaWrite, Part.writeArea_of_off hlive hoff]
    · rw [exec_areaWrite, Part.writeArea_of_not_off hl]
  case softReset =>
    intro dt fields s
    obtain ⟨t, hexec, harea, -, -⟩ := exec_softReset_registers dt fields s
    exact ⟨t, hexec, harea⟩
  case softResetComplete =>
    intro dt s
    obtain ⟨t, hexec, harea, -⟩ := exec_softResetComplete_registers dt s
    exact ⟨t, hexec, harea⟩
  case resetPin =>
    intro dt landed s
    constructor
    · intro hfree
      obtain ⟨t, hexec, harea, -, -⟩ := exec_resetNAssert_registers dt landed hfree
      exact ⟨t, hexec, harea⟩
    · intro hheld
      obtain ⟨t, hexec, harea, -, -⟩ := exec_resetNRelease_registers dt hheld
      exact ⟨t, hexec, harea⟩

end Sys2Proof.Machine
end

