-- ==== Sys2Proof/Proofs/CauseUnit.lean ====
section
/-!
CAUSE, MASK and INT_N (R163): the place of each flag, a set request and a clear of one flag in either order, the
writes and reads of the registers, and when INT_N is active.
-/
namespace Sys2Proof.Machine

open Sys2Proof

/-! ### The flags -/

theorem Cause.index_lt (c : Cause) : c.index < 16 := by cases c <;> decide

/-- The flags of one loop by their bits. -/
def causesByIndex : List Cause :=
  [.exdone, .exfault, .catch_, .starved, .wake, .down, .up, .jam, .overrun, .halted, .trap, .rolldone, .testdone,
    .refused, .busfault, .reject]

theorem causesByIndex_index (c : Cause) : causesByIndex[c.index]? = some c := by cases c <;> rfl

/-- The bit of a flag names it. -/
theorem Cause.index_injective {c d : Cause} (h : c.index = d.index) : c = d := by
  refine Option.some.inj ?_
  rw [← causesByIndex_index c, ← causesByIndex_index d, h]

theorem getLsbD_shifted_one {i n : Nat} (hi : i < 32) :
    ((1 : Word) <<< i).getLsbD n = (n == i) := by
  have hone : (1 : Word) <<< i = BitVec.twoPow 32 i := (BitVec.twoPow_eq 32 i).symm
  rw [hone, BitVec.getLsbD_twoPow, decide_eq_true hi, Bool.true_and, Bool.beq_eq_decide_eq]
  exact decide_eq_decide.mpr eq_comm

theorem getLsbD_causeBit_A (c : Cause) (n : Nat) : (causeBit .A c).getLsbD n = (n == c.index) :=
  getLsbD_shifted_one (by have := c.index_lt; omega)

theorem getLsbD_causeBit_B (c : Cause) (n : Nat) : (causeBit .B c).getLsbD n = (n == 16 + c.index) :=
  getLsbD_shifted_one (by have := c.index_lt; omega)

/-! ### Set requests and clears -/

theorem Part.raiseCause_of_not_resetting {p : Part} (h : p.resetting = false) (l : LoopId) (c : Cause) :
    p.raiseCause l c = { p with cause := p.cause ||| causeBit l c } := by
  rw [Part.raiseCause, h, if_neg Bool.false_ne_true]

theorem Part.raiseCause_of_resetting {p : Part} (h : p.resetting = true) (l : LoopId) (c : Cause) :
    p.raiseCause l c = p := by
  rw [Part.raiseCause, if_pos h]

/-- What has been set stands. -/
theorem or_and_cancel_right (x b : Word) : (x ||| b) &&& b = b := by
  refine BitVec.eq_of_getLsbD_eq fun i _ => ?_
  rw [BitVec.getLsbD_and, BitVec.getLsbD_or, Bool.and_eq_right_iff_imp]
  exact Bool.or_inr

/-- A set request leaves its flag set, whatever was cleared before. -/
theorem Part.raiseCause_cause_and (p : Part) (h : p.resetting = false) (l : LoopId) (c : Cause) :
    (p.raiseCause l c).cause &&& causeBit l c = causeBit l c := by
  rw [Part.raiseCause_of_not_resetting h]
  exact or_and_cancel_right ..

/-- What has been cleared, among bits written as 1, is 0. -/
theorem and_not_and_of_covers (x : Word) {v b : Word} (h : v &&& b = b) : (x &&& ~~~v) &&& b = 0 := by
  calc
    (x &&& ~~~v) &&& b = (x &&& ~~~v) &&& (v &&& b) := by rw [h]
    _ = (x &&& (~~~v &&& v)) &&& b := by simp only [BitVec.and_assoc]
    _ = 0 := by simp

/-! ### Writes and reads -/

theorem Part.writeCause_of_live {p : Part} (h : p.live = true) (value : Word) :
    p.writeCause value = { p with cause := p.cause &&& ~~~value } := by
  rw [Part.writeCause, if_pos h]

theorem Part.writeMask_of_not_held {p : Part} (h : p.resetHeld = false) (value : Word) :
    p.writeMask value = { p with mask := value } := by
  rw [Part.writeMask, h, if_neg Bool.false_ne_true]

theorem exec_causeWrite (dt : Nat) (value : Word) (s : State) :
    exec (.causeWrite dt value) s = .next (s.become ((s.part.tick dt).writeCause value)) :=
  exec_eq_become rfl

theorem exec_maskWrite (dt : Nat) (value : Word) (s : State) :
    exec (.maskWrite dt value) s = .next (s.become ((s.part.tick dt).writeMask value)) :=
  exec_eq_become rfl

theorem Part.readRegister_cause (p : Part) : p.readRegister 0x08 = if p.resetting then 0 else p.cause := rfl

theorem Part.readRegister_mask (p : Part) : p.readRegister 0x0C = p.mask := rfl

/-! ### INT_N -/

theorem ne_zero_iff_getLsbD (x : Word) : x ≠ 0 ↔ ∃ n < 32, x.getLsbD n = true := by
  rw [Ne, BitVec.eq_of_getLsbD_eq_iff]
  simp

theorem Part.intActive_iff {p : Part} (h : p.resetHeld = false) :
    p.intActive = true ↔ ∃ n < 32, p.cause.getLsbD n = true ∧ p.mask.getLsbD n = true := by
  rw [Part.intActive, h, Bool.not_false, Bool.true_and, bne_iff_ne, ne_zero_iff_getLsbD]
  simp only [BitVec.getLsbD_and, Bool.and_eq_true]

/-! ### The obligation -/

/-- Settles O8: the flags by the places of their bits, a set request and a clear by what the later of the two leaves,
the registers by their writes, reads and resets, INT_N by the bits that CAUSE and MASK share. -/
theorem causeUnit : Obligations.CauseUnit := by
  refine ⟨fun c n _ => ⟨c.index_lt, getLsbD_causeBit_A c n, getLsbD_causeBit_B c n⟩, ?index,
    fun _ _ => Cause.index_injective,
    fun p l c => ⟨fun h => p.raiseCause_of_not_resetting h l c, fun h => p.raiseCause_of_resetting h l c⟩,
    ?writes, ?reads, ?ordered, fun now a b => ⟨Part.powerOn_mask now a b, Part.powerOn_cause now a b⟩,
    ?softReset, ?softResetComplete, ?resetPin, fun _ => Part.intActive_iff⟩
  case index =>
    intro c
    cases c <;> rfl
  case writes =>
    intro dt value s p
    refine ⟨fun hlive => ?_, fun hfree => ?_⟩
    · rw [exec_causeWrite, Part.writeCause_of_live hlive]
    · rw [exec_maskWrite, Part.writeMask_of_not_held hfree]
  case reads =>
    intro p
    refine ⟨fun hlive => ?_, p.readRegister_mask⟩
    obtain ⟨-, hresetting⟩ := p.live_iff.mp hlive
    rw [Part.readRegister_cause, hresetting, if_neg Bool.false_ne_true]
  case ordered =>
    intro p l c value hresetting
    refine ⟨Part.raiseCause_cause_and _ ?_ l c, and_not_and_of_covers _⟩
    exact hresetting
  case softReset =>
    intro dt fields s
    obtain ⟨t, hexec, -, hmask, hcause⟩ := exec_softReset_registers dt fields s
    exact ⟨t, hexec, hmask, hcause⟩
  case softResetComplete =>
    intro dt s
    obtain ⟨t, hexec, -, hmask⟩ := exec_softResetComplete_registers dt s
    exact ⟨t, hexec, hmask⟩
  case resetPin =>
    intro dt landed s
    constructor
    · intro hfree
      obtain ⟨t, hexec, -, hmask, hcause⟩ := exec_resetNAssert_registers dt landed hfree
      exact ⟨t, hexec, hmask, hcause⟩
    · intro hheld
      obtain ⟨t, hexec, -, hmask, hcause⟩ := exec_resetNRelease_registers dt hheld
      exact ⟨t, hexec, hmask, hcause⟩

end Sys2Proof.Machine
end

