-- ==== Sys2Proof/Proofs/StepCases.lean ====
section
/-!
What a step is: it idles, or it runs the front command. A command is for a loop, within which its work stays, or it is
an access of the Register Port or a reset.
-/
namespace Sys2Proof.Machine

open Sys2Proof

/-- A step that has a command to run makes its work, the time having passed, and then the grant. -/
theorem step_cases {s t : State} (h : step s = .next t) :
    t = s ∨ ∃ (c : Instr) (rest : List Instr), s.pending = c :: rest ∧
      t = { pending := rest, mem := commandMemory c { s with pending := rest },
            part := (commandWork c { s with pending := rest } (s.part.tick (commandTime c))).arbitrate } := by
  unfold step at h
  split at h
  · cases h
    exact .inl rfl
  · rename_i c rest hp
    rw [exec_eq] at h
    cases h
    exact .inr ⟨c, rest, hp, rfl⟩

/-- What every command's work keeps, and the passing of time and the grant leave, every step keeps. -/
theorem step_keeps {P : Part → Prop} (htick : ∀ dt p, P p → P (p.tick dt))
    (hwork : ∀ c s p, P p → P (commandWork c s p)) (hgrant : ∀ p, P p → P p.arbitrate) {s t : State}
    (hs : P s.part) (h : step s = .next t) : P t.part := by
  rcases step_cases h with rfl | ⟨c, rest, -, rfl⟩
  · exact hs
  · exact hgrant _ (hwork c _ _ (htick _ _ hs))

/-! ### The commands for no loop -/

/-- `q` comes out of `p` by an access of the Register Port: of the engines it changes at most what a read clears. -/
structure Part.Accessed (p q : Part) : Prop where
  now : q.now = p.now
  resetHeld : q.resetHeld = p.resetHeld
  resetting : q.resetting = p.resetting
  port : q.port = p.port
  contexts : q.contexts = p.contexts
  relays : q.relays = p.relays
  owner : q.testUnit.owner = p.testUnit.owner
  copy : q.testUnit.copy = p.testUnit.copy
  engine : ∀ l, ∃ (errors collisions : BitVec 16) (trap : TrapSlot),
    q.eng l = { p.eng l with
      mon := { (p.eng l).mon with totalErrors := errors, collisions := collisions }, trap := trap }

theorem Part.Accessed.refl (p : Part) : p.Accessed p :=
  ⟨rfl, rfl, rfl, rfl, rfl, rfl, rfl, rfl, fun _ => ⟨_, _, _, rfl⟩⟩

theorem Part.Accessed.live {p q : Part} (h : p.Accessed q) : q.live = p.live := by
  unfold Part.live; rw [h.resetHeld, h.resetting]

theorem Part.Accessed.ctx {p q : Part} (h : p.Accessed q) (i : StationIx) : q.ctx i = p.ctx i := by
  unfold Part.ctx; rw [h.contexts]

theorem Part.Accessed.monitorRead (l : LoopId) (offset : Nat) (p : Part) :
    p.Accessed (p.modEng l fun e => { e with mon := e.mon.readEffect offset }) where
  now := by simp
  resetHeld := by simp
  resetting := by simp
  port := by simp
  contexts := by simp
  relays := by simp
  owner := by simp
  copy := by simp
  engine m := by
    rcases eq_or_eq_otherLoop l m with rfl | rfl
    · rw [Part.eng_modEng]
      unfold LineMonitor.readEffect
      split
      · exact ⟨_, _, _, rfl⟩
      · split <;> exact ⟨_, _, _, rfl⟩
    · rw [Part.eng_modEng_other]
      exact ⟨_, _, _, rfl⟩

theorem Part.Accessed.trapRead (l : LoopId) (word : Nat) (p : Part) :
    p.Accessed (p.modEng l fun e => { e with trap := e.trap.readEffect word }) where
  now := by simp
  resetHeld := by simp
  resetting := by simp
  port := by simp
  contexts := by simp
  relays := by simp
  owner := by simp
  copy := by simp
  engine m := by
    rcases eq_or_eq_otherLoop l m with rfl | rfl
    · rw [Part.eng_modEng]
      exact ⟨_, _, _, rfl⟩
    · rw [Part.eng_modEng_other]
      exact ⟨_, _, _, rfl⟩

theorem Part.Accessed.windowEffect (space : BitVec 4) (offset : BitVec 12) (p : Part) :
    p.Accessed (p.windowEffect space offset) := by
  unfold Part.windowEffect
  split
  · exact .monitorRead ..
  · exact .monitorRead ..
  · unfold Part.trapEffect
    split
    · exact .trapRead ..
    · split
      · exact .trapRead ..
      · exact .refl p
  · unfold TestUnit.readEffect
    split <;> exact ⟨rfl, rfl, rfl, rfl, rfl, rfl, rfl, rfl, fun l => by cases l <;> exact ⟨_, _, _, rfl⟩⟩
  · exact .refl p

/-- A change of the registers and the Screening Store alone is an access. -/
theorem Part.Accessed.registers {p q : Part} (h : p.Accessed q) (area : BitVec 20) (mask cause busRead : Word)
    (window : WindowPointer) (screening : ScreeningStore) :
    p.Accessed { q with area := area, mask := mask, cause := cause, busRead := busRead, window := window
                        screening := screening } :=
  ⟨h.now, h.resetHeld, h.resetting, h.port, h.contexts, h.relays, h.owner, h.copy, h.engine⟩

/-- `q` comes out of `p` by a reset of everything but what a soft reset keeps (R167, R168). -/
structure Part.Emptied (p q : Part) : Prop where
  now : q.now = p.now
  engine : ∀ l, q.eng l = Engine.reset (p.eng l).mon.biasOk
  ctx : ∀ i, q.ctx i = Context.reset
  relays : ∀ e : Fin 8, q.relays[e] = none
  owner : q.testUnit.owner = none

theorem Part.Emptied.powerOn (p : Part) :
    p.Emptied (Part.powerOn p.now p.engA.mon.biasOk p.engB.mon.biasOk) where
  now := rfl
  engine l := by cases l <;> rfl
  ctx i := by simp [Part.ctx, Part.powerOn]
  relays e := by simp [Part.powerOn]
  owner := rfl

theorem Part.Emptied.softReset (p : Part) : p.Emptied p.softReset :=
  { Part.Emptied.powerOn p with engine := fun l => by cases l <;> rfl }

theorem Part.Emptied.holdReset (p : Part) : p.Emptied p.holdReset :=
  { Part.Emptied.powerOn p with engine := fun l => by cases l <;> rfl }

/-- The work of a command that is for no loop: an access, the start of a soft reset, or a reset. -/
inductive RegisterWork (p : Part) : Part → Prop
  | accessed {q : Part} (h : p.Accessed q) : RegisterWork p q
  | begun : RegisterWork p
      { p with resetting := true, cause := 0
               engA := p.engA.cutShort (p.doneInProgress .A), engB := p.engB.cutShort (p.doneInProgress .B) }
  | emptied {q : Part} (h : p.Emptied q) : RegisterWork p q

/-- A write of WINDOW_DATA changes the Screening Store alone. -/
theorem Part.windowStore_eq (space : BitVec 4) (offset : BitVec 12) (v : Word) (p : Part) :
    ∃ screening, p.windowStore space offset v = { p with screening := screening } := by
  unfold Part.windowStore
  split <;> exact ⟨_, rfl⟩

theorem commandWork_of_no_loop {c : Instr} {s : State} (p : Part) (h : s.commandLoop c = none) :
    RegisterWork p (commandWork c s p) := by
  have unchanged : RegisterWork p p := .accessed (.refl p)
  have registers := (Part.Accessed.refl p).registers
  cases c <;> simp only [State.commandLoop, reduceCtorEq] at h <;> simp only [commandWork]
  case softReset =>
    unfold Part.beginSoftReset
    split
    · exact .begun
    · exact unchanged
  case softResetComplete =>
    unfold Part.endSoftReset
    split
    · exact .emptied (.softReset p)
    · exact unchanged
  case areaWrite =>
    unfold Part.writeArea
    split
    · exact .accessed (registers ..)
    · exact unchanged
  case causeWrite =>
    unfold Part.writeCause
    split
    · exact .accessed (registers ..)
    · exact unchanged
  case maskWrite =>
    unfold Part.writeMask
    split
    · exact unchanged
    · exact .accessed (registers ..)
  case windowPointerWrite =>
    unfold Part.writePointer
    split
    · exact .accessed (registers ..)
    · exact unchanged
  case windowDataRead =>
    unfold Part.readData
    split
    · exact unchanged
    · split
      · exact .accessed (registers ..)
      · exact .accessed ((Part.Accessed.windowEffect _ _ p).registers ..)
  case windowDataWrite value =>
    unfold Part.writeData
    split
    · obtain ⟨screening, hs⟩ := p.windowStore_eq p.window.space p.window.offset value
      simp only [hs]
      exact .accessed (registers ..)
    · exact unchanged
  case registerWriteOther => exact unchanged
  case resetNAssert =>
    unfold Part.assertReset
    split
    · exact unchanged
    · exact .emptied (.holdReset p)
  case resetNRelease =>
    unfold Part.releaseReset
    split
    · exact .emptied (.powerOn p)
    · exact unchanged
  case transferComplete =>
    rw [Option.map_eq_none_iff] at h
    rw [h]
    exact unchanged
  case busError =>
    rw [Option.map_eq_none_iff] at h
    rw [h]
    exact unchanged

/-- What the work of a command of a loop starts from is as live as the part before it. -/
theorem CommandBase.live {l : LoopId} {p b : Part} (h : CommandBase l p b) : b.live = p.live := by
  cases h with
  | same => rfl
  | slot x => exact Part.live_setSlot ..
  | freed => exact p.freePort_live
  | granted r hr => cases r <;> simp [Part.withdraw]

theorem Part.Within.live {l : LoopId} {p q : Part} (h : Part.Within l p q) : q.live = p.live := by
  unfold Part.live; rw [h.resetHeld, h.resetting]

/-- The engine of the other loop in what the work starts from: its slot alone may be another. -/
theorem CommandBase.other {l : LoopId} {p b : Part} (h : CommandBase l p b) :
    ∃ slot, b.eng (otherLoop l) =
      { p.eng (otherLoop l) with ctl := { (p.eng (otherLoop l)).ctl with slot := slot } } := by
  cases h with
  | same => exact ⟨_, rfl⟩
  | slot x => exact ⟨x, Part.setSlot_eng ..⟩
  | freed => exact ⟨_, p.freePort_eng _⟩
  | granted r hr =>
    subst hr
    refine ⟨(p.eng (otherLoop r.loop)).ctl.slot, ?_⟩
    cases r <;> simp [Part.withdraw, Requester.loop]

@[simp] theorem Part.withdraw_cause (r : Requester) (p : Part) : (p.withdraw r).cause = p.cause := by
  cases r <;> simp [Part.withdraw]

theorem CommandBase.cause {l : LoopId} {p b : Part} (h : CommandBase l p b) : b.cause = p.cause := by
  cases h with
  | same => rfl
  | slot x => exact Part.modEng_cause ..
  | freed => rfl
  | granted r hr => simp

/-- A command for loop `l` works within that loop, from one of the bases. -/
theorem commandWork_cases (c : Instr) (s : State) (p : Part) :
    (∃ l b, s.commandLoop c = some l ∧ CommandBase l p b ∧ Part.Within l b (commandWork c s p)) ∨
      RegisterWork p (commandWork c s p) := by
  cases h : s.commandLoop c with
  | none => exact .inr (commandWork_of_no_loop p h)
  | some l =>
    obtain ⟨b, hb, hw⟩ := commandWork_within c s p l h
    exact .inl ⟨l, b, rfl, hb, hw⟩

end Sys2Proof.Machine
end

