-- ==== Sys2Proof/Proofs/EngineInvariants.lean ====
section
/-!
The invariants of an engine, of the shared stores and of a part in reset: every step keeps them (R14, R34, R98, R123,
R124, R135, R150, R166, R168).
-/
namespace Sys2Proof.Machine

open Sys2Proof

/-! ### The engines -/

/-- The invariants of both engines. -/
def Part.enginesSound (p : Part) : Prop := ∀ l : LoopId, (p.eng l).sound

theorem CommandBase.enginesSound {l : LoopId} {p b : Part} (h : CommandBase l p b) (hp : p.enginesSound) :
    b.enginesSound := by
  intro m
  cases h with
  | same => exact hp m
  | slot x => exact ((Part.Within.refl _ p).setSlot).engines m (hp m)
  | freed => simpa using hp m
  | granted r hr =>
    rw [Part.arbitrate_eng]
    cases r with
    | sched k =>
      exact ((Part.Within.refl k p.freePort).modEng id id).engines m (by simpa using hp m)
    | catcher k =>
      refine ((Part.Within.refl k p.freePort).modEng (fun he => ?_) id).engines m (by simpa using hp m)
      exact Engine.sound_catcher he he.1 (Engine.walks_none rfl)

theorem Part.Accessed.enginesSound {p q : Part} (h : p.Accessed q) (hp : p.enginesSound) : q.enginesSound := by
  intro l
  obtain ⟨_, _, _, he⟩ := h.engine l
  rw [he]
  exact hp l

theorem RegisterWork.enginesSound {p q : Part} (h : RegisterWork p q) (hp : p.enginesSound) : q.enginesSound := by
  cases h with
  | accessed h => exact h.enginesSound hp
  | begun =>
    intro l
    cases l with
    | A => exact Engine.sound_cutShort (hp .A)
    | B => exact Engine.sound_cutShort (hp .B)
  | emptied h =>
    intro l
    rw [h.engine]
    exact Engine.sound_reset _

theorem commandWork_enginesSound (c : Instr) (s : State) (p : Part) (hp : p.enginesSound) :
    (commandWork c s p).enginesSound := by
  rcases commandWork_cases c s p with ⟨l, b, -, hb, hw⟩ | h
  · exact fun m => hw.engines m (hb.enginesSound hp m)
  · exact h.enginesSound hp

theorem step_enginesSound {s t : State} (hs : s.part.enginesSound) (h : step s = .next t) :
    t.part.enginesSound :=
  step_keeps (fun dt p hp l => by rw [Part.tick_eng]; exact hp l) commandWork_enginesSound
    (fun p hp l => by rw [Part.arbitrate_eng]; exact hp l) hs h

/-- Settles O53: what a command does to memory keeps the canonical form, by the writes it makes. -/
theorem memoryCanonical : Obligations.MemoryCanonical := by
  intro s t hs h
  rcases step_cases h with rfl | ⟨c, rest, -, rfl⟩
  · exact hs
  · exact wf_commandMemory c _ hs

/-- Settles O54: the two invariants of the catch path are among those of an engine, which every step keeps. -/
theorem catchConservation : Obligations.CatchConservation := by
  intro s t hs h l
  obtain ⟨hconserves, hwalks, -⟩ := step_enginesSound hs h l
  exact ⟨hconserves, hwalks⟩

/-! ### The part in reset -/

/-- The Framer and the Exchange Unit of a loop are as before. -/
def Part.lineKept (p q : Part) : Prop :=
  ∀ l : LoopId, (q.eng l).framer = (p.eng l).framer ∧ (q.eng l).xu = (p.eng l).xu

theorem Part.lineKept_refl (p : Part) : p.lineKept p := fun _ => ⟨rfl, rfl⟩

theorem Part.lineKept_modEng {l : LoopId} {f : Engine → Engine} (p : Part)
    (hf : (f (p.eng l)).framer = (p.eng l).framer) (hx : (f (p.eng l)).xu = (p.eng l).xu) :
    p.lineKept (p.modEng l f) := by
  intro m
  rcases eq_or_eq_otherLoop l m with rfl | rfl
  · rw [Part.eng_modEng]; exact ⟨hf, hx⟩
  · rw [Part.eng_modEng_other]; exact ⟨rfl, rfl⟩

theorem Part.lineKept_freePort (p : Part) : p.lineKept p.freePort := fun l => by simp

theorem Part.lineKept_doneCut (t : Transfer) (p : Part) : p.lineKept (p.doneCut t) := by
  unfold Part.doneCut
  split
  · split
    · intro m
      simp only [Part.modCtx_eng]
      exact p.lineKept_modEng rfl rfl m
    · exact p.lineKept_refl
  · exact p.lineKept_refl

theorem Part.lineKept_completeTransfer {p : Part} (hl : p.live = false) (t : Transfer) (data : List Byte) :
    p.lineKept (p.completeTransfer t data) := by
  unfold Part.completeTransfer
  rw [hl, if_neg Bool.false_ne_true]
  split
  · exact p.lineKept_freePort
  · intro m
    obtain ⟨hf, hx⟩ := p.freePort.lineKept_doneCut t m
    rw [Part.freePort_eng] at hf hx
    exact ⟨hf, hx⟩

/-- The engine takes no command while the part does not run. -/
theorem Part.takeCommand_of_not_live {p : Part} (hl : p.live = false) (l : LoopId) (via : CommandPath)
    (code : BitVec 4) (run : Part → Part) : p.takeCommand l via code run = p := by
  unfold Part.takeCommand; rw [hl, if_neg Bool.false_ne_true]

theorem Part.loopEvent_of_not_live {p : Part} (hl : p.live = false) (can : Part → Bool) (f : Part → Part) :
    p.loopEvent can f = p := by
  unfold Part.loopEvent; rw [hl, Bool.false_and, if_neg Bool.false_ne_true]

theorem Part.loopStep_of_not_live {p : Part} (hl : p.live = false) (l : LoopId) (can : Part → Bool)
    (f : Part → Part) : p.loopStep l can f = p := p.loopEvent_of_not_live hl ..

/-- No command of a loop reaches its Framer or its Exchange Unit while the part does not run. -/
theorem commandWork_lineKept {c : Instr} {s : State} {p : Part} {l : LoopId} (hl : p.live = false)
    (hc : s.commandLoop c = some l) : p.lineKept (commandWork c s p) := by
  have kept := p.lineKept_refl
  cases c <;> simp only [State.commandLoop, reduceCtorEq] at hc <;>
    simp only [commandWork, Part.takeCommand_of_not_live hl, Part.loopEvent_of_not_live hl,
      Part.loopStep_of_not_live hl, ite_self]
  case biasOkLoss => exact p.lineKept_modEng rfl rfl
  case biasOkRestore => exact p.lineKept_modEng rfl rfl
  case transferComplete =>
    split
    · exact p.lineKept_completeTransfer hl _ _
    · exact kept
  case busError =>
    split
    · unfold Part.failTransfer
      rw [hl, if_neg Bool.false_ne_true]
      exact p.lineKept_freePort
    · exact kept
  all_goals exact kept

theorem Part.lineKept.resetsSilent {p q : Part} (h : p.lineKept q) (hl : q.live = p.live)
    (hp : p.resetsSilent) : q.resetsSilent := by
  intro hq l
  obtain ⟨hf, hx⟩ := h l
  rw [hf, hx]
  exact hp (hl ▸ hq) l

theorem Part.Accessed.lineKept {p q : Part} (h : p.Accessed q) : p.lineKept q := by
  intro l
  obtain ⟨_, _, _, he⟩ := h.engine l
  rw [he]
  exact ⟨rfl, rfl⟩

theorem RegisterWork.resetsSilent {p q : Part} (h : RegisterWork p q) (hp : p.resetsSilent) :
    q.resetsSilent := by
  cases h with
  | accessed h => exact h.lineKept.resetsSilent h.live hp
  | begun => exact fun _ l => by cases l <;> exact ⟨rfl, rfl, rfl⟩
  | emptied h =>
    intro _ l
    rw [h.engine]
    exact ⟨rfl, rfl, rfl⟩

theorem commandWork_resetsSilent (c : Instr) (s : State) (p : Part) (hp : p.resetsSilent) :
    (commandWork c s p).resetsSilent := by
  rcases commandWork_cases c s p with ⟨l, b, hc, hb, hw⟩ | h
  · have hlive : (commandWork c s p).live = p.live := hw.live.trans hb.live
    intro hq
    exact (commandWork_lineKept (hlive ▸ hq) hc).resetsSilent hlive hp hq
  · exact h.resetsSilent hp

theorem step_resetsSilent {s t : State} (hs : s.part.resetsSilent) (h : step s = .next t) :
    t.part.resetsSilent :=
  step_keeps (fun _ p hp => (show p.lineKept _ from fun l => by simp).resetsSilent rfl hp)
    commandWork_resetsSilent
    (fun p hp => (show p.lineKept _ from fun l => by simp).resetsSilent p.arbitrate_live hp) hs h

theorem Engine.txen_iff (e : Engine) :
    e.txen = true ↔ e.framer.sending.isSome = true ∧
      ¬ (e.ctl.state = .test ∧ e.ctl.validated = true ∧ e.cfg.testMode = 0) := by
  unfold Engine.txen Engine.internalReturn
  simp only [Bool.and_eq_true, Bool.not_eq_true', ← Bool.not_eq_true, beq_iff_eq, and_assoc]

theorem Engine.txen_of_sending {e : Engine} (h : e.framer.sending = none) : e.txen = false := by
  unfold Engine.txen; rw [h]; rfl

/-- Settles O55: the rest of the loop states is among the invariants of an engine, the silence of a reset is kept
beside them, and TXEN follows the frame being sent. -/
theorem loopsRest : Obligations.LoopsRest := by
  refine ⟨Engine.txen_iff, fun s t hsound hsilent h => ?_⟩
  have hrest : ∀ l, (t.part.eng l).restsInState := fun l => (step_enginesSound hsound h l).2.2
  have hsilent' := step_resetsSilent hsilent h
  refine ⟨hrest, hsilent', fun l hl => ?_⟩
  rcases hl with hl | hl
  · exact Engine.txen_of_sending ((hrest l).2 hl).1
  · exact Engine.txen_of_sending (hsilent' hl l).1

/-! ### The shared stores -/

/-- The claims of couplers and the claim of the test unit are in order. -/
def Part.claimsExclusive (p : Part) : Prop := p.couplersDistinct ∧ p.testOwned

/-- They depend on the Relay Table, the loop states and the owner of the test unit alone. -/
theorem Part.claimsExclusive_congr {p q : Part} (hr : q.relays = p.relays)
    (ho : q.testUnit.owner = p.testUnit.owner) (hs : ∀ l, (q.eng l).ctl.state = (p.eng l).ctl.state)
    (hp : p.claimsExclusive) : q.claimsExclusive := by
  obtain ⟨hcouplers, htest⟩ := hp
  refine ⟨?_, fun l hl => ?_⟩
  · unfold Part.couplersDistinct
    rw [hr]
    exact hcouplers
  · rw [ho]; exact htest l (hs l ▸ hl)

theorem Part.copiesHeld_congr {p q : Part} (hc : ∀ i, q.ctx i = p.ctx i) (hp : p.copiesHeld) : q.copiesHeld :=
  fun i => by rw [hc]; exact hp i

theorem Part.setSlot_state (l m : LoopId) (x : Option (BitVec 4)) (p : Part) :
    ((p.setSlot l x).eng m).ctl.state = (p.eng m).ctl.state := by cases l <;> cases m <;> rfl

theorem Part.withdraw_ctl (r : Requester) (m : LoopId) (p : Part) :
    ((p.withdraw r).eng m).ctl = (p.eng m).ctl := by
  cases r <;> rename_i l <;> cases l <;> cases m <;> rfl

theorem CommandBase.claimsExclusive {l : LoopId} {p b : Part} (h : CommandBase l p b)
    (hp : p.claimsExclusive) : b.claimsExclusive := by
  cases h with
  | same => exact hp
  | slot x =>
    refine Part.claimsExclusive_congr ?_ ?_ (fun m => Part.setSlot_state _ m x p) hp <;> simp [Part.setSlot]
  | freed => exact Part.claimsExclusive_congr rfl rfl (fun m => by simp) hp
  | granted r hr =>
    refine Part.claimsExclusive_congr ?_ ?_ (fun m => ?_) hp
    · cases r <;> simp [Part.withdraw]
    · cases r <;> simp [Part.withdraw]
    · rw [Part.arbitrate_eng, Part.withdraw_ctl, Part.freePort_eng]

theorem CommandBase.ctx {l : LoopId} {p b : Part} (h : CommandBase l p b) (i : StationIx) : b.ctx i = p.ctx i := by
  cases h with
  | same => rfl
  | slot x => simp [Part.setSlot]
  | freed => rfl
  | granted r hr => cases r <;> simp [Part.withdraw]

theorem Part.Emptied.claimsExclusive {p q : Part} (h : p.Emptied q) : q.claimsExclusive := by
  refine ⟨fun x y _ r hr => ?_, fun l hl => ?_⟩
  · rw [h.relays] at hr
    cases hr
  · rw [h.engine] at hl
    cases hl

theorem RegisterWork.claimsExclusive {p q : Part} (h : RegisterWork p q) (hp : p.claimsExclusive) :
    q.claimsExclusive := by
  cases h with
  | accessed h =>
    refine Part.claimsExclusive_congr h.relays h.owner (fun l => ?_) hp
    obtain ⟨_, _, _, he⟩ := h.engine l
    rw [he]
  | begun => exact Part.claimsExclusive_congr (p := p) rfl rfl (fun l => by cases l <;> rfl) hp
  | emptied h => exact h.claimsExclusive

theorem RegisterWork.copiesHeld {p q : Part} (h : RegisterWork p q) (hp : p.copiesHeld) : q.copiesHeld := by
  cases h with
  | accessed h => exact Part.copiesHeld_congr h.ctx hp
  | begun => exact hp
  | emptied h =>
    intro i
    rw [h.ctx]
    rfl

theorem commandWork_claimsExclusive (c : Instr) (s : State) (p : Part) (hp : p.claimsExclusive) :
    (commandWork c s p).claimsExclusive := by
  rcases commandWork_cases c s p with ⟨l, b, -, hb, hw⟩ | h
  · obtain ⟨hcouplers, htest⟩ := hb.claimsExclusive hp
    exact ⟨hw.relays hcouplers, hw.testOwned htest⟩
  · exact h.claimsExclusive hp

theorem commandWork_copiesHeld (c : Instr) (s : State) (p : Part) (hp : p.copiesHeld) :
    (commandWork c s p).copiesHeld := by
  rcases commandWork_cases c s p with ⟨l, b, -, hb, hw⟩ | h
  · exact hw.copies (Part.copiesHeld_congr hb.ctx hp)
  · exact h.copiesHeld hp

theorem step_claimsExclusive {s t : State} (hs : s.part.claimsExclusive) (h : step s = .next t) :
    t.part.claimsExclusive :=
  step_keeps (P := Part.claimsExclusive)
    (fun _ p => Part.claimsExclusive_congr (p := p) rfl rfl (fun l => by simp))
    commandWork_claimsExclusive
    (fun p => Part.claimsExclusive_congr (p := p) (by simp) (by simp) (fun l => by simp)) hs h

theorem step_copiesHeld {s t : State} (hs : s.part.copiesHeld) (h : step s = .next t) : t.part.copiesHeld :=
  step_keeps (P := Part.copiesHeld) (fun _ p => Part.copiesHeld_congr (p := p) fun _ => rfl)
    commandWork_copiesHeld (fun p => Part.copiesHeld_congr (p := p) (by simp)) hs h

/-- Settles O56: the work of a command keeps the three, within its loop or at a reset. -/
theorem sharedStores : Obligations.SharedStores := by
  intro s t hcouplers hcopies htest h
  obtain ⟨hcouplers', htest'⟩ := step_claimsExclusive ⟨hcouplers, htest⟩ h
  exact ⟨hcouplers', step_copiesHeld hcopies h, htest'⟩

/-! ### Loops apart -/

theorem causeBit_otherLoop_and (l : LoopId) (x : Cause) :
    ~~~ loopCauses l &&& causeBit (otherLoop l) x = causeBit (otherLoop l) x := by
  cases l <;> cases x <;> decide

/-- Settles O59: the work of a command stays within its loop, from a base that differs for the other loop by its slot
alone. -/
theorem loopIndependence : Obligations.LoopIndependence := by
  intro c l s t hc h
  rw [exec_eq] at h
  cases h
  obtain ⟨b, hb, hw⟩ := commandWork_within c s (s.part.tick (commandTime c)) l hc
  constructor
  · obtain ⟨slot, hslot⟩ := hb.other
    refine ⟨slot, ?_⟩
    rw [Part.arbitrate_eng, hw.other, hslot, Part.tick_eng]
  · intro x
    have hcause := hw.causes.2
    rw [hb.cause, Part.tick_cause] at hcause
    rw [Part.arbitrate_cause, ← causeBit_otherLoop_and, ← BitVec.and_assoc, ← BitVec.and_assoc, hcause]

/-! ### The machine -/

theorem commandWork_now (c : Instr) (s : State) (p : Part) : (commandWork c s p).now = p.now := by
  rcases commandWork_cases c s p with ⟨l, b, -, hb, hw⟩ | h
  · rw [hw.now]
    cases hb with
    | same => rfl
    | slot x => exact Part.modEng_now ..
    | freed => rfl
    | granted r hr => cases r <;> simp [Part.withdraw]
  · generalize commandWork c s p = q at h
    cases h with
    | accessed h => exact h.now
    | begun => rfl
    | emptied h => exact h.now

/-- Settles O1: by the definition of a step. -/
theorem stepRunsFrontCommand : Obligations.StepRunsFrontCommand := fun _ _ _ => rfl

/-- Settles O2: every command answers what its work gives, and no work changes the time. -/
theorem everyCommandAnswersNext : Obligations.EveryCommandAnswersNext := by
  refine ⟨fun c s => ⟨_, exec_eq c s, rfl, ?_⟩, fun s hs => ?_, fun s => ?_⟩
  · rw [Part.arbitrate_now, commandWork_now, Part.tick_now]
  · unfold step; rw [hs]
  · unfold step
    split
    · exact ⟨s, rfl⟩
    · exact ⟨_, exec_eq _ _⟩

end Sys2Proof.Machine
end

