-- ==== Sys2Proof/Proofs/ProceduresStand.lean ====
section
/-!
Between commands every procedure of a running part stands (logs 22 and 25): an event of a loop carries its procedure
on until it waits, or leaves it standing; the other loop's procedure is not touched.
-/
namespace Sys2Proof.Machine

open Sys2Proof

/-! ### What leaves a procedure standing -/

/-- A procedure that stands, stands still after a change of its engine that leaves its list, ends no transmission, and
makes no roll-call due. -/
theorem Part.settled_kept {l : LoopId} {p q : Part} (h : p.settled l = true)
    (hs : (q.eng l).sched = (p.eng l).sched)
    (hx : (p.eng l).framer.sending.isSome = true → (q.eng l).framer.sending.isSome = true)
    (hr : (p.eng l).rollcallDue = false → (q.eng l).rollcallDue = false) : q.settled l = true := by
  unfold Part.settled at h ⊢
  rw [Bool.and_eq_true, Bool.not_eq_true'] at h ⊢
  obtain ⟨hpaused, hdue⟩ := h
  refine ⟨?_, hr hdue⟩
  unfold Part.paused at hpaused ⊢
  rw [hs]
  cases hl : (p.eng l).sched with
  | nil => rfl
  | cons op rest =>
    rw [hl] at hpaused
    simp only [Part.waitsAt_eq, Bool.or_eq_true, Bool.and_eq_true] at hpaused ⊢
    exact hpaused.imp_right (And.imp_right hx)

/-- A change of the other loop leaves a procedure standing. -/
theorem Part.settled_other {l : LoopId} {p q : Part}
    (h : ∃ slot, q.eng (otherLoop l) =
      { p.eng (otherLoop l) with ctl := { (p.eng (otherLoop l)).ctl with slot := slot } })
    (hp : p.settled (otherLoop l) = true) : q.settled (otherLoop l) = true := by
  obtain ⟨slot, h⟩ := h
  exact Part.settled_kept hp (by rw [h]) (by rw [h]; exact id) (by rw [h]; exact id)

/-- The engine as before leaves the procedure standing. -/
theorem Part.settled_same {l : LoopId} {p q : Part} (hp : p.settled l = true) (h : q.eng l = p.eng l) :
    q.settled l = true := (Part.settled_of_eng p q l h).trans hp

theorem Part.settled_refuse {l : LoopId} {p : Part} (hp : p.settled l = true) : (p.refuse l).settled l = true :=
  Part.settled_same hp (by simp [Part.refuse])

theorem Part.settled_refuseStop {l : LoopId} {p : Part} (hoff : (p.eng l).ctl.state = .off)
    (hp : p.settled l = true) : (p.refuseStop l).settled l = true := by
  unfold Part.refuseStop
  split
  · rename_i hwaits
    have hne : (p.eng l).sched ≠ [] := by
      intro h
      rw [h] at hwaits
      cases hwaits
    have hpaused : p.paused l = true := by
      unfold Part.settled at hp
      exact (Bool.and_eq_true .. ▸ hp).1
    refine Part.settled_of_state l _ ?_ (by simp [Part.push, hoff])
    rw [Part.paused_append p _ l [.raise .refused] (by simp [Part.push]) hne (by simp [Part.push]), hpaused]
  · exact Part.settled_refuse hp

theorem Part.settled_gridPoint {l : LoopId} {p : Part} (hp : p.settled l = true) :
    (p.gridPoint l).settled l = true := by
  unfold Part.gridPoint
  split
  · rename_i g _
    refine Part.settled_kept hp ?_ ?_ ?_ <;> rw [Part.eng_modEng] <;> unfold Engine.markBoundary <;>
      split <;> simp [Engine.rollcallDue, Engine.isSending]
  · exact hp

/-- The windows that follow one another change the phase of the cycle and who has been visited alone, and no boundary
work begins or ends. -/
theorem Part.followWindows_eng (l : LoopId) (p : Part) :
    ∃ phase visited, (p.followWindows l).eng l =
        { p.eng l with cyc := { (p.eng l).cyc with phase := phase, visited := visited } } ∧
      (phase = .boundary ↔ (p.eng l).cyc.phase = .boundary) := by
  unfold Part.followWindows
  simp only
  split
  · rw [Part.eng_modEng]
    refine ⟨_, _, rfl, ?_⟩
    generalize ((p.eng l).announceBars || !(p.eng l).cyc.dueSet.any (p.mayServe l)) = passed
    generalize (p.eng l).cyc.phase = phase
    cases phase <;> cases passed <;> simp <;> split_ifs <;> simp
  · exact ⟨_, _, rfl, Iff.rfl⟩

theorem Part.settled_announceWindow {l : LoopId} {p : Part} (hp : p.settled l = true) :
    (p.announceWindow l).settled l = true := by
  unfold Part.announceWindow
  obtain ⟨phase, visited, heng, hphase⟩ :=
    (p.modEng l fun e => { e with cyc := { e.cyc with announceStarted := true } }).followWindows_eng l
  rw [Part.eng_modEng] at heng hphase
  refine Part.settled_kept hp (by rw [heng]) (by rw [heng]; exact id) ?_
  rw [heng]
  have hbne : (phase != .boundary) = ((p.eng l).cyc.phase != .boundary) := by
    rw [Bool.eq_iff_iff, bne_iff_ne, bne_iff_ne, Ne, Ne, hphase]
  simp only [Engine.rollcallDue, Engine.isSending, hbne]
  exact id

theorem Engine.beginSend_sending {e : Engine} {now : Nat} (h : e.framer.sending.isSome = true) :
    (e.beginSend now).framer.sending.isSome = true := by
  unfold Engine.beginSend
  split
  · exact h
  · rfl

/-- A frame handed to the Framer ends no transmission. -/
theorem Engine.handFrame_sending {e : Engine} {now : Nat} {f : TxFrame} (h : e.framer.sending.isSome = true) :
    (e.handFrame now f).framer.sending.isSome = true := by
  unfold Engine.handFrame
  split
  · dsimp only
    split
    · exact Engine.beginSend_sending h
    · exact h
  · exact h

theorem Part.settled_rollAttempt {l : LoopId} {p : Part} (hc : (p.eng l).canRoll = true)
    (hp : p.settled l = true) : (p.rollAttempt l).settled l = true := by
  unfold Part.rollAttempt
  split
  · unfold Part.sendRequest
    refine Part.settled_kept hp (by simp) (fun h => ?_) (fun _ => Engine.rollcallDue_of_state _ ?_)
    · rw [Part.eng_modEng]
      exact Engine.handFrame_sending h
    · unfold Engine.canRoll at hc
      simp only [Bool.and_eq_true, beq_iff_eq] at hc
      obtain ⟨⟨hstate, -⟩, -⟩ := hc
      simp [hstate]
  · exact hp

theorem Part.settled_keepalive {l : LoopId} {p : Part} (hc : (p.eng l).keepaliveDue p.now = true)
    (hp : p.settled l = true) : (p.keepalive l).settled l = true := by
  unfold Part.keepalive
  refine Part.settled_kept hp (by simp) (fun h => ?_) (fun _ => Engine.rollcallDue_of_state _ ?_)
  · rw [Part.eng_modEng]
    exact Engine.handFrame_sending h
  · unfold Engine.keepaliveDue at hc
    simp only [Bool.and_eq_true, beq_iff_eq] at hc
    obtain ⟨⟨hstate, -⟩, -⟩ := hc
    simp [hstate]

/-- After an entry to FAULT the procedure holds at most a DONE write. -/
theorem Part.settled_enterFault (l : LoopId) (p : Part) : (p.enterFault l).settled l = true := by
  have hstate : ((p.enterFault l).eng l).ctl.state = .fault := by
    simp [Part.enterFault, Part.push, Engine.toFault]
  have hsched : ((p.enterFault l).eng l).sched = p.doneInProgress l := by
    simp [Part.enterFault, Part.push, Engine.toFault]
  refine Part.settled_of_state l _ ?_ (by rw [hstate]; decide)
  cases hd : p.doneInProgress l with
  | nil => exact Part.paused_nil _ l (hsched.trans hd)
  | cons op rest =>
    refine Part.paused_cons _ l op rest (hsched.trans hd) ?_
    have hmem : op ∈ p.doneInProgress l := by rw [hd]; exact List.mem_cons_self
    unfold Part.doneInProgress at hmem
    have hdone := (List.mem_filter.mp hmem).2
    cases op with
    | writeDone => rfl
    | _ => cases hdone

/-! ### The commands of a loop -/

theorem Part.settled_takeCommand {l : LoopId} {p : Part} {via : CommandPath} {code : BitVec 4}
    {run : Part → Part} (hp : p.settled l = true)
    (hrun : ∀ q : Part, q.settled l = true → (run q).settled l = true) :
    (p.takeCommand l via code run).settled l = true := by
  unfold Part.takeCommand
  split
  · split
    · split
      · exact hrun _ (Part.settled_same hp (by simp))
      · exact hp
    · split
      · exact hrun _ (Part.settled_kept hp (by simp) (by simp)
          (by simp [Engine.rollcallDue, Engine.isSending]))
      · exact hp
  · exact hp

theorem Part.settled_loopEvent {l : LoopId} {p : Part} {can : Part → Bool} {f : Part → Part}
    (hp : p.settled l = true) (hf : can p = true → (f p).settled l = true) :
    (p.loopEvent can f).settled l = true := by
  unfold Part.loopEvent
  split
  · rename_i hc
    exact hf (Bool.and_eq_true .. ▸ hc).2
  · exact hp

theorem Part.settled_loopStep {l : LoopId} {p : Part} {can : Part → Bool} {f : Part → Part}
    (hp : p.settled l = true) : (p.loopStep l can f).settled l = true :=
  Part.settled_loopEvent hp fun _ => Part.settled_proceed l _

theorem Part.settled_transferDone {l : LoopId} {p : Part} {t : Transfer} {data : List Byte}
    (ht : t.requester.loop = l) (hp : p.settled l = true) : (p.transferDone t data).settled l = true := by
  unfold Part.transferDone
  split
  · exact hp
  · split <;> rename_i hr <;> rw [hr] at ht <;> cases ht <;> exact Part.settled_proceed _ _

theorem Part.settled_doStart {l : LoopId} {p : Part} (hp : p.settled l = true) :
    (p.doStart l).settled l = true := by
  unfold Part.doStart
  split
  · exact Part.settled_proceed ..
  · exact Part.settled_refuse hp

theorem Part.settled_doQuiet {l : LoopId} {p : Part} (hp : p.settled l = true) :
    (p.doQuiet l).settled l = true := by
  unfold Part.doQuiet
  split
  · exact Part.settled_proceed ..
  · exact Part.settled_refuse hp

theorem Part.settled_doWake {l : LoopId} {p : Part} (hp : p.settled l = true) :
    (p.doWake l).settled l = true := by
  unfold Part.doWake
  split
  · exact Part.settled_proceed ..
  · exact Part.settled_refuse hp

theorem Part.settled_doRollcall {l : LoopId} {p : Part} (hp : p.settled l = true) :
    (p.doRollcall l).settled l = true := by
  unfold Part.doRollcall
  split
  · exact Part.settled_proceed ..
  · exact Part.settled_refuse hp

theorem Part.settled_doTest {l : LoopId} {p : Part} (hp : p.settled l = true) :
    (p.doTest l).settled l = true := by
  unfold Part.doTest
  split
  · exact Part.settled_proceed ..
  · exact Part.settled_refuse hp

theorem Part.settled_doStop {l : LoopId} {p : Part} (hp : p.settled l = true) :
    (p.doStop l).settled l = true := by
  unfold Part.doStop
  split
  · rename_i hoff
    exact Part.settled_refuseStop hoff hp
  · exact Part.settled_proceed ..

theorem Part.settled_doRetime {l : LoopId} {p : Part} (hp : p.settled l = true) :
    (p.doRetime l).settled l = true := by
  unfold Part.doRetime
  split
  · exact Part.settled_kept hp (by simp) (by simp) (by simp [Engine.rollcallDue, Engine.isSending])
  · exact Part.settled_refuse hp

/-- The command of a running loop leaves that loop's procedure standing. -/
theorem commandWork_settled {c : Instr} {s : State} {p : Part} {l : LoopId} (hlive : p.live = true)
    (hc : s.commandLoop c = some l) (hp : p.settled l = true) : (commandWork c s p).settled l = true := by
  cases c <;> simp only [State.commandLoop, Option.some.injEq, reduceCtorEq] at hc <;> simp only [commandWork] <;>
    (try subst hc)
  case activityStart | characterReceived | activityEnd | lineIdle | frameEnd | collision | endOfFrame | replyTimeout
      | boundaryTaken | turn | drainSettlement | carrierCriterion | jamCriterion | errorsCriterion | silenceCriterion
      | downRecovery | jamRelease => exact Part.settled_loopStep hp
  case start => exact Part.settled_takeCommand hp fun _ => Part.settled_doStart
  case stop => exact Part.settled_takeCommand hp fun _ => Part.settled_doStop
  case quiet => exact Part.settled_takeCommand hp fun _ => Part.settled_doQuiet
  case wake => exact Part.settled_takeCommand hp fun _ => Part.settled_doWake
  case rollcall => exact Part.settled_takeCommand hp fun _ => Part.settled_doRollcall
  case retime => exact Part.settled_takeCommand hp fun _ => Part.settled_doRetime
  case lineTest => exact Part.settled_takeCommand hp fun _ => Part.settled_doTest
  case undefinedCommand =>
    split
    · exact Part.settled_takeCommand hp fun q hq => Part.settled_refuse hq
    · exact hp
  case biasOkLoss =>
    exact Part.settled_kept hp (by simp [Part.biasLoss]) (by simp [Part.biasLoss])
      (by simp [Part.biasLoss, Engine.rollcallDue, Engine.isSending])
  case biasOkRestore =>
    exact Part.settled_kept hp (by simp [Part.biasRestore]) (by simp [Part.biasRestore])
      (by simp [Part.biasRestore, Engine.rollcallDue, Engine.isSending])
  case gridPoint => exact Part.settled_loopEvent hp fun _ => Part.settled_gridPoint hp
  case announceWindowStart => exact Part.settled_loopEvent hp fun _ => Part.settled_announceWindow hp
  case rollAttempt => exact Part.settled_loopEvent hp fun hroll => Part.settled_rollAttempt hroll hp
  case keepaliveTimer => exact Part.settled_loopEvent hp fun hdue => Part.settled_keepalive hdue hp
  case downHoldExpiry =>
    exact Part.settled_loopEvent hp fun _ =>
      Part.settled_kept hp (by simp [Part.holdExpiry]) (by simp [Part.holdExpiry])
        (by simp [Part.holdExpiry, Engine.rollcallDue, Engine.isSending])
  case transferComplete =>
    cases ht : s.part.port.inFlight with
    | none => exact hp
    | some t =>
      rw [ht, Option.map_some, Option.some.injEq] at hc
      simp only
      unfold Part.completeTransfer
      rw [if_pos hlive]
      exact Part.settled_transferDone hc (Part.settled_same hp (p.freePort_eng l))
  case busError =>
    cases ht : s.part.port.inFlight with
    | none => exact hp
    | some t =>
      rw [ht, Option.map_some, Option.some.injEq] at hc
      simp only
      unfold Part.failTransfer
      rw [if_pos hlive, hc]
      exact Part.settled_enterFault ..

/-! ### The obligation -/

theorem Part.Emptied.settled {p q : Part} (h : p.Emptied q) (l : LoopId) : q.settled l = true :=
  Part.settled_nil l q (by rw [h.engine]; rfl) (by rw [h.engine]; rfl)

theorem RegisterWork.standing {p q : Part} (h : RegisterWork p q) (hp : p.standing) : q.standing := by
  cases h with
  | accessed h =>
    intro hlive l
    obtain ⟨_, _, _, he⟩ := h.engine l
    exact Part.settled_kept (hp (h.live ▸ hlive) l) (by rw [he]) (by rw [he]; exact id) (by rw [he]; exact id)
  | begun =>
    intro hlive
    simp [Part.live] at hlive
  | emptied h => exact fun _ l => h.settled l

theorem commandWork_standing (c : Instr) (s : State) (p : Part) (hp : p.standing) :
    (commandWork c s p).standing := by
  rcases commandWork_cases c s p with ⟨l, b, hc, hb, hw⟩ | h
  · intro hlive m
    have hplive : p.live = true := by rw [← hb.live, ← hw.live]; exact hlive
    rcases eq_or_eq_otherLoop l m with rfl | rfl
    · exact commandWork_settled hplive hc (hp hplive m)
    · exact Part.settled_other (by rw [hw.other]; exact hb.other) (hp hplive _)
  · exact h.standing hp

/-- Settles O58: the command of a loop leaves its procedure standing and does not touch the other loop's. -/
theorem proceduresStand : Obligations.ProceduresStand := fun _ _ hs h =>
  step_keeps (P := Part.standing)
    (fun _ p hp hlive l => Part.settled_same (hp hlive l) (p.tick_eng ..))
    commandWork_standing
    (fun p hp hlive l => Part.settled_same (hp (p.arbitrate_live ▸ hlive) l) (p.arbitrate_eng l)) hs h

/-! ### The reset state -/

theorem Part.Emptied.reset : (Part.powerOn 0 true true).Emptied State.reset.part := .powerOn _

theorem Part.Emptied.relaysOrdered {p q : Part} (h : p.Emptied q) : q.relaysOrdered := by
  refine ⟨fun a r hr => ?_, fun i hi => ?_, fun l => ⟨?_, ?_, ?_, ?_⟩⟩
  · rw [h.relays] at hr
    cases hr
  · rw [h.ctx] at hi
    cases hi
  · rw [h.engine]
    unfold Engine.workOrdered
    simp [Engine.reset]
  · unfold Part.workOwned
    rw [h.engine]
    simp [Engine.reset]
  · unfold Part.workPlaced
    rw [h.engine]
    simp [Engine.reset, LoopControl.reset]
  · unfold Part.attemptPlaced
    rw [h.engine]
    simp [Engine.reset]

/-- Settles O60: a part all of whose engines, contexts and entries are at their reset values meets every invariant. -/
theorem invariantsAtReset : Obligations.InvariantsAtReset := by
  have h := Part.Emptied.reset
  obtain ⟨hcouplers, htest⟩ := h.claimsExclusive
  refine ⟨⟨List.Pairwise.nil, fun c hc => by cases hc⟩, fun l => ?_, fun hlive => ?_, hcouplers, fun i => ?_, htest,
    h.relaysOrdered, fun _ => h.settled⟩
  · rw [h.engine]; exact Engine.sound_reset _
  · cases hlive
  · rw [h.ctx]; rfl

/-- Settles O3: the reset values, item by item. -/
theorem powerOnValues : Obligations.PowerOnValues := by
  refine ⟨rfl, rfl, fun _ => rfl, fun now biasA biasB => ?_⟩
  have h : (Part.powerOn now biasA biasB).Emptied (Part.powerOn now biasA biasB) := .powerOn _
  refine ⟨rfl, rfl, rfl, rfl, rfl, rfl, rfl, rfl, rfl, h.ctx, h.relays, fun n => ?_, fun g => ?_, rfl, rfl, rfl, rfl,
    fun l => ?_⟩
  · simp [Part.powerOn, ScreeningStore.reset, Filter.reset]
  · simp [Part.powerOn, ScreeningStore.reset]
  · have hscan : ∀ (biasOk : Bool) (i : StationIx), (Engine.reset biasOk).scan[i] = StationHost.zero := by
      simp [Engine.reset]
    cases l <;>
      exact ⟨rfl, rfl, rfl, rfl, rfl, rfl, rfl, hscan _, rfl, rfl, rfl, rfl, rfl, rfl, rfl, rfl, rfl, rfl, rfl, rfl,
        rfl, rfl⟩

end Sys2Proof.Machine
end

