-- ==== Sys2Proof/Proofs/TestGenerator.lean ====
section
/-!
The pattern generator (R152): one step bit by bit, and the payload bytes as the output bits of its steps.
-/
namespace Sys2Proof.Machine

open Sys2Proof

/-- The generator after `n` steps. -/
def lfsrAfter (n : Nat) (g : BitVec 15) : BitVec 15 := Nat.repeat (fun h => (lfsrStep h).1) n g

theorem lfsrAfter_eq_iterate (n : Nat) (g : BitVec 15) : lfsrAfter n g = (fun h => (lfsrStep h).1)^[n] g := by
  unfold lfsrAfter
  induction n with
  | zero => rfl
  | succ n ih => rw [Function.iterate_succ_apply', ← ih]; rfl

theorem lfsrAfter_succ (n : Nat) (g : BitVec 15) : lfsrAfter n (lfsrStep g).1 = lfsrAfter (n + 1) g := by
  rw [lfsrAfter_eq_iterate, lfsrAfter_eq_iterate, Function.iterate_succ_apply]

theorem lfsrAfter_add (m n : Nat) (g : BitVec 15) : lfsrAfter m (lfsrAfter n g) = lfsrAfter (m + n) g := by
  simp only [lfsrAfter_eq_iterate, Function.iterate_add_apply]

/-- A bit at the least significant end of a word. -/
theorem getLsbD_ite_one {w : Nat} (b : Bool) (k : Nat) (hw : 0 < w) :
    (if b then 1 else 0 : BitVec w).getLsbD k = (b && k == 0) := by
  cases b
  · simp
  · have hone : (1 : BitVec w).getLsbD k = decide (0 < w ∧ k = 0) := by
      simp [BitVec.getLsbD_one]
    rw [if_pos rfl, hone, Bool.true_and, Bool.eq_iff_iff, beq_iff_eq, decide_eq_true_iff, and_iff_right hw]

theorem lfsrStep_getLsbD (g : BitVec 15) (k : Nat) (hk : k < 15) :
    (lfsrStep g).1.getLsbD k = if k = 0 then (lfsrStep g).2 else g.getLsbD (k - 1) := by
  unfold lfsrStep
  simp only [BitVec.getLsbD_or, BitVec.getLsbD_shiftLeft, getLsbD_ite_one _ k (show 0 < 15 by omega)]
  by_cases h0 : k = 0
  · simp [h0]
  · simp [h0, hk, show ¬ k < 1 by omega]

theorem lfsrBits_fst (n : Nat) (g : BitVec 15) (b : Byte) : (lfsrBits n g b).1 = lfsrAfter n g := by
  induction n generalizing g b with
  | zero => rfl
  | succ n ih => rw [lfsrBits, ih, lfsrAfter_succ]

/-- The output bits enter a byte from its least significant end: the last of `n` stands at bit 0. -/
theorem lfsrBits_getLsbD (n : Nat) (g : BitVec 15) (b : Byte) (j : Nat) (hj : j < 8) :
    (lfsrBits n g b).2.getLsbD j =
      if j < n then (lfsrStep (lfsrAfter (n - 1 - j) g)).2 else b.getLsbD (j - n) := by
  induction n generalizing g b with
  | zero => simp [lfsrBits]
  | succ n ih =>
    rw [lfsrBits, ih]
    by_cases hlt : j < n
    · rw [if_pos hlt, if_pos (by omega), lfsrAfter_succ]
      congr 4
      omega
    · rw [if_neg hlt, BitVec.getLsbD_or, BitVec.getLsbD_shiftLeft, getLsbD_ite_one _ _ (by omega)]
      by_cases heq : j = n
      · subst heq
        simp [lfsrAfter, Nat.repeat]
      · rw [if_neg (by omega)]
        simp [show j - n ≠ 0 by omega, show j - n < 8 by omega, show ¬ j - n < 1 by omega, Nat.sub_sub]

theorem lfsrBytes_fst (n : Nat) (g : BitVec 15) : (lfsrBytes n g).1 = lfsrAfter (8 * n) g := by
  induction n generalizing g with
  | zero => rfl
  | succ n ih => rw [lfsrBytes, ih, lfsrBits_fst, lfsrAfter_add, Nat.mul_succ]

theorem lfsrBytes_length (n : Nat) (g : BitVec 15) : (lfsrBytes n g).2.length = n := by
  induction n generalizing g with
  | zero => rfl
  | succ n ih => rw [lfsrBytes, List.length_cons, ih]

/-- Bit 7 - b of payload byte i is the output of step 8 i + b. -/
theorem lfsrBytes_getLsbD (n i b : Nat) (g : BitVec 15) (hi : i < n) (hb : b < 8) :
    (byteAt (lfsrBytes n g).2 i).getLsbD (7 - b) = (lfsrStep (lfsrAfter (8 * i + b) g)).2 := by
  induction n generalizing g i with
  | zero => omega
  | succ n ih =>
    cases i with
    | zero =>
      show (lfsrBits 8 g 0).2.getLsbD (7 - b) = _
      rw [lfsrBits_getLsbD _ _ _ _ (by omega), if_pos (by omega)]
      congr 3
      omega
    | succ i =>
      show (byteAt (lfsrBytes n (lfsrBits 8 g 0).1).2 i).getLsbD (7 - b) = _
      rw [ih i _ (by omega), lfsrBits_fst, lfsrAfter_add]
      congr 3
      omega

/-- Settles O52: a step by its bits, the payload by the steps that its bits come from. -/
theorem testGenerator : Obligations.TestGenerator := by
  refine ⟨fun g => ⟨rfl, ?_, fun k h1 h15 => ?_⟩, fun n g => ⟨lfsrBytes_fst n g, lfsrBytes_length n g,
    fun i hi b hb => lfsrBytes_getLsbD n i b g hi hb⟩, by decide⟩
  · rw [lfsrStep_getLsbD g 0 (by omega), if_pos rfl]; rfl
  · rw [lfsrStep_getLsbD g k h15, if_neg (by omega)]

end Sys2Proof.Machine
end

