-- ==== Sys2Proof/Proofs/ResetCommands.lean ====
section
/-!
The soft reset and RESET_N (R166, R167, R168): what each command answers, and that a part held in reset answers
nothing but the levels of its BIAS_OK pins.
-/
namespace Sys2Proof.Machine

open Sys2Proof

/-! ### When no grant is made -/

theorem Part.arbitrate_of_not_live {p : Part} (h : p.live = false) : p.arbitrate = p := by
  unfold Part.arbitrate; rw [h, Bool.false_and, if_neg Bool.false_ne_true]

theorem Part.firstRequest_of_none {p : Part} (h : ∀ r, p.request r = none) (rs : List Requester) :
    p.firstRequest rs = none := by
  induction rs with
  | nil => rfl
  | cons r rs ih => rw [Part.firstRequest, h r]; exact ih

/-- With no request waiting nothing is granted. -/
theorem Part.arbitrate_of_no_request {p : Part} (h : ∀ r, p.request r = none) : p.arbitrate = p := by
  unfold Part.arbitrate
  split
  · rw [Part.firstRequest_of_none h]
  · rfl

/-- An engine after a reset asks for no transfer. -/
theorem Part.Emptied.request {p q : Part} (h : p.Emptied q) (r : Requester) : q.request r = none := by
  cases r <;> simp [Part.request, h.engine, Engine.reset, CatchUnit.reset]

theorem Part.Emptied.arbitrate {p q : Part} (h : p.Emptied q) : q.arbitrate = q :=
  Part.arbitrate_of_no_request h.request

/-- A state whose part asks for nothing is left as it is by the grant. -/
theorem State.become_of_arbitrate {s : State} {p : Part} (h : p.arbitrate = p) :
    s.become p = { s with part := p } := by rw [State.become, h]

/-! ### The soft reset -/

/-- The DONE write of a loop that is in progress, by the port and the head of the procedure. -/
theorem Part.doneInProgress_eq (p : Part) (l : LoopId) :
    p.doneInProgress l =
      match p.port.inFlight, (p.eng l).sched with
      | some t, .writeDone i k flip after :: _ =>
        if t.requester = .sched l ∧ t.orphan = false ∧ t.urgent = false then [.writeDone i k flip after] else []
      | _, _ => [] := by
  unfold Part.doneInProgress Part.keepTransfer Part.schedTransferring
  cases p.port.inFlight with
  | none => rfl
  | some t =>
    simp only [Bool.and_eq_true, beq_iff_eq, Bool.not_eq_true', and_assoc]
    cases (p.eng l).sched with
    | nil => simp
    | cons op rest => cases op <;> split_ifs with h <;> simp [h]

theorem Part.beginSoftReset_of_not {p : Part} (h : (p.live && p.latchFree) = false) : p.beginSoftReset = p := by
  unfold Part.beginSoftReset; rw [h, if_neg Bool.false_ne_true]

theorem Part.endSoftReset_of {p : Part} (hheld : p.resetHeld = false) (hres : p.resetting = true)
    (hport : p.port.inFlight = none) : p.endSoftReset = p.softReset := by
  simp [Part.endSoftReset, hheld, hres, hport]

theorem Part.endSoftReset_of_inFlight {p : Part} (hport : p.port.inFlight.isSome = true) :
    p.endSoftReset = p := by
  cases h : p.port.inFlight with
  | none => rw [h] at hport; cases hport
  | some t => simp [Part.endSoftReset, h]

/-- Settles O4: the start by the DONE writes it keeps, with no grant made in it; the end by the reset values, which
ask for no transfer. -/
theorem softReset : Obligations.SoftReset := by
  intro dt fields s p cut
  refine ⟨fun hlive hfree => ?begins, fun hnot => ?waits, fun hheld hres hport => ?ends, fun _ hport => ?goesOn⟩
  case begins =>
    have hbegin : p.beginSoftReset =
        { p with resetting := true, cause := 0, engA := cut .A p.engA, engB := cut .B p.engB } := by
      unfold Part.beginSoftReset
      rw [hlive, hfree, Bool.and_self, if_pos rfl, Part.doneInProgress_eq, Part.doneInProgress_eq]
      rfl
    rw [exec_eq_become rfl]
    show Host.Outcome.next (s.become p.beginSoftReset) = _
    rw [hbegin, State.become_of_arbitrate (Part.arbitrate_of_not_live (by simp [Part.live]))]
  case waits =>
    rw [exec_eq_become rfl]
    exact congrArg (fun q => Host.Outcome.next (s.become q)) (Part.beginSoftReset_of_not hnot)
  case ends =>
    rw [exec_eq_become rfl]
    show Host.Outcome.next (s.become p.endSoftReset) = _
    rw [Part.endSoftReset_of hheld hres hport, State.become_of_arbitrate (Part.Emptied.softReset p).arbitrate,
      Part.softReset, hport]
    rfl
  case goesOn =>
    rw [exec_eq_become rfl]
    exact congrArg (fun q => Host.Outcome.next (s.become q)) (Part.endSoftReset_of_inFlight hport)

/-! ### RESET_N -/

theorem Part.assertReset_of_held {p : Part} (h : p.resetHeld = true) : p.assertReset = p := by
  rw [Part.assertReset, if_pos h]

theorem Part.live_of_held {p : Part} (h : p.resetHeld = true) : p.live = false := by
  rw [Part.live, h, Bool.not_true, Bool.false_and]

/-- The bytes that stand in memory when RESET_N cuts a write (R168). -/
theorem State.memAtReset_eq (s : State) (landed : BitVec 128) :
    s.memAtReset landed = match s.part.port.inFlight with
      | some { action := .write a data, .. } => Memory.writeLanded s.mem a landed data
      | _ => s.mem := by
  unfold State.memAtReset
  split
  · rename_i t ht
    obtain ⟨r, action, u, o⟩ := t
    cases action <;> simp [ht]
  · rename_i ht
    simp [ht]

/-- A part held in reset answers no command but the end of RESET_N and the levels of the BIAS_OK pins. -/
theorem commandWork_of_held {c : Instr} {s : State} {p : Part} (hheld : p.resetHeld = true)
    (hport : s.part.port.inFlight = none) (hrelease : ∀ dt, c ≠ .resetNRelease dt)
    (hloss : ∀ dt l, c ≠ .biasOkLoss dt l) (hrestore : ∀ dt l, c ≠ .biasOkRestore dt l) :
    commandWork c s p = p := by
  have hl := Part.live_of_held hheld
  cases c <;> simp only [commandWork, Part.takeCommand_of_not_live hl, Part.loopEvent_of_not_live hl,
    Part.loopStep_of_not_live hl, ite_self, hport, Part.assertReset_of_held hheld]
  case softReset => exact Part.beginSoftReset_of_not (by rw [hl, Bool.false_and])
  case softResetComplete => simp [Part.endSoftReset, hheld]
  case areaWrite => simp [Part.writeArea, hl]
  case causeWrite => simp [Part.writeCause, hl]
  case maskWrite => simp [Part.writeMask, hheld]
  case windowPointerWrite => simp [Part.writePointer, hl]
  case windowDataRead => simp [Part.readData, hheld]
  case windowDataWrite => simp [Part.writeData, hl]
  case resetNRelease dt => exact absurd rfl (hrelease dt)
  case biasOkLoss dt l => exact absurd rfl (hloss dt l)
  case biasOkRestore dt l => exact absurd rfl (hrestore dt l)

/-- Settles O5: the two edges of the pin by the reset values, and every other command by the part not running. -/
theorem resetPin : Obligations.ResetPin := by
  intro dt landed s p reset
  have hheldEmptied : p.Emptied { reset with resetHeld := true } := .holdReset p
  refine ⟨fun hfree => ?asserted, fun hheld => ?released, rfl, fun l => ?driven, ?between⟩
  case asserted =>
    rw [exec_eq]
    show Host.Outcome.next { s with part := p.assertReset.arbitrate, mem := s.memAtReset landed } = _
    rw [Part.assertReset_of hfree, hheldEmptied.arbitrate, State.memAtReset_eq]
    rfl
  case released =>
    rw [exec_eq_become rfl]
    show Host.Outcome.next (s.become p.releaseReset) = _
    rw [Part.releaseReset_of hheld, State.become_of_arbitrate (Part.Emptied.powerOn p).arbitrate]
  case driven => exact Engine.txen_of_sending (by rw [hheldEmptied.engine]; rfl)
  case between =>
    intro c hheld hport hrelease hloss hrestore
    refine ⟨_, exec_eq c s, ?_⟩
    rw [commandWork_of_held (by exact hheld) hport hrelease hloss hrestore]
    exact Part.arbitrate_of_not_live (Part.live_of_held hheld)

end Sys2Proof.Machine
end

