-- ==== Sys2Proof/Proofs/TransferBytes.lean ====
section
/-!
The bytes that transfers and the host's own writes leave in system memory, and what a read brings (R164, R165, R168).
-/
namespace Sys2Proof.Machine

open Sys2Proof

/-- The addresses of a memory written byte by byte rise. -/
theorem Memory.rising_hostWrites (ws : List (Word × Byte)) (m : Memory) (h : Memory.rising m) :
    Memory.rising (Memory.hostWrites m ws) := by
  induction ws generalizing m with
  | nil => exact h
  | cons w ws ih => exact ih _ (Memory.rising_write m _ w.2 h)

theorem Memory.hostWrites_append (ws vs : List (Word × Byte)) (m : Memory) :
    Memory.hostWrites m (ws ++ vs) = Memory.hostWrites (Memory.hostWrites m ws) vs := by
  induction ws generalizing m with
  | nil => rfl
  | cons w ws ih => exact ih _

/-- The last of the host's writes stands. -/
theorem Memory.read_hostWrites_append (m : Memory) (ws : List (Word × Byte)) (a x : Word) (b : Byte)
    (h : Memory.rising m) :
    Memory.read (Memory.hostWrites m (ws ++ [(a, b)])) x.toNat =
      if x = a then b else Memory.read (Memory.hostWrites m ws) x.toNat := by
  rw [Memory.hostWrites_append]
  show Memory.read (Memory.write (Memory.hostWrites m ws) a.toNat b) x.toNat = _
  rw [Memory.read_write _ _ _ _ (Memory.rising_hostWrites ws m h)]
  simp only [BitVec.toNat_inj]

/-- A read transfer brings the bytes at its addresses in order. -/
theorem Memory.readBytes_eq (m : Memory) (a : Word) (n : Nat) :
    Memory.readBytes m a n = (List.range n).map fun i => Memory.read m (a + BitVec.ofNat 32 i).toNat := by
  induction n generalizing a with
  | zero => rfl
  | succ n ih =>
    rw [Memory.readBytes, ih, List.range_succ_eq_map, List.map_cons, List.map_map]
    congr 1
    · simp
    · refine List.map_congr_left fun i _ => ?_
      show Memory.read m (a + 1 + BitVec.ofNat 32 i).toNat = Memory.read m (a + BitVec.ofNat 32 (i + 1)).toNat
      rw [BitVec.add_assoc, Nat.add_comm i 1, BitVec.ofNat_add]
      rfl

/-- A whole write transfer is a cut one of which every byte has landed. -/
theorem Memory.read_writeBytes_dite (m : Memory) (a x : Word) (data : List Byte) (h : Memory.rising m)
    (hl : data.length ≤ 128) :
    Memory.read (Memory.writeBytes m a data) x.toNat =
      if h : (x - a).toNat < data.length then data[(x - a).toNat] else Memory.read m x.toNat := by
  rw [Memory.read_writeBytes data m a x h (by omega)]
  split
  · rename_i hlt
    rw [List.getD_eq_getElem _ _ hlt]
  · rfl

/-- A cut write transfer leaves byte `j` of its data at its `j`-th address where that byte has landed, and every other
byte as it was. -/
theorem Memory.read_writeLanded (bs : List Byte) (m : Memory) (a x : Word) (landed : BitVec 128)
    (h : Memory.rising m) (hl : bs.length ≤ 2 ^ 32) :
    Memory.read (Memory.writeLanded m a landed bs) x.toNat =
      if (x - a).toNat < bs.length ∧ landed.getLsbD (x - a).toNat = true then bs.getD (x - a).toNat 0
      else Memory.read m x.toNat := by
  induction bs generalizing m a landed with
  | nil => simp [Memory.writeLanded]
  | cons b bs ih =>
    have hfirst : Memory.rising (if landed.getLsbD 0 then Memory.write m a.toNat b else m) := by
      split
      · exact Memory.rising_write m _ b h
      · exact h
    rw [List.length_cons] at hl
    rw [Memory.writeLanded, ih _ _ _ hfirst (by omega), List.length_cons]
    have hread : Memory.read (if landed.getLsbD 0 then Memory.write m a.toNat b else m) x.toNat =
        if landed.getLsbD 0 = true ∧ x = a then b else Memory.read m x.toNat := by
      by_cases h0 : landed.getLsbD 0 = true
      · rw [if_pos h0, Memory.read_write _ _ _ _ h]
        simp only [BitVec.toNat_inj, h0, true_and]
      · rw [if_neg h0, if_neg fun hboth => h0 hboth.1]
    rw [hread]
    by_cases hxa : x = a
    · subst hxa
      have hlast : (x - (x + 1)).toNat = 2 ^ 32 - 1 := by
        rw [show x - (x + 1) = -1#32 by bv_omega]; rfl
      rw [BitVec.sub_self, hlast]
      simp
    · have hsucc : (x - a).toNat = (x - (a + 1)).toNat + 1 := by bv_omega
      rw [hsucc]
      simp [hxa, BitVec.getLsbD_ushiftRight, Nat.add_comm 1]

/-- Settles O6: each kind of write by the byte it leaves at an address, a read by the bytes it brings. -/
theorem transferBytes : Obligations.TransferBytes := by
  intro m a landed data n x hwf hlen
  refine ⟨?_, Memory.read_writeBytes_dite m a x data hwf.1 hlen, Memory.readBytes_eq m a n,
    fun b ws => Memory.read_hostWrites_append m ws a x b hwf.1⟩
  rw [Memory.read_writeLanded data m a x landed hwf.1 (by omega)]
  by_cases hlt : (x - a).toNat < data.length
  · rw [dif_pos hlt, List.getD_eq_getElem _ _ hlt]
    simp only [hlt, true_and]
  · rw [dif_neg hlt, if_neg fun h => hlt h.1]

end Sys2Proof.Machine
end

