-- ==== Sys2Proof/Proofs/WindowSpaces.lean ====
section
/-!
The window spaces (R161, R162, R170): where each ends, the words by the stored fields, the side effects of reads, and
the stores of writes.
-/
namespace Sys2Proof.Machine

open Sys2Proof

/-! ### The ends of the spaces -/

/-- How many words a space has (R162). -/
def windowEnd (space : BitVec 4) : Nat := [3, 128, 16, 8, 4, 4, 6, 24, 5].getD space.toNat 0

theorem identityRead_beyond {n : Nat} (h : 3 ≤ n) : identityRead n = 0 := by
  match n, h with
  | n + 3, _ => rfl

theorem ScreeningStore.filterRead_beyond (s : ScreeningStore) {n : Nat} (h : 128 ≤ n) : s.filterRead n = 0 := by
  rw [ScreeningStore.filterRead, dif_neg (by omega)]

theorem ScreeningStore.groupRead_beyond (s : ScreeningStore) {n : Nat} (h : 16 ≤ n) : s.groupRead n = 0 := by
  rw [ScreeningStore.groupRead, dif_neg (by omega), if_neg (by omega)]

theorem ScreeningStore.wakeRead_beyond (s : ScreeningStore) {n : Nat} (h : 8 ≤ n) : s.wakeRead n = 0 := by
  rw [ScreeningStore.wakeRead, if_neg (by omega), if_neg (by omega)]

theorem LineMonitor.readWord_beyond (m : LineMonitor) {n : Nat} (h : 4 ≤ n) : m.readWord n = 0 := by
  match n, h with
  | n + 4, _ => rfl

theorem Part.trapRead_beyond (p : Part) {n : Nat} (h : 6 ≤ n) : p.trapRead n = 0 := by
  rw [Part.trapRead, if_neg (by omega), if_neg (by omega)]

theorem Part.relayRead_beyond (p : Part) {n : Nat} (h : 24 ≤ n) : p.relayRead n = 0 := by
  rw [Part.relayRead, dif_neg (by omega)]

theorem TestUnit.readWord_beyond (u : TestUnit) {n : Nat} (h : 5 ≤ n) : u.readWord n = 0 := by
  match n, h with
  | n + 5, _ => rfl

/-- At or beyond the end of a space a word reads 0. -/
theorem Part.windowWord_beyond (p : Part) {space : BitVec 4} {offset : BitVec 12}
    (h : windowEnd space ≤ offset.toNat) : p.windowWord space offset = 0 := by
  unfold windowEnd at h
  unfold Part.windowWord
  split <;> rename_i hspace <;> try rw [hspace] at h
  · exact identityRead_beyond h
  · exact ScreeningStore.filterRead_beyond _ h
  · exact ScreeningStore.groupRead_beyond _ h
  · exact ScreeningStore.wakeRead_beyond _ h
  · exact LineMonitor.readWord_beyond _ h
  · exact LineMonitor.readWord_beyond _ h
  · exact p.trapRead_beyond h
  · exact p.relayRead_beyond h
  · exact TestUnit.readWord_beyond _ h
  · rfl

/-- At or beyond the end of a space a write has no effect. -/
theorem Part.windowStore_beyond (p : Part) {space : BitVec 4} {offset : BitVec 12} (v : Word)
    (h : windowEnd space ≤ offset.toNat) : p.windowStore space offset v = p := by
  unfold windowEnd at h
  unfold Part.windowStore
  split <;> rename_i hspace <;> try rw [hspace] at h
  · have hend : 128 ≤ offset.toNat := h
    rw [ScreeningStore.filterWrite, dif_neg (by omega)]
  · have hend : 16 ≤ offset.toNat := h
    rw [ScreeningStore.groupWrite, dif_neg (by omega), if_neg (by omega)]
  · have hend : 8 ≤ offset.toNat := h
    rw [ScreeningStore.wakeWrite, if_neg (by omega), if_neg (by omega)]
  · rfl

theorem BitVec4_toNat_ne {space : BitVec 4} {n : Nat} (h : space ≠ BitVec.ofNat 4 n) : space.toNat ≠ n := by
  rintro rfl
  exact h (BitVec.ofNat_toNat .. ▸ (BitVec.setWidth_eq space).symm)

/-- The words outside spaces 1 to 3 take no write. -/
theorem Part.windowStore_readOnly (p : Part) {space : BitVec 4} (offset : BitVec 12) (v : Word)
    (h1 : space ≠ 1) (h2 : space ≠ 2) (h3 : space ≠ 3) : p.windowStore space offset v = p := by
  unfold Part.windowStore
  split <;> rename_i hspace
  · exact absurd hspace (BitVec4_toNat_ne h1)
  · exact absurd hspace (BitVec4_toNat_ne h2)
  · exact absurd hspace (BitVec4_toNat_ne h3)
  · rfl

/-! ### The side effects of reads -/

/-- The side effect of a read of a word of a Line Monitor. -/
theorem Part.monitorEffect_eq (p : Part) (l : LoopId) (n : Nat) :
    p.modEng l (fun e => { e with mon := e.mon.readEffect n }) =
      if n = 1 then p.modEng l fun e => { e with mon := { e.mon with totalErrors := 0 } }
      else if n = 2 then p.modEng l fun e => { e with mon := { e.mon with collisions := 0 } }
      else p := by
  unfold LineMonitor.readEffect
  split_ifs
  · rfl
  · rfl
  · exact p.modEng_self l _ rfl

/-- The side effect of a read of one of the three words of a trap slot. -/
theorem Part.slotEffect_eq (p : Part) (l : LoopId) (n : Nat) :
    p.modEng l (fun e => { e with trap := e.trap.readEffect n }) =
      if n = 0 then
        p.modEng l fun e =>
          { e with trap := { armed := true, station := 0, latency := 0, cycle := 0, missed := e.trap.missed } }
      else if n = 2 then p.modEng l fun e => { e with trap := { e.trap with missed := 0 } }
      else p := by
  unfold TrapSlot.readEffect
  split_ifs
  · rfl
  · rfl
  · exact p.modEng_self l _ rfl

/-- The side effect of a read in the space of the trap slots. -/
theorem Part.trapEffect_eq (p : Part) (n : Nat) :
    p.trapEffect n =
      if n = 0 ∨ n = 3 then
        p.modEng (if n < 3 then .A else .B) fun e =>
          { e with trap := { armed := true, station := 0, latency := 0, cycle := 0, missed := e.trap.missed } }
      else if n = 2 ∨ n = 5 then
        p.modEng (if n < 3 then .A else .B) fun e => { e with trap := { e.trap with missed := 0 } }
      else p := by
  unfold Part.trapEffect
  rw [Part.slotEffect_eq, Part.slotEffect_eq]
  split_ifs <;> first | rfl | omega

theorem TestUnit.readEffect_eq (p : Part) (n : Nat) :
    { p with testUnit := p.testUnit.readEffect n } =
      if n = 4 then { p with testUnit := { p.testUnit with mismatched := 0 } } else p := by
  unfold TestUnit.readEffect
  split_ifs <;> rfl

theorem eq_ofNat_iff_toNat {w : Nat} (x : BitVec w) {n : Nat} (h : n < 2 ^ w) :
    x = BitVec.ofNat w n ↔ x.toNat = n := by
  rw [← BitVec.toNat_inj, BitVec.toNat_ofNat, Nat.mod_eq_of_lt h]

/-- The side effects of reads, by space and offset: the counters of the Line Monitors, the trap slots and the
mismatched bytes. -/
theorem Part.windowEffect_eq (p : Part) (space : BitVec 4) (offset : BitVec 12) :
    let loop : LoopId := if space = 4 then .A else .B
    let trapLoop : LoopId := if offset.toNat < 3 then .A else .B
    p.windowEffect space offset =
      if (space = 4 ∨ space = 5) ∧ offset = 1 then
        p.modEng loop fun e => { e with mon := { e.mon with totalErrors := 0 } }
      else if (space = 4 ∨ space = 5) ∧ offset = 2 then
        p.modEng loop fun e => { e with mon := { e.mon with collisions := 0 } }
      else if space = 6 ∧ (offset = 0 ∨ offset = 3) then
        p.modEng trapLoop fun e =>
          { e with trap := { armed := true, station := 0, latency := 0, cycle := 0
                             missed := e.trap.missed } }
      else if space = 6 ∧ (offset = 2 ∨ offset = 5) then
        p.modEng trapLoop fun e => { e with trap := { e.trap with missed := 0 } }
      else if space = 8 ∧ offset = 4 then { p with testUnit := { p.testUnit with mismatched := 0 } }
      else p := by
  intro loop trapLoop
  have hspace : ∀ n < 16, space = BitVec.ofNat 4 n ↔ space.toNat = n := fun n h => eq_ofNat_iff_toNat space h
  have hoffset : ∀ n < 4096, offset = BitVec.ofNat 12 n ↔ offset.toNat = n := fun n h => eq_ofNat_iff_toNat offset h
  simp only [loop, trapLoop, show space = 4 ↔ _ from hspace 4 (by omega),
    show space = 5 ↔ _ from hspace 5 (by omega), show space = 6 ↔ _ from hspace 6 (by omega),
    show space = 8 ↔ _ from hspace 8 (by omega), show offset = 0 ↔ _ from hoffset 0 (by omega),
    show offset = 1 ↔ _ from hoffset 1 (by omega), show offset = 2 ↔ _ from hoffset 2 (by omega),
    show offset = 3 ↔ _ from hoffset 3 (by omega), show offset = 4 ↔ _ from hoffset 4 (by omega),
    show offset = 5 ↔ _ from hoffset 5 (by omega)]
  unfold Part.windowEffect
  generalize space.toNat = k
  split
  · simp [Part.monitorEffect_eq]
  · simp [Part.monitorEffect_eq]
  · simp [Part.trapEffect_eq]
  · simp [TestUnit.readEffect_eq]
  · rename_i h4 h5 h6 h8
    have hother : k ≠ 4 ∧ k ≠ 5 ∧ k ≠ 6 ∧ k ≠ 8 := ⟨h4, h5, h6, h8⟩
    simp [hother]

/-- At or beyond the end of a space a read has no side effect. -/
theorem Part.windowEffect_beyond (p : Part) {space : BitVec 4} {offset : BitVec 12}
    (h : windowEnd space ≤ offset.toNat) : p.windowEffect space offset = p := by
  unfold windowEnd at h
  unfold Part.windowEffect
  split <;> rename_i hspace <;> try rw [hspace] at h
  · have hend : 4 ≤ offset.toNat := h
    rw [Part.monitorEffect_eq, if_neg (by omega), if_neg (by omega)]
  · have hend : 4 ≤ offset.toNat := h
    rw [Part.monitorEffect_eq, if_neg (by omega), if_neg (by omega)]
  · have hend : 6 ≤ offset.toNat := h
    rw [Part.trapEffect_eq, if_neg (by omega), if_neg (by omega)]
  · have hend : 5 ≤ offset.toNat := h
    rw [TestUnit.readEffect_eq, if_neg (by omega)]
  · rfl

/-! ### Words and their fields -/

theorem StepMode.ofCode_eq (c : BitVec 2) :
    StepMode.ofCode c = match c.toNat with | 0 => .fixed | 1 => .all | 2 => .writes | _ => .reads := by
  revert c; decide

theorem FilterScope.ofCode_eq (c : BitVec 2) :
    FilterScope.ofCode c = match c.toNat with | 0 => .announce | 1 => .wake | 2 => .both | _ => .unnamed := by
  revert c; decide

theorem Qualifier.ofCode_eq (c : BitVec 2) :
    Qualifier.ofCode c =
      match c.toNat with | 0 => .any | 1 => .toConcentrator | 2 => .groupListed | _ => .knownSource := by
  revert c; decide

@[simp] theorem StepMode.code_ofCode (c : BitVec 2) : (StepMode.ofCode c).code = c := by revert c; decide

@[simp] theorem FilterScope.code_ofCode (c : BitVec 2) : (FilterScope.ofCode c).code = c := by revert c; decide

@[simp] theorem Qualifier.code_ofCode (c : BitVec 2) : (Qualifier.ofCode c).code = c := by revert c; decide

/-- A word written to WINDOW_POINTER reads back in the bits of its fields. -/
theorem WindowPointer.toWord_ofWord (v : Word) : (WindowPointer.ofWord v).toWord = v &&& 0x030F0FFF := by
  unfold WindowPointer.toWord WindowPointer.ofWord
  simp only [StepMode.code_ofCode]
  refine BitVec.eq_of_getLsbD_eq fun i hi => ?_
  simp only [BitVec.getLsbD_append, BitVec.getLsbD_extractLsb', BitVec.getLsbD_and]
  interval_cases i <;> simp

/-- The word with the filter's settings, by its fields. -/
theorem Filter.readWord_zero (f : Filter) :
    f.readWord 0 = (if f.enable then 1 else 0)
      ||| (match f.scope with | .announce => 0 | .wake => 0x100 | .both => 0x200 | .unnamed => 0x300)
      ||| (match f.qualifier with
        | .any => 0 | .toConcentrator => 0x10000 | .groupListed => 0x20000 | .knownSource => 0x30000)
      ||| (f.offset.setWidth 32 <<< 24) := by
  have fields : ∀ (a : BitVec 7) (q s : BitVec 2) (e : Bool),
      (0 : BitVec 1) ++ a ++ (0 : BitVec 6) ++ q ++ (0 : BitVec 6) ++ s ++ (0 : BitVec 7) ++ BitVec.ofBool e =
        (BitVec.ofBool e).setWidth 32 ||| (s.setWidth 32 <<< 8) ||| (q.setWidth 32 <<< 16)
          ||| (a.setWidth 32 <<< 24) := by
    intro a q s e
    refine BitVec.eq_of_getLsbD_eq fun i hi => ?_
    simp only [BitVec.getLsbD_append, BitVec.getLsbD_or, BitVec.getLsbD_shiftLeft, BitVec.getLsbD_setWidth]
    interval_cases i <;> simp
  have henable : (BitVec.ofBool f.enable).setWidth 32 = ((if f.enable then 1 else 0 : Nat) : Word) := by
    cases f.enable <;> rfl
  have hscope : f.scope.code.setWidth 32 <<< 8 =
      (match f.scope with | .announce => 0 | .wake => 0x100 | .both => 0x200 | .unnamed => 0x300 : Word) := by
    cases f.scope <;> rfl
  have hqualifier : f.qualifier.code.setWidth 32 <<< 16 =
      (match f.qualifier with
        | .any => 0 | .toConcentrator => 0x10000 | .groupListed => 0x20000 | .knownSource => 0x30000 : Word) := by
    cases f.qualifier <;> rfl
  rw [← henable, ← hscope, ← hqualifier]
  exact fields ..

/-- A field at the low end of a word. -/
theorem zero_append_eq_setWidth {m n : Nat} (x : BitVec n) : (0 : BitVec m) ++ x = x.setWidth (m + n) := by
  refine BitVec.eq_of_getLsbD_eq fun i hi => ?_
  simp only [BitVec.getLsbD_append, BitVec.getLsbD_setWidth, hi, decide_true, Bool.true_and]
  split
  · rfl
  · rename_i h
    rw [BitVec.getLsbD_of_ge x i (by omega)]
    simp

theorem Filter.readWord_status (f : Filter) :
    f.readWord 4 = (if f.triggered then 1 else 0) ||| (f.matchCount.setWidth 32 <<< 8) := by
  have fields : ∀ (c : BitVec 8) (t : Bool),
      (0 : BitVec 16) ++ c ++ (0 : BitVec 7) ++ BitVec.ofBool t =
        (BitVec.ofBool t).setWidth 32 ||| (c.setWidth 32 <<< 8) := by
    intro c t
    refine BitVec.eq_of_getLsbD_eq fun i hi => ?_
    simp only [BitVec.getLsbD_append, BitVec.getLsbD_or, BitVec.getLsbD_shiftLeft, BitVec.getLsbD_setWidth]
    interval_cases i <;> simp
  have htriggered : (BitVec.ofBool f.triggered).setWidth 32 = ((if f.triggered then 1 else 0 : Nat) : Word) := by
    cases f.triggered <;> rfl
  rw [← htriggered]
  exact fields ..

theorem Filter.readWord_mask_low (f : Filter) : f.readWord 1 = f.mask.setWidth 32 :=
  (BitVec.setWidth_eq_extractLsb' (by omega)).symm

theorem Filter.readWord_mask_high (f : Filter) : f.readWord 2 = (f.mask >>> 32).setWidth 32 :=
  BitVec.setWidth_ushiftRight_eq_extractLsb.symm

theorem Filter.readWord_expected (f : Filter) : f.readWord 3 = f.expected.setWidth 32 := zero_append_eq_setWidth _

theorem toNat_ofNat12 {n : Nat} (h : n < 4096) : (BitVec.ofNat 12 n).toNat = n := by
  rw [BitVec.toNat_ofNat, Nat.mod_eq_of_lt h]

/-- A word of space 1 is one of the eight words of a filter. -/
theorem Part.windowWord_filter (p : Part) (n : Fin 16) {w : Nat} (hw : w < 8) :
    p.windowWord 1 (BitVec.ofNat 12 (8 * n.val + w)) = p.screening.filters[n].readWord w := by
  show p.screening.filterRead (BitVec.ofNat 12 (8 * n.val + w)).toNat = _
  have hfilter : (8 * n.val + w) / 8 = n.val := by omega
  have hword : (8 * n.val + w) % 8 = w := by omega
  simp [toNat_ofNat12 (n := 8 * n.val + w) (by omega), ScreeningStore.filterRead, hfilter, hword]

theorem GroupEntry.readWord_eq (g : GroupEntry) :
    g.readWord = (if g.announceAccept then 1 else 0) ||| (if g.wake then 2 else 0) := by
  obtain ⟨announce, wake⟩ := g
  cases announce <;> cases wake <;> rfl

/-- A word of space 2 is one of the group entries, or the wake configuration. -/
theorem Part.windowWord_group (p : Part) (g : Fin 15) :
    p.windowWord 2 (BitVec.ofNat 12 g.val) = p.screening.groups[g].readWord := by
  show p.screening.groupRead (BitVec.ofNat 12 g.val).toNat = _
  rw [toNat_ofNat12 (by omega), ScreeningStore.groupRead, dif_pos g.isLt]
  rfl

theorem WakeConfig.readWord_eq (w : WakeConfig) :
    w.readWord = (if w.wakeOnEnergy then 1 else 0) ||| (if w.wakeAllCall then 2 else 0)
      ||| (if w.allCallAccept then 4 else 0) ||| (if w.setupComplete then 8 else 0) := by
  obtain ⟨energy, wake, accept, complete⟩ := w
  cases energy <;> cases wake <;> cases accept <;> cases complete <;> rfl

theorem TrapSlot.readWord_capture (t : TrapSlot) :
    t.readWord 0 = t.latency.setWidth 32 ||| (t.station.setWidth 32 <<< 16)
      ||| (if t.armed then 0 else 0x80000000) := by
  have fields : ∀ (a : Bool) (s : BitVec 6) (x : BitVec 16),
      BitVec.ofBool (!a) ++ (0 : BitVec 9) ++ s ++ x =
        x.setWidth 32 ||| (s.setWidth 32 <<< 16) ||| ((BitVec.ofBool (!a)).setWidth 32 <<< 31) := by
    intro a s x
    refine BitVec.eq_of_getLsbD_eq fun i hi => ?_
    simp only [BitVec.getLsbD_append, BitVec.getLsbD_or, BitVec.getLsbD_shiftLeft, BitVec.getLsbD_setWidth]
    interval_cases i <;> simp
  have harmed : (BitVec.ofBool (!t.armed)).setWidth 32 <<< 31 = (if t.armed then 0 else 0x80000000 : Word) := by
    cases t.armed <;> rfl
  rw [← harmed]
  exact fields ..

theorem RelayEntry.readWord_zero (r : RelayEntry) :
    r.readWord 0 = r.waiting.setWidth 32 ||| (BitVec.ofNat 32 r.station.val <<< 8)
      ||| (BitVec.ofNat 32 r.coupler.val <<< 16)
      ||| (if r.phase = .collecting then 0x20000000 else 0) ||| (if r.loop = .B then 0x40000000 else 0)
      ||| 0x80000000 := by
  have fields : ∀ (b c : Bool) (j i : BitVec 6) (w : BitVec 8),
      (1 : BitVec 1) ++ BitVec.ofBool b ++ BitVec.ofBool c ++ (0 : BitVec 7) ++ j ++ (0 : BitVec 2) ++ i ++ w =
        w.setWidth 32 ||| (i.setWidth 32 <<< 8) ||| (j.setWidth 32 <<< 16)
          ||| ((BitVec.ofBool c).setWidth 32 <<< 29) ||| ((BitVec.ofBool b).setWidth 32 <<< 30) ||| 0x80000000 := by
    intro b c j i w
    refine BitVec.eq_of_getLsbD_eq fun n hn => ?_
    simp only [BitVec.getLsbD_append, BitVec.getLsbD_or, BitVec.getLsbD_shiftLeft, BitVec.getLsbD_setWidth]
    interval_cases n <;> simp
  have hindex : ∀ i : StationIx, BitVec.ofNat 32 i.val = (BitVec.ofNat 6 i.val).setWidth 32 := by decide
  have hphase : (if r.phase = .collecting then 0x20000000 else 0 : Word) =
      (BitVec.ofBool (r.phase == .collecting)).setWidth 32 <<< 29 := by
    cases r.phase <;> rfl
  have hloop : (if r.loop = .B then 0x40000000 else 0 : Word) =
      (BitVec.ofBool (r.loop == .B)).setWidth 32 <<< 30 := by
    cases r.loop <;> rfl
  rw [hindex, hindex, hphase, hloop]
  exact fields ..

/-- A word of space 7 is one of the three words of a relay entry. -/
theorem Part.windowWord_relay (p : Part) (e : Fin 8) {w : Nat} (hw : w < 3) :
    p.windowWord 7 (BitVec.ofNat 12 (3 * e.val + w)) =
      match p.relays[e] with
      | some r => r.readWord w
      | none => 0 := by
  show p.relayRead (BitVec.ofNat 12 (3 * e.val + w)).toNat = _
  have hentry : (3 * e.val + w) / 3 = e.val := by omega
  have hword : (3 * e.val + w) % 3 = w := by omega
  simp [toNat_ofNat12 (n := 3 * e.val + w) (by omega), Part.relayRead, hentry, hword] <;> rfl

/-- The first words of space 3 are those of loop A's wake record. -/
theorem Part.windowWord_wakeA (p : Part) {w : Nat} (hw : w < 4) :
    p.windowWord 3 (BitVec.ofNat 12 w) = wakeRecordRead p.screening.wakeA w := by
  show p.screening.wakeRead (BitVec.ofNat 12 w).toNat = _
  rw [toNat_ofNat12 (by omega), ScreeningStore.wakeRead, if_pos hw]

/-- The words after them are those of loop B's. -/
theorem Part.windowWord_wakeB (p : Part) {w : Nat} (hw : w < 4) :
    p.windowWord 3 (BitVec.ofNat 12 (4 + w)) = wakeRecordRead p.screening.wakeB w := by
  show p.screening.wakeRead (BitVec.ofNat 12 (4 + w)).toNat = _
  rw [toNat_ofNat12 (by omega), ScreeningStore.wakeRead, if_neg (by omega), if_pos (by omega),
    Nat.add_sub_cancel_left]

theorem wakeRecordRead_reason (r : WakeRecord) :
    wakeRecordRead (some r) 0 = ((1 : Nat) : Word) ||| ((match r.reason with
      | .host => 0x100 | .energy => 0x200 | .marker => 0x300 | .station => 0x400 | .group => 0x500
      | .allCall => 0x600 | .filter => 0x700 : Nat) : Word) := by
  show (0 : BitVec 16) ++ r.reason.code ++ (1 : BitVec 8) = _
  cases r.reason <;> rfl

theorem wakeRecordRead_frame (r : WakeRecord) :
    wakeRecordRead (some r) 1 = r.source.setWidth 32 ||| (r.destination.setWidth 32 <<< 8) := by
  show (0 : BitVec 16) ++ r.destination ++ r.source = _
  refine BitVec.eq_of_getLsbD_eq fun i hi => ?_
  simp only [BitVec.getLsbD_append, BitVec.getLsbD_or, BitVec.getLsbD_shiftLeft, BitVec.getLsbD_setWidth]
  interval_cases i <;> simp

theorem wakeRecordRead_filter (r : WakeRecord) :
    wakeRecordRead (some r) 2 = (match r.filter with | none => 0xFF | some i => BitVec.ofNat 32 i.val)
      ||| (r.triggered.setWidth 32 <<< 16) := by
  have fields : ∀ (t : BitVec 16) (b : BitVec 8),
      t ++ (0 : BitVec 8) ++ b = b.setWidth 32 ||| (t.setWidth 32 <<< 16) := by
    intro t b
    refine BitVec.eq_of_getLsbD_eq fun i hi => ?_
    simp only [BitVec.getLsbD_append, BitVec.getLsbD_or, BitVec.getLsbD_shiftLeft, BitVec.getLsbD_setWidth]
    interval_cases i <;> simp
  have hindex : ∀ f : Option (Fin 16), (filterIndexByte f).setWidth 32 =
      (match f with | none => 0xFF | some i => BitVec.ofNat 32 i.val) := by decide
  show r.triggered ++ (0 : BitVec 8) ++ filterIndexByte r.filter = _
  rw [fields, hindex]

theorem TestUnit.readWord_status (u : TestUnit) :
    u.readWord 0 = (match u.owner with | none => 0 | some .A => 1 | some .B => 2)
      ||| (match u.status with
        | .none => 0 | .running => 0x100 | .complete => 0x200 | .stopped => 0x300 | .abandoned => 0x400) := by
  show (0 : BitVec 21) ++ u.status.code ++ (0 : BitVec 6) ++ ownerCode u.owner = _
  rcases u.owner with _ | _ | _ <;> cases u.status <;> rfl

/-- Settles O10: the words of each space by their fields, their ends, and the side effects of reads. -/
theorem windowReads : Obligations.WindowReads := by
  refine ⟨fun p => ⟨rfl, rfl, rfl, fun n => ?filter, fun g => ?group, ?config, fun l => ?loop, fun e => ?relay, ?unit,
    zero_append_eq_setWidth _, zero_append_eq_setWidth _, zero_append_eq_setWidth _, zero_append_eq_setWidth _,
    fun l => ?wake, fun _ _ => p.windowWord_beyond⟩, Part.windowEffect_eq⟩
  case filter =>
    have hwords := fun (w : Nat) (hw : w < 8) => p.windowWord_filter n hw
    exact ⟨(hwords 0 (by omega)).trans (Filter.readWord_zero _),
      (hwords 1 (by omega)).trans (Filter.readWord_mask_low _),
      (hwords 2 (by omega)).trans (Filter.readWord_mask_high _),
      (hwords 3 (by omega)).trans (Filter.readWord_expected _),
      (hwords 4 (by omega)).trans (Filter.readWord_status _)⟩
  case group => rw [Part.windowWord_group, GroupEntry.readWord_eq]
  case config => exact WakeConfig.readWord_eq _
  case loop =>
    cases l <;> exact ⟨zero_append_eq_setWidth _, zero_append_eq_setWidth _, zero_append_eq_setWidth _,
      zero_append_eq_setWidth _, TrapSlot.readWord_capture _, zero_append_eq_setWidth _, zero_append_eq_setWidth _⟩
  case relay =>
    have hwords := fun (w : Nat) (hw : w < 3) => p.windowWord_relay e hw
    dsimp only
    cases hentry : p.relays[e] with
    | none =>
      simp only [hentry] at hwords
      exact ⟨hwords 0 (by omega), hwords 1 (by omega), hwords 2 (by omega)⟩
    | some r =>
      simp only [hentry] at hwords
      exact ⟨(hwords 0 (by omega)).trans r.readWord_zero,
        (hwords 1 (by omega)).trans (zero_append_eq_setWidth _), hwords 2 (by omega)⟩
  case unit => exact TestUnit.readWord_status _
  case wake =>
    have hrecord : ∀ {at_ : Nat → Word} {r : WakeRecord}, (∀ w < 4, at_ w = wakeRecordRead (some r) w) →
        at_ 0 = ((1 : Nat) : Word) ||| ((match r.reason with
          | .host => 0x100 | .energy => 0x200 | .marker => 0x300 | .station => 0x400 | .group => 0x500
          | .allCall => 0x600 | .filter => 0x700 : Nat) : Word) ∧
        at_ 1 = r.source.setWidth 32 ||| (r.destination.setWidth 32 <<< 8) ∧
        at_ 2 = (match r.filter with | none => 0xFF | some i => BitVec.ofNat 32 i.val)
          ||| (r.triggered.setWidth 32 <<< 16) ∧
        at_ 3 = 0 :=
      fun h => ⟨(h 0 (by omega)).trans (wakeRecordRead_reason _), (h 1 (by omega)).trans (wakeRecordRead_frame _),
        (h 2 (by omega)).trans (wakeRecordRead_filter _), h 3 (by omega)⟩
    cases l with
    | A =>
      dsimp only
      simp only [Nat.zero_add]
      cases hr : p.screening.wakeA with
      | none => exact fun w hw => (p.windowWord_wakeA hw).trans (by rw [hr]; rfl)
      | some r => exact hrecord fun w hw => (p.windowWord_wakeA hw).trans (by rw [hr])
    | B =>
      dsimp only
      cases hr : p.screening.wakeB with
      | none => exact fun w hw => (p.windowWord_wakeB hw).trans (by rw [hr]; rfl)
      | some r => exact hrecord fun w hw => (p.windowWord_wakeB hw).trans (by rw [hr])

end Sys2Proof.Machine
end

