-- ==== Sys2Proof/Proofs/RegisterPort.lean ====
section
/-!
The registers of the port (R157, R158, R160, R161, R163): WINDOW_POINTER and WINDOW_DATA, the read of CONTROL, the
offsets that name no register, and the accesses during a soft reset.
-/
namespace Sys2Proof.Machine

open Sys2Proof

/-! ### WINDOW_POINTER and WINDOW_DATA -/

theorem WindowPointer.step_afterRead (w : WindowPointer) :
    w.step w.mode.afterRead =
      if w.mode = .all ∨ w.mode = .reads then { w with offset := w.offset + 1 } else w := by
  obtain ⟨space, offset, mode⟩ := w
  cases mode <;> rfl

theorem WindowPointer.step_afterWrite (w : WindowPointer) :
    w.step w.mode.afterWrite =
      if w.mode = .all ∨ w.mode = .writes then { w with offset := w.offset + 1 } else w := by
  obtain ⟨space, offset, mode⟩ := w
  cases mode <;> rfl

theorem Part.readRegister_pointer {p : Part} (h : p.resetting = false) : p.readRegister 0x10 = p.window.toWord := by
  show (if p.resetting then 0 else p.window.toWord) = _
  rw [h, if_neg Bool.false_ne_true]

theorem Part.readRegister_data {p : Part} (h : p.resetting = false) :
    p.readRegister 0x14 = p.windowWord p.window.space p.window.offset := by
  show (if p.resetting then 0 else _) = _
  rw [h, if_neg Bool.false_ne_true]

theorem Part.readData_of_live {p : Part} (h : p.live = true) :
    p.readData = { p.windowEffect p.window.space p.window.offset with
      busRead := p.readRegister 0x14
      window := if p.window.mode = .all ∨ p.window.mode = .reads then
          { p.window with offset := p.window.offset + 1 } else p.window } := by
  obtain ⟨hheld, hresetting⟩ := p.live_iff.mp h
  rw [Part.readRegister_data hresetting, ← WindowPointer.step_afterRead]
  simp [Part.readData, hheld, hresetting]

theorem Part.writeData_of_live {p : Part} (h : p.live = true) (value : Word) :
    p.writeData value = { p.windowStore p.window.space p.window.offset value with
      window := if p.window.mode = .all ∨ p.window.mode = .writes then
          { p.window with offset := p.window.offset + 1 } else p.window } := by
  rw [← WindowPointer.step_afterWrite]
  simp [Part.writeData, h]

/-- Settles O9: a write of the pointer by its fields, the accesses of WINDOW_DATA by the word there and the step, the
ends of the spaces, and the resets. -/
theorem windowRegisters : Obligations.WindowRegisters := by
  refine ⟨?accesses,
    fun p space offset value => ⟨fun hend => ⟨p.windowWord_beyond hend, p.windowStore_beyond value hend,
      p.windowEffect_beyond hend⟩, p.windowStore_readOnly offset value⟩, ?resets⟩
  case accesses =>
    intro dt value s p w written hlive
    have hwritten : WindowPointer.ofWord value = written := by
      unfold WindowPointer.ofWord
      rw [StepMode.ofCode_eq] <;> rfl
    obtain ⟨-, hresetting⟩ := p.live_iff.mp hlive
    refine ⟨?_, ?_, ?_, Part.readRegister_data hresetting, ?_⟩
    · rw [exec_eq_become rfl]
      show Host.Outcome.next (s.become (p.writePointer value)) = _
      rw [Part.writePointer, if_pos hlive, hwritten]
    · rw [Part.readRegister_pointer (p := { p with window := written }) hresetting, ← hwritten]
      exact WindowPointer.toWord_ofWord value
    · rw [exec_eq_become rfl]
      exact congrArg (fun q => Host.Outcome.next (s.become q)) (Part.readData_of_live hlive)
    · rw [exec_eq_become rfl]
      exact congrArg (fun q => Host.Outcome.next (s.become q)) (Part.writeData_of_live hlive value)
  case resets =>
    intro dt landed s zero
    refine ⟨rfl, fun hfree => ⟨_, exec_eq _ s, ?_⟩, fun hheld => ⟨_, exec_eq _ s, ?_⟩,
      fun hheld hres hport => ⟨_, exec_eq _ s, ?_⟩⟩
    · show (s.part.tick dt).assertReset.arbitrate.window = _
      rw [Part.arbitrate_window, Part.assertReset_of (p := s.part.tick dt) hfree]
      rfl
    · show (s.part.tick dt).releaseReset.arbitrate.window = _
      rw [Part.arbitrate_window, Part.releaseReset_of (p := s.part.tick dt) hheld]
      rfl
    · show (s.part.tick dt).endSoftReset.arbitrate.window = _
      rw [Part.arbitrate_window, Part.endSoftReset_of (p := s.part.tick dt) hheld hres hport]
      rfl

/-! ### The other registers -/

theorem LoopState.code_lt (x : LoopState) : x.code.extractLsb' 0 4 = x.code.setWidth 4 := by cases x <;> rfl

/-- The fields of a read of CONTROL. -/
theorem Part.controlRead_fields {p : Part} (h : p.resetting = false) :
    p.controlRead = (0 : BitVec 20) ++ ownerCode p.testUnit.owner
      ++ BitVec.ofBool p.engB.ctl.retimePending ++ BitVec.ofBool p.engA.ctl.retimePending
      ++ p.engB.ctl.state.code.setWidth 4 ++ p.engA.ctl.state.code.setWidth 4 := by
  rw [Part.controlRead, h, if_neg Bool.false_ne_true, LoopState.code_lt, LoopState.code_lt]

/-- The word of a CONTROL read, taken apart. -/
theorem controlWord_fields (o : BitVec 2) (y x : Bool) (b a : BitVec 4) :
    let w : Word := (0 : BitVec 20) ++ o ++ BitVec.ofBool y ++ BitVec.ofBool x ++ b ++ a
    w.extractLsb' 0 4 = a ∧ w.extractLsb' 4 4 = b ∧ w.getLsbD 8 = x ∧ w.getLsbD 9 = y ∧
      w.extractLsb' 10 2 = o ∧ w.extractLsb' 12 20 = 0 := by
  refine ⟨?_, ?_, ?_, ?_, ?_, ?_⟩
  case refine_3 | refine_4 => simp only [BitVec.getLsbD_append]; simp
  all_goals
    refine BitVec.eq_of_getLsbD_eq fun i hi => ?_
    simp only [BitVec.getLsbD_extractLsb', BitVec.getLsbD_append]
    interval_cases i <;> simp

theorem Part.readRegister_control (p : Part) : p.readRegister 0x04 = p.controlRead := rfl

/-- An offset that names no register reads 0. -/
theorem Part.readRegister_other (p : Part) {offset : Word} (h : registerOffset offset = false) :
    p.readRegister offset = 0 := by
  unfold registerOffset at h
  simp only [Bool.or_eq_false_iff, beq_eq_false_iff_ne] at h
  obtain ⟨⟨⟨⟨⟨h0, h4⟩, h8⟩, hC⟩, h10⟩, h14⟩ := h
  unfold Part.readRegister
  rw [if_neg h0, if_neg h4, if_neg h8, if_neg hC, if_neg h10, if_neg h14]

/-- A command that leaves memory alone and the part not running makes no grant. -/
theorem exec_of_not_live {c : Instr} {s : State} {q : Part} (hmem : commandMemory c s = s.mem)
    (hwork : commandWork c s (s.part.tick (commandTime c)) = q) (hlive : q.live = false) :
    exec c s = .next { s with part := q } := by
  rw [exec_eq_become hmem, hwork, State.become_of_arbitrate (Part.arbitrate_of_not_live hlive)]

theorem commandTime_hostCommand (code : BitVec 4) (dt : Nat) (l : LoopId) (via : CommandPath) :
    commandTime (hostCommand code dt l via) = dt := by
  unfold hostCommand
  split_ifs <;> rfl

theorem commandMemory_hostCommand (code : BitVec 4) (dt : Nat) (l : LoopId) (via : CommandPath) (s : State) :
    commandMemory (hostCommand code dt l via) s = s.mem := by
  unfold hostCommand
  split_ifs <;> rfl

theorem commandWork_hostCommand_of_not_live {p : Part} (h : p.live = false) (code : BitVec 4) (dt : Nat)
    (l : LoopId) (via : CommandPath) (s : State) : commandWork (hostCommand code dt l via) s p = p := by
  unfold hostCommand
  split_ifs <;> simp only [commandWork, Part.takeCommand_of_not_live h, ite_self]

theorem Part.readRegister_resetting {p : Part} (h : p.resetting = true) :
    p.readRegister 0x04 = 0x80000000 ∧ p.readRegister 0x08 = 0 ∧ p.readRegister 0x10 = 0 ∧
      p.readRegister 0x14 = 0 := by
  simp [Part.readRegister, Part.controlRead, h]

theorem Part.live_of_resetting {p : Part} (h : p.resetting = true) : p.live = false := by
  rw [Part.live, h, Bool.not_true, Bool.and_false]

theorem Part.writeArea_of_not_live {p : Part} (h : p.live = false) (value : Word) : p.writeArea value = p := by
  simp [Part.writeArea, h]

theorem Part.writeCause_of_not_live {p : Part} (h : p.live = false) (value : Word) : p.writeCause value = p := by
  simp [Part.writeCause, h]

theorem Part.writePointer_of_not_live {p : Part} (h : p.live = false) (value : Word) : p.writePointer value = p := by
  simp [Part.writePointer, h]

theorem Part.writeData_of_not_live {p : Part} (h : p.live = false) (value : Word) : p.writeData value = p := by
  simp [Part.writeData, h]

theorem Part.readData_of_resetting {p : Part} (hheld : p.resetHeld = false) (h : p.resetting = true) :
    p.readData = { p with busRead := 0 } := by
  simp [Part.readData, hheld, h]

/-- Settles O12: the fields of a CONTROL read, the offsets that name nothing, and what a part that is RESETTING
answers. -/
theorem registerAccess : Obligations.RegisterAccess := by
  refine ⟨?control, fun dt offset value s hformed => ⟨exec_eq_become rfl, s.part.readRegister_other ?_⟩, ?resetting⟩
  case control =>
    intro p hresetting w
    have hw : w = _ := (p.readRegister_control).trans (Part.controlRead_fields hresetting)
    clear_value w
    subst hw
    obtain ⟨hA, hB, hpendingA, hpendingB, howner, hrest⟩ := controlWord_fields (ownerCode p.testUnit.owner)
      p.engB.ctl.retimePending p.engA.ctl.retimePending (p.engB.ctl.state.code.setWidth 4)
      (p.engA.ctl.state.code.setWidth 4)
    refine ⟨hA, hB, hpendingA, hpendingB, howner.trans ?_, hrest⟩
    rcases p.testUnit.owner with _ | _ | _ <;> rfl
  case resetting =>
    intro dt value fields code l s p hheld hresetting
    have hlive : p.live = false := Part.live_of_resetting hresetting
    obtain ⟨hcontrol, hcause, hpointer, hdata⟩ := Part.readRegister_resetting hresetting
    have htime := commandTime_hostCommand code dt l (.written fields)
    refine ⟨exec_of_not_live rfl (Part.writeMask_of_not_held hheld value) (Part.live_of_resetting hresetting), rfl,
      exec_of_not_live (commandMemory_hostCommand ..)
        (by rw [htime]; exact commandWork_hostCommand_of_not_live hlive ..) hlive,
      exec_of_not_live rfl (Part.beginSoftReset_of_not (p := p) (by rw [hlive]; rfl)) hlive, hcontrol,
      exec_of_not_live rfl (Part.writeArea_of_not_live hlive value) hlive, rfl,
      exec_of_not_live rfl (Part.writeCause_of_not_live hlive value) hlive, hcause,
      exec_of_not_live rfl (Part.writePointer_of_not_live hlive value) hlive, hpointer,
      exec_of_not_live rfl (Part.writeData_of_not_live hlive value) hlive, hdata,
      exec_of_not_live rfl (Part.readData_of_resetting hheld hresetting) (Part.live_of_resetting hresetting)⟩
  · simpa [Instr.wellFormed] using hformed

/-! ### The stores of writes -/

/-- A written word of a filter reads back in the bits of its fields. -/
theorem Filter.readWord_writeWord (f : Filter) (v : Word) :
    (f.writeWord 0 v).readWord 0 = v &&& 0x7F030301 ∧ (f.writeWord 1 v).readWord 1 = v ∧
      (f.writeWord 2 v).readWord 2 = v ∧ (f.writeWord 3 v).readWord 3 = v &&& 0xFFFF ∧
      (f.writeWord 4 v).readWord 4 = v &&& 0xFF01 := by
  refine ⟨?_, ?_, ?_, ?_, ?_⟩ <;> refine BitVec.eq_of_getLsbD_eq fun i hi => ?_ <;>
    simp only [Filter.writeWord, Filter.readWord, Qualifier.code_ofCode, FilterScope.code_ofCode,
      BitVec.getLsbD_append, BitVec.getLsbD_extractLsb', BitVec.getLsbD_and] <;>
    interval_cases i <;> simp

/-- The other words of a filter read as before. -/
theorem Filter.readWord_writeWord_ne (f : Filter) {w x : Nat} (h : w ≠ x) (v : Word) :
    (f.writeWord w v).readWord x = f.readWord x := by
  have hlow : (f.writeWord 2 v).readWord 1 = f.readWord 1 := by
    refine BitVec.eq_of_getLsbD_eq fun i hi => ?_
    simp only [Filter.writeWord, Filter.readWord, BitVec.getLsbD_append, BitVec.getLsbD_extractLsb', hi]
    simp [hi]
  have hhigh : (f.writeWord 1 v).readWord 2 = f.readWord 2 := by
    refine BitVec.eq_of_getLsbD_eq fun i hi => ?_
    simp only [Filter.writeWord, Filter.readWord, BitVec.getLsbD_append, BitVec.getLsbD_extractLsb', hi]
    simp [hi]
  match w with
  | 0 => match x, h with
    | 1, _ | 2, _ | 3, _ | 4, _ | _ + 5, _ => rfl
  | 1 => match x, h with
    | 0, _ | 3, _ | 4, _ | _ + 5, _ => rfl
    | 2, _ => exact hhigh
  | 2 => match x, h with
    | 0, _ | 3, _ | 4, _ | _ + 5, _ => rfl
    | 1, _ => exact hlow
  | 3 => match x, h with
    | 0, _ | 1, _ | 2, _ | 4, _ | _ + 5, _ => rfl
  | 4 => match x, h with
    | 0, _ | 1, _ | 2, _ | 3, _ | _ + 5, _ => rfl
  | w + 5 => rfl

/-- The last three words of a filter take no write. -/
theorem Filter.writeWord_unused (f : Filter) (w : Nat) (v : Word) : f.writeWord (5 + w) v = f := by
  rw [Nat.add_comm]; rfl

theorem Filter.readWord_unused (f : Filter) (w : Nat) : f.readWord (5 + w) = 0 := by
  rw [Nat.add_comm]; rfl

/-- The halves of the mask that its two words write. -/
theorem Filter.mask_writeWord (f : Filter) (v : Word) (j : Nat) (hj : j < 64) :
    (f.writeWord 1 v).mask.getLsbD j = (if j < 32 then v.getLsbD j else f.mask.getLsbD j) ∧
      (f.writeWord 2 v).mask.getLsbD j = (if j < 32 then f.mask.getLsbD j else v.getLsbD (j - 32)) := by
  simp only [Filter.writeWord, BitVec.getLsbD_append, BitVec.getLsbD_extractLsb']
  by_cases h : j < 32
  · simp [h]
  · simp [h, show 32 + (j - 32) = j by omega, show j - 32 < 32 by omega]

/-- A change of one filter that leaves it leaves the part. -/
theorem Part.modFilter_self {n : Fin 16} {g : Filter → Filter} (p : Part)
    (h : g p.screening.filters[n] = p.screening.filters[n]) : p.modFilter n g = p := by
  have hset : p.screening.filters.set n p.screening.filters[n] = p.screening.filters :=
    Vector.set_getElem_self n.isLt
  unfold Part.modFilter ScreeningStore.modFilter
  rw [h, hset]

theorem ScreeningStore.filterRead_eq (s : ScreeningStore) (n : Fin 16) {w : Nat} (hw : w < 8) :
    s.filterRead (8 * n.val + w) = s.filters[n].readWord w := by
  have hfilter : (8 * n.val + w) / 8 = n.val := by omega
  have hword : (8 * n.val + w) % 8 = w := by omega
  simp [ScreeningStore.filterRead, hfilter, hword]

/-- An offset of space 1 is a word of a filter. -/
theorem filterOffset_cases {n : Nat} (h : n < 128) : ∃ (f : Fin 16) (w : Nat), w < 8 ∧ n = 8 * f.val + w :=
  ⟨⟨n / 8, by omega⟩, n % 8, by omega, by simp only; omega⟩

/-- A write of one word of space 1 leaves what every other one reads as. -/
theorem ScreeningStore.filterRead_filterWrite_ne (s : ScreeningStore) {n m : Nat} (h : n ≠ m) (v : Word) :
    (s.filterWrite n v).filterRead m = s.filterRead m := by
  by_cases hn : n < 128
  · by_cases hm : m < 128
    · obtain ⟨f, w, hw, rfl⟩ := filterOffset_cases hn
      obtain ⟨g, x, hx, rfl⟩ := filterOffset_cases hm
      rw [ScreeningStore.filterWrite_eq_modFilter f hw, ScreeningStore.filterRead_eq _ g hx,
        ScreeningStore.filterRead_eq _ g hx, ScreeningStore.filters_modFilter]
      split
      · rename_i hgf
        subst hgf
        exact Filter.readWord_writeWord_ne _ (by omega) v
      · rfl
    · rw [ScreeningStore.filterRead_beyond _ (by omega), ScreeningStore.filterRead_beyond _ (by omega)]
  · rw [ScreeningStore.filterWrite, dif_neg (by omega)]

theorem ScreeningStore.groupRead_groupWrite_ne (s : ScreeningStore) {n m : Nat} (h : n ≠ m) (v : Word) :
    (s.groupWrite n v).groupRead m = s.groupRead m := by
  unfold ScreeningStore.groupWrite
  split
  · unfold ScreeningStore.groupRead
    split
    · rw [Vector.getElem_set_ne _ _ h]
    · rfl
  · split
    · unfold ScreeningStore.groupRead
      rw [if_neg (by omega), if_neg (by omega)]
    · rfl

theorem ScreeningStore.wakeRead_wakeWrite_ne (s : ScreeningStore) {n m : Nat} (h : n / 4 ≠ m / 4) :
    (s.wakeWrite n).wakeRead m = s.wakeRead m := by
  unfold ScreeningStore.wakeWrite ScreeningStore.wakeRead
  split_ifs <;> first | rfl | omega

/-- A word of a window space depends on the Screening Store in spaces 1 to 3 alone. -/
theorem Part.windowWord_screening (p : Part) (store : ScreeningStore) (space : BitVec 4) (offset : BitVec 12)
    (hfilter : space = 1 → store.filterRead offset.toNat = p.screening.filterRead offset.toNat)
    (hgroup : space = 2 → store.groupRead offset.toNat = p.screening.groupRead offset.toNat)
    (hwake : space = 3 → store.wakeRead offset.toNat = p.screening.wakeRead offset.toNat) :
    Part.windowWord { p with screening := store } space offset = p.windowWord space offset := by
  unfold Part.windowWord
  split <;> rename_i hspace
  case h_2 => exact hfilter ((eq_ofNat_iff_toNat space (n := 1) (by omega)).mpr hspace)
  case h_3 => exact hgroup ((eq_ofNat_iff_toNat space (n := 2) (by omega)).mpr hspace)
  case h_4 => exact hwake ((eq_ofNat_iff_toNat space (n := 3) (by omega)).mpr hspace)
  all_goals rfl

theorem Part.windowStore_one (p : Part) (offset : BitVec 12) (v : Word) :
    p.windowStore 1 offset v = { p with screening := p.screening.filterWrite offset.toNat v } := rfl

theorem Part.windowStore_two (p : Part) (offset : BitVec 12) (v : Word) :
    p.windowStore 2 offset v = { p with screening := p.screening.groupWrite offset.toNat v } := rfl

theorem Part.windowStore_three (p : Part) (offset : BitVec 12) (v : Word) :
    p.windowStore 3 offset v = { p with screening := p.screening.wakeWrite offset.toNat } := rfl

/-- A write to the filters leaves the groups and the wake records. -/
theorem ScreeningStore.filterWrite_others (s : ScreeningStore) (n m : Nat) (v : Word) :
    (s.filterWrite n v).groupRead m = s.groupRead m ∧ (s.filterWrite n v).wakeRead m = s.wakeRead m := by
  unfold ScreeningStore.filterWrite
  split <;> exact ⟨rfl, rfl⟩

theorem ScreeningStore.groupWrite_others (s : ScreeningStore) (n m : Nat) (v : Word) :
    (s.groupWrite n v).filterRead m = s.filterRead m ∧ (s.groupWrite n v).wakeRead m = s.wakeRead m := by
  unfold ScreeningStore.groupWrite
  split
  · exact ⟨rfl, rfl⟩
  · split <;> exact ⟨rfl, rfl⟩

theorem ScreeningStore.wakeWrite_others (s : ScreeningStore) (n m : Nat) :
    (s.wakeWrite n).filterRead m = s.filterRead m ∧ (s.wakeWrite n).groupRead m = s.groupRead m := by
  unfold ScreeningStore.wakeWrite
  split
  · exact ⟨rfl, rfl⟩
  · split <;> exact ⟨rfl, rfl⟩

/-- A write to a word outside the wake records leaves what every other word reads as. -/
theorem Part.windowWord_windowStore_ne (p : Part) (v : Word) {space space' : BitVec 4} {offset offset' : BitVec 12}
    (h3 : space ≠ 3) (h : (space, offset) ≠ (space', offset')) :
    (p.windowStore space offset v).windowWord space' offset' = p.windowWord space' offset' := by
  have hoffset : space = space' → offset.toNat ≠ offset'.toNat :=
    fun hs ho => h (Prod.ext hs (BitVec.eq_of_toNat_eq ho))
  by_cases h1 : space = 1
  · subst h1
    rw [Part.windowStore_one]
    obtain ⟨hgroup, hwake⟩ := p.screening.filterWrite_others offset.toNat offset'.toNat v
    exact p.windowWord_screening _ _ _
      (fun hs => ScreeningStore.filterRead_filterWrite_ne _ (hoffset hs.symm) v) (fun _ => hgroup) fun _ => hwake
  · by_cases h2 : space = 2
    · subst h2
      rw [Part.windowStore_two]
      obtain ⟨hfilter, hwake⟩ := p.screening.groupWrite_others offset.toNat offset'.toNat v
      exact p.windowWord_screening _ _ _ (fun _ => hfilter)
        (fun hs => ScreeningStore.groupRead_groupWrite_ne _ (hoffset hs.symm) v) fun _ => hwake
    · rw [p.windowStore_readOnly offset v h1 h2 h3]

/-- A write to a wake record leaves what every word outside that record reads as. -/
theorem Part.windowWord_wakeStore_ne (p : Part) (v : Word) {space' : BitVec 4} {offset offset' : BitVec 12}
    (h : space' ≠ 3 ∨ offset'.toNat / 4 ≠ offset.toNat / 4) :
    (p.windowStore 3 offset v).windowWord space' offset' = p.windowWord space' offset' := by
  rw [Part.windowStore_three]
  obtain ⟨hfilter, hgroup⟩ := p.screening.wakeWrite_others offset.toNat offset'.toNat
  exact p.windowWord_screening _ _ _ (fun _ => hfilter) (fun _ => hgroup)
    fun hs => ScreeningStore.wakeRead_wakeWrite_ne _ fun heq => h.elim (fun hne => hne hs) fun hne => hne heq.symm

/-- What a filter's word reads after a write of one of its words. -/
theorem Part.windowWord_filterStore (p : Part) (v : Word) {f w : Nat} (hf : f < 16) (hw : w < 8) :
    (p.windowStore 1 (BitVec.ofNat 12 (8 * f + w)) v).windowWord 1 (BitVec.ofNat 12 (8 * f + w)) =
      (p.screening.filters[f].writeWord w v).readWord w := by
  have hread := Part.windowWord_filter (p.modFilter ⟨f, hf⟩ fun flt => flt.writeWord w v) ⟨f, hf⟩ hw
  rw [Part.filters_modFilter, ← Part.windowStore_filter ⟨f, hf⟩ hw] at hread
  exact hread

/-- The entry of a group that a write stores. -/
theorem Part.windowStore_group (p : Part) (v : Word) {g : Nat} (hg : g < 15) :
    p.windowStore 2 (BitVec.ofNat 12 g) v =
      { p with screening := { p.screening with
          groups := p.screening.groups.set g { announceAccept := v.getLsbD 0, wake := v.getLsbD 1 } } } := by
  rw [Part.windowStore_two, toNat_ofNat12 (by omega), ScreeningStore.groupWrite, dif_pos hg]

theorem GroupEntry.readWord_written (v : Word) :
    GroupEntry.readWord { announceAccept := v.getLsbD 0, wake := v.getLsbD 1 } = v &&& 3 := by
  refine BitVec.eq_of_getLsbD_eq fun i hi => ?_
  simp only [GroupEntry.readWord, BitVec.getLsbD_append, BitVec.getLsbD_and]
  interval_cases i <;> simp

theorem WakeConfig.readWord_written (v : Word) :
    WakeConfig.readWord { wakeOnEnergy := v.getLsbD 0, wakeAllCall := v.getLsbD 1, allCallAccept := v.getLsbD 2
                          setupComplete := v.getLsbD 3 } = v &&& 0xF := by
  refine BitVec.eq_of_getLsbD_eq fun i hi => ?_
  simp only [WakeConfig.readWord, BitVec.getLsbD_append, BitVec.getLsbD_and]
  interval_cases i <;> simp

/-- Settles O11: the writable words by what each stores and reads back, every other word by what a write leaves. -/
theorem windowStores : Obligations.WindowStores := by
  intro p v after word stores
  refine ⟨?filters, ?groups, rfl, ?filterReads, ?groupReads, ?configRead, ?wakes,
    fun space space' offset offset' => p.windowWord_windowStore_ne v, fun space' offset offset' =>
      p.windowWord_wakeStore_ne v, ?frame, ?noEffect⟩
  case filters =>
    intro n was written
    have hstore : ∀ w < 8, (after 1 (8 * n.val + w)).screening = written (was.writeWord w v) :=
      fun w hw => congrArg Part.screening (p.windowStore_filter n hw v)
    have hsettings : was.writeWord 0 v =
        { was with
          enable := v.getLsbD 0
          scope := match (v.extractLsb' 8 2).toNat with | 0 => .announce | 1 => .wake | 2 => .both | _ => .unnamed
          qualifier := match (v.extractLsb' 16 2).toNat with
            | 0 => .any | 1 => .toConcentrator | 2 => .groupListed | _ => .knownSource
          offset := v.extractLsb' 24 7 } := by
      unfold Filter.writeWord
      rw [FilterScope.ofCode_eq, Qualifier.ofCode_eq]
      rfl
    exact ⟨(hstore 0 (by omega)).trans (congrArg written hsettings),
      ⟨_, hstore 1 (by omega), fun j hj => (was.mask_writeWord v j hj).1⟩,
      ⟨_, hstore 2 (by omega), fun j hj => (was.mask_writeWord v j hj).2⟩, hstore 3 (by omega), hstore 4 (by omega)⟩
  case groups => exact fun g => congrArg Part.screening (p.windowStore_group v g.isLt)
  case filterReads =>
    intro f hf
    obtain ⟨h0, h1, h2, h3, h4⟩ := p.screening.filters[f].readWord_writeWord v
    have hread := fun (w : Nat) (hw : w < 8) => p.windowWord_filterStore v hf hw
    refine ⟨(hread 0 (by omega)).trans h0, (hread 1 (by omega)).trans h1, (hread 2 (by omega)).trans h2,
      (hread 3 (by omega)).trans h3, (hread 4 (by omega)).trans h4, fun w hw => ?_⟩
    rw [Nat.add_assoc]
    constructor
    · exact (p.windowStore_filter ⟨f, hf⟩ (by omega) v).trans (p.modFilter_self (Filter.writeWord_unused _ w v))
    · exact (p.windowWord_filter ⟨f, hf⟩ (by omega)).trans (Filter.readWord_unused _ w)
  case groupReads =>
    intro g hg
    show (p.windowStore 2 (BitVec.ofNat 12 g) v).windowWord 2 (BitVec.ofNat 12 g) = _
    rw [p.windowStore_group v hg]
    refine (Part.windowWord_group _ ⟨g, hg⟩).trans ?_
    rw [← GroupEntry.readWord_written]
    simp
  case configRead => exact WakeConfig.readWord_written v
  case wakes =>
    intro w hw
    have hlow : (BitVec.ofNat 12 w).toNat = w := toNat_ofNat12 (by omega)
    have hhigh : (BitVec.ofNat 12 (4 + w)).toNat = 4 + w := toNat_ofNat12 (by omega)
    simp only [after, Part.windowStore_three, hlow, hhigh, ScreeningStore.wakeWrite]
    rw [if_pos hw, if_neg (by omega), if_pos (by omega)]
    exact ⟨rfl, rfl, rfl, rfl⟩
  case frame =>
    intro space offset
    obtain ⟨screening, hstore⟩ := p.windowStore_eq space offset v
    rw [hstore]
  case noEffect =>
    rintro space offset (⟨h1, h2, h3⟩ | hend)
    · exact p.windowStore_readOnly offset v h1 h2 h3
    · by_cases hwritable : space = 1 ∨ space = 2 ∨ space = 3
      · refine p.windowStore_beyond v ?_
        rcases hwritable with rfl | rfl | rfl <;> exact hend
      · obtain ⟨h1, h2, h3⟩ : space ≠ 1 ∧ space ≠ 2 ∧ space ≠ 3 := by simpa only [not_or] using hwritable
        exact p.windowStore_readOnly offset v h1 h2 h3

end Sys2Proof.Machine
end

