-- ==== Sys2Proof/Proofs/Answers.lean ====
section
/-!
How a command answers: an event whose condition holds, and a CONTROL write that is taken, answer what they do, once it
stands between two steps. And the named states of the statements, tied to the operations that enter them.
-/
namespace Sys2Proof.Machine

open Sys2Proof

/-! ### Events and commands -/

/-- An event of a loop answers its effect, where the procedure stands after it. -/
theorem exec_of_loopStep {c : Instr} {s : State} {l : LoopId} {can : Part → Bool} {f : Part → Part} {q : Part}
    (hmem : commandMemory c s = s.mem)
    (hwork : commandWork c s (s.part.tick (commandTime c)) = (s.part.tick (commandTime c)).loopStep l can f)
    (hlive : (s.part.tick (commandTime c)).live = true) (hcan : can (s.part.tick (commandTime c)) = true)
    (hf : f (s.part.tick (commandTime c)) = q) (hq : q.settled l = true) : exec c s = .next (s.become q) := by
  rw [exec_eq_become hmem, hwork, Part.loopStep_of hlive hcan, hf, Part.proceed_of_settled l q hq]

/-- A CONTROL write that is taken answers what its command does. -/
theorem exec_of_written {c : Instr} {s : State} {l : LoopId} {other code : BitVec 4} {run : Part → Part} {q : Part}
    (hmem : commandMemory c s = s.mem)
    (hwork : commandWork c s (s.part.tick (commandTime c)) =
      (s.part.tick (commandTime c)).takeCommand l (.written other) code run)
    (htakes : (s.part.tick (commandTime c)).takesWrite = true)
    (hrun : run ((s.part.tick (commandTime c)).setSlot (otherLoop l) (slotOf other)) = q) :
    exec c s = .next (s.become q) := by
  rw [exec_eq_become hmem, hwork, Part.takeCommand_written htakes, hrun]

/-- One act, after which the procedure stands, is all that an event leads to. -/
theorem Part.proceed_act {l : LoopId} {p q : Part} {op : SchedOp} {rest : List SchedOp}
    (hs : (p.eng l).sched = op :: rest) (hw : p.waitsAt l op = false) (hact : Part.act l op (p.popSched l) = q)
    (hq : q.settled l = true) : p.proceed l = q := by
  unfold Part.settled at hq
  rw [Bool.and_eq_true, Bool.not_eq_true'] at hq
  obtain ⟨hpaused, hdue⟩ := hq
  unfold Part.proceed
  rw [show Config.actBound = 199 + 1 from rfl, Part.runSched_act _ l p op rest hs hw, hact,
    Part.runSched_of_paused _ l q hpaused, Part.rollcallIfDue_of_not l q hdue]

theorem Part.popSched_cons {l : LoopId} {p : Part} (op : SchedOp) (ops : List SchedOp) :
    (p.modEng l fun e => { e with sched := op :: ops }).popSched l = p.modEng l fun e => { e with sched := ops } :=
  Part.modEng_modEng ..

theorem Part.modEng_sched_self {l : LoopId} {p : Part} {ops : List SchedOp} (h : (p.eng l).sched = ops) :
    (p.modEng l fun e => { e with sched := ops }) = p :=
  Part.modEng_self l _ p (by rw [← h])

/-- A procedure at a transfer or at its end waits. -/
theorem Part.paused_of_atTransfer {l : LoopId} {p : Part} (h : p.atTransfer l = true) : p.paused l = true := by
  unfold Part.atTransfer at h
  unfold Part.paused
  cases hs : (p.eng l).sched with
  | nil => rfl
  | cons op rest =>
    rw [hs] at h
    simp only [Part.waitsAt, h, Bool.true_or]

theorem Part.paused_of_settled {l : LoopId} {p : Part} (h : p.settled l = true) : p.paused l = true := by
  unfold Part.settled at h
  rw [Bool.and_eq_true] at h
  exact h.1

theorem Part.rollcallDue_of_settled {l : LoopId} {p : Part} (h : p.settled l = true) :
    (p.eng l).rollcallDue = false := by
  unfold Part.settled at h
  rw [Bool.and_eq_true, Bool.not_eq_true'] at h
  exact h.2

/-! ### OFF (R130) -/

/-- The last value at which a count of a word stays. -/
theorem satInc_word (x : Word) : satInc x = if x = 0xFFFFFFFF then 0xFFFFFFFF else x + 1 := by
  by_cases h : x = 0xFFFFFFFF
  · subst h; decide
  · have hlast : x ≠ BitVec.allOnes 32 := h
    rw [satInc, if_neg hlast, if_neg h]

theorem satInc_half (x : BitVec 16) : satInc x = if x = 65535 then 65535 else x + 1 := by
  by_cases h : x = 65535
  · subst h; decide
  · have hlast : x ≠ BitVec.allOnes 16 := h
    rw [satInc, if_neg hlast, if_neg h]

/-- A requester's procedure given up: its transfer in progress loses its claimant. -/
theorem Part.orphan_eq (r : Requester) (p : Part) :
    p.orphan r = { p with port := { p.port with
      inFlight := p.port.inFlight.map fun t => if t.requester = r then { t with orphan := true } else t } } := by
  unfold Part.orphan
  cases h : p.port.inFlight with
  | none =>
    simp only [Option.map_none]
    rw [← h]
  | some t =>
    by_cases hr : t.requester = r
    · simp [hr]
    · simp only [hr, if_false, Option.map_some]
      rw [← h]

/-- What an entry to OFF makes of a held catch frame is what the statements say of it. -/
theorem Part.dropCatch_eq (l : LoopId) (p : Part) : p.dropCatch l = p.catchDropped l := by
  unfold Part.dropCatch Part.catchDropped Part.transferring
  rw [Part.orphan_eq]
  cases hbuffer : (p.eng l).catcher.buffer with
  | none => simp
  | some f =>
    have hbeq : ∀ t : Transfer, (t.requester == .catcher l && !t.orphan) =
        decide (t.requester = .catcher l ∧ t.orphan = false) := by simp [Bool.beq_eq_decide_eq]
    simp only [hbeq, satInc_word, reduceCtorEq, false_or]
    cases (p.eng l).catcher.walk with
    | none => rfl
    | some op =>
      cases op with
      | writeFilled => cases p.port.inFlight <;> rfl
      | _ => rfl

theorem Part.modEng_testUnit_comm (l : LoopId) (f : Engine → Engine) (p : Part) (u : TestUnit) :
    { p.modEng l f with testUnit := u } = Part.modEng l f { p with testUnit := u } := by cases l <;> rfl

@[simp] theorem Part.catchDropped_testUnit (l : LoopId) (p : Part) : (p.catchDropped l).testUnit = p.testUnit := by
  unfold Part.catchDropped
  dsimp only
  split_ifs <;> simp

/-- The entry to OFF is the state that the statements give. -/
theorem Part.enterOff_eq (l : LoopId) (follow : List SchedOp) (p : Part) :
    p.enterOff l follow = p.offState l follow := by
  have hfree : Part.freeTest l (p.catchDropped l) = { p.catchDropped l with
      testUnit := if p.testUnit.owner = some l then { p.testUnit with owner := none } else p.testUnit } := by
    unfold Part.freeTest
    rw [Part.catchDropped_testUnit]
    split
    · rfl
    · rw [← Part.catchDropped_testUnit l p]
  unfold Part.enterOff Part.offState Part.push
  rw [Part.dropCatch_eq, hfree, Part.modEng_modEng]
  rfl

@[simp] theorem Part.catchDropped_sched (l : LoopId) (p : Part) :
    ((p.catchDropped l).eng l).sched = (p.eng l).sched := by
  unfold Part.catchDropped
  dsimp only
  split_ifs
  · rfl
  · rw [Part.eng_modEng]
    cases l <;> rfl

@[simp] theorem Part.offState_sched (l : LoopId) (follow : List SchedOp) (p : Part) :
    ((p.offState l follow).eng l).sched = (p.eng l).sched ++ follow := by
  unfold Part.offState
  rw [Part.eng_modEng, ← Part.catchDropped_sched l p]
  cases l <;> rfl

@[simp] theorem Part.offState_state (l : LoopId) (follow : List SchedOp) (p : Part) :
    ((p.offState l follow).eng l).ctl.state = .off := by
  simp [Part.offState]

end Sys2Proof.Machine
end

