-- ==== Sys2Proof/Proofs/Commands.lean ====
section
/-!
The commands of CONTROL (R125): what a command that is refused answers, that a command from the latch answers as a
written one does, and what START, WAKE, ROLLCALL, RETIME and TEST make of a loop.
-/
namespace Sys2Proof.Machine

open Sys2Proof

/-! ### Refused commands and the latch (R125, R159) -/

/-- What the command of a code does once it is taken. -/
def Part.runCommand (l : LoopId) (code : BitVec 4) : Part → Part :=
  if code = 1 then Part.doStart l
  else if code = 2 then Part.doStop l
  else if code = 3 then Part.doQuiet l
  else if code = 4 then Part.doWake l
  else if code = 5 then Part.doRollcall l
  else if code = 6 then Part.doRetime l
  else if code = 7 then Part.doTest l
  else Part.refuse l

/-- A code that names no command is undefined. -/
theorem undefinedCode_of_ne {code : BitVec 4} (h0 : code ≠ 0) (h1 : code ≠ 1) (h2 : code ≠ 2) (h3 : code ≠ 3)
    (h4 : code ≠ 4) (h5 : code ≠ 5) (h6 : code ≠ 6) (h7 : code ≠ 7) : undefinedCode code = true := by
  rw [undefinedCode, BitVec.msb_eq_decide, decide_eq_true_eq]
  bv_omega

theorem commandWork_hostCommand {code : BitVec 4} (h : code ≠ 0) (dt : Nat) (l : LoopId) (via : CommandPath)
    (s : State) (p : Part) :
    commandWork (hostCommand code dt l via) s p = p.takeCommand l via code (Part.runCommand l code) := by
  unfold hostCommand Part.runCommand
  split_ifs with h1 h2 h3 h4 h5 h6 h7
  case neg => simp only [commandWork, undefinedCode_of_ne h h1 h2 h3 h4 h5 h6 h7, if_true]
  all_goals subst code; rfl

/-- A write that finds the latch occupied is not taken, whatever its code. -/
theorem commandWork_hostCommand_occupied {p : Part} (hfree : p.latchFree = false) (code other : BitVec 4) (dt : Nat)
    (l : LoopId) (s : State) : commandWork (hostCommand code dt l (.written other)) s p = p := by
  have hnot : ∀ (code : BitVec 4) (run : Part → Part), p.takeCommand l (.written other) code run = p := by
    intro code run
    unfold Part.takeCommand
    simp [hfree]
  unfold hostCommand
  split_ifs <;> simp only [commandWork, hnot, ite_self]

/-- A command that R125 does not take in the loop's state is refused. -/
theorem Part.runCommand_refused {l : LoopId} {code : BitVec 4} {p : Part} (h : p.takes l code = false)
    (hstop : ¬ (code = 2 ∧ .raise .testdone ∈ (p.eng l).sched)) : p.runCommand l code = p.refuse l := by
  unfold Part.takes at h
  dsimp only at h
  unfold Part.runCommand
  split_ifs at h ⊢ with h1 h2 h3 h4 h5 h6 h7
  · simp only [Part.doStart, beq_eq_false_iff_ne] at h ⊢
    exact if_neg h
  · simp only [bne_eq_false_iff_eq] at h
    rw [Part.doStop, if_pos h, Part.refuseStop]
    simp only [List.contains_iff_mem]
    exact if_neg fun hmem => hstop ⟨h2, hmem⟩
  · rw [Part.doQuiet, if_neg]
    simpa using h
  · simp only [Part.doWake, beq_eq_false_iff_ne] at h ⊢
    exact if_neg h
  · simp only [Part.doRollcall, beq_eq_false_iff_ne] at h ⊢
    exact if_neg h
  · have htakes : (p.eng l).ctl.state.takesRetime = false := by
      revert h
      cases (p.eng l).ctl.state <;> simp [LoopState.takesRetime]
    rw [Part.doRetime, htakes]
    rfl
  · rw [Bool.beq_eq_decide_eq] at h
    rw [Part.doTest, h]
    rfl
  · rfl

/-- A STOP in OFF that comes behind a TESTDONE not yet raised is refused after it (R156). -/
theorem Part.runCommand_refusedLater {l : LoopId} {p : Part} (h : p.takes l 2 = false)
    (hwaits : .raise .testdone ∈ (p.eng l).sched) : p.runCommand l 2 = p.push l [.raise .refused] := by
  have hoff : (p.eng l).ctl.state = .off := by simpa [Part.takes] using h
  show p.doStop l = _
  rw [Part.doStop, if_pos hoff, Part.refuseStop]
  simp only [List.contains_iff_mem]
  exact if_pos hwaits

theorem Part.setSlot_cleared {l : LoopId} {p : Part} {slot : Option (BitVec 4)}
    (h : (p.eng (otherLoop l)).ctl.slot = slot) :
    ((p.setSlot l none).setSlot (otherLoop l) none).setSlot (otherLoop l) slot = p.setSlot l none := by
  subst h
  cases l <;> rfl

theorem Part.takesWrite_cleared {l : LoopId} {p : Part} (h : p.live = true) :
    ((p.setSlot l none).setSlot (otherLoop l) none).takesWrite = true := by
  unfold Part.takesWrite Part.latchFree
  rw [Part.setSlot, Part.modEng_live, Part.setSlot, Part.modEng_live, h]
  cases l <;> rfl

theorem Part.setSlot_tick (l : LoopId) (x : Option (BitVec 4)) (dt : Nat) (p : Part) :
    (p.setSlot l x).tick dt = (p.tick dt).setSlot l x := Part.tick_modEng ..

theorem exec_hostCommand {code : BitVec 4} (h : code ≠ 0) (dt : Nat) (l : LoopId) (via : CommandPath) (s : State) :
    exec (hostCommand code dt l via) s =
      .next (s.become ((s.part.tick dt).takeCommand l via code (Part.runCommand l code))) := by
  rw [exec_eq_become (commandMemory_hostCommand ..), commandTime_hostCommand, commandWork_hostCommand h]

/-- Settles O13: the table of R125 read off the seven commands; what a taken command does depends on the slots only
through what it leaves in them. -/
theorem refusedAndLatchedCommands : Obligations.RefusedAndLatchedCommands := by
  intro dt l code other s p testdoneWaits
  refine ⟨fun htakes hcode hrefused => ?_, fun hlive hcode hslot hother => ?_, fun hlive hfree => ?_⟩
  · have hlive : p.live = true := by
      rw [Part.takesWrite, Bool.and_eq_true] at htakes
      exact (Part.modEng_live ..).trans htakes.1
    rw [exec_hostCommand hcode, Part.takeCommand_written htakes]
    refine ⟨fun hnot => ?_, fun htwo hwaits => ?_⟩
    · rw [Part.runCommand_refused hrefused hnot, Part.refuse, Part.raiseCause_of_live _ _ _ hlive]
    · subst htwo
      rw [Part.runCommand_refusedLater hrefused hwaits]
      rfl
  · rw [exec_hostCommand hcode, exec_hostCommand hcode]
    have hlatched : (s.part.tick dt).takeCommand l .latched code (Part.runCommand l code) =
        ((s.part.tick dt).setSlot l none).runCommand l code := by
      unfold Part.takeCommand
      simp [hlive, hslot]
    rw [hlatched, Part.setSlot_tick, Part.setSlot_tick,
      Part.takeCommand_written (Part.takesWrite_cleared (p := s.part.tick dt) hlive),
      Part.setSlot_cleared (by rw [Part.tick_eng]; exact hother)]
    rfl
  · rw [exec_eq_become (commandMemory_hostCommand ..), commandTime_hostCommand,
      commandWork_hostCommand_occupied (p := s.part.tick dt) hfree]

/-! ### START and WAKE (R126, R148) -/

/-- Transfers put behind a procedure that waits leave it waiting. -/
theorem Part.settled_pushed {l : LoopId} {p q : Part} {op : SchedOp} {ops : List SchedOp} (h : p.paused l = true)
    (hq : (q.eng l).sched = (p.eng l).sched ++ op :: ops) (ht : op.transfers = true)
    (hx : (q.eng l).framer.sending.isSome = (p.eng l).framer.sending.isSome) : q.settled l = true := by
  cases hs : (p.eng l).sched with
  | nil => exact Part.settled_cons l q op ops (by rw [hq, hs, List.nil_append]) ht
  | cons first rest =>
    have hdue : (q.eng l).rollcallDue = false := Engine.rollcallDue_of_sched _ (by rw [hq]; simp)
    unfold Part.settled
    rw [Part.paused_append p q l _ hq (by rw [hs]; simp) hx, h, hdue]
    rfl

/-- A held frame is given up by its purpose. -/
theorem Engine.dropHeld_eq (purpose : TxPurpose) (e : Engine) :
    e.dropHeld purpose =
      { e with framer := { e.framer with held := e.framer.held.filter fun f => f.purpose != purpose } } := by
  unfold Engine.dropHeld
  cases h : e.framer.held with
  | none =>
    simp only [Option.filter_none]
    rw [← h]
  | some f =>
    by_cases hf : f.purpose = purpose
    · simp [Option.filter, hf]
    · simp only [hf, if_false, Option.filter, bne_iff_ne, ne_eq, not_false_iff, if_true]
      rw [← h]

/-- A wake is what the statements say of it. -/
theorem Part.wake_eq {l : LoopId} {r : WakeRecord} {p : Part} (hlive : p.live = true) :
    p.wake l r = p.wokenState l r := by
  unfold Part.wake Part.wokenState Part.enterStarting Part.push
  have hlive' : { p with screening := p.screening.fillWake l r }.live = true := hlive
  rw [Part.raiseCause_of_live _ _ _ hlive', Part.modEng_modEng]
  simp only [Bool.and_false, Bool.false_eq_true, if_false, Engine.dropHeld_eq]
  cases l <;> rfl

@[simp] theorem Part.wokenState_sched (l : LoopId) (r : WakeRecord) (p : Part) :
    ((p.wokenState l r).eng l).sched =
      (p.eng l).sched ++ [.readGlobal, .readLoopHost .starting, .startValidate] := by
  cases l <;> rfl

@[simp] theorem Part.wokenState_sending (l : LoopId) (r : WakeRecord) (p : Part) :
    ((p.wokenState l r).eng l).framer.sending = (p.eng l).framer.sending := by
  cases l <;> exact Engine.dropHeld_sending ..

theorem Part.settled_wokenState {l : LoopId} {r : WakeRecord} {p : Part} (h : p.paused l = true) :
    (p.wokenState l r).settled l = true :=
  Part.settled_pushed h (Part.wokenState_sched ..) rfl (by rw [Part.wokenState_sending])

/-- Settles O14: both entries to STARTING put its reads behind what is under way. -/
theorem startAndWakeCommands : Obligations.StartAndWakeCommands := by
  intro dt l other s p htakes
  have hlive : p.live = true := by
    rw [Part.takesWrite, Bool.and_eq_true] at htakes
    exact (Part.modEng_live ..).trans htakes.1
  refine ⟨fun hoff hat => ?_, fun hquiet hsettled => ?_⟩
  · refine exec_of_written (l := l) (other := other) (code := 1) (run := Part.doStart l) rfl rfl htakes ?_
    show p.doStart l = _
    rw [Part.doStart, if_pos hoff, Part.enterStarting, Part.push, Part.modEng_modEng]
    simp only [Bool.and_true]
    exact Part.proceed_of_settled l _ (Part.settled_append l p _ _ _ hat (by rw [Part.eng_modEng]; rfl) rfl)
  · refine exec_of_written (l := l) (other := other) (code := 4) (run := Part.doWake l) rfl rfl htakes ?_
    show p.doWake l = _
    rw [Part.doWake, if_pos hquiet, Part.wake_eq hlive]
    exact Part.proceed_of_settled l _ (Part.settled_wokenState (Part.paused_of_settled hsettled))

/-! ### ROLLCALL, RETIME and TEST (R61, R137, R151) -/

theorem Context.onRollList_eq (l : LoopId) (c : Context) :
    c.onRollList l = decide (c.owner = some l ∧ c.binding.coupler = 0xFF ∧
      (c.state = .ready ∨ c.state = .active ∨ c.state = .silent ∨ c.state = .absent)) := by
  unfold Context.onRollList Context.admittedTo Binding.direct
  rw [Bool.eq_iff_iff]
  cases c.state <;> simp

theorem Part.rollList_eq (l : LoopId) (p : Part) :
    (allStations.filter fun i => (p.ctx i).onRollList l) = p.rollCandidates l :=
  List.filter_congr fun i _ => (p.ctx i).onRollList_eq l

/-- The entry to ROLLCALL is the state that the statements give. -/
theorem Part.enterRollcall_eq (l : LoopId) (follow : List SchedOp) (p : Part) :
    p.enterRollcall l follow = p.rollcallState l follow := by
  unfold Part.enterRollcall Part.rollcallState
  dsimp only
  rw [Part.rollList_eq]
  by_cases h : p.rollCandidates l = []
  · simp only [h, List.isEmpty_nil, if_true, Part.enterRunning, Part.push, Part.modEng_modEng, Engine.toRunning,
      Engine.lineTaken, Engine.dropHeld_eq, Option.isSome_none, Bool.false_and, Bool.or_false, List.append_assoc,
      Part.modEng_now, List.cons_append]
    rfl
  · rw [if_neg (by rwa [List.isEmpty_iff]), Part.push, Part.modEng_modEng]
    simp only [h, if_false, Engine.dropHeld_eq]

theorem Engine.isSending_eq (purpose : TxPurpose) (e : Engine) :
    e.isSending purpose = decide ((e.framer.sending.map fun x => x.frame.purpose) = some purpose) := by
  unfold Engine.isSending
  cases e.framer.sending with
  | none => rfl
  | some x => simp [Bool.beq_eq_decide_eq]

/-- A waiting ROLLCALL is entered where the statements have it entered. -/
theorem Part.rollcallIfDue_eq (l : LoopId) (p : Part) : p.rollcallIfDue l = p.workOver l := by
  unfold Part.rollcallIfDue Part.workOver Engine.rollcallDue
  rw [Engine.isSending_eq, Part.enterRollcall_eq]
  simp [and_assoc]

/-- After the entry to ROLLCALL a procedure that was at its end waits for the write of the part half. -/
theorem Part.settled_rollcallState {l : LoopId} {follow : List SchedOp} {p : Part} (h : (p.eng l).sched = []) :
    (p.rollcallState l follow).settled l = true := by
  have hpaused := Part.paused_enterRollcall l p follow h
  have hrequest : ((p.rollcallState l follow).eng l).ctl.rollRequest = false := by
    unfold Part.rollcallState
    rw [Part.eng_modEng]
    dsimp only
    split <;> rfl
  rw [Part.enterRollcall_eq] at hpaused
  rw [Part.settled, hpaused, Engine.rollcallDue_of_request _ hrequest]
  rfl

theorem Engine.workUnderWay_iff (e : Engine) :
    (e.cyc.turn.isSome = true ∨ e.sched ≠ [] ∨ e.cyc.phase = .boundary ∨ e.isSending .beacon = true) ↔
      (e.cyc.turn.isNone && e.sched.isEmpty && e.cyc.phase != .boundary && !e.isSending .beacon) = false := by
  cases e.cyc.turn <;> cases e.sched <;> simp [or_iff_not_imp_left]

/-- A procedure at its end goes on to a roll-call that waits for it. -/
theorem Part.proceed_of_idle {l : LoopId} {p : Part} (h : (p.eng l).sched = []) : p.proceed l = p.workOver l := by
  rw [Part.proceed, Part.runSched_of_paused _ l p (Part.paused_nil p l h), Part.rollcallIfDue_eq]

/-- An entry to ROLLCALL clears the request. -/
theorem Part.rollcallState_request (l : LoopId) (follow : List SchedOp) (b : Bool) (p : Part) :
    (p.modEng l fun e => { e with ctl := { e.ctl with rollRequest := b } }).rollcallState l follow =
      p.rollcallState l follow := by
  unfold Part.rollcallState Part.rollCandidates
  rw [Part.modEng_modEng]
  simp only [Part.modEng_ctx, Part.modEng_now, Engine.dropHeld_eq]

/-- Settles O16: the request waits, or the roll-call is entered at once; the other two change what they name. -/
theorem rollcallRetimeAndTestCommands : Obligations.RollcallRetimeAndTestCommands := by
  intro dt l other s p e state htakes
  refine ⟨fun hrunning hsettled hwork => ?_, fun hrunning hturn hsched hphase hbeacon => ?_, fun hstate => ?_,
    fun hoff howner hat => ?_⟩
  · refine exec_of_written (l := l) (other := other) (code := 5) (run := Part.doRollcall l) rfl rfl htakes ?_
    show p.doRollcall l = _
    rw [Part.doRollcall, if_pos hrunning]
    refine Part.proceed_of_settled l _ (Part.settled_kept hsettled (by simp) (by simp) fun _ => ?_)
    rw [Part.eng_modEng]
    have hbusy := e.workUnderWay_iff.mp hwork
    simp only [Engine.rollcallDue, Engine.isSending] at hbusy ⊢
    simp only [Bool.and_assoc] at hbusy ⊢
    rw [hbusy]
    simp
  · refine exec_of_written (l := l) (other := other) (code := 5) (run := Part.doRollcall l) rfl rfl htakes ?_
    show p.doRollcall l = _
    rw [Part.doRollcall, if_pos hrunning, Part.proceed_of_idle (by rw [Part.eng_modEng]; exact hsched), Part.workOver,
      Part.eng_modEng, if_pos, Part.rollcallState_request]
    rw [Engine.isSending_eq, decide_eq_false_iff_not] at hbeacon
    exact ⟨hrunning, rfl, hturn, hsched, hphase, hbeacon⟩
  · refine exec_of_written (l := l) (other := other) (code := 6) (run := Part.doRetime l) rfl rfl htakes ?_
    show p.doRetime l = _
    rw [Part.doRetime, if_pos]
    rcases hstate with h | h | h | h <;> exact (congrArg LoopState.takesRetime h).trans rfl
  · refine exec_of_written (l := l) (other := other) (code := 7) (run := Part.doTest l) rfl rfl htakes ?_
    show p.doTest l = _
    have hcan : (decide ((p.eng l).ctl.state = .off) && p.testUnit.owner.isNone) = true := by
      rw [howner]
      exact congrArg (· && true) (decide_eq_true hoff)
    rw [Part.doTest, hcan, if_pos rfl, Part.enterTest, Part.push, Part.modEng_modEng]
    refine Part.proceed_of_settled l _ (Part.settled_append l p _ (.readLoopHost .testing) [.testValidate] hat ?_ rfl)
    rw [Part.eng_modEng]
    cases l <;> rfl

end Sys2Proof.Machine
end

