-- ==== Sys2Proof/Proofs/Stops.lean ====
section
/-!
STOP and QUIET (R125 to R130, R135, R151, R156): what a STOP makes of a loop in each of its states, case by case, and
that the procedure it leaves stands, or is carried on by one act to OFF.
-/
namespace Sys2Proof.Machine

open Sys2Proof

/-! ### What of a procedure is kept -/

theorem keepStep_cons {op : SchedOp} (h : op ≠ .mark) (rest : List SchedOp) :
    keepStep (op :: rest) = op :: keepStep rest := by
  cases op
  case mark => exact absurd rfl h
  all_goals rfl

/-- What a waiting procedure waits at is kept first of all when the later steps are given up. -/
theorem Part.paused_keepStep {l : LoopId} {p q : Part} {keep : SchedOp → Bool} (h : p.paused l = true)
    (hkeep : ∀ op, p.waitsAt l op = true → keep op = true)
    (hq : (q.eng l).sched = (keepStep (p.eng l).sched).filter keep)
    (hx : (q.eng l).framer.sending.isSome = (p.eng l).framer.sending.isSome) : q.paused l = true := by
  unfold Part.paused at h ⊢
  cases hs : (p.eng l).sched with
  | nil => rw [hq, hs]; rfl
  | cons op rest =>
    rw [hs] at h
    have hmark : op ≠ .mark := by rintro rfl; simp [Part.waitsAt_eq, SchedOp.transfers] at h
    rw [hq, hs, keepStep_cons hmark, List.filter_cons_of_pos (hkeep op h)]
    exact (Part.waitsAt_congr p q l op hx).trans h

theorem cutDownReport_append (ops : List SchedOp) (c : Cause) :
    cutDownReport (ops ++ [.writeLoopHalf, .raise c, .raiseRetimeRefused]) = ops := by
  induction ops with
  | nil => rfl
  | cons op rest ih =>
    rw [List.cons_append, cutDownReport, ih]
    intro c' _ h
    have hlength := congrArg List.length h
    simp at hlength

theorem filter_ne_of_not_mem {op : SchedOp} {ops : List SchedOp} (h : op ∉ ops) :
    ops.filter (fun o => o != op) = ops :=
  List.filter_eq_self.mpr fun _ ho => bne_iff_ne.mpr fun he => h (he ▸ ho)

/-! ### A STOP that is taken -/

/-- A STOP that is taken answers what it leads to. -/
theorem exec_stop {dt : Nat} {l : LoopId} {other : BitVec 4} {s : State} {q r : Part}
    (htakes : (s.part.tick dt).takesWrite = true)
    (hstate : (((s.part.tick dt).setSlot (otherLoop l) (slotOf other)).eng l).ctl.state ≠ .off)
    (hr : ((s.part.tick dt).setSlot (otherLoop l) (slotOf other)).stopLoop l = r) (hq : r.proceed l = q) :
    exec (.stop dt l (.written other)) s = .next (s.become q) := by
  refine exec_of_written (l := l) (other := other) (code := 2) (run := Part.doStop l) rfl rfl htakes ?_
  show Part.doStop l ((s.part.tick dt).setSlot (otherLoop l) (slotOf other)) = q
  rw [Part.doStop, if_neg hstate, hr, hq]

/-- The entry to DRAINING as one change of the engine. -/
theorem Part.enterDraining_eq (l : LoopId) (target : DrainTarget) (p : Part) :
    p.enterDraining l target = p.modEng l fun e =>
      { e.dropHeld .beacon with
        ctl := { e.ctl with state := .draining, drainTarget := some target, rollRequest := false }
        cyc := { e.cyc.stop with turn := e.cyc.turn }
        mon := { e.mon with silenceMet := false }
        sched := (keepStep e.sched).filter fun op => op != .rollEnd
        urgent := e.urgent ++ [.writeLoopHalf] } := by
  rw [Part.enterDraining, Part.pushUrgent, Part.modEng_modEng]
  simp only [Engine.dropHeld_eq]

theorem Part.settled_enterDraining {l : LoopId} {target : DrainTarget} {p : Part} (h : p.paused l = true) :
    (p.enterDraining l target).settled l = true := by
  refine Part.settled_of_state l _ (Part.paused_keepStep (keep := fun op => op != .rollEnd) h ?_ ?_ ?_) ?_
  · rintro op hop
    rw [bne_iff_ne]
    rintro rfl
    simp [Part.waitsAt_eq, SchedOp.transfers] at hop
  all_goals rw [Part.enterDraining_eq, Part.eng_modEng]
  · rw [Engine.dropHeld_eq]
  · exact LoopState.noConfusion

theorem Part.atTransfer_nil {l : LoopId} {p : Part} (h : (p.eng l).sched = []) : p.atTransfer l = true := by
  unfold Part.atTransfer
  rw [h]

theorem Part.atTransfer_cons {l : LoopId} {p : Part} {op : SchedOp} {rest : List SchedOp}
    (h : (p.eng l).sched = op :: rest) : p.atTransfer l = op.transfers := by
  unfold Part.atTransfer
  rw [h]
  exact Part.schedAction_isSome ..

/-- The entry to OFF leaves a procedure at a transfer waiting there, or at the write of the part half. -/
theorem Part.settled_offState {l : LoopId} {follow : List SchedOp} {p : Part} (h : p.atTransfer l = true)
    (hfollow : ∀ op ∈ follow.head?, op.transfers = true) : (p.offState l follow).settled l = true := by
  refine Part.settled_of_state l _ (Part.paused_of_atTransfer ?_) (by simp)
  cases hs : (p.eng l).sched with
  | nil =>
    cases follow with
    | nil => exact Part.atTransfer_nil (by rw [Part.offState_sched, hs]; rfl)
    | cons op ops =>
      exact (Part.atTransfer_cons (by rw [Part.offState_sched, hs]; rfl)).trans (hfollow op (by simp))
  | cons op rest =>
    rw [Part.atTransfer_cons hs] at h
    exact (Part.atTransfer_cons (by rw [Part.offState_sched, hs]; rfl)).trans h

/-- A procedure that is to enter OFF and nothing else, enters it. -/
theorem Part.proceed_to_off {l : LoopId} {p q : Part} {last : SchedOp} {follow : List SchedOp}
    (hlast : last.transfers = false) (hwait : last ≠ .awaitTransmitter)
    (hact : Part.act l last (p.modEng l fun e => { e with sched := [] }) = Part.offState l follow q)
    (hq : (q.eng l).sched = []) (hfollow : ∀ op ∈ follow.head?, op.transfers = true) :
    (p.modEng l fun e => { e with sched := [last] }).proceed l = Part.offState l follow q := by
  refine Part.proceed_act (op := last) (rest := []) (by simp) ?_ ?_
    (Part.settled_offState (Part.atTransfer_nil hq) hfollow)
  · rw [Part.waitsAt_eq, hlast, beq_eq_false_iff_ne.mpr hwait]
    rfl
  · rw [Part.popSched_cons, hact]

/-! ### Entries that are given up (R126, R151) -/

theorem Part.stopLoop_entering {l : LoopId} {p : Part}
    (h : (p.eng l).ctl.state = .starting ∨ ((p.eng l).ctl.state = .test ∧ (p.eng l).enteringTest = true))
    (hval : (p.eng l).ctl.validated = false) :
    p.stopLoop l = p.giveUp l (if (p.eng l).ctl.state = .starting then .startAbort else .testAbort) := by
  unfold Part.stopLoop
  rcases h with h | ⟨h, htest⟩
  · simp [h, hval]
  · simp [h, htest]

/-- A start or test entry that is not validated ends in OFF. -/
theorem Part.act_abort {l : LoopId} {p : Part} {state : LoopState} (hval : (p.eng l).ctl.validated = false) :
    Part.act l (if state = .starting then .startAbort else .testAbort) p =
      p.offState l (if state = .starting then [] else [.writeLoopHalf]) := by
  split
  · show p.startAbort l = _
    rw [Part.startAbort, Part.enterOff_eq]
  · show p.testAbort l = _
    rw [Part.testAbort, hval, if_neg Bool.false_ne_true, Part.enterOff_eq]

theorem abort_not_transfer (state : LoopState) :
    (if state = .starting then SchedOp.startAbort else .testAbort).transfers = false ∧
      (if state = .starting then SchedOp.startAbort else .testAbort) ≠ .awaitTransmitter := by
  split <;> exact ⟨rfl, SchedOp.noConfusion⟩

theorem abort_follow_transfers (state : LoopState) :
    ∀ op ∈ (if state = .starting then ([] : List SchedOp) else [.writeLoopHalf]).head?, op.transfers = true := by
  split <;> simp [SchedOp.transfers]

theorem Engine.aheadOfEntry_append {e : Engine} {ahead rest : List SchedOp} {op : SchedOp}
    (hval : e.ctl.validated = false) (hs : e.sched = ahead ++ op :: rest) (hahead : ∀ o ∈ ahead, o.ofEntry = false)
    (hop : op.ofEntry = true) : e.aheadOfEntry = ahead := by
  unfold Engine.aheadOfEntry
  rw [hval, if_neg Bool.false_ne_true, hs, List.takeWhile_append_of_pos (by simpa using hahead),
    List.takeWhile_cons_of_neg (by simpa using hop), List.append_nil]

theorem Engine.aheadOfEntry_nil {e : Engine} (h : e.sched.head?.all SchedOp.ofEntry = true) : e.aheadOfEntry = [] := by
  unfold Engine.aheadOfEntry
  split
  · rfl
  · cases hs : e.sched with
    | nil => rfl
    | cons op rest =>
      rw [hs] at h
      exact List.takeWhile_cons_of_neg (by simpa using h)

/-- What an earlier event has to write and raise is made after the entry has been given up. -/
theorem Part.giveUp_ahead {l : LoopId} {p : Part} {last : SchedOp} {ahead : List SchedOp}
    (h : (p.eng l).aheadOfEntry = ahead) (hne : ahead ≠ []) :
    p.giveUp l last = Part.act l last (p.modEng l fun e => { e with sched := ahead }) := by
  unfold Part.giveUp
  rw [h]
  cases ahead with
  | nil => exact absurd rfl hne
  | cons => rfl

theorem Part.giveUp_now {l : LoopId} {p : Part} {last : SchedOp} (h : (p.eng l).aheadOfEntry = [])
    (ht : p.schedTransferring l = false) : p.giveUp l last = p.modEng l fun e => { e with sched := [last] } := by
  unfold Part.giveUp
  rw [h]
  simp only [Part.keepTransfer, ht, Bool.false_eq_true, if_false, List.nil_append]

theorem Part.giveUp_after {l : LoopId} {p : Part} {last op : SchedOp} {rest : List SchedOp}
    (h : (p.eng l).aheadOfEntry = []) (hs : (p.eng l).sched = op :: rest) (ht : p.schedTransferring l = true) :
    p.giveUp l last = p.modEng l fun e => { e with sched := [op, last] } := by
  unfold Part.giveUp
  rw [h]
  simp only [Part.keepTransfer, ht, if_true, hs, List.take_succ_cons, List.take_zero, List.cons_append,
    List.nil_append]

/-! ### STOP in DOWN and JAMMED (R135) -/

theorem Part.stopDown_settling {l : LoopId} {p : Part} {ops : List SchedOp} {c : Cause} (hne : ops ≠ [])
    (hs : (p.eng l).sched = ops ++ [.writeLoopHalf, .raise c, .raiseRetimeRefused]) (hops : .enterOff ∉ ops) :
    p.stopDown l = p.modEng l fun e => { e with sched := ops ++ [.enterOff] } := by
  unfold Part.stopDown
  cases ops with
  | nil => exact absurd rfl hne
  | cons op rest =>
    have hcut : (if p.schedTransferring l = true then
          (p.eng l).sched.take 1 ++ cutDownReport ((p.eng l).sched.drop 1)
        else cutDownReport (p.eng l).sched) = op :: rest := by
      split
      · rw [hs]
        exact congrArg (op :: ·) (cutDownReport_append rest c)
      · rw [hs, cutDownReport_append]
    dsimp only
    rw [hcut, filter_ne_of_not_mem hops]

theorem Part.stopDown_reporting {l : LoopId} {p : Part} {c : Cause}
    (hs : (p.eng l).sched = [.writeLoopHalf, .raise c, .raiseRetimeRefused]) (ht : p.schedTransferring l = true) :
    p.stopDown l = p.modEng l fun e => { e with sched := (p.eng l).sched ++ [.enterOff] } := by
  unfold Part.stopDown
  dsimp only
  rw [if_pos ht, hs]
  rfl

theorem Part.stopDown_settled {l : LoopId} {p : Part}
    (hs : (p.eng l).sched = [] ∨ p.schedTransferring l = false ∧
      ∃ c, (p.eng l).sched = [.writeLoopHalf, .raise c, .raiseRetimeRefused]) :
    p.stopDown l = p.modEng l fun e => { e with sched := [.enterOff] } := by
  unfold Part.stopDown
  dsimp only
  rcases hs with hs | ⟨ht, c, hs⟩
  · rw [hs]
    cases p.schedTransferring l <;> rfl
  · rw [if_neg (by rw [ht]; exact Bool.false_ne_true), hs]
    rfl

/-- Settles O15: the STOP of each state by what it makes of the procedure, the QUIET by the entry to DRAINING. -/
theorem stopAndQuietCommands : Obligations.StopAndQuietCommands := by
  intro dt l other s p e state draining answers withSched entering last follow htakes
  have stops : ∀ {q r : Part}, state ≠ .off → p.stopLoop l = r → r.proceed l = q → answers q :=
    fun hstate hr hq => exec_stop htakes hstate hr hq
  have proceedsOff : ∀ {q : Part} {ops : List SchedOp}, q.atTransfer l = true →
      (∀ op ∈ ops.head?, op.transfers = true) → (q.enterOff l ops).proceed l = q.offState l ops := by
    intro q ops hat hops
    rw [Part.enterOff_eq]
    exact Part.proceed_of_settled l _ (Part.settled_offState hat hops)
  have downNotOff : state = .down ∨ state = .jammed → state ≠ .off := by
    rintro (h | h) <;> rw [h] <;> exact LoopState.noConfusion
  have stopsDown : state = .down ∨ state = .jammed → p.stopLoop l = p.stopDown l := by
    unfold Part.stopLoop
    rintro (h | h)
    · simp only [show (p.eng l).ctl.state = .down from h]
    · simp only [show (p.eng l).ctl.state = .jammed from h]
  have enteringNotOff : entering → state ≠ .off := by
    rintro (h | ⟨h, -⟩) <;> rw [h] <;> exact LoopState.noConfusion
  have testStops : state = .test → e.enteringTest = true → p.stopLoop l = p.giveUp l .testAbort := by
    intro hstate htest
    unfold Part.stopLoop
    simp only [show (p.eng l).ctl.state = .test from hstate, show (p.eng l).enteringTest = true from htest, if_true]
  have noneAhead : e.ctl.validated = true → e.aheadOfEntry = [] := by
    intro hval
    rw [Engine.aheadOfEntry, if_pos hval]
  refine ⟨fun hsettled => ⟨?drain, ?quiet, ?again⟩, fun hat => ⟨?fromQuiet, ?fromDown, ?whileDown, ?fromFault,
    ?fromTest, ?ahead⟩, fun hentering hval => ⟨?now, ?after⟩, fun hstate htest hval => ⟨?testNow, ?testAfter⟩⟩
  case drain =>
    intro hstate
    have hpaused := Part.paused_of_settled hsettled
    have hstop : p.stopLoop l = p.enterDraining l .off := by
      unfold Part.stopLoop
      rcases hstate with h | h | ⟨h, hval⟩
      · simp only [show (p.eng l).ctl.state = .rollcall from h]
      · simp only [show (p.eng l).ctl.state = .running from h]
      · simp only [show (p.eng l).ctl.state = .starting from h, show (p.eng l).ctl.validated = true from hval, if_true]
    refine stops ?_ hstop
      ((Part.proceed_of_settled l _ (Part.settled_enterDraining hpaused)).trans (Part.enterDraining_eq ..))
    rcases hstate with h | h | ⟨h, -⟩ <;> rw [h] <;> exact LoopState.noConfusion
  case quiet =>
    intro hstate hsetup
    have hcan : (decide ((p.eng l).ctl.state = .running) && p.screening.wakeConfig.setupComplete) = true := by
      rw [hsetup]
      exact congrArg (· && true) (decide_eq_true hstate)
    refine exec_of_written (l := l) (other := other) (code := 3) (run := Part.doQuiet l) rfl rfl htakes ?_
    show p.doQuiet l = _
    rw [Part.doQuiet, hcan, if_pos rfl]
    exact (Part.proceed_of_settled l _ (Part.settled_enterDraining (Part.paused_of_settled hsettled))).trans
      (Part.enterDraining_eq ..)
  case again =>
    intro hstate
    have hstop : p.stopLoop l = p.modEng l fun e =>
        { e with ctl := { e.ctl with drainTarget := some .off }, urgent := e.urgent ++ [.writeLoopHalf] } := by
      unfold Part.stopLoop Part.pushUrgent
      simp only [show (p.eng l).ctl.state = .draining from hstate, Part.modEng_modEng]
    refine stops (by rw [hstate]; exact LoopState.noConfusion) hstop (Part.proceed_of_settled l _ ?_)
    exact Part.settled_kept hsettled (by simp) (by simp) (by simp [Engine.rollcallDue, Engine.isSending])
  case fromQuiet =>
    intro hstate
    refine stops (by rw [hstate]; exact LoopState.noConfusion) ?_ (proceedsOff hat (by simp [SchedOp.transfers]))
    unfold Part.stopLoop
    simp only [show (p.eng l).ctl.state = .quiet from hstate]
  case fromDown =>
    intro hstate hsched
    refine stops (downNotOff hstate) ((stopsDown hstate).trans (Part.stopDown_settled (.inl hsched))) ?_
    refine Part.proceed_to_off rfl SchedOp.noConfusion ?_ hsched (by simp [SchedOp.transfers])
    rw [Part.modEng_sched_self hsched]
    exact Part.enterOff_eq ..
  case whileDown =>
    intro ops c hstate hsched hops
    refine ⟨fun hne => ?_, fun hnil ht => ?_, fun hnil ht => ?_⟩
    · refine stops (downNotOff hstate) ((stopsDown hstate).trans (Part.stopDown_settling hne hsched hops))
        (Part.proceed_of_settled l _ ?_)
      cases ops with
      | nil => exact absurd rfl hne
      | cons op rest =>
        rw [Part.atTransfer_cons hsched] at hat
        exact Part.settled_cons l _ op _ (by rw [Part.eng_modEng]; rfl) hat
    · subst hnil
      refine stops (downNotOff hstate) ((stopsDown hstate).trans (Part.stopDown_reporting hsched ht))
        (Part.proceed_of_settled l _ ?_)
      exact Part.settled_cons l _ .writeLoopHalf _ (by rw [Part.eng_modEng, hsched]; rfl) rfl
    · subst hnil
      refine stops (downNotOff hstate) ((stopsDown hstate).trans (Part.stopDown_settled (.inr ⟨ht, c, hsched⟩))) ?_
      exact Part.proceed_to_off rfl SchedOp.noConfusion (Part.enterOff_eq ..) (by rw [Part.eng_modEng])
        (by simp [SchedOp.transfers])
  case fromFault =>
    intro hstate
    refine stops (by rw [hstate]; exact LoopState.noConfusion) ?_
      (proceedsOff (ops := []) hat (by simp))
    unfold Part.stopLoop
    simp only [show (p.eng l).ctl.state = .fault from hstate]
  case fromTest =>
    intro hstate hentry
    refine stops (by rw [hstate]; exact LoopState.noConfusion) (r := p.stopTest l) ?_ ?_
    · unfold Part.stopLoop
      simp only [show (p.eng l).ctl.state = .test from hstate, show (p.eng l).enteringTest = false from hentry,
        Bool.false_eq_true, if_false]
    · unfold Part.stopTest
      simp only [List.isEmpty_iff]
      refine proceedsOff ?_ (by simp [SchedOp.transfers])
      have hsame : ∀ u : TestUnit, { p with testUnit := u }.atTransfer l = p.atTransfer l := by
        cases l <;> exact fun _ => rfl
      exact (hsame _).trans hat
  case ahead =>
    intro ahead op rest hentering hval hsched hne hahead hop
    refine stops (enteringNotOff hentering) ((Part.stopLoop_entering hentering hval).trans
      ((Part.giveUp_ahead (Engine.aheadOfEntry_append hval hsched hahead hop) hne).trans
        (Part.act_abort (by rw [Part.eng_modEng]; exact hval)))) (Part.proceed_of_settled l _ ?_)
    refine Part.settled_offState ?_ (abort_follow_transfers state)
    cases ahead with
    | nil => exact absurd rfl hne
    | cons first more =>
      rw [Part.atTransfer_cons hsched] at hat
      exact (Part.atTransfer_cons (by rw [Part.eng_modEng])).trans hat
  case now =>
    intro hhead ht
    obtain ⟨hlast, hwait⟩ := abort_not_transfer state
    refine stops (enteringNotOff hentering) ((Part.stopLoop_entering hentering hval).trans
      (Part.giveUp_now (Engine.aheadOfEntry_nil hhead) ht)) ?_
    refine Part.proceed_to_off hlast hwait (Part.act_abort (by rw [Part.eng_modEng]; exact hval))
      (by rw [Part.eng_modEng]) (abort_follow_transfers state)
  case after =>
    intro op rest hsched hop ht hsome
    refine stops (enteringNotOff hentering) ((Part.stopLoop_entering hentering hval).trans
      (Part.giveUp_after (Engine.aheadOfEntry_nil (by rw [hsched]; exact hop)) hsched ht)) 
      (Part.proceed_of_settled l _ ?_)
    exact Part.settled_cons l _ op _ (by rw [Part.eng_modEng]) ((Part.schedAction_isSome ..).symm.trans hsome)
  case testNow =>
    intro ht
    refine stops (by rw [hstate]; exact LoopState.noConfusion) ((testStops hstate htest).trans
      (Part.giveUp_now (noneAhead hval) ht)) ?_
    refine Part.proceed_to_off rfl SchedOp.noConfusion ?_ ?_ (by simp [SchedOp.transfers])
    · show Part.testAbort l _ = _
      rw [Part.testAbort, if_pos (by rw [Part.eng_modEng]; exact hval), Part.enterOff_eq, Part.modEng_testUnit]
    · cases l <;> rfl
  case testAfter =>
    intro op rest hsched ht hsome
    refine stops (by rw [hstate]; exact LoopState.noConfusion) ((testStops hstate htest).trans
      (Part.giveUp_after (noneAhead hval) hsched ht)) (Part.proceed_of_settled l _ ?_)
    exact Part.settled_cons l _ op _ (by rw [Part.eng_modEng]) ((Part.schedAction_isSome ..).symm.trans hsome)

end Sys2Proof.Machine
end

