-- ==== Sys2Proof/Proofs/LineEvents.lean ====
section
/-!
Events of the line that end no frame (R2, R4, R5, R133, R144): BIAS_OK, activity, the idle line, and what a frame error
means for the test or the attempt that it meets.
-/
namespace Sys2Proof.Machine

open Sys2Proof

/-! ### A procedure that a change of the line leaves standing -/

theorem Engine.rollcallDue_line {e f : Engine} (hsched : f.sched = e.sched) (hctl : f.ctl = e.ctl)
    (hcyc : f.cyc = e.cyc) (hx : e.framer.sending = none ∨ f.framer.sending = e.framer.sending)
    (h : e.rollcallDue = false) : f.rollcallDue = false := by
  unfold Engine.rollcallDue Engine.isSending at h ⊢
  rw [hsched, hctl, hcyc]
  rcases hx with hx | hx
  · simp only [hx, Bool.not_false, Bool.and_true] at h
    rw [h, Bool.false_and]
  · rw [hx]
    exact h

/-- A change of the engine that leaves its procedure, its state and its cycle, and ends no transmission, leaves the
procedure standing. -/
theorem Part.settled_line {l : LoopId} {p : Part} {f : Engine → Engine} (h : p.settled l = true)
    (hsched : (f (p.eng l)).sched = (p.eng l).sched) (hctl : (f (p.eng l)).ctl = (p.eng l).ctl)
    (hcyc : (f (p.eng l)).cyc = (p.eng l).cyc)
    (hx : (p.eng l).framer.sending = none ∨ (f (p.eng l)).framer.sending = (p.eng l).framer.sending) :
    (p.modEng l f).settled l = true := by
  refine Part.settled_kept h ?_ ?_ ?_ <;> rw [Part.eng_modEng]
  · exact hsched
  · intro hsome
    rcases hx with hx | hx
    · rw [hx] at hsome; cases hsome
    · rw [hx]; exact hsome
  · exact Engine.rollcallDue_line hsched hctl hcyc hx

/-- With nothing being sent, a procedure that stands is at a transfer or at its end. -/
theorem Part.atTransfer_of_settled {l : LoopId} {p : Part} (h : p.settled l = true)
    (hx : (p.eng l).framer.sending = none) : p.atTransfer l = true := by
  have hpaused := Part.paused_of_settled h
  unfold Part.paused at hpaused
  unfold Part.atTransfer
  cases hs : (p.eng l).sched with
  | nil => rfl
  | cons op rest =>
    rw [hs] at hpaused
    simpa [Part.waitsAt, hx] using hpaused

/-! ### BIAS_OK and the start of an activity (R13, R133, R144) -/

theorem LineMonitor.biasBack_awaits (now : Nat) (e : Engine) :
    e.mon.biasBack now e.awaitsBias =
      if e.mon.biasOk then e.mon
      else
        { e.mon with biasOk := true, carrierSince := none
                     presenceSince := if e.ctl.state = .down ∧ e.mon.holdPassed then some now else none } := by
  unfold LineMonitor.biasBack Engine.awaitsBias
  simp only [Bool.and_eq_true, beq_iff_eq]

theorem Engine.activityCanStart_of {e : Engine} {start : Nat} (hrunning : e.framer.running = true)
    (hinternal : e.internalReturn = false) (hsending : e.framer.sending = none) (hactivity : e.framer.activity = none)
    (hmark : e.framer.markSince + 2 * e.charTime ≤ start) : e.activityCanStart start = true := by
  unfold Engine.activityCanStart
  rw [hrunning, hinternal, hsending, hactivity, decide_eq_true hmark]
  rfl

/-- Settles O17: the two measures of BIAS_OK, and the activity start that wakes a loop or does not. -/
theorem biasAndActivity : Obligations.BiasAndActivity := by
  intro dt l s p e record screening
  refine ⟨⟨?_, ?_⟩, fun hlive hrunning hinternal hsending hactivity hmark hsettled => ⟨fun hnot => ?_,
    fun hquiet henergy hfrom => ?_⟩⟩
  · rw [exec_eq_become rfl]
    rfl
  · rw [exec_eq_become rfl]
    show Host.Outcome.next (s.become (p.biasRestore l)) = _
    unfold Part.biasRestore
    simp only [LineMonitor.biasBack_awaits]
  · refine exec_of_loopStep rfl rfl hlive
      (Engine.activityCanStart_of hrunning hinternal hsending hactivity hmark) ?_
      (Part.settled_line hsettled rfl rfl rfl (.inr rfl))
    show p.activityStarts l p.now = _
    rw [Part.activityStarts]
    refine if_neg fun h => hnot ?_
    simp only [Bool.and_eq_true, beq_iff_eq, decide_eq_true_eq] at h
    obtain ⟨⟨hquiet, henergy⟩, hfrom⟩ := h
    exact ⟨hquiet, henergy, hfrom⟩
  · have hcond : ((p.eng l).ctl.state == .quiet && p.screening.wakeConfig.wakeOnEnergy &&
        decide ((p.eng l).quietFrom ≤ p.now)) = true := by
      rw [henergy, decide_eq_true (p := (p.eng l).quietFrom ≤ p.now) hfrom]
      simpa using hquiet
    refine exec_of_loopStep rfl rfl hlive
      (Engine.activityCanStart_of hrunning hinternal hsending hactivity hmark) (q := Part.wokenState l record
        (p.modEng l fun e => { e with framer := { e.framer with
          activity := some p.now, markSince := p.now + e.charTime, receiver := .discard } })) ?_ ?_ |>.trans ?_
    · show p.activityStarts l p.now = _
      rw [Part.activityStarts, if_pos hcond, Part.setReceiver, Part.modEng_modEng,
        Part.wake_eq (by rw [Part.modEng_live]; exact hlive)]
      rfl
    · exact Part.settled_wokenState (Part.paused_of_settled (Part.settled_line hsettled rfl rfl rfl (.inr rfl)))
    · simp only [Part.wokenState, Engine.dropHeld_eq]
      cases l <;> rfl

/-! ### The line at mark (R2, R4, R5) -/

theorem Engine.internalReturn_iff (e : Engine) :
    e.internalReturn = true ↔ e.ctl.state = .test ∧ e.ctl.validated = true ∧ e.cfg.testMode = 0 := by
  unfold Engine.internalReturn
  simp only [Bool.and_eq_true, beq_iff_eq, and_assoc]

/-- Whether the line is idle does not depend on what is held for it. -/
theorem Engine.lineIsIdle_held (e : Engine) (held : Option TxFrame) (now : Nat) :
    Engine.lineIsIdle { e with framer := { e.framer with held := held } } now =
      decide (e.framer.sending = none ∧ e.framer.activity = none ∧ e.framer.markSince + 4 * e.charTime ≤ now) := by
  rw [Bool.eq_iff_iff, decide_eq_true_eq, Engine.lineIsIdle]
  simp only [Bool.and_eq_true, Option.isNone_iff_eq_none, decide_eq_true_eq, and_assoc]
  rfl

/-- A frame handed to the Framer in a state that lets the part send it. -/
theorem Engine.handFrame_eq {e : Engine} {now : Nat} {f : TxFrame} (h : e.ctl.state.maySend f.purpose = true)
    (hinternal : e.internalReturn = false) : e.handFrame now f = e.transmits now f := by
  have hsame : ∀ framer : Framer, Engine.internalReturn { e with framer := framer } = false := fun _ => hinternal
  unfold Engine.handFrame Engine.transmits
  rw [if_pos h]
  simp only [Engine.lineIsIdle_held, decide_eq_true_eq]
  split
  · simp only [Engine.beginSend, hsame, Bool.false_eq_true, if_false]
  · rfl

/-- A frame handed to the Framer of a loop that feeds its own receiver. -/
theorem Engine.handFrame_internal {e : Engine} {now : Nat} {f : TxFrame}
    (h : e.ctl.state.maySend f.purpose = true) (hinternal : e.internalReturn = true) :
    e.handFrame now f =
      let x := e.transmits now f
      { x with framer := { x.framer with
          receiver := if x.framer.held = none ∧ e.framer.receiver = .discard then .hunt else e.framer.receiver } } := by
  have hsame : ∀ framer : Framer, Engine.internalReturn { e with framer := framer } = true := fun _ => hinternal
  unfold Engine.handFrame Engine.transmits
  rw [if_pos h]
  simp only [Engine.lineIsIdle_held, decide_eq_true_eq]
  split
  · simp only [Engine.beginSend, hsame, if_true, true_and]
    cases e.framer.receiver <;> rfl
  · simp

/-- The next frame of a test, or its end, is what the statements say of it. -/
theorem Part.testNext_eq {l : LoopId} {u : TestUnit} {p : Part} (hstate : (p.eng l).ctl.state = .test)
    (hmode : (p.eng l).cfg.testMode = 1 ∨ (p.eng l).internalReturn = true) :
    Part.testNext l { p with testUnit := u } = p.testGoesOn l u := by
  have heng : ∀ u : TestUnit, ({ p with testUnit := u }).eng l = p.eng l := by cases l <;> exact fun _ => rfl
  unfold Part.testNext Part.testGoesOn
  simp only [heng, Bool.and_eq_true, bne_iff_ne, beq_iff_eq, Part.enterOff_eq]
  refine if_congr Iff.rfl rfl ?_
  rw [Part.testFirst, if_pos (by rw [heng]; exact hstate), Part.prepareTest]
  simp only [heng, satInc_half]
  refine Part.modEng_congr l _ _ _ ?_
  simp only [heng]
  rcases hmode with hmode | hinternal
  · have hinternal : (p.eng l).internalReturn = false := by
      rw [← Bool.not_eq_true, Engine.internalReturn_iff, hmode]
      rintro ⟨-, -, h⟩
      exact absurd h (by decide)
    simp only [hmode, beq_self_eq_true, if_true]
    refine Engine.handFrame_eq ?_ ?_
    · rw [show (p.eng l).ctl.state = .test from hstate]
      rfl
    · exact hinternal
  · have hmode : (p.eng l).cfg.testMode = 0 := by
      rw [Engine.internalReturn_iff] at hinternal
      exact hinternal.2.2
    simp only [hmode]
    refine Engine.handFrame_internal ?_ ?_
    · rw [show (p.eng l).ctl.state = .test from hstate]
      rfl
    · exact hinternal

@[simp] theorem Engine.transmits_ctl (now : Nat) (f : TxFrame) (e : Engine) : (e.transmits now f).ctl = e.ctl := rfl

@[simp] theorem Engine.transmits_sched (now : Nat) (f : TxFrame) (e : Engine) :
    (e.transmits now f).sched = e.sched := rfl

theorem Part.atTransfer_congr {l : LoopId} {p q : Part} (h : (q.eng l).sched = (p.eng l).sched)
    (hp : p.atTransfer l = true) : q.atTransfer l = true := by
  cases hs : (p.eng l).sched with
  | nil => exact Part.atTransfer_nil (h.trans hs)
  | cons op rest => exact (Part.atTransfer_cons (h.trans hs)).trans ((Part.atTransfer_cons hs).symm.trans hp)

/-- A test that goes on or ends leaves its procedure at a transfer. -/
theorem Part.settled_testGoesOn {l : LoopId} {u : TestUnit} {p : Part} (hstate : (p.eng l).ctl.state = .test)
    (h : p.atTransfer l = true) : (p.testGoesOn l u).settled l = true := by
  have heng : ∀ u : TestUnit, ({ p with testUnit := u }).eng l = p.eng l := by cases l <;> exact fun _ => rfl
  unfold Part.testGoesOn
  dsimp only
  split
  · exact Part.settled_offState (Part.atTransfer_congr (congrArg Engine.sched (heng _)) h) (by simp [SchedOp.transfers])
  · refine Part.settled_of_state l _ (Part.paused_of_atTransfer (Part.atTransfer_congr ?_ h)) ?_ <;>
      rw [Part.eng_modEng, heng] <;> split
    · rfl
    · rfl
    · rw [Engine.transmits_ctl, hstate]; exact LoopState.noConfusion
    · show (p.eng l).ctl.state ≠ .running
      rw [hstate]; exact LoopState.noConfusion

/-! ### What a frame error means (R11, R76, R77, R79, R155) -/

section FrameErrors
variable {l : LoopId} {atFrameEnd : Bool} {p : Part}

theorem Part.frameError_internal_none (hinternal : (p.eng l).internalReturn = true) (hcopy : p.testUnit.copy = []) :
    p.frameError l atFrameEnd = p.modEng l Engine.countFrameError := by
  unfold Part.frameError Part.internalInFlight
  simp [hinternal, hcopy]

theorem Part.frameError_internal_lost (hinternal : (p.eng l).internalReturn = true) (hcopy : p.testUnit.copy ≠ []) :
    p.frameError l atFrameEnd =
      (p.modEng l Engine.countFrameError).testGoesOn l { p.testUnit with lost := satInc p.testUnit.lost } := by
  have hcounted : ((p.modEng l Engine.countFrameError).eng l).internalReturn = true := by
    rw [Part.eng_modEng, Engine.internalReturn_iff, Engine.countFrameError_ctl, Engine.countFrameError_cfg,
      ← Engine.internalReturn_iff]
    exact hinternal
  have hlost : p.internalInFlight l = true := by
    unfold Part.internalInFlight
    rw [hinternal, List.isEmpty_eq_false_iff.mpr hcopy]
    rfl
  unfold Part.frameError Part.testLost
  rw [hinternal, hlost, if_pos rfl, if_pos rfl, Part.modEng_testUnit]
  exact Part.testNext_eq ((Engine.internalReturn_iff _).mp hcounted).1 (.inr hcounted)

theorem Part.frameError_external (hinternal : (p.eng l).internalReturn = false) :
    p.frameError l atFrameEnd = (p.modEng l Engine.countFrameError).exchangeError l atFrameEnd := by
  unfold Part.frameError
  rw [hinternal, if_neg Bool.false_ne_true]

/-- No attempt awaits or receives a reply: the error is counted alone. -/
theorem Part.frameError_unnoticed (hinternal : (p.eng l).internalReturn = false)
    (hxu : (p.eng l).xu.state = .idle ∨ (p.eng l).xu.state = .sending ∨
      (∃ a, (p.eng l).xu = { state := .awaiting, attempt := some a } ∧ a.timeoutPassed = false)) :
    p.frameError l atFrameEnd = p.modEng l Engine.countFrameError := by
  rw [Part.frameError_external hinternal, Part.exchangeError, Part.eng_modEng, Engine.countFrameError_xu]
  rcases hxu with h | h | ⟨a, h, ha⟩
  · rw [h]
  · rw [h]
  · simp [h, ha]

/-- The reply of an attempt suffers the error, or the unit waits past its timeout: the attempt has failed. -/
theorem Part.frameError_failed {a : Attempt} (hinternal : (p.eng l).internalReturn = false)
    (hxu : (p.eng l).xu = { state := .receiving, attempt := some a } ∨
      ((p.eng l).xu = { state := .awaiting, attempt := some a } ∧ a.timeoutPassed = true)) :
    p.frameError l atFrameEnd = (p.modEng l Engine.countFrameError).attemptFailed l := by
  rw [Part.frameError_external hinternal, Part.exchangeError, Part.eng_modEng, Engine.countFrameError_xu]
  rcases hxu with h | ⟨h, ha⟩
  · rw [h]
  · simp [h, ha]

/-- An overlong reply is broken off by the error. -/
theorem Part.frameError_skipping {a : Attempt} (hinternal : (p.eng l).internalReturn = false)
    (hxu : (p.eng l).xu = { state := .skipping, attempt := some a }) :
    p.frameError l false = p.modEng l fun e =>
      { e.countFrameError with xu := { e.xu with attempt := some { a with skipBroken := true } } } := by
  rw [Part.frameError_external hinternal, Part.exchangeError, Part.eng_modEng, Engine.countFrameError_xu, hxu]
  simp only [Bool.false_eq_true, if_false, Part.modEng_modEng, Engine.countFrameError_xu]

end FrameErrors

/-- Settles O19: the two counts saturate, and the threshold is met where the window count reaches it. -/
theorem frameErrorCount : Obligations.FrameErrorCount := by
  intro e total window
  have hcounts : e.ctl.state.countsErrors =
      decide (e.ctl.state = .rollcall ∨ e.ctl.state = .running ∨ e.ctl.state = .draining) := by
    cases e.ctl.state <;> rfl
  have hmet : ∀ (met : Bool) (x y : Byte), (met || (x != 0 && y == x)) = decide (met ∨ (x ≠ 0 ∧ y = x)) := by
    intro met x y
    rw [Bool.eq_iff_iff]
    simp
  unfold Engine.countFrameError
  simp only [hcounts, decide_eq_true_eq, satInc_half, satInc_byte, hmet]
  rfl

end Sys2Proof.Machine
end

