-- ==== Sys2Proof/Proofs/LineAtMark.lean ====
section
/-! The line at mark (R2, R4, R5, R79): the end of an activity, and the idle line. -/
namespace Sys2Proof.Machine

open Sys2Proof

theorem Engine.internalReturn_eq_false {e : Engine}
    (h : ¬ (e.ctl.state = .test ∧ e.ctl.validated = true ∧ e.cfg.testMode = 0)) : e.internalReturn = false := by
  rw [← Bool.not_eq_true, Engine.internalReturn_iff]
  exact h

/-- A frame that is still collected at the end of the activity suffers a framing error (R5). -/
theorem Part.endActivity_collecting {l : LoopId} {p : Part} (h : (p.eng l).framer.receiver.collecting = true) :
    p.endActivity l = (p.modEng l fun e =>
      { e with framer := { e.framer with activity := none, receiver := .discard } }).frameError l false := by
  rw [Part.endActivity, if_pos h, Part.disturbed, Part.setReceiver, Part.modEng_modEng]

theorem Part.endActivity_rested {l : LoopId} {p : Part} (h : (p.eng l).framer.receiver.collecting = false) :
    p.endActivity l = p.modEng l fun e => { e with framer := { e.framer with activity := none } } := by
  rw [Part.endActivity, h, if_neg Bool.false_ne_true]

/-- The loop runs at a latched rate, unless an entry that latches one has not done so (R14). -/
theorem Engine.rateLatched_iff (e : Engine) : e.rateLatched = true ↔
    ¬ (e.ctl.validated = false ∧ (e.ctl.state = .test ∨ (e.ctl.state = .starting ∧ e.ctl.startFromOff = true))) := by
  unfold Engine.rateLatched
  cases e.ctl.state <;> cases e.ctl.validated <;> simp

theorem Engine.skipWaits_iff (e : Engine) :
    e.skipWaits = true ↔ ∃ a, e.xu = { state := .skipping, attempt := some a } ∧ a.skipBroken = true := by
  unfold Engine.skipWaits
  rcases e.xu with ⟨state, _ | a⟩ <;> cases state <;> simp

/-- The receiver of an idle line. -/
theorem Engine.receiver_idle (e : Engine) :
    (if e.rateLatched then e.framer.receiver.afterIdle else e.framer.receiver) =
      if e.framer.receiver = .discard ∧ e.rateLatched = true then .hunt else e.framer.receiver := by
  cases e.rateLatched <;> cases e.framer.receiver <;> rfl

/-- A frame that is held goes out on an idle line (R2). -/
def Part.sendHeld (l : LoopId) (p : Part) : Part :=
  if (p.eng l).lineIsIdle p.now then p.modEng l (Engine.beginSend p.now) else p

theorem Part.sendHeld_none {l : LoopId} {p : Part} (h : (p.eng l).framer.held = none) : p.sendHeld l = p := by
  have hsame : p.modEng l (Engine.beginSend p.now) = p :=
    Part.modEng_self l _ p (by rw [Engine.beginSend, h])
  rw [Part.sendHeld, hsame, ite_self]

/-- Settles O18: the end of an activity with and without a frame being collected, and the idle line with and without
a frame held or a broken reply. -/
theorem lineAtMark : Obligations.LineAtMark := by
  intro dt l s p e internal hlive hrunning hsending hsettled
  have hat : p.atTransfer l = true := Part.atTransfer_of_settled hsettled hsending
  refine ⟨fun hmark => ⟨?rested, ?erred⟩, ?idle⟩
  case rested =>
    intro hactivity hcollecting
    have hcan : e.activityCanEnd p.now = true := by
      simp [Engine.activityCanEnd, Engine.atMark, hrunning, hsending, hmark, hactivity]
    exact exec_of_loopStep rfl rfl hlive hcan (Part.endActivity_rested hcollecting)
      (Part.settled_line hsettled rfl rfl rfl (.inr rfl))
  case erred =>
    intro hcollecting erred answers
    have hcan : e.activityCanEnd p.now = true := by
      simp [Engine.activityCanEnd, Engine.atMark, hrunning, hsending, hmark, hcollecting]
    have ends : ∀ {q : Part}, (p.modEng l fun e =>
        { e with framer := { e.framer with activity := none, receiver := .discard } }).frameError l false = q →
        q.settled l = true → answers q :=
      fun hq hs => exec_of_loopStep rfl rfl hlive hcan ((Part.endActivity_collecting hcollecting).trans hq) hs
    have hcounted : (p.modEng l erred).settled l = true :=
      Part.settled_line hsettled (Engine.countFrameError_sched _) (Engine.countFrameError_ctl _)
        (Engine.countFrameError_cyc _) (.inl hsending)
    have herred : (Part.modEng l Engine.countFrameError (p.modEng l fun e =>
        { e with framer := { e.framer with activity := none, receiver := .discard } })) = p.modEng l erred :=
      Part.modEng_modEng ..
    refine ⟨fun hinternal hcopy => ?_, fun hinternal hcopy => ?_, fun hexternal hxu => ?_,
      ?_, fun a hexternal hxu => ?_⟩
    · refine ends ((Part.frameError_internal_none ?_ ?_).trans herred) hcounted
      · rw [Part.eng_modEng]; exact (Engine.internalReturn_iff e).mpr hinternal
      · rw [Part.modEng_testUnit]; exact hcopy
    · refine ends ((Part.frameError_internal_lost ?_ ?_).trans ?_) (Part.settled_testGoesOn ?_ ?_)
      · rw [Part.eng_modEng]; exact (Engine.internalReturn_iff e).mpr hinternal
      · rw [Part.modEng_testUnit]; exact hcopy
      · rw [herred, Part.modEng_testUnit]
      · rw [Part.eng_modEng, Engine.countFrameError_ctl]; exact hinternal.1
      · exact Part.atTransfer_congr (by rw [Part.eng_modEng]; exact Engine.countFrameError_sched _) hat
    · refine ends ((Part.frameError_unnoticed ?_ ?_).trans herred) hcounted <;> rw [Part.eng_modEng]
      · exact Engine.internalReturn_eq_false hexternal
      · exact hxu
    · intro a hexternal hxu failed hfailed
      refine ends ((Part.frameError_failed (a := a) ?_ ?_).trans (by rw [herred])) hfailed <;> rw [Part.eng_modEng]
      · exact Engine.internalReturn_eq_false hexternal
      · exact hxu
    · refine ends ((Part.frameError_skipping (a := a) ?_ ?_).trans (Part.modEng_modEng ..))
        (Part.settled_line hsettled (Engine.countFrameError_sched _) (Engine.countFrameError_ctl _)
          (Engine.countFrameError_cyc _) (.inl hsending)) <;> rw [Part.eng_modEng]
      · exact Engine.internalReturn_eq_false hexternal
      · exact hxu
  case idle =>
    intro hmark hcollecting unlatched receiver rested broken
    have hcan : e.atMark 4 p.now = true := by
      simp [Engine.atMark, hrunning, hsending, hmark]
    have hreceiver : (if e.rateLatched then e.framer.receiver.afterIdle else e.framer.receiver) = receiver := by
      rw [Engine.receiver_idle]
      exact if_congr (and_congr_right fun _ => e.rateLatched_iff) rfl rfl
    have hidle : p.lineIdle l = (if e.skipWaits then rested.overlongFinished l false else rested).sendHeld l := by
      have hrested : Part.modEng l (fun e => { e with framer := { e.framer with
          receiver := if e.rateLatched then e.framer.receiver.afterIdle else e.framer.receiver } })
          (p.modEng l fun e => { e with framer := { e.framer with activity := none } }) = rested :=
        (Part.modEng_modEng ..).trans (Part.modEng_congr l _ _ p
          (congrArg (fun r => { e with framer := { e.framer with activity := none, receiver := r } }) hreceiver))
      have hskip : (rested.eng l).skipWaits = e.skipWaits := by
        rw [Part.eng_modEng]
        rfl
      rw [Part.lineIdle, Part.endActivity_rested hcollecting, Part.idleLine, hrested]
      simp only [hskip]
      rfl
    have hrested : rested.settled l = true := Part.settled_line hsettled rfl rfl rfl (.inl hsending)
    have hwaits : e.skipWaits = true ↔ broken := e.skipWaits_iff
    refine ⟨?_, fun hbroken hheld => ?_, fun f hbroken hheld => ?_⟩
    · intro hbroken finished hheld hfinished
      refine exec_of_loopStep rfl rfl hlive hcan (hidle.trans ?_) hfinished
      rw [if_pos (hwaits.mpr hbroken), Part.sendHeld_none hheld]
    · refine exec_of_loopStep rfl rfl hlive hcan (hidle.trans ?_) hrested
      rw [if_neg (mt hwaits.mp hbroken), Part.sendHeld_none (by rw [Part.eng_modEng]; exact hheld)]
    · refine exec_of_loopStep rfl rfl hlive hcan (hidle.trans ?_)
        (Part.settled_line hsettled rfl rfl rfl (.inl hsending))
      rw [if_neg (mt hwaits.mp hbroken), Part.sendHeld, if_pos, Part.modEng_modEng]
      · refine Part.modEng_congr l _ _ p ?_
        have hinternal : internal ↔ e.internalReturn = true := e.internalReturn_iff.symm
        have hnow : rested.now = p.now := Part.modEng_now ..
        have hfed : (if internal then receiver else .readback) = if e.internalReturn then receiver else .readback :=
          if_congr hinternal rfl rfl
        simp only [Engine.beginSend, show (p.eng l).framer.held = some f from hheld, hnow, hfed]
        rfl
      · rw [Part.eng_modEng, Part.modEng_now]
        simp only [Engine.lineIsIdle, Bool.and_eq_true, Option.isNone_iff_eq_none, decide_eq_true_eq]
        exact ⟨⟨hsending, trivial⟩, hmark⟩

end Sys2Proof.Machine
end

