-- ==== Sys2Proof/Proofs/Characters.lean ====
section
/-! A character by the receiver's state (R4, R5, R12, R76, R77). -/
namespace Sys2Proof.Machine

open Sys2Proof

/-! ### The characters of a frame -/

theorem byteAt_append_last (cs : List Byte) (value : Byte) : byteAt (cs ++ [value]) cs.length = value := by
  unfold byteAt
  simp

/-! ### What the Exchange Unit does with a character (R76, R77, R79) -/

theorem ExchangeUnit.lead_eq (start : Nat) (x : ExchangeUnit) :
    x.lead start = match x with
      | { state := .awaiting, attempt := some a } =>
        if start ≤ a.endOfFrame + a.timeout then
          { state := .receiving
            attempt := some { a with latency := some (BitVec.ofNat 16 ((start - a.endOfFrame) / 250)) } }
        else x
      | _ => x := by
  rcases x with ⟨state, _ | a⟩ <;> cases state <;> rfl

theorem ExchangeUnit.header_eq (destination source length : Byte) (x : ExchangeUnit) :
    x.header destination source length = match x with
      | { state := .receiving, attempt := some a } =>
        if destination = 0 ∧ source = a.source ∧ a.allowance.toNat < length.toNat then { x with state := .skipping }
        else x
      | _ => x := by
  rcases x with ⟨state, _ | a⟩ <;> cases state <;> simp [ExchangeUnit.header, and_assoc]

theorem ExchangeUnit.payloadByte_eq (b : Byte) (x : ExchangeUnit) :
    x.payloadByte b = match x with
      | { state := .receiving, attempt := some a } => { x with attempt := some { a with buffer := a.buffer ++ [b] } }
      | _ => x := by
  rcases x with ⟨state, _ | a⟩ <;> cases state <;> rfl

/-- The unit looks at the fifth character with the header before it. -/
theorem ExchangeUnit.character_header (cs : List Byte) (value : Byte) (x : ExchangeUnit) (h : cs.length = 4) :
    x.character (cs ++ [value]) = x.header (byteAt cs 1) (byteAt cs 2) value := by
  unfold ExchangeUnit.character
  have hlength : (cs ++ [value]).length = 5 := by rw [List.length_append, h]; rfl
  have hlast : byteAt (cs ++ [value]) 4 = value := by rw [← h]; exact byteAt_append_last ..
  rw [if_pos hlength, byteAt_append_left _ (by omega), byteAt_append_left _ (by omega), hlast]

theorem charsLength_append {cs : List Byte} (h : 5 ≤ cs.length) (value : Byte) :
    charsLength (cs ++ [value]) = (byteAt cs 4).toNat := by
  unfold charsLength
  rw [byteAt_append_left _ (by omega)]

theorem ExchangeUnit.character_payload (cs : List Byte) (value : Byte) (x : ExchangeUnit) (h : 5 ≤ cs.length)
    (hpayload : cs.length < 5 + (byteAt cs 4).toNat) : x.character (cs ++ [value]) = x.payloadByte value := by
  unfold ExchangeUnit.character
  have hlength : (cs ++ [value]).length = cs.length + 1 := by rw [List.length_append]; rfl
  rw [hlength, if_neg (by omega), charsLength_append h, if_pos (by simp; omega), Nat.add_sub_cancel,
    byteAt_append_last]

theorem ExchangeUnit.character_other (cs : List Byte) (value : Byte) (x : ExchangeUnit)
    (h : cs.length < 4 ∨ (5 ≤ cs.length ∧ 5 + (byteAt cs 4).toNat ≤ cs.length)) :
    x.character (cs ++ [value]) = x := by
  unfold ExchangeUnit.character
  have hlength : (cs ++ [value]).length = cs.length + 1 := by rw [List.length_append]; rfl
  rw [hlength, if_neg (by omega)]
  rcases h with h | ⟨h, hpast⟩
  · rw [if_neg (by simp; omega)]
  · rw [charsLength_append h, if_neg (by simp; omega)]

/-! ### A character that the loop hears -/

/-- A character that wakes no loop is heard by the receiver, the activity carried on or begun by it. -/
theorem Part.character_heard {l : LoopId} {p : Part} {value : Byte} {stopOk : Bool}
    (hinternal : (p.eng l).internalReturn = false) (hsending : (p.eng l).framer.sending = none)
    (hwakes : ¬ ((p.eng l).ctl.state = .quiet ∧ p.screening.wakeConfig.wakeOnEnergy = true ∧
      (p.eng l).framer.activity = none ∧
      (p.eng l).framer.markSince + 2 * (p.eng l).charTime ≤ p.now - (p.eng l).charTime ∧
      (p.eng l).quietFrom ≤ p.now - (p.eng l).charTime)) :
    p.character l value stopOk = Part.takeCharacter l (p.now - (p.eng l).charTime) value stopOk
      (p.modEng l fun e => { e with framer := { e.framer with
        markSince := p.now, activity := some (e.framer.activity.getD (p.now - (p.eng l).charTime)) } }) := by
  unfold Part.character
  simp only [hsending]
  congr 1
  have hmark : ∀ e : Engine, e.internalReturn = false → e.markCharacter p.now = { e with framer := { e.framer with
      markSince := p.now, activity := some (e.framer.activity.getD (p.now - e.charTime)) } } := by
    intro e h
    rw [Engine.markCharacter, h]
    rfl
  have hsame : ∀ framer : Framer, Engine.internalReturn { p.eng l with framer := framer } = false :=
    fun _ => hinternal
  unfold Part.activityStart
  split
  · rename_i hcan
    have hactivity : (p.eng l).framer.activity = none := by
      simp only [Engine.activityCanStart, Bool.and_eq_true, Option.isNone_iff_eq_none] at hcan
      exact hcan.1.2
    have hmarked : (p.eng l).framer.markSince + 2 * (p.eng l).charTime ≤ p.now - (p.eng l).charTime := by
      simp only [Engine.activityCanStart, Bool.and_eq_true, decide_eq_true_eq] at hcan
      exact hcan.2
    rw [Part.activityStarts, if_neg, Part.modEng_modEng]
    · refine Part.modEng_congr l _ _ p ((hmark _ (hsame _)).trans ?_)
      rw [hactivity]
      rfl
    · simp only [Bool.and_eq_true, beq_iff_eq, decide_eq_true_eq]
      rintro ⟨⟨hquiet, henergy⟩, hfrom⟩
      exact hwakes ⟨hquiet, henergy, hactivity, hmarked, hfrom⟩
  · exact Part.modEng_congr l _ _ p (hmark _ hinternal)

/-- A character that comes with no activity, in QUIET with wake-on-energy set, wakes the loop at its start bit. -/
theorem Part.character_wakes {l : LoopId} {p : Part} {value : Byte} {stopOk : Bool} (hlive : p.live = true)
    (hrunning : (p.eng l).framer.running = true) (hinternal : (p.eng l).internalReturn = false)
    (hsending : (p.eng l).framer.sending = none) (hquiet : (p.eng l).ctl.state = .quiet)
    (henergy : p.screening.wakeConfig.wakeOnEnergy = true) (hactivity : (p.eng l).framer.activity = none)
    (hmark : (p.eng l).framer.markSince + 2 * (p.eng l).charTime ≤ p.now - (p.eng l).charTime)
    (hfrom : (p.eng l).quietFrom ≤ p.now - (p.eng l).charTime) :
    p.character l value stopOk = Part.wokenState l (WakeRecord.plain .energy)
      (p.modEng l fun e => { e with framer := { e.framer with
        receiver := .discard, markSince := p.now
        activity := some (e.framer.activity.getD (p.now - (p.eng l).charTime)) } }) := by
  have hcond : ((p.eng l).ctl.state == .quiet && p.screening.wakeConfig.wakeOnEnergy &&
      decide ((p.eng l).quietFrom ≤ p.now - (p.eng l).charTime)) = true := by
    rw [henergy, decide_eq_true hfrom, hquiet]
    rfl
  have hwoken : Part.modEng l (Engine.markCharacter p.now)
      (p.activityStart l (p.now - (p.eng l).charTime)) = Part.wokenState l (WakeRecord.plain .energy)
      (p.modEng l fun e => { e with framer := { e.framer with
        receiver := .discard, markSince := p.now
        activity := some (e.framer.activity.getD (p.now - (p.eng l).charTime)) } }) := by
    rw [Part.activityStart, if_pos (Engine.activityCanStart_of hrunning hinternal hsending hactivity hmark),
      Part.activityStarts, if_pos hcond, Part.setReceiver, Part.modEng_modEng,
      Part.wake_eq (by rw [Part.modEng_live]; exact hlive)]
    simp only [Part.wokenState, Engine.dropHeld_eq]
    cases l
    · simp only [Part.eng_A] at hactivity
      simp only [Part.modEng, Part.eng_A, hactivity]
      rfl
    · simp only [Part.eng_B] at hactivity
      simp only [Part.modEng, Part.eng_B, hactivity]
      rfl
  unfold Part.character
  simp only [hsending]
  rw [hwoken, Part.takeCharacter]
  have hreceiver : ∀ (r : WakeRecord) (q : Part), (q.eng l).framer.receiver = .discard →
      ((q.wokenState l r).eng l).framer.receiver = .discard := by
    intro r q h
    unfold Part.wokenState
    rw [Part.eng_modEng, Engine.dropHeld_eq]
    cases l <;> exact h
  rw [hreceiver _ _ (by rw [Part.eng_modEng])]

theorem Engine.hearsCharacter_of_silent {e : Engine} (hrunning : e.framer.running = true)
    (hinternal : e.internalReturn = false) (hsending : e.framer.sending = none) : e.hearsCharacter = true := by
  unfold Engine.hearsCharacter
  simp [hrunning, hinternal, hsending]

theorem Engine.hearsCharacter_of_sending {e : Engine} {x : Sending} (hrunning : e.framer.running = true)
    (hsending : e.framer.sending = some x) (hleft : x.readBack < x.frame.chars.length) :
    e.hearsCharacter = true := by
  unfold Engine.hearsCharacter
  simp [hrunning, hsending, hleft]

theorem ExchangeUnit.missed_iff (start : Nat) (x : ExchangeUnit) :
    x.missed start = true ↔ ∃ a, x = { state := .awaiting, attempt := some a } ∧ a.timeoutPassed = true ∧
      a.endOfFrame + a.timeout < start := by
  unfold ExchangeUnit.missed
  rcases x with ⟨state, _ | a⟩ <;> cases state <;> simp

/-- Settles O20: the character that wakes, the heard one by the receiver's state, and the one read back. -/
theorem characterTaken : Obligations.CharacterTaken := by
  intro dt l value stopOk s p e start marked wakes answers hlive hrunning hinternal hsettled
  refine ⟨fun hsending hwakes => ?wakes, fun hsending hwakes => ?heard, fun x hsending hleft => ?sent⟩
  case wakes =>
    obtain ⟨hquiet, henergy, hactivity, hmark, hfrom⟩ := hwakes
    refine exec_of_loopStep rfl rfl hlive (Engine.hearsCharacter_of_silent hrunning hinternal hsending)
      (Part.character_wakes hlive hrunning hinternal hsending hquiet henergy hactivity hmark hfrom)
      (Part.settled_wokenState (Part.paused_of_settled (Part.settled_line hsettled rfl rfl rfl (.inr rfl))))
  case heard =>
    let heard := p.modEng l fun e => marked e.framer.receiver e
    have heng : heard.eng l = marked e.framer.receiver e := Part.eng_modEng ..
    have hreceiver : (heard.eng l).framer.receiver = e.framer.receiver :=
      by rw [heng]
    have hxu : (heard.eng l).xu = e.xu := by rw [heng]
    have hears : ∀ {q : Part}, heard.takeCharacter l start value stopOk = q → q.settled l = true → answers q :=
      fun hq hs => exec_of_loopStep rfl rfl hlive (Engine.hearsCharacter_of_silent hrunning hinternal hsending)
        ((Part.character_heard hinternal hsending hwakes).trans hq) hs
    have stands : ∀ {f : Engine → Engine}, (f e).sched = e.sched → (f e).ctl = e.ctl → (f e).cyc = e.cyc →
        (p.modEng l f).settled l = true := fun h₁ h₂ h₃ => Part.settled_line hsettled h₁ h₂ h₃ (.inl hsending)
    have hunts : e.framer.receiver = .hunt →
        heard.takeCharacter l start value stopOk = heard.firstCharacter l start value stopOk := by
      intro h
      unfold Part.takeCharacter
      rw [hreceiver, h]
    have collects : ∀ cs, e.framer.receiver = .frame cs →
        heard.takeCharacter l start value stopOk = heard.nextCharacter l cs value stopOk := by
      intro cs h
      unfold Part.takeCharacter
      rw [hreceiver, h]
    have leads : ∀ {q : Part}, e.framer.receiver = .hunt → value = 0xA5 → stopOk = true →
        (let led := p.modEng l fun e => { marked (.frame [0xA5]) e with xu := e.xu.lead start }
         (if e.xu.missed start then led.attemptFailed l else led) = q) →
        heard.takeCharacter l start value stopOk = q := by
      intro q hhunt hvalue hstop hq
      subst hvalue hstop
      rw [hunts hhunt, Part.firstCharacter, if_pos (by rfl), hxu]
      simp only [heard, Part.modEng_modEng]
      exact hq
    refine ⟨fun hhunt hvalue hstop hintime => ?lead, ?late, ?erred, fun cs hframe hpart => ?frame, fun hdiscard => ?_⟩
    case lead =>
      refine hears (leads hhunt hvalue hstop (if_neg fun hmissed => ?_)) ?_ |>.trans ?_
      · obtain ⟨a, ha, hpassed, hlate⟩ := (ExchangeUnit.missed_iff ..).mp hmissed
        exact absurd (hintime a ha hpassed) (by omega)
      · exact stands rfl rfl rfl
      · simp only [ExchangeUnit.lead_eq] <;> rfl
    case late =>
      intro a hhunt hvalue hstop ha hpassed hlate failed hfailed
      refine hears (leads hhunt hvalue hstop ?_) hfailed
      have hlead : e.xu.lead start = e.xu := by
        rw [ha]
        exact if_neg (by omega)
      dsimp only
      rw [if_pos ((ExchangeUnit.missed_iff ..).mpr ⟨a, ha, hpassed, hlate⟩)]
      refine congrArg (Part.attemptFailed l) (Part.modEng_congr l _ _ p ?_)
      show { marked (.frame [0xA5]) e with xu := e.xu.lead start } = marked (.frame [0xA5]) e
      rw [hlead]
    case erred =>
      intro hbad erred
      have hdisturbed : heard.takeCharacter l start value stopOk =
          (p.modEng l (marked .discard)).frameError l false := by
        have hsame : heard.disturbed l = (p.modEng l (marked .discard)).frameError l false := by
          rw [Part.disturbed, Part.setReceiver]
          exact congrArg (Part.frameError l false) (Part.modEng_modEng ..)
        rcases hbad with ⟨hhunt, hbad⟩ | ⟨cs, hframe, hpart, hbad⟩
        · rw [hunts hhunt, Part.firstCharacter, if_neg, hsame]
          simp only [Bool.and_eq_true, beq_iff_eq, not_and_or, Bool.not_eq_true]
          exact hbad
        · rw [collects cs hframe, Part.nextCharacter, hpart, if_neg Bool.false_ne_true]
          rcases hbad with h | ⟨hlength, h⟩
          · rw [h, Bool.not_false, if_pos rfl, hsame]
          · cases stopOk with
            | false => rw [Bool.not_false, if_pos rfl, hsame]
            | true => rw [Bool.not_true, if_neg Bool.false_ne_true, if_pos (by simp [hlength, h]), hsame]
      have hcounted : Part.modEng l Engine.countFrameError (p.modEng l (marked .discard)) = p.modEng l erred :=
        Part.modEng_modEng ..
      refine ⟨fun hxu => ?_, ?_, fun a hxu => ?_⟩
      · refine hears (hdisturbed.trans ((Part.frameError_unnoticed ?_ ?_).trans hcounted))
          (stands (Engine.countFrameError_sched _) (Engine.countFrameError_ctl _) (Engine.countFrameError_cyc _)) <;>
          rw [Part.eng_modEng]
        · exact hinternal
        · exact hxu
      · intro a hxu failed hfailed
        refine hears (hdisturbed.trans ((Part.frameError_failed (a := a) ?_ ?_).trans (by rw [hcounted]))) hfailed <;>
          rw [Part.eng_modEng]
        · exact hinternal
        · exact hxu
      · refine hears (hdisturbed.trans ((Part.frameError_skipping (a := a) ?_ ?_).trans (Part.modEng_modEng ..)))
          (stands (Engine.countFrameError_sched _) (Engine.countFrameError_ctl _) (Engine.countFrameError_cyc _)) <;>
          rw [Part.eng_modEng]
        · exact hinternal
        · exact hxu
    case frame =>
      have stores : stopOk = true → ¬ (cs.length = 4 ∧ 96 < value.toNat) →
          heard.takeCharacter l start value stopOk = p.modEng l fun e =>
            { marked (.frame (cs ++ [value])) e with xu := e.xu.character (cs ++ [value]) } := by
        intro hstop hlong
        rw [collects cs hframe, Part.nextCharacter, hpart, if_neg Bool.false_ne_true, hstop, Bool.not_true,
          if_neg Bool.false_ne_true, if_neg (by simpa using hlong)]
        exact Part.modEng_modEng ..
      refine ⟨fun hstop hlength hvalue => ?_, fun hstop hheader hpayload => ?_, fun hstop hother => ?_⟩
      · refine hears ((stores hstop (by omega)).trans ?_) (stands rfl rfl rfl)
        simp only [ExchangeUnit.character_header cs value _ hlength, ExchangeUnit.header_eq] <;> rfl
      · refine hears ((stores hstop (by omega)).trans ?_) (stands rfl rfl rfl)
        simp only [ExchangeUnit.character_payload cs value _ hheader hpayload, ExchangeUnit.payloadByte_eq] <;> rfl
      · refine hears ((stores hstop (by omega)).trans ?_) (stands rfl rfl rfl)
        simp only [ExchangeUnit.character_other cs value _ hother]
        rfl
    · refine hears ?_ (stands rfl rfl rfl)
      unfold Part.takeCharacter
      rw [hreceiver, hdiscard]
      refine Part.modEng_congr l _ _ p ?_
      show marked e.framer.receiver e = _
      rw [hdiscard]
  case sent =>
    have hcan := Engine.hearsCharacter_of_sending hrunning hsending hleft
    have hchar : p.character l value stopOk =
        if stopOk && byteAt x.frame.chars x.readBack == value then p.readBack l x else p.collision l := by
      unfold Part.character
      simp only [show (p.eng l).framer.sending = some x from hsending,
        show (p.eng l).internalReturn = false from hinternal, Bool.false_eq_true, if_false]
    refine ⟨fun hstop hvalue => ?_, fun hbad => ?_⟩
    · refine exec_of_loopStep rfl rfl hlive hcan (hchar.trans (if_pos ?_)) (Part.settled_kept hsettled ?_ ?_ ?_)
      · simp [hstop, hvalue]
      all_goals rw [Part.eng_modEng]
      · exact fun _ => rfl
      · have hx : (p.eng l).framer.sending = some x := hsending
        simp only [Engine.rollcallDue, Engine.isSending, hx]
        exact id
    · have hdrives : e.drivesLine = true := by
        unfold Engine.drivesLine
        rw [hsending, hinternal]
        rfl
      rw [exec_eq_become rfl, exec_eq_become rfl]
      refine congrArg (fun q => Host.Outcome.next (s.become q)) ?_
      refine (Part.loopStep_of hlive hcan).trans (Eq.trans ?_ (Part.loopStep_of (p := p) hlive hdrives).symm)
      rw [hchar, if_neg]
      rcases hbad with h | h <;> simp [h]

end Sys2Proof.Machine
end

