-- ==== Sys2Proof/Proofs/Screens.lean ====
section
/-!
The frame end of a frame that no attempt awaits (R110 to R113, R145), and of one that ends an attempt as a failure or an
overlong reply (R78, R79): what the screens make of it, and the rules they go by.
-/
namespace Sys2Proof.Machine

open Sys2Proof

/-! ### Kinds (R8) -/

theorem FrameKind.ofCode_eq_iff (c : BitVec 4) (k : FrameKind) : FrameKind.ofCode c = k ↔ c = k.code := by
  revert c
  cases k <;> decide

theorem controlKind_eq_iff (c : Byte) (k : FrameKind) : controlKind c = k ↔ c.extractLsb' 0 4 = k.code :=
  FrameKind.ofCode_eq_iff ..

/-! ### The rules of the screens (R111, R112, R145) -/

/-- The station that a source names, if it names one, is the first of those that match. -/
theorem Part.knownSource_eq_some_iff (p : Part) (l : LoopId) (source : Byte) (i : StationIx) :
    p.knownSource l source = some i ↔
      ((p.ctx i).admittedTo l = true ∧ (p.ctx i).binding.direct = true ∧ (p.ctx i).binding.lineAddress = source) ∧
        ∀ j, j < i → ¬ ((p.ctx j).admittedTo l = true ∧ (p.ctx j).binding.direct = true ∧
          (p.ctx j).binding.lineAddress = source) := by
  have hnot : ∀ j, (!((p.ctx j).admittedTo l && (p.ctx j).binding.direct &&
        (p.ctx j).binding.lineAddress == source)) = true ↔
      ¬ ((p.ctx j).admittedTo l = true ∧ (p.ctx j).binding.direct = true ∧
        (p.ctx j).binding.lineAddress = source) := by
    intro j
    rw [Bool.not_eq_true', ← Bool.not_eq_true]
    simp only [Bool.and_eq_true, beq_iff_eq, and_assoc]
  unfold Part.knownSource allStations
  rw [List.find?_eq_some_iff_getElem]
  simp only [hnot, List.getElem_finRange, List.length_finRange]
  simp only [Bool.and_eq_true, beq_iff_eq, and_assoc]
  refine and_congr_right fun _ => and_congr_right fun _ => and_congr_right fun _ => ?_
  constructor
  · rintro ⟨n, hn, rfl, hbefore⟩ j hj
    exact hbefore j.val (by simpa [Fin.lt_def] using hj)
  · intro hbefore
    exact ⟨i.val, i.isLt, by simp, fun j hj => hbefore ⟨j, by omega⟩ (by simpa [Fin.lt_def] using hj)⟩

/-- A property of the station that a source names. -/
theorem Part.knownSource_match_iff (p : Part) (l : LoopId) (source : Byte) (flag : StationIx → Bool) :
    (match p.knownSource l source with
      | some i => flag i
      | none => false) = true ↔ ∃ i, p.knownSource l source = some i ∧ flag i = true := by
  cases p.knownSource l source <;> simp

theorem ScreeningStore.groupListed_announce_iff (s : ScreeningStore) (destination : Byte) :
    s.groupListed .announce destination = true ↔
      ∃ g : Fin 15, destination.toNat = 240 + g.val ∧ s.groups[g].announceAccept = true :=
  s.groupListed_iff .announce destination

theorem ScreeningStore.groupListed_wake_iff (s : ScreeningStore) (destination : Byte) :
    s.groupListed .wake destination = true ↔
      ∃ g : Fin 15, destination.toNat = 240 + g.val ∧ s.groups[g].wake = true :=
  s.groupListed_iff .wake destination

/-- Settles O23: the rules in the order in which they are tried. -/
theorem acceptanceRules : Obligations.AcceptanceRules := by
  intro p l f hits matching found
  have hfound : ∀ i, p.knownSource l f.source = some i ↔ found i := by
    intro i
    rw [Part.knownSource_eq_some_iff]
    simp only [Context.admittedTo_iff, Binding.direct_iff, and_assoc]
    simp only [found, matching, and_assoc]
  have hflag : ∀ flag : StationIx → Bool, (match p.knownSource l f.source with
      | some i => flag i
      | none => false) = true ↔ ∃ i, found i ∧ flag i = true := by
    intro flag
    rw [Part.knownSource_match_iff]
    simp only [hfound]
  refine ⟨?announce, ?wake⟩
  case announce =>
    intro station group allCall
    have hstation : (controlKind f.control == .announce && f.destination == 0 &&
        (match p.knownSource l f.source with
          | some i => (p.ctx i).fresh.acceptAnnounce
          | none => false)) = true ↔ station := by
      rw [Bool.and_eq_true, Bool.and_eq_true, beq_iff_eq, beq_iff_eq, controlKind_eq_iff, hflag, and_assoc]
      rfl
    have hgroup : p.screening.groupListed .announce f.destination = true ↔ group :=
      p.screening.groupListed_announce_iff f.destination
    have hall : (f.destination == 255 && p.screening.wakeConfig.allCallAccept) = true ↔ allCall := by
      rw [Bool.and_eq_true, beq_iff_eq]
    have hrest : ¬ station → ¬ group → ¬ allCall →
        p.announceReason l f hits = if hits.isEmpty then none else some .filter := fun h₁ h₂ h₃ =>
      (if_neg (mt hstation.mp h₁)).trans ((if_neg (mt hgroup.mp h₂)).trans (if_neg (mt hall.mp h₃)))
    refine ⟨fun h => if_pos (hstation.mpr h),
      fun h₁ h₂ => (if_neg (mt hstation.mp h₁)).trans (if_pos (hgroup.mpr h₂)),
      fun h₁ h₂ h₃ => (if_neg (mt hstation.mp h₁)).trans ((if_neg (mt hgroup.mp h₂)).trans (if_pos (hall.mpr h₃))),
      fun h₁ h₂ h₃ hne => (hrest h₁ h₂ h₃).trans (if_neg (mt List.isEmpty_iff.mp hne)),
      fun h₁ h₂ h₃ hnil => (hrest h₁ h₂ h₃).trans (if_pos (List.isEmpty_iff.mpr hnil))⟩
  case wake =>
    intro marker station group allCall
    have hstation : (match p.knownSource l f.source with
        | some i => (p.ctx i).fresh.wake
        | none => false) = true ↔ station := hflag _
    have hgroup : p.screening.groupListed .wake f.destination = true ↔ group :=
      p.screening.groupListed_wake_iff f.destination
    have hall : (f.destination == 255 && p.screening.wakeConfig.wakeAllCall) = true ↔ allCall := by
      rw [Bool.and_eq_true, beq_iff_eq]
    have hrest : ¬ marker → ¬ station → ¬ group → ¬ allCall →
        p.wakeReason l f hits = if hits.isEmpty then none else some .filter := fun h₀ h₁ h₂ h₃ =>
      (if_neg h₀).trans
        ((if_neg (mt hstation.mp h₁)).trans ((if_neg (mt hgroup.mp h₂)).trans (if_neg (mt hall.mp h₃))))
    refine ⟨fun h => if_pos h, fun h₀ h₁ => (if_neg h₀).trans (if_pos (hstation.mpr h₁)),
      fun h₀ h₁ h₂ => (if_neg h₀).trans ((if_neg (mt hstation.mp h₁)).trans (if_pos (hgroup.mpr h₂))),
      fun h₀ h₁ h₂ h₃ => (if_neg h₀).trans
        ((if_neg (mt hstation.mp h₁)).trans ((if_neg (mt hgroup.mp h₂)).trans (if_pos (hall.mpr h₃)))),
      fun h₀ h₁ h₂ h₃ hne => (hrest h₀ h₁ h₂ h₃).trans (if_neg (mt List.isEmpty_iff.mp hne)),
      fun h₀ h₁ h₂ h₃ hnil => (hrest h₀ h₁ h₂ h₃).trans (if_pos (List.isEmpty_iff.mpr hnil))⟩

/-! ### The screens do not depend on the engine (R110) -/

@[simp] theorem Part.knownSource_modEng (l m : LoopId) (f : Engine → Engine) (source : Byte) (p : Part) :
    (p.modEng m f).knownSource l source = p.knownSource l source := by
  unfold Part.knownSource
  simp only [Part.modEng_ctx]

@[simp] theorem Part.triggeredFilters_modEng (l m : LoopId) (f : Engine → Engine) (screen : Screen) (frame : RxFrame)
    (p : Part) : (p.modEng m f).triggeredFilters l screen frame = p.triggeredFilters l screen frame := by
  have hqualifies : ∀ q, (p.modEng m f).qualifies l screen frame q = p.qualifies l screen frame q := by
    intro q
    cases q <;> simp [Part.qualifies]
  unfold Part.triggeredFilters Part.filterMatches
  simp only [hqualifies, Part.modEng_screening]

theorem Part.wakeReason_modEng {l : LoopId} {f : Engine → Engine} {p : Part}
    (h : (f (p.eng l)).cfg = (p.eng l).cfg) (frame : RxFrame) (hits : List (Fin 16)) :
    (p.modEng l f).wakeReason l frame hits = p.wakeReason l frame hits := by
  unfold Part.wakeReason
  simp only [Part.eng_modEng, h, Part.knownSource_modEng, Part.modEng_ctx, Part.modEng_screening]

@[simp] theorem Part.announceReason_modEng (l m : LoopId) (f : Engine → Engine) (frame : RxFrame)
    (hits : List (Fin 16)) (p : Part) :
    (p.modEng m f).announceReason l frame hits = p.announceReason l frame hits := by
  unfold Part.announceReason
  simp only [Part.knownSource_modEng, Part.modEng_ctx, Part.modEng_screening]

theorem Part.modEng_screening_comm (l : LoopId) (f : Engine → Engine) (p : Part) (store : ScreeningStore) :
    { p.modEng l f with screening := store } = Part.modEng l f { p with screening := store } := by cases l <;> rfl

/-! ### The frame end (R11, R78, R80) -/

section FrameEnd
variable {l : LoopId} {p : Part} {cs : List Byte}

theorem Receiver.whole_of {r : Receiver} (h : r = .frame cs) (hwhole : frameComplete cs = true) :
    r.whole = some cs := by
  rw [h, Receiver.whole, if_pos hwhole]

/-- The receiver of the loop hunts for the next frame. -/
def Part.hunting (l : LoopId) (p : Part) : Part :=
  p.modEng l fun e => { e with framer := { e.framer with receiver := .hunt } }

theorem Part.frameEnd_broken (h : (p.eng l).framer.receiver.whole = some cs) (hvalid : frameValid cs = false) :
    p.frameEnd l = (p.hunting l).frameError l true := by
  unfold Part.frameEnd
  rw [h]
  simp only [hvalid, Bool.false_eq_true, if_false]
  rfl

theorem Part.frameEnd_valid (h : (p.eng l).framer.receiver.whole = some cs) (hvalid : frameValid cs = true) :
    p.frameEnd l = (p.hunting l).validFrame l (RxFrame.ofChars cs) := by
  unfold Part.frameEnd
  rw [h]
  simp only [hvalid, if_true]
  rfl

end FrameEnd

end Sys2Proof.Machine
end

