-- ==== Sys2Proof/Proofs/FrameEnds.lean ====
section
/-!
The frame end (R11, R78 to R80, R110, R145): a frame error, a reply that fails its attempt, an overlong reply that
finishes, and a frame that no attempt awaits, with what the screens make of it.
-/
namespace Sys2Proof.Machine

open Sys2Proof

/-! ### The reply kinds of an attempt (R18) -/

theorem AttemptKind.allows_iff (k : AttemptKind) (c : Byte) :
    k.allows (controlKind c) = true ↔ match k with
      | .poll => c.extractLsb' 0 4 = 9 ∨ c.extractLsb' 0 4 = 11 ∨ c.extractLsb' 0 4 = 12
      | .put | .relayStart => c.extractLsb' 0 4 = 10 ∨ c.extractLsb' 0 4 = 11 ∨ c.extractLsb' 0 4 = 12
      | .probe => c.extractLsb' 0 4 = 13 ∨ c.extractLsb' 0 4 = 11
      | .roll => c.extractLsb' 0 4 = 14
      | .test => c.extractLsb' 0 4 = 0
      | .relayCollect => c.extractLsb' 0 4 = 9 ∨ c.extractLsb' 0 4 = 11 := by
  have hcode : ∀ kind : FrameKind, c.extractLsb' 0 4 = kind.code ↔ controlKind c = kind := fun kind =>
    (controlKind_eq_iff c kind).symm
  have h0 := hcode .echo
  have h9 := hcode .data
  have h10 := hcode .ack
  have h11 := hcode .hold
  have h12 := hcode .refuse
  have h13 := hcode .ready
  have h14 := hcode .present
  simp only [FrameKind.code] at h0 h9 h10 h11 h12 h13 h14
  cases k <;> simp only [h0, h9, h10, h11, h12, h13, h14] <;> cases controlKind c <;> decide

section
variable {l : LoopId} {p : Part}

/-- An overlong reply whose last characters are bad has finished (R79). -/
theorem Part.frameError_skipping_end {a : Attempt} (hinternal : (p.eng l).internalReturn = false)
    (hxu : (p.eng l).xu = { state := .skipping, attempt := some a }) :
    p.frameError l true = (p.modEng l Engine.countFrameError).overlongFinished l false := by
  rw [Part.frameError_external hinternal, Part.exchangeError, Part.eng_modEng, Engine.countFrameError_xu, hxu]
  rfl

theorem Part.validFrame_receiving (hinternal : (p.eng l).internalReturn = false)
    (h : (p.eng l).xu.state = .receiving) (f : RxFrame) : p.validFrame l f = p.judgeReply l f := by
  unfold Part.validFrame
  simp only [hinternal, h, Bool.false_eq_true, if_false]

theorem Part.validFrame_skipping (hinternal : (p.eng l).internalReturn = false)
    (h : (p.eng l).xu.state = .skipping) (f : RxFrame) : p.validFrame l f = p.overlongFinished l true := by
  unfold Part.validFrame
  simp only [hinternal, h, Bool.false_eq_true, if_false]

theorem Part.validFrame_unawaited (hinternal : (p.eng l).internalReturn = false)
    (hreceiving : (p.eng l).xu.state ≠ .receiving) (hskipping : (p.eng l).xu.state ≠ .skipping) (f : RxFrame) :
    p.validFrame l f = p.unsolicited l f := by
  unfold Part.validFrame
  rw [hinternal, if_neg Bool.false_ne_true]
  cases h : (p.eng l).xu.state with
  | receiving => exact absurd h hreceiving
  | skipping => exact absurd h hskipping
  | idle | sending | awaiting => rfl

/-- A reply of the wrong destination, source or kind is an attempt failure. -/
theorem Part.judgeReply_wrong {a : Attempt} {f : RxFrame} (ha : (p.eng l).xu.attempt = some a)
    (hwrong : ¬ (f.destination = 0 ∧ f.source = a.source ∧ a.kind.allows (controlKind f.control) = true)) :
    p.judgeReply l f = p.attemptFailed l := by
  unfold Part.judgeReply
  rw [ha]
  dsimp only
  rw [if_neg]
  simpa [and_assoc] using hwrong

/-- The right reply ends the attempt and is judged by its kind. -/
theorem Part.judgeReply_right {a : Attempt} {f : RxFrame} (ha : (p.eng l).xu.attempt = some a)
    (hdestination : f.destination = 0) (hsource : f.source = a.source)
    (hkind : a.kind.allows (controlKind f.control) = true) :
    p.judgeReply l f =
      match a.kind, a.station with
      | .test, _ => (p.endAttempt l).testReturned l f.payload
      | .roll, some i => (p.endAttempt l).rollPresent l i
      | _, some i => (p.endAttempt l).recordReply l a i f
      | _, none => p.endAttempt l := by
  unfold Part.judgeReply
  rw [ha]
  exact (if_pos (by simp [hdestination, hsource, hkind])).trans rfl

end

/-- What a wake by a frame makes of the loop, its receiver hunting. -/
theorem Part.wokenState_hunting (l : LoopId) (record : WakeRecord) (store : ScreeningStore) (p : Part) :
    Part.wokenState l record (Part.hunting l { p with screening := store }) =
      Part.modEng l
        (fun e =>
          { Engine.dropHeld .keepalive { e with framer := { e.framer with receiver := .hunt } } with
            ctl := { e.ctl with state := .starting, retimePending := false, startFromOff := false
                                validated := false }
            cyc := { e.cyc.stop with turn := none, firstCycle := false }
            xu := ExchangeUnit.idle
            sched := e.sched ++ [.readGlobal, .readLoopHost .starting, .startValidate] })
        { p with
          screening := match l with
            | .A => { store with wakeA := some record }
            | .B => { store with wakeB := some record }
          cause := p.cause ||| causeBit l .wake } := by
  simp only [Part.wokenState, Part.hunting, Engine.dropHeld_eq]
  cases l <;> rfl

/-- Settles O21: the frame end by the check, by the state of the Exchange Unit and by the loop state. -/
theorem frameEndJudged : Obligations.FrameEndJudged := by
  intro dt l cs s p e f hunting hits store answers kind allowed erred hlive hinternal hsettled hreceiver hcomplete
  have hwhole : e.framer.receiver.whole = some cs := Receiver.whole_of hreceiver hcomplete
  have ends : ∀ {q : Part}, p.frameEnd l = q → q.settled l = true → answers q :=
    fun hq hs => exec_of_loopStep rfl rfl hlive (by show e.framer.receiver.whole.isSome = true; rw [hwhole]; rfl) hq hs
  have heng : (p.hunting l).eng l = hunting e := Part.eng_modEng ..
  have hunts : (p.hunting l).settled l = true := Part.settled_line hsettled rfl rfl rfl (.inr rfl)
  have hexternal : ((p.hunting l).eng l).internalReturn = false := by rw [heng]; exact hinternal
  have herred : (p.hunting l).modEng l Engine.countFrameError = erred := Part.modEng_modEng ..
  have unsolicited : frameValid cs = true → e.xu.state ≠ .receiving → e.xu.state ≠ .skipping →
      p.frameEnd l = (p.hunting l).unsolicited l f := fun hvalid h₁ h₂ =>
    (Part.frameEnd_valid hwhole hvalid).trans
      (Part.validFrame_unawaited hexternal (by rw [heng]; exact h₁) (by rw [heng]; exact h₂) f)
  have wakes : e.ctl.state = .quiet → (p.hunting l).unsolicited l f =
      match p.wakeReason l f hits with
      | none => Part.hunting l { p with screening := store }
      | some r => Part.wake l { reason := r, source := f.source, destination := f.destination
                                filter := if r = .filter then hits.head? else none
                                triggered := triggeredFlags hits }
                    (Part.hunting l { p with screening := store }) := by
    intro hstate
    have hhits : (p.hunting l).triggeredFilters l .wake f = hits := Part.triggeredFilters_modEng ..
    have hreason : (p.hunting l).wakeReason l f hits = p.wakeReason l f hits :=
      Part.wakeReason_modEng (f := hunting) rfl f hits
    have hstore : { p.hunting l with screening := (p.hunting l).screening.hitAll hits } =
        Part.hunting l { p with screening := store } := by
      rw [Part.hunting, Part.modEng_screening, Part.modEng_screening_comm]
      rfl
    unfold Part.unsolicited
    rw [heng]
    simp only [hunting, show (p.eng l).ctl.state = .quiet from hstate, e]
    unfold Part.wakeScreen
    simp only [hhits, hreason, hstore] <;> cases p.wakeReason l f hits <;> rfl
  have quiet : (p.hunting l).settled l = true → (Part.hunting l { p with screening := store }).settled l = true :=
    fun h => Part.settled_same h (by cases l <;> rfl)
  refine ⟨fun hvalid => ⟨fun hxu => ?_, fun a hxu hs => ?_, fun a hxu hs => ?_⟩, ?_, ?_,
    fun hvalid hreceiving hskipping => ⟨fun hstate => ?_, fun hstate => ⟨fun hreason => ?_, ?_⟩⟩⟩
  · refine ends ((Part.frameEnd_broken hwhole hvalid).trans
      ((Part.frameError_unnoticed hexternal (by rw [heng]; exact hxu)).trans herred)) ?_
    refine Part.settled_line hsettled (Engine.countFrameError_sched _) (Engine.countFrameError_ctl _)
      (Engine.countFrameError_cyc _) (.inr ?_)
    show (hunting e).countFrameError.framer.sending = (hunting e).framer.sending
    rw [Engine.countFrameError_framer]
  · refine ends ((Part.frameEnd_broken hwhole hvalid).trans
      ((Part.frameError_failed hexternal (by rw [heng]; exact hxu)).trans ?_)) hs
    rw [herred]
  · refine ends ((Part.frameEnd_broken hwhole hvalid).trans
      ((Part.frameError_skipping_end hexternal (by rw [heng]; exact hxu)).trans ?_)) hs
    rw [herred]
  · intro a hvalid hxu hwrong failed hfailed
    refine ends ((Part.frameEnd_valid hwhole hvalid).trans
      ((Part.validFrame_receiving hexternal (by rw [heng]; exact congrArg ExchangeUnit.state hxu) f).trans
        (Part.judgeReply_wrong (a := a) (by rw [heng]; exact congrArg ExchangeUnit.attempt hxu) ?_))) hfailed
    rintro ⟨hdestination, hsource, hkind⟩
    rw [AttemptKind.allows_iff] at hkind
    rcases hwrong with h | h | h
    · exact h hdestination
    · exact h hsource
    · exact h hkind
  · intro a hvalid hxu finished hfinished
    exact ends ((Part.frameEnd_valid hwhole hvalid).trans
      (Part.validFrame_skipping hexternal (by rw [heng]; exact congrArg ExchangeUnit.state hxu) f)) hfinished
  · refine ends ((unsolicited hvalid hreceiving hskipping).trans ?_) hunts
    unfold Part.unsolicited
    rw [heng]
    rcases hstate with h | h | h <;> simp only [hunting, h]
    all_goals rfl
  · refine ends ((unsolicited hvalid hreceiving hskipping).trans ((wakes hstate).trans ?_)) (quiet hunts)
    simp only [hreason]
    rfl
  · intro r hreason record filled
    refine ends (q := Part.wokenState l record (Part.hunting l { p with screening := store })) ?_ ?_ |>.trans ?_
    · refine (unsolicited hvalid hreceiving hskipping).trans ((wakes hstate).trans ?_)
      simp only [hreason]
      exact Part.wake_eq (by rw [Part.hunting, Part.modEng_live]; exact hlive)
    · exact Part.settled_wokenState (Part.paused_of_settled (quiet hunts))
    · rw [Part.wokenState_hunting] <;> rfl

/-! ### The announce screen (R111, R118, R119) -/

theorem extractLsb'_zero_eq_setWidth {w : Nat} (x : BitVec w) (n : Nat) : x.extractLsb' 0 n = x.setWidth n := by
  apply BitVec.eq_of_getLsbD_eq
  intro i hi
  simp [hi]

/-- An accepted frame that finds the catch buffer EMPTY. -/
theorem Part.acceptFrame_empty {l : LoopId} {p : Part} (h : (p.eng l).catcher.buffer = none) (f : CatchFrame) :
    p.acceptFrame l f = p.modEng l fun e =>
      { e with catcher := { e.catcher with
          accepted := satInc e.catcher.accepted, buffer := some f
          walk := some (match e.catcher.parked with
            | none => .readHead
            | some k => .readLink k)
          poolBase := e.poolBase, poolSize := e.poolSize } } := by
  unfold Part.acceptFrame
  simp only [h]
  rfl

/-- An accepted frame that finds the catch buffer HELD is a drop. -/
theorem Part.acceptFrame_held {l : LoopId} {p : Part} (h : (p.eng l).catcher.buffer.isSome = true) (f : CatchFrame) :
    p.acceptFrame l f = p.modEng l fun e =>
      { e with
        catcher := { e.catcher with
          accepted := satInc e.catcher.accepted, drops := satInc e.catcher.drops }
        urgent := e.urgent ++ [.writeLoopHalf, .raise .starved] } := by
  obtain ⟨held, h⟩ := Option.isSome_iff_exists.mp h
  unfold Part.acceptFrame
  simp only [h, Part.pushUrgent, Part.modEng_modEng]

/-- Settles O22: the filters are updated, and the frame is accepted into the buffer, dropped or discarded. -/
theorem announceScreen : Obligations.AnnounceScreen := by
  intro dt l cs s p e f hits q hlive hinternal hsettled hreceiver hcomplete hvalid hreceiving hskipping hstate
  have hwhole : e.framer.receiver.whole = some cs := Receiver.whole_of hreceiver hcomplete
  have heng : (p.hunting l).eng l = { e with framer := { e.framer with receiver := .hunt } } := Part.eng_modEng ..
  have hqeng : q.eng l = e := by cases l <;> rfl
  have hframe : p.frameEnd l = (p.hunting l).announceScreen l f := by
    rw [Part.frameEnd_valid hwhole hvalid, Part.validFrame_unawaited (by rw [heng]; exact hinternal)
      (by rw [heng]; exact hreceiving) (by rw [heng]; exact hskipping), Part.unsolicited, heng]
    rcases hstate with h | h | h | h <;> simp only [h] <;> rfl
  have hscreen : p.frameEnd l =
      match p.announceReason l f hits with
      | none => q.hunting l
      | some r => (q.hunting l).acceptFrame l
          { destination := f.destination, source := f.source, control := f.control, payload := f.payload
            reason := r, filter := if r = .filter then hits.head? else none, triggered := triggeredFlags hits
            cycle := e.rep.cycleNumber.setWidth 16 } := by
    have hhits : (p.hunting l).triggeredFilters l .announce f = hits := Part.triggeredFilters_modEng ..
    have hreason : (p.hunting l).announceReason l f hits = p.announceReason l f hits := Part.announceReason_modEng ..
    have hstore : { p.hunting l with screening := (p.hunting l).screening.hitAll hits } = q.hunting l := by
      rw [Part.hunting, Part.modEng_screening, Part.modEng_screening_comm] <;> rfl
    rw [hframe]
    unfold Part.announceScreen
    simp only [hhits, hreason, hstore, heng, extractLsb'_zero_eq_setWidth] <;>
      cases p.announceReason l f hits <;> rfl
  have ends : ∀ {r : Part}, p.frameEnd l = r → r.settled l = true → exec (.frameEnd dt l) s = .next (s.become r) :=
    fun hq hs => exec_of_loopStep rfl rfl hlive (by show e.framer.receiver.whole.isSome = true; rw [hwhole]; rfl) hq hs
  have stands : q.settled l = true := Part.settled_same hsettled hqeng
  refine ⟨fun hreason => ?_, fun r hreason => ⟨fun hbuffer => ?_, fun hbuffer => ?_⟩⟩
  · refine ends ?_ (Part.settled_line stands rfl rfl rfl (.inr rfl))
    rw [hscreen, hreason]
    rfl
  · refine ends ?_ (Part.settled_line stands rfl rfl rfl (.inr rfl))
    rw [hscreen, hreason]
    refine (Part.acceptFrame_empty ?_ _).trans ?_
    · rw [Part.hunting, Part.eng_modEng, hqeng]
      exact hbuffer
    · rw [Part.hunting, Part.modEng_modEng]
      refine Part.modEng_congr l _ _ q ?_
      rw [hqeng] <;> rfl
  · refine ends ?_ (Part.settled_line stands rfl rfl rfl (.inr rfl))
    rw [hscreen, hreason]
    refine (Part.acceptFrame_held ?_ _).trans (Part.modEng_modEng ..)
    rw [Part.hunting, Part.eng_modEng, hqeng]
    exact hbuffer

end Sys2Proof.Machine
end

