-- ==== Sys2Proof/Proofs/Replies.lean ====
section
/-!
Valid replies of a direct station (R82, R84 to R88, R90, R92): the reply as it is taken, with its latency committed, and
what each kind makes of the record.
-/
namespace Sys2Proof.Machine

open Sys2Proof

/-! ### The latency and the trap (R92, R93) -/

theorem Engine.offer_eq (i : StationIx) (latency : BitVec 16) (e : Engine) :
    e.trap.offer e.cfg.trapThreshold i latency (e.rep.cycleNumber.extractLsb' 0 16) =
      (e.trapAfter i latency, decide (e.exceeds latency ∧ e.trap.armed = true)) := by
  unfold TrapSlot.offer Engine.trapAfter
  rw [extractLsb'_zero_eq_setWidth]
  have hexceeds : (e.cfg.trapThreshold != 0 && decide (e.cfg.trapThreshold.toNat < latency.toNat)) =
      decide (e.exceeds latency) := by
    rw [Bool.eq_iff_iff, Bool.and_eq_true, bne_iff_ne, decide_eq_true_eq, decide_eq_true_eq]
  simp only [hexceeds, decide_eq_true_eq]
  by_cases h : e.exceeds latency
  · rw [if_pos h, if_pos h]
    cases e.trap.armed
    · rw [decide_eq_false fun hcaptured => Bool.false_ne_true hcaptured.2]
      rfl
    · rw [decide_eq_true ⟨h, rfl⟩]
      rfl
  · rw [if_neg h, if_neg h, decide_eq_false fun hcaptured => h hcaptured.1]

theorem Engine.trapOps_eq (latency : BitVec 16) (e : Engine) :
    trapOps (decide (e.exceeds latency ∧ e.trap.armed = true)) = e.trapCause latency := by
  unfold trapOps Engine.trapCause
  simp only [decide_eq_true_eq]

/-- The latency of an attempt becomes the record's, and raises the station's largest one (R92). -/
def Context.commit (latency : BitVec 16) (c : Context) : Context :=
  { c with recLatency := latency
           maxLatency := if c.maxLatency.toNat < latency.toNat then latency else c.maxLatency }

theorem Part.commitLatency_eq {l : LoopId} {i : StationIx} {latency : BitVec 16} {p : Part}
    (h : latency.toNat < 65535) :
    p.commitLatency l i latency =
      (Part.modEng l (fun e => { e with trap := e.trapAfter i latency }) (p.modCtx i (Context.commit latency)),
        decide ((p.eng l).exceeds latency ∧ (p.eng l).trap.armed = true)) := by
  have hlatency : latency ≠ 0xFFFF := by
    rintro rfl
    exact absurd h (by decide)
  unfold Part.commitLatency
  dsimp only
  rw [Engine.offer_eq, if_neg hlatency, Part.modCtx_modEng]
  have hoffered : (p.modCtx i (Context.commit latency)).modEng l (fun e => { e with trap := (p.eng l).trapAfter i latency }) =
      (p.modCtx i (Context.commit latency)).modEng l fun e => { e with trap := e.trapAfter i latency } := by
    refine Part.modEng_congr l _ _ _ ?_
    rw [Part.modCtx_eng]
  rw [← hoffered]
  rfl

/-! ### The reply as it is taken (R74, R82) -/

/-- The engine once a valid reply has ended its attempt: the receiver hunts, the unit is IDLE, the cycle is answered and
the turn goes over to its writes, and the latency has been offered to the trap. -/
def Engine.replied (i : StationIx) (latency : BitVec 16) (e : Engine) : Engine :=
  { e with
    framer := { e.framer with receiver := .hunt }
    xu := ExchangeUnit.idle
    cyc := { e.cyc with answered := true, turn := e.cyc.turn.map fun t => { t with stage := .writes } }
    trap := e.trapAfter i latency }

/-- The part once a valid reply to an attempt for station `i` has been taken, with what it makes of the context of the
station. -/
def Part.replyTaken (l : LoopId) (i : StationIx) (latency : BitVec 16) (taken : Context → Context) (p : Part) : Part :=
  Part.modEng l (Engine.replied i latency) (p.modCtx i taken)

/-- The part once such a reply has been judged: the operations that the judgement schedules. -/
def Part.replyJudged (l : LoopId) (i : StationIx) (latency : BitVec 16) (ops : List SchedOp) (taken : Context → Context)
    (p : Part) : Part :=
  Part.modEng l (fun e => { e.replied i latency with sched := ops }) (p.modCtx i taken)

section
variable {l : LoopId} {i : StationIx} {latency : BitVec 16} {taken change : Context → Context} {p : Part}

@[simp] theorem Part.replyTaken_sched : ((p.replyTaken l i latency taken).eng l).sched = (p.eng l).sched := by
  rw [Part.replyTaken, Part.eng_modEng, Part.modCtx_eng]
  rfl

@[simp] theorem Part.replyTaken_ctx : (p.replyTaken l i latency taken).ctx i = taken (p.ctx i) := by
  rw [Part.replyTaken, Part.modEng_ctx, Part.ctx_modCtx]

theorem Part.modCtx_replyTaken :
    (p.replyTaken l i latency taken).modCtx i change = p.replyTaken l i latency fun c => change (taken c) := by
  rw [Part.replyTaken, Part.modCtx_modEng, Part.modCtx_modCtx, Part.replyTaken]

theorem Part.replyTaken_modCtx :
    (p.modCtx i change).replyTaken l i latency taken = p.replyTaken l i latency fun c => taken (change c) := by
  rw [Part.replyTaken, Part.modCtx_modCtx, Part.replyTaken]

theorem Part.mapRelays_replyTaken (f : RelayEntry → Option RelayEntry) :
    (p.replyTaken l i latency taken).mapRelays f = (p.mapRelays f).replyTaken l i latency taken := by
  rw [Part.replyTaken, Part.mapRelays_modEng, Part.mapRelays_modCtx, Part.replyTaken]

theorem Part.sched_replyTaken (ops : List SchedOp) :
    (p.replyTaken l i latency taken).modEng l (fun e => { e with sched := ops }) =
      p.replyJudged l i latency ops taken := by
  rw [Part.replyTaken, Part.modEng_modEng, Part.replyJudged]

theorem Part.replyJudged_congr {ops : List SchedOp} {other : Context → Context}
    (h : taken (p.ctx i) = other (p.ctx i)) :
    p.replyJudged l i latency ops taken = p.replyJudged l i latency ops other :=
  congrArg (Part.modEng l _) (Part.modCtx_congr i taken other p h)

end

/-! ### What a judgement does to the record (R81, R85, R88 to R90) -/

section
variable {l : LoopId} {i : StationIx} {p : Part} {follow : List SchedOp}

theorem Part.completionOf_inHand {k : RecordIx} (h : (p.ctx i).inHand = some k) (outcome : RecordOutcome)
    (payload : List Byte) (flip : SeqFlip) (ends : AfterRecord) :
    p.completionOf i outcome payload flip ends =
      completionOps i k (p.ctx i).notify outcome payload flip ends := by
  unfold Part.completionOf
  rw [h]

theorem Part.push_of_idle {ops : List SchedOp} (h : (p.eng l).sched = []) :
    p.push l ops = p.modEng l fun e => { e with sched := ops } := by
  refine Part.modEng_congr l _ _ p ?_
  rw [h, List.nil_append]

theorem Part.keepRecord_eq (hs : (p.eng l).sched = []) (phase : RecordPhase) :
    p.keepRecord l i phase follow =
      Part.modEng l (fun e => { e with sched := .writeStationHalf i :: follow })
        (p.modCtx i fun c => { c with phase := phase }) := by
  rw [Part.keepRecord, Part.push_of_idle (by rw [Part.modCtx_eng]; exact hs)]

theorem Part.completeRecord_eq {k : RecordIx} (hs : (p.eng l).sched = []) (hk : (p.ctx i).inHand = some k)
    (outcome : RecordOutcome) (payload : List Byte) (flip : SeqFlip) (ends : AfterRecord) :
    p.completeRecord l i outcome payload flip ends follow =
      Part.modEng l
        (fun e =>
          { e with sched := completionOps i k (p.ctx i).notify outcome payload flip ends ++ follow })
        (p.releaseRelay i) := by
  rw [Part.completeRecord, Part.completionOf_inHand hk,
    Part.push_of_idle (by rw [Part.releaseRelay, Part.mapRelays_eng]; exact hs)]

/-- A completion with an outcome other than OK and no payload. -/
theorem completionOps_failed {outcome : RecordOutcome} (h : outcome ≠ .ok) (k : RecordIx) (notify : Bool)
    (flip : SeqFlip) (ends : AfterRecord) :
    completionOps i k notify outcome [] flip ends =
      [.writeResult i k outcome 0, .writeDone i k flip ends, .writeStationHalf i, .raise .exfault] := by
  unfold completionOps completionCauses
  rw [if_neg h]
  rfl

theorem completionOps_ok (k : RecordIx) (notify : Bool) (payload : List Byte) (flip : SeqFlip) :
    completionOps i k notify .ok payload flip .ready =
      (if payload = [] then [] else [.writePayload k payload])
        ++ [.writeResult i k .ok (BitVec.ofNat 8 payload.length), .writeDone i k flip .ready, .writeStationHalf i]
        ++ (if notify then [.raise .exdone] else []) := by
  unfold completionOps completionCauses
  simp only [List.isEmpty_iff, if_true]

end

/-! ### The frame end of a reply to a record's attempt -/

/-- Of a valid reply that a station has, or that its coupler has for it, the latency is committed after the marks of
the reply have been made. -/
theorem Part.commitLatency_heard {l : LoopId} {i j : StationIx} {latency : BitVec 16} {heard : Context → Context}
    {p : Part} (h : latency.toNat < 65535) :
    Part.commitLatency l i latency (Part.modCtx j heard (Part.markAnswered l ((p.hunting l).endAttempt l))) =
      ((p.modCtx j heard).replyTaken l i latency (Context.commit latency),
        decide ((p.eng l).exceeds latency ∧ (p.eng l).trap.armed = true)) := by
  rw [Part.commitLatency_eq h, Part.markAnswered, Part.endAttempt, Part.hunting, Part.modEng_modEng,
    Part.modEng_modEng]
  refine Prod.ext ?_ ?_
  · simp only [Part.modCtx_modEng, Part.modEng_modEng, Part.replyTaken] <;> rfl
  · simp only [Part.modCtx_eng, Part.eng_modEng]

section
variable {l : LoopId} {p : Part} {cs : List Byte} {a : Attempt} {i : StationIx} {latency : BitVec 16}

/-- A valid reply to a record's attempt ends the attempt, and is judged for the record. -/
theorem Part.frameEnd_record (hinternal : (p.eng l).internalReturn = false)
    (hwhole : (p.eng l).framer.receiver.whole = some cs) (hvalid : frameValid cs = true)
    (hxu : (p.eng l).xu = { state := .receiving, attempt := some a }) (hstation : a.station = some i)
    (hdestination : (RxFrame.ofChars cs).destination = 0) (hsource : (RxFrame.ofChars cs).source = a.source)
    (hkind : a.kind.allows (controlKind (RxFrame.ofChars cs).control) = true) (hroll : a.kind ≠ .roll)
    (htest : a.kind ≠ .test) :
    p.frameEnd l = Part.recordReply l a i (RxFrame.ofChars cs) ((p.hunting l).endAttempt l) := by
  have heng : (p.hunting l).eng l = { p.eng l with framer := { (p.eng l).framer with receiver := .hunt } } :=
    Part.eng_modEng ..
  rw [Part.frameEnd_valid hwhole hvalid,
    Part.validFrame_receiving (by rw [heng]; exact hinternal) (by rw [heng]; exact congrArg ExchangeUnit.state hxu),
    Part.judgeReply_right (a := a) (by rw [heng]; exact congrArg ExchangeUnit.attempt hxu) hdestination hsource hkind,
    hstation]
  cases hk : a.kind with
  | roll => exact absurd hk hroll
  | test => exact absurd hk htest
  | _ => rfl

/-- A valid reply to a POLL, PUT or PROBE is judged by its kind after it has been taken. -/
theorem Part.frameEnd_direct (hinternal : (p.eng l).internalReturn = false)
    (hwhole : (p.eng l).framer.receiver.whole = some cs) (hvalid : frameValid cs = true)
    (hxu : (p.eng l).xu = { state := .receiving, attempt := some a }) (hstation : a.station = some i)
    (hlatency : a.latency = some latency) (hlt : latency.toNat < 65535)
    (hdestination : (RxFrame.ofChars cs).destination = 0) (hsource : (RxFrame.ofChars cs).source = a.source)
    (hkind : a.kind.allows (controlKind (RxFrame.ofChars cs).control) = true)
    (hdirect : a.kind = .poll ∨ a.kind = .put ∨ a.kind = .probe) :
    p.frameEnd l =
      Part.judgeDirect l a i (RxFrame.ofChars cs) ((p.eng l).trapCause latency)
        (p.replyTaken l i latency fun c => c.heard.commit latency) := by
  rw [Part.frameEnd_record hinternal hwhole hvalid hxu hstation hdestination hsource hkind
    (by rcases hdirect with h | h | h <;> rw [h] <;> exact AttemptKind.noConfusion)
    (by rcases hdirect with h | h | h <;> rw [h] <;> exact AttemptKind.noConfusion)]
  rcases hdirect with h | h | h <;> rw [Part.recordReply, h, hlatency] <;> dsimp only [Option.getD_some] <;>
    rw [Part.commitLatency_heard hlt, Engine.trapOps_eq, Part.replyTaken_modCtx]

end

theorem Part.judgeDirect_hold {l : LoopId} {a : Attempt} {i : StationIx} {f : RxFrame} {trap : List SchedOp} {p : Part}
    (hhold : controlKind f.control = .hold) (h : a.kind = .poll ∨ a.kind = .put ∨ a.kind = .probe) :
    p.judgeDirect l a i f trap =
      p.holdRecord l i (if a.kind = .poll then .retry else .probe) (trap ++ [.endTurn]) := by
  rw [Part.judgeDirect, hhold]
  rcases h with h | h | h <;> rw [h] <;> rfl

/-- A frame whose last character has come is judged, and that is all, where the procedure stands after it. -/
theorem exec_frameEnd {dt : Nat} {l : LoopId} {cs : List Byte} {s : State} {q : Part}
    (hlive : (s.part.tick dt).live = true) (hwhole : ((s.part.tick dt).eng l).framer.receiver.whole = some cs)
    (hq : (s.part.tick dt).frameEnd l = q) (hsettled : q.settled l = true) :
    exec (.frameEnd dt l) s = .next (s.become q) :=
  exec_of_loopStep rfl rfl hlive
    (by show ((s.part.tick dt).eng l).framer.receiver.whole.isSome = true; rw [hwhole]; rfl) hq hsettled

/-! ### What each judgement makes of the reply taken (R84 to R88) -/

section
variable {l : LoopId} {i : StationIx} {latency : BitVec 16} {taken : Context → Context} {p : Part}
  {follow : List SchedOp}

theorem Part.keepRecord_replyTaken (hs : (p.eng l).sched = []) (phase : RecordPhase) :
    (p.replyTaken l i latency taken).keepRecord l i phase follow =
      p.replyJudged l i latency (.writeStationHalf i :: follow) fun c => { taken c with phase := phase } := by
  rw [Part.keepRecord_eq (by rw [Part.replyTaken_sched]; exact hs), Part.modCtx_replyTaken, Part.sched_replyTaken]

theorem Part.completeRecord_replyTaken {k : RecordIx} (hs : (p.eng l).sched = [])
    (hk : (taken (p.ctx i)).inHand = some k) (outcome : RecordOutcome) (payload : List Byte) (flip : SeqFlip)
    (ends : AfterRecord) :
    (p.replyTaken l i latency taken).completeRecord l i outcome payload flip ends follow =
      (p.releaseRelay i).replyJudged l i latency
        (completionOps i k (taken (p.ctx i)).notify outcome payload flip ends ++ follow) taken := by
  rw [Part.completeRecord_eq (by rw [Part.replyTaken_sched]; exact hs) (by rw [Part.replyTaken_ctx]; exact hk),
    Part.replyTaken_ctx, Part.releaseRelay, Part.mapRelays_replyTaken, Part.sched_replyTaken, Part.releaseRelay]

/-- A HOLD below the limit leaves the record in a phase. -/
theorem Part.holdRecord_below {r : RecordCopy} (hs : (p.eng l).sched = []) (hr : (taken (p.ctx i)).copy = some r)
    (h : r.holdLimit = 0 ∨ satInc (taken (p.ctx i)).recHolds ≠ r.holdLimit) (phase : RecordPhase) :
    (p.replyTaken l i latency taken).holdRecord l i phase follow =
      p.replyJudged l i latency (.writeStationHalf i :: follow) fun c =>
        { taken c with recHolds := satInc (taken c).recHolds, phase := phase } := by
  unfold Part.holdRecord
  dsimp only
  rw [Part.modCtx_replyTaken, if_neg, Part.keepRecord_replyTaken hs]
  simp only [Part.replyTaken_ctx, Context.holdLimit, hr, Bool.and_eq_true, bne_iff_ne, beq_iff_eq]
  rintro ⟨hne, heq⟩
  exact h.elim hne fun hn => hn heq

/-- A HOLD that reaches the limit ends the record HELD. -/
theorem Part.holdRecord_limit {r : RecordCopy} {k : RecordIx} (hs : (p.eng l).sched = [])
    (hr : (taken (p.ctx i)).copy = some r) (hk : (taken (p.ctx i)).inHand = some k) (hlimit : r.holdLimit ≠ 0)
    (h : satInc (taken (p.ctx i)).recHolds = r.holdLimit) (phase : RecordPhase) :
    (p.replyTaken l i latency taken).holdRecord l i phase follow =
      (p.releaseRelay i).replyJudged l i latency
        ([.writeResult i k .held 0, .writeDone i k .none .ready, .writeStationHalf i, .raise .exfault] ++ follow)
        fun c => { taken c with recHolds := satInc (taken c).recHolds } := by
  unfold Part.holdRecord
  dsimp only
  rw [Part.modCtx_replyTaken, if_pos, Part.completeRecord_replyTaken hs (by exact hk),
    completionOps_failed (by decide)]
  simp only [Part.replyTaken_ctx, Context.holdLimit, hr, Bool.and_eq_true, bne_iff_ne, beq_iff_eq]
  exact ⟨hlimit, h⟩

/-- A REFUSE ends the record REFUSED and halts the station. -/
theorem Part.refuseRecord_replyTaken {k : RecordIx} (hs : (p.eng l).sched = [])
    (hk : (taken (p.ctx i)).inHand = some k) :
    (p.replyTaken l i latency taken).refuseRecord l i follow =
      (p.releaseRelay i).replyJudged l i latency
        ([.writeResult i k .refused 0, .writeDone i k .none (.halted .refused), .writeStationHalf i, .raise .exfault,
          .raise .halted] ++ follow) taken := by
  rw [Part.refuseRecord, Part.completeRecord_replyTaken hs hk, completionOps_failed (by decide)]
  rfl

end

/-- Settles O24: the reply is taken, and the record is completed with its payload. -/
theorem replyCompletes : Obligations.ReplyCompletes := by
  intro dt l cs a i k latency s p e c f exceeds completes hlive hinternal hs hreceiver hcomplete hvalid hxu hstation
    hlatency hlt hk hdestination hsource
  have hwhole : e.framer.receiver.whole = some cs := Receiver.whole_of hreceiver hcomplete
  have ends : ∀ {payload : List Byte} {flip : SeqFlip},
      p.frameEnd l = (p.replyTaken l i latency fun c => c.heard.commit latency).completeRecord l i .ok payload flip
        .ready (e.trapCause latency ++ [.endTurn]) → completes payload flip := by
    intro payload flip hframe
    refine exec_frameEnd hlive hwhole (hframe.trans ((Part.completeRecord_replyTaken hs (by exact hk) ..).trans ?_)) ?_
    · rw [completionOps_ok]
      refine Part.modEng_congr l _ _ _ ?_
      simp only [Part.modCtx_eng, Part.releaseRelay, Part.mapRelays_eng, List.append_assoc]
      rfl
    · by_cases hpayload : payload = []
      · exact Part.settled_cons l _ _ _ (by rw [Part.eng_modEng, if_pos hpayload]; rfl) rfl
      · exact Part.settled_cons l _ _ _ (by rw [Part.eng_modEng, if_neg hpayload]; rfl) rfl
  have direct : a.kind.allows (controlKind f.control) = true → a.kind = .poll ∨ a.kind = .put ∨ a.kind = .probe → _ :=
    Part.frameEnd_direct hinternal hwhole hvalid hxu hstation hlatency hlt hdestination hsource
  refine ⟨fun hpoll hkind hseq => ends ?_, fun hput hkind => ends ?_⟩
  · have hdata : controlKind f.control = .data := (controlKind_eq_iff ..).mpr hkind
    rw [direct (by rw [hpoll, hdata]; rfl) (.inl hpoll), Part.judgeDirect, hpoll, hdata]
    exact if_pos hseq
  · have hack : controlKind f.control = .ack := (controlKind_eq_iff ..).mpr hkind
    rw [direct (by rw [hput, hack]; rfl) (.inr (.inl hput)), Part.judgeDirect, hput, hack]

/-- Settles O25: the reply is taken, and the record is kept, held or refused. -/
theorem otherReplies : Obligations.OtherReplies := by
  intro dt l cs a i k latency r s p e c f kind held replied hlive hinternal hs hreceiver hcomplete hvalid hxu hstation
    hlatency hlt hk hr hdestination hsource
  have hwhole : e.framer.receiver.whole = some cs := Receiver.whole_of hreceiver hcomplete
  have hheld : held = satInc c.recHolds := (satInc_byte ..).symm
  have direct : a.kind.allows (controlKind f.control) = true → a.kind = .poll ∨ a.kind = .put ∨ a.kind = .probe → _ :=
    Part.frameEnd_direct hinternal hwhole hvalid hxu hstation hlatency hlt hdestination hsource
  have ends : ∀ {q : Part} {op : SchedOp} {ops : List SchedOp} {last : SchedOp} {change : Context → Context},
      q.eng l = p.eng l → op.transfers = true →
      p.frameEnd l = q.replyJudged l i latency (op :: ops ++ e.trapCause latency ++ [last])
        (fun c => change (c.heard.commit latency)) → replied q (op :: ops) last change := by
    intro q op ops last change heng ht hframe
    refine exec_frameEnd hlive hwhole (hframe.trans (Part.modEng_congr l _ _ _ ?_))
      (Part.settled_cons l _ op _ (by rw [Part.eng_modEng]; rfl) ht)
    rw [Part.modCtx_eng, heng] <;> rfl
  clear_value replied
  have hreleased : (p.releaseRelay i).eng l = p.eng l := Part.mapRelays_eng ..
  have holds : kind = 11 → a.kind = .poll ∨ a.kind = .put ∨ a.kind = .probe → _ := fun hkind hdirect =>
    have hhold : controlKind f.control = .hold := (controlKind_eq_iff ..).mpr hkind
    (direct (by rw [hhold]; rcases hdirect with h | h | h <;> rw [h] <;> rfl) hdirect).trans
      (Part.judgeDirect_hold hhold hdirect)
  refine ⟨fun hpoll hkind hseq => ?dup, fun hkind hdirect => ⟨fun hlimit => ?below, fun hlimit hat => ?limit⟩,
    fun hprobe hkind => ?ready, fun hdirect hkind => ?refuse⟩
  case dup =>
    have hdata : controlKind f.control = .data := (controlKind_eq_iff ..).mpr hkind
    refine ends rfl rfl ((direct (by rw [hpoll, hdata]; rfl) (.inl hpoll)).trans ?_)
    rw [Part.judgeDirect, hpoll, hdata]
    refine (if_neg hseq).trans ?_
    rw [Part.duplicateReply, Part.modCtx_replyTaken, Part.keepRecord_replyTaken hs]
    rfl
  case ready =>
    have hready : controlKind f.control = .ready := (controlKind_eq_iff ..).mpr hkind
    refine ends rfl rfl ((direct (by rw [hprobe, hready]; rfl) (.inr (.inr hprobe))).trans ?_)
    rw [Part.judgeDirect, hprobe, hready]
    exact Part.keepRecord_replyTaken hs ..
  case refuse =>
    have hrefuse : controlKind f.control = .refuse := (controlKind_eq_iff ..).mpr hkind
    refine ends hreleased rfl ((direct ?_ (by tauto)).trans ?_)
    · rcases hdirect with h | h <;> rw [h, hrefuse] <;> rfl
    · refine Eq.trans ?_ (Part.refuseRecord_replyTaken (k := k) hs hk)
      rw [Part.judgeDirect, hrefuse]
      rcases hdirect with h | h <;> rw [h] <;> rfl
  case below =>
    refine ends rfl rfl ((holds hkind hdirect).trans ?_)
    rw [hheld, Part.holdRecord_below hs hr (hheld ▸ hlimit)]
    exact Part.replyJudged_congr rfl
  case limit =>
    refine ends hreleased rfl ((holds hkind hdirect).trans ?_)
    rw [hheld, Part.holdRecord_limit hs hr hk hlimit (hheld ▸ hat)]
    exact Part.replyJudged_congr rfl

end Sys2Proof.Machine
end

