-- ==== Sys2Proof/Proofs/Relays.lean ====
section
/-!
Valid replies of a coupler (R102 to R107): its own marks, the inner outcome of a collect, and what each makes of the
record and of the relay entry.
-/
namespace Sys2Proof.Machine

open Sys2Proof

/-! ### The coupler (R107) -/

theorem couplerIndex_of {coupler : Byte} {j : StationIx} (h : coupler.toNat = j.val) : couplerIndex coupler = some j := by
  have hlt : coupler.toNat < 64 := h ▸ j.isLt
  rw [couplerIndex, dif_pos hlt]
  exact congrArg some (Fin.ext h)

theorem Context.heard_eq_self_iff (c : Context) : c.heard = c ↔ c.failures = 0 ∧ c.syncPending = false := by
  refine ⟨fun h => ⟨(congrArg Context.failures h).symm, (congrArg Context.syncPending h).symm⟩, ?_⟩
  rintro ⟨hfailures, hsync⟩
  unfold Context.heard
  rw [← hfailures, ← hsync]

/-- The write of a coupler's part half, where its valid reply has changed it. -/
def Part.couplerWrite (j : StationIx) (p : Part) : List SchedOp :=
  if (p.ctx j).failures = 0 ∧ (p.ctx j).syncPending = false then [] else [.writeStationHalf j]

theorem Part.couplerHeard_eq {i j : StationIx} {p : Part} (h : (p.ctx i).binding.coupler.toNat = j.val) :
    p.couplerHeard i = (p.modCtx j Context.heard, p.couplerWrite j) := by
  unfold Part.couplerHeard Part.couplerWrite
  rw [couplerIndex_of h]
  simp only [Context.heard_eq_self_iff]

/-- What the marks of a valid reply leave as it is, every context keeps. -/
theorem Part.ctx_heard_keeps {α : Type} (field : Context → α) {i j : StationIx} {p : Part}
    (h : ∀ c : Context, field c.heard = field c) : field ((p.modCtx j Context.heard).ctx i) = field (p.ctx i) := by
  by_cases hij : i = j
  · rw [hij, Part.ctx_modCtx, h]
  · rw [Part.ctx_modCtx_ne j i _ p hij]

/-! ### The inner outcome of a collect (R10, R106) -/

theorem wellFormedCollect_iff (address : Byte) (bs : List Byte) :
    wellFormedCollect address bs = true ↔
      3 ≤ bs.length ∧ (byteAt bs 2).toNat = bs.length - 3 ∧ byteAt bs 0 = address ∧
        (byteAt bs 1).extractLsb' 6 2 = 0 ∧
        ((byteAt bs 1).extractLsb' 0 4 = 0 ∨ (byteAt bs 1).extractLsb' 0 4 = 9 ∨ (byteAt bs 1).extractLsb' 0 4 = 10 ∨
          (byteAt bs 1).extractLsb' 0 4 = 11 ∨ (byteAt bs 1).extractLsb' 0 4 = 12) ∧
        (byteAt bs 2 = 0 ∨ (byteAt bs 1).extractLsb' 0 4 = 9) := by
  unfold wellFormedCollect
  simp only [Bool.and_eq_true, Bool.or_eq_true, decide_eq_true_eq, beq_iff_eq, controlClean_iff, controlKind_eq_iff,
    FrameKind.code]
  tauto

section
variable {l : LoopId} {a : Attempt} {i : StationIx} {follow : List SchedOp} {p : Part}

theorem Part.judgeInner_data (hpolls : (p.ctx i).polls = true) (h : controlKind (byteAt a.buffer 1) = .data) :
    p.judgeInner l a i follow =
      if controlSeq (byteAt a.buffer 1) = a.seq then
        (p.modCtx i Context.heard).completeRecord l i .ok (a.buffer.drop 3) .rx .ready follow
      else ((p.modCtx i Context.heard).releaseRelay i).duplicateReply l i .relayStart follow := by
  unfold Part.judgeInner
  dsimp only
  rw [hpolls, h]

theorem Part.judgeInner_ack (hpolls : (p.ctx i).polls = false) (h : controlKind (byteAt a.buffer 1) = .ack) :
    p.judgeInner l a i follow = (p.modCtx i Context.heard).completeRecord l i .ok [] .tx .ready follow := by
  unfold Part.judgeInner
  dsimp only
  rw [hpolls, h]

theorem Part.judgeInner_hold (h : controlKind (byteAt a.buffer 1) = .hold) :
    p.judgeInner l a i follow = ((p.modCtx i Context.heard).releaseRelay i).holdRecord l i .relayStart follow := by
  unfold Part.judgeInner
  dsimp only
  rw [h]
  cases (p.ctx i).polls <;> rfl

theorem Part.judgeInner_refuse (h : controlKind (byteAt a.buffer 1) = .refuse) :
    p.judgeInner l a i follow = (p.modCtx i Context.heard).refuseRecord l i follow := by
  unfold Part.judgeInner
  dsimp only
  rw [h]
  cases (p.ctx i).polls <;> rfl

/-- NONE and a wrong inner kind fail the attempt. -/
theorem Part.judgeInner_failed
    (h : controlKind (byteAt a.buffer 1) = .echo ∨
      ((p.ctx i).polls = true ∧ controlKind (byteAt a.buffer 1) = .ack) ∨
      ((p.ctx i).polls = false ∧ controlKind (byteAt a.buffer 1) = .data)) :
    p.judgeInner l a i follow = p.failRecord l .relayStart i follow := by
  unfold Part.judgeInner
  dsimp only
  rcases h with h | ⟨hpolls, h⟩ | ⟨hpolls, h⟩
  · rw [h]
    cases (p.ctx i).polls <;> rfl
  · rw [hpolls, h]
  · rw [hpolls, h]

end

theorem Context.polls_eq {c : Context} {r : RecordCopy} (h : c.copy = some r) : c.polls = decide (r.kind = 1) := by
  unfold Context.polls
  rw [h]
  exact beq_eq_decide ..

/-! ### The relay entry of a station (R98 to R105) -/

/-- Releasing a station's entry undoes what a change of that entry alone has done. -/
theorem Part.releaseRelay_mapRelays {i : StationIx} {p : Part} {f : RelayEntry → Option RelayEntry}
    (hother : ∀ x, x.station ≠ i → f x = some x) (hkeeps : ∀ x y, x.station = i → f x = some y → y.station = i) :
    (p.mapRelays f).releaseRelay i = p.releaseRelay i := by
  unfold Part.releaseRelay Part.mapRelays
  refine congrArg (fun relays => { p with relays := relays }) ?_
  dsimp only
  rw [Vector.map_map]
  refine Vector.map_congr_left fun o _ => ?_
  cases o with
  | none => rfl
  | some x =>
    show Option.bind (f x) _ = if x.station = i then none else some x
    by_cases h : x.station = i
    · rw [if_pos h]
      cases hf : f x with
      | none => rfl
      | some y => exact if_pos (hkeeps x y h hf)
    · rw [if_neg h, hother x h]
      exact if_neg h

theorem Part.releaseRelay_releaseRelay (i : StationIx) (p : Part) :
    (p.releaseRelay i).releaseRelay i = p.releaseRelay i :=
  Part.releaseRelay_mapRelays (fun _ h => if_neg h) fun x y h hy => by
    rw [if_pos h] at hy
    nomatch hy

theorem Part.releaseRelay_waitRelay (i : StationIx) (p : Part) :
    (p.waitRelay i).releaseRelay i = p.releaseRelay i :=
  Part.releaseRelay_mapRelays (fun _ h => if_neg h) fun x y h hy => by
    rw [if_pos h] at hy
    exact Option.some.inj hy ▸ h

/-- A HOLD to a collect leaves the start cycle of the entry as it is. -/
theorem Part.relayOf_waitRelay {i : StationIx} {p : Part} {x : RelayEntry} (h : p.relayOf i = some x) :
    (p.waitRelay i).relayOf i = some { x with waiting := satInc x.waiting } := by
  have hmap : (p.waitRelay i).relayOf i = (p.relayOf i).map fun x => { x with waiting := satInc x.waiting } := by
    unfold Part.relayOf Part.waitRelay
    rw [List.map_findSome?]
    refine congrArg (fun g => relayIndexes.findSome? g) (funext fun e => ?_)
    dsimp only [Function.comp]
    rw [Part.mapRelays_relay]
    cases p.relays[e] with
    | none => rfl
    | some y =>
      by_cases hy : y.station = i
      · simp [hy]
      · simp [hy]
  rw [hmap, h]
  rfl

/-! ### The frame end of a coupler's reply -/

/-- The part once a valid reply of the coupler has been taken: the coupler's marks, and the latency of the relayed
station. -/
def Part.couplerTaken (l : LoopId) (i j : StationIx) (latency : BitVec 16) (p : Part) : Part :=
  (p.modCtx j Context.heard).replyTaken l i latency (Context.commit latency)

section
variable {l : LoopId} {p : Part} {cs : List Byte} {a : Attempt} {i j : StationIx} {latency : BitVec 16}
  (hinternal : (p.eng l).internalReturn = false) (hwhole : (p.eng l).framer.receiver.whole = some cs)
  (hvalid : frameValid cs = true) (hxu : (p.eng l).xu = { state := .receiving, attempt := some a })
  (hstation : a.station = some i) (hlatency : a.latency = some latency) (hlt : latency.toNat < 65535)
  (hcoupler : (p.ctx i).binding.coupler.toNat = j.val) (hdestination : (RxFrame.ofChars cs).destination = 0)
  (hsource : (RxFrame.ofChars cs).source = a.source)

theorem Part.couplerHeard_taken (hcoupler : (p.ctx i).binding.coupler.toNat = j.val) :
    (Part.markAnswered l ((p.hunting l).endAttempt l)).couplerHeard i =
      (Part.modCtx j Context.heard (Part.markAnswered l ((p.hunting l).endAttempt l)), p.couplerWrite j) := by
  have hctx : ∀ k, (Part.markAnswered l ((p.hunting l).endAttempt l)).ctx k = p.ctx k := fun k => by
    rw [Part.markAnswered, Part.modEng_ctx, Part.endAttempt, Part.modEng_ctx, Part.hunting, Part.modEng_ctx]
  rw [Part.couplerHeard_eq (by rw [hctx]; exact hcoupler), Part.couplerWrite, hctx, Part.couplerWrite]

include hinternal hwhole hvalid hxu hstation hlatency hlt hcoupler hdestination hsource

/-- The reply to a RELAY_START is judged by its kind. -/
theorem Part.frameEnd_relayStart (hkind : a.kind = .relayStart)
    (hallows : a.kind.allows (controlKind (RxFrame.ofChars cs).control) = true) :
    p.frameEnd l =
      match controlKind (RxFrame.ofChars cs).control with
      | .ack => ((p.couplerTaken l i j latency).collectRelay i).keepRecord l i .relayCollect
          (p.couplerWrite j ++ (p.eng l).trapCause latency ++ [.endTurn])
      | .hold => ((p.couplerTaken l i j latency).releaseRelay i).holdRecord l i .relayStart
          (p.couplerWrite j ++ (p.eng l).trapCause latency ++ [.endTurn])
      | _ => (p.couplerTaken l i j latency).refuseRecord l i
          (p.couplerWrite j ++ (p.eng l).trapCause latency ++ [.endTurn]) := by
  rw [Part.frameEnd_record hinternal hwhole hvalid hxu hstation hdestination hsource hallows
    (by rw [hkind]; exact AttemptKind.noConfusion) (by rw [hkind]; exact AttemptKind.noConfusion),
    Part.recordReply, hkind, hlatency]
  dsimp only [Option.getD_some]
  rw [Part.couplerHeard_taken hcoupler, Part.commitLatency_heard hlt, Engine.trapOps_eq] <;> rfl

/-- A well-formed DATA to a collect is judged by its inner outcome, and a HOLD waits. -/
theorem Part.frameEnd_relayCollect (hkind : a.kind = .relayCollect)
    (hallows : a.kind.allows (controlKind (RxFrame.ofChars cs).control) = true)
    (hformed : controlKind (RxFrame.ofChars cs).control = .data →
      wellFormedCollect (p.ctx i).binding.lineAddress a.buffer = true) :
    p.frameEnd l =
      if controlKind (RxFrame.ofChars cs).control = .data then
        (p.couplerTaken l i j latency).judgeInner l a i
          (p.couplerWrite j ++ (p.eng l).trapCause latency ++ [.endTurn])
      else ((p.couplerTaken l i j latency).waitRelay i).judgePatience l i
        (p.couplerWrite j ++ (p.eng l).trapCause latency ++ [.endTurn]) := by
  have hctx : ((p.hunting l).endAttempt l).ctx i = p.ctx i := by
    rw [Part.endAttempt, Part.modEng_ctx, Part.hunting, Part.modEng_ctx]
  rw [Part.frameEnd_record hinternal hwhole hvalid hxu hstation hdestination hsource hallows
    (by rw [hkind]; exact AttemptKind.noConfusion) (by rw [hkind]; exact AttemptKind.noConfusion),
    Part.recordReply, hkind, hlatency]
  dsimp only [Option.getD_some]
  rw [hctx, if_neg, Part.couplerHeard_taken hcoupler, Part.commitLatency_heard hlt, Engine.trapOps_eq,
    Part.couplerTaken]
  rw [Bool.and_eq_true, Bool.not_eq_true', decide_eq_true_eq]
  rintro ⟨hdata, hbroken⟩
  rw [hformed hdata] at hbroken
  exact Bool.noConfusion hbroken

end

/-! ### Failures and patience of the reply taken (R81, R105) -/

section
variable {l : LoopId} {i : StationIx} {latency : BitVec 16} {taken : Context → Context} {p : Part}
  {follow : List SchedOp} {k : RecordIx}

theorem Part.releaseRelay_replyTaken :
    (p.replyTaken l i latency taken).releaseRelay i = (p.releaseRelay i).replyTaken l i latency taken :=
  Part.mapRelays_replyTaken ..

theorem Part.collectRelay_replyTaken :
    (p.replyTaken l i latency taken).collectRelay i = (p.collectRelay i).replyTaken l i latency taken :=
  Part.mapRelays_replyTaken ..

theorem Part.waitRelay_replyTaken :
    (p.replyTaken l i latency taken).waitRelay i = (p.waitRelay i).replyTaken l i latency taken :=
  Part.mapRelays_replyTaken ..

/-- Below the retry limit the record starts its relay again. -/
theorem Part.failRecord_below (hs : (p.eng l).sched = [])
    (h : (taken (p.ctx i)).failures.toNat + 1 < (taken (p.ctx i)).fresh.retryLimit.toNat) :
    (p.replyTaken l i latency taken).failRecord l .relayStart i follow =
      (p.releaseRelay i).replyJudged l i latency (.writeStationHalf i :: follow) fun c =>
        { taken c with recAttempts := incTo 7 (taken c).recAttempts, failures := (taken c).failures + 1
                       phase := .relayStart } := by
  unfold Part.failRecord
  dsimp only
  rw [Part.replyTaken_ctx, if_neg (by omega), Part.modCtx_replyTaken, Part.releaseRelay_replyTaken,
    Part.keepRecord_replyTaken (by rw [Part.releaseRelay, Part.mapRelays_eng]; exact hs)]

/-- At the retry limit the record ends NO_ANSWER, and the station goes SILENT. -/
theorem Part.failRecord_limit (hs : (p.eng l).sched = []) (hk : (taken (p.ctx i)).inHand = some k)
    (h : (taken (p.ctx i)).fresh.retryLimit.toNat ≤ (taken (p.ctx i)).failures.toNat + 1) (kind : AttemptKind) :
    (p.replyTaken l i latency taken).failRecord l kind i follow =
      (p.releaseRelay i).replyJudged l i latency
        ([.writeResult i k .noAnswer 0, .writeDone i k .none .silent, .writeStationHalf i, .raise .exfault] ++ follow)
        fun c => { taken c with recAttempts := incTo 7 (taken c).recAttempts, failures := 0 } := by
  unfold Part.failRecord
  dsimp only
  rw [Part.replyTaken_ctx, if_pos h, Part.modCtx_replyTaken, Part.modCtx_replyTaken,
    Part.completeRecord_replyTaken hs (by exact hk), completionOps_failed (by decide)]

end

/-! ### Patience (R104, R105) -/

section
variable {l : LoopId} {i : StationIx} {latency : BitVec 16} {taken : Context → Context} {p : Part}
  {follow : List SchedOp} {x : RelayEntry}

theorem Part.relayAge_replyTaken (hx : p.relayOf i = some x) :
    (p.replyTaken l i latency taken).relayAge l i = ((p.eng l).rep.cycleNumber - x.startCycle).toNat := by
  have hrelays : (p.replyTaken l i latency taken).relays = p.relays := by
    rw [Part.replyTaken, Part.modEng_relays, Part.modCtx_relays]
  have heng : (p.replyTaken l i latency taken).eng l = (p.eng l).replied i latency := by
    rw [Part.replyTaken, Part.eng_modEng, Part.modCtx_eng]
  have hof : (p.replyTaken l i latency taken).relayOf i = some x := by
    rw [Part.relayOf, hrelays]
    exact hx
  rw [Part.relayAge, hof, heng]
  rfl

/-- While patience lasts, the record stays in RELAY_COLLECT. -/
theorem Part.judgePatience_lasts (hs : (p.eng l).sched = []) (hx : p.relayOf i = some x)
    (h : ((p.eng l).rep.cycleNumber - x.startCycle).toNat < (taken (p.ctx i)).fresh.patience.toNat) :
    (p.replyTaken l i latency taken).judgePatience l i follow =
      p.replyJudged l i latency (.writeStationHalf i :: follow) fun c => { taken c with phase := .relayCollect } := by
  rw [Part.judgePatience, Part.relayAge_replyTaken hx, Part.replyTaken_ctx, if_neg (by omega),
    Part.keepRecord_replyTaken hs]

/-- When patience is over, the record ends RELAY_LOST. -/
theorem Part.judgePatience_over {k : RecordIx} (hs : (p.eng l).sched = []) (hk : (taken (p.ctx i)).inHand = some k)
    (hx : p.relayOf i = some x)
    (h : (taken (p.ctx i)).fresh.patience.toNat ≤ ((p.eng l).rep.cycleNumber - x.startCycle).toNat) :
    (p.replyTaken l i latency taken).judgePatience l i follow =
      (p.releaseRelay i).replyJudged l i latency
        ([.writeResult i k .relayLost 0, .writeDone i k .none .ready, .writeStationHalf i, .raise .exfault] ++ follow)
        taken := by
  rw [Part.judgePatience, Part.relayAge_replyTaken hx, Part.replyTaken_ctx, if_pos h,
    Part.completeRecord_replyTaken hs hk, completionOps_failed (by decide)]

end

/-- Settles O26: the coupler's reply is taken, and its inner outcome judged for the relayed station. -/
theorem collectReply : Obligations.CollectReply := by
  intro dt l cs a i j k latency r s p e c f b inner kind held coupler replied heard completes hlive hinternal hs
    hreceiver hcomplete hvalid hxu hcollect hstation hlatency hlt hk hr hcoupler hdestination hsource hdata hlength
    hcount haddress hclean
  have hwhole : e.framer.receiver.whole = some cs := Receiver.whole_of hreceiver hcomplete
  have hheld : held = satInc c.recHolds := (satInc_byte ..).symm
  have hdata : controlKind f.control = .data := (controlKind_eq_iff ..).mpr hdata
  have innerKind : ∀ {x : FrameKind}, kind = x.code → controlKind (byteAt a.buffer 1) = x :=
    (controlKind_eq_iff ..).mpr
  -- the coupler's marks leave the record's fields as they are
  let q : Part := p.modCtx j Context.heard
  have hqs : (q.eng l).sched = [] := by rw [Part.modCtx_eng]; exact hs
  have hrs : ((q.releaseRelay i).eng l).sched = [] := by rw [Part.releaseRelay, Part.mapRelays_eng]; exact hqs
  have hqk : (q.ctx i).inHand = some k := (Part.ctx_heard_keeps Context.inHand fun _ => rfl).trans hk
  have hqr : (q.ctx i).copy = some r := (Part.ctx_heard_keeps Context.copy fun _ => rfl).trans hr
  have hqholds : (q.ctx i).recHolds = c.recHolds :=
    Part.ctx_heard_keeps Context.recHolds fun _ => rfl
  have hpolls : ((p.couplerTaken l i j latency).ctx i).polls = decide (r.kind = 1) :=
    Context.polls_eq (by rw [Part.couplerTaken, Part.replyTaken_ctx]; exact hqr)
  have hreleased : (q.releaseRelay i).releaseRelay i = q.releaseRelay i := Part.releaseRelay_releaseRelay ..
  have hctx : ∀ m, (q.releaseRelay i).ctx m = q.ctx m := fun m => Part.mapRelays_ctx ..
  have judged : wellFormedCollect (p.ctx i).binding.lineAddress a.buffer = true → p.frameEnd l =
      (p.couplerTaken l i j latency).judgeInner l a i (coupler ++ e.trapCause latency ++ [.endTurn]) := fun hformed =>
    (Part.frameEnd_relayCollect hinternal hwhole hvalid hxu hstation hlatency hlt hcoupler hdestination hsource hcollect
      (by rw [hcollect, hdata]; rfl) fun _ => hformed).trans (if_pos hdata)
  have formed : (kind = 0 ∨ kind = 9 ∨ kind = 10 ∨ kind = 11 ∨ kind = 12) → (b.length = 3 ∨ kind = 9) →
      wellFormedCollect (p.ctx i).binding.lineAddress a.buffer = true := fun hkind hempty =>
    (wellFormedCollect_iff ..).mpr ⟨hlength, hcount, haddress, hclean, hkind,
      hempty.imp_left fun h => BitVec.eq_of_toNat_eq (by rw [hcount, h]; rfl)⟩
  have ends : ∀ {ops : List SchedOp} {change : Context → Context},
      (∃ op rest, ops = op :: rest ∧ op.transfers = true) →
      p.frameEnd l = (q.releaseRelay i).replyJudged l i latency
        (ops ++ (coupler ++ e.trapCause latency ++ [.endTurn])) (fun c => change (c.commit latency)) →
      replied ops change := by
    rintro ops change ⟨op, rest, rfl, ht⟩ hframe
    refine exec_frameEnd hlive hwhole (hframe.trans ?_)
      (Part.settled_cons l _ op _ (by rw [Part.eng_modEng]; rfl) ht)
    rw [Part.replyJudged, Part.releaseRelay, Part.mapRelays_modCtx]
    refine Part.modEng_congr l _ _ _ ?_
    simp only [Part.modCtx_eng, Part.mapRelays_eng, List.append_assoc]
    rfl
  have completed : ∀ {payload : List Byte} {flip : SeqFlip},
      p.frameEnd l = ((p.couplerTaken l i j latency).modCtx i Context.heard).completeRecord l i .ok payload flip .ready
        (coupler ++ e.trapCause latency ++ [.endTurn]) → completes payload flip := by
    intro payload flip hframe
    refine ends ?_ ?_
    · by_cases hpayload : payload = []
      · exact ⟨_, _, by rw [if_pos hpayload]; rfl, rfl⟩
      · exact ⟨_, _, by rw [if_neg hpayload]; rfl, rfl⟩
    · rw [hframe, Part.couplerTaken, Part.modCtx_replyTaken, Part.completeRecord_replyTaken hqs (by exact hqk),
        completionOps_ok,
        show ((q.ctx i).commit latency).heard.notify = c.notify from
          Part.ctx_heard_keeps Context.notify fun _ => rfl]
      rfl
  clear_value completes
  clear_value replied
  refine ⟨fun hpoll hkind hseq => ?ok, fun hput hkind hempty => ?ack, fun hpoll hkind hseq => ?dup,
    fun hkind hempty => ⟨fun hlimit => ?below, fun hlimit hat => ?limit⟩, fun hkind hempty => ?refuse,
    fun hkind hij => ?failed⟩
  case ok =>
    refine completed ((judged (formed (.inr (.inl hkind)) (.inr hkind))).trans ?_)
    rw [Part.judgeInner_data (hpolls.trans (decide_eq_true hpoll)) (innerKind (x := .data) hkind)]
    exact if_pos hseq
  case ack =>
    refine completed ((judged (formed (.inr (.inr (.inl hkind))) (.inl hempty))).trans ?_)
    rw [Part.judgeInner_ack (hpolls.trans (decide_eq_false hput)) (innerKind (x := .ack) hkind)]
  case dup =>
    refine ends ⟨_, _, rfl, rfl⟩ ((judged (formed (.inr (.inl hkind)) (.inr hkind))).trans ?_)
    rw [Part.judgeInner_data (hpolls.trans (decide_eq_true hpoll)) (innerKind (x := .data) hkind)]
    refine (if_neg hseq).trans ?_
    rw [Part.couplerTaken, Part.modCtx_replyTaken, Part.releaseRelay_replyTaken, Part.duplicateReply,
      Part.modCtx_replyTaken, Part.keepRecord_replyTaken hrs]
    rfl
  case below =>
    refine ends ⟨_, _, rfl, rfl⟩ ((judged (formed (.inr (.inr (.inr (.inl hkind)))) (.inl hempty))).trans ?_)
    rw [Part.judgeInner_hold (innerKind (x := .hold) hkind), Part.couplerTaken, Part.modCtx_replyTaken,
      Part.releaseRelay_replyTaken, Part.holdRecord_below hrs (by rw [hctx]; exact hqr)
        (by rw [hctx]; exact hqholds ▸ hheld ▸ hlimit)]
    exact Part.replyJudged_congr (by rw [hctx, hheld, ← hqholds]; rfl)
  case limit =>
    refine ends ⟨_, _, rfl, rfl⟩ ((judged (formed (.inr (.inr (.inr (.inl hkind)))) (.inl hempty))).trans ?_)
    rw [Part.judgeInner_hold (innerKind (x := .hold) hkind), Part.couplerTaken, Part.modCtx_replyTaken,
      Part.releaseRelay_replyTaken, Part.holdRecord_limit hrs (by rw [hctx]; exact hqr) (by rw [hctx]; exact hqk)
        hlimit (by rw [hctx]; exact hqholds ▸ hheld ▸ hat), hreleased]
    exact Part.replyJudged_congr (by rw [hctx, hheld, ← hqholds]; rfl)
  case refuse =>
    refine ends ⟨_, _, rfl, rfl⟩ ((judged (formed (.inr (.inr (.inr (.inr hkind)))) (.inl hempty))).trans ?_)
    rw [Part.judgeInner_refuse (innerKind (x := .refuse) hkind), Part.couplerTaken, Part.modCtx_replyTaken,
      Part.refuseRecord_replyTaken hqs (by exact hqk)]
    rfl
  case failed =>
    have hqctx : q.ctx i = c := Part.ctx_modCtx_ne j i _ p hij
    have hframe : p.frameEnd l = (p.couplerTaken l i j latency).failRecord l .relayStart i
        (coupler ++ e.trapCause latency ++ [.endTurn]) := by
      refine (judged (formed (by tauto) (by tauto))).trans (Part.judgeInner_failed ?_)
      rw [hpolls, decide_eq_true_eq, decide_eq_false_iff_not]
      exact hkind.imp (fun h => innerKind (x := .echo) h.1)
        (Or.imp (fun h => ⟨h.1, innerKind (x := .ack) h.2.1⟩) (fun h => ⟨h.1, innerKind (x := .data) h.2⟩))
    intro attempts
    refine ⟨fun hbelow => ends ⟨_, _, rfl, rfl⟩ (hframe.trans ?_), fun hlimit => ends ⟨_, _, rfl, rfl⟩ (hframe.trans ?_)⟩
    · rw [Part.couplerTaken, Part.failRecord_below hqs (by rw [hqctx]; exact hbelow)]
      rfl
    · rw [Part.couplerTaken, Part.failRecord_limit hqs (by exact hqk) (by rw [hqctx]; exact hlimit)]
      rfl

/-- Settles O27: the coupler's reply is taken, and the relay entry starts collecting, waits or is freed. -/
theorem relayReplies : Obligations.RelayReplies := by
  intro dt l cs a i j k latency r s p e c f b kind inner innerKind held coupler entry replied hlive hinternal hs
    hreceiver hcomplete hvalid hxu hstation hlatency hlt hk hr hcoupler hdestination hsource
  have hwhole : e.framer.receiver.whole = some cs := Receiver.whole_of hreceiver hcomplete
  have hheld : held = satInc c.recHolds := (satInc_byte ..).symm
  have hkindOf : ∀ {x : FrameKind}, kind = x.code → controlKind f.control = x := (controlKind_eq_iff ..).mpr
  let q : Part := p.modCtx j Context.heard
  have hmapped : ∀ g, ((q.mapRelays g).eng l).sched = [] := fun g => by
    rw [Part.mapRelays_eng, Part.modCtx_eng]; exact hs
  have hqs : (q.eng l).sched = [] := by rw [Part.modCtx_eng]; exact hs
  have hqeng : q.eng l = e := Part.modCtx_eng ..
  have hqk : (q.ctx i).inHand = some k := (Part.ctx_heard_keeps Context.inHand fun _ => rfl).trans hk
  have hqr : (q.ctx i).copy = some r := (Part.ctx_heard_keeps Context.copy fun _ => rfl).trans hr
  have hqholds : (q.ctx i).recHolds = c.recHolds := Part.ctx_heard_keeps Context.recHolds fun _ => rfl
  have hqfresh : (q.ctx i).fresh = c.fresh := Part.ctx_heard_keeps Context.fresh fun _ => rfl
  have hctx : ∀ g m, (q.mapRelays g).ctx m = q.ctx m := fun g m => Part.mapRelays_ctx ..
  have hreleased : (q.releaseRelay i).releaseRelay i = q.releaseRelay i := Part.releaseRelay_releaseRelay ..
  have ends : ∀ {change : RelayEntry → Option RelayEntry} {ops : List SchedOp} {last : Context → Context},
      (∃ op rest, ops = op :: rest ∧ op.transfers = true) →
      p.frameEnd l = Part.replyJudged l i latency (ops ++ (coupler ++ e.trapCause latency ++ [.endTurn]))
        (fun c => last (c.commit latency)) (q.mapRelays fun x => if x.station = i then change x else some x) →
      replied (entry change) ops last := by
    rintro change ops last ⟨op, rest, rfl, ht⟩ hframe
    refine exec_frameEnd hlive hwhole (hframe.trans ?_)
      (Part.settled_cons l _ op _ (by rw [Part.eng_modEng]; rfl) ht)
    rw [Part.replyJudged, Part.mapRelays_modCtx]
    refine Part.modEng_congr l _ _ _ ?_
    simp only [Part.modCtx_eng, Part.mapRelays_eng, List.append_assoc]
    rfl
  clear_value replied
  have started : a.kind = .relayStart → a.kind.allows (controlKind f.control) = true → _ :=
    Part.frameEnd_relayStart hinternal hwhole hvalid hxu hstation hlatency hlt hcoupler hdestination hsource
  refine ⟨fun hstart => ⟨fun hkind => ?ack, fun hkind hlimit => ?below, fun hkind hlimit hat => ?limit,
    fun hkind => ?refuse⟩, fun hcollect => ⟨fun x hkind hx => ?waits, fun hkind hbroken => ?broken⟩⟩
  case waits =>
    intro age
    have hhold : controlKind f.control = .hold := hkindOf (x := .hold) hkind
    have hqx : q.relayOf i = some x := by
      rw [Part.relayOf, Part.modCtx_relays]
      exact hx
    have hframe : p.frameEnd l = ((p.couplerTaken l i j latency).waitRelay i).judgePatience l i
        (coupler ++ e.trapCause latency ++ [.endTurn]) :=
      (Part.frameEnd_relayCollect hinternal hwhole hvalid hxu hstation hlatency hlt hcoupler hdestination hsource
        hcollect (by rw [hcollect, hhold]; rfl) fun h => absurd (hhold.symm.trans h) FrameKind.noConfusion).trans
        (if_neg fun h => absurd (hhold.symm.trans h) FrameKind.noConfusion)
    have hws : ((q.waitRelay i).eng l).sched = [] := hmapped _
    have hage : (((q.waitRelay i).eng l).rep.cycleNumber - x.startCycle).toNat = age := by
      rw [Part.waitRelay, Part.mapRelays_eng, hqeng]
    have hpatience : (Context.commit latency ((q.waitRelay i).ctx i)).fresh.patience = c.fresh.patience := by
      rw [Part.waitRelay, hctx]
      exact congrArg Fresh.patience hqfresh
    refine ⟨fun hlasts => ends ⟨_, _, rfl, rfl⟩ (hframe.trans ?_), fun hover => ends ⟨_, _, rfl, rfl⟩ (hframe.trans ?_)⟩
    · rw [Part.couplerTaken, Part.waitRelay_replyTaken,
        Part.judgePatience_lasts hws (Part.relayOf_waitRelay hqx) (by rw [hpatience]; exact hage.trans_lt hlasts)]
      simp only [Part.waitRelay, satInc_byte]
      rfl
    · rw [Part.couplerTaken, Part.waitRelay_replyTaken,
        Part.judgePatience_over hws (by rw [Part.waitRelay, hctx]; exact hqk)
          (Part.relayOf_waitRelay hqx)
          (by rw [hpatience]; exact hover.trans_eq hage.symm), Part.releaseRelay_waitRelay]
      rfl
  case broken =>
    intro failed hsettled
    have hdata : controlKind f.control = .data := hkindOf (x := .data) hkind
    have hctx : ((p.hunting l).endAttempt l).ctx i = p.ctx i := by
      rw [Part.endAttempt, Part.modEng_ctx, Part.hunting, Part.modEng_ctx]
    have hformed : wellFormedCollect (p.ctx i).binding.lineAddress a.buffer = false :=
      Bool.eq_false_iff.mpr fun h => hbroken ((wellFormedCollect_iff ..).mp h)
    have hattempt : ((p.hunting l).eng l).xu.attempt = some a := by
      rw [Part.hunting, Part.eng_modEng]
      exact congrArg ExchangeUnit.attempt hxu
    refine exec_frameEnd hlive hwhole ?_ hsettled
    rw [Part.frameEnd_record hinternal hwhole hvalid hxu hstation hdestination hsource
      (by rw [hcollect, hdata]; rfl) (by rw [hcollect]; exact AttemptKind.noConfusion)
      (by rw [hcollect]; exact AttemptKind.noConfusion), Part.recordReply, hcollect]
    dsimp only
    rw [hctx, hdata, hformed]
    show _ = Part.attemptFailed l (p.hunting l)
    rw [Part.attemptFailed, hattempt]
    dsimp only
    rw [hcollect, hstation]
    rfl
  case ack =>
    have hack : controlKind f.control = .ack := hkindOf (x := .ack) hkind
    refine ends ⟨_, _, rfl, rfl⟩ ((started hstart (by rw [hstart, hack]; rfl)).trans ?_)
    rw [hack]
    dsimp only
    rw [Part.couplerTaken, Part.collectRelay_replyTaken, Part.keepRecord_replyTaken (by exact hmapped _)]
    rfl
  case below =>
    have hhold : controlKind f.control = .hold := hkindOf (x := .hold) hkind
    refine ends ⟨_, _, rfl, rfl⟩ ((started hstart (by rw [hstart, hhold]; rfl)).trans ?_)
    rw [hhold]
    dsimp only
    rw [Part.couplerTaken, Part.releaseRelay_replyTaken, Part.holdRecord_below (by exact hmapped _)
      (by rw [Part.releaseRelay, hctx]; exact hqr)
      (by rw [Part.releaseRelay, hctx]; exact hqholds ▸ hheld ▸ hlimit)]
    exact Part.replyJudged_congr (by rw [Part.releaseRelay, hctx, hheld, ← hqholds]; rfl)
  case limit =>
    have hhold : controlKind f.control = .hold := hkindOf (x := .hold) hkind
    refine ends ⟨_, _, rfl, rfl⟩ ((started hstart (by rw [hstart, hhold]; rfl)).trans ?_)
    rw [hhold]
    dsimp only
    rw [Part.couplerTaken, Part.releaseRelay_replyTaken, Part.holdRecord_limit (by exact hmapped _)
      (by rw [Part.releaseRelay, hctx]; exact hqr) (by rw [Part.releaseRelay, hctx]; exact hqk) hlimit
      (by rw [Part.releaseRelay, hctx]; exact hqholds ▸ hheld ▸ hat), hreleased]
    exact Part.replyJudged_congr (by rw [Part.releaseRelay, hctx, hheld, ← hqholds]; rfl)
  case refuse =>
    have hrefuse : controlKind f.control = .refuse := hkindOf (x := .refuse) hkind
    refine ends ⟨_, _, rfl, rfl⟩ ((started hstart (by rw [hstart, hrefuse]; rfl)).trans ?_)
    rw [hrefuse]
    dsimp only
    rw [Part.couplerTaken, Part.refuseRecord_replyTaken hqs (by exact hqk)]
    rfl

end Sys2Proof.Machine
end

