-- ==== Sys2Proof/Proofs/TestFrames.lean ====
section
/-!
Test frames (R151 to R155): the frames of INTERNAL_RETURN as they are fed, and the frames returned as they are judged.
-/
namespace Sys2Proof.Machine

open Sys2Proof

/-! ### The counts of a test (R152, R154) -/

/-- The bytes of a test frame that differ from the frame returned, counted place by place. -/
theorem mismatches_eq (copy payload : List Byte) :
    mismatches copy payload = ((List.range copy.length).filter fun n => copy[n]? != payload[n]?).length := by
  induction copy generalizing payload with
  | nil => rfl
  | cons c cs ih =>
    have hrest : ((List.range cs.length).map Nat.succ).filter (fun n => (c :: cs)[n]? != payload[n]?) =
        ((List.range cs.length).filter fun n => cs[n]? != payload.tail[n]?).map Nat.succ := by
      rw [List.filter_map]
      refine congrArg (List.map Nat.succ) (List.filter_congr fun n _ => ?_)
      cases payload <;> rfl
    rw [List.length_cons, List.range_succ_eq_map, List.filter_cons, hrest]
    cases payload with
    | nil =>
      have hall : mismatches cs [] = cs.length := by cases cs <;> rfl
      rw [ih []] at hall
      have hfirst : ((c :: cs)[0]? != ([] : List Byte)[0]?) = true := rfl
      rw [if_pos hfirst, List.length_cons, List.length_map]
      exact congrArg (· + 1) hall.symm
    | cons r rs =>
      rw [mismatches, ih rs]
      by_cases h : c = r
      · simp [h]
      · simp [h, Nat.add_comm]

/-- The same count, as the statements write it. -/
theorem differ_eq (copy payload : List Byte) :
    ((List.range copy.length).filter fun n => copy[n]? ≠ payload[n]?).length = mismatches copy payload := by
  rw [mismatches_eq]
  refine congrArg List.length (List.filter_congr fun n _ => ?_)
  rw [Bool.eq_iff_iff, decide_eq_true_iff, bne_iff_ne]

theorem addMismatched_eq (mode : Byte) (x : BitVec 16) (n : Nat) :
    addMismatched mode x n =
      if mode = 1 then x + BitVec.ofNat 16 n else BitVec.ofNat 16 (min 65535 (x.toNat + n)) := by
  unfold addMismatched
  refine if_congr Iff.rfl rfl ?_
  split
  · next h => rw [Nat.min_eq_right (by omega)]
  · next h => rw [Nat.min_eq_left (by omega)]; rfl

/-! ### Events that cannot happen -/

theorem Part.loopStep_of_cannot {l : LoopId} {p : Part} {can : Part → Bool} {f : Part → Part} (h : can p = false) :
    p.loopStep l can f = p := by
  rw [Part.loopStep, Part.loopEvent, h, Bool.and_false, if_neg Bool.false_ne_true]

/-- An event whose condition does not hold answers that nothing has changed. -/
theorem exec_of_cannot {c : Instr} {s : State} {l : LoopId} {can : Part → Bool} {f : Part → Part}
    (hmem : commandMemory c s = s.mem)
    (hwork : commandWork c s (s.part.tick (commandTime c)) = (s.part.tick (commandTime c)).loopStep l can f)
    (hcannot : can (s.part.tick (commandTime c)) = false) :
    exec c s = .next (s.become (s.part.tick (commandTime c))) := by
  rw [exec_eq_become hmem, hwork, Part.loopStep_of_cannot hcannot]

/-! ### The end of a test frame's attempt (R74, R154) -/

/-- A drop of the catch frame leaves alone what does not concern the catch. -/
theorem Part.catchDropped_modEng {l : LoopId} {f : Engine → Engine} {p : Part}
    (hkeeps : ∀ e c, f { e with catcher := c } = { f e with catcher := c })
    (hcatcher : (f (p.eng l)).catcher = (p.eng l).catcher) :
    (p.modEng l f).catchDropped l = (p.catchDropped l).modEng l f := by
  unfold Part.catchDropped
  rw [Part.eng_modEng, Part.modEng_port, hcatcher]
  dsimp only
  split_ifs
  · rfl
  · have hport : ∀ x, { p.modEng l f with port := x } = Part.modEng l f { p with port := x } := by
      cases l <;> exact fun _ => rfl
    rw [hport, Part.modEng_modEng, Part.modEng_modEng]
    refine Part.modEng_congr l _ _ _ ?_
    have heng : ∀ x, ({ p with port := x } : Part).eng l = p.eng l := by cases l <;> exact fun _ => rfl
    rw [heng, hcatcher]
    exact (hkeeps ..).symm


/-- Only the attempt of a test frame goes with its end, so the next frame is as if it had not been there. -/
theorem Part.testGoesOn_endAttempt {l : LoopId} {u : TestUnit} {p : Part} (hturn : (p.eng l).cyc.turn = none)
    (hmode : (p.eng l).cfg.testMode = 1) : (p.endAttempt l).testGoesOn l u = p.testGoesOn l u := by
  have hsame : p.endAttempt l = p.modEng l fun e => { e with xu := ExchangeUnit.idle } := by
    refine Part.modEng_congr l _ _ p ?_
    rw [CycleScheduler.turnWrites, hturn]
    refine congrArg (fun c => { p.eng l with xu := ExchangeUnit.idle, cyc := c }) ?_
    rw [Option.map_none, ← hturn]
  have hunit : ∀ u, { p.endAttempt l with testUnit := u } =
      Part.modEng l (fun e => { e with xu := ExchangeUnit.idle }) { p with testUnit := u } := fun u => by
    rw [hsame, Part.modEng_testUnit_comm]
  have heng : ∀ u : TestUnit, ({ p with testUnit := u }).eng l = p.eng l := by cases l <;> exact fun _ => rfl
  have hxu : (p.endAttempt l).eng l = { p.eng l with xu := ExchangeUnit.idle } := by
    rw [hsame, Part.eng_modEng]
  unfold Part.testGoesOn
  rw [hxu]
  dsimp only
  refine if_congr Iff.rfl ?_ ?_
  · rw [hunit, Part.offState, Part.catchDropped_modEng (fun _ _ => rfl) rfl]
    simp only [Part.modEng_testUnit, Part.modEng_testUnit_comm, Part.modEng_modEng] <;> rfl
  · rw [hunit, Part.modEng_modEng]
    refine Part.modEng_congr l _ _ _ ?_
    simp only [heng, hmode, if_true, hsame, Part.modEng_now]

/-! ### The frames returned (R153, R154) -/

theorem Part.testReturned_eq {l : LoopId} {p : Part} {payload : List Byte} (hstate : (p.eng l).ctl.state = .test)
    (hmode : (p.eng l).cfg.testMode = 1 ∨ (p.eng l).internalReturn = true) :
    p.testReturned l payload = p.testGoesOn l
      (if payload = p.testUnit.copy then { p.testUnit with intact := satInc p.testUnit.intact }
       else
        { p.testUnit with
          mismatched := addMismatched (p.eng l).cfg.counterMode p.testUnit.mismatched
            (mismatches p.testUnit.copy payload) }) := by
  unfold Part.testReturned
  dsimp only
  split <;> exact Part.testNext_eq hstate hmode

theorem Part.internalInFlight_of {l : LoopId} {p : Part} (hinternal : (p.eng l).internalReturn = true)
    (hcopy : p.testUnit.copy ≠ []) : p.internalInFlight l = true := by
  rw [Part.internalInFlight, hinternal, List.isEmpty_eq_false_iff.mpr hcopy]
  rfl

/-- A character fed to the receiver of INTERNAL_RETURN carries no activity, and the lead character of its frame is of
no attempt. -/
theorem Part.character_internal {l : LoopId} {p : Part} {x : Sending} {value : Byte} {stopOk : Bool}
    (hinternal : (p.eng l).internalReturn = true) (hsending : (p.eng l).framer.sending = some x) :
    p.character l value stopOk =
      Part.takeCharacter l (p.now - (p.eng l).charTime) (byteAt x.frame.chars x.readBack) true
        (p.modEng l fun e =>
          { e with framer := { e.framer with markSince := p.now
                                             sending := some { x with readBack := x.readBack + 1 } } }) := by
  have hmarked : Part.modEng l (Engine.markCharacter p.now) (p.readBack l x) = p.modEng l fun e =>
      { e with framer := { e.framer with markSince := p.now
                                         sending := some { x with readBack := x.readBack + 1 } } } := by
    rw [Part.readBack, Part.modEng_modEng]
    refine Part.modEng_congr l _ _ p ?_
    have hsame : ∀ framer : Framer, Engine.internalReturn { p.eng l with framer := framer } = true := fun _ => hinternal
    rw [Engine.markCharacter, hsame, if_pos rfl]
  unfold Part.character
  simp only [hsending, hinternal, if_true, hmarked]

section
variable {l : LoopId} {p : Part} (hinternal : (p.eng l).internalReturn = true)
include hinternal

theorem Part.validFrame_internal_none (hcopy : p.testUnit.copy = []) (f : RxFrame) : p.validFrame l f = p := by
  unfold Part.validFrame Part.internalInFlight
  simp [hinternal, hcopy]

theorem Part.validFrame_internal_returned (hcopy : p.testUnit.copy ≠ []) {f : RxFrame}
    (h : controlKind f.control = .test) : p.validFrame l f = p.testReturned l f.payload := by
  rw [Part.validFrame, if_pos hinternal, if_pos (Part.internalInFlight_of hinternal hcopy), if_pos h]

theorem Part.validFrame_internal_lost (hcopy : p.testUnit.copy ≠ []) {f : RxFrame}
    (h : controlKind f.control ≠ .test) :
    p.validFrame l f = p.testGoesOn l { p.testUnit with lost := satInc p.testUnit.lost } := by
  rw [Part.validFrame, if_pos hinternal, if_pos (Part.internalInFlight_of hinternal hcopy), if_neg h, Part.testLost]
  exact Part.testNext_eq ((Engine.internalReturn_iff _).mp hinternal).1 (.inr hinternal)

end

/-- Settles O28: what INTERNAL_RETURN does not hear, and how each frame of a test is judged. -/
theorem testFrameReturned : Obligations.TestFrameReturned := by
  intro dt l s p e u differ judged lost hunting answers
  have ends : ∀ {cs : List Byte} {q : Part}, p.live = true → e.framer.receiver = .frame cs → frameComplete cs = true →
      p.frameEnd l = q → q.settled l = true → answers q := fun hlive hreceiver hcomplete =>
    exec_frameEnd hlive (Receiver.whole_of hreceiver hcomplete)
  have hhunting : hunting = p.hunting l := rfl
  have heng : hunting.eng l = { e with framer := { e.framer with receiver := .hunt } } := Part.eng_modEng ..
  have hunit : hunting.testUnit = u := Part.modEng_testUnit ..
  have hinternalHunts : (hunting.eng l).internalReturn = e.internalReturn := by rw [heng] <;> rfl
  have hjudged : ∀ payload, (if payload = u.copy then { u with intact := satInc u.intact }
      else
        { u with mismatched := addMismatched e.cfg.counterMode u.mismatched (mismatches u.copy payload) }) =
        judged payload := by
    intro payload
    simp only [judged, differ, differ_eq, addMismatched_eq, satInc_half]
  refine ⟨fun hstate hvalidated hmode => ?unheard, fun hlive hstate hs hturn =>
    ⟨fun cs a hreceiver hcomplete hvalid hinternal hmode hxu ha hdestination hsource hkind => ?external,
      fun cs hreceiver hcomplete hinternal hxu hcopy => ?internal,
      fun x value stopOk hinternal hrunning hsending hleft hxu => ?fed⟩⟩
  case external =>
    have hunted : (hunting.endAttempt l).eng l =
        { hunting.eng l with xu := ExchangeUnit.idle, cyc := (hunting.eng l).cyc.turnWrites } := Part.eng_modEng ..
    have hstate' : ((hunting.endAttempt l).eng l).ctl.state = .test := by rw [hunted, heng]; exact hstate
    have hmode' : ((hunting.endAttempt l).eng l).cfg.testMode = 1 := by rw [hunted, heng]; exact hmode
    refine ends hlive hreceiver hcomplete ?_
      (Part.settled_testGoesOn (by rw [heng]; exact hstate) (Part.atTransfer_nil (by rw [heng]; exact hs)))
    rw [Part.frameEnd_valid (Receiver.whole_of hreceiver hcomplete) hvalid, ← hhunting,
      Part.validFrame_receiving (hinternalHunts.trans hinternal) (by rw [heng]; exact congrArg ExchangeUnit.state hxu),
      Part.judgeReply_right (a := a) (by rw [heng]; exact congrArg ExchangeUnit.attempt hxu) hdestination hsource
        (by rw [ha, (controlKind_eq_iff _ .echo).mpr hkind]; rfl), ha]
    refine (Part.testReturned_eq hstate' (.inl hmode')).trans
      ((Part.testGoesOn_endAttempt (by rw [heng]; exact hturn) (by rw [heng]; exact hmode)).trans ?_)
    rw [hunted, heng, Part.endAttempt, Part.modEng_testUnit, hunit, hjudged]
  case internal =>
    have hinternal' : (hunting.eng l).internalReturn = true := hinternalHunts.trans hinternal
    have hcopy' : hunting.testUnit.copy ≠ [] := hunit ▸ hcopy
    have hlost : { u with lost := satInc u.lost } = lost := by simp only [lost, satInc_half]
    have hat : hunting.atTransfer l = true := Part.atTransfer_nil (by rw [heng]; exact hs)
    have hstate' : (hunting.eng l).ctl.state = .test := by rw [heng]; exact hstate
    have goesOn : ∀ {u' : TestUnit}, p.frameEnd l = hunting.testGoesOn l u' → answers (hunting.testGoesOn l u') :=
      fun hq => ends hlive hreceiver hcomplete hq (Part.settled_testGoesOn hstate' hat)
    have valid : frameValid cs = true → p.frameEnd l = hunting.validFrame l (RxFrame.ofChars cs) :=
      Part.frameEnd_valid (Receiver.whole_of hreceiver hcomplete)
    refine ⟨fun hvalid hkind => goesOn ?_, fun hvalid hkind => goesOn ?_, fun hvalid => ?_⟩
    · rw [valid hvalid, Part.validFrame_internal_returned hinternal' hcopy' ((controlKind_eq_iff _ .test).mpr hkind),
        Part.testReturned_eq hstate' (.inr hinternal'), hunit, heng, hjudged]
    · rw [valid hvalid, Part.validFrame_internal_lost hinternal' hcopy'
        fun h => hkind ((controlKind_eq_iff _ .test).mp h), hunit, hlost]
    · refine ends hlive hreceiver hcomplete ?_ (Part.settled_testGoesOn ?_ (Part.atTransfer_nil ?_))
      · rw [Part.frameEnd_broken (Receiver.whole_of hreceiver hcomplete) hvalid, ← hhunting,
          Part.frameError_internal_lost hinternal' hcopy', hunit, hlost]
      · rw [Part.eng_modEng, Engine.countFrameError_ctl]
        exact hstate'
      · rw [Part.eng_modEng, Engine.countFrameError_sched, heng]
        exact hs
  case fed =>
    intro fed answers
    have hfed : ∀ {r : Receiver}, p.character l value stopOk = (p.modEng l fun e =>
        { e with framer := { e.framer with
            receiver := r, markSince := p.now, sending := some { x with readBack := x.readBack + 1 } } }) → answers r :=
      fun hq => exec_of_loopStep rfl rfl hlive (Engine.hearsCharacter_of_sending hrunning hsending hleft) hq
        (Part.settled_of_state l _ (Part.paused_of_atTransfer (Part.atTransfer_nil (by rw [Part.eng_modEng]; exact hs)))
          (by rw [Part.eng_modEng]; show e.ctl.state ≠ .running; rw [hstate]; exact LoopState.noConfusion))
    have hcharacter := Part.character_internal (value := value) (stopOk := stopOk) hinternal hsending
    have hlead : ∀ start, (p.eng l).xu.lead start = (p.eng l).xu := fun start => by
      rw [show (p.eng l).xu = ExchangeUnit.idle from hxu] <;> rfl
    have hchar : ∀ cs, (p.eng l).xu.character cs = (p.eng l).xu := fun cs => by
      rw [show (p.eng l).xu = ExchangeUnit.idle from hxu, ExchangeUnit.character]
      split_ifs <;> rfl
    have hreceiver : ((p.modEng l fun e => { e with framer := { e.framer with
        markSince := p.now, sending := some { x with readBack := x.readBack + 1 } } }).eng l).framer.receiver =
          e.framer.receiver := by rw [Part.eng_modEng]
    refine ⟨fun hhunt hvalue => hfed (hcharacter.trans ?_), fun cs hframe hpart hlength => hfed (hcharacter.trans ?_),
      fun hdiscard => hfed (hcharacter.trans ?_)⟩
    · rw [Part.takeCharacter, hreceiver, hhunt]
      dsimp only
      rw [Part.firstCharacter, show byteAt x.frame.chars x.readBack = 0xA5 from hvalue, if_pos (by rfl),
        if_neg (by rw [Part.eng_modEng, ExchangeUnit.missed_iff]; rintro ⟨a, ha, -⟩; rw [hxu] at ha; nomatch ha),
        Part.modEng_modEng]
      refine Part.modEng_congr l _ _ p ?_
      simp only [hlead]
    · rw [Part.takeCharacter, hreceiver, hframe]
      dsimp only
      rw [Part.nextCharacter, hpart, if_neg Bool.false_ne_true, Bool.not_true, if_neg Bool.false_ne_true,
        if_neg (by simp only [List.length_append, List.length_singleton, Bool.and_eq_true, decide_eq_true_eq]
                   change cs.length ≠ 4 ∨ (byteAt x.frame.chars x.readBack).toNat ≤ 96 at hlength
                   omega), Part.modEng_modEng]
      refine Part.modEng_congr l _ _ p ?_
      simp only [hchar]
      rfl
    · rw [Part.takeCharacter, hreceiver, hdiscard]
      refine Part.modEng_congr l _ _ p ?_
      rw [← hdiscard]
  case unheard =>
    have hinternal : e.internalReturn = true := (Engine.internalReturn_iff _).mpr ⟨hstate, hvalidated, hmode⟩
    have hinternal' : (hunting.eng l).internalReturn = true := hinternalHunts.trans hinternal
    refine ⟨exec_of_cannot rfl rfl (can := fun p => (p.eng l).activityCanStart p.now) ?_,
      exec_of_cannot rfl rfl (can := fun p => (p.eng l).drivesLine) ?_, fun hnone value stopOk =>
        exec_of_cannot rfl rfl (can := fun p => (p.eng l).hearsCharacter) ?_,
      fun cs hlive hsettled hreceiver hcomplete hcopy => ?_⟩
    · show e.activityCanStart p.now = false
      rw [Engine.activityCanStart, hinternal, Bool.not_true, Bool.and_false]
      rfl
    · show e.drivesLine = false
      rw [Engine.drivesLine, hinternal, Bool.not_true, Bool.and_false]
    · show e.hearsCharacter = false
      rw [Engine.hearsCharacter]
      cases hx : e.framer.sending with
      | none => simp [hinternal]
      | some x => simp [Nat.not_lt.mpr (hnone x hx)]
    · have whole := Receiver.whole_of hreceiver hcomplete
      refine ⟨fun hvalid => ends hlive hreceiver hcomplete ?_ (Part.settled_line hsettled rfl rfl rfl (.inr rfl)),
        fun hvalid => ends hlive hreceiver hcomplete ?_ ?_⟩
      · rw [Part.frameEnd_valid whole hvalid, ← hhunting, Part.validFrame_internal_none hinternal' (hunit ▸ hcopy)]
      · rw [Part.frameEnd_broken whole hvalid, ← hhunting, Part.frameError_internal_none hinternal' (hunit ▸ hcopy)]
      · refine Part.settled_line (Part.settled_line hsettled rfl rfl rfl (.inr rfl)) (Engine.countFrameError_sched _)
          (Engine.countFrameError_ctl _) (Engine.countFrameError_cyc _)
          (.inr (congrArg Framer.sending (Engine.countFrameError_framer _)))

end Sys2Proof.Machine
end

