-- ==== Sys2Proof/Proofs/Failures.lean ====
section
/-!
Attempt failures and overlong replies (R76, R79, R81, R103, R104, R138, R155), and the reply timeout.
-/
namespace Sys2Proof.Machine

open Sys2Proof

section
variable {l : LoopId} {i : StationIx} {p : Part} {follow : List SchedOp} {k : RecordIx}

@[simp] theorem Part.endAttempt_ctx (j : StationIx) : (p.endAttempt l).ctx j = p.ctx j := Part.modEng_ctx ..

theorem Part.attemptFailed_test {a : Attempt} (ha : (p.eng l).xu.attempt = some a) (hk : a.kind = .test) :
    p.attemptFailed l = (p.endAttempt l).testLost l := by
  rw [Part.attemptFailed, ha]
  dsimp only
  rw [hk]

theorem Part.attemptFailed_roll {a : Attempt} (ha : (p.eng l).xu.attempt = some a) (hk : a.kind = .roll)
    (hstation : a.station = some i) : p.attemptFailed l = (p.endAttempt l).rollFailed l i := by
  rw [Part.attemptFailed, ha]
  dsimp only
  rw [hk, hstation]

theorem Part.attemptFailed_record {a : Attempt} (ha : (p.eng l).xu.attempt = some a) (hstation : a.station = some i)
    (htest : a.kind ≠ .test) (hroll : a.kind ≠ .roll) :
    p.attemptFailed l = (p.endAttempt l).recordAttemptFailed l a.kind i := by
  rw [Part.attemptFailed, ha]
  dsimp only
  rw [hstation]
  cases hk : a.kind with
  | test => exact absurd hk htest
  | roll => exact absurd hk hroll
  | _ => rfl

/-- A completion is what the statements schedule for it, after what is scheduled already. -/
theorem Part.completeRecord_push (hk : (p.ctx i).inHand = some k) {outcome : RecordOutcome} (h : outcome ≠ .ok)
    (flip : SeqFlip) (ends : AfterRecord) :
    p.completeRecord l i outcome [] flip ends follow =
      Part.push l ([.writeResult i k outcome 0, .writeDone i k flip ends, .writeStationHalf i, .raise .exfault] ++ follow)
        (p.releaseRelay i) := by
  rw [Part.completeRecord, Part.completionOf_inHand hk, completionOps_failed h]

/-! ### A record's attempt that fails (R81, R104, R105) -/

/-- What a failed attempt counts on its record. -/
def Context.failed (c : Context) : Context :=
  { c with recAttempts := incTo 7 c.recAttempts, recLatency := 0xFFFF, failures := c.failures + 1 }

theorem Part.recordAttemptFailed_limit (hk : (p.ctx i).inHand = some k)
    (h : (p.ctx i).fresh.retryLimit.toNat ≤ (p.ctx i).failures.toNat + 1) (kind : AttemptKind) :
    p.recordAttemptFailed l kind i =
      Part.push l [.writeResult i k .noAnswer 0, .writeDone i k .none .silent, .writeStationHalf i, .raise .exfault,
        .endTurn] ((p.releaseRelay i).modCtx i fun c => { c.failed with failures := 0 }) := by
  unfold Part.recordAttemptFailed Part.failRecord
  dsimp only
  rw [Part.modCtx_modCtx, Part.modCtx_modCtx, if_pos (by rw [Part.ctx_modCtx]; exact h),
    Part.completeRecord_push (k := k) (by rw [Part.ctx_modCtx]; exact hk) (by decide), Part.releaseRelay,
    Part.mapRelays_modCtx]
  rfl

theorem Part.recordAttemptFailed_direct {kind : AttemptKind}
    (h : (p.ctx i).failures.toNat + 1 < (p.ctx i).fresh.retryLimit.toNat)
    (hkind : kind = .poll ∨ kind = .put ∨ kind = .probe) :
    p.recordAttemptFailed l kind i =
      Part.push l [.writeStationHalf i, .endTurn]
        (p.modCtx i fun c => { c.failed with phase := if c.phase = .first then .retry else c.phase }) := by
  have hphase : ∀ x : RecordPhase, x.afterFailure = if x = .first then .retry else x := fun x => by cases x <;> rfl
  unfold Part.recordAttemptFailed Part.failRecord
  dsimp only
  rw [if_neg (by rw [Part.ctx_modCtx]; exact Nat.not_le.mpr h)]
  have hkept : Part.keepRecord l i (((p.modCtx i fun c => { c with recLatency := 0xFFFF }).ctx i).phase.afterFailure)
      [.endTurn] (Part.modCtx i (fun c => { c with recAttempts := incTo 7 c.recAttempts, failures := c.failures + 1 })
        (p.modCtx i fun c => { c with recLatency := 0xFFFF })) = Part.push l [.writeStationHalf i, .endTurn]
        (p.modCtx i fun c => { c.failed with phase := if c.phase = .first then .retry else c.phase }) := by
    rw [Part.keepRecord, Part.modCtx_modCtx, Part.modCtx_modCtx, Part.ctx_modCtx, hphase]
    exact congrArg (Part.push l _) (Part.modCtx_congr i _ _ p rfl)
  rcases hkind with rfl | rfl | rfl <;> exact hkept

theorem Part.recordAttemptFailed_relayStart (h : (p.ctx i).failures.toNat + 1 < (p.ctx i).fresh.retryLimit.toNat) :
    p.recordAttemptFailed l .relayStart i =
      Part.push l [.writeStationHalf i, .endTurn]
        ((p.releaseRelay i).modCtx i fun c => { c.failed with phase := .relayStart }) := by
  unfold Part.recordAttemptFailed Part.failRecord
  dsimp only
  rw [if_neg (by rw [Part.ctx_modCtx]; exact Nat.not_le.mpr h), Part.keepRecord]
  simp only [Part.releaseRelay, Part.mapRelays_modCtx, Part.modCtx_modCtx]
  rfl

theorem Part.relayAge_of {q : Part} {x : RelayEntry} (hrelays : q.relays = p.relays) (heng : q.eng l = p.eng l)
    (hx : p.relayOf i = some x) : q.relayAge l i = ((p.eng l).rep.cycleNumber - x.startCycle).toNat := by
  have hof : q.relayOf i = some x := by
    rw [Part.relayOf, hrelays]
    exact hx
  rw [Part.relayAge, hof, heng]

theorem Part.recordAttemptFailed_waits {x : RelayEntry}
    (h : (p.ctx i).failures.toNat + 1 < (p.ctx i).fresh.retryLimit.toNat) (hx : p.relayOf i = some x)
    (hage : ((p.eng l).rep.cycleNumber - x.startCycle).toNat < (p.ctx i).fresh.patience.toNat) :
    p.recordAttemptFailed l .relayCollect i =
      Part.push l [.writeStationHalf i, .endTurn]
        (p.modCtx i fun c => { c.failed with phase := .relayCollect }) := by
  unfold Part.recordAttemptFailed Part.failRecord
  dsimp only
  rw [if_neg (by rw [Part.ctx_modCtx]; exact Nat.not_le.mpr h), Part.judgePatience,
    Part.relayAge_of (by rw [Part.modCtx_relays, Part.modCtx_relays]) (by rw [Part.modCtx_eng, Part.modCtx_eng]) hx,
    if_neg (by rw [Part.ctx_modCtx, Part.ctx_modCtx]; exact Nat.not_le.mpr hage), Part.keepRecord]
  simp only [Part.modCtx_modCtx]
  rfl

theorem Part.recordAttemptFailed_lost {x : RelayEntry} (hk : (p.ctx i).inHand = some k)
    (h : (p.ctx i).failures.toNat + 1 < (p.ctx i).fresh.retryLimit.toNat) (hx : p.relayOf i = some x)
    (hage : (p.ctx i).fresh.patience.toNat ≤ ((p.eng l).rep.cycleNumber - x.startCycle).toNat) :
    p.recordAttemptFailed l .relayCollect i =
      Part.push l [.writeResult i k .relayLost 0, .writeDone i k .none .ready, .writeStationHalf i, .raise .exfault,
        .endTurn] ((p.releaseRelay i).modCtx i Context.failed) := by
  unfold Part.recordAttemptFailed Part.failRecord
  dsimp only
  rw [if_neg (by rw [Part.ctx_modCtx]; exact Nat.not_le.mpr h), Part.judgePatience,
    Part.relayAge_of (by rw [Part.modCtx_relays, Part.modCtx_relays]) (by rw [Part.modCtx_eng, Part.modCtx_eng]) hx,
    if_pos (by rw [Part.ctx_modCtx, Part.ctx_modCtx]; exact hage),
    Part.completeRecord_push (k := k) (by rw [Part.ctx_modCtx, Part.ctx_modCtx]; exact hk) (by decide)]
  simp only [Part.releaseRelay, Part.mapRelays_modCtx, Part.modCtx_modCtx]
  rfl

end

section
variable {l : LoopId} {i j : StationIx} {p : Part} {k : RecordIx} {latency : BitVec 16}

/-- The marks of a valid reply that an overlong one makes too, of the station `j` that has sent it. -/
def Part.overlongHeard (l : LoopId) (j : StationIx) (valid : Bool) (p : Part) : Part :=
  Part.modEng l (fun e => { e with cyc := { e.cyc with answered := e.cyc.answered || valid } })
    (p.modCtx j fun c => if valid then c.heard else c)

theorem Part.overlongHeard_true : p.overlongHeard l j true = (p.markAnswered l).modCtx j Context.heard := by
  rw [Part.overlongHeard, Part.markAnswered, Part.modCtx_modEng]
  simp only [Bool.or_true, if_true]

/-- An overlong reply that has finished ends its record OVERLONG, with the latency measured. -/
theorem Part.recordOverlong_eq {a : Attempt} {valid : Bool} {replier : StationIx} {coupler : List SchedOp}
    (hheard : (if !valid then (p, [])
      else if a.kind == .relayStart || a.kind == .relayCollect then (p.markAnswered l).couplerHeard i
      else ((p.markAnswered l).modCtx i Context.heard, [])) = (p.overlongHeard l replier valid, coupler))
    (hlatency : a.latency = some latency) (hlt : latency.toNat < 65535) (hk : (p.ctx i).inHand = some k) :
    p.recordOverlong l a i valid = Part.modEng l
      (fun e =>
        { e with
          cyc := { e.cyc with answered := e.cyc.answered || valid }
          trap := e.trapAfter i latency
          sched := e.sched
            ++ [.writeResult i k .overlong 0, .writeDone i k .none .ready, .writeStationHalf i, .raise .exfault]
            ++ coupler ++ e.trapCause latency ++ [.endTurn] })
      (Part.modCtx i (Context.commit latency)
        ((p.releaseRelay i).modCtx replier fun c => if valid then c.heard else c)) := by
  have hinHand : ∀ q : Part, (((p.modCtx replier fun c => if valid then c.heard else c).modCtx i
      (Context.commit latency)).ctx i).inHand = some k := fun _ => by
    rw [Part.ctx_modCtx]
    by_cases h : i = replier
    · rw [h, Part.ctx_modCtx]
      cases valid <;> exact h ▸ hk
    · rw [Part.ctx_modCtx_ne replier i _ p h]
      exact hk
  unfold Part.recordOverlong
  dsimp only
  rw [hheard, hlatency, Option.getD_some, Part.commitLatency_eq hlt, Part.overlongHeard]
  dsimp only
  rw [Part.completeRecord_push (k := k) ?_ (by decide)]
  · rw [Part.push, Part.modCtx_modEng]
    simp only [Part.releaseRelay, Part.mapRelays_modEng, Part.mapRelays_modCtx, Part.modEng_modEng]
    refine Part.modEng_congr l _ _ _ ?_
    simp only [Part.eng_modEng, Part.modCtx_eng, Part.mapRelays_eng, List.append_assoc, ← Engine.trapOps_eq]
    rfl
  · rw [Part.modEng_ctx, Part.modCtx_modEng, Part.modEng_ctx]
    exact hinHand p

end

/-- What an ABSENT station writes: the end of its record in hand, or its part half alone. -/
def absentOps (i : StationIx) (c : Context) : List SchedOp :=
  match c.inHand with
  | some k => [.writeResult i k .noAnswer 0, .writeDone i k .none .absent, .writeStationHalf i, .raise .exfault]
  | none => [.writeStationHalf i]

theorem Part.rollAbsent_eq {l : LoopId} {i : StationIx} {p : Part} :
    p.rollAbsent l i = Part.rollAdvance l (absentOps i (p.ctx i))
      (Part.releaseRelay i ((p.modCtx i fun c => { c with present := false, state := .absent }).modEng l fun e =>
        { e with rep := { e.rep with rollAbsent := satInc e.rep.rollAbsent } })) := by
  unfold Part.rollAbsent absentOps
  dsimp only
  cases hinHand : (p.ctx i).inHand with
  | none => rfl
  | some k =>
    dsimp only
    rw [Part.completionOf_inHand (k := k) (by rw [Part.modEng_ctx, Part.ctx_modCtx]; exact hinHand),
      completionOps_failed (outcome := .noAnswer) (by decide)]

theorem Part.modCtx_self (j : StationIx) (p : Part) : (p.modCtx j fun c => c) = p :=
   congrArg (fun contexts => { p with contexts := contexts }) (Vector.set_getElem_self ..)

/-- Settles O29: what each kind of attempt leaves when it fails, and what an overlong reply leaves. -/
theorem attemptFailure : Obligations.AttemptFailure := by
  intro l a p e ended ha
  have hended : p.endAttempt l = ended := rfl
  have hctx : ∀ j, ended.ctx j = p.ctx j := fun j => Part.endAttempt_ctx j
  have heng : ended.eng l = { e with xu := ExchangeUnit.idle, cyc := e.cyc.turnWrites } := Part.eng_modEng ..
  refine ⟨fun hk hstate hmode => ?test, fun i hk hstation hsecond => ?first, fun i hk hstation hsecond => ?second,
    fun valid => ⟨fun hk => ?same, fun i j k latency hstation htest hroll hlatency hlt hinHand => ?overlong⟩,
    fun i hstation htest hroll => ?record⟩
  case test =>
    rw [Part.attemptFailed_test ha hk, Part.testLost]
    refine (Part.testNext_eq (by rw [hended, heng]; exact hstate) (.inl (by rw [hended, heng]; exact hmode))).trans ?_
    rw [hended, show ended.testUnit = p.testUnit from Part.modEng_testUnit .., satInc_half]
  case first =>
    rw [Part.attemptFailed_roll ha hk hstation, Part.rollFailed, hended, heng]
    dsimp only
    rw [hsecond, if_neg Bool.false_ne_true]
  case second =>
    intro rest ops
    rw [Part.attemptFailed_roll ha hk hstation, Part.rollFailed, hended, heng]
    dsimp only
    rw [hsecond, if_pos rfl]
    have hlast : ((e.rollList.drop 1).isEmpty && e.ctl.state == .rollcall) = decide (rest = [] ∧ e.ctl.state = .rollcall) := by
      rw [Bool.eq_iff_iff, Bool.and_eq_true, List.isEmpty_iff, beq_iff_eq, decide_eq_true_eq]
    have hops : absentOps i (p.ctx i) = ops := by
      unfold absentOps
      cases hinHand : (p.ctx i).inHand <;> simp only [ops, hinHand]
    rw [Part.rollAbsent_eq, hctx, hops, Part.rollAdvance, Part.push]
    simp only [Part.releaseRelay, Part.mapRelays_modEng, Part.mapRelays_modCtx, Part.modEng_modEng]
    refine Part.modEng_congr l _ _ _ ?_
    simp only [Part.eng_modEng, Part.modCtx_eng, Part.mapRelays_eng, heng, satInc_byte, hlast, decide_eq_true_eq, List.append_assoc]
    rfl
  case same =>
    rw [Part.overlongFinished, Part.attemptFailed, ha]
    dsimp only
    rcases hk with hk | hk
    · rw [hk]
    · rw [hk]
      cases a.station <;> rfl
  case overlong =>
    intro relay replier coupler hcoupler
    have hframe : p.overlongFinished l valid = ended.recordOverlong l a i valid := by
      rw [Part.overlongFinished, ha]
      dsimp only
      rw [hstation]
      cases hk : a.kind with
      | test => exact absurd hk htest
      | roll => exact absurd hk hroll
      | _ => rfl
    rw [hframe, Part.recordOverlong_eq (replier := replier) (coupler := coupler) (k := k) ?_ hlatency hlt
      (by rw [hctx]; exact hinHand)]
    · rfl
    · have hrelay : (a.kind == .relayStart || a.kind == .relayCollect) = decide relay := by
        rw [Bool.eq_iff_iff, Bool.or_eq_true, beq_iff_eq, beq_iff_eq, decide_eq_true_eq]
      cases valid with
      | false =>
        have hnone : coupler = [] := if_neg fun h => Bool.false_ne_true h.1
        rw [Bool.not_false, if_pos rfl, hnone, Part.overlongHeard]
        simp only [Bool.false_eq_true, if_false, Part.modCtx_self, Bool.or_false]
        rw [Part.modEng_self l _ ended rfl]
      | true =>
        rw [Bool.not_true, if_neg Bool.false_ne_true, hrelay, Part.overlongHeard_true]
        have hanswered : ∀ m, (ended.markAnswered l).ctx m = p.ctx m := fun m => (Part.modEng_ctx ..).trans (hctx m)
        by_cases h : relay
        · rw [if_pos (decide_eq_true h), Part.couplerHeard_eq (j := j) (by rw [hanswered]; exact hcoupler h),
            show replier = j from if_pos h, Part.couplerWrite, hanswered]
          refine congrArg (Prod.mk _) ?_
          simp only [coupler, h, true_and, ite_not]
        · rw [if_neg (by rwa [decide_eq_true_eq]), show replier = i from if_neg h,
            show coupler = [] from if_neg fun hc => h hc.2.1]
  case record =>
    intro c fails
    have hframe := Part.attemptFailed_record ha hstation htest hroll
    have hpush : ∀ {q : Part} {ops : List SchedOp} {change : Context → Context},
        (p.endAttempt l).recordAttemptFailed l a.kind i =
          Part.push l (ops ++ [.endTurn]) (q.modCtx i fun c => change c.failed) → fails q ops change := by
      intro q ops change h
      refine hframe.trans (h.trans ?_)
      rw [Part.push]
      simp only [List.append_assoc]
      rfl
    have hrelays : ∀ {x}, p.relayOf i = some x → ended.relayOf i = some x := fun hx => by
      rw [Part.relayOf, Part.modEng_relays]
      exact hx
    clear_value fails
    refine ⟨fun hbelow => ⟨fun hk => hpush ?_, fun hk => hpush ?_, fun x hk hx => ⟨fun hage => hpush ?_,
      fun k hage hinHand => hpush ?_⟩⟩, fun k hlimit hinHand => hpush ?_⟩
    · exact Part.recordAttemptFailed_direct (by rw [Part.endAttempt_ctx]; exact hbelow) hk
    · rw [hk]
      exact Part.recordAttemptFailed_relayStart (by rw [Part.endAttempt_ctx]; exact hbelow)
    · rw [hk]
      exact Part.recordAttemptFailed_waits (by rw [Part.endAttempt_ctx]; exact hbelow) (hrelays hx)
        (by rw [Part.endAttempt_ctx, hended, heng]; exact hage)
    · rw [hk]
      exact Part.recordAttemptFailed_lost (by rw [Part.endAttempt_ctx]; exact hinHand)
        (by rw [Part.endAttempt_ctx]; exact hbelow) (hrelays hx) (by rw [Part.endAttempt_ctx, hended, heng]; exact hage)
    · exact Part.recordAttemptFailed_limit (by rw [Part.endAttempt_ctx]; exact hinHand)
        (by rw [Part.endAttempt_ctx]; exact hlimit) _

/-! ### A direct attempt that fails, nothing else being scheduled (R76, R81) -/

section
variable {l : LoopId} {i : StationIx} {p : Part} {a : Attempt} (ha : (p.eng l).xu.attempt = some a)
  (hstation : a.station = some i) (hkind : a.kind = .poll ∨ a.kind = .put ∨ a.kind = .probe)
  (hs : (p.eng l).sched = [])

/-- The loop once its attempt has ended, with what its judgement schedules. -/
def Engine.attemptEnded (ops : List SchedOp) (e : Engine) : Engine :=
  { e with xu := ExchangeUnit.idle, cyc := e.cyc.turnWrites, sched := ops }

include hs in
theorem Part.push_endAttempt (ops : List SchedOp) (change : Context → Context) (q : Part)
    (hq : q.eng l = p.eng l) :
    Part.push l ops (Part.modCtx i change (q.endAttempt l)) =
      Part.modEng l (Engine.attemptEnded ops) (q.modCtx i change) := by
  rw [Part.push, Part.endAttempt, Part.modCtx_modEng, Part.modEng_modEng]
  refine Part.modEng_congr l _ _ _ ?_
  rw [Part.modCtx_eng, hq]
  dsimp only
  rw [hs]
  rfl

include ha hstation hkind hs

theorem Part.attemptFailed_below (h : (p.ctx i).failures.toNat + 1 < (p.ctx i).fresh.retryLimit.toNat) :
    p.attemptFailed l = Part.modEng l (Engine.attemptEnded [.writeStationHalf i, .endTurn])
      (p.modCtx i fun c => { c.failed with phase := if c.phase = .first then .retry else c.phase }) := by
  rw [Part.attemptFailed_record ha hstation
    (by rcases hkind with h | h | h <;> rw [h] <;> exact AttemptKind.noConfusion)
    (by rcases hkind with h | h | h <;> rw [h] <;> exact AttemptKind.noConfusion),
    Part.recordAttemptFailed_direct (by rw [Part.endAttempt_ctx]; exact h) hkind, Part.push_endAttempt hs _ _ p rfl]

theorem Part.attemptFailed_limit {k : RecordIx} (hk : (p.ctx i).inHand = some k)
    (h : (p.ctx i).fresh.retryLimit.toNat ≤ (p.ctx i).failures.toNat + 1) :
    p.attemptFailed l = Part.modEng l
      (Engine.attemptEnded [.writeResult i k .noAnswer 0, .writeDone i k .none .silent, .writeStationHalf i,
        .raise .exfault, .endTurn])
      ((p.releaseRelay i).modCtx i fun c => { c.failed with failures := 0 }) := by
  have hreleased : (p.endAttempt l).releaseRelay i = (p.releaseRelay i).endAttempt l := by
    rw [Part.endAttempt, Part.releaseRelay, Part.mapRelays_modEng]
    rfl
  rw [Part.attemptFailed_record ha hstation
    (by rcases hkind with h | h | h <;> rw [h] <;> exact AttemptKind.noConfusion)
    (by rcases hkind with h | h | h <;> rw [h] <;> exact AttemptKind.noConfusion),
    Part.recordAttemptFailed_limit (by rw [Part.endAttempt_ctx]; exact hk) (by rw [Part.endAttempt_ctx]; exact h),
    hreleased, Part.push_endAttempt hs _ _ (p.releaseRelay i) (Part.mapRelays_eng ..)]

end

/-- Settles O30: the unit waits for a character under way; otherwise the attempt has failed. -/
theorem replyTimeout : Obligations.ReplyTimeout := by
  intro dt l underWay a i k s p e c ended attempts hlive hxu hpassed hfirst
  have hcan : e.xu.timedOut p.now = true := by
    rw [hxu, ExchangeUnit.timedOut]
    simp [hpassed, hfirst]
  have ends : ∀ {q : Part}, p.replyTimeout l underWay = q → q.settled l = true →
      exec (.replyTimeout dt l underWay) s = .next (s.become q) := fun hq hs =>
    exec_of_loopStep rfl rfl hlive hcan hq hs
  have failed : underWay = false ∨ e.framer.receiver ≠ .hunt → p.replyTimeout l underWay = p.attemptFailed l := by
    intro h
    rw [Part.replyTimeout, if_neg]
    rw [Bool.and_eq_true, beq_iff_eq]
    rintro ⟨hunder, hhunt⟩
    exact h.elim (fun h => Bool.false_ne_true (h.symm.trans hunder)) fun h => h hhunt
  have hattempt : (p.eng l).xu.attempt = some a := congrArg ExchangeUnit.attempt hxu
  refine ⟨fun hunder hhunt hsettled => ends ?_ (Part.settled_line hsettled rfl rfl rfl (.inr rfl)),
    fun h hsettled => ends (failed h) hsettled,
    fun h hs hstation hkind => ⟨fun hbelow => ends ((failed h).trans ?_) ?_,
      fun hat hk => ends ((failed h).trans ?_) ?_⟩⟩
  · rw [Part.replyTimeout, hunder, show (p.eng l).framer.receiver = .hunt from hhunt, if_pos (by rfl)]
    refine Part.modEng_congr l _ _ p ?_
    rw [ExchangeUnit.waitCharacter, hattempt]
    rfl
  · exact Part.attemptFailed_below hattempt hstation hkind hs hbelow
  · exact Part.settled_cons l _ _ _ (congrArg Engine.sched (Part.eng_modEng ..)) rfl
  · exact Part.attemptFailed_limit hattempt hstation hkind hs hk (le_of_eq hat.symm)
  · exact Part.settled_cons l _ _ _ (congrArg Engine.sched (Part.eng_modEng ..)) rfl

end Sys2Proof.Machine
end

