-- ==== Sys2Proof/Proofs/LineEnds.lean ====
section
/-!
Collisions and ends of frame (R2, R12, R13, R63, R75): what follows for the sender of the frame, with the acts that a
procedure makes then.
-/
namespace Sys2Proof.Machine

open Sys2Proof

/-! ### Several acts of a procedure -/

/-- The part with a procedure of loop `l` at the work `ops`. -/
def Part.withSched (l : LoopId) (ops : List SchedOp) (p : Part) : Part := p.modEng l fun e => { e with sched := ops }

/-- After `n` acts the procedure that stood at `p` stands at `q`. -/
def Part.Acts (l : LoopId) (n : Nat) (p q : Part) : Prop :=
  ∀ m, Part.runSched (m + n) l p = Part.runSched m l q

section
variable {l : LoopId} {n : Nat} {p q r : Part} {op : SchedOp} {ops rest : List SchedOp}

@[simp] theorem Part.withSched_sched : ((p.withSched l ops).eng l).sched = ops := by
  rw [Part.withSched, Part.eng_modEng]

@[simp] theorem Part.withSched_eng : (p.withSched l ops).eng l = { p.eng l with sched := ops } := Part.eng_modEng ..

theorem Part.withSched_self (h : (p.eng l).sched = ops) : p.withSched l ops = p :=
  Part.modEng_sched_self h

theorem Part.popSched_withSched : (p.withSched l (op :: ops)).popSched l = p.withSched l ops :=
  Part.popSched_cons ..

/-- A change of an engine that leaves its work alone. -/
theorem Part.modEng_withSched {f : Engine → Engine}
    (h : f { p.eng l with sched := ops } = { f (p.eng l) with sched := ops }) :
    (p.withSched l ops).modEng l f = (p.modEng l f).withSched l ops := by
  rw [Part.withSched, Part.withSched, Part.modEng_modEng, Part.modEng_modEng]
  exact Part.modEng_congr l _ _ p h

theorem Part.Acts.refl (l : LoopId) (p : Part) : Part.Acts l 0 p p := fun _ => rfl

/-- One act, then the others. -/
theorem Part.Acts.step (hw : p.waitsAt l op = false) (hact : Part.act l op (p.withSched l rest) = q)
    (h : Part.Acts l n q r) : Part.Acts l (n + 1) (p.withSched l (op :: rest)) r := fun m => by
  rw [← Nat.add_assoc, Part.runSched_act _ l _ op rest Part.withSched_sched
    ((Part.waitsAt_congr p (p.withSched l (op :: rest)) l op (by rw [Part.withSched_eng])).trans hw),
    Part.popSched_withSched, hact, h m]

/-- The acts made, the procedure is carried on no further where it stands. -/
theorem Part.Acts.proceed (h : Part.Acts l n p q) (hn : n ≤ 200) (hq : q.settled l = true) : p.proceed l = q := by
  have hm := h (200 - n)
  rw [Nat.sub_add_cancel hn] at hm
  unfold Part.proceed
  rw [show Config.actBound = 200 from rfl, hm, Part.runSched_of_paused _ l q (Part.paused_of_settled hq),
    Part.rollcallIfDue_of_not l q (Part.rollcallDue_of_settled hq)]

/-- An act that is no transfer and waits for nothing is made at once. -/
theorem Part.waitsAt_act (ht : op.transfers = false) (hop : op ≠ .awaitTransmitter) : p.waitsAt l op = false := by
  rw [Part.waitsAt_eq, ht, beq_eq_false_iff_ne.mpr hop]
  rfl

theorem Part.settled_withSched (ht : op.transfers = true) : (p.withSched l (op :: ops)).settled l = true :=
  Part.settled_cons l _ op ops Part.withSched_sched ht

end

/-! ### A wake STARTING that waits for the transmitter (R148) -/

theorem Part.proceed_startLatch {l : LoopId} {p : Part}
    (hs : (p.eng l).sched = [.awaitTransmitter, .startLatch, .mark, .startResets, .writeLoopHalf, .mark] ++
      (allStations.map .readStationHost ++ allStations.map .judge ++ [.mark, .startNext]))
    (hsending : (p.eng l).framer.sending = none) (hoff : (p.eng l).ctl.startFromOff = false)
    (hvalidated : (p.eng l).ctl.validated = true) :
    p.proceed l = p.modEng l fun e => { Engine.startLatched e.hostBuf e with resetSet := [] } := by
  have hwaits : p.waitsAt l .awaitTransmitter = false := by
    rw [Part.waitsAt_eq, hsending]
    rfl
  have hlatch : ∀ ops, Part.act l .startLatch (p.withSched l ops) = (p.startLatch l).withSched l ops :=
    fun _ => by
      show Part.startLatch l _ = _
      rw [Part.startLatch, Part.modEng_withSched rfl, Part.startLatch]
  have hresets : ∀ ops, Part.act l .startResets ((p.startLatch l).withSched l ops) =
      ((p.startLatch l).modEng l fun e => { e with mon := e.mon.clearRuns, resetSet := [] }).withSched l ops := by
    intro ops
    show Part.startResets l _ = _
    rw [Part.startResets, if_neg, Part.modEng_withSched rfl]
    rw [Part.withSched_eng, Part.startLatch, Part.eng_modEng]
    exact fun h => Bool.false_ne_true (hoff.symm.trans h)
  refine (congrArg (Part.proceed l) (Part.withSched_self hs).symm).trans (Eq.trans (Part.Acts.proceed (n := 4) (Part.Acts.step hwaits rfl
    (Part.Acts.step (Part.waitsAt_act rfl SchedOp.noConfusion) (hlatch _)
      (Part.Acts.step (Part.waitsAt_act rfl SchedOp.noConfusion) rfl
        (Part.Acts.step (Part.waitsAt_act rfl SchedOp.noConfusion) (hresets _) (Part.Acts.refl l _)))))
    (by decide) (Part.settled_withSched (op := .writeLoopHalf) rfl)) ?_)
  rw [Part.withSched, Part.startLatch, Part.modEng_modEng, Part.modEng_modEng]
  refine Part.modEng_congr l _ _ p ?_
  have hctl : ({ (p.eng l).ctl with retimePending := false } : LoopControl) =
      { (p.eng l).ctl with retimePending := false, validated := true } := by rw [← hvalidated]
  rw [Engine.startLatched, ← hctl]
  rfl

/-! ### The end of a cycle's beacon (R63, R71) -/

theorem Context.due_iff (l : LoopId) (cycle : Word) (c : Context) : c.due l cycle = true ↔
    c.owner = some l ∧ (c.state = .ready ∨ c.state = .active) ∧ c.binding.cls = .periodic ∧
      cycle.toNat % 2 ^ c.fresh.intervalCode.toNat = c.fresh.phase.toNat := by
  have hserves : (c.admittedTo l && c.servable) = true ↔ c.owner = some l ∧ (c.state = .ready ∨ c.state = .active) := by
    unfold Context.admittedTo Context.servable
    cases c.state <;> simp
  rw [Context.due, Bool.and_eq_true, Bool.and_eq_true, hserves, beq_iff_eq, beq_iff_eq]
  tauto

/-- What the windows make of a cycle whose beacon has just ended is what the statements say of it. -/
theorem Part.beaconEnded_eq {l : LoopId} {p : Part} (hturn : (p.eng l).cyc.turn = none) :
    p.beaconEnded l = p.beaconOver l := by
  unfold Part.beaconEnded Part.beaconOver
  have hcond : ((p.eng l).ctl.state = .running && (p.eng l).cyc.phase = .beacon && (p.eng l).cyc.marked.isNone &&
      !(p.eng l).ctl.rollRequest) = true ↔ (p.eng l).ctl.state = .running ∧ (p.eng l).cyc.phase = .beacon ∧
        (p.eng l).cyc.marked = none ∧ (p.eng l).ctl.rollRequest = false := by
    simp only [Bool.and_eq_true, decide_eq_true_eq, Option.isNone_iff_eq_none, Bool.not_eq_true', and_assoc]
  by_cases h : (p.eng l).ctl.state = .running ∧ (p.eng l).cyc.phase = .beacon ∧ (p.eng l).cyc.marked = none ∧
      (p.eng l).ctl.rollRequest = false
  · dsimp only
    rw [if_pos (hcond.mpr h), Part.followWindows_of_running _ _ (by rw [Part.eng_modEng]; exact h.1)
      (by rw [Part.eng_modEng]; exact hturn), Part.modEng_modEng]
    refine Part.modEng_congr l _ _ p ?_
    rw [if_pos h]
    have hdue : (allStations.filter fun i => (p.ctx i).due l (p.eng l).rep.cycleNumber) =
        allStations.filter fun i => (p.ctx i).owner = some l ∧ ((p.ctx i).state = .ready ∨ (p.ctx i).state = .active) ∧
          (p.ctx i).binding.cls = .periodic ∧ (p.eng l).rep.cycleNumber.toNat %
            2 ^ (p.ctx i).fresh.intervalCode.toNat = (p.ctx i).fresh.phase.toNat :=
      List.filter_congr fun i _ => by rw [Bool.eq_iff_iff, Context.due_iff, decide_eq_true_eq]
    have hserved : (∀ i ∈ allStations.filter fun i => (p.ctx i).due l (p.eng l).rep.cycleNumber,
        ¬ ((p.ctx i).owner = some l ∧ ((p.ctx i).state = .ready ∨ (p.ctx i).state = .active))) ↔
          (allStations.filter fun i => (p.ctx i).due l (p.eng l).rep.cycleNumber) = [] := by
      rw [List.eq_nil_iff_forall_not_mem]
      refine forall_congr' fun i => ⟨fun hnot hi => ?_, fun hnone hi => absurd hi hnone⟩
      obtain ⟨-, hi'⟩ := List.mem_filter.mp hi
      obtain ⟨howner, hstate, -⟩ := (Context.due_iff ..).mp hi'
      exact hnot hi ⟨howner, hstate⟩
    have hvisited : (∀ i : StationIx, (p.ctx i).owner = some l ∧
        ((p.ctx i).state = .ready ∨ (p.ctx i).state = .active) ∧ (p.ctx i).binding.cls = .aperiodic →
          i ∈ ([] : List StationIx)) ↔ p.candidates l = [] := by
      rw [List.eq_nil_iff_forall_not_mem]
      simp only [Part.mem_candidates, List.not_mem_nil]
    unfold Part.windowsAfter
    simp only [Part.modEng_ctx, true_and, ite_self, hserved, hvisited]
    rw [hdue]
    have hphase : ∀ (barred empty : Prop) [Decidable barred] [Decidable empty] (after : CyclePhase),
        (if (barred ∨ empty) ∨ CyclePhase.periodic = CyclePhase.aperiodic then after else CyclePhase.periodic) =
          if ¬ empty ∧ ¬ barred then CyclePhase.periodic else after := by
      intro barred empty _ _ after
      by_cases hb : barred <;> by_cases he : empty <;> simp [hb, he]
    simp only [hphase, ne_eq]
  · dsimp only
    rw [if_neg (fun hc => h (hcond.mp hc))]
    refine (Part.modEng_self l _ p ?_).symm
    rw [if_neg h]

@[simp] theorem Part.beaconOver_sched (l : LoopId) (p : Part) : ((p.beaconOver l).eng l).sched = (p.eng l).sched := by
  rw [Part.beaconOver, Part.eng_modEng]
  dsimp only
  split_ifs <;> rfl

@[simp] theorem Part.beaconOver_request (l : LoopId) (p : Part) :
    ((p.beaconOver l).eng l).ctl.rollRequest = (p.eng l).ctl.rollRequest := by
  rw [Part.beaconOver, Part.eng_modEng]
  dsimp only
  split_ifs <;> rfl

/-- A cycle given up to a waiting ROLLCALL opens no window. -/
theorem Part.beaconEnded_request {l : LoopId} {p : Part} (h : (p.eng l).ctl.rollRequest = true) :
    p.beaconEnded l = p := by
  rw [Part.beaconEnded, if_neg]
  rw [h, Bool.not_true, Bool.and_false]
  exact Bool.false_ne_true

/-- A procedure at a transfer or at its end stands, when no roll-call is due. -/
theorem Part.settled_atTransfer {l : LoopId} {p : Part} (h : p.atTransfer l = true)
    (hdue : (p.eng l).rollcallDue = false) : p.settled l = true := by
  rw [Part.settled, Part.paused_of_atTransfer h, hdue]
  rfl

/-- A waiting ROLLCALL is entered when nothing is left under way. -/
theorem Part.proceed_rollcall {l : LoopId} {p : Part} (hstate : (p.eng l).ctl.state = .running)
    (hrequest : (p.eng l).ctl.rollRequest = true) (hturn : (p.eng l).cyc.turn = none) (hs : (p.eng l).sched = [])
    (hphase : (p.eng l).cyc.phase ≠ .boundary) (hsending : (p.eng l).framer.sending = none) :
    p.proceed l = p.rollcallState l [] := by
  rw [Part.proceed_of_idle hs, Part.workOver]
  refine if_pos ⟨hstate, hrequest, hturn, hs, hphase, ?_⟩
  rw [hsending]
  exact nofun

/-- An event of a loop answers what the procedure makes of it. -/
theorem exec_of_event {c : Instr} {s : State} {l : LoopId} {can : Part → Bool} {f : Part → Part} {q : Part}
    (hmem : commandMemory c s = s.mem)
    (hwork : commandWork c s (s.part.tick (commandTime c)) = (s.part.tick (commandTime c)).loopStep l can f)
    (hlive : (s.part.tick (commandTime c)).live = true) (hcan : can (s.part.tick (commandTime c)) = true)
    (hf : (f (s.part.tick (commandTime c))).proceed l = q) : exec c s = .next (s.become q) := by
  rw [exec_eq_become hmem, hwork, Part.loopStep_of hlive hcan, hf]

theorem Engine.countFrameError_hostBuf (e : Engine) : e.countFrameError.hostBuf = e.hostBuf := by
  unfold Engine.countFrameError
  dsimp only
  split <;> rfl

/-- Settles O31: the transmission is cut, and what follows for the sender of the frame. -/
theorem collision : Obligations.Collision := by
  intro dt l x a i s p e cut hlive hinternal hsending
  have hcollide : Engine.collide p.now = cut := rfl
  have hcan : e.drivesLine = true := by
    rw [Engine.drivesLine, hsending, hinternal]
    rfl
  have ends : ∀ {q : Part}, ((p.modEng l cut).abandonedFrame l x.frame.purpose).proceed l = q →
      exec (.collision dt l) s = .next (s.become q) := fun hq => by
    have hframe : p.collision l = (p.modEng l cut).abandonedFrame l x.frame.purpose := by
      rw [Part.collision, show (p.eng l).framer.sending = some x from hsending, ← hcollide]
    exact exec_of_event rfl rfl hlive hcan ((congrArg (Part.proceed l) hframe).trans hq)
  have hcut : (p.modEng l cut).eng l = cut e := Part.eng_modEng ..
  have hframer : (cut e).framer = { e.framer with sending := none, receiver := .discard, activity := some p.now
                                                  markSince := p.now } := Engine.countFrameError_framer _
  have hsched : (cut e).sched = e.sched := Engine.countFrameError_sched _
  have hctl : (cut e).ctl = e.ctl := Engine.countFrameError_ctl _
  have hcyc : (cut e).cyc = e.cyc := Engine.countFrameError_cyc _
  have hxu : (cut e).xu = e.xu := Engine.countFrameError_xu _
  refine ⟨fun hpurpose hsettled hat => ends ?keepalive, fun hpurpose hstate hoff hvalidated hs => ends ?latch,
    fun hpurpose hat hturn hrequest => ends ?beacon, fun hpurpose hstate hrequest hphase hturn hs => ends ?rollcall,
    fun hpurpose => ?failed, fun hpurpose hsent hstation hkind hs hbelow => ends ?direct⟩
  case keepalive =>
    rw [hpurpose]
    show Part.proceed l (p.modEng l cut) = _
    refine Part.proceed_of_settled l _ (Part.settled_atTransfer
      (Part.atTransfer_congr (by rw [hcut, hsched]) hat) ?_)
    have hdue := Part.rollcallDue_of_settled hsettled
    have hbeacon : e.isSending .beacon = false := by
      rw [Engine.isSending_eq, hsending]
      simp [hpurpose]
    have hnone : (cut e).isSending .beacon = false := by
      rw [Engine.isSending_eq, hframer]
      rfl
    rw [hcut, Engine.rollcallDue, hctl, hcyc, hsched, hnone]
    rw [Engine.rollcallDue, show (p.eng l).isSending .beacon = false from hbeacon] at hdue
    exact hdue
  case latch =>
    rw [hpurpose]
    show Part.proceed l (p.modEng l cut) = _
    rw [Part.proceed_startLatch (by rw [hcut, hsched]; exact hs) (by rw [hcut, hframer]) (by rw [hcut, hctl]; exact hoff)
      (by rw [hcut, hctl]; exact hvalidated), Part.modEng_modEng]
    refine Part.modEng_congr l _ _ p ?_
    rw [show (cut (p.eng l)).hostBuf = (p.eng l).hostBuf from Engine.countFrameError_hostBuf _]
  case beacon =>
    rw [hpurpose]
    show Part.proceed l ((p.modEng l cut).beaconEnded l) = _
    rw [Part.beaconEnded_eq (by rw [hcut, hcyc]; exact hturn)]
    exact Part.proceed_of_settled l _ (Part.settled_atTransfer
      (Part.atTransfer_congr (by rw [Part.beaconOver_sched, hcut, hsched]) hat)
      (Engine.rollcallDue_of_request _ (by rw [Part.beaconOver_request, hcut, hctl]; exact hrequest)))
  case rollcall =>
    rw [hpurpose]
    show Part.proceed l ((p.modEng l cut).beaconEnded l) = _
    rw [Part.beaconEnded_request (by rw [hcut, hctl]; exact hrequest),
      Part.proceed_rollcall (by rw [hcut, hctl]; exact hstate) (by rw [hcut, hctl]; exact hrequest)
        (by rw [hcut, hcyc]; exact hturn) (by rw [hcut, hsched]; exact hs)
        (by rw [hcut, hcyc, hphase]; exact CyclePhase.noConfusion) (by rw [hcut, hframer])]
  case failed =>
    intro failed hsettled
    have hframe : (p.modEng l cut).abandonedFrame l x.frame.purpose = failed := by
      rcases hpurpose with h | h <;> rw [h] <;> rfl
    exact ends (by rw [hframe, Part.proceed_of_settled l _ hsettled])
  case direct =>
    rw [hpurpose]
    show Part.proceed l ((p.modEng l cut).attemptFailed l) = _
    rw [Part.attemptFailed_below (a := a) (by rw [hcut, hxu, hsent]) hstation hkind (by rw [hcut, hsched]; exact hs)
      (by rw [Part.modEng_ctx]; exact hbelow), Part.modCtx_modEng, Part.modEng_modEng]
    refine (Part.proceed_of_settled l _ (Part.settled_cons l _ _ _ (congrArg Engine.sched (Part.eng_modEng ..)) rfl)).trans
      ?_
    refine Part.modEng_congr l _ _ _ ?_
    rw [Part.modCtx_eng]
    show Engine.attemptEnded _ (cut e) = _
    rw [Engine.attemptEnded, hcyc]
    rfl

/-- Settles O32: the transmission ends, and what follows for the sender of the frame. -/
theorem endOfFrame : Obligations.EndOfFrame := by
  intro dt l x a s p e ended answers hlive hsending hdone
  have hreceiver : ∀ r : Receiver, r.afterReadback = if r = .readback then .hunt else r := fun r => by cases r <;> rfl
  have hnotInternal : e.ctl.state ≠ .test → e.internalReturn = false := fun h =>
    Engine.internalReturn_eq_false fun hc => h hc.1
  have hend : ∀ e : Engine, Engine.endSend p.now x.frame.purpose e =
      ended (if e.internalReturn = true ∨ x.frame.purpose = .keepalive then none else some p.now) e := fun e => by
    unfold Engine.endSend Engine.activityAfter
    simp only [hreceiver, Bool.or_eq_true, beq_iff_eq]
    rfl
  have ends : ∀ {q : Part} {activity : Option Nat},
      (if e.internalReturn = true ∨ x.frame.purpose = .keepalive then none else some p.now) = activity →
      (e.internalReturn = true → x.frame.chars.length ≤ x.readBack) →
      (Part.sentFrame l x.frame.purpose (p.modEng l (ended activity))).proceed l = q → answers q := by
    intro q activity hactivity hfed hq
    have hframe : p.endOfFrame l = Part.sentFrame l x.frame.purpose (p.modEng l (ended activity)) := by
      rw [Part.endOfFrame, show (p.eng l).framer.sending = some x from hsending]
      refine congrArg (Part.sentFrame l _) (Part.modEng_congr l _ _ p ?_)
      rw [hend, ← hactivity]
    refine exec_of_event rfl rfl hlive ?_ ((congrArg (Part.proceed l) hframe).trans hq)
    show e.sendingDone p.now = true
    rw [Engine.sendingDone, hsending]
    dsimp only
    rw [Bool.and_eq_true, decide_eq_true_eq, Bool.or_eq_true, Bool.not_eq_true', decide_eq_true_eq]
    refine ⟨hdone, ?_⟩
    cases h : e.internalReturn with
    | false => exact .inl rfl
    | true => exact .inr (hfed h)
  have heng : ∀ activity, (p.modEng l (ended activity)).eng l = ended activity e := fun _ => Part.eng_modEng ..
  have stands : p.atTransfer l = true → e.ctl.rollRequest = false ∨ e.cyc.turn.isSome = true → ∀ {f : Engine → Engine},
      (f e).sched = e.sched → (f e).ctl = e.ctl → (f e).cyc = e.cyc → (p.modEng l f).settled l = true := by
    intro hat hnotDue f hsched hctl hcyc
    have hf : (p.modEng l f).eng l = f e := Part.eng_modEng ..
    refine Part.settled_atTransfer (Part.atTransfer_congr (by rw [hf, hsched]) hat) ?_
    rcases hnotDue with h | h
    · exact Engine.rollcallDue_of_request _ (by rw [hf, hctl]; exact h)
    · exact Engine.rollcallDue_of_turn _ (by rw [hf, hcyc]; exact h)
  have external : e.internalReturn = false → e.internalReturn = true → x.frame.chars.length ≤ x.readBack := fun h h' =>
    absurd (h.symm.trans h') Bool.false_ne_true
  have onLine : e.internalReturn = false → x.frame.purpose ≠ .keepalive →
      (if e.internalReturn = true ∨ x.frame.purpose = .keepalive then none else some p.now) = some p.now := fun h h' =>
    if_neg fun hc => hc.elim (fun hc => Bool.false_ne_true (h.symm.trans hc)) h'
  refine ⟨fun hpurpose hstate hrequest hphase hturn hs => ?rollcall, fun hpurpose hstate hoff hvalidated hs => ?latch,
    fun hat hnotDue => ⟨fun hpurpose hinternal hxu hfed => ?fed, fun hpurpose hinternal hxu => ?awaits,
      fun hpurpose hinternal => ?keepalive, fun hpurpose hinternal hturn => ?beacon⟩⟩
  case rollcall =>
    have hinternal := hnotInternal (by rw [hstate]; exact LoopState.noConfusion)
    refine ends (onLine hinternal (by rw [hpurpose]; exact TxPurpose.noConfusion)) (external hinternal) ?_
    rw [hpurpose]
    show Part.proceed l (Part.beaconEnded l _) = _
    rw [Part.beaconEnded_request (by rw [heng]; exact hrequest),
      Part.proceed_rollcall (by rw [heng]; exact hstate) (by rw [heng]; exact hrequest) (by rw [heng]; exact hturn)
        (by rw [heng]; exact hs) (by rw [heng]; exact fun h => CyclePhase.noConfusion (hphase.symm.trans h))
        (by rw [heng])]
  case latch =>
    have hinternal := hnotInternal (by rw [hstate]; exact LoopState.noConfusion)
    refine ends (if_pos (.inr hpurpose)) (external hinternal) ?_
    rw [hpurpose]
    show Part.proceed l (p.modEng l (ended none)) = _
    rw [Part.proceed_startLatch (by rw [heng]; exact hs) (by rw [heng]) (by rw [heng]; exact hoff)
      (by rw [heng]; exact hvalidated), Part.modEng_modEng]
  case fed =>
    refine ends (if_pos (.inl hinternal)) (fun _ => hfed) ?_
    rw [hpurpose]
    show Part.proceed l (Part.modEng l _ (p.modEng l (ended none))) = _
    have hawait : ∀ now, ExchangeUnit.idle.await now = ExchangeUnit.idle := fun _ => rfl
    rw [Part.modEng_self l _ (p.modEng l (ended none)) (by
      rw [heng]
      refine congrArg (fun xu => { ended none e with xu := xu }) ?_
      show e.xu.await _ = e.xu
      rw [hxu, hawait])]
    exact Part.proceed_of_settled l _ (stands hat hnotDue rfl rfl rfl)
  case awaits =>
    refine ends (onLine hinternal (by rcases hpurpose with h | h <;> rw [h] <;> exact TxPurpose.noConfusion))
      (external hinternal) ?_
    have hsent : Part.sentFrame l x.frame.purpose (p.modEng l (ended (some p.now))) = p.modEng l fun e =>
        { ended (some p.now) e with
          xu := { state := .awaiting, attempt := some { a with endOfFrame := p.now } } } := by
      have hboth : Part.sentFrame l x.frame.purpose (p.modEng l (ended (some p.now))) =
          Part.modEng l (fun e => { e with xu := e.xu.await p.now }) (p.modEng l (ended (some p.now))) := by
        rcases hpurpose with h | h <;> rw [h] <;> exact congrArg (fun now => Part.modEng l (fun e =>
          { e with xu := e.xu.await now }) (p.modEng l (ended (some p.now)))) (Part.modEng_now ..)
      rw [hboth, Part.modEng_modEng]
      refine Part.modEng_congr l _ _ p ?_
      refine congrArg (fun xu => { ended (some p.now) e with xu := xu }) ?_
      show e.xu.await p.now = _
      rw [hxu] <;> rfl
    rw [hsent]
    exact Part.proceed_of_settled l _ (stands hat hnotDue rfl rfl rfl)
  case keepalive =>
    refine ends (if_pos (.inr hpurpose)) (external hinternal) ?_
    rw [hpurpose]
    exact Part.proceed_of_settled l _ (stands hat hnotDue rfl rfl rfl)
  case beacon =>
    refine ends (onLine hinternal (by rw [hpurpose]; exact TxPurpose.noConfusion)) (external hinternal) ?_
    rw [hpurpose]
    show Part.proceed l (Part.beaconEnded l _) = _
    have hrequest : e.ctl.rollRequest = false := hnotDue.resolve_right (by rw [hturn]; exact Bool.false_ne_true)
    rw [Part.beaconEnded_eq (by rw [heng]; exact hturn)]
    exact Part.proceed_of_settled l _ (Part.settled_atTransfer
      (Part.atTransfer_congr (by rw [Part.beaconOver_sched, heng]) hat)
      (Engine.rollcallDue_of_request _ (by rw [Part.beaconOver_request, heng]; exact hrequest)))

end Sys2Proof.Machine
end

