-- ==== Sys2Proof/Proofs/Boundaries.lean ====
section
/-!
Grid points, the announce window and the boundary as it is taken (R57 to R60, R72).
-/
namespace Sys2Proof.Machine

open Sys2Proof

/-- An event that leads to no work of a procedure answers its effect. -/
theorem exec_of_loopEvent {c : Instr} {s : State} {can : Part → Bool} {f : Part → Part} {q : Part}
    (hmem : commandMemory c s = s.mem)
    (hwork : commandWork c s (s.part.tick (commandTime c)) = (s.part.tick (commandTime c)).loopEvent can f)
    (hlive : (s.part.tick (commandTime c)).live = true) (hcan : can (s.part.tick (commandTime c)) = true)
    (hf : f (s.part.tick (commandTime c)) = q) : exec c s = .next (s.become q) := by
  rw [exec_eq_become hmem, hwork, Part.loopEvent_of hlive hcan, hf]

/-- While a turn is under way no window follows. -/
theorem Part.followWindows_of_turn {l : LoopId} {p : Part} (h : (p.eng l).cyc.turn ≠ none) : p.followWindows l = p := by
  unfold Part.followWindows
  dsimp only
  rw [if_neg]
  rw [Bool.and_eq_true, Option.isNone_iff_eq_none]
  exact fun hc => h hc.2

/-- What the announce window makes of the windows, where it starts. -/
theorem Part.announceWindow_eq {l : LoopId} {p : Part} (hstate : (p.eng l).ctl.state = .running) :
    p.announceWindow l = p.modEng l fun e =>
      let start := e.cyc.boundaryAt + e.cfg.cycleLength.toNat * 2500 - e.cfg.announceWindow.toNat * 2500
      let passed := e.cyc.turn = none ∧ e.cyc.phase = .periodic ∧ (e.cyc.beaconEnd < start ∨
        ¬ ∃ i ∈ e.cyc.dueSet, (p.ctx i).owner = some l ∧ ((p.ctx i).state = .ready ∨ (p.ctx i).state = .active))
      { e with cyc := { e.cyc with
          announceStarted := true
          visited := if passed then [] else e.cyc.visited
          phase := if passed ∨ (e.cyc.turn = none ∧ e.cyc.phase = .aperiodic) then .closed else e.cyc.phase } } := by
  unfold Part.announceWindow
  by_cases hturn : (p.eng l).cyc.turn = none
  · rw [Part.followWindows_of_running _ _ (by rw [Part.eng_modEng]; exact hstate)
      (by rw [Part.eng_modEng]; exact hturn), Part.modEng_modEng]
    refine Part.modEng_congr l _ _ p ?_
    unfold Part.windowsAfter
    simp only [Part.modEng_ctx, hturn, true_and, true_or, if_true, not_exists, not_and]
  · rw [Part.followWindows_of_turn (by rw [Part.eng_modEng]; exact hturn)]
    refine Part.modEng_congr l _ _ p ?_
    simp only [hturn, false_and, or_self, if_false]

/-- Settles O33: a grid point is marked, the announce window starts, and a marked boundary is taken. -/
theorem boundary : Obligations.Boundary := by
  intro dt l g s p e receiving asking awaited taken
  have htaken : e.lineTaken = taken := by
    have hreceiving : e.framer.receiver.receiving = receiving := by
      simp only [receiving]
      cases e.framer.receiver <;> rfl
    have hasking : e.isSending .request = asking := rfl
    rw [Engine.lineTaken, hreceiving, hasking]
    simp only [taken, awaited, Bool.or_assoc]
  refine ⟨htaken, fun hlive hstate => ⟨fun hgrid hcome => ?_, ?_, fun hmarked hturn hrequest hphase hbeacon hat => ?_⟩⟩
  · refine exec_of_loopEvent (can := fun p => (p.eng l).gridDue p.now) (f := Part.gridPoint l) rfl rfl hlive ?_ ?_
    · show e.gridDue p.now = true
      rw [Engine.gridDue, hstate, hgrid]
      exact decide_eq_true hcome
    · show p.gridPoint l = _
      rw [Part.gridPoint, show (p.eng l).cyc.nextGrid = some g from hgrid]
      refine Part.modEng_congr l _ _ p ?_
      have hcyc : (if e.cyc.phase = .beacon then e.dropHeld .beacon else e).cyc = e.cyc := by
        split <;> simp [Engine.dropHeld_eq]
      show Engine.markBoundary g e = _
      rw [Engine.markBoundary]
      dsimp only
      rw [hcyc, htaken]
      rfl
  · intro hwindow hphase start served passed hcome
    refine exec_of_loopEvent (can := fun p => (p.eng l).announceDue p.now) (f := Part.announceWindow l) rfl rfl hlive ?_
      ((Part.announceWindow_eq hstate).trans (Part.modEng_congr l _ _ p rfl))
    show e.announceDue p.now = true
    rw [Engine.announceDue, hstate]
    simp only [Bool.and_eq_true, bne_iff_ne, decide_eq_true_eq]
    exact ⟨⟨⟨rfl, hphase⟩, hwindow⟩, hcome⟩
  · have hframe : p.boundaryTaken l = p.modEng l fun e =>
        { e.dropHeld .beacon with
          cyc := { e.cyc with
            marked := none, late := false, lateTaken := e.cyc.late, boundaryAt := g, phase := .boundary
            dueSet := [], visited := [], announceStarted := false }
          sched := e.sched ++ (allStations.map .readStationHost ++ allStations.map .judge
            ++ [.mark, .retimeStep, .mark, .cycleStep, .reportStep, .writeLoopHalf, .raiseRetimeRefused,
                .mark, .beaconStep]) } := by
      rw [Part.boundaryTaken, show (p.eng l).cyc.marked = some g from hmarked]
      show p.takeBoundary l g = _
      rw [Part.takeBoundary, Part.push, Part.modEng_modEng]
      refine Part.modEng_congr l _ _ p ?_
      rw [Engine.dropHeld_eq]
      rfl
    refine exec_of_loopStep rfl rfl hlive ?_ hframe ?_
    · show e.takesBoundary = true
      rw [Engine.takesBoundary, hmarked, hstate, hturn, hrequest, hbeacon]
      simp [hphase]
    · refine Part.settled_append l p _ (.readStationHost 0) boundaryOps.tail hat ?_ rfl
      rw [Part.eng_modEng] <;> rfl

end Sys2Proof.Machine
end

