-- ==== Sys2Proof/Proofs/Turns.lean ====
section
/-!
The completed transfer of a procedure (R164), and the turn that the Scheduler picks (R64, R66, R70).
-/
namespace Sys2Proof.Machine

open Sys2Proof

/-! ### Completed transfers of a procedure -/

/-- The bytes that a transfer has read when it ends, the host's writes being made before. -/
def Transfer.dataAfter (t : Transfer) (ws : List (Word × Byte)) (m : Memory) : List Byte :=
  t.action.data (Memory.hostWrites m ws)

theorem Transfer.apply_eq_memoryAfter (t : Transfer) (ws : List (Word × Byte)) (m : Memory) :
    t.action.apply (Memory.hostWrites m ws) = t.memoryAfter ws m := by
  unfold BusAction.apply Transfer.memoryAfter
  cases t.action <;> rfl

theorem Part.popSched_eq {l : LoopId} {p : Part} {op : SchedOp} {rest : List SchedOp}
    (h : (p.eng l).sched = op :: rest) : p.popSched l = p.withSched l rest :=
  Part.modEng_congr l _ _ p (by rw [h, List.drop_succ_cons, List.drop_zero])

/-- A transfer of a procedure that has ended leads to what its operation leads to, and then to the acts after it. -/
theorem exec_of_transfer {dt : Nat} {ws : List (Word × Byte)} {l : LoopId} {t : Transfer} {s : State} {op : SchedOp}
    {rest : List SchedOp} {q : Part} (hlive : (s.part.tick dt).live = true) (ht : s.part.port.inFlight = some t)
    (horphan : t.orphan = false) (hrequester : t.requester = .sched l) (hurgent : t.urgent = false)
    (hs : ((s.part.tick dt).eng l).sched = op :: rest)
    (hq : (Part.schedDone l op (t.dataAfter ws s.mem) (((s.part.tick dt).freePort).withSched l rest)).proceed l = q) :
    exec (.transferComplete dt ws) s = .next (State.become { s with mem := t.memoryAfter ws s.mem } q) := by
  have hmem : commandMemory (.transferComplete dt ws) s = t.memoryAfter ws s.mem := by
    unfold commandMemory
    rw [ht]
    exact Transfer.apply_eq_memoryAfter ..
  have hsched : (((s.part.tick dt).freePort).eng l).sched = op :: rest := by
    rw [Part.freePort_eng]
    exact hs
  have hwork : commandWork (.transferComplete dt ws) s (s.part.tick dt) = q := by
    unfold commandWork
    rw [ht]
    show (s.part.tick dt).completeTransfer t (t.dataAfter ws s.mem) = q
    rw [Part.completeTransfer, if_pos hlive, Part.transferDone, horphan, if_neg Bool.false_ne_true, hrequester]
    show Part.proceed l (Part.schedTransferDone l t.urgent _ _) = q
    rw [← hq, Part.schedTransferDone, hurgent, if_neg Bool.false_ne_true, hsched]
    dsimp only
    rw [Part.popSched_eq hsched]
  rw [exec_eq, hmem, State.become]
  exact congrArg (fun w : Part => Host.Outcome.next { s with part := w.arbitrate, mem := t.memoryAfter ws s.mem }) hwork

/-- The acts made, a procedure at its end goes on to a roll-call that waits for it. -/
theorem Part.Acts.proceed_idle {l : LoopId} {n : Nat} {p q : Part} (h : Part.Acts l n p q) (hn : n ≤ 200)
    (hq : (q.eng l).sched = []) : p.proceed l = q.workOver l := by
  have hm := h (200 - n)
  rw [Nat.sub_add_cancel hn] at hm
  unfold Part.proceed
  rw [show Config.actBound = 200 from rfl, hm, Part.runSched_of_paused _ l q (Part.paused_nil q l hq),
    Part.rollcallIfDue_eq]

/-! ### The station of the next turn (R66, R70) -/

/-- The first station of all that has a property. -/
theorem find_allStations_eq_some_iff (f : StationIx → Bool) (i : StationIx) :
    allStations.find? f = some i ↔ f i = true ∧ ∀ j, j < i → f j = false := by
  unfold allStations
  rw [List.find?_eq_some_iff_getElem]
  simp only [List.getElem_finRange, List.length_finRange, Bool.not_eq_true']
  refine and_congr_right fun _ => ⟨?_, fun hbefore => ?_⟩
  · rintro ⟨n, hn, rfl, hbefore⟩ j hj
    exact hbefore j.val (by simpa [Fin.lt_def] using hj)
  · exact ⟨i.val, i.isLt, by simp, fun j hj => hbefore ⟨j, by omega⟩ (by simpa [Fin.lt_def] using hj)⟩

theorem Context.candidate_iff (l : LoopId) (c : Context) : c.candidate l = true ↔
    (c.owner = some l ∧ (c.state = .ready ∨ c.state = .active)) ∧ c.binding.cls = .aperiodic := by
  unfold Context.candidate Context.admittedTo Context.servable
  cases c.state <;> cases c.binding.cls <;> simp

/-- The candidate that the pointer picks. -/
theorem Part.nextCandidate_eq {l : LoopId} {i : StationIx} {p : Part} (hi : (p.ctx i).candidate l = true)
    (hpicked : ((p.eng l).cyc.pointer ≤ i ∧
        ∀ j, (p.ctx j).candidate l = true → j < i → j < (p.eng l).cyc.pointer) ∨
      ∀ j, (p.ctx j).candidate l = true → j < (p.eng l).cyc.pointer ∧ i ≤ j) : p.nextCandidate l = some i := by
  unfold Part.nextCandidate Part.candidates
  rw [List.find?_filter]
  rcases hpicked with ⟨habove, hbefore⟩ | hbelow
  · have hfind : (allStations.find? fun a => decide ((p.ctx a).candidate l = true ∧
        decide ((p.eng l).cyc.pointer.val ≤ a.val) = true)) = some i := by
      rw [find_allStations_eq_some_iff]
      refine ⟨?_, fun j hj => ?_⟩
      · rw [decide_eq_true_eq, decide_eq_true_eq]
        exact ⟨hi, habove⟩
      · by_contra hc
        rw [Bool.not_eq_false, decide_eq_true_eq, decide_eq_true_eq] at hc
        exact absurd (hbefore j hc.1 hj) (by rw [Fin.lt_def]; omega)
    simp only [hfind]
  · have hnone : (allStations.find? fun a => decide ((p.ctx a).candidate l = true ∧
        decide ((p.eng l).cyc.pointer.val ≤ a.val) = true)) = none := by
      rw [List.find?_eq_none]
      intro j _ hc
      rw [decide_eq_true_eq, decide_eq_true_eq] at hc
      have := (hbelow j hc.1).1
      rw [Fin.lt_def] at this
      omega
    simp only [hnone]
    rw [List.head?_filter, find_allStations_eq_some_iff]
    refine ⟨hi, fun j hj => ?_⟩
    by_contra hc
    rw [Bool.not_eq_false] at hc
    have := (hbelow j hc).2
    rw [Fin.le_def] at this
    rw [Fin.lt_def] at hj
    omega

/-- The windows before a turn that is picked, and the station that is picked in them. -/
theorem Part.followWindows_picks {l : LoopId} {i : StationIx} {periodic : Bool} {rest : List StationIx} {p : Part}
    (h : p.picks l i periodic rest) :
    p.followWindows l = p.modEng l fun e =>
      { e with cyc := { e.cyc with
          phase := if periodic then .periodic else .aperiodic
          visited := if periodic = false ∧ e.cyc.phase = .periodic then [] else e.cyc.visited } } := by
  obtain ⟨-, hstate, -, -, hturn, -, -, hperiodic, haperiodic⟩ := h
  rw [Part.followWindows_of_running p l hstate hturn]
  refine Part.modEng_congr l _ _ p ?_
  dsimp only
  refine congrArg (fun c => { p.eng l with cyc := c }) ?_
  unfold Part.windowsAfter
  dsimp only
  cases periodic with
  | true =>
    obtain ⟨hphase, hopen, hserves, skipped, hdue, -⟩ := hperiodic rfl
    have hnot : ¬ ((p.eng l).cyc.phase = .periodic ∧ (((p.eng l).cyc.announceStarted = true ∧
        (p.eng l).cyc.beaconEnd < (p.eng l).cyc.boundaryAt + (p.eng l).cfg.cycleLength.toNat * 2500 -
          (p.eng l).cfg.announceWindow.toNat * 2500) ∨ ∀ i ∈ (p.eng l).cyc.dueSet, ¬ p.serves l i)) := by
      rintro ⟨-, ⟨hstarted, hbefore⟩ | hnone⟩
      · rcases hopen with h | h
        · exact Bool.false_ne_true (h.symm.trans hstarted)
        · omega
      · exact hnone i (by rw [hdue]; simp) hserves
    rw [if_neg hnot, if_neg (not_or.mpr ⟨hnot, by rw [hphase]; exact CyclePhase.noConfusion⟩), hphase]
    simp
  | false =>
    obtain ⟨hstarted, hdue, hcandidate, hphase, -⟩ := haperiodic rfl
    have hshut : ∀ visited : List StationIx, (∃ j, (p.serves l j ∧ (p.ctx j).binding.cls = .aperiodic) ∧ j ∉ visited) →
        ¬ ((p.eng l).cyc.announceStarted = true ∨ ∀ i, (p.ctx i).owner = some l ∧ ((p.ctx i).state = .ready ∨
          (p.ctx i).state = .active) ∧ (p.ctx i).binding.cls = .aperiodic → i ∈ visited) := by
      rintro visited ⟨j, ⟨⟨howner, hready⟩, hclass⟩, hj⟩ (h | h)
      · exact Bool.false_ne_true (hstarted.symm.trans h)
      · exact hj (h j ⟨howner, hready, hclass⟩)
    rcases hphase with ⟨hphase, hleft⟩ | ⟨hphase, hnone⟩
    · simp only [hphase, reduceCtorEq, false_and, and_false, or_true, if_true, if_false, Bool.false_eq_true]
      rw [if_neg (hshut _ hleft)]
    · have hpassed : (p.eng l).cyc.phase = .periodic ∧ (((p.eng l).cyc.announceStarted = true ∧
          (p.eng l).cyc.beaconEnd < (p.eng l).cyc.boundaryAt + (p.eng l).cfg.cycleLength.toNat * 2500 -
            (p.eng l).cfg.announceWindow.toNat * 2500) ∨ ∀ i ∈ (p.eng l).cyc.dueSet, ¬ p.serves l i) :=
        ⟨hphase, .inr (hdue ▸ hnone)⟩
      rw [if_pos hpassed, if_pos (.inl hpassed), if_neg (hshut [] ⟨i, hcandidate, List.not_mem_nil⟩)]
      simp only [hphase, and_self, if_true, if_false, Bool.false_eq_true]

/-- What a turn begins with: its fit test with a record in hand, and its fetch without one. -/
def Part.turnWork (l : LoopId) (i : StationIx) (p : Part) : Part :=
  match (p.ctx i).inHand, (p.ctx i).parked with
  | some _, _ => p.push l [.fitTest i]
  | none, some _ => p.push l [.readLink i]
  | none, none => p.followLink l i (p.ctx i).fresh.chainHead

theorem Part.startTurn_eq {l : LoopId} {i : StationIx} {periodic : Bool} {q b : Part}
    (hb : (q.modEng l fun e => { e with cyc := { e.cyc with turn := some (Turn.begun i periodic) } }) = b)
    (hctx : b.ctx i = q.ctx i) : q.startTurn l i periodic = b.turnWork l i := by
  unfold Part.startTurn Part.turnWork
  rw [hctx, ← hb] <;> rfl

/-- The turn of the station that is picked begins. -/
theorem Part.nextTurn_picks {l : LoopId} {i : StationIx} {periodic : Bool} {rest : List StationIx} {p : Part}
    (h : p.picks l i periodic rest) :
    p.nextTurn l = (p.turnBegun l i periodic rest).turnWork l i := by
  have hq := Part.followWindows_picks h
  unfold Part.nextTurn
  generalize p.followWindows l = q at hq ⊢
  dsimp only
  have hcyc : (q.eng l).cyc = { (p.eng l).cyc with
      phase := if periodic then .periodic else .aperiodic
      visited := if periodic = false ∧ (p.eng l).cyc.phase = .periodic then [] else (p.eng l).cyc.visited } := by
    rw [hq, Part.eng_modEng]
  have hctx : ∀ j, q.ctx j = p.ctx j := fun j => by rw [hq, Part.modEng_ctx]
  obtain ⟨-, -, -, -, -, -, -, hperiodic, haperiodic⟩ := h
  cases periodic with
  | true =>
    obtain ⟨-, -, hserves, skipped, hdue, hskipped⟩ := hperiodic rfl
    have hdrop : (q.eng l).cyc.dueSet.dropWhile (fun j => !q.mayServe l j) = i :: rest := by
      rw [hcyc]
      dsimp only
      rw [hdue, List.dropWhile_append_of_pos, List.dropWhile_cons_of_neg]
      · rw [Bool.not_eq_true', Bool.not_eq_false, Part.mayServe_iff, hctx]
        exact hserves
      · intro j hj
        rw [Bool.not_eq_true', ← Bool.not_eq_true, Part.mayServe_iff, hctx]
        exact hskipped j hj
    rw [hdrop, hcyc]
    refine Part.startTurn_eq ?_ ?_
    · rw [hq, Part.modEng_modEng, Part.modEng_modEng, Part.turnBegun]
    · rw [Part.turnBegun, Part.modEng_ctx, Part.modEng_ctx, hctx]
  | false =>
    obtain ⟨-, hdue, hcandidate, -, hpicked⟩ := haperiodic rfl
    have hnext : q.nextCandidate l = some i := by
      refine Part.nextCandidate_eq (by rw [hctx, Context.candidate_iff]; exact hcandidate) ?_
      simp only [hctx, Context.candidate_iff, hcyc]
      exact hpicked
    rw [hnext, hcyc]
    refine Part.startTurn_eq ?_ ?_
    · rw [hq, Part.modEng_modEng, Part.turnBegun]
      refine Part.modEng_congr l _ _ p ?_
      rw [← hdue]
    · rw [Part.turnBegun, Part.modEng_ctx, hctx]

/-! ### A turn that comes to its fit test (R34, R64) -/

theorem Part.Acts.trans {l : LoopId} {n m : Nat} {p q r : Part} (h : Part.Acts l n p q) (h' : Part.Acts l m q r) :
    Part.Acts l (m + n) p r := fun k => by
  rw [← Nat.add_assoc, h, h']

theorem Part.pushFront_of_idle {l : LoopId} {p : Part} {ops : List SchedOp} (h : (p.eng l).sched = []) :
    p.pushFront l ops = p.withSched l ops :=
  Part.modEng_congr l _ _ p (by rw [h, List.append_nil])

theorem Part.turnFree_of_picks {l : LoopId} {i : StationIx} {periodic : Bool} {rest : List StationIx} {p : Part}
    (h : p.picks l i periodic rest) : (p.eng l).turnFree = true := by
  obtain ⟨-, hstate, hmarked, hrequest, hturn, hs, hxu, -⟩ := h
  rw [Engine.turnFree, Engine.mayAttempt, hstate, hmarked, hrequest, hturn, hs, hxu]
  rfl

theorem RecordCopy.not_bad {r : RecordCopy} {relayed : Bool} (h : r.good relayed) : r.bad relayed = false := by
  obtain ⟨hkind, hrelayed⟩ := h
  have hlong : (relayed && decide (93 < r.requestLength.toNat)) = false := by
    cases relayed with
    | false => rfl
    | true => exact decide_eq_false (Nat.not_lt.mpr (hrelayed rfl))
  unfold RecordCopy.bad
  dsimp only
  rw [hlong, Bool.or_false]
  rcases hkind with ⟨hkind, hn⟩ | ⟨hkind, hlow, hhigh⟩
  · rw [hkind]
    simp [hn]
  · rw [hkind]
    simp
    omega

theorem Context.relayed_iff (c : Context) : c.relayed = true ↔ c.binding.coupler ≠ 0xFF := by
  rw [Context.relayed, Bool.not_eq_true', ← Bool.not_eq_true, Binding.direct_iff]

/-- The command brings the loop to the fit test: what the acts from there on come to is its answer. -/
theorem exec_of_fit {l : LoopId} {i : StationIx} {turn : Turn} {command : Instr} {p : Part} {m : Memory} {s : State}
    (h : s.comesToFit l i turn command p m) (hk : (p.eng l).mayAttempt = true → (p.ctx i).inHand.isSome = true) :
    (p.eng l).sched = [] ∧ (p.eng l).cyc.turn = some turn ∧
      ∀ n q, Part.Acts l n (p.withSched l [.fitTest i]) q → n ≤ 100 →
        (q.settled l = true → exec command s = .next (State.become { s with mem := m } q)) ∧
          ((q.eng l).sched = [] → exec command s = .next (State.become { s with mem := m } (q.workOver l))) := by
  rcases h with ⟨dt, rest, rfl, rfl, hpicks, hturn, rfl⟩ | ⟨dt, ws, t, r, rfl, ht, rfl, hlive, hrequester, horphan,
    hurgent, hs, hturn, hcopy, hgood, rfl⟩
  · have heng : ((s.part.tick dt).turnBegun l i turn.periodic rest).eng l = _ := Part.eng_modEng ..
    have hfree := Part.turnFree_of_picks hpicks
    have hframe := Part.nextTurn_picks hpicks
    obtain ⟨hlive, hstate, hmarked, hrequest, hnone, hs, hxu, -⟩ := hpicks
    have hsched : (((s.part.tick dt).turnBegun l i turn.periodic rest).eng l).sched = [] := by rw [heng]; exact hs
    refine ⟨hsched, by rw [heng]; exact congrArg some hturn.symm, fun n q hacts hn => ?_⟩
    have hmay : (((s.part.tick dt).turnBegun l i turn.periodic rest).eng l).mayAttempt = true := by
      rw [heng, Engine.mayAttempt]
      dsimp only
      rw [hstate, hmarked, hrequest]
      rfl
    have hinHand := hk hmay
    obtain ⟨k, hinHand⟩ := Option.isSome_iff_exists.mp hinHand
    have hfit : Part.turnWork l i ((s.part.tick dt).turnBegun l i turn.periodic rest) =
        ((s.part.tick dt).turnBegun l i turn.periodic rest).withSched l [.fitTest i] := by
      unfold Part.turnWork
      rw [hinHand]
      exact Part.push_of_idle hsched
    rw [hfit] at hframe
    refine ⟨fun hq => exec_of_event rfl rfl hlive hfree ?_, fun hq => exec_of_event rfl rfl hlive hfree ?_⟩
    · exact (congrArg (Part.proceed l) hframe).trans (hacts.proceed (by omega) hq)
    · exact (congrArg (Part.proceed l) hframe).trans (hacts.proceed_idle (by omega) hq)
  · have hb : Part.modEng l (fun e => { e with sched := [] })
        { s.part.tick dt with port := { (s.part.tick dt).port with inFlight := none } } =
          ((s.part.tick dt).freePort).withSched l [] := rfl
    rw [hb]
    generalize hbase : ((s.part.tick dt).freePort).withSched l [] = b at hk ⊢
    have hctx : b.ctx i = (s.part.tick dt).ctx i := by
      rw [← hbase, Part.withSched, Part.modEng_ctx, Part.freePort_ctx]
    have hsched : (b.eng l).sched = [] := by rw [← hbase, Part.withSched_sched]
    have hwith : ∀ ops, b.withSched l ops = ((s.part.tick dt).freePort).withSched l ops := fun ops => by
      rw [← hbase, Part.withSched, Part.withSched, Part.modEng_modEng, Part.withSched]
    have hcheck : Part.act l (.takeCheck i) (b.withSched l []) = b.withSched l [.fitTest i] := by
      rw [Part.withSched_self hsched]
      show b.takeCheck l i = _
      rw [Part.takeCheck, hctx, hcopy]
      dsimp only
      rw [RecordCopy.not_bad (relayed := ((s.part.tick dt).ctx i).relayed)
        ⟨hgood.1, fun hr => hgood.2 (decide_eq_true ((Context.relayed_iff _).mp hr))⟩, if_neg Bool.false_ne_true,
        Part.pushFront_of_idle hsched]
    have htaken : Part.Acts l 1 (((s.part.tick dt).freePort).withSched l [.takeCheck i]) (b.withSched l [.fitTest i]) :=
      hwith [.takeCheck i] ▸
        Part.Acts.step (Part.waitsAt_act rfl SchedOp.noConfusion) hcheck (Part.Acts.refl l _)
    refine ⟨hsched, ?_, fun n q hacts hn => ⟨fun hq => ?_, fun hq => ?_⟩⟩
    · rw [← hbase, Part.withSched_eng, Part.freePort_eng]
      exact hturn
    · exact exec_of_transfer hlive ht horphan hrequester hurgent hs ((htaken.trans hacts).proceed (by omega) hq)
    · exact exec_of_transfer hlive ht horphan hrequester hurgent hs ((htaken.trans hacts).proceed_idle (by omega) hq)

end Sys2Proof.Machine
end

