-- ==== Sys2Proof/Proofs/FitTests.lean ====
section
/-!
The fit test of a turn and what comes of it (R64 to R71, R99, R101).
-/
namespace Sys2Proof.Machine

open Sys2Proof

/-! ### The estimate and the window (R65, R67, R71) -/

theorem charTime_pos (rate : Byte) : 0 < Config.charTime rate := by
  unfold Config.charTime
  split_ifs <;> decide

/-- The end of the window of a turn. -/
def Engine.windowEnd (e : Engine) (periodic : Bool) : Nat :=
  if periodic then min (e.cyc.beaconEnd + e.cfg.periodicBudget.toNat * 2500)
    (e.cyc.boundaryAt + e.cfg.cycleLength.toNat * 2500 - e.cfg.announceWindow.toNat * 2500)
  else e.cyc.boundaryAt + e.cfg.cycleLength.toNat * 2500 - e.cfg.announceWindow.toNat * 2500

/-- An attempt fits when it ends by the end of the window. -/
theorem Part.fits_iff (p : Part) (l : LoopId) (k : AttemptKind) (i : StationIx) (periodic : Bool) :
    p.fits l k i periodic = true ↔ p.now + p.estimate l k i ≤ (p.eng l).windowEnd periodic := by
  have hpos : 0 < p.estimate l k i :=
    Nat.add_pos_left (Nat.mul_pos (by omega) (charTime_pos _)) _
  have hleft : p.timeLeft l periodic = (p.eng l).windowEnd periodic - p.now := rfl
  rw [Part.fits, decide_eq_true_eq, hleft]
  omega

/-! ### The request of an attempt (R8, R9, R75) -/

theorem controlByte_eq (k : AttemptKind) (seq sync : Bool) : controlByte k.frameKind seq sync = k.control seq sync := by
  cases k <;> cases seq <;> cases sync <;> rfl

/-- An attempt that is started in RUNNING. -/
theorem Part.startAttempt_eq {l : LoopId} {p : Part} (hstate : (p.eng l).ctl.state = .running) (k : AttemptKind)
    (i : StationIx) :
    p.startAttempt l k i = p.modEng l fun e =>
      Engine.transmits p.now (p.requestFrame k i)
        { e with
          xu := { state := .sending, attempt := some (p.attemptRecord k i) }
          cyc := { e.cyc with
            attempted := true, visited := []
            turn := e.cyc.turn.map fun t => { t with stage := .attempt, attempted := true } } } := by
  unfold Part.startAttempt Part.sendRequest
  rw [Part.modEng_modEng]
  refine Part.modEng_congr l _ _ p ?_
  have hctx : ∀ f : Engine → Engine, (p.modEng l f).requestFrame k i = p.requestFrame k i ∧
      (p.modEng l f).attemptRecord k i = p.attemptRecord k i := fun f => by
    unfold Part.requestFrame Part.attemptRecord Part.addressee
    simp only [Part.modEng_ctx, and_self]
  rw [(hctx _).1, (hctx _).2, Part.modEng_now]
  refine Engine.handFrame_eq ?_ ?_
  · show (p.eng l).ctl.state.maySend .request = true
    rw [hstate]
    rfl
  · exact Engine.internalReturn_eq_false fun h => LoopState.noConfusion (hstate.symm.trans h.1)

/-! ### The ends of the fit test -/

section
variable {l : LoopId} {i : StationIx} {turn : Turn} {p q : Part}

/-- A fit test that ends the turn. -/
theorem Part.acts_fitTest_over (hs : (p.eng l).sched = []) (hq : (q.eng l).sched = [])
    (hturn : (q.eng l).cyc.turn = some turn) (hfit : p.fitTest l i = q.withSched l [.endTurn]) :
    Part.Acts l 2 (p.withSched l [.fitTest i]) (q.turnOver l turn) := by
  refine Part.Acts.step (Part.waitsAt_act rfl SchedOp.noConfusion)
    ((congrArg (Part.fitTest l i) (Part.withSched_self hs)).trans hfit)
    (Part.Acts.step (Part.waitsAt_act rfl SchedOp.noConfusion)
      ((congrArg (Part.endTurn l) (Part.withSched_self hq)).trans (Part.endTurn_eq l q turn hturn))
      (Part.Acts.refl l _))

/-- A fit test that leaves the turn waiting. -/
theorem Part.acts_fitTest (hs : (p.eng l).sched = []) (hfit : p.fitTest l i = q) :
    Part.Acts l 1 (p.withSched l [.fitTest i]) q :=
  Part.Acts.step (Part.waitsAt_act rfl SchedOp.noConfusion)
    ((congrArg (Part.fitTest l i) (Part.withSched_self hs)).trans hfit) (Part.Acts.refl l _)

@[simp] theorem Part.turnOver_sched : ((p.turnOver l turn).eng l).sched = (p.eng l).sched := by
  rw [Part.turnOver, Part.eng_modEng]

@[simp] theorem Part.turnOver_ctl : ((p.turnOver l turn).eng l).ctl = (p.eng l).ctl := by
  rw [Part.turnOver, Part.eng_modEng]

theorem Part.workOver_of_request (h : (p.eng l).ctl.rollRequest = false) : p.workOver l = p := by
  rw [Part.workOver, if_neg]
  rintro ⟨-, hrequest, -⟩
  exact Bool.false_ne_true (h.symm.trans hrequest)

/-- The turn ends the same, whatever it was before. -/
theorem Part.turnOver_modTurn (change : Turn → Turn) :
    (p.modEng l fun e => { e with cyc := { e.cyc with turn := e.cyc.turn.map change } }).turnOver l turn =
      p.turnOver l turn := by
  unfold Part.turnOver
  rw [Part.modEng_modEng]
  refine Part.modEng_congr l _ _ p ?_
  simp only [Part.modEng_ctx]

end

/-! ### A miss (R67, R68) -/

/-- The engine once a due station of its turn has been passed for want of time: `ops` is what the miss schedules. -/
def Engine.missed (turn : Turn) (ops : List SchedOp) (e : Engine) : Engine :=
  { e with
    cyc := { e.cyc with turn := some { turn with stage := .writes }, overrun := true }
    rep := { e.rep with overruns := if e.cyc.overrun then e.rep.overruns else satInc e.rep.overruns }
    sched := ops ++ (if e.cyc.overrun then [] else [.raise .overrun]) ++ [.endTurn] }

/-- A missed cycle in the context of the station. -/
def Context.countMissed (c : Context) : Context := { c with missCount := satInc c.missCount }

section
variable {l : LoopId} {i : StationIx} {turn : Turn} {p : Part}

/-- The engine once the overrun of a miss has been noted. -/
def Engine.overran (e : Engine) : Engine :=
  { e with
    cyc := { e.cyc with turn := e.cyc.turn.map fun t => { t with stage := .writes }, overrun := true }
    rep := { e.rep with overruns := if e.cyc.overrun then e.rep.overruns else satInc e.rep.overruns } }

theorem Part.noteOverrun_eq (l : LoopId) (p : Part) :
    (p.turnWrites l).noteOverrun l =
      (p.modEng l Engine.overran, if (p.eng l).cyc.overrun then [] else [.raise .overrun]) := by
  have hover : ((p.turnWrites l).eng l).cyc.overrun = (p.eng l).cyc.overrun := by
    rw [Part.turnWrites, Part.eng_modEng]
    rfl
  unfold Part.noteOverrun
  rw [hover]
  by_cases h : (p.eng l).cyc.overrun = true
  · rw [if_pos h, if_pos h]
    refine Prod.ext ?_ rfl
    refine (Part.modEng_congr l _ Engine.overran p ?_ : p.turnWrites l = _)
    rw [Engine.overran, h, if_pos rfl, CycleScheduler.turnWrites, h]
  · rw [if_neg h, if_neg h]
    refine Prod.ext ?_ rfl
    dsimp only
    rw [Part.turnWrites, Part.modEng_modEng]
    refine Part.modEng_congr l _ _ p ?_
    rw [Engine.overran, if_neg h]
    rfl

theorem Engine.missed_eq {e : Engine} (hs : e.sched = []) (hturn : e.cyc.turn = some turn) (ops : List SchedOp) :
    { e.overran with
      sched := ops ++ (if e.cyc.overrun then [] else [.raise .overrun]) ++ [.endTurn] ++ e.overran.sched } =
      e.missed turn ops := by
  unfold Engine.overran Engine.missed
  rw [hturn, hs, List.append_nil]
  rfl

theorem Part.pushFront_overran (hs : (p.eng l).sched = []) (hturn : (p.eng l).cyc.turn = some turn)
    (ops : List SchedOp) :
    (p.modEng l Engine.overran).pushFront l
        (ops ++ ((if (p.eng l).cyc.overrun then [] else [.raise .overrun]) ++ [.endTurn])) =
      p.modEng l (Engine.missed turn ops) := by
  rw [Part.pushFront, Part.modEng_modEng, ← List.append_assoc]
  exact Part.modEng_congr l _ _ p (Engine.missed_eq hs hturn ops)

/-- A miss by its parts: it is counted, and the write of its part half is scheduled, or with STRICT the completion of
the record. -/
theorem Part.countMiss_eq (hs : (p.eng l).sched = []) (hturn : (p.eng l).cyc.turn = some turn) :
    p.countMiss l i =
      if (p.ctx i).strict then
        ((p.modCtx i Context.countMissed).releaseRelay i).modEng l
          (Engine.missed turn (p.completionOf i .missed [] .none .ready))
      else (p.modCtx i Context.countMissed).modEng l (Engine.missed turn [.writeStationHalf i]) := by
  have hnoted : Part.noteOverrun l ((p.turnWrites l).modCtx i Context.countMissed) =
      ((p.modCtx i Context.countMissed).modEng l Engine.overran,
        if ((p.modCtx i Context.countMissed).eng l).cyc.overrun then [] else [.raise .overrun]) := by
    rw [← Part.noteOverrun_eq]
    refine congrArg (Part.noteOverrun l) ?_
    rw [Part.turnWrites, Part.modCtx_modEng, Part.turnWrites]
  have hops : Part.completionOf ((p.modCtx i Context.countMissed).modEng l Engine.overran) i .missed [] .none .ready =
      p.completionOf i .missed [] .none .ready := by
    unfold Part.completionOf
    rw [Part.modEng_ctx, Part.ctx_modCtx]
    rfl
  have heq : p.countMiss l i =
      let o := Part.noteOverrun l ((p.turnWrites l).modCtx i Context.countMissed)
      if (p.ctx i).strict then
        Part.pushFront l (o.1.completionOf i .missed [] .none .ready ++ (o.2 ++ [.endTurn])) (o.1.releaseRelay i)
      else o.1.pushFront l ([.writeStationHalf i] ++ (o.2 ++ [.endTurn])) := rfl
  have heng : ∀ q : Part, q.eng l = p.eng l → (q.eng l).sched = [] ∧ (q.eng l).cyc.turn = some turn :=
    fun q h => h ▸ ⟨hs, hturn⟩
  rw [heq, hnoted]
  dsimp only
  rw [hops]
  refine if_congr Iff.rfl ?_ ?_
  · obtain ⟨hs', hturn'⟩ := heng ((p.modCtx i Context.countMissed).releaseRelay i)
      (by rw [Part.releaseRelay, Part.mapRelays_eng, Part.modCtx_eng])
    rw [← Part.pushFront_overran hs' hturn', Part.releaseRelay, Part.mapRelays_modEng, Part.releaseRelay,
      Part.mapRelays_eng]
  · obtain ⟨hs', hturn'⟩ := heng (p.modCtx i Context.countMissed) (Part.modCtx_eng ..)
    exact Part.pushFront_overran hs' hturn' _

/-- A miss with a record that is not STRICT. -/
theorem Part.countMiss_lax {r : RecordCopy} (hs : (p.eng l).sched = []) (hturn : (p.eng l).cyc.turn = some turn)
    (hcopy : (p.ctx i).copy = some r) (hstrict : r.strict = false) :
    p.countMiss l i = (p.modCtx i Context.countMissed).modEng l (Engine.missed turn [.writeStationHalf i]) := by
  rw [Part.countMiss_eq hs hturn, if_neg]
  rw [Context.strict, hcopy]
  exact fun h => Bool.false_ne_true (hstrict.symm.trans h)

/-- A miss with a STRICT record. -/
theorem Part.countMiss_strict {r : RecordCopy} {k : RecordIx} (hs : (p.eng l).sched = [])
    (hturn : (p.eng l).cyc.turn = some turn) (hk : (p.ctx i).inHand = some k) (hcopy : (p.ctx i).copy = some r)
    (hstrict : r.strict = true) :
    p.countMiss l i = ((p.modCtx i Context.countMissed).releaseRelay i).modEng l
      (Engine.missed turn [.writeResult i k .missed 0, .writeDone i k .none .ready, .writeStationHalf i,
        .raise .exfault]) := by
  rw [Part.countMiss_eq hs hturn, if_pos, Part.completionOf_inHand hk, completionOps_failed (by decide)]
  rw [Context.strict, hcopy]
  exact hstrict

theorem Part.settled_missed {op : SchedOp} {ops : List SchedOp} (h : op.transfers = true) :
    (p.modEng l (Engine.missed turn (op :: ops))).settled l = true :=
  Part.settled_cons l _ op _ (congrArg Engine.sched (Part.eng_modEng ..)) h

end

/-! ### The cases of the fit test -/

theorem Engine.mayAttempt_eq_false {e : Engine}
    (h : e.ctl.state ≠ .running ∨ e.cyc.marked.isSome = true ∨ e.ctl.rollRequest = true) : e.mayAttempt = false := by
  unfold Engine.mayAttempt
  rcases h with h | h | h
  · rw [beq_eq_false_iff_ne.mpr h]
    rfl
  · obtain ⟨g, hg⟩ := Option.isSome_iff_exists.mp h
    rw [hg]
    simp
  · rw [h, Bool.not_true, Bool.and_false]

theorem Engine.mayAttempt_of {e : Engine} (hstate : e.ctl.state = .running) (hmarked : e.cyc.marked = none)
    (hrequest : e.ctl.rollRequest = false) : e.mayAttempt = true := by
  rw [Engine.mayAttempt, hstate, hmarked, hrequest]
  rfl

section
variable {l : LoopId} {i : StationIx} {turn : Turn} {p : Part}

theorem Part.fitTest_of_over
    (h : (p.eng l).mayAttempt = false ∨ p.passedTurn l (p.ctx i).nextAttempt i = true) :
    p.fitTest l i = p.pushFront l [.endTurn] := by
  rw [Part.fitTest]
  refine if_pos ?_
  rcases h with h | h
  · rw [h]
    rfl
  · rw [h, Bool.or_true]

variable (hmay : (p.eng l).mayAttempt = true) (hopen : p.passedTurn l (p.ctx i).nextAttempt i = false)
  (hturn : (p.eng l).cyc.turn = some turn)
include hmay hopen hturn

theorem Part.fitTest_of_late
    (hlate : (p.eng l).windowEnd turn.periodic < p.now + p.estimate l (p.ctx i).nextAttempt i) :
    p.fitTest l i = p.doesNotFit l i turn.periodic := by
  have hperiodic : (p.eng l).periodicTurn = turn.periodic := by
    rw [Engine.periodicTurn, hturn]
  have hfits : p.fits l (p.ctx i).nextAttempt i turn.periodic = false := by
    rw [← Bool.not_eq_true, Part.fits_iff]
    omega
  unfold Part.fitTest
  dsimp only
  rw [hmay, hopen, if_neg (by decide), hperiodic, hfits, Bool.not_false, if_pos rfl]

theorem Part.fitTest_of_fits
    (hfits : p.now + p.estimate l (p.ctx i).nextAttempt i ≤ (p.eng l).windowEnd turn.periodic) :
    p.fitTest l i =
      if (p.ctx i).nextAttempt = .relayStart then
        match p.claimFor l i with
        | some q => q.startAttempt l (p.ctx i).nextAttempt i
        | none => p.pushFront l [.endTurn]
      else p.startAttempt l (p.ctx i).nextAttempt i := by
  have hperiodic : (p.eng l).periodicTurn = turn.periodic := by
    rw [Engine.periodicTurn, hturn]
  unfold Part.fitTest
  dsimp only
  rw [hmay, hopen, if_neg (by decide), hperiodic, (Part.fits_iff ..).mpr hfits, if_neg (by decide)] <;> rfl

end

/-! ### The answers of the fit test -/

/-- The engine once its turn has given the frame `f` of the attempt `a` to the Framer. -/
def Engine.attempts (now : Nat) (f : TxFrame) (a : Attempt) (turn : Turn) (e : Engine) : Engine :=
  Engine.transmits now f
    { e with
      xu := { state := .sending, attempt := some a }
      cyc := { e.cyc with
        attempted := true, visited := []
        turn := some { turn with stage := .attempt, attempted := true } } }

section
variable {l : LoopId} {i : StationIx} {turn : Turn} {p : Part}

theorem Part.startAttempt_of_turn (hstate : (p.eng l).ctl.state = .running) (hturn : (p.eng l).cyc.turn = some turn)
    (k : AttemptKind) :
    p.startAttempt l k i =
      p.modEng l (Engine.attempts p.now (p.requestFrame k i) (p.attemptRecord k i) turn) := by
  rw [Part.startAttempt_eq hstate]
  refine Part.modEng_congr l _ _ p ?_
  rw [Engine.attempts, hturn]
  rfl

theorem Part.settled_attempts {now : Nat} {f : TxFrame} {a : Attempt} (hs : (p.eng l).sched = []) :
    (p.modEng l (Engine.attempts now f a turn)).settled l = true := by
  refine Part.settled_atTransfer (Part.atTransfer_nil ?_) (Engine.rollcallDue_of_turn _ ?_)
  · rw [Part.eng_modEng]
    exact hs
  · rw [Part.eng_modEng]
    rfl

end

section
variable {l : LoopId} {i : StationIx} {turn : Turn} {command : Instr} {p : Part} {m : Memory} {s : State}
  (h : s.comesToFit l i turn command p m)
include h

/-- A fit test that ends the turn. -/
theorem exec_of_fit_ends (hk : (p.eng l).mayAttempt = true → (p.ctx i).inHand.isSome = true)
    (hfit : p.fitTest l i = p.pushFront l [.endTurn]) :
    exec command s = .next (State.become { s with mem := m } ((p.turnOver l turn).workOver l)) := by
  obtain ⟨hs, hturn, hanswer⟩ := exec_of_fit h hk
  rw [Part.pushFront_of_idle hs] at hfit
  exact (hanswer 2 _ (Part.acts_fitTest_over hs hs hturn hfit) (by decide)).2 (Part.turnOver_sched.trans hs)

/-- A turn that ends with no attempt. -/
theorem exec_of_fit_over
    (hover : (p.eng l).mayAttempt = false ∨
      (p.ctx i).inHand.isSome = true ∧ p.passedTurn l (p.ctx i).nextAttempt i = true) :
    exec command s = .next (State.become { s with mem := m } ((p.turnOver l turn).workOver l)) :=
  exec_of_fit_ends h
    (fun hmay => hover.elim (fun h => absurd (h.symm.trans hmay) Bool.false_ne_true) And.left)
    (Part.fitTest_of_over (hover.imp_right And.right))

variable (hk : (p.ctx i).inHand.isSome = true)
include hk

/-- A turn whose fit test begins an attempt. -/
theorem exec_of_fit_attempt {q : Part} {now : Nat} {f : TxFrame} {a : Attempt} (hq : q.eng l = p.eng l)
    (hfit : p.fitTest l i = q.modEng l (Engine.attempts now f a turn)) :
    exec command s = .next (State.become { s with mem := m } (q.modEng l (Engine.attempts now f a turn))) := by
  obtain ⟨hs, -, hanswer⟩ := exec_of_fit h fun _ => hk
  exact (hanswer 1 _ (Part.acts_fitTest hs hfit) (by decide)).1 (Part.settled_attempts (hq ▸ hs))

variable (hmay : (p.eng l).mayAttempt = true) (hopen : p.passedTurn l (p.ctx i).nextAttempt i = false)
  (hlate : (p.eng l).windowEnd turn.periodic < p.now + p.estimate l (p.ctx i).nextAttempt i)
include hmay hopen hlate

/-- In the aperiodic window an attempt that does not fit closes it. -/
theorem exec_of_fit_closing (hperiodic : turn.periodic = false) (hrequest : (p.eng l).ctl.rollRequest = false) :
    exec command s = .next (State.become { s with mem := m } (p.turnOver l { turn with closing := true })) := by
  obtain ⟨hs, hturn, hanswer⟩ := exec_of_fit h fun _ => hk
  have hfit := Part.fitTest_of_late hmay hopen hturn hlate
  rw [hperiodic, Part.doesNotFit, if_neg Bool.false_ne_true] at hfit
  have hq : ∀ q : Part, q = (p.modEng l fun e =>
      { e with cyc := { e.cyc with turn := e.cyc.turn.map fun t => { t with closing := true } } }) →
        (q.eng l).sched = [] ∧ (q.eng l).cyc.turn = some { turn with closing := true } ∧
          q.turnOver l { turn with closing := true } = p.turnOver l { turn with closing := true } := by
    rintro q rfl
    refine ⟨?_, ?_, Part.turnOver_modTurn _⟩
    · rw [Part.eng_modEng]
      exact hs
    · rw [Part.eng_modEng]
      dsimp only
      rw [hturn]
      rfl
  obtain ⟨hs', hturn', hover⟩ := hq _ rfl
  rw [Part.pushFront_of_idle hs'] at hfit
  have hanswer := (hanswer 2 _ (Part.acts_fitTest_over hs hs' hturn' hfit) (by decide)).2 (Part.turnOver_sched.trans hs')
  rw [hover, Part.workOver_of_request] at hanswer
  · exact hanswer
  · rw [Part.turnOver_ctl]
    exact hrequest

/-- In the periodic window an attempt that does not fit is a miss. -/
theorem exec_of_fit_missed (hperiodic : turn.periodic = true) {q : Part} {op : SchedOp} {ops : List SchedOp}
    (ht : op.transfers = true)
    (hmiss : (p.eng l).sched = [] → (p.eng l).cyc.turn = some turn →
      p.countMiss l i = q.modEng l (Engine.missed turn (op :: ops))) :
    exec command s = .next (State.become { s with mem := m } (q.modEng l (Engine.missed turn (op :: ops)))) := by
  obtain ⟨hs, hturn, hanswer⟩ := exec_of_fit h fun _ => hk
  have hfit := Part.fitTest_of_late hmay hopen hturn hlate
  rw [hperiodic, Part.doesNotFit, if_pos rfl, hmiss hs hturn] at hfit
  exact (hanswer 1 _ (Part.acts_fitTest hs hfit) (by decide)).1 (Part.settled_missed ht)

end

/-! ### The attempt of a direct station (R8, R9, R75) -/

/-- The attempt that a direct station is due, its record in hand being `r`. -/
def Context.directAttempt (c : Context) (r : RecordCopy) : AttemptKind :=
  if c.phase = .probe then .probe else if r.kind = 1 then .poll else .put

theorem Context.directAttempt_cases (c : Context) (r : RecordCopy) :
    c.directAttempt r = .probe ∨ c.directAttempt r = .poll ∨ c.directAttempt r = .put := by
  unfold Context.directAttempt
  split_ifs
  · exact .inl rfl
  · exact .inr (.inl rfl)
  · exact .inr (.inr rfl)

section
variable {c : Context} {r : RecordCopy} (hcopy : c.copy = some r)
include hcopy

theorem Context.request_of : c.request = r.request := by
  rw [Context.request, hcopy]

theorem Context.nextAttempt_direct (hdirect : c.binding.coupler = 0xFF) : c.nextAttempt = c.directAttempt r := by
  have hrelayed : ¬ c.relayed = true := by
    rw [Context.relayed_iff]
    exact fun h => h hdirect
  rw [Context.nextAttempt, if_neg hrelayed, Context.polls_eq hcopy, Context.directAttempt]
  simp only [decide_eq_true_eq]

/-- What the request of a direct attempt carries, and what its reply is judged by. -/
theorem Context.directAttempt_request :
    c.requestPayload (c.directAttempt r) = (if c.directAttempt r = .probe then [] else r.request) ∧
      c.allowance (c.directAttempt r) = (if c.directAttempt r = .poll then c.fresh.maxReply else 0) ∧
      c.attemptSeq (c.directAttempt r) =
        (if c.directAttempt r = .poll then c.rxSeq else if c.directAttempt r = .put then c.txSeq else false) ∧
      c.outerSeq (c.directAttempt r) =
        (if c.directAttempt r = .poll then c.rxSeq else if c.directAttempt r = .put then c.txSeq else false) ∧
      ∀ (p : Part) (i : StationIx), p.addressee (c.directAttempt r) i = p.ctx i := by
  have hrequest := Context.request_of hcopy
  rcases Context.directAttempt_cases c r with hkind | hkind | hkind
  · rw [hkind]
    exact ⟨rfl, rfl, rfl, rfl, fun _ _ => rfl⟩
  · rw [hkind]
    exact ⟨hrequest, rfl, rfl, rfl, fun _ _ => rfl⟩
  · rw [hkind]
    exact ⟨hrequest, rfl, rfl, rfl, fun _ _ => rfl⟩

end

section
variable {p : Part} {i : StationIx} {r : RecordCopy} (hcopy : (p.ctx i).copy = some r)
include hcopy

theorem Part.requestFrame_direct : p.requestFrame ((p.ctx i).directAttempt r) i =
    let k := (p.ctx i).directAttempt r
    let seq := if k = .poll then (p.ctx i).rxSeq else if k = .put then (p.ctx i).txSeq else false
    { purpose := .request, destination := (p.ctx i).binding.lineAddress
      control := k.control seq (p.ctx i).syncPending, payload := if k = .probe then [] else r.request } := by
  obtain ⟨hpayload, -, -, houter, haddressee⟩ := Context.directAttempt_request hcopy
  rw [Part.requestFrame, controlByte_eq, haddressee, houter, hpayload]

theorem Part.attemptRecord_direct : p.attemptRecord ((p.ctx i).directAttempt r) i =
    let k := (p.ctx i).directAttempt r
    { kind := k, station := some i
      seq := if k = .poll then (p.ctx i).rxSeq else if k = .put then (p.ctx i).txSeq else false
      timeout := (p.ctx i).fresh.replyTimeout.toNat * 2500
      allowance := if k = .poll then (p.ctx i).fresh.maxReply else 0
      source := (p.ctx i).binding.lineAddress, latency := none, buffer := [], endOfFrame := 0
      timeoutPassed := false, skipBroken := false } := by
  obtain ⟨-, hallowance, hseq, -, haddressee⟩ := Context.directAttempt_request hcopy
  rw [Part.attemptRecord, haddressee, hseq, hallowance]
  rfl

end

/-- Settles O34: by whether the turn may attempt at all, and then by whether the attempt fits. -/
theorem turnFitTest : Obligations.TurnFitTest := by
  intro l i turn command p m s e c answers h
  refine ⟨fun hover => exec_of_fit_over h (.inl (Engine.mayAttempt_eq_false hover)), ?_⟩
  intro k r kind payload allowance seq estimate announceStart windowEnd missed counted hstate hmarked hrequest hdirect
    hinHand hcopy
  have hmay : (p.eng l).mayAttempt = true := Engine.mayAttempt_of hstate hmarked hrequest
  have hk : (p.ctx i).inHand.isSome = true := Option.isSome_iff_exists.mpr ⟨k, hinHand⟩
  obtain ⟨-, hturn, -⟩ := exec_of_fit h fun _ => hk
  have hkind : (p.ctx i).nextAttempt = kind := Context.nextAttempt_direct hcopy hdirect
  obtain ⟨hpayload, hallowance, -⟩ := Context.directAttempt_request (c := p.ctx i) hcopy
  have hopen : p.passedTurn l (p.ctx i).nextAttempt i = false := by
    rw [hkind]
    rcases Context.directAttempt_cases (p.ctx i) r with hdirect | hdirect | hdirect
    · exact congrArg (p.passedTurn l · i) hdirect
    · exact congrArg (p.passedTurn l · i) hdirect
    · exact congrArg (p.passedTurn l · i) hdirect
  have hestimate : p.estimate l (p.ctx i).nextAttempt i = estimate := by
    rw [hkind, Part.estimate]
    exact congrArg₂ (fun (x : List Byte) (y : Byte) => (7 + x.length + 7 + y.toNat + 4) * e.charTime +
      c.fresh.replyTimeout.toNat * 2500) hpayload hallowance
  refine ⟨fun hfits => ?_, fun hlate hperiodic hstrict => ?_, fun hlate hperiodic hstrict => ?_,
    fun hlate hperiodic => ?_⟩
  · have hstart : p.fitTest l i = p.startAttempt l kind i := by
      rw [Part.fitTest_of_fits hmay hopen hturn (hestimate ▸ hfits), hkind, if_neg]
      rcases Context.directAttempt_cases (p.ctx i) r with hdirect | hdirect | hdirect
      · exact fun hrelay => AttemptKind.noConfusion (hrelay.symm.trans hdirect)
      · exact fun hrelay => AttemptKind.noConfusion (hrelay.symm.trans hdirect)
      · exact fun hrelay => AttemptKind.noConfusion (hrelay.symm.trans hdirect)
    rw [Part.startAttempt_of_turn hstate hturn] at hstart
    have hanswer := exec_of_fit_attempt h hk rfl hstart
    rw [show p.requestFrame kind i = _ from Part.requestFrame_direct hcopy,
      show p.attemptRecord kind i = _ from Part.attemptRecord_direct hcopy] at hanswer
    exact hanswer
  · exact exec_of_fit_missed h hk hmay hopen (hestimate ▸ hlate) hperiodic rfl fun hs hturn =>
      Part.countMiss_lax hs hturn hcopy hstrict
  · exact exec_of_fit_missed h hk hmay hopen (hestimate ▸ hlate) hperiodic rfl fun hs hturn =>
      Part.countMiss_strict hs hturn hinHand hcopy hstrict
  · exact exec_of_fit_closing h hk hmay hopen (hestimate ▸ hlate) hperiodic hrequest


end Sys2Proof.Machine
end

