-- ==== Sys2Proof/Proofs/RelayTurns.lean ====
section
/-!
The fit test of a relayed station (R69, R97, R99, R101).
-/
namespace Sys2Proof.Machine

open Sys2Proof

/-! ### The claim of a relay entry (R99) -/

section
variable {p : Part} {j : StationIx}

theorem Part.couplerClaimed_iff :
    p.couplerClaimed j = true ↔ ∃ (n : Fin 8) (x : RelayEntry), p.relays[n] = some x ∧ x.coupler = j := by
  unfold Part.couplerClaimed relayIndexes
  rw [List.any_eq_true]
  refine ⟨?_, ?_⟩
  · rintro ⟨n, -, hn⟩
    cases hx : p.relays[n] with
    | none =>
      rw [hx] at hn
      exact absurd hn Bool.false_ne_true
    | some x =>
      rw [hx] at hn
      exact ⟨n, x, hx, beq_iff_eq.mp hn⟩
  · rintro ⟨n, x, hx, hj⟩
    refine ⟨n, List.mem_finRange n, ?_⟩
    rw [hx]
    exact beq_iff_eq.mpr hj

theorem Part.freeRelay_of_full (h : ∀ n : Fin 8, p.relays[n] ≠ none) : p.freeRelay = none := by
  unfold Part.freeRelay
  rw [List.find?_eq_none]
  exact fun n _ hn => h n (Option.isNone_iff_eq_none.mp hn)

theorem Part.freeRelay_of {n : Fin 8} (hn : p.relays[n] = none) (hbefore : ∀ m, m < n → p.relays[m] ≠ none) :
    p.freeRelay = some n := by
  unfold Part.freeRelay relayIndexes
  rw [List.find?_eq_some_iff_getElem]
  refine ⟨Option.isNone_iff_eq_none.mpr hn, n.val, by simp, by simp, fun m hm => ?_⟩
  rw [List.getElem_finRange, Bool.not_eq_true', ← Bool.not_eq_true, Option.isNone_iff_eq_none]
  exact hbefore _ (by simpa [Fin.lt_def] using hm)

variable {l : LoopId} {i : StationIx} {k : RecordIx} (hcoupler : (p.ctx i).binding.coupler.toNat = j.val)
  (hk : (p.ctx i).inHand = some k)
include hcoupler hk

theorem Part.claimFor_eq :
    p.claimFor l i = p.claimRelay
      { loop := l, coupler := j, station := i, record := k, phase := .starting
        startCycle := (p.eng l).rep.cycleNumber, waiting := 0 } := by
  rw [Part.claimFor, couplerIndex_of hcoupler, hk]

theorem Part.claimFor_none
    (h : (∃ (n : Fin 8) (x : RelayEntry), p.relays[n] = some x ∧ x.coupler = j) ∨ ∀ n : Fin 8, p.relays[n] ≠ none) :
    p.claimFor l i = none := by
  rw [Part.claimFor_eq hcoupler hk, Part.claimRelay]
  dsimp only
  by_cases hclaimed : p.couplerClaimed j = true
  · rw [if_pos hclaimed]
  · rw [if_neg hclaimed, Part.freeRelay_of_full, Option.map_none]
    exact h.resolve_left fun h => hclaimed (Part.couplerClaimed_iff.mpr h)

theorem Part.claimFor_some {n : Fin 8}
    (hclaimed : ¬ ∃ (n : Fin 8) (x : RelayEntry), p.relays[n] = some x ∧ x.coupler = j) (hn : p.relays[n] = none)
    (hbefore : ∀ m, m < n → p.relays[m] ≠ none) :
    p.claimFor l i = some { p with relays := p.relays.set n (some
      { loop := l, coupler := j, station := i, record := k, phase := .starting
        startCycle := (p.eng l).rep.cycleNumber, waiting := 0 }) } := by
  rw [Part.claimFor_eq hcoupler hk, Part.claimRelay, if_neg, Part.freeRelay_of hn hbefore, Option.map_some]
  exact fun h => hclaimed (Part.couplerClaimed_iff.mp h)

end

/-! ### The attempt of a relayed station (R9, R97, R102) -/

/-- The attempt that a relayed station is due. -/
def Context.relayAttempt (c : Context) : AttemptKind :=
  if c.phase = .relayCollect then .relayCollect else .relayStart

/-- The payload of the request of that attempt. -/
def Context.relayPayload (c : Context) (r : RecordCopy) : List Byte :=
  if c.relayAttempt = .relayCollect then [c.binding.lineAddress]
  else [c.binding.lineAddress, (if r.kind = 1 then .poll else .put : AttemptKind).control
      (if r.kind = 1 then c.rxSeq else c.txSeq) c.syncPending, BitVec.ofNat 8 r.request.length] ++ r.request

theorem Context.relayAttempt_cases (c : Context) : c.relayAttempt = .relayCollect ∨ c.relayAttempt = .relayStart := by
  unfold Context.relayAttempt
  split_ifs
  · exact .inl rfl
  · exact .inr rfl

section
variable {c : Context} {r : RecordCopy}

theorem Context.nextAttempt_relayed {j : StationIx} (hcoupler : c.binding.coupler.toNat = j.val) :
    c.nextAttempt = c.relayAttempt := by
  rw [Context.nextAttempt, if_pos, Context.relayAttempt]
  rw [Context.relayed_iff]
  intro h
  rw [h] at hcoupler
  exact absurd hcoupler (by have := j.isLt; simp; omega)

variable (hcopy : c.copy = some r)
include hcopy

theorem Context.relayAttempt_payload : c.requestPayload c.relayAttempt = c.relayPayload r := by
  have hinner : c.innerControl = (if r.kind = 1 then .poll else .put : AttemptKind).control
      (if r.kind = 1 then c.rxSeq else c.txSeq) c.syncPending := by
    rw [Context.innerControl, Context.polls_eq hcopy]
    by_cases h : r.kind = 1
    · simp only [h, decide_true, if_true]
      exact controlByte_eq .poll _ _
    · simp only [h, decide_false, if_false, Bool.false_eq_true]
      exact controlByte_eq .put _ _
  unfold Context.relayPayload
  rcases c.relayAttempt_cases with hkind | hkind
  · rw [hkind]
    rfl
  · rw [hkind, Context.requestPayload, hinner, Context.request_of hcopy]
    rfl

theorem Context.relayAttempt_seq : c.attemptSeq c.relayAttempt = if r.kind = 1 then c.rxSeq else c.txSeq := by
  have hpolls : (if c.polls then c.rxSeq else c.txSeq) = if r.kind = 1 then c.rxSeq else c.txSeq := by
    rw [Context.polls_eq hcopy]
    simp only [decide_eq_true_eq]
  rcases c.relayAttempt_cases with hkind | hkind
  · rw [hkind]
    exact hpolls
  · rw [hkind]
    exact hpolls

end

theorem Context.relayAttempt_allowance (c : Context) :
    c.allowance c.relayAttempt = if c.relayAttempt = .relayCollect then 3 + c.fresh.maxReply else 0 := by
  rcases c.relayAttempt_cases with hkind | hkind
  · rw [hkind]
    rfl
  · rw [hkind]
    rfl

section
variable {p : Part} {i j : StationIx} {r : RecordCopy} (hcoupler : (p.ctx i).binding.coupler.toNat = j.val)
include hcoupler

theorem Part.addressee_relayed : p.addressee (p.ctx i).relayAttempt i = p.ctx j := by
  rcases (p.ctx i).relayAttempt_cases with hkind | hkind
  · rw [hkind, Part.addressee, couplerIndex_of hcoupler]
  · rw [hkind, Part.addressee, couplerIndex_of hcoupler]

variable (hcopy : (p.ctx i).copy = some r)
include hcopy

theorem Part.requestFrame_relayed : p.requestFrame (p.ctx i).relayAttempt i =
    { purpose := .request, destination := (p.ctx j).binding.lineAddress
      control := (p.ctx i).relayAttempt.control false (p.ctx j).syncPending, payload := (p.ctx i).relayPayload r } := by
  have houter : (p.ctx i).outerSeq (p.ctx i).relayAttempt = false := by
    rcases (p.ctx i).relayAttempt_cases with hkind | hkind
    · rw [hkind]
      rfl
    · rw [hkind]
      rfl
  rw [Part.requestFrame, controlByte_eq, Part.addressee_relayed hcoupler, houter, Context.relayAttempt_payload hcopy]

theorem Part.attemptRecord_relayed : p.attemptRecord (p.ctx i).relayAttempt i =
    { kind := (p.ctx i).relayAttempt, station := some i
      seq := if r.kind = 1 then (p.ctx i).rxSeq else (p.ctx i).txSeq
      timeout := (p.ctx i).fresh.replyTimeout.toNat * 2500
      allowance := if (p.ctx i).relayAttempt = .relayCollect then 3 + (p.ctx i).fresh.maxReply else 0
      source := (p.ctx j).binding.lineAddress, latency := none, buffer := [], endOfFrame := 0
      timeoutPassed := false, skipBroken := false } := by
  rw [Part.attemptRecord, Part.addressee_relayed hcoupler, Context.relayAttempt_seq hcopy,
    Context.relayAttempt_allowance]
  rfl

end

/-! ### When a relayed station is passed (R69, R97, R101) -/

section
variable {p : Part} {l : LoopId} {i j : StationIx} (hcoupler : (p.ctx i).binding.coupler.toNat = j.val)
include hcoupler

theorem Part.passedTurn_relayed : p.passedTurn l (p.ctx i).relayAttempt i = true ↔
    (p.ctx j).admittedTo l = false ∨
      (p.ctx i).relayAttempt = .relayCollect ∧ p.relayAge l i < (p.ctx i).fresh.collectDelay.toNat := by
  rcases (p.ctx i).relayAttempt_cases with hkind | hkind
  · rw [hkind, Part.passedTurn, couplerIndex_of hcoupler]
    simp
  · rw [hkind, Part.passedTurn, couplerIndex_of hcoupler]
    simp

end

/-- Settles O35: a relayed station is passed, or its attempt fits and goes to the coupler, or it is a miss or closes the
window as that of a direct station. -/
theorem relayTurn : Obligations.RelayTurn := by
  intro l i j k r turn command p m s e c kind seq innerKind payload allowance estimate announceStart windowEnd admitted
    delayed over_ claimed answers passed attempted missed counted h hstate hmarked hrequest hcoupler hinHand hcopy
  have hmay : (p.eng l).mayAttempt = true := Engine.mayAttempt_of hstate hmarked hrequest
  have hk : (p.ctx i).inHand.isSome = true := Option.isSome_iff_exists.mpr ⟨k, hinHand⟩
  obtain ⟨hs, hturn, -⟩ := exec_of_fit h fun _ => hk
  have hkind : (p.ctx i).nextAttempt = kind := Context.nextAttempt_relayed hcoupler
  have hadmitted : (p.ctx j).admittedTo l = true ↔ admitted := Context.admittedTo_iff ..
  have hpassed : p.passedTurn l kind i = true ↔ (p.ctx j).admittedTo l = false ∨
      kind = .relayCollect ∧ p.relayAge l i < c.fresh.collectDelay.toNat := Part.passedTurn_relayed hcoupler
  have hage : ∀ {x}, p.relayOf i = some x → p.relayAge l i = (e.rep.cycleNumber - x.startCycle).toNat :=
    fun hx => Part.relayAge_of rfl rfl hx
  have hestimate : p.estimate l (p.ctx i).nextAttempt i = estimate := by
    rw [hkind, Part.estimate]
    exact congrArg₂ (fun (x : List Byte) (y : Byte) => (7 + x.length + 7 + y.toNat + 4) * e.charTime +
      c.fresh.replyTimeout.toNat * 2500) (Context.relayAttempt_payload hcopy) (Context.relayAttempt_allowance c)
  have hturnOver : (Part.turnOver l turn p).workOver l = Part.turnOver l turn p :=
    Part.workOver_of_request (by rw [Part.turnOver_ctl]; exact hrequest)
  have hopen : admitted → over_ → p.passedTurn l (p.ctx i).nextAttempt i = false := by
    intro hadmits hover
    rw [hkind, ← Bool.not_eq_true, hpassed, hadmitted.mpr hadmits]
    rintro (hnot | ⟨hcollect, hlt⟩)
    · exact Bool.false_ne_true hnot.symm
    · rcases hover with hstart | ⟨x, hx, hle⟩
      · exact AttemptKind.noConfusion (hcollect.symm.trans hstart)
      · rw [hage hx] at hlt
        exact absurd hle (Nat.not_le.mpr hlt)
  refine ⟨fun hpass => ?_, fun hadmits hover hfits => ?_, fun hadmits hover hlate => ?_⟩
  · have hpass' : p.passedTurn l (p.ctx i).nextAttempt i = true := by
      rw [hkind, hpassed, ← Bool.not_eq_true, hadmitted]
      refine hpass.imp_right ?_
      rintro ⟨x, hcollect, hx, hlt⟩
      exact ⟨hcollect, hage hx ▸ hlt⟩
    have hanswer := exec_of_fit_over h (.inr ⟨hk, hpass'⟩)
    rw [hturnOver] at hanswer
    exact hanswer
  · have hfit := Part.fitTest_of_fits hmay (hopen hadmits hover) hturn (hestimate ▸ hfits)
    rw [hkind] at hfit
    have hattempt : ∀ relays, p.fitTest l i = Part.startAttempt l kind i { p with relays := relays } →
        attempted relays := by
      intro relays hfit
      have heng : ({ p with relays := relays } : Part).eng l = p.eng l := by cases l <;> rfl
      rw [Part.startAttempt_of_turn (heng.symm ▸ hstate) (heng.symm ▸ hturn)] at hfit
      have hanswer := exec_of_fit_attempt h hk heng hfit
      rw [show Part.requestFrame { p with relays := relays } kind i = _ from Part.requestFrame_relayed hcoupler hcopy,
        show Part.attemptRecord { p with relays := relays } kind i = _ from
          Part.attemptRecord_relayed hcoupler hcopy] at hanswer
      exact hanswer
    refine ⟨fun hstart hfull => ?_, fun n hstart hclaimed hn hbefore => ?_, fun hcollect => ?_⟩
    · rw [if_pos hstart, Part.claimFor_none hcoupler hinHand hfull] at hfit
      have hanswer := exec_of_fit_ends h (fun _ => hk) hfit
      rw [hturnOver] at hanswer
      exact hanswer
    · refine hattempt _ (hfit.trans ?_)
      rw [if_pos hstart, Part.claimFor_some hcoupler hinHand hclaimed hn hbefore]
    · refine hattempt _ (hfit.trans ?_)
      rw [if_neg]
      exact fun hstart => AttemptKind.noConfusion (hcollect.symm.trans hstart)
  · refine ⟨fun hperiodic => ?_, fun hperiodic hstrict => ?_, fun hperiodic hstrict => ?_⟩
    · exact exec_of_fit_closing h hk hmay (hopen hadmits hover) (hestimate ▸ hlate) hperiodic hrequest
    · exact exec_of_fit_missed h hk hmay (hopen hadmits hover) (hestimate ▸ hlate) hperiodic rfl fun hs hturn =>
        Part.countMiss_lax hs hturn hcopy hstrict
    · exact exec_of_fit_missed h hk hmay (hopen hadmits hover) (hestimate ▸ hlate) hperiodic rfl fun hs hturn =>
        Part.countMiss_strict hs hturn hinHand hcopy hstrict

/-! ### A turn that fetches (R33, R50, R64) -/

/-- The turn under way does the work `ops`, at the stage `stage`. -/
def Engine.fetching (turn : Turn) (stage : TurnStage) (ops : List SchedOp) (e : Engine) : Engine :=
  { e with cyc := { e.cyc with turn := some { turn with stage := stage } }, sched := ops }

/-- The loop goes over to the writes `ops`, and so does the turn under way. -/
def Engine.writing (ops : List SchedOp) (e : Engine) : Engine :=
  { e with cyc := { e.cyc with turn := e.cyc.turn.map fun t => { t with stage := .writes } }, sched := ops }

theorem Engine.writing_of_turn {turn : Turn} {e : Engine} (h : e.cyc.turn = some turn) (ops : List SchedOp) :
    e.writing ops = e.fetching turn .writes ops := by
  rw [Engine.writing, h]
  rfl

section
variable {l : LoopId} {i : StationIx} {turn : Turn} {p : Part} (hs : (p.eng l).sched = [])
  (hturn : (p.eng l).cyc.turn = some turn)

include hs in
theorem Part.pushFront_turnWrites (ops : List SchedOp) :
    (p.turnWrites l).pushFront l ops = p.modEng l (Engine.writing ops) := by
  rw [Part.pushFront, Part.turnWrites, Part.modEng_modEng]
  refine Part.modEng_congr l _ _ p ?_
  rw [Engine.writing, CycleScheduler.turnWrites, hs, List.append_nil]

theorem Part.withSched_fetching (hturn : (p.eng l).cyc.turn = some turn) (ops : List SchedOp) :
    p.withSched l ops = p.modEng l (Engine.fetching turn turn.stage ops) :=
  Part.modEng_congr l _ _ p (by rw [Engine.fetching, ← hturn])

include hs in
theorem Part.turnWork_parked (hk : (p.ctx i).inHand = none) (hparked : (p.ctx i).parked.isSome = true) :
    p.turnWork l i = p.withSched l [.readLink i] := by
  obtain ⟨k, hparked⟩ := Option.isSome_iff_exists.mp hparked
  rw [Part.turnWork, hk, hparked]
  exact Part.push_of_idle hs

theorem Part.turnWork_free (hk : (p.ctx i).inHand = none) (hparked : (p.ctx i).parked = none) :
    p.turnWork l i = p.followLink l i (p.ctx i).fresh.chainHead := by
  rw [Part.turnWork, hk, hparked]

/-- A station with no record in hand is halted ahead of the work of its procedure. -/
theorem Part.haltStation_of_none {r : ReasonCode} (hk : (p.ctx i).inHand = none) :
    p.haltStation l i r =
      Part.pushFront l [.writeStationHalf i, .raise .halted] ((p.releaseRelay i).modCtx i (Context.halt r)) := by
  rw [Part.haltStation, hk]

theorem Engine.walkGoesOn_iff {e : Engine} :
    e.walkGoesOn = true ↔ e.ctl.state = .running ∨ e.ctl.state = .draining := by
  rw [Engine.walkGoesOn, Bool.or_eq_true, beq_iff_eq, beq_iff_eq]

variable (hwalk : (p.eng l).walkGoesOn = true) {link : RecordIx}
include hs hwalk

theorem Part.followLink_end : p.followLink l i 1023 = p.withSched l [.endTurn] := by
  rw [← Part.pushFront_of_idle hs, Part.followLink, hwalk]
  rfl

theorem Part.followLink_read (hend : link ≠ 1023) (hlink : link.toNat < (p.eng l).poolSize.toNat) :
    p.followLink l i link = p.withSched l [.readRecord i link] := by
  rw [← Part.pushFront_of_idle hs, Part.followLink, hwalk, if_neg (by decide), if_neg (by exact hend),
    if_pos hlink]

theorem Part.followLink_bad (hk : (p.ctx i).inHand = none)
    (hend : link ≠ 1023) (hlink : (p.eng l).poolSize.toNat ≤ link.toNat) :
    p.followLink l i link = ((p.releaseRelay i).modCtx i (Context.halt .badLink)).modEng l
      (Engine.writing [.writeStationHalf i, .raise .halted, .endTurn]) := by
  rw [Part.followLink, hwalk, if_neg (by decide), if_neg (by exact hend),
    if_neg (Nat.not_lt.mpr hlink), Part.pushFront_turnWrites hs, Part.haltStation_of_none, Part.releaseRelay,
    Part.mapRelays_modEng, Part.modCtx_modEng, Part.pushFront, Part.modEng_modEng, Part.releaseRelay]
  · rfl
  · rw [Part.modEng_ctx]
    exact hk

end

/-! ### The window that closes with no turn (R66, R71) -/

/-- The aperiodic window with its announce window started, or each candidate visited, is over. -/
theorem Part.followWindows_closes {l : LoopId} {p : Part} (hstate : (p.eng l).ctl.state = .running)
    (hturn : (p.eng l).cyc.turn = none) (hphase : (p.eng l).cyc.phase = .aperiodic)
    (hover : (p.eng l).cyc.announceStarted = true ∨
      ∀ j, p.serves l j ∧ (p.ctx j).binding.cls = .aperiodic → j ∈ (p.eng l).cyc.visited) :
    p.followWindows l = p.modEng l fun e => { e with cyc := { e.cyc with phase := .closed } } := by
  rw [Part.followWindows_of_running p l hstate hturn]
  refine Part.modEng_congr l _ _ p ?_
  dsimp only
  refine congrArg (fun c => { p.eng l with cyc := c }) ?_
  have hover' : (p.eng l).cyc.announceStarted = true ∨ ∀ j : StationIx, (p.ctx j).owner = some l ∧
      ((p.ctx j).state = .ready ∨ (p.ctx j).state = .active) ∧ (p.ctx j).binding.cls = .aperiodic →
        j ∈ (p.eng l).cyc.visited :=
    hover.imp_right fun h j hj => h j ⟨⟨hj.1, hj.2.1⟩, hj.2.2⟩
  unfold Part.windowsAfter
  simp only [hphase, reduceCtorEq, false_and, if_false, false_or, if_true, if_pos hover']

theorem Part.nextTurn_closed {l : LoopId} {p : Part} (h : ((p.followWindows l).eng l).cyc.phase = .closed) :
    p.nextTurn l = p.followWindows l := by
  unfold Part.nextTurn
  dsimp only
  rw [h]

/-- The part in which a turn of a picked station begins. -/
theorem Part.turnBegun_keeps {l : LoopId} {i : StationIx} {periodic : Bool} {rest : List StationIx} {p : Part}
    (h : p.picks l i periodic rest) :
    ((p.turnBegun l i periodic rest).eng l).sched = [] ∧
      ((p.turnBegun l i periodic rest).eng l).ctl = (p.eng l).ctl ∧ (p.eng l).ctl.state = .running ∧
      (p.eng l).ctl.rollRequest = false ∧
      ((p.turnBegun l i periodic rest).eng l).cyc.turn = some (Turn.begun i periodic) ∧
      ((p.turnBegun l i periodic rest).eng l).poolSize = (p.eng l).poolSize ∧
      (p.turnBegun l i periodic rest).ctx i = p.ctx i := by
  obtain ⟨-, hstate, -, hrequest, -, hs, -⟩ := h
  rw [Part.turnBegun, Part.eng_modEng, Part.modEng_ctx]
  exact ⟨hs, rfl, hstate, hrequest, rfl, rfl, rfl⟩

theorem Part.serves_of_picks {l : LoopId} {i : StationIx} {periodic : Bool} {rest : List StationIx} {p : Part}
    (h : p.picks l i periodic rest) : p.serves l i := by
  obtain ⟨-, -, -, -, -, -, -, hperiodic, haperiodic⟩ := h
  cases periodic with
  | true =>
    obtain ⟨-, -, hserves, -⟩ := hperiodic rfl
    exact hserves
  | false =>
    obtain ⟨-, -, hcandidate, -⟩ := haperiodic rfl
    exact hcandidate.1

theorem Context.halt_of_served {c : Context} (h : c.state = .ready ∨ c.state = .active) (r : ReasonCode) :
    c.halt r =
      { c with state := .halted, reason := r, latchedRelease := c.fresh.releaseCount, failures := 0 } := by
  refine if_neg fun hhalted => ?_
  rw [hhalted] at h
  exact h.elim StationState.noConfusion StationState.noConfusion

/-- Settles O36: the work that the picked turn begins with, and the window that closes. -/
theorem turnFetch : Obligations.TurnFetch := by
  intro dt l i periodic rest s p e c head begun turn fetching candidate answers
  refine ⟨fun hpicks hinHand => ?_, fun hlive hstate hmarked hrequest hturn hs hxu hphase hover => ?_⟩
  · obtain ⟨hs, hctl, hstate, hrequest, hturn, hpool, hctx⟩ := Part.turnBegun_keeps hpicks
    have hwalk : (begun.eng l).walkGoesOn = true :=
      Engine.walkGoesOn_iff.mpr (.inl ((congrArg LoopControl.state hctl).trans hstate))
    have hframe := Part.nextTurn_picks hpicks
    have hlive : p.live = true := hpicks.1
    have hanswer : ∀ {q : Part}, Part.proceed l (begun.turnWork l i) = q → answers q := fun hq =>
      exec_of_event rfl rfl hlive (Part.turnFree_of_picks hpicks) ((congrArg (Part.proceed l) hframe).trans hq)
    have hinHand' : (begun.ctx i).inHand = none := hctx ▸ hinHand
    have hnext : (begun.ctx i).parked = none → begun.turnWork l i = begun.followLink l i head := fun hparked => by
      rw [Part.turnWork_free hinHand' hparked, hctx]
    refine ⟨fun hparked => hanswer ?_, fun hparked hend hlink => hanswer ?_, fun hparked hend hlink => hanswer ?_,
      fun hparked hend => hanswer ?_⟩
    · rw [Part.turnWork_parked hs hinHand' (hctx ▸ hparked), Part.proceed_of_settled l _ (Part.settled_withSched rfl), Part.withSched_fetching hturn]
      rfl
    · rw [hnext (hctx ▸ hparked), Part.followLink_read hs hwalk hend (hpool ▸ hlink),
        Part.proceed_of_settled l _ (Part.settled_withSched rfl), Part.withSched_fetching hturn]
      rfl
    · rw [hnext (hctx ▸ hparked), Part.followLink_bad hs hwalk hinHand' hend (hpool ▸ hlink),
        Part.proceed_of_settled l _ (Part.settled_cons l _ (.writeStationHalf i) [.raise .halted, .endTurn]
          (congrArg Engine.sched (Part.eng_modEng ..)) rfl),
        Part.modCtx_congr i _ (fun c => { c with
          state := .halted, reason := .badLink, latchedRelease := c.fresh.releaseCount, failures := 0 }) _ (Context.halt_of_served ?_ _)]
      · refine Part.modEng_congr l _ _ _ ?_
        rw [Part.modCtx_eng, Part.releaseRelay, Part.mapRelays_eng, Engine.writing_of_turn hturn]
        rfl
      · rw [Part.releaseRelay, Part.mapRelays_ctx, hctx]
        exact (Part.serves_of_picks hpicks).2
    · rw [hnext (hctx ▸ hparked), hend, Part.followLink_end hs hwalk]
      have hacts : Part.Acts l 1 (begun.withSched l [.endTurn]) (begun.turnOver l turn) :=
        Part.Acts.step (Part.waitsAt_act rfl SchedOp.noConfusion)
          ((congrArg (Part.endTurn l) (Part.withSched_self hs)).trans (Part.endTurn_eq l begun turn hturn))
          (Part.Acts.refl l _)
      rw [hacts.proceed_idle (by decide) (Part.turnOver_sched.trans hs), Part.workOver_of_request]
      rw [Part.turnOver_ctl, hctl]
      exact hrequest
  · have hfree : (p.eng l).turnFree = true := by
      rw [Engine.turnFree, Engine.mayAttempt_of hstate hmarked hrequest, hturn, hs, hxu]
      rfl
    have hclosed := Part.followWindows_closes hstate hturn hphase hover
    refine exec_of_event rfl rfl hlive hfree ?_
    show Part.proceed l (p.nextTurn l) = _
    rw [Part.nextTurn_closed, hclosed, Part.proceed_of_idle, Part.workOver_of_request]
    · rw [Part.eng_modEng]
      exact hrequest
    · rw [Part.eng_modEng]
      exact hs
    · rw [hclosed, Part.eng_modEng]

end Sys2Proof.Machine
end

