-- ==== Sys2Proof/Proofs/GoesOn.lean ====
section
/-!
A procedure that goes on from the end of a transfer through acts with nothing to write (R164, log 25).
-/
namespace Sys2Proof.Machine

open Sys2Proof

/-! ### Work that a procedure has behind it -/

/-- The part with more work behind the procedure of loop `l`. -/
def Part.appendSched (l : LoopId) (more : List SchedOp) (p : Part) : Part :=
  p.modEng l fun e => { e with sched := e.sched ++ more }

section
variable {l : LoopId} {more ops rest : List SchedOp} {i : StationIx} {p : Part}

theorem Part.withSched_withSched (ops rest : List SchedOp) :
    (p.withSched l rest).withSched l ops = p.withSched l ops := Part.modEng_modEng ..

theorem Part.appendSched_withSched : (p.withSched l ops).appendSched l more = p.withSched l (ops ++ more) :=
  Part.modEng_modEng ..

theorem Part.appendSched_eq_withSched (h : (p.eng l).sched = ops) :
    p.appendSched l more = p.withSched l (ops ++ more) :=
  Part.modEng_congr l _ _ p (by rw [h])

@[simp] theorem Part.appendSched_eng :
    (p.appendSched l more).eng l = { p.eng l with sched := (p.eng l).sched ++ more } := Part.eng_modEng ..

@[simp] theorem Part.appendSched_ctx : (p.appendSched l more).ctx i = p.ctx i := Part.modEng_ctx ..

theorem Part.modCtx_appendSched (f : Context → Context) :
    (p.appendSched l more).modCtx i f = (p.modCtx i f).appendSched l more := Part.modCtx_modEng ..

theorem Part.releaseRelay_appendSched :
    (p.appendSched l more).releaseRelay i = (p.releaseRelay i).appendSched l more := Part.mapRelays_modEng ..

theorem Part.pushFront_appendSched :
    (p.appendSched l more).pushFront l ops = (p.pushFront l ops).appendSched l more := by
  rw [Part.pushFront, Part.appendSched, Part.modEng_modEng, Part.pushFront, Part.appendSched, Part.modEng_modEng]
  exact Part.modEng_congr l _ _ p (by rw [List.append_assoc])

theorem Part.completionOf_appendSched (outcome : RecordOutcome) (payload : List Byte) (flip : SeqFlip)
    (ends : AfterRecord) :
    (p.appendSched l more).completionOf i outcome payload flip ends = p.completionOf i outcome payload flip ends := by
  unfold Part.completionOf
  rw [Part.appendSched_ctx]

theorem Part.settleRecord_appendSched (outcome : RecordOutcome) (ends : AfterRecord) :
    (p.appendSched l more).settleRecord l i outcome ends ops =
      (p.settleRecord l i outcome ends ops).appendSched l more := by
  unfold Part.settleRecord
  dsimp only
  rw [Part.completionOf_appendSched, Part.releaseRelay_appendSched, Part.pushFront_appendSched]

/-! ### The judgement of a station puts its writes ahead of what is left (R42, R43) -/

theorem Part.disableStation_appendSched :
    (p.appendSched l more).disableStation l i = (p.disableStation l i).appendSched l more := by
  unfold Part.disableStation
  rw [Part.appendSched_ctx]
  cases (p.ctx i).inHand with
  | some k => exact Part.settleRecord_appendSched ..
  | none =>
    dsimp only
    rw [Part.releaseRelay_appendSched, Part.modCtx_appendSched, Part.pushFront_appendSched]

theorem Part.rejectStation_appendSched :
    (p.appendSched l more).rejectStation l i = (p.rejectStation l i).appendSched l more := by
  unfold Part.rejectStation
  rw [Part.appendSched_ctx]
  cases (p.ctx i).inHand with
  | some k => exact Part.settleRecord_appendSched ..
  | none =>
    dsimp only
    rw [Part.releaseRelay_appendSched, Part.modCtx_appendSched, Part.pushFront_appendSched]

theorem Part.haltStation_appendSched (r : ReasonCode) :
    (p.appendSched l more).haltStation l i r = (p.haltStation l i r).appendSched l more := by
  unfold Part.haltStation
  rw [Part.appendSched_ctx]
  cases (p.ctx i).inHand with
  | some k => exact Part.settleRecord_appendSched ..
  | none =>
    dsimp only
    rw [Part.releaseRelay_appendSched, Part.modCtx_appendSched, Part.pushFront_appendSched]

theorem Part.admitStation_appendSched (h : StationHost) :
    (p.appendSched l more).admitStation l i h = (p.admitStation l i h).appendSched l more := by
  unfold Part.admitStation
  rw [Part.modCtx_appendSched, Part.modCtx_appendSched, Part.pushFront_appendSched, Part.pushFront_appendSched,
    apply_ite (Part.appendSched l more)]

theorem Part.fieldsValid_appendSched (h : StationHost) (b : Binding) :
    (p.appendSched l more).fieldsValid l i h b = p.fieldsValid l i h b := by
  unfold Part.fieldsValid Part.couplerServes
  simp only [Part.appendSched_ctx]

theorem Part.rejectReason_appendSched (h : StationHost) :
    (p.appendSched l more).rejectReason l i h = p.rejectReason l i h := by
  unfold Part.rejectReason Part.clashes
  simp only [Part.appendSched_ctx, Part.fieldsValid_appendSched]

theorem Part.judgeCandidate_appendSched (h : StationHost) :
    (p.appendSched l more).judgeCandidate l i h = (p.judgeCandidate l i h).appendSched l more := by
  unfold Part.judgeCandidate
  rw [Part.rejectReason_appendSched]
  cases p.rejectReason l i h with
  | none => exact Part.admitStation_appendSched h
  | some r =>
    dsimp only
    rw [Part.modCtx_appendSched, Part.pushFront_appendSched]

theorem Part.reexamine_appendSched (h : StationHost) :
    (p.appendSched l more).reexamine l i h = (p.reexamine l i h).appendSched l more := by
  unfold Part.reexamine
  rw [Part.rejectReason_appendSched]
  cases p.rejectReason l i h with
  | none => exact Part.admitStation_appendSched h
  | some r =>
    dsimp only
    rw [Part.modCtx_appendSched, Part.appendSched_ctx, Part.pushFront_appendSched, apply_ite (Part.appendSched l more)]

theorem Part.judgeAdmitted_appendSched (h : StationHost) :
    (p.appendSched l more).judgeAdmitted l i h = (p.judgeAdmitted l i h).appendSched l more := by
  unfold Part.judgeAdmitted
  dsimp only
  rw [Part.appendSched_ctx, Part.fieldsValid_appendSched, Part.rejectStation_appendSched, Part.modCtx_appendSched,
    Part.appendSched_ctx, Part.modCtx_appendSched, Part.haltStation_appendSched, Part.pushFront_appendSched,
    Part.pushFront_appendSched]
  simp only [apply_ite (Part.appendSched l more)]

theorem Part.judgeEntry_appendSched :
    (p.appendSched l more).judgeEntry l i = (p.judgeEntry l i).appendSched l more := by
  have hreset : (p.appendSched l more).modEng l (fun e =>
      { e with resetSet := e.resetSet.filter (fun j => j != i) }) =
        (p.modEng l fun e => { e with resetSet := e.resetSet.filter (fun j => j != i) }).appendSched l more := by
    rw [Part.appendSched, Part.modEng_modEng, Part.appendSched, Part.modEng_modEng]
  unfold Part.judgeEntry
  dsimp only
  rw [hreset, Part.appendSched_ctx, Part.appendSched_eng]
  dsimp only
  rw [Part.disableStation_appendSched, Part.reexamine_appendSched, Part.judgeAdmitted_appendSched,
    Part.judgeCandidate_appendSched, Part.pushFront_appendSched]
  cases (p.ctx i).owner with
  | some o =>
    dsimp only
    simp only [apply_ite (Part.appendSched l more)]
  | none =>
    dsimp only
    simp only [apply_ite (Part.appendSched l more)]

/-- A judgement with nothing to write is the same with other work behind it. -/
theorem Part.judgeEntry_withSched (hs : (p.eng l).sched = rest)
    (hj : ((p.judgeEntry l i).eng l).sched = rest) (ops : List SchedOp) :
    (p.withSched l ops).judgeEntry l i = (p.judgeEntry l i).withSched l ops := by
  have hall : ∀ more, (p.withSched l more).judgeEntry l i = ((p.withSched l []).judgeEntry l i).appendSched l more :=
    fun more => by rw [← Part.judgeEntry_appendSched, Part.appendSched_withSched, List.nil_append]
  have hself := hall rest
  rw [Part.withSched_self hs] at hself
  have hnil : (((p.withSched l []).judgeEntry l i).eng l).sched = [] := by
    rw [hself, Part.appendSched_eng] at hj
    exact List.append_left_eq_self.mp hj
  rw [hall, hself, Part.appendSched_eq_withSched hnil, Part.appendSched_eq_withSched hnil, Part.withSched_withSched,
    List.nil_append]

end

/-! ### What a judgement leaves of the loop -/

/-- The loop of `q` is that of `p` but for the work of its procedure. -/
def Part.SameLoop (l : LoopId) (p q : Part) : Prop := q.eng l = { p.eng l with sched := (q.eng l).sched }

section
variable {l : LoopId} {ops : List SchedOp} {i : StationIx} {p q : Part}

theorem Part.SameLoop.refl (l : LoopId) (p : Part) : Part.SameLoop l p p := rfl

theorem Part.SameLoop.modCtx (h : Part.SameLoop l p q) (f : Context → Context) : Part.SameLoop l p (q.modCtx i f) := by
  rw [Part.SameLoop, Part.modCtx_eng]
  exact h

theorem Part.SameLoop.releaseRelay (h : Part.SameLoop l p q) : Part.SameLoop l p (q.releaseRelay i) := by
  rw [Part.SameLoop, Part.releaseRelay, Part.mapRelays_eng]
  exact h

theorem Part.SameLoop.pushFront (h : Part.SameLoop l p q) : Part.SameLoop l p (q.pushFront l ops) := by
  rw [Part.SameLoop, Part.pushFront, Part.eng_modEng]
  exact congrArg (fun e => { e with sched := ops ++ (q.eng l).sched }) h

theorem Part.SameLoop.settleRecord (h : Part.SameLoop l p q) (outcome : RecordOutcome) (ends : AfterRecord) :
    Part.SameLoop l p (q.settleRecord l i outcome ends ops) := h.releaseRelay.pushFront

theorem Part.SameLoop.disableStation (h : Part.SameLoop l p q) : Part.SameLoop l p (q.disableStation l i) := by
  unfold Part.disableStation
  cases (q.ctx i).inHand with
  | some k => exact h.settleRecord ..
  | none => exact (h.releaseRelay.modCtx _).pushFront

theorem Part.SameLoop.rejectStation (h : Part.SameLoop l p q) : Part.SameLoop l p (q.rejectStation l i) := by
  unfold Part.rejectStation
  cases (q.ctx i).inHand with
  | some k => exact h.settleRecord ..
  | none => exact (h.releaseRelay.modCtx _).pushFront

theorem Part.SameLoop.haltStation (h : Part.SameLoop l p q) (r : ReasonCode) :
    Part.SameLoop l p (q.haltStation l i r) := by
  unfold Part.haltStation
  cases (q.ctx i).inHand with
  | some k => exact h.settleRecord ..
  | none => exact (h.releaseRelay.modCtx _).pushFront

theorem Part.SameLoop.admitStation (h : Part.SameLoop l p q) (x : StationHost) :
    Part.SameLoop l p (q.admitStation l i x) := by
  unfold Part.admitStation
  split_ifs
  · exact (h.modCtx _).pushFront
  · exact (h.modCtx _).pushFront

theorem Part.SameLoop.judgeCandidate (h : Part.SameLoop l p q) (x : StationHost) :
    Part.SameLoop l p (q.judgeCandidate l i x) := by
  unfold Part.judgeCandidate
  cases q.rejectReason l i x with
  | none => exact h.admitStation x
  | some r => exact (h.modCtx _).pushFront

theorem Part.SameLoop.reexamine (h : Part.SameLoop l p q) (x : StationHost) :
    Part.SameLoop l p (q.reexamine l i x) := by
  unfold Part.reexamine
  cases q.rejectReason l i x with
  | none => exact h.admitStation x
  | some r =>
    dsimp only
    split_ifs
    · exact h.modCtx _
    · exact (h.modCtx _).pushFront

theorem Part.SameLoop.judgeAdmitted (h : Part.SameLoop l p q) (x : StationHost) :
    Part.SameLoop l p (q.judgeAdmitted l i x) := by
  unfold Part.judgeAdmitted
  dsimp only
  split_ifs
  · exact h.rejectStation
  · exact ((h.modCtx _).modCtx _).pushFront
  · exact h.modCtx _
  · exact (h.modCtx _).haltStation _
  · exact h.modCtx _
  · exact (h.modCtx _).pushFront

/-- A judgement changes the loop in its work and in the resets that await their judgement. -/
theorem Part.judgeEntry_loop :
    (p.judgeEntry l i).eng l = { p.eng l with
      resetSet := (p.eng l).resetSet.filter (fun j => j != i), sched := ((p.judgeEntry l i).eng l).sched } := by
  have h : Part.SameLoop l (p.modEng l fun e => { e with resetSet := e.resetSet.filter (fun j => j != i) })
      (p.judgeEntry l i) := by
    unfold Part.judgeEntry
    dsimp only
    cases (p.ctx i).owner with
    | some o =>
      dsimp only
      split_ifs
      · exact (Part.SameLoop.refl l _).disableStation
      · exact (Part.SameLoop.refl l _).reexamine _
      · exact (Part.SameLoop.refl l _).judgeAdmitted _
      · exact Part.SameLoop.refl l _
    | none =>
      dsimp only
      split_ifs
      · exact (Part.SameLoop.refl l _).judgeCandidate _
      · exact (Part.SameLoop.refl l _).pushFront
      · exact Part.SameLoop.refl l _
  rw [Part.SameLoop, Part.eng_modEng] at h
  exact h

end

/-! ### Acts with nothing to write -/

/-- What acts with nothing to write leave as it is: the loop but for a refused RETIME that has been raised and the
resets that have been judged, and the time. -/
def Part.Stays (l : LoopId) (p q : Part) : Prop :=
  q.resetting = p.resetting ∧ q.now = p.now ∧
    ∃ refused resets, q.eng l = { p.eng l with
      cyc := { (p.eng l).cyc with retimeRefused := refused }, resetSet := resets }

theorem Part.Stays.refl (l : LoopId) (p : Part) : Part.Stays l p p := ⟨rfl, rfl, _, _, rfl⟩

theorem Part.Stays.of_eng {l : LoopId} {p q : Part} (hresetting : q.resetting = p.resetting) (hnow : q.now = p.now)
    (heng : q.eng l = p.eng l) : Part.Stays l p q := ⟨hresetting, hnow, _, _, heng⟩

@[simp] theorem Part.eng_withCause (l : LoopId) (w : Word) (p : Part) : ({ p with cause := w } : Part).eng l = p.eng l := by
  cases l <;> rfl

@[simp] theorem Part.withSched_cause (l : LoopId) (ops : List SchedOp) (p : Part) : (p.withSched l ops).cause = p.cause :=
  Part.modEng_cause ..

theorem Part.withSched_withCause (l : LoopId) (ops : List SchedOp) (w : Word) (p : Part) :
    ({ p.withSched l ops with cause := w } : Part) = Part.withSched l ops { p with cause := w } := by
  cases l <;> rfl

theorem Part.raiseRetimeRefused_of {l : LoopId} {p : Part} (hlive : p.resetting = false) :
    p.raiseRetimeRefused l =
      if (p.eng l).cyc.retimeRefused then
        Part.modEng l (fun e => { e with cyc := { e.cyc with retimeRefused := false } })
          { p with cause := p.cause ||| causeBit l .refused }
      else p := by
  unfold Part.raiseRetimeRefused
  refine if_congr Iff.rfl ?_ rfl
  rw [Part.raiseCause_of_not_resetting (by rw [Part.modEng_resetting]; exact hlive)]
  cases l <;> rfl

theorem Part.Stays.trans {l : LoopId} {p q r : Part} (h : Part.Stays l p q) (h' : Part.Stays l q r) :
    Part.Stays l p r := by
  obtain ⟨hresetting, hnow, refused, resets, heng⟩ := h
  obtain ⟨hresetting', hnow', refused', resets', heng'⟩ := h'
  refine ⟨hresetting'.trans hresetting, hnow'.trans hnow, refused', resets', ?_⟩
  rw [heng', heng]

section
variable {l : LoopId} {op : SchedOp} {acts rest ops : List SchedOp} {p q : Part}

/-- An act with nothing to write leaves the rest of the procedure as it is. -/
theorem Part.acts_one (hw : p.waitsAt l op = false)
    (hact : ∀ ops, Part.act l op (p.withSched l ops) = q.withSched l ops) :
    Part.Acts l 1 (p.withSched l (op :: ops)) (q.withSched l ops) :=
  Part.Acts.step hw (hact ops) (Part.Acts.refl l _)

/-- What each act with nothing to write leaves. -/
theorem Part.goesThrough_cons (h : Part.goesThrough l (op :: acts) p = some q) (hlive : p.resetting = false) :
    op.transfers = false ∧ op ≠ .awaitTransmitter ∧
      ∃ r, Part.goesThrough l acts r = some q ∧ Part.Stays l p r ∧
        ∀ ops, Part.act l op (p.withSched l ops) = r.withSched l ops := by
  cases op with
  | raise c =>
    refine ⟨rfl, SchedOp.noConfusion, _, h, Part.Stays.of_eng rfl rfl (Part.eng_withCause ..), fun ops => ?_⟩
    show Part.raiseCause l c _ = _
    rw [Part.raiseCause_of_not_resetting (by rw [Part.withSched, Part.modEng_resetting]; exact hlive),
      Part.withSched_withCause, Part.withSched_cause]
  | raiseRetimeRefused =>
    have hlive' : ∀ ops, (p.withSched l ops).resetting = false := fun ops => by
      rw [Part.withSched, Part.modEng_resetting]
      exact hlive
    have hact : ∀ ops, Part.act l .raiseRetimeRefused (p.withSched l ops) = _ :=
      fun ops => Part.raiseRetimeRefused_of (hlive' ops)
    rw [Part.goesThrough] at h
    by_cases hrefused : (p.eng l).cyc.retimeRefused = true
    · rw [if_pos hrefused] at h
      refine ⟨rfl, SchedOp.noConfusion, _, h, ⟨Part.modEng_resetting .., Part.modEng_now .., false, (p.eng l).resetSet, ?_⟩, fun ops => ?_⟩
      · rw [Part.eng_modEng, Part.eng_withCause]
      · rw [hact, if_pos (by rw [Part.withSched_eng]; exact hrefused), Part.withSched_withCause, Part.withSched_cause]
        exact Part.modEng_withSched rfl
    · rw [if_neg hrefused] at h
      refine ⟨rfl, SchedOp.noConfusion, _, h, Part.Stays.refl l p, fun ops => ?_⟩
      rw [hact, if_neg (by rw [Part.withSched_eng]; exact hrefused)]
  | mark => exact ⟨rfl, SchedOp.noConfusion, _, h, Part.Stays.refl l p, fun _ => rfl⟩
  | judge i =>
    rw [Part.goesThrough] at h
    split_ifs at h with hsched
    refine ⟨rfl, SchedOp.noConfusion, _, h, ⟨((Part.Within.refl l p).judgeEntry).resetting,
      ((Part.Within.refl l p).judgeEntry).now, (p.eng l).cyc.retimeRefused,
      (p.eng l).resetSet.filter (fun j => j != i), ?_⟩, fun ops => Part.judgeEntry_withSched rfl hsched ops⟩
    rw [Part.judgeEntry_loop, hsched]
  | disown i =>
    refine ⟨rfl, SchedOp.noConfusion, _, h, Part.Stays.of_eng rfl rfl (Part.modCtx_eng ..), fun ops => ?_⟩
    unfold Part.act
    exact Part.modCtx_modEng ..
  | _ => nomatch h

theorem Part.acts_goesThrough (acts : List SchedOp) : ∀ {p : Part}, p.resetting = false → (p.eng l).sched = rest →
    Part.goesThrough l acts p = some q →
      Part.Acts l acts.length (p.withSched l (acts ++ rest)) q ∧ Part.Stays l p q := by
  induction acts with
  | nil =>
    intro p _ hs h
    obtain rfl : p = q := Option.some.inj h
    rw [List.nil_append, Part.withSched_self hs]
    exact ⟨Part.Acts.refl l p, Part.Stays.refl l p⟩
  | cons op acts ih =>
    intro p hlive hs h
    obtain ⟨ht, hop, r, hr, hstays, hact⟩ := Part.goesThrough_cons h hlive
    have hstays' := hstays
    obtain ⟨hresetting, -, refused, resets, heng⟩ := hstays
    obtain ⟨hacts, hq⟩ := ih (hresetting.trans hlive) (by rw [heng]; exact hs) hr
    exact ⟨(Part.acts_one (Part.waitsAt_act ht hop) hact).trans hacts, hstays'.trans hq⟩

/-- A transfer that leads to nothing of its own leaves what it has read. -/
theorem Part.schedDone_transferred {data : List Byte} (h : Part.transferred l op data p = some q) :
    (∀ ops, Part.schedDone l op data (p.withSched l ops) = q.withSched l ops) ∧ q.resetting = p.resetting ∧
      q.now = p.now ∧ ∃ scan, q.eng l = { p.eng l with scan := scan } := by
  cases op with
  | readStationHost j =>
    obtain rfl : _ = q := Option.some.inj h
    refine ⟨fun ops => ?_, Part.modEng_resetting .., Part.modEng_now .., _, Part.eng_modEng ..⟩
    exact Part.modEng_withSched (f := fun e => { e with scan := e.scan.set j (StationHost.decode data) }) rfl
  | writePayload k data =>
    obtain rfl : p = q := Option.some.inj h
    exact ⟨fun _ => rfl, rfl, rfl, _, rfl⟩
  | writeResult i k outcome n =>
    obtain rfl : p = q := Option.some.inj h
    exact ⟨fun _ => rfl, rfl, rfl, _, rfl⟩
  | writeStationHalf i =>
    obtain rfl : p = q := Option.some.inj h
    exact ⟨fun _ => rfl, rfl, rfl, _, rfl⟩
  | writeLoopHalf =>
    obtain rfl : p = q := Option.some.inj h
    exact ⟨fun _ => rfl, rfl, rfl, _, rfl⟩
  | _ => nomatch h

/-- What the loop is like where a procedure goes on: its work is `rest`, and it is otherwise as it was but for what a
scan has read, a refused RETIME that has been raised and the resets that have been judged. -/
def Part.GoesOnTo (l : LoopId) (rest : List SchedOp) (p q : Part) : Prop :=
  q.resetting = p.resetting ∧ q.now = p.now ∧
    ∃ scan refused resets, q.eng l = { p.eng l with
      scan := scan, sched := rest, resetSet := resets, cyc := { (p.eng l).cyc with retimeRefused := refused } }

/-- The end of a transfer of a procedure, and the acts with nothing to write that follow it; what the acts from there on
come to is the answer. -/
theorem exec_of_goesOn {dt : Nat} {ws : List (Word × Byte)} {t : Transfer} {s : State}
    (hlive : (s.part.tick dt).live = true) (ht : s.part.port.inFlight = some t) (horphan : t.orphan = false)
    (hrequester : t.requester = .sched l) (hurgent : t.urgent = false)
    (hs : ((s.part.tick dt).eng l).sched = op :: acts ++ rest) (hacts : acts.length ≤ 100)
    (hq : (s.part.tick dt).goesOn l op (t.dataAfter ws s.mem) acts rest = some q) :
    Part.GoesOnTo l rest (s.part.tick dt) q ∧
      ∀ n r, Part.Acts l n q r → n ≤ 100 →
        (r.settled l = true →
          exec (.transferComplete dt ws) s = .next (State.become { s with mem := t.memoryAfter ws s.mem } r)) ∧
        ((r.eng l).sched = [] →
          exec (.transferComplete dt ws) s =
            .next (State.become { s with mem := t.memoryAfter ws s.mem } (r.workOver l))) := by
  obtain ⟨q₀, hq₀, hthrough⟩ := Option.bind_eq_some_iff.mp hq
  obtain ⟨hdone, hresetting₀, hnow₀, scan, heng₀⟩ :=
    Part.schedDone_transferred (p := ((s.part.tick dt).freePort).withSched l rest) hq₀
  have hrunning : (s.part.tick dt).resetting = false := by
    rw [Part.live, Bool.and_eq_true, Bool.not_eq_true', Bool.not_eq_true'] at hlive
    exact hlive.2
  have hbase : (((s.part.tick dt).freePort).withSched l rest).eng l = { (s.part.tick dt).eng l with sched := rest } := by
    rw [Part.withSched_eng, Part.freePort_eng]
  have hs₀ : (q₀.eng l).sched = rest := by rw [heng₀, hbase]
  have hresetting₁ : q₀.resetting = (s.part.tick dt).resetting := by
    rw [hresetting₀, Part.withSched, Part.modEng_resetting, Part.freePort_resetting]
  have hnow₁ : q₀.now = (s.part.tick dt).now := by
    rw [hnow₀, Part.withSched, Part.modEng_now, Part.freePort_now]
  obtain ⟨hacts₀, hresetting, hnow, refused, resets, heng⟩ :=
    Part.acts_goesThrough acts (hresetting₁.trans hrunning) hs₀ hthrough
  have hdone' : Part.schedDone l op (t.dataAfter ws s.mem) (((s.part.tick dt).freePort).withSched l (acts ++ rest)) =
      q₀.withSched l (acts ++ rest) := by
    rw [← hdone, Part.withSched_withSched]
  refine ⟨⟨hresetting.trans hresetting₁, hnow.trans hnow₁, scan, refused, resets, ?_⟩,
    fun n r hr hn => ⟨fun h => ?_, fun h => ?_⟩⟩
  · rw [heng, heng₀, hbase]
  · refine exec_of_transfer hlive ht horphan hrequester hurgent hs ?_
    exact (congrArg (Part.proceed l) hdone').trans ((hacts₀.trans hr).proceed (by omega) h)
  · refine exec_of_transfer hlive ht horphan hrequester hurgent hs ?_
    exact (congrArg (Part.proceed l) hdone').trans ((hacts₀.trans hr).proceed_idle (by omega) h)

end

end Sys2Proof.Machine
end

