-- ==== Sys2Proof/Proofs/Reports.lean ====
section
/-!
The steps of a boundary after its scan (R57, R60, R62, R72, R73, R132): the judgement of a RETIME, the count of the
cycle, and its report.
-/
namespace Sys2Proof.Machine

open Sys2Proof

/-! ### The count of the cycle and its report (R58, R60, R63, R132) -/

/-- The loop once its cycle has been counted and reported, `rest` being the work after that. -/
def Engine.reported (rest : List SchedOp) (e : Engine) : Engine :=
  let cycle := if e.cyc.firstCycle then e.rep.cycleNumber else e.rep.cycleNumber + 1
  let window := if e.cfg.errorWindow = 0 then 1 else e.cfg.errorWindow.toNat
  let run := if e.cyc.firstOfGrid then e.mon.silentRun
    else if e.cyc.answered then 0
    else if e.cyc.attempted then satInc e.mon.silentRun
    else e.mon.silentRun
  let silent := e.cyc.firstOfGrid = false ∧ e.cfg.silenceThreshold ≠ 0 ∧
    e.cfg.silenceThreshold.toNat ≤ run.toNat
  { e with
    rep := { e.rep with
      cycleNumber := cycle
      lateBeacons := if e.cyc.lateTaken then satInc e.rep.lateBeacons else e.rep.lateBeacons }
    cyc := { e.cyc with
      firstCycle := false, lateTaken := false, attempted := false, answered := false
      firstOfGrid := false, overrun := false }
    mon := { e.mon with
      silenceMet := decide silent
      windowErrors := if e.cyc.firstOfGrid = false ∧ cycle.toNat % window = 0 then 0
                      else e.mon.windowErrors
      silentRun := run }
    sched := if silent then [] else .writeLoopHalf :: rest }

section
variable {l : LoopId} {rest : List SchedOp} {p : Part}

/-- The report after the count. -/
theorem Part.reportStep_eq :
    Part.reportStep l ((p.cycleStep l).withSched l (.writeLoopHalf :: rest)) = p.modEng l (Engine.reported rest) := by
  rw [Part.reportStep, Part.cycleStep, Part.withSched, Part.modEng_modEng, Part.modEng_modEng]
  refine Part.modEng_congr l _ _ p ?_
  generalize p.eng l = e
  unfold Engine.reported silentRunAfter atLeastOne
  dsimp only
  have hthreshold : (e.cfg.silenceThreshold != 0) = decide (e.cfg.silenceThreshold ≠ 0) := by
    rw [Bool.eq_iff_iff, bne_iff_ne, decide_eq_true_eq]
  rw [hthreshold]
  cases e.cyc.firstOfGrid with
  | true => simp
  | false => simp

/-- The steps of a boundary from its count on. -/
theorem Part.acts_counting (hs : (p.eng l).sched = [.mark, .cycleStep, .reportStep, .writeLoopHalf] ++ rest) :
    Part.Acts l 3 p (p.modEng l (Engine.reported rest)) := by
  rw [← Part.withSched_self hs]
  have hcycle : ∀ ops, Part.act l .cycleStep (p.withSched l ops) = (p.cycleStep l).withSched l ops :=
    fun ops => by
      show Part.cycleStep l _ = _
      rw [Part.cycleStep, Part.modEng_withSched rfl, Part.cycleStep]
  refine Part.Acts.step (Part.waitsAt_act rfl SchedOp.noConfusion) rfl
    (Part.Acts.step (Part.waitsAt_act rfl SchedOp.noConfusion) (hcycle _)
      (Part.Acts.step (Part.waitsAt_act rfl SchedOp.noConfusion) ?_ (Part.Acts.refl l _)))
  refine Part.reportStep_eq.trans ?_
  rw [Part.withSched, Part.modEng_modEng]
  rfl

theorem Part.settled_reported (h : (p.eng l).ctl.rollRequest = false ∨ (p.eng l).cyc.phase = .boundary) :
    (p.modEng l (Engine.reported rest)).settled l = true := by
  have hdue : ((p.modEng l (Engine.reported rest)).eng l).rollcallDue = false := by
    rw [Part.eng_modEng]
    rcases h with h | h
    · exact Engine.rollcallDue_of_request _ h
    · unfold Engine.rollcallDue Engine.reported
      simp [h]
  refine Part.settled_atTransfer ?_ hdue
  have hsched : ((p.modEng l (Engine.reported rest)).eng l).sched = [] ∨
      ((p.modEng l (Engine.reported rest)).eng l).sched = .writeLoopHalf :: rest := by
    rw [Part.eng_modEng]
    exact ite_eq_or_eq ..
  exact hsched.elim Part.atTransfer_nil fun h => (Part.atTransfer_cons h).trans rfl

end

/-! ### The judgement of a RETIME (R57, R62, R72) -/

/-- The timing group of a descriptor fits. -/
theorem timingFits_iff (rate : Byte) (h : LoopHost) :
    timingFits rate h.cycleLength h.periodicBudget h.announceWindow = true ↔
      100 ≤ h.cycleLength.toNat ∧
        20 * Config.charTime rate + h.periodicBudget.toNat * 2500 + h.announceWindow.toNat * 2500
          ≤ h.cycleLength.toNat * 2500 := by
  rw [timingFits, Bool.and_eq_true, decide_eq_true_eq, decide_eq_true_eq]
  rfl

/-- The loop once a RETIME has been judged by the descriptor `h`. -/
def Engine.retimed (h : LoopHost) (now : Nat) (e : Engine) : Engine :=
  let fits := 100 ≤ h.cycleLength.toNat ∧
    20 * e.charTime + h.periodicBudget.toNat * 2500 + h.announceWindow.toNat * 2500 ≤ h.cycleLength.toNat * 2500
  let started := e.ctl.state = .running ∧ e.cyc.phase ≠ .none ∧ h.announceWindow ≠ 0 ∧
    e.cyc.boundaryAt + h.cycleLength.toNat * 2500 - h.announceWindow.toNat * 2500 ≤ now
  { e with
    ctl := { e.ctl with retimePending := false }
    cfg := if fits then { e.cfg with cycleLength := h.cycleLength, periodicBudget := h.periodicBudget
                                     announceWindow := h.announceWindow }
      else e.cfg
    rep := { e.rep with retimeResult := if fits then .adopted else .refused }
    cyc := { e.cyc with
      nextGrid := if fits ∧ e.ctl.state = .running then some (e.cyc.boundaryAt + h.cycleLength.toNat * 2500)
        else e.cyc.nextGrid
      retimeRefused := if fits then e.cyc.retimeRefused else true
      announceStarted := if fits then decide started else e.cyc.announceStarted } }

theorem Engine.retimed_of_state {h : LoopHost} {now : Nat} {e : Engine} (hstate : e.ctl.state ≠ .running) :
    e.retimed h now =
      let fits := 100 ≤ h.cycleLength.toNat ∧
        20 * e.charTime + h.periodicBudget.toNat * 2500 + h.announceWindow.toNat * 2500 ≤ h.cycleLength.toNat * 2500
      { e with
        ctl := { e.ctl with retimePending := false }
        cfg := if fits then { e.cfg with cycleLength := h.cycleLength, periodicBudget := h.periodicBudget
                                         announceWindow := h.announceWindow }
          else e.cfg
        rep := { e.rep with retimeResult := if fits then .adopted else .refused }
        cyc := { e.cyc with
          nextGrid := e.cyc.nextGrid
          retimeRefused := if fits then e.cyc.retimeRefused else true
          announceStarted := if fits then false else e.cyc.announceStarted } } := by
  unfold Engine.retimed
  simp only [hstate, and_false, false_and, if_false, decide_false]

theorem Engine.retimed_of_running {h : LoopHost} {now : Nat} {e : Engine} (hstate : e.ctl.state = .running) :
    e.retimed h now =
      let fits := 100 ≤ h.cycleLength.toNat ∧
        20 * e.charTime + h.periodicBudget.toNat * 2500 + h.announceWindow.toNat * 2500 ≤ h.cycleLength.toNat * 2500
      { e with
        ctl := { e.ctl with retimePending := false }
        cfg := if fits then { e.cfg with cycleLength := h.cycleLength, periodicBudget := h.periodicBudget
                                         announceWindow := h.announceWindow }
          else e.cfg
        rep := { e.rep with retimeResult := if fits then .adopted else .refused }
        cyc := { e.cyc with
          nextGrid := if fits then some (e.cyc.boundaryAt + h.cycleLength.toNat * 2500) else e.cyc.nextGrid
          retimeRefused := if fits then e.cyc.retimeRefused else true
          announceStarted := if fits then decide (e.cyc.phase ≠ .none ∧ h.announceWindow ≠ 0 ∧
            e.cyc.boundaryAt + h.cycleLength.toNat * 2500 - h.announceWindow.toNat * 2500 ≤ now) else e.cyc.announceStarted } } := by
  unfold Engine.retimed
  simp only [hstate, and_true, true_and]

theorem Part.retimeJudge_eq (l : LoopId) (h : LoopHost) (p : Part) :
    p.retimeJudge l h = p.modEng l (Engine.retimed h p.now) := by
  rw [Part.retimeJudge]
  refine Part.modEng_congr l _ _ p ?_
  generalize p.eng l = e
  have hfits : timingFits e.cfg.bitRate h.cycleLength h.periodicBudget h.announceWindow = true ↔
      100 ≤ h.cycleLength.toNat ∧ 20 * e.charTime + h.periodicBudget.toNat * 2500 + h.announceWindow.toNat * 2500
        ≤ h.cycleLength.toNat * 2500 := timingFits_iff e.cfg.bitRate h
  by_cases hf : timingFits e.cfg.bitRate h.cycleLength h.periodicBudget h.announceWindow = true
  · have hf' := hfits.mp hf
    have hstarted : (e.ctl.state == .running && e.cyc.phase != .none && h.announceWindow != 0 &&
        decide (e.cyc.boundaryAt + groupTime h.cycleLength - groupTime h.announceWindow ≤ p.now)) =
          decide (e.ctl.state = .running ∧ e.cyc.phase ≠ .none ∧ h.announceWindow ≠ 0 ∧
            e.cyc.boundaryAt + h.cycleLength.toNat * 2500 - h.announceWindow.toNat * 2500 ≤ p.now) := by
      rw [Bool.eq_iff_iff, decide_eq_true_eq, Bool.and_eq_true, Bool.and_eq_true, Bool.and_eq_true, beq_iff_eq,
        bne_iff_ne, bne_iff_ne, decide_eq_true_eq, and_assoc, and_assoc]
      rfl
    dsimp only
    rw [if_pos hf]
    unfold Engine.retimed
    simp only [hf', and_self, true_and, if_true]
    rw [← hstarted]
    rfl
  · have hf' := mt hfits.mpr hf
    dsimp only
    rw [if_neg hf]
    unfold Engine.retimed
    simp only [hf', false_and, if_false]


/-! ### The end of the read of a RETIME -/

theorem Part.workOver_of_state {l : LoopId} {p : Part} (h : (p.eng l).ctl.state ≠ .running) : p.workOver l = p :=
  if_neg fun hwork => h hwork.1

section
variable {dt : Nat} {ws : List (Word × Byte)} {l : LoopId} {t : Transfer} {rest : List SchedOp} {s : State}

@[simp] theorem Part.withSched_now (p : Part) : (p.withSched l rest).now = p.now := Part.modEng_now ..

theorem Part.holders_eq_nil {p : Part} (h : ∀ i : StationIx, (p.ctx i).owner = some l → (p.ctx i).inHand = none) :
    p.holders l = [] := by
  rw [Part.holders, List.filter_eq_nil_iff]
  intro i _ hi
  rw [Bool.and_eq_true, beq_iff_eq] at hi
  rw [h i hi.1] at hi
  exact Bool.false_ne_true hi.2

/-- With no record in hand nothing is settled. -/
theorem Part.settleAll_none {p : Part} (h : p.holders l = []) (o : RecordOutcome) :
    Part.act l (.settleAll o) p = p := by
  show p.pushFront l (p.settleAllOps l o) = p
  rw [Part.settleAllOps, h]
  exact Part.modEng_self l _ p rfl

@[simp] theorem Part.withSched_holders (p : Part) : (p.withSched l rest).holders l = p.holders l := by
  unfold Part.holders
  simp only [Part.withSched, Part.modEng_ctx]

theorem Part.acts_settleAll_none {p : Part} (h : p.holders l = []) {o : RecordOutcome} :
    Part.Acts l 2 (p.withSched l (.mark :: .settleAll o :: rest)) (p.withSched l rest) :=
  Part.Acts.step (Part.waitsAt_act rfl SchedOp.noConfusion) rfl
    (Part.Acts.step (Part.waitsAt_act rfl SchedOp.noConfusion) (Part.settleAll_none (by rwa [Part.withSched_holders]) o)
      (Part.Acts.refl l _))

theorem LoopControl.judgesRetime_iff (c : LoopControl) : c.judgesRetime = true ↔
    c.state = .running ∨ (c.state = .down ∨ c.state = .jammed) ∧ c.returnTarget = some .running := by
  unfold LoopControl.judgesRetime
  cases c.state <;> simp

/-- What the end of the read of a RETIME makes of the part, the procedure being at `rest` then. -/
theorem Part.schedDone_retiming (data : List Byte) (p : Part) :
    Part.schedDone l (.readLoopHost .retiming) data (p.withSched l rest) =
      if (p.eng l).ctl.judgesRetime then (p.modEng l (Engine.retimed (LoopHost.decode data) p.now)).withSched l rest
      else p.withSched l rest := by
  show (if ((p.withSched l rest).eng l).ctl.judgesRetime then _ else _) = _
  rw [Part.withSched_eng]
  refine if_congr Iff.rfl ?_ rfl
  rw [Part.retimeJudge_eq, Part.modEng_withSched rfl, Part.withSched_now]

end

/-- Settles O37: the acts after the scan, and those after the read of a RETIME. -/
theorem boundaryReport : Obligations.BoundaryReport := by
  intro dt ws l t rest s p e m after data h fits latched newStarted free reported counting answers hlive ht horphan
    hrequester hurgent
  have hfree : free.eng l = e := Part.freePort_eng ..
  have hnot : e.ctl.state = .down ∨ e.ctl.state = .jammed → e.ctl.state ≠ .running := by
    rintro (hdown | hjammed) hrunning
    · exact LoopState.noConfusion (hdown.symm.trans hrunning)
    · exact LoopState.noConfusion (hjammed.symm.trans hrunning)
  refine ⟨fun op acts q hstate hboundary hs hacts hq => ?_, fun hstate hs => ?_, ?down, fun hstate hboundary hs => ?_⟩
  case down =>
    intro c hstate hs hholders last
    have hgoes : ∀ q : Part, (∀ i, q.ctx i = p.ctx i) →
        Part.proceed l (q.withSched l (.mark :: .settleAll .lineLost :: last)) = q.withSched l last := fun q hctx =>
      (Part.acts_settleAll_none (Part.holders_eq_nil fun i ho => hctx i ▸ hholders i (hctx i ▸ ho))).proceed (by decide)
        (Part.settled_withSched rfl)
    refine ⟨fun htarget => exec_of_transfer hlive ht horphan hrequester hurgent hs ?_,
      fun htarget => exec_of_transfer hlive ht horphan hrequester hurgent hs ?_⟩
    · rw [Part.schedDone_retiming, if_neg]
      · exact hgoes _ fun i => Part.freePort_ctx ..
      · rw [Part.freePort_eng, LoopControl.judgesRetime_iff]
        rintro (hrunning | ⟨-, hreturn⟩)
        · exact hnot hstate hrunning
        · exact htarget hreturn
    · rw [Part.schedDone_retiming, if_pos, hgoes _ fun i => (Part.modEng_ctx ..).trans (Part.freePort_ctx ..),
        Part.withSched, Part.modEng_modEng]
      · refine Part.modEng_congr l _ _ _ ?_
        rw [Part.freePort_eng, Engine.retimed_of_state (hnot hstate)]
        rfl
      · rw [Part.freePort_eng, LoopControl.judgesRetime_iff]
        exact .inr ⟨hstate, htarget⟩
  · obtain ⟨⟨hresetting, hnow, scan, refused, resets, heng⟩, hanswer⟩ :=
      exec_of_goesOn hlive ht horphan hrequester hurgent hs hacts hq
    have hqs : (q.eng l).sched = .retimeStep :: counting := by rw [heng]
    have hctl : (q.eng l).ctl = e.ctl := by rw [heng]
    have hphase : (q.eng l).cyc.phase = e.cyc.phase := by rw [heng]
    have hstep : ∀ r, Part.retimeStep l (q.withSched l counting) = r →
        Part.Acts l 1 q r := fun r hr => by
      have hacts : Part.Acts l 1 (q.withSched l (.retimeStep :: counting)) r :=
        Part.Acts.step (Part.waitsAt_act rfl SchedOp.noConfusion) hr (Part.Acts.refl l _)
      rw [Part.withSched_self hqs] at hacts
      exact hacts
    refine ⟨fun hpending => ?_, fun hpending => ?_⟩
    · have hcount : Part.Acts l 3 (q.withSched l counting) (q.modEng l (Engine.reported rest)) := by
        have hacts := Part.acts_counting (p := q.withSched l counting) (rest := rest) Part.withSched_sched
        rw [Part.withSched, Part.modEng_modEng] at hacts
        exact hacts
      refine (hanswer 4 _ ((hstep _ ?_).trans hcount) (by decide)).1 (Part.settled_reported ?_)
      · rw [Part.retimeStep, if_neg]
        rw [Part.withSched_eng]
        exact fun h => Bool.false_ne_true (hpending.symm.trans (hctl ▸ h))
      · rw [hctl, hphase]
        exact hboundary
    · refine (hanswer 1 _ (hstep (q.withSched l (.readLoopHost .retiming :: counting)) ?_) (by decide)).1
        (Part.settled_withSched rfl)
      rw [Part.retimeStep, if_pos, Part.pushFront, Part.withSched, Part.modEng_modEng]
      · rfl
      · rw [Part.withSched_eng]
        exact (congrArg LoopControl.retimePending hctl).trans hpending
  · have hacts : Part.Acts l 1 (free.withSched l [.mark]) (free.withSched l []) :=
      Part.Acts.step (Part.waitsAt_act rfl SchedOp.noConfusion) rfl (Part.Acts.refl l _)
    refine exec_of_transfer hlive ht horphan hrequester hurgent hs ?_
    rw [Part.schedDone_retiming, if_neg]
    · refine (hacts.proceed_idle (by decide) Part.withSched_sched).trans (Part.workOver_of_state ?_)
      rw [Part.withSched_eng, hfree]
      exact fun h => LoopState.noConfusion (hstate.symm.trans h)
    · rw [Part.freePort_eng, LoopControl.judgesRetime_iff, show ((s.part.tick dt).eng l).ctl.state = .draining from hstate]
      simp
  · refine exec_of_transfer hlive ht horphan hrequester hurgent hs ?_
    rw [Part.schedDone_retiming, if_pos (by rw [Part.freePort_eng, LoopControl.judgesRetime_iff]; exact .inl hstate)]
    have hacts := Part.acts_counting (p := Part.withSched l counting
      (Part.modEng l (Engine.retimed h free.now) free)) (rest := rest) Part.withSched_sched
    refine (hacts.proceed (by decide) (Part.settled_reported ?_)).trans ?_
    · rw [Part.withSched_eng, Part.eng_modEng, hfree]
      exact hboundary
    · rw [Part.withSched, Part.modEng_modEng, Part.modEng_modEng]
      refine Part.modEng_congr l _ _ _ ?_
      rw [hfree, Engine.retimed_of_running hstate]
      rfl


end Sys2Proof.Machine
end

