-- ==== Sys2Proof/Proofs/Settlements.lean ====
section
/-!
The settlements of the records in hand (R129, R134), and the drain targets.
-/
namespace Sys2Proof.Machine

open Sys2Proof

/-! ### Settlements -/

section
variable {l : LoopId} {i : StationIx} {k : RecordIx} {o : RecordOutcome} {rest : List StationIx}
  {tail : List SchedOp} {p : Part}

/-- The stations of loop `l` with a record in hand, as the statements list them. -/
theorem Part.holders_eq (p : Part) (l : LoopId) :
    p.holders l = allStations.filter fun i => (p.ctx i).owner = some l ∧ (p.ctx i).inHand.isSome = true := by
  unfold Part.holders
  refine List.filter_congr fun i _ => ?_
  rw [Bool.eq_iff_iff, Bool.and_eq_true, beq_iff_eq, decide_eq_true_eq]

/-- What the settlement of the record `k` in hand of a station schedules. -/
def settleOps (i : StationIx) (k : RecordIx) (o : RecordOutcome) : List SchedOp :=
  [.writeResult i k o 0, .writeDone i k .none .ready, .writeStationHalf i, .raise .exfault]

/-- The settlement of one record. -/
theorem Part.acts_settle (ho : o ≠ .ok) (hk : (p.ctx i).inHand = some k) :
    Part.Acts l 1 (p.withSched l (.settle i o :: tail))
      ((p.releaseRelay i).withSched l (settleOps i k o ++ tail)) := by
  refine Part.Acts.step (Part.waitsAt_act rfl SchedOp.noConfusion) ?_ (Part.Acts.refl l _)
  have hctx : ∀ ops : List SchedOp, ((p.withSched l ops).ctx i).inHand = some k := fun ops => by
    rw [Part.withSched, Part.modEng_ctx]
    exact hk
  show Part.pushFront l (Part.completionOf (p.withSched l tail) i o [] .none .ready ++ [])
    ((p.withSched l tail).releaseRelay i) = _
  rw [Part.completionOf_inHand (hctx tail), completionOps_failed ho, List.append_nil, Part.releaseRelay, Part.withSched,
    Part.mapRelays_modEng, Part.pushFront, Part.modEng_modEng]
  rfl

/-- The settlements of all records in hand begin with the first. -/
theorem Part.acts_settleAll (ho : o ≠ .ok) (hholders : p.holders l = i :: rest) (hk : (p.ctx i).inHand = some k) :
    Part.Acts l 2 (p.withSched l (.settleAll o :: tail))
      ((p.releaseRelay i).withSched l
        (settleOps i k o ++ (.mark :: rest.flatMap (fun j => [.settle j o, .mark]) ++ tail))) := by
  have hall : Part.act l (.settleAll o) (p.withSched l tail) =
      p.withSched l (.settle i o :: (.mark :: rest.flatMap (fun j => [.settle j o, .mark]) ++ tail)) := by
    show Part.pushFront l (Part.settleAllOps (p.withSched l tail) l o) (p.withSched l tail) = _
    rw [Part.settleAllOps, Part.withSched_holders, hholders, Part.pushFront, Part.withSched, Part.modEng_modEng]
    rfl
  exact Part.Acts.step (Part.waitsAt_act rfl SchedOp.noConfusion) hall (Part.acts_settle ho hk)

theorem Part.acts_settleAll_nil (hholders : p.holders l = []) :
    Part.Acts l 1 (p.withSched l (.settleAll o :: tail)) (p.withSched l tail) :=
  Part.Acts.step (Part.waitsAt_act rfl SchedOp.noConfusion)
    (Part.settleAll_none (by rwa [Part.withSched_holders]) o) (Part.Acts.refl l _)

theorem Part.settled_settleOps : (p.withSched l (settleOps i k o ++ tail)).settled l = true :=
  Part.settled_withSched rfl

end

/-! ### The drain targets (R129) -/

/-- A loop that has drained to QUIET. -/
def Engine.quieted (now : Nat) (e : Engine) : Engine :=
  { e with
    ctl := { e.ctl with state := .quiet, drainTarget := none, returnTarget := none }
    cyc := { e.cyc.stop with turn := none }
    keepaliveFrom := now, quietFrom := now
    sched := [.writeLoopHalf, .raiseRetimeRefused] }

section
variable {l : LoopId} {p : Part}

theorem Part.acts_toOff {op : SchedOp} (hw : op = .enterOff ∨ (op = .enterTarget ∧ (p.eng l).ctl.drainTarget = some .off)) :
    Part.Acts l 1 (p.withSched l [op]) (Part.offState l [.writeLoopHalf, .raiseRetimeRefused] (p.withSched l [])) := by
  rw [← Part.enterOff_eq]
  rcases hw with rfl | ⟨rfl, htarget⟩
  · exact Part.Acts.step (Part.waitsAt_act rfl SchedOp.noConfusion) rfl (Part.Acts.refl l _)
  · refine Part.Acts.step (Part.waitsAt_act rfl SchedOp.noConfusion) ?_ (Part.Acts.refl l _)
    show Part.enterTarget l _ = _
    rw [Part.enterTarget, Part.withSched_eng]
    dsimp only
    rw [htarget]

theorem Part.settled_toOff :
    (Part.offState l [.writeLoopHalf, .raiseRetimeRefused] (p.withSched l [])).settled l = true :=
  Part.settled_offState (Part.atTransfer_nil Part.withSched_sched) fun _ h => Option.some.inj h ▸ rfl

theorem Part.acts_toQuiet (htarget : (p.eng l).ctl.drainTarget = some .quiet) :
    Part.Acts l 1 (p.withSched l [.enterTarget]) (p.modEng l (Engine.quieted p.now)) := by
  refine Part.Acts.step (Part.waitsAt_act rfl SchedOp.noConfusion) ?_ (Part.Acts.refl l _)
  show Part.enterTarget l _ = _
  rw [Part.enterTarget, Part.withSched_eng]
  dsimp only
  rw [htarget]
  show Part.enterQuiet l [.raiseRetimeRefused] _ = _
  rw [Part.enterQuiet, Part.withSched_now, Part.withSched, Part.modEng_modEng, Part.push, Part.modEng_modEng]
  rfl

theorem Part.settled_toQuiet {now : Nat} : (p.modEng l (Engine.quieted now)).settled l = true :=
  Part.settled_cons l _ .writeLoopHalf [.raiseRetimeRefused] (congrArg Engine.sched (Part.eng_modEng ..)) rfl

end

/-- Settles O38: the settlements, or with none the entry to the drain target. -/
theorem drainSettlement : Obligations.DrainSettlement := by
  intro dt l s p e holders hlive hstate hturn hs hurgent hxu hsending
  have hdrained : e.drained = true := by
    rw [Engine.drained, hstate, hturn, hs, hurgent, hxu, hsending]
    rfl
  have hholders : p.holders l = holders := Part.holders_eq p l
  have hpush : p.drainSettlement l = p.withSched l [.settleAll .stopped, .enterTarget] := Part.push_of_idle hs
  have hanswer : ∀ {n q}, Part.Acts l n (p.withSched l [.settleAll .stopped, .enterTarget]) q → n ≤ 200 →
      q.settled l = true → exec (.drainSettlement dt l) s = .next (s.become q) := fun hacts hn hq =>
    exec_of_event rfl rfl hlive hdrained ((congrArg (Part.proceed l) hpush).trans (hacts.proceed hn hq))
  refine ⟨fun hnone htarget => ?_, fun hnone htarget => ?_, fun i rest k hfirst hk => ?_⟩
  · have h := hanswer ((Part.acts_settleAll_nil (hholders.trans hnone)).trans (Part.acts_toOff (.inr ⟨rfl, htarget⟩)))
      (by decide) Part.settled_toOff
    rwa [Part.withSched_self hs] at h
  · exact hanswer ((Part.acts_settleAll_nil (hholders.trans hnone)).trans (Part.acts_toQuiet htarget)) (by decide)
      Part.settled_toQuiet
  · have h := hanswer (Part.acts_settleAll (by decide) (hholders.trans hfirst) hk) (by decide) Part.settled_settleOps
    exact h

end Sys2Proof.Machine
end

