-- ==== Sys2Proof/Proofs/Rolls.lean ====
section
/-!
The roll-call's attempts and their PRESENT replies (R138, R139), and keepalives (R143).
-/
namespace Sys2Proof.Machine

open Sys2Proof

/-! ### A ROLL attempt -/

/-- A ROLL attempt of station `i`. -/
def Attempt.roll (i : StationIx) (c : Context) : Attempt :=
  { kind := .roll, station := some i, seq := false, timeout := c.fresh.replyTimeout.toNat * 2500, allowance := 0
    source := c.binding.lineAddress, latency := none, buffer := [], endOfFrame := 0
    timeoutPassed := false, skipBroken := false }

/-- The frame of a ROLL attempt. -/
def TxFrame.roll (c : Context) : TxFrame :=
  { purpose := .request, destination := c.binding.lineAddress
    control := 7 ||| (if c.syncPending then 0x20 else 0), payload := [] }

theorem Part.sendRequest_roll {l : LoopId} {i : StationIx} {p : Part} (hstate : (p.eng l).ctl.state = .rollcall) :
    p.sendRequest l .roll i = p.modEng l fun e =>
      Engine.transmits p.now (.roll (p.ctx i)) { e with xu := { state := .sending, attempt := some (.roll i (p.ctx i)) } } := by
  have hframe : p.requestFrame .roll i = .roll (p.ctx i) := by
    rw [Part.requestFrame, controlByte_eq]
    show TxFrame.mk _ _ (AttemptKind.control .roll false (p.ctx i).syncPending) _ = TxFrame.mk _ _ _ _
    cases (p.ctx i).syncPending with
    | false => rfl
    | true => rfl
  refine Part.modEng_congr l _ _ p ?_
  rw [hframe]
  refine Engine.handFrame_eq ?_ ?_
  · show (p.eng l).ctl.state.maySend .request = true
    rw [hstate]
    rfl
  · exact Engine.internalReturn_eq_false fun h => LoopState.noConfusion (hstate.symm.trans h.1)

/-! ### A PRESENT reply -/

theorem couplerIndex_eq_some_iff {coupler : Byte} {i : StationIx} :
    couplerIndex coupler = some i ↔ coupler.toNat = i.val := by
  refine ⟨fun h => ?_, couplerIndex_of⟩
  unfold couplerIndex at h
  split at h
  · exact congrArg Fin.val (Option.some.inj h)
  · nomatch h

/-- The stations behind a coupler that its PRESENT revives, as the statements list them. -/
theorem Part.revived_eq (p : Part) (l : LoopId) (i : StationIx) :
    p.revived l i = allStations.filter fun j =>
      (p.ctx j).owner = some l ∧ (p.ctx j).binding.coupler.toNat = i.val ∧ (p.ctx j).state = .silent := by
  unfold Part.revived
  refine List.filter_congr fun j _ => ?_
  rw [Bool.eq_iff_iff, decide_eq_true_eq, Bool.and_eq_true, Bool.and_eq_true, Bool.and_eq_true, beq_iff_eq, beq_iff_eq,
    beq_iff_eq, couplerIndex_eq_some_iff, Context.relayed_iff]
  refine ⟨fun ⟨⟨⟨howner, _⟩, hcoupler⟩, hstate⟩ => ⟨howner, hcoupler, hstate⟩,
    fun ⟨howner, hcoupler, hstate⟩ => ⟨⟨⟨howner, fun hdirect => ?_⟩, hcoupler⟩, hstate⟩⟩
  rw [hdirect] at hcoupler
  have hlt := i.isLt
  exact absurd hcoupler.symm (Nat.ne_of_lt (Nat.lt_trans hlt (by decide)))

theorem Part.reviveAll_eq (js : List StationIx) (p : Part) :
    Part.reviveAll js p = js.foldl (fun q j => q.modCtx j Context.revive) p := by
  induction js generalizing p with
  | nil => rfl
  | cons j js ih => exact ih _

theorem Part.reviveAll_modEng (js : List StationIx) (l : LoopId) (f : Engine → Engine) (p : Part) :
    Part.reviveAll js (p.modEng l f) = (Part.reviveAll js p).modEng l f := by
  induction js generalizing p with
  | nil => rfl
  | cons j js ih =>
    show Part.reviveAll js ((p.modEng l f).modCtx j Context.revive) = _
    rw [Part.modCtx_modEng, ih]
    rfl

theorem Part.reviveAll_eng (js : List StationIx) (l : LoopId) (p : Part) :
    (Part.reviveAll js p).eng l = p.eng l := by
  induction js generalizing p with
  | nil => rfl
  | cons j js ih => exact (ih _).trans (Part.modCtx_eng ..)

/-- What a PRESENT makes of the context of its station (R138). -/
def Context.presented (c : Context) : Context :=
  let h := { c with failures := 0, syncPending := false, present := true }
  if c.state = .silent ∨ c.state = .absent then h.revive else h

/-- The loop once a PRESENT has been judged: `behind` are the stations revived behind its station, and
`rest` those that are still to be asked. -/
def Engine.presented (i : StationIx) (behind rest : List StationIx) (e : Engine) : Engine :=
  { e with
    framer := { e.framer with receiver := .hunt }
    xu := ExchangeUnit.idle
    cyc := { e.cyc with turn := e.cyc.turn.map fun t => { t with stage := .writes } }
    rep := { e.rep with rollPresent := if e.rep.rollPresent = 255 then 255 else e.rep.rollPresent + 1 }
    rollList := rest, rollSecond := false
    sched := .writeStationHalf i :: behind.map .writeStationHalf
      ++ if rest = [] then [.rollEnd] else [] }

theorem Part.rollPresent_eq {l : LoopId} {i : StationIx} {p : Part} (hs : (p.eng l).sched = [])
    (hstate : (p.eng l).ctl.state = .rollcall) :
    ((p.hunting l).endAttempt l).rollPresent l i =
      Part.modEng l (Engine.presented i (p.revived l i) ((p.eng l).rollList.drop 1))
        ((p.revived l i).foldl (fun q j => q.modCtx j Context.revive) (p.modCtx i Context.presented)) := by
  have hctx : ∀ j, ((p.hunting l).endAttempt l).ctx j = p.ctx j := fun j => by
    rw [Part.endAttempt, Part.modEng_ctx, Part.hunting, Part.modEng_ctx]
  have hrevived : ((p.hunting l).endAttempt l).revived l i = p.revived l i := by
    unfold Part.revived
    simp only [hctx]
  have hlast : (((p.eng l).rollList.drop 1).isEmpty && (p.eng l).ctl.state == .rollcall) =
      decide ((p.eng l).rollList.drop 1 = []) := by
    rw [hstate, Bool.eq_iff_iff, Bool.and_eq_true, List.isEmpty_iff, decide_eq_true_eq]
    simp
  have hpresented : ((p.hunting l).endAttempt l).modCtx i (fun c =>
      let h := { c.heard with present := true }
      if c.state = .silent || c.state = .absent then h.revive else h) =
        ((p.hunting l).endAttempt l).modCtx i Context.presented := by
    refine congrArg (Part.modCtx i · _) (funext fun c => ?_)
    simp only [Bool.or_eq_true, decide_eq_true_eq]
    rfl
  unfold Part.rollPresent
  dsimp only
  rw [hrevived, hpresented]
  simp only [Part.endAttempt, Part.hunting, Part.rollAdvance, Part.push, Part.modEng_modEng, Part.modCtx_modEng,
    Part.reviveAll_modEng, Part.eng_modEng, Part.reviveAll_eng, Part.modCtx_eng, satInc_byte, hlast]
  rw [← Part.reviveAll_eq]
  refine Part.modEng_congr l _ _ _ ?_
  rw [Part.reviveAll_eng, Part.modCtx_eng, Engine.presented, hs]
  simp only [decide_eq_true_eq]
  rfl

/-- A valid reply of its kind to a ROLL is a PRESENT. -/
theorem Part.frameEnd_present {l : LoopId} {cs : List Byte} {a : Attempt} {i : StationIx} {p : Part}
    (hinternal : (p.eng l).internalReturn = false) (hwhole : (p.eng l).framer.receiver.whole = some cs)
    (hvalid : frameValid cs = true) (hxu : (p.eng l).xu = { state := .receiving, attempt := some a })
    (hkind : a.kind = .roll) (hstation : a.station = some i) (hdestination : (RxFrame.ofChars cs).destination = 0)
    (hsource : (RxFrame.ofChars cs).source = a.source) (hcontrol : controlKind (RxFrame.ofChars cs).control = .present) :
    p.frameEnd l = ((p.hunting l).endAttempt l).rollPresent l i := by
  have heng : (p.hunting l).eng l = { p.eng l with framer := { (p.eng l).framer with receiver := .hunt } } :=
    Part.eng_modEng ..
  have hallows : a.kind.allows (controlKind (RxFrame.ofChars cs).control) = true := by
    rw [hkind, hcontrol]
    rfl
  rw [Part.frameEnd_valid hwhole hvalid,
    Part.validFrame_receiving (by rw [heng]; exact hinternal) (by rw [heng]; exact congrArg ExchangeUnit.state hxu),
    Part.judgeReply_right (a := a) (by rw [heng]; exact congrArg ExchangeUnit.attempt hxu) hdestination hsource hallows,
    hstation, hkind]

/-! ### A keepalive -/

theorem keepaliveTime_eq (interval : Byte) : keepaliveTime interval = interval.toNat * 25000000 :=
  Nat.mul_assoc ..

theorem Part.keepalive_eq {l : LoopId} {p : Part} (hstate : (p.eng l).ctl.state = .quiet) :
    p.keepalive l = p.modEng l fun e =>
      Engine.transmits p.now (p.eng l).keepaliveBeacon { e with keepaliveFrom := p.now } := by
  refine Part.modEng_congr l _ _ p ?_
  have hframe : (p.eng l).handFrame p.now (p.eng l).keepaliveBeacon =
      (p.eng l).transmits p.now (p.eng l).keepaliveBeacon := by
    refine Engine.handFrame_eq ?_ ?_
    · show (p.eng l).ctl.state.maySend .keepalive = true
      rw [hstate]
      rfl
    · exact Engine.internalReturn_eq_false fun h => LoopState.noConfusion (hstate.symm.trans h.1)
  rw [hframe]
  rfl

/-- Settles O39: the ROLL attempt, its PRESENT, and the keepalive. -/
theorem schedulerFrames : Obligations.SchedulerFrames := by
  intro dt l s p e n id hlive
  refine ⟨fun i rest hstate hxu hlist => ?_, ?present, fun hstate hkeepalive hdue => ?_⟩
  case present =>
    intro cs a i hstate hs hreceiver hcomplete hvalid hxu hkind hstation hdestination hsource hcontrol rest behind revived
      present
    have hwhole : e.framer.receiver.whole = some cs := Receiver.whole_of hreceiver hcomplete
    have hinternal : e.internalReturn = false :=
      Engine.internalReturn_eq_false fun h => LoopState.noConfusion (hstate.symm.trans h.1)
    have hframe := Part.frameEnd_present hinternal hwhole hvalid hxu hkind hstation hdestination hsource
      ((controlKind_eq_iff _ .present).mpr hcontrol)
    rw [Part.rollPresent_eq hs hstate, Part.revived_eq] at hframe
    exact exec_frameEnd hlive hwhole hframe
      (Part.settled_cons l _ (.writeStationHalf i) _ (congrArg Engine.sched (Part.eng_modEng ..)) rfl)
  · have hroll : e.canRoll = true := by
      rw [Engine.canRoll, hstate, hxu, hlist]
      rfl
    refine exec_of_loopEvent (can := fun p => (p.eng l).canRoll) (f := Part.rollAttempt l) rfl rfl hlive hroll ?_
    have hattempt : p.rollAttempt l = p.sendRequest l .roll i := by
      rw [Part.rollAttempt, show (p.eng l).rollList = i :: rest from hlist]
    exact hattempt.trans (Part.sendRequest_roll hstate)
  · have hready : e.keepaliveDue p.now = true := by
      rw [Engine.keepaliveDue, hstate, Bool.and_eq_true, Bool.and_eq_true, bne_iff_ne, decide_eq_true_eq]
      refine ⟨⟨rfl, hkeepalive⟩, ?_⟩
      rw [keepaliveTime_eq]
      exact hdue
    refine exec_of_loopEvent (can := fun p => (p.eng l).keepaliveDue p.now) (f := Part.keepalive l) rfl rfl hlive hready ?_
    exact Part.keepalive_eq hstate

end Sys2Proof.Machine
end

