-- ==== Sys2Proof/Proofs/Downs.lean ====
section
/-!
The entries to DOWN and JAMMED, and what leaves them (R132 to R136).
-/
namespace Sys2Proof.Machine

open Sys2Proof

/-! ### The entry (R134) -/

section
variable {l : LoopId} {i : StationIx} {r : DownReason} {ops tail : List SchedOp} {p : Part}

/-- What the entry to DOWN or JAMMED does after what it keeps. -/
def downReport (r : DownReason) : List SchedOp :=
  [.writeLoopHalf, .raise (if r = .jam then .jam else .down), .raiseRetimeRefused]

/-- The states from which a criterion takes the loop to DOWN or JAMMED. -/
def LoopState.criticizes (x : LoopState) : Prop := x = .rollcall ∨ x = .running ∨ x = .draining ∨ x = .quiet

theorem returnTargetOf_eq {c : LoopControl} (h : c.state.criticizes) :
    returnTargetOf c =
      if c.state = .quiet ∨ (c.state = .draining ∧ c.drainTarget = some .quiet) then some .quiet
      else if c.state = .draining then some .off
      else if c.state = .rollcall then some .rollcall
      else some .running := by
  unfold returnTargetOf
  rcases h with h | h | h | h
  · rw [h]
    simp
  · rw [h]
    simp
  · rw [h]
    cases c.drainTarget with
    | none => simp
    | some t => cases t <;> simp
  · rw [h]
    simp

theorem Part.downState_withSched : p.downState l r ops = (p.downState l r []).withSched l ops := by
  rw [Part.downState, Part.downState, Part.withSched, Part.modEng_modEng]

theorem Part.enterDown_eq (hstate : (p.eng l).ctl.state.criticizes) :
    p.enterDown l r = (p.abandonLatency l).downState l r (p.downKeep l ++ .settleAll .lineLost :: downReport r) := by
  have heng : (p.abandonLatency l).eng l = p.eng l := by
    unfold Part.abandonLatency
    split
    · split
      · rfl
      · rfl
      · exact Part.modCtx_eng ..
      · rfl
    · rfl
  have hnow : (p.abandonLatency l).now = p.now := by
    unfold Part.abandonLatency
    split
    · split <;> rfl
    · rfl
  unfold Part.enterDown Part.downState
  dsimp only
  refine Part.modEng_congr l _ _ _ ?_
  rw [heng, hnow, ← returnTargetOf_eq hstate]
  cases hsending : (p.eng l).framer.sending with
  | none => simp only [Engine.cutOff, hsending, if_true]; rfl
  | some x => simp only [Engine.cutOff, hsending, reduceCtorEq, if_false]; rfl

theorem Part.releaseRelay_downState :
    (p.downState l r ops).releaseRelay i = (p.releaseRelay i).downState l r ops := by
  unfold Part.downState
  exact Part.mapRelays_modEng ..

/-! ### What it keeps of the procedure -/

theorem Part.downKeep_nil
    (h : (p.eng l).sched = [] ∨
      (p.schedTransferring l = false ∧ ∃ t, (p.eng l).cyc.turn = some t ∧ t.stage = .fetch)) : p.downKeep l = [] := by
  unfold Part.downKeep
  rcases h with hs | ⟨htransferring, t, ht, hstage⟩
  · rw [Part.keepTransfer, hs]
    simp [keepStep]
  · rw [ht, Part.keepTransfer, htransferring]
    simp [hstage]

theorem Part.downKeep_fetch {op : SchedOp} {t : Turn} (hs : (p.eng l).sched = op :: ops)
    (htransferring : p.schedTransferring l = true) (ht : (p.eng l).cyc.turn = some t) (hstage : t.stage = .fetch) :
    p.downKeep l = [op] := by
  unfold Part.downKeep
  rw [ht, Part.keepTransfer, htransferring, hs]
  simp [hstage]

/-- What of its step the procedure keeps at the entry: not the acts that would go beyond it. -/
def SchedOp.keptAtDown : SchedOp → Bool
  | .rollEnd | .followOn _ | .endTurn => false
  | _ => true

theorem SchedOp.keptAtDown_of_transfers {op : SchedOp} (h : op.transfers = true) : op.keptAtDown = true := by
  cases op with
  | rollEnd => nomatch h
  | followOn i => nomatch h
  | endTurn => nomatch h
  | _ => rfl

theorem Part.downKeep_step (hturn : ∀ t, (p.eng l).cyc.turn = some t → t.stage ≠ .fetch) :
    p.downKeep l = (keepStep (p.eng l).sched).filter SchedOp.keptAtDown := by
  unfold Part.downKeep
  cases ht : (p.eng l).cyc.turn with
  | none => rfl
  | some t =>
    have hstage : (t.stage == .fetch) = false := beq_eq_false_iff_ne.mpr (hturn t ht)
    dsimp only
    rw [hstage, if_neg Bool.false_ne_true]
    rfl

/-- The transfer at which the procedure stands is kept first of all. -/
theorem keepStep_filter_cons {op : SchedOp} (hop : op.transfers = true) (ops : List SchedOp) :
    (keepStep (op :: ops)).filter SchedOp.keptAtDown = op :: (keepStep ops).filter SchedOp.keptAtDown := by
  rw [keepStep_cons, List.filter_cons_of_pos (SchedOp.keptAtDown_of_transfers hop)]
  rintro rfl
  nomatch hop

end

/-! ### The criteria (R132, R133, R144) -/

section
variable {l : LoopId} {p : Part}

/-- The part once the latency of an abandoned attempt for a record stands as 65535 (R96). -/
theorem Part.abandonLatency_eq :
    p.abandonLatency l = match (p.eng l).xu.attempt with
      | none => p
      | some a =>
        if a.kind = AttemptKind.roll ∨ a.kind = AttemptKind.test then p
        else match a.station with
          | some i => p.modCtx i fun c => { c with recLatency := 0xFFFF }
          | none => p := by
  unfold Part.abandonLatency
  cases (p.eng l).xu.attempt with
  | none => rfl
  | some a =>
    dsimp only
    cases a.kind with
    | roll => simp
    | test => simp
    | _ =>
      simp only [reduceCtorEq, or_self, if_false]
      cases a.station <;> rfl

/-- An abandoned attempt leaves the station and its record in hand. -/
theorem Part.abandonLatency_ctx (i : StationIx) :
    ((p.abandonLatency l).ctx i).owner = (p.ctx i).owner ∧ ((p.abandonLatency l).ctx i).inHand = (p.ctx i).inHand := by
  rw [Part.abandonLatency_eq]
  cases (p.eng l).xu.attempt with
  | none => exact ⟨rfl, rfl⟩
  | some a =>
    dsimp only
    split_ifs
    · exact ⟨rfl, rfl⟩
    · cases a.station with
      | none => exact ⟨rfl, rfl⟩
      | some j =>
        dsimp only
        by_cases hij : i = j
        · rw [hij, Part.ctx_modCtx]
          exact ⟨rfl, rfl⟩
        · rw [Part.ctx_modCtx_ne j i _ p hij]
          exact ⟨rfl, rfl⟩

theorem Part.downState_holders (r : DownReason) (ops : List SchedOp) :
    ((p.abandonLatency l).downState l r ops).holders l = p.holders l := by
  unfold Part.holders Part.downState
  simp only [Part.modEng_ctx, (Part.abandonLatency_ctx _).1, (Part.abandonLatency_ctx _).2]

variable {r : DownReason} (hstate : (p.eng l).ctl.state.criticizes)
include hstate

theorem Part.enterDown_withSched :
    p.enterDown l r =
      ((p.abandonLatency l).downState l r []).withSched l (p.downKeep l ++ .settleAll .lineLost :: downReport r) :=
  (Part.enterDown_eq hstate).trans Part.downState_withSched

/-- With nothing kept and no record in hand the loop enters DOWN or JAMMED at once. -/
theorem Part.proceed_enterDown_none (hkeep : p.downKeep l = []) (hnone : p.holders l = []) :
    (p.enterDown l r).proceed l = (p.abandonLatency l).downState l r (downReport r) := by
  rw [Part.enterDown_withSched hstate, hkeep, List.nil_append, Part.downState_withSched (ops := downReport r)]
  exact (Part.acts_settleAll_nil ((Part.downState_holders ..).trans hnone)).proceed (by decide)
    (Part.settled_withSched rfl)

/-- With nothing kept the first record in hand is settled. -/
theorem Part.proceed_enterDown_some {i : StationIx} {rest : List StationIx} {k : RecordIx} (hkeep : p.downKeep l = [])
    (hfirst : p.holders l = i :: rest) (hk : (p.ctx i).inHand = some k) :
    (p.enterDown l r).proceed l = ((p.abandonLatency l).releaseRelay i).downState l r
      (settleOps i k .lineLost ++ (.mark :: rest.flatMap (fun j => [.settle j .lineLost, .mark]) ++ downReport r)) := by
  have hk' : (((p.abandonLatency l).downState l r []).ctx i).inHand = some k := by
    rw [Part.downState, Part.modEng_ctx, (Part.abandonLatency_ctx i).2]
    exact hk
  rw [Part.enterDown_withSched hstate, hkeep, List.nil_append]
  refine ((Part.acts_settleAll (by decide) ((Part.downState_holders ..).trans hfirst) hk').proceed (by decide)
    Part.settled_settleOps).trans ?_
  rw [Part.releaseRelay_downState, ← Part.downState_withSched]

/-- What is kept begins with the transfer at which the procedure stands. -/
theorem Part.proceed_enterDown_kept {op : SchedOp} {ops : List SchedOp} (hop : op.transfers = true)
    (hkeep : p.downKeep l = op :: ops) :
    (p.enterDown l r).proceed l =
      (p.abandonLatency l).downState l r (op :: ops ++ .settleAll .lineLost :: downReport r) := by
  have hentered : p.enterDown l r = ((p.abandonLatency l).downState l r []).withSched l
      (op :: (ops ++ .settleAll .lineLost :: downReport r)) := by
    rw [Part.enterDown_withSched hstate, hkeep, List.cons_append]
  rw [hentered, Part.proceed_of_settled l _ (Part.settled_withSched hop), ← Part.downState_withSched, List.cons_append]

end

theorem LoopState.judgesCarrier_iff {x : LoopState} : x.judgesCarrier = true ↔ x.criticizes := by
  unfold LoopState.criticizes
  cases x <;> simp [LoopState.judgesCarrier]

theorem LoopState.judgesJam_iff {x : LoopState} :
    x.judgesJam = true ↔ x = .rollcall ∨ x = .running ∨ x = .quiet := by
  cases x <;> simp [LoopState.judgesJam]

theorem LoopState.countsErrors_iff {x : LoopState} :
    x.countsErrors = true ↔ x = .rollcall ∨ x = .running ∨ x = .draining := by
  cases x <;> simp [LoopState.countsErrors]

theorem Engine.jamMet_iff {energy : Bool} {now : Nat} {e : Engine} : e.jamMet energy now = true ↔
    (e.ctl.state = .rollcall ∨ e.ctl.state = .running ∨ e.ctl.state = .quiet) ∧ e.cfg.jamTime ≠ 0 ∧
      e.framer.sending = none ∧
      (e.ctl.state = .quiet → energy = true → ∃ t, e.framer.activity = some t ∧ t ≤ e.quietFrom) ∧
      ∃ t, e.framer.activity = some t ∧ t + e.cfg.jamTime.toNat * 250000 ≤ now := by
  have hten : tensOfMs e.cfg.jamTime.toNat = e.cfg.jamTime.toNat * 250000 := Nat.mul_assoc ..
  have hmeasured : measured e.framer.activity (tensOfMs e.cfg.jamTime.toNat) now = true ↔
      ∃ t, e.framer.activity = some t ∧ t + e.cfg.jamTime.toNat * 250000 ≤ now := by
    rw [hten]
    unfold measured
    cases e.framer.activity <;> simp
  have holder : e.activityOlder = true ↔ ∃ t, e.framer.activity = some t ∧ t ≤ e.quietFrom := by
    unfold Engine.activityOlder
    cases e.framer.activity <;> simp
  unfold Engine.jamMet
  simp only [Bool.and_eq_true, Bool.or_eq_true, bne_iff_ne, Bool.not_eq_true', Option.isNone_iff_eq_none, hmeasured,
    holder, LoopState.judgesJam_iff, and_assoc]
  refine and_congr_right fun _ => and_congr_right fun _ => and_congr_right fun _ => and_congr_left fun _ => ?_
  cases energy <;> simp [imp_iff_not_or]

/-- Settles O40: what the entry keeps, and with nothing kept the first settlement. -/
theorem downEntry : Obligations.DownEntry := by
  intro dt l s p e state holders abandoned reached answers nothingRuns hlive r last
  have habandoned : p.abandonLatency l = abandoned := Part.abandonLatency_eq
  have hholders : p.holders l = holders := Part.holders_eq p l
  have hanswer : ∀ {q : Part}, (state.criticizes → Part.proceed l (p.enterDown l r) = q) → answers r q := by
    intro q hq
    refine ⟨?_, ?_, ?_, ?_⟩
    · rintro rfl hstate henabled ⟨t, hsince, hlast⟩
      have hmet : e.carrierMet p.now = true := by
        rw [Engine.carrierMet, LoopState.judgesCarrier_iff.mpr hstate, henabled, hsince]
        exact decide_eq_true hlast
      exact exec_of_event rfl rfl hlive hmet (hq hstate)
    · rintro rfl hstate htime hsending ⟨t, hsince, hlast⟩ henergy
      have hmet : e.jamMet p.screening.wakeConfig.wakeOnEnergy p.now = true :=
        Engine.jamMet_iff.mpr ⟨hstate, htime, hsending, fun hquiet hon => (henergy hquiet hon).imp fun _ h => h,
          t, hsince, hlast⟩
      exact exec_of_event rfl rfl hlive hmet (hq (hstate.elim .inl fun h => .inr (h.imp_right .inr)))
    · rintro rfl hstate hmet
      have hdue : e.errorsDue = true := by
        rw [Engine.errorsDue, hmet]
        exact LoopState.countsErrors_iff.mpr hstate
      exact exec_of_event rfl rfl hlive hdue (hq (hstate.imp_right fun h => h.imp_right .inl))
    · rintro rfl hstate hmet
      have hdue : e.silenceDue = true := by
        rw [Engine.silenceDue, hmet]
        exact beq_iff_eq.mpr hstate
      exact exec_of_event rfl rfl hlive hdue (hq (.inr (.inl hstate)))
  clear_value answers abandoned holders
  subst habandoned hholders
  refine ⟨fun hidle hnone => hanswer fun hstate => ?_, fun i rest k hidle hfirst hk => hanswer fun hstate => ?_,
    fun op ops hs hop hturn => hanswer fun hstate => ?_, fun op ops t hs hop htransferring ht hstage =>
      hanswer fun hstate => ?_⟩
  · exact Part.proceed_enterDown_none hstate (Part.downKeep_nil hidle) hnone
  · exact (Part.proceed_enterDown_some hstate (Part.downKeep_nil hidle) hfirst hk).trans rfl
  · rw [Part.schedAction_isSome] at hop
    have hkeep := Part.downKeep_step hturn
    rw [show (p.eng l).sched = op :: ops from hs, keepStep_filter_cons hop] at hkeep
    rw [Part.proceed_enterDown_kept hstate hop hkeep, ← keepStep_filter_cons hop, ← show (p.eng l).sched = op :: ops from hs]
    rfl
  · rw [Part.schedAction_isSome] at hop
    exact Part.proceed_enterDown_kept hstate hop (Part.downKeep_fetch hs htransferring ht hstage)

/-! ### Recovery (R136) -/

/-- The loop with the measures of DOWN and JAMMED over. -/
def Engine.unmeasured (e : Engine) : Engine :=
  { e with mon := { e.mon with downSince := none, holdPassed := false, presenceSince := none } }

/-- The loop once it has left DOWN or JAMMED for the state `state`. -/
def Engine.recovered (state : LoopState) (e : Engine) : Engine :=
  { e.unmeasured with
    ctl := { e.ctl with state := state, drainTarget := none, returnTarget := none }
    cyc := { e.cyc.stop with turn := none }
    sched := [.writeLoopHalf, .raise .up] }

section
variable {l : LoopId} {p : Part}

theorem Part.offState_unmeasured (follow : List SchedOp) :
    (p.modEng l Engine.unmeasured).offState l follow = p.offState l follow := by
  rw [Part.offState, Part.catchDropped_modEng (fun _ _ => rfl) rfl]
  simp only [Part.modEng_testUnit, Part.modEng_testUnit_comm, Part.modEng_modEng]
  rfl

theorem Part.recover_eq :
    p.recover l = match (p.eng l).ctl.returnTarget with
      | some .quiet => (p.modEng l Engine.unmeasured).enterQuiet l [.raise .up]
      | some .rollcall => (p.modEng l Engine.unmeasured).enterRollcall l [.raise .up]
      | some .running =>
        if (p.eng l).cfg.rollAtRecovery || (p.eng l).ctl.rollRequest then
          (p.modEng l Engine.unmeasured).enterRollcall l [.raise .up]
        else (p.modEng l Engine.unmeasured).enterRunning l [.raise .up]
      | some .off => (p.modEng l Engine.unmeasured).enterOff l [.writeLoopHalf, .raise .up]
      | none => (p.modEng l Engine.unmeasured).enterOff l [.writeLoopHalf, .raise .up] := rfl

variable (hs : (p.eng l).sched = [])
include hs

theorem Part.recover_quiet (h : (p.eng l).ctl.returnTarget = some .quiet) :
    p.recover l = p.modEng l fun e =>
      { e.recovered .quiet with keepaliveFrom := p.now, quietFrom := p.now } := by
  rw [Part.recover_eq, h]
  show Part.enterQuiet l _ _ = _
  rw [Part.enterQuiet, Part.push, Part.modEng_modEng, Part.modEng_modEng, Part.modEng_now]
  refine Part.modEng_congr l _ _ p ?_
  show { (p.eng l).recovered .quiet with
    keepaliveFrom := p.now, quietFrom := p.now, sched := (p.eng l).sched ++ [SchedOp.writeLoopHalf, SchedOp.raise .up] } = _
  rw [hs]
  rfl

theorem Part.recover_running (h : (p.eng l).ctl.returnTarget = some .running)
    (hroll : (p.eng l).cfg.rollAtRecovery = false) (hrequest : (p.eng l).ctl.rollRequest = false) :
    p.recover l = p.modEng l fun e =>
      { e.recovered .running with
        cyc := { (e.recovered .running).cyc with
          nextGrid := some (p.now + e.cfg.cycleLength.toNat * 2500), marked := some p.now
          late := e.lineTaken, firstOfGrid := true } } := by
  rw [Part.recover_eq, h]
  dsimp only
  rw [hroll, hrequest, if_neg (by decide), Part.enterRunning, Part.push, Part.modEng_modEng, Part.modEng_modEng,
    Part.modEng_now]
  refine Part.modEng_congr l _ _ p ?_
  show { Engine.toRunning p.now (p.eng l).unmeasured with
    sched := (p.eng l).sched ++ [SchedOp.writeLoopHalf, SchedOp.raise .up] } = _
  rw [hs]
  rfl

end

theorem Part.settled_recovered {l : LoopId} {q : Part} (h : (q.eng l).sched = [.writeLoopHalf, .raise .up]) :
    q.settled l = true :=
  Part.settled_cons l q .writeLoopHalf [.raise .up] h rfl

theorem presenceLimit_eq : Config.presenceLimit = 2500000 := rfl

theorem holdTime_eq (n : Nat) : n * 100 * Config.clkPerMs = n * 2500000 := Nat.mul_assoc ..

theorem tensOfMs_eq (n : Nat) : tensOfMs n = n * 250000 := Nat.mul_assoc ..

theorem measured_some {t duration now : Nat} (h : t + duration ≤ now) : measured (some t) duration now = true :=
  decide_eq_true h

theorem Engine.recovers_of {e : Engine} {t now : Nat} (hstate : e.ctl.state = .down) (hpassed : e.mon.holdPassed = true)
    (hs : e.sched = []) (hpresence : e.mon.presenceSince = some t) (hlast : t + 2500000 ≤ now) :
    e.recovers now = true := by
  rw [Engine.recovers, hstate, hpassed, hs, hpresence, presenceLimit_eq, measured_some hlast]
  rfl

theorem Engine.released_of {e : Engine} {now : Nat} (hstate : e.ctl.state = .jammed) (hactivity : e.framer.activity = none)
    (hs : e.sched = []) (hlast : e.framer.markSince + atLeastOne e.cfg.jamRelease * 250000 ≤ now) :
    e.released now = true := by
  rw [Engine.released, hstate, hactivity, hs, tensOfMs_eq, measured_some hlast]
  rfl

theorem Engine.holdOver_of {e : Engine} {t now : Nat} (hstate : e.ctl.state = .down) (hpassed : e.mon.holdPassed = false)
    (hsince : e.mon.downSince = some t) (hlast : t + atLeastOne e.cfg.downHold * 2500000 ≤ now) :
    e.holdOver now = true := by
  rw [Engine.holdOver, hstate, hpassed, hsince, holdTime_eq, measured_some hlast]
  rfl

/-- Settles O41: by the return target. -/
theorem recovery : Obligations.Recovery := by
  intro dt l s p e atLeast left hlive
  have hatLeast : ∀ x, atLeast x = atLeastOne x := fun _ => rfl
  refine ⟨fun t hstate hpassed hsince hlast => ?_, ?recover⟩
  case recover =>
    intro c hcommand hs toRollcall
    have hanswer : ∀ {q : Part}, p.recover l = q → q.settled l = true → exec c s = .next (s.become q) := by
      intro q hq hsettled
      rcases hcommand with ⟨t, rfl, hstate, hpassed, hpresence, hlast⟩ | ⟨rfl, hstate, hactivity, hlast⟩
      · refine exec_of_loopStep (can := fun p => (p.eng l).recovers p.now) rfl rfl hlive ?_ hq hsettled
        exact Engine.recovers_of hstate hpassed hs hpresence hlast
      · refine exec_of_loopStep (can := fun p => (p.eng l).released p.now) rfl rfl hlive ?_ hq hsettled
        exact Engine.released_of hstate hactivity hs (hatLeast _ ▸ hlast)
    have hroll : p.recover l = (p.modEng l Engine.unmeasured).enterRollcall l [.raise .up] →
        exec c s = .next (s.become (Part.rollcallState l [.raise .up] (p.modEng l fun e =>
          { e with mon := (left .rollcall e).mon }))) := by
      intro h
      rw [Part.enterRollcall_eq] at h
      refine hanswer h (Part.settled_rollcallState ?_)
      rw [Part.eng_modEng]
      exact hs
    refine ⟨fun htarget => ?_, fun htarget => ?_, fun htarget => hroll ?_, fun htarget hatRecovery hrequest => ?_⟩
    · exact hanswer (Part.recover_quiet hs htarget) (Part.settled_recovered (congrArg Engine.sched (Part.eng_modEng ..)))
    · have hoff : p.recover l = p.offState l [.writeLoopHalf, .raise .up] := by
        rw [Part.recover_eq, show (p.eng l).ctl.returnTarget = some .off from htarget]
        dsimp only
        rw [Part.enterOff_eq, Part.offState_unmeasured]
      exact hanswer hoff (Part.settled_offState (Part.atTransfer_nil hs) fun _ h => Option.some.inj h ▸ rfl)
    · rw [Part.recover_eq]
      rcases htarget with htarget | ⟨htarget, hwhy⟩
      · rw [show (p.eng l).ctl.returnTarget = some .rollcall from htarget]
      · rw [show (p.eng l).ctl.returnTarget = some .running from htarget]
        exact if_pos (Bool.or_eq_true_iff.mpr hwhy)
    · exact hanswer (Part.recover_running hs htarget hatRecovery hrequest)
        (Part.settled_recovered (congrArg Engine.sched (Part.eng_modEng ..)))
  · have hover : e.holdOver p.now = true := Engine.holdOver_of hstate hpassed hsince (hatLeast _ ▸ hlast)
    exact exec_of_loopEvent (can := fun p => (p.eng l).holdOver p.now) (f := Part.holdExpiry l) rfl rfl hlive hover rfl

end Sys2Proof.Machine
end

