-- ==== Sys2Proof/Proofs/Procedures.lean ====
section
/-!
What a procedure does from the end of a transfer up to its next one (R35, R43, R63, R64, R129, R134).
-/
namespace Sys2Proof.Machine

open Sys2Proof

/-! ### The beacon of a cycle (R9, R63) -/

/-- The beacon of cycle `n` with the identity `id`, whose announce window has the length `window`. -/
def TxFrame.beacon (n id : Word) (window : BitVec 16) : TxFrame :=
  { purpose := .beacon, destination := 255, control := 1
    payload := [n.extractLsb' 24 8, n.extractLsb' 16 8, n.extractLsb' 8 8, n.extractLsb' 0 8,
                id.extractLsb' 0 8, id.extractLsb' 8 8, id.extractLsb' 16 8, id.extractLsb' 24 8,
                if window = 0 then 0 else 1] }

theorem Engine.cycleBeacon_eq (e : Engine) :
    e.cycleBeacon = .beacon e.rep.cycleNumber e.cfg.identity e.cfg.announceWindow := by
  have hlast : (bitByte (e.cfg.announceWindow != 0) 0 ||| bitByte false 1) = if e.cfg.announceWindow = 0 then 0 else 1 := by
    by_cases h : e.cfg.announceWindow = 0
    · rw [if_pos h, h]
      rfl
    · rw [if_neg h, bne_iff_ne.mpr h]
      rfl
  rw [TxFrame.beacon, ← hlast]
  rfl

section
variable {l : LoopId} {p : Part}

/-- The beacon is handed to the Framer. -/
theorem Part.beaconStep_sends (hstate : (p.eng l).ctl.state = .running) (hmarked : (p.eng l).cyc.marked = none)
    (hrequest : (p.eng l).ctl.rollRequest = false) :
    Part.beaconStep l (p.withSched l []) = p.modEng l fun e =>
      Engine.transmits p.now (.beacon (p.eng l).rep.cycleNumber (p.eng l).cfg.identity e.cfg.announceWindow)
        { e with cyc := { e.cyc with phase := .beacon }, sched := [] } := by
  rw [Part.beaconStep, Part.withSched_now, Part.withSched, Part.modEng_modEng]
  refine Part.modEng_congr l _ _ p ?_
  dsimp only
  rw [hmarked, hrequest, hstate, if_neg (by decide), ← Engine.cycleBeacon_eq]
  refine Engine.handFrame_eq ?_ ?_
  · show (p.eng l).ctl.state.maySend .beacon = true
    rw [hstate]
    rfl
  · exact Engine.internalReturn_eq_false fun h => LoopState.noConfusion (hstate.symm.trans h.1)

/-- The beacon is not sent: the cycle has been given up, or a ROLLCALL waits. -/
theorem Part.beaconStep_skips
    (h : (p.eng l).ctl.state ≠ .running ∨ (p.eng l).cyc.marked.isSome = true ∨ (p.eng l).ctl.rollRequest = true) :
    Part.beaconStep l (p.withSched l []) = p.modEng l fun e =>
      { e with cyc := { e.cyc with phase := .beacon }, sched := [] } := by
  rw [Part.beaconStep, Part.withSched_now, Part.withSched, Part.modEng_modEng]
  refine Part.modEng_congr l _ _ p ?_
  dsimp only
  rw [if_pos]
  rw [Bool.or_eq_true, Bool.or_eq_true, bne_iff_ne]
  tauto

/-- One more act, the last of a procedure. -/
theorem Part.acts_last {op : SchedOp} {q : Part} (hs : (p.eng l).sched = [op]) (ht : op.transfers = false)
    (hop : op ≠ .awaitTransmitter) (hact : Part.act l op (p.withSched l []) = q) : Part.Acts l 1 p q := by
  have hacts : Part.Acts l 1 (p.withSched l [op]) q :=
    Part.Acts.step (Part.waitsAt_act ht hop) hact (Part.Acts.refl l q)
  rwa [Part.withSched_self hs] at hacts

theorem Part.acts_endTurn {turn : Turn} (hs : (p.eng l).sched = [.endTurn]) (hturn : (p.eng l).cyc.turn = some turn) :
    Part.Acts l 1 p (Part.turnOver l turn (p.withSched l [])) := by
  refine Part.acts_last hs rfl SchedOp.noConfusion (Part.endTurn_eq l _ turn ?_)
  rw [Part.withSched_eng]
  exact hturn

end

/-- Settles O43: what each act at which a procedure may stand next leads to. -/
theorem procedureGoesOn : Obligations.ProcedureGoesOn := by
  intro dt ws l t op acts rest q s p e m after data answers withSched holders settled ht hlive horphan hrequester hurgent
    hs hacts hq
  obtain ⟨⟨hresetting, hnow, scan, refused, resets, heng⟩, hanswer⟩ :=
    exec_of_goesOn hlive ht horphan hrequester hurgent hs hacts hq
  have hfinal : ∀ {n r}, Part.Acts l n q r → n ≤ 100 → r.settled l = true → answers r := fun h hn => (hanswer _ _ h hn).1
  have hover : ∀ {n r}, Part.Acts l n q r → n ≤ 100 → (r.eng l).sched = [] → answers (r.workOver l) :=
    fun h hn => (hanswer _ _ h hn).2
  have hqs : (q.eng l).sched = rest := by rw [heng]
  have hctl : (q.eng l).ctl = e.ctl := by rw [heng]
  have hcfg : (q.eng l).cfg = e.cfg := by rw [heng]
  have hmarked : (q.eng l).cyc.marked = e.cyc.marked := by rw [heng]
  have hturn : (q.eng l).cyc.turn = e.cyc.turn := by rw [heng]
  have hrest : ∀ {op tail}, rest = op :: tail → q = q.withSched l (op :: tail) :=
    fun h => (Part.withSched_self (hqs.trans h)).symm
  have hholders : q.holders l = holders := Part.holders_eq q l
  have hfailed : ∀ {o : RecordOutcome}, o = .stopped ∨ o = .lineLost → o ≠ .ok := by
    rintro o (rfl | rfl)
    · exact RecordOutcome.noConfusion
    · exact RecordOutcome.noConfusion
  clear_value answers holders
  refine ⟨hfinal (Part.Acts.refl l q) (by decide), fun hnil => hover (Part.Acts.refl l q) (by decide) (hqs.trans hnil),
    fun turn hlast ht => ?_, fun hlast => ⟨fun hstate hmark hrequest => ?_, fun hgiven => ?_⟩,
    fun i tail hlast hsettled => ?_, fun o ho => ⟨fun i k tail hlast hk => ?_, fun tail hlast =>
      ⟨fun hnone hsettled => ?_, fun i k others hfirst hk => ?_⟩⟩, fun hlast => ?_, fun hlast htarget => ?_⟩
  · exact hover (Part.acts_endTurn (hqs.trans hlast) (hturn.trans ht)) (by decide)
      (Part.turnOver_sched.trans Part.withSched_sched)
  · have hsends := Part.beaconStep_sends ((congrArg LoopControl.state hctl).trans hstate) (hmarked.trans hmark)
      ((congrArg LoopControl.rollRequest hctl).trans hrequest)
    rw [hcfg, hnow] at hsends
    refine hfinal (Part.acts_last (hqs.trans hlast) rfl SchedOp.noConfusion hsends) (by decide)
      (Part.settled_atTransfer (Part.atTransfer_nil (congrArg Engine.sched (Part.eng_modEng ..)))
        (Engine.rollcallDue_of_request _ ?_))
    rw [Part.eng_modEng]
    exact (congrArg LoopControl.rollRequest hctl).trans hrequest
  · refine hover (Part.acts_last (hqs.trans hlast) rfl SchedOp.noConfusion (Part.beaconStep_skips ?_)) (by decide)
      (congrArg Engine.sched (Part.eng_modEng ..))
    rw [hctl, hmarked]
    exact hgiven
  · have hacts : Part.Acts l 1 (q.withSched l (.judge i :: tail)) (Part.judgeEntry l i (q.withSched l tail)) :=
      Part.Acts.step (Part.waitsAt_act rfl SchedOp.noConfusion) rfl (Part.Acts.refl l _)
    rw [← hrest hlast] at hacts
    exact hfinal hacts (by decide) hsettled
  · have hacts := Part.acts_settle (tail := tail) (l := l) (hfailed ho) hk
    rw [← hrest hlast] at hacts
    exact hfinal hacts (by decide) Part.settled_settleOps
  · have hacts := Part.acts_settleAll_nil (o := o) (tail := tail) (hholders.trans hnone)
    rw [← hrest hlast] at hacts
    exact hfinal hacts (by decide) hsettled
  · have hacts := Part.acts_settleAll (tail := tail) (hfailed ho) (hholders.trans hfirst) hk
    rw [← hrest hlast] at hacts
    exact hfinal hacts (by decide) Part.settled_settleOps
  · obtain ⟨last, hlast, hwhich⟩ : ∃ last, rest = [last] ∧
        (last = .enterOff ∨ (last = .enterTarget ∧ (q.eng l).ctl.drainTarget = some .off)) := by
      rcases hlast with hlast | ⟨hlast, htarget⟩
      · exact ⟨_, hlast, .inl rfl⟩
      · exact ⟨_, hlast, .inr ⟨rfl, (congrArg LoopControl.drainTarget hctl).trans htarget⟩⟩
    have hacts := Part.acts_toOff hwhich
    rw [← hrest hlast] at hacts
    exact hfinal hacts (by decide) Part.settled_toOff
  · have hacts := Part.acts_toQuiet ((congrArg LoopControl.drainTarget hctl).trans htarget)
    rw [← hrest hlast, hnow] at hacts
    exact hfinal hacts (by decide) Part.settled_toQuiet

end Sys2Proof.Machine
end

