-- ==== Sys2Proof/Proofs/CutTransfers.lean ====
section
/-!
Transfers whose end goes nowhere (R164, R166), completed records (R35), and the part-half writes of R120.
-/
namespace Sys2Proof.Machine

open Sys2Proof

/-! ### The end of a transfer -/

/-- The end of the transfer `t`, the host's writes `ws` made before it, leads to the part `q`. -/
def Transfer.Answers (t : Transfer) (dt : Nat) (ws : List (Word × Byte)) (s : State) (q : Part) : Prop :=
  exec (.transferComplete dt ws) s = .next (State.become { s with mem := t.memoryAfter ws s.mem } q)

section
variable {dt : Nat} {ws : List (Word × Byte)} {l : LoopId} {t : Transfer} {s : State} {q : Part}

theorem exec_transferComplete_none (ht : s.part.port.inFlight = none) :
    exec (.transferComplete dt ws) s =
      .next (State.become { s with mem := Memory.hostWrites s.mem ws } (s.part.tick dt)) := by
  have hmem : commandMemory (.transferComplete dt ws) s = Memory.hostWrites s.mem ws := by
    unfold commandMemory
    rw [ht]
  have hwork : commandWork (.transferComplete dt ws) s (s.part.tick dt) = s.part.tick dt := by
    unfold commandWork
    rw [ht]
  rw [exec_eq, hmem, State.become]
  exact congrArg (fun w : Part => Host.Outcome.next
    { s with part := w.arbitrate, mem := Memory.hostWrites s.mem ws }) hwork

variable (ht : s.part.port.inFlight = some t)
include ht

theorem Transfer.answers_of_complete
    (hq : (s.part.tick dt).completeTransfer t (t.dataAfter ws s.mem) = q) : t.Answers dt ws s q := by
  have hmem : commandMemory (.transferComplete dt ws) s = t.memoryAfter ws s.mem := by
    unfold commandMemory
    rw [ht]
    exact Transfer.apply_eq_memoryAfter ..
  have hwork : commandWork (.transferComplete dt ws) s (s.part.tick dt) = q := by
    unfold commandWork
    rw [ht]
    exact hq
  rw [Transfer.Answers, exec_eq, hmem, State.become]
  exact congrArg (fun w : Part => Host.Outcome.next { s with part := w.arbitrate, mem := t.memoryAfter ws s.mem }) hwork

/-- Nothing follows the end of a transfer whose procedure has been given up, nor of any in reset. -/
theorem Transfer.answers_free_of_orphan (h : t.orphan = true ∨ (s.part.tick dt).resetHeld = true) :
    t.Answers dt ws s (s.part.tick dt).freePort := by
  refine Transfer.answers_of_complete ht ?_
  unfold Part.completeTransfer
  split_ifs with hlive hheld
  · refine if_pos (h.resolve_right fun hheld => ?_)
    exact Bool.false_ne_true (((Part.live_iff _).mp hlive).1.symm.trans hheld)
  · rfl
  · unfold Part.doneCut
    rw [h.resolve_right hheld]
    rfl

/-- During a soft reset the end of a DONE write alone is acted on. -/
theorem Transfer.answers_free_of_reset (hlive : (s.part.tick dt).live = false)
    (h : t.urgent = true ∨ (∃ x, t.requester = .catcher x) ∨
      (t.requester = .sched l ∧ ∀ i k flip y rest, ((s.part.tick dt).eng l).sched ≠ .writeDone i k flip y :: rest)) :
    t.Answers dt ws s (s.part.tick dt).freePort := by
  refine Transfer.answers_of_complete ht ?_
  rw [Part.completeTransfer, if_neg (by rw [hlive]; exact Bool.false_ne_true)]
  refine ite_eq_left_iff.mpr fun _ => ?_
  unfold Part.doneCut
  rcases h with hurgent | ⟨x, hrequester⟩ | ⟨hrequester, hdone⟩
  · rw [hurgent, Bool.or_true]
  · rw [hrequester]
    cases t.orphan || t.urgent <;> rfl
  · rw [hrequester]
    cases t.orphan || t.urgent with
    | true => rfl
    | false =>
      dsimp only
      rw [Part.freePort_eng]
      split
      · rename_i i k flip y rest hs
        exact absurd hs (hdone i k flip y rest)
      · rfl

/-- A DONE write that a soft reset found in progress still changes its context. -/
theorem Transfer.answers_done_of_reset {i : StationIx} {k : RecordIx} {flip : SeqFlip} {y : AfterRecord}
    {rest : List SchedOp} (hheld : (s.part.tick dt).resetHeld = false) (hresetting : (s.part.tick dt).resetting = true)
    (horphan : t.orphan = false) (hurgent : t.urgent = false) (hrequester : t.requester = .sched l)
    (hs : ((s.part.tick dt).eng l).sched = .writeDone i k flip y :: rest) :
    t.Answers dt ws s ((((s.part.tick dt).freePort).modCtx i (Context.complete k flip y)).withSched l rest) := by
  have hlive : ¬ (s.part.tick dt).live = true := by
    rw [Part.live_iff, hresetting]
    exact fun h => Bool.false_ne_true h.2.symm
  have hs' : (((s.part.tick dt).freePort).eng l).sched = .writeDone i k flip y :: rest := by
    rw [Part.freePort_eng]
    exact hs
  refine Transfer.answers_of_complete ht ?_
  rw [Part.completeTransfer, if_neg hlive, hheld, if_neg Bool.false_ne_true, Part.doneCut, horphan, hurgent, hrequester]
  show (match (((s.part.tick dt).freePort).eng l).sched with
    | .writeDone i k flip after :: _ => _
    | _ => _) = _
  rw [hs']
  dsimp only
  rw [Part.popSched_eq hs', Part.withSched, Part.modCtx_modEng, Part.withSched]

end

/-! ### A completed record (R35, R47, R50, R52, R90) -/

/-- What the completion of record `k` makes of the context of its station, as the statements have it. -/
def Context.doneWith (k : RecordIx) (flip : SeqFlip) (y : AfterRecord) (c : Context) : Context :=
  let d := { c with
    parked := some k, inHand := none, copy := none, phase := .none
    completed := c.completed + 1
    txSeq := if flip = .tx then !c.txSeq else c.txSeq
    rxSeq := if flip = .rx then !c.rxSeq else c.rxSeq }
  match y with
  | .ready => { d with state := .ready }
  | .silent => { d with state := .silent }
  | .absent => { d with state := .absent }
  | .halted r =>
    if c.state = .halted then d
    else { d with state := .halted, reason := r, latchedRelease := c.fresh.releaseCount
                  failures := 0 }
  | .disabled => { d with state := .disabled, reason := .none, parked := none }
  | .rejected => { d with state := .rejected, reason := .field, parked := none }

theorem Context.flip_eq (flip : SeqFlip) (c : Context) :
    c.flip flip = { c with txSeq := if flip = .tx then !c.txSeq else c.txSeq
                           rxSeq := if flip = .rx then !c.rxSeq else c.rxSeq } := by
  cases flip <;> rfl

theorem Context.complete_eq (k : RecordIx) (flip : SeqFlip) (y : AfterRecord) (c : Context) :
    Context.complete k flip y c = c.doneWith k flip y := by
  unfold Context.complete Context.doneWith
  rw [Context.flip_eq]
  cases y <;> rfl

/-! ### The part-half writes of R120 -/

theorem Part.modEng_withCause {l : LoopId} {p : Part} (f : Engine → Engine) (w : Word) :
    Part.modEng l f { p with cause := w } = { p.modEng l f with cause := w } := by
  cases l <;> rfl

section
variable {dt : Nat} {ws : List (Word × Byte)} {l : LoopId} {t : Transfer} {s : State} {op act : SchedOp}
  {rest : List SchedOp} {p : Part}

/-- What is left of such writes begins with a part-half write. -/
theorem Part.runUrgent_stops (h : rest = [] ∨ rest.head? = some .writeLoopHalf) (p : Part) :
    Part.runUrgent l rest p = p.modEng l fun e => { e with urgent := rest } := by
  cases rest with
  | nil => rfl
  | cons op rest =>
    obtain rfl : op = .writeLoopHalf := Option.some.inj (h.resolve_left (List.cons_ne_nil _ _))
    rfl

theorem Part.runUrgent_act (ht : act.transfers = false) (h : rest = [] ∨ rest.head? = some .writeLoopHalf) :
    Part.runUrgent l (act :: rest) p = (Part.act l act p).modEng l fun e => { e with urgent := rest } := by
  rw [← Part.runUrgent_stops h]
  refine if_neg ?_
  rw [Part.schedAction_isSome, ht]
  exact Bool.false_ne_true

variable (hlive : (s.part.tick dt).live = true) (ht : s.part.port.inFlight = some t) (horphan : t.orphan = false)
  (hrequester : t.requester = .sched l) (hurgent : t.urgent = true) (hsettled : (s.part.tick dt).settled l = true)
include hlive ht horphan hrequester hurgent hsettled

/-- The acts after such a write leave the rest of the loop alone. -/
theorem Transfer.answers_urgent {q : Part} (hs : ((s.part.tick dt).eng l).urgent = op :: rest)
    (hrun : Part.runUrgent l rest (s.part.tick dt).freePort = q) {left : List SchedOp}
    (heng : q.eng l = { (s.part.tick dt).eng l with urgent := left }) : t.Answers dt ws s q := by
  refine Transfer.answers_of_complete ht ?_
  rw [Part.completeTransfer, if_pos hlive, Part.transferDone, horphan, if_neg Bool.false_ne_true, hrequester]
  show Part.proceed l (Part.schedTransferDone l t.urgent _ _) = q
  rw [Part.schedTransferDone, hurgent, if_pos rfl, Part.freePort_eng, hs, List.drop_succ_cons, List.drop_zero, hrun]
  refine Part.proceed_of_settled l q (Part.settled_kept hsettled ?_ ?_ ?_)
  · rw [heng]
  · rw [heng]
    exact id
  · rw [heng]
    exact id

variable (hrest : rest = [] ∨ rest.head? = some .writeLoopHalf)
include hrest

/-- The part once a cause has been raised after such a write. -/
theorem Transfer.answers_urgent_raise {c : Cause} (hact : Part.act l act (s.part.tick dt).freePort = ((s.part.tick dt).freePort).raiseCause l c)
    (hact' : act.transfers = false) (hs : ((s.part.tick dt).eng l).urgent = op :: act :: rest) :
    t.Answers dt ws s
      { ((s.part.tick dt).freePort).modEng l fun e => { e with urgent := rest } with
        cause := (s.part.tick dt).cause ||| causeBit l c } := by
  refine Transfer.answers_urgent hlive ht horphan hrequester hurgent hsettled hs ?_ (left := rest) ?_
  · have hresetting : ((s.part.tick dt).freePort).resetting = false := by
      rw [Part.freePort_resetting]
      exact ((Part.live_iff _).mp hlive).2
    rw [Part.runUrgent_act hact' hrest, hact, Part.raiseCause_of_not_resetting hresetting, Part.modEng_withCause]
    rfl
  · rw [Part.eng_withCause, Part.eng_modEng, Part.freePort_eng]

/-- The part where nothing is raised after such a write. -/
theorem Transfer.answers_urgent_none (hs : ((s.part.tick dt).eng l).urgent = op :: rest) :
    t.Answers dt ws s (((s.part.tick dt).freePort).modEng l fun e => { e with urgent := rest }) := by
  refine Transfer.answers_urgent hlive ht horphan hrequester hurgent hsettled hs (Part.runUrgent_stops hrest _)
    (left := rest) ?_
  rw [Part.eng_modEng, Part.freePort_eng]

/-- The part where the act after such a write raises nothing. -/
theorem Transfer.answers_urgent_skip (hact : Part.act l act (s.part.tick dt).freePort = (s.part.tick dt).freePort)
    (hact' : act.transfers = false) (hs : ((s.part.tick dt).eng l).urgent = op :: act :: rest) :
    t.Answers dt ws s (((s.part.tick dt).freePort).modEng l fun e => { e with urgent := rest }) := by
  refine Transfer.answers_urgent hlive ht horphan hrequester hurgent hsettled hs ?_ (left := rest) ?_
  · rw [Part.runUrgent_act hact' hrest, hact]
  · rw [Part.eng_modEng, Part.freePort_eng]

end

end Sys2Proof.Machine
end

