-- ==== Sys2Proof/Proofs/Transfers.lean ====
section
/-!
What the end of a transfer of a procedure leads to (R33, R34, R35, R87, R139, R164).
-/
namespace Sys2Proof.Machine

open Sys2Proof

/-! ### Acts that raise causes -/

section
variable {l : LoopId} {p : Part}

theorem Part.goesThrough_raises (cs : List Cause) (acts : List SchedOp) (p : Part) :
    Part.goesThrough l (cs.map .raise ++ acts) p =
      Part.goesThrough l acts { p with cause := cs.foldl (fun x c => x ||| causeBit l c) p.cause } := by
  induction cs generalizing p with
  | nil => rfl
  | cons c cs ih => exact ih _

theorem Part.turnOver_withCause (turn : Turn) (w : Word) :
    Part.turnOver l turn { p with cause := w } = { p.turnOver l turn with cause := w } := by
  cases l <;> rfl

/-- The part once REFUSED has been raised for a RETIME that was refused, the work of the procedure being `rest`. -/
def Part.refusedRaised (l : LoopId) (rest : List SchedOp) (w : Word) (p : Part) : Part :=
  { p.modEng l fun e => { e with cyc := { e.cyc with retimeRefused := false }, sched := rest } with
    cause := w ||| (if (p.eng l).cyc.retimeRefused then causeBit l .refused else 0) }

theorem Part.refusedRaised_eq (rest : List SchedOp) (w : Word) :
    p.refusedRaised l rest w =
      Part.modEng l (fun e => { e with cyc := { e.cyc with retimeRefused := false }, sched := rest })
        { p with cause := if (p.eng l).cyc.retimeRefused then w ||| causeBit l .refused else w } := by
  have hzero : w ||| (0 : Word) = w := BitVec.or_zero
  rw [Part.modEng_withCause, Part.refusedRaised]
  by_cases hrefused : (p.eng l).cyc.retimeRefused = true
  · rw [if_pos hrefused, if_pos hrefused]
  · rw [if_neg hrefused, if_neg hrefused, hzero]

theorem Part.goesThrough_refused {rest : List SchedOp} (w : Word) :
    Part.goesThrough l [.raiseRetimeRefused] { p.withSched l rest with cause := w } =
      some (p.refusedRaised l rest w) := by
  have heng : (({ p.withSched l rest with cause := w } : Part).eng l).cyc.retimeRefused = (p.eng l).cyc.retimeRefused := by
    rw [Part.eng_withCause, Part.withSched_eng]
  rw [Part.goesThrough, heng, Part.refusedRaised]
  by_cases hrefused : (p.eng l).cyc.retimeRefused = true
  · rw [if_pos hrefused, if_pos hrefused]
    cases l <;> rfl
  · have hsame : p.withSched l rest =
        p.modEng l fun e => { e with cyc := { e.cyc with retimeRefused := false }, sched := rest } := by
      refine Part.modEng_congr l _ _ p ?_
      rw [← Bool.eq_false_of_not_eq_true hrefused]
    have hzero : w ||| (0 : Word) = w := BitVec.or_zero
    rw [if_neg hrefused, if_neg hrefused, hzero, hsame]
    rfl


/-- A write of a part half leads to nothing of its own. -/
def SchedOp.halfWrite (op : SchedOp) : Prop := op = .writeLoopHalf ∨ ∃ i, op = .writeStationHalf i

theorem Part.goesOn_halfWrite {op : SchedOp} (h : op.halfWrite) (data : List Byte) (acts rest : List SchedOp) :
    p.goesOn l op data acts rest = Part.goesThrough l acts ((p.freePort).withSched l rest) := by
  rcases h with rfl | ⟨i, rfl⟩
  · rfl
  · rfl

end

/-! ### The end of a transfer of a procedure -/

section
variable {dt : Nat} {ws : List (Word × Byte)} {l : LoopId} {t : Transfer} {s : State} {op : SchedOp}
  {rest : List SchedOp} {q r : Part} {n : Nat}

/-- What stands for the end of a transfer in progress of the procedure of loop `l`. -/
structure Transfer.Ends (t : Transfer) (dt : Nat) (l : LoopId) (s : State) : Prop where
  live : (s.part.tick dt).live = true
  inFlight : s.part.port.inFlight = some t
  orphan : t.orphan = false
  requester : t.requester = .sched l
  urgent : t.urgent = false

variable (h : t.Ends dt l s)
include h

theorem Transfer.Ends.answers (hs : ((s.part.tick dt).eng l).sched = op :: rest)
    (hdone : Part.schedDone l op (t.dataAfter ws s.mem) (((s.part.tick dt).freePort).withSched l rest) = r)
    (hacts : Part.Acts l n r q) (hn : n ≤ 200) (hq : q.settled l = true) : t.Answers dt ws s q :=
  exec_of_transfer h.live h.inFlight h.orphan h.requester h.urgent hs (hdone ▸ hacts.proceed hn hq)

theorem Transfer.Ends.answers_idle (hs : ((s.part.tick dt).eng l).sched = op :: rest)
    (hdone : Part.schedDone l op (t.dataAfter ws s.mem) (((s.part.tick dt).freePort).withSched l rest) = r)
    (hacts : Part.Acts l n r q) (hn : n ≤ 200) (hq : (q.eng l).sched = []) : t.Answers dt ws s (q.workOver l) :=
  exec_of_transfer h.live h.inFlight h.orphan h.requester h.urgent hs (hdone ▸ hacts.proceed_idle hn hq)

/-- The write of a part half, with one cause after it. -/
theorem Transfer.Ends.answers_raise {c : Cause} (hop : op.halfWrite)
    (hs : ((s.part.tick dt).eng l).sched = op :: .raise c :: rest)
    (hsettled : (((s.part.tick dt).freePort).withSched l rest).settled l = true) :
    t.Answers dt ws s
      { ((s.part.tick dt).freePort).withSched l rest with cause := (s.part.tick dt).cause ||| causeBit l c } := by
  have hgoes : (s.part.tick dt).goesOn l op (t.dataAfter ws s.mem) [.raise c] rest =
      some { ((s.part.tick dt).freePort).withSched l rest with cause := (s.part.tick dt).cause ||| causeBit l c } := by
    rw [Part.goesOn_halfWrite hop]
    show some _ = _
    rw [Part.withSched_cause]
    rfl
  obtain ⟨-, hanswer⟩ := exec_of_goesOn h.live h.inFlight h.orphan h.requester h.urgent hs (Nat.le_of_ble_eq_true rfl) hgoes
  exact (hanswer 0 _ (Part.Acts.refl l _) (by decide)).1 (Part.settled_same hsettled (Part.eng_withCause ..))

/-- The end of a turn after its last write and the causes. -/
theorem Transfer.Ends.answers_turnEnd {i : StationIx} {cs : List Cause} {turn : Turn}
    (hs : ((s.part.tick dt).eng l).sched = .writeStationHalf i :: cs.map .raise ++ [.endTurn]) (hcs : cs.length ≤ 3)
    (hturn : ((s.part.tick dt).eng l).cyc.turn = some turn) :
    t.Answers dt ws s (Part.workOver l
      { Part.turnOver l turn (((s.part.tick dt).freePort).withSched l []) with
        cause := cs.foldl (fun x c => x ||| causeBit l c) (s.part.tick dt).cause }) := by
  have hgoes : (s.part.tick dt).goesOn l (.writeStationHalf i) (t.dataAfter ws s.mem) (cs.map .raise) [.endTurn] =
      some { ((s.part.tick dt).freePort).withSched l [.endTurn] with
        cause := cs.foldl (fun x c => x ||| causeBit l c) (s.part.tick dt).cause } := by
    have hraises := Part.goesThrough_raises (l := l) cs [] (((s.part.tick dt).freePort).withSched l [.endTurn])
    rw [List.append_nil] at hraises
    rw [Part.goesOn_halfWrite (.inr ⟨i, rfl⟩), hraises, Part.withSched_cause]
    rfl
  obtain ⟨-, hanswer⟩ := exec_of_goesOn h.live h.inFlight h.orphan h.requester h.urgent hs
    (by rw [List.length_map]; omega) hgoes
  have hacts := Part.acts_endTurn (turn := turn) (l := l) (p := { ((s.part.tick dt).freePort).withSched l [.endTurn] with
        cause := cs.foldl (fun x c => x ||| causeBit l c) (s.part.tick dt).cause })
    (by rw [Part.eng_withCause, Part.withSched_sched])
    (by rw [Part.eng_withCause, Part.withSched_eng, Part.freePort_eng]; exact hturn)
  have hanswer := (hanswer 1 _ hacts (by decide)).2 (Part.turnOver_sched.trans Part.withSched_sched)
  rw [← Part.withSched_withCause, Part.withSched_withSched, Part.turnOver_withCause] at hanswer
  exact hanswer

/-- A part-half write with REFUSED after it, and at most one cause before that. -/
theorem Transfer.Ends.answers_refused {c : Option Cause}
    (hs : ((s.part.tick dt).eng l).sched = .writeLoopHalf :: c.toList.map .raise ++ [.raiseRetimeRefused])
    (hsettled : (((s.part.tick dt).freePort).withSched l []).settled l = true) :
    t.Answers dt ws s (((s.part.tick dt).freePort).refusedRaised l []
      (c.toList.foldl (fun x c => x ||| causeBit l c) (s.part.tick dt).cause)) := by
  have hgoes : (s.part.tick dt).goesOn l .writeLoopHalf (t.dataAfter ws s.mem)
      (c.toList.map .raise ++ [.raiseRetimeRefused]) [] =
        some (((s.part.tick dt).freePort).refusedRaised l []
          (c.toList.foldl (fun x c => x ||| causeBit l c) (s.part.tick dt).cause)) := by
    rw [Part.goesOn_halfWrite (.inl rfl), Part.goesThrough_raises, Part.withSched_cause, Part.goesThrough_refused]
    rfl
  have hlength : (c.toList.map SchedOp.raise ++ [SchedOp.raiseRetimeRefused]).length ≤ 100 := by
    cases c <;> exact Nat.le_of_ble_eq_true rfl
  obtain ⟨⟨-, -, scan, refused, resets, heng⟩, hanswer⟩ :=
    exec_of_goesOn h.live h.inFlight h.orphan h.requester h.urgent (by rw [hs]; simp) hlength hgoes
  refine (hanswer 0 _ (Part.Acts.refl l _) (by decide)).1 (Part.settled_kept hsettled ?_ ?_ ?_)
  · rw [heng, Part.withSched_sched]
  · rw [heng, Part.withSched_eng, Part.freePort_eng]
    exact id
  · rw [heng, Part.withSched_eng, Part.freePort_eng]
    exact id

/-- The work of a boundary before its beacon. -/
theorem Transfer.Ends.goesOn_beacon
    (hs : ((s.part.tick dt).eng l).sched = [.writeLoopHalf, .raiseRetimeRefused, .mark, .beaconStep]) :
    Part.GoesOnTo l [.beaconStep] (s.part.tick dt)
        (((s.part.tick dt).freePort).refusedRaised l [.beaconStep] (s.part.tick dt).cause) ∧
      ∀ n r, Part.Acts l n (((s.part.tick dt).freePort).refusedRaised l [.beaconStep] (s.part.tick dt).cause) r → n ≤ 100 →
        (r.settled l = true → t.Answers dt ws s r) ∧ ((r.eng l).sched = [] → t.Answers dt ws s (r.workOver l)) := by
  have hgoes : (s.part.tick dt).goesOn l .writeLoopHalf (t.dataAfter ws s.mem) [.raiseRetimeRefused, .mark] [.beaconStep] =
      some (((s.part.tick dt).freePort).refusedRaised l [.beaconStep] (s.part.tick dt).cause) := by
    rw [Part.goesOn_halfWrite (.inl rfl)]
    have hrefused := Part.goesThrough_refused (l := l) (rest := [.beaconStep]) (p := (s.part.tick dt).freePort)
      (s.part.tick dt).cause
    have hcause : (((s.part.tick dt).freePort).withSched l [.beaconStep]).cause = (s.part.tick dt).cause :=
      Part.withSched_cause ..
    rw [← hcause] at hrefused ⊢
    exact hrefused
  exact exec_of_goesOn (op := .writeLoopHalf) (acts := [.raiseRetimeRefused, .mark]) h.live h.inFlight h.orphan
    h.requester h.urgent hs (Nat.le_of_ble_eq_true rfl) hgoes

/-- The beacon of the boundary is handed to the Framer. -/
theorem Transfer.Ends.answers_beacon
    (hs : ((s.part.tick dt).eng l).sched = [.writeLoopHalf, .raiseRetimeRefused, .mark, .beaconStep])
    (hstate : ((s.part.tick dt).eng l).ctl.state = .running) (hmarked : ((s.part.tick dt).eng l).cyc.marked = none)
    (hrequest : ((s.part.tick dt).eng l).ctl.rollRequest = false) :
    t.Answers dt ws s (Part.modEng l
      (fun e => Engine.transmits (s.part.tick dt).now
        (.beacon ((s.part.tick dt).eng l).rep.cycleNumber ((s.part.tick dt).eng l).cfg.identity e.cfg.announceWindow)
        { e with cyc := { e.cyc with phase := .beacon, retimeRefused := false }, sched := [] })
      { (s.part.tick dt).freePort with
        cause := if ((s.part.tick dt).eng l).cyc.retimeRefused then (s.part.tick dt).cause ||| causeBit l .refused
          else (s.part.tick dt).cause }) := by
  obtain ⟨⟨-, hnow, scan, refused, resets, heng⟩, hanswer⟩ := h.goesOn_beacon (ws := ws) hs
  have hsends := Part.beaconStep_sends (l := l)
    (p := ((s.part.tick dt).freePort).refusedRaised l [.beaconStep] (s.part.tick dt).cause)
    (by rw [heng]; exact hstate) (by rw [heng]; exact hmarked) (by rw [heng]; exact hrequest)
  have hacts := Part.acts_last (op := .beaconStep) (by rw [heng]) rfl SchedOp.noConfusion hsends
  have hrequest' := congrArg (fun e : Engine => e.ctl.rollRequest) heng
  have hframe := (hanswer 1 _ hacts (by decide)).1 (Part.settled_atTransfer
    (Part.atTransfer_nil (congrArg Engine.sched (Part.eng_modEng ..)))
    (Engine.rollcallDue_of_request _ (by rw [Part.eng_modEng]; exact hrequest'.trans hrequest)))
  rw [heng, hnow, Part.refusedRaised_eq, Part.modEng_modEng, Part.freePort_eng] at hframe
  exact hframe

/-- The cycle was given up, or a ROLLCALL waits: the beacon is not sent. -/
theorem Transfer.Ends.answers_noBeacon
    (hs : ((s.part.tick dt).eng l).sched = [.writeLoopHalf, .raiseRetimeRefused, .mark, .beaconStep])
    (hgiven : ((s.part.tick dt).eng l).ctl.state ≠ .running ∨ ((s.part.tick dt).eng l).cyc.marked.isSome = true ∨
      ((s.part.tick dt).eng l).ctl.rollRequest = true) :
    t.Answers dt ws s (Part.workOver l (Part.modEng l
      (fun e => { e with cyc := { e.cyc with phase := .beacon, retimeRefused := false }, sched := [] })
      { (s.part.tick dt).freePort with
        cause := if ((s.part.tick dt).eng l).cyc.retimeRefused then (s.part.tick dt).cause ||| causeBit l .refused
          else (s.part.tick dt).cause })) := by
  obtain ⟨⟨-, -, scan, refused, resets, heng⟩, hanswer⟩ := h.goesOn_beacon (ws := ws) hs
  have hskips := Part.beaconStep_skips (l := l)
    (p := ((s.part.tick dt).freePort).refusedRaised l [.beaconStep] (s.part.tick dt).cause) (by rw [heng]; exact hgiven)
  have hframe := (hanswer 1 _ (Part.acts_last (op := .beaconStep) (by rw [heng]) rfl SchedOp.noConfusion hskips)
    (by decide)).2 (congrArg Engine.sched (Part.eng_modEng ..))
  rw [Part.refusedRaised_eq, Part.modEng_modEng, Part.freePort_eng] at hframe
  exact hframe

/-- After the write of the last station of a roll-call comes RUNNING. -/
theorem Transfer.Ends.answers_rollEnd {acts : List SchedOp}
    (hs : ((s.part.tick dt).eng l).sched = op :: acts ++ [.rollEnd])
    (hstate : ((s.part.tick dt).eng l).ctl.state = .rollcall) (hacts : acts.length ≤ 100)
    (hq : (s.part.tick dt).goesOn l op (t.dataAfter ws s.mem) acts [.rollEnd] = some q) :
    t.Answers dt ws s (q.modEng l fun e =>
      { e with
        ctl := { e.ctl with state := .running, drainTarget := none, returnTarget := none }
        cyc := { e.cyc.stop with
          nextGrid := some ((s.part.tick dt).now + e.cfg.cycleLength.toNat * 2500), marked := some (s.part.tick dt).now
          late := e.lineTaken, firstOfGrid := true, turn := none }
        sched := [.writeLoopHalf, .raise .rolldone] }) := by
  obtain ⟨⟨-, hnow, scan, refused, resets, heng⟩, hanswer⟩ :=
    exec_of_goesOn h.live h.inFlight h.orphan h.requester h.urgent hs hacts hq
  refine (hanswer 1 _ (Part.acts_last (by rw [heng]) rfl SchedOp.noConfusion ?_) (by decide)).1
    (Part.settled_cons l _ .writeLoopHalf [.raise .rolldone] (congrArg Engine.sched (Part.eng_modEng ..)) rfl)
  show Part.rollEnd l _ = _
  rw [Part.rollEnd, if_pos (by rw [Part.withSched_eng, heng]; exact hstate), Part.enterRunning, Part.push,
    Part.withSched_now, hnow, Part.withSched, Part.modEng_modEng, Part.modEng_modEng]
  rfl

/-! ### Records that are completed and taken (R34, R35) -/

/-- The DONE write gives the station what its completion calls for, and the part half is written next. -/
theorem Transfer.Ends.answers_done {i : StationIx} {k : RecordIx} {flip : SeqFlip} {y : AfterRecord}
    (hs : ((s.part.tick dt).eng l).sched = .writeDone i k flip y :: .writeStationHalf i :: rest) :
    t.Answers dt ws s ((((s.part.tick dt).freePort).modCtx i (Context.complete k flip y)).withSched l
      (.writeStationHalf i :: rest)) :=
  h.answers hs (Part.modCtx_modEng ..) (Part.Acts.refl l _) (by decide) (Part.settled_withSched rfl)

/-- The ACTIVE write puts the record in hand. -/
theorem Transfer.Ends.answers_taken {i : StationIx} {k : RecordIx} {copy : RecordCopy}
    (hs : ((s.part.tick dt).eng l).sched = [.writeActive i k copy])
    (hwalk : ((s.part.tick dt).eng l).walkGoesOn = true) :
    t.Answers dt ws s ((((s.part.tick dt).freePort).modCtx i (Context.take k copy)).withSched l
      [.writeStationHalf i, .takeCheck i]) := by
  refine h.answers hs ?_ (Part.Acts.refl l _) (by decide) (Part.settled_withSched rfl)
  show Part.recordTaken l i k copy _ = _
  have hwalk' : ((((s.part.tick dt).freePort).withSched l []).eng l).walkGoesOn = true := by
    rw [Part.withSched_eng, Part.freePort_eng]
    exact hwalk
  rw [Part.recordTaken, if_pos hwalk', Part.pushFront, Part.withSched, Part.modCtx_modEng, Part.modEng_modEng]
  rfl

/-! ### The fetch of a record (R33, R34, R50) -/

/-- A turn that ends with what has been read. -/
theorem Transfer.Ends.answers_endTurn {turn : Turn} (hs : ((s.part.tick dt).eng l).sched = [op])
    (hturn : ((s.part.tick dt).eng l).cyc.turn = some turn)
    (hdone : Part.schedDone l op (t.dataAfter ws s.mem) (((s.part.tick dt).freePort).withSched l []) =
      ((s.part.tick dt).freePort).withSched l [.endTurn]) :
    t.Answers dt ws s ((Part.turnOver l turn (((s.part.tick dt).freePort).withSched l [])).workOver l) := by
  have hacts := Part.acts_endTurn (turn := turn) (p := ((s.part.tick dt).freePort).withSched l [.endTurn])
    Part.withSched_sched (by rw [Part.withSched_eng, Part.freePort_eng]; exact hturn)
  rw [Part.withSched_withSched] at hacts
  exact h.answers_idle hs hdone hacts (by decide) (Part.turnOver_sched.trans Part.withSched_sched)

section
variable {i : StationIx} {k : RecordIx} (hwalk : ((s.part.tick dt).eng l).walkGoesOn = true)
include hwalk

omit h in
theorem Part.walkGoesOn_free : ((((s.part.tick dt).freePort).withSched l rest).eng l).walkGoesOn = true := by
  rw [Part.withSched_eng, Part.freePort_eng]
  exact hwalk

/-- A link in the pool leads to its record. -/
theorem Transfer.Ends.answers_link {link : RecordIx} (hs : ((s.part.tick dt).eng l).sched = [.readLink i])
    (hlink : linkField (wordAt (t.dataAfter ws s.mem) 0) = link) (hend : link ≠ 1023)
    (hpool : link.toNat < ((s.part.tick dt).eng l).poolSize.toNat) :
    t.Answers dt ws s (((s.part.tick dt).freePort).withSched l [.readRecord i link]) := by
  refine h.answers hs ?_ (Part.Acts.refl l _) (by decide) (Part.settled_withSched rfl)
  show Part.followLink l i (linkField (wordAt (t.dataAfter ws s.mem) 0)) _ = _
  rw [hlink, Part.followLink_read Part.withSched_sched (Part.walkGoesOn_free hwalk) hend, Part.withSched_withSched]
  rw [Part.withSched_eng, Part.freePort_eng]
  exact hpool

/-- A link outside the pool halts the station. -/
theorem Transfer.Ends.answers_badLink {link : RecordIx} (hs : ((s.part.tick dt).eng l).sched = [.readLink i])
    (hlink : linkField (wordAt (t.dataAfter ws s.mem) 0) = link) (hend : link ≠ 1023)
    (hpool : ((s.part.tick dt).eng l).poolSize.toNat ≤ link.toNat) (hk : ((s.part.tick dt).ctx i).inHand = none) :
    t.Answers dt ws s (Part.modEng l (Engine.writing [.writeStationHalf i, .raise .halted, .endTurn])
      ((((s.part.tick dt).freePort).releaseRelay i).modCtx i (Context.halt .badLink))) := by
  refine h.answers hs ?_ (Part.Acts.refl l _) (by decide) (Part.settled_cons l _ (.writeStationHalf i)
    [.raise .halted, .endTurn] (congrArg Engine.sched (Part.eng_modEng ..)) rfl)
  show Part.followLink l i (linkField (wordAt (t.dataAfter ws s.mem) 0)) _ = _
  rw [hlink, Part.followLink_bad Part.withSched_sched (Part.walkGoesOn_free hwalk) ?_ hend, Part.withSched,
    Part.releaseRelay, Part.mapRelays_modEng, Part.modCtx_modEng, Part.modEng_modEng]
  · rfl
  · rw [Part.withSched_eng, Part.freePort_eng]
    exact hpool
  · rw [Part.withSched, Part.modEng_ctx, Part.freePort_ctx]
    exact hk

/-- The end of the chain ends the turn. -/
theorem Transfer.Ends.answers_linkEnd {turn : Turn} (hs : ((s.part.tick dt).eng l).sched = [.readLink i])
    (hlink : linkField (wordAt (t.dataAfter ws s.mem) 0) = 1023)
    (hturn : ((s.part.tick dt).eng l).cyc.turn = some turn) :
    t.Answers dt ws s ((Part.turnOver l turn (((s.part.tick dt).freePort).withSched l [])).workOver l) := by
  refine h.answers_endTurn hs hturn ?_
  show Part.followLink l i (linkField (wordAt (t.dataAfter ws s.mem) 0)) _ = _
  rw [hlink, Part.followLink_end Part.withSched_sched (Part.walkGoesOn_free hwalk), Part.withSched_withSched]

/-- A POSTED record is taken. -/
theorem Transfer.Ends.answers_posted (hs : ((s.part.tick dt).eng l).sched = [.readRecord i k])
    (hposted : byteAt (t.dataAfter ws s.mem) 0 = 1) :
    t.Answers dt ws s (((s.part.tick dt).freePort).withSched l
      [.writeActive i k (RecordCopy.decode (t.dataAfter ws s.mem))]) := by
  refine h.answers hs ?_ (Part.Acts.refl l _) (by decide) (Part.settled_withSched rfl)
  show Part.seeRecord l i k (t.dataAfter ws s.mem) _ = _
  rw [Part.seeRecord, Part.walkGoesOn_free hwalk, if_neg (by decide), if_pos hposted,
    Part.pushFront_of_idle Part.withSched_sched, Part.withSched_withSched]

/-- Any other record ends the turn. -/
theorem Transfer.Ends.answers_notPosted {turn : Turn} (hs : ((s.part.tick dt).eng l).sched = [.readRecord i k])
    (hposted : byteAt (t.dataAfter ws s.mem) 0 ≠ 1) (hturn : ((s.part.tick dt).eng l).cyc.turn = some turn) :
    t.Answers dt ws s ((Part.turnOver l turn (((s.part.tick dt).freePort).withSched l [])).workOver l) := by
  refine h.answers_endTurn hs hturn ?_
  show Part.seeRecord l i k (t.dataAfter ws s.mem) _ = _
  rw [Part.seeRecord, Part.walkGoesOn_free hwalk, if_neg (by decide), if_neg hposted,
    Part.pushFront_of_idle Part.withSched_sched, Part.withSched_withSched]

end

/-! ### The check of the copy (R34, R91) -/

section
variable {i : StationIx} {k : RecordIx} {copy : RecordCopy}
  (hs : ((s.part.tick dt).eng l).sched = [.writeStationHalf i, .takeCheck i])
  (hcopy : ((s.part.tick dt).ctx i).copy = some copy)
include hs hcopy

omit h hs hcopy in
theorem RecordCopy.bad_iff (r : RecordCopy) (c : Context) : r.bad c.relayed = true ↔
    (r.kind ≠ 1 ∧ r.kind ≠ 2) ∨ (r.kind = 1 ∧ 8 < r.requestLength.toNat) ∨
      (r.kind = 2 ∧ (r.requestLength.toNat = 0 ∨ 96 < r.requestLength.toNat)) ∨
        (c.binding.coupler ≠ 0xFF ∧ 93 < r.requestLength.toNat) := by
  rw [← Context.relayed_iff, RecordCopy.bad]
  simp only [Bool.or_eq_true, Bool.and_eq_true, bne_iff_ne, beq_iff_eq, decide_eq_true_eq, or_assoc]

omit h hs in
theorem Part.takeCheck_eq :
    Part.act l (.takeCheck i) (((s.part.tick dt).freePort).withSched l []) =
      if copy.bad ((s.part.tick dt).ctx i).relayed then
        Part.modEng l (Engine.writing (Part.completionOf ((s.part.tick dt).freePort) i .badRecord [] .none .ready
          ++ [.endTurn])) (s.part.tick dt).freePort
      else ((s.part.tick dt).freePort).withSched l [.fitTest i] := by
  have hctx : (((s.part.tick dt).freePort).withSched l []).ctx i = (s.part.tick dt).ctx i := by
    rw [Part.withSched, Part.modEng_ctx, Part.freePort_ctx]
  have hops : Part.completionOf (((s.part.tick dt).freePort).withSched l []) i .badRecord [] .none .ready =
      Part.completionOf ((s.part.tick dt).freePort) i .badRecord [] .none .ready := by
    unfold Part.completionOf
    rw [hctx, Part.freePort_ctx]
  show Part.takeCheck l i _ = _
  rw [Part.takeCheck, hctx, hcopy]
  dsimp only
  refine if_congr Iff.rfl ?_ ?_
  · rw [hops, Part.pushFront_turnWrites Part.withSched_sched, Part.withSched, Part.modEng_modEng]
    rfl
  · rw [Part.pushFront_of_idle Part.withSched_sched, Part.withSched_withSched]

/-- A bad record is completed BAD_RECORD at once. -/
theorem Transfer.Ends.answers_badRecord (hk : ((s.part.tick dt).ctx i).inHand = some k)
    (hbad : copy.bad ((s.part.tick dt).ctx i).relayed = true) :
    t.Answers dt ws s (Part.modEng l (Engine.writing
      [.writeResult i k .badRecord 0, .writeDone i k .none .ready, .writeStationHalf i, .raise .exfault, .endTurn])
        (s.part.tick dt).freePort) := by
  have hcheck := Part.takeCheck_eq (l := l) hcopy
  rw [if_pos hbad, Part.completionOf_inHand (k := k) (by rw [Part.freePort_ctx]; exact hk),
    completionOps_failed (by decide)] at hcheck
  exact h.answers hs rfl (Part.acts_last Part.withSched_sched rfl SchedOp.noConfusion
    ((congrArg (Part.act l _) (Part.withSched_withSched ..)).trans hcheck)) (by decide)
    (Part.settled_cons l _ (.writeResult i k .badRecord 0) _ (congrArg Engine.sched (Part.eng_modEng ..)) rfl)

/-- A good record comes to its fit test. -/
theorem Transfer.Ends.answers_fitTest (hbad : copy.bad ((s.part.tick dt).ctx i).relayed = false)
    (hsettled : ((((s.part.tick dt).freePort).withSched l []).fitTest l i).settled l = true) :
    t.Answers dt ws s ((((s.part.tick dt).freePort).withSched l []).fitTest l i) := by
  have hcheck := Part.takeCheck_eq (l := l) hcopy
  rw [if_neg (by rw [hbad]; exact Bool.false_ne_true)] at hcheck
  have hacts : Part.Acts l 2 (((s.part.tick dt).freePort).withSched l [.takeCheck i])
      ((((s.part.tick dt).freePort).withSched l []).fitTest l i) :=
    Part.Acts.step (Part.waitsAt_act rfl SchedOp.noConfusion) hcheck
      (Part.Acts.step (Part.waitsAt_act rfl SchedOp.noConfusion) rfl (Part.Acts.refl l _))
  exact h.answers hs rfl hacts (by decide) hsettled

end

end

end Sys2Proof.Machine
end

