-- ==== Sys2Proof/Proofs/FollowOns.lean ====
section
/-!
The follow-on PUT after a READY (R64 step 5, R87), the reads of a scan, and the ends of transfers together (R164).
-/
namespace Sys2Proof.Machine

open Sys2Proof

/-! ### The follow-on PUT -/

section
variable {l : LoopId} {i : StationIx} {turn : Turn} {p : Part}

theorem Part.followOnPut_over (h : (p.eng l).mayAttempt = false) :
    p.followOnPut l i = p.pushFront l [.endTurn] := by
  rw [Part.followOnPut]
  refine if_pos ?_
  rw [h]
  rfl

variable (hmay : (p.eng l).mayAttempt = true) (hturn : (p.eng l).cyc.turn = some turn)
include hmay hturn

theorem Part.followOnPut_fits (hfits : p.now + p.estimate l .put i ≤ (p.eng l).windowEnd turn.periodic) :
    p.followOnPut l i = p.startAttempt l .put i := by
  have hperiodic : (p.eng l).periodicTurn = turn.periodic := by
    rw [Engine.periodicTurn, hturn]
  rw [Part.followOnPut, hmay, hperiodic, (Part.fits_iff ..).mpr hfits]
  rfl

theorem Part.followOnPut_late (hlate : (p.eng l).windowEnd turn.periodic < p.now + p.estimate l .put i) :
    p.followOnPut l i = if turn.periodic then p.pushFront l [.endTurn] else p.doesNotFit l i false := by
  have hperiodic : (p.eng l).periodicTurn = turn.periodic := by
    rw [Engine.periodicTurn, hturn]
  have hfits : p.fits l .put i turn.periodic = false := by
    rw [← Bool.not_eq_true, Part.fits_iff]
    omega
  rw [Part.followOnPut, hmay, hperiodic, hfits]
  rfl

end

section
variable {dt : Nat} {ws : List (Word × Byte)} {l : LoopId} {t : Transfer} {s : State} {i : StationIx} {turn : Turn}

/-- The follow-on PUT is judged on the part as the write leaves it. -/
theorem Part.acts_followOn (p : Part) :
    Part.Acts l 1 (p.withSched l [.followOn i]) (Part.followOnPut l i (p.withSched l [])) :=
  Part.acts_last Part.withSched_sched rfl SchedOp.noConfusion
    (congrArg (Part.followOnPut l i) (Part.withSched_withSched ..))

theorem Part.requestFrame_put {p : Part} {r : RecordCopy} (hcopy : (p.ctx i).copy = some r) :
    p.requestFrame .put i =
      { purpose := .request, destination := (p.ctx i).binding.lineAddress
        control := AttemptKind.control .put (p.ctx i).txSeq (p.ctx i).syncPending, payload := r.request } := by
  rw [Part.requestFrame, controlByte_eq, ← Context.request_of hcopy]
  rfl

variable (h : t.Ends dt l s) (hs : ((s.part.tick dt).eng l).sched = [.writeStationHalf i, .followOn i])
include h hs

/-- The follow-on PUT is not made, and the turn ends. -/
theorem Transfer.Ends.answers_followOn_over {q : Part}
    (hput : Part.followOnPut l i (((s.part.tick dt).freePort).withSched l []) = q.withSched l [.endTurn])
    (hq : (q.eng l).cyc.turn = some turn) :
    t.Answers dt ws s ((Part.turnOver l turn (q.withSched l [])).workOver l) := by
  have hend := Part.acts_endTurn (turn := turn) (p := q.withSched l [.endTurn]) Part.withSched_sched
    (by rw [Part.withSched_eng]; exact hq)
  rw [Part.withSched_withSched] at hend
  exact h.answers_idle hs rfl ((Part.acts_followOn _).trans (hput ▸ hend)) (by decide)
    (Part.turnOver_sched.trans Part.withSched_sched)

variable (hturn : ((s.part.tick dt).eng l).cyc.turn = some turn)
include hturn

/-- The loop may attempt nothing more, and the turn ends with no fit test. -/
theorem Transfer.Ends.answers_followOn_barred (hmay : ((s.part.tick dt).eng l).mayAttempt = false) :
    t.Answers dt ws s ((Part.turnOver l turn (((s.part.tick dt).freePort).withSched l [])).workOver l) := by
  refine h.answers_followOn_over hs ?_ (by rw [Part.freePort_eng]; exact hturn)
  rw [Part.followOnPut_over, Part.pushFront_of_idle Part.withSched_sched, Part.withSched_withSched]
  rw [Part.withSched_eng, Part.freePort_eng]
  exact hmay

variable (hstate : ((s.part.tick dt).eng l).ctl.state = .running) (hmarked : ((s.part.tick dt).eng l).cyc.marked = none)
  (hrequest : ((s.part.tick dt).eng l).ctl.rollRequest = false)
include hstate hmarked hrequest

omit h hs in
theorem Part.free_followOn :
    (((s.part.tick dt).freePort).withSched l []).eng l = { (s.part.tick dt).eng l with sched := [] } ∧
      ((((s.part.tick dt).freePort).withSched l []).eng l).mayAttempt = true ∧
      ((((s.part.tick dt).freePort).withSched l []).eng l).cyc.turn = some turn ∧
      ((((s.part.tick dt).freePort).withSched l []).ctx i) = (s.part.tick dt).ctx i ∧
      (((s.part.tick dt).freePort).withSched l []).estimate l .put i = (s.part.tick dt).estimate l .put i := by
  have heng : (((s.part.tick dt).freePort).withSched l []).eng l = { (s.part.tick dt).eng l with sched := [] } := by
    rw [Part.withSched_eng, Part.freePort_eng]
  have hctx : ((((s.part.tick dt).freePort).withSched l []).ctx i) = (s.part.tick dt).ctx i := by
    rw [Part.withSched, Part.modEng_ctx, Part.freePort_ctx]
  refine ⟨heng, ?_, ?_, hctx, ?_⟩
  · rw [heng]
    exact Engine.mayAttempt_of hstate hmarked hrequest
  · rw [heng]
    exact hturn
  · rw [Part.estimate, hctx, heng, Part.estimate]
    rfl

/-- A follow-on PUT that fits is sent. -/
theorem Transfer.Ends.answers_followOn_fits {r : RecordCopy} (hcopy : ((s.part.tick dt).ctx i).copy = some r)
    (hfits : (s.part.tick dt).now + (s.part.tick dt).estimate l .put i
      ≤ ((s.part.tick dt).eng l).windowEnd turn.periodic) :
    t.Answers dt ws s (Part.modEng l
      (fun e => Engine.attempts (s.part.tick dt).now
        { purpose := .request, destination := ((s.part.tick dt).ctx i).binding.lineAddress
          control := AttemptKind.control .put ((s.part.tick dt).ctx i).txSeq ((s.part.tick dt).ctx i).syncPending
          payload := r.request }
        ((s.part.tick dt).attemptRecord .put i) turn { e with sched := [] })
      (s.part.tick dt).freePort) := by
  obtain ⟨heng, hmay, hturn', hctx, hestimate⟩ := Part.free_followOn (i := i) hturn hstate hmarked hrequest
  have hput : Part.followOnPut l i (((s.part.tick dt).freePort).withSched l []) = _ :=
    Part.followOnPut_fits hmay hturn' (by rw [hestimate, heng, Part.withSched_now, Part.freePort_now]; exact hfits)
  rw [Part.startAttempt_of_turn (by rw [heng]; exact hstate) hturn', Part.requestFrame_put (hctx ▸ hcopy),
    Part.withSched_now, Part.freePort_now, hctx] at hput
  have hattempt : (((s.part.tick dt).freePort).withSched l []).attemptRecord .put i =
      (s.part.tick dt).attemptRecord .put i := by
    unfold Part.attemptRecord Part.addressee
    dsimp only
    rw [hctx]
  rw [hattempt] at hput
  have hanswer := h.answers (ws := ws) hs rfl (hput ▸ Part.acts_followOn _) (by decide)
    (Part.settled_attempts Part.withSched_sched)
  rw [Part.withSched, Part.modEng_modEng] at hanswer
  exact hanswer

/-- One that does not fit ends the turn, and closes the aperiodic window. -/
theorem Transfer.Ends.answers_followOn_late
    (hlate : ((s.part.tick dt).eng l).windowEnd turn.periodic
      < (s.part.tick dt).now + (s.part.tick dt).estimate l .put i) :
    t.Answers dt ws s (Part.turnOver l { turn with closing := turn.closing || !turn.periodic }
      (((s.part.tick dt).freePort).withSched l [])) := by
  obtain ⟨heng, hmay, hturn', hctx, hestimate⟩ := Part.free_followOn (i := i) hturn hstate hmarked hrequest
  have hput : Part.followOnPut l i (((s.part.tick dt).freePort).withSched l []) = _ :=
    Part.followOnPut_late hmay hturn' (by rw [hestimate, heng, Part.withSched_now, Part.freePort_now]; exact hlate)
  have hover : ∀ turn' : Turn, Part.workOver l (Part.turnOver l turn' (((s.part.tick dt).freePort).withSched l [])) =
      Part.turnOver l turn' (((s.part.tick dt).freePort).withSched l []) := fun turn' =>
    Part.workOver_of_request (by rw [Part.turnOver_ctl, heng]; exact hrequest)
  rcases Bool.eq_false_or_eq_true turn.periodic with hperiodic | hperiodic
  · have hclosing : (turn.closing || !turn.periodic) = turn.closing := by rw [hperiodic, Bool.not_true, Bool.or_false]
    rw [hperiodic, if_pos rfl, Part.pushFront_of_idle Part.withSched_sched, Part.withSched_withSched] at hput
    have hanswer := h.answers_followOn_over (ws := ws) hs hput (by rw [Part.freePort_eng]; exact hturn)
    rw [hover] at hanswer
    rw [hclosing]
    exact hanswer
  · have hclosing : (turn.closing || !turn.periodic) = true := by rw [hperiodic, Bool.not_false, Bool.or_true]
    rw [hperiodic, if_neg Bool.false_ne_true, Part.doesNotFit, if_neg Bool.false_ne_true,
      Part.pushFront_of_idle (by rw [Part.eng_modEng]; exact Part.withSched_sched)] at hput
    have hanswer := h.answers_followOn_over (ws := ws) (turn := { turn with closing := true }) hs hput
      (by rw [Part.eng_modEng]; dsimp only; rw [hturn']; rfl)
    rw [Part.withSched_self (by rw [Part.eng_modEng]; exact Part.withSched_sched), Part.turnOver_modTurn, hover] at hanswer
    rw [hclosing]
    exact hanswer

end

end Sys2Proof.Machine
end

