-- ==== Sys2Proof/Proofs/TransferEnds.lean ====
section
/-!
The ends of transfers together (R164).
-/
namespace Sys2Proof.Machine

open Sys2Proof

section
variable {dt : Nat} {ws : List (Word × Byte)} {l : LoopId} {t : Transfer} {s : State} {rest : List SchedOp}
  (h : t.Ends dt l s)
include h

/-! ### The reads of a scan (R41, R43) -/

/-- The part once the host half of station `j` has been read. -/
def Part.scanned (l : LoopId) (j : StationIx) (data : List Byte) (p : Part) : Part :=
  p.modEng l fun e => { e with scan := e.scan.set j (StationHost.decode data) }

/-- The host half that has been read is kept. -/
theorem Transfer.Ends.answers_scanned {j : StationIx} {op : SchedOp}
    (hs : ((s.part.tick dt).eng l).sched = .readStationHost j :: op :: rest) (hop : op.transfers = true) :
    t.Answers dt ws s ((Part.scanned l j (t.dataAfter ws s.mem) (s.part.tick dt).freePort).withSched l (op :: rest)) :=
  h.answers hs (Part.modEng_withSched (f := fun e => { e with scan := e.scan.set j _ }) rfl) (Part.Acts.refl l _)
    (by decide) (Part.settled_withSched hop)

/-- A judgement after a read or a write. -/
theorem Transfer.Ends.answers_judged {op : SchedOp} {i : StationIx} {q : Part}
    (hs : ((s.part.tick dt).eng l).sched = op :: .judge i :: rest)
    (hdone : Part.schedDone l op (t.dataAfter ws s.mem) (((s.part.tick dt).freePort).withSched l (.judge i :: rest)) =
      q.withSched l (.judge i :: rest))
    (hsettled : ((q.withSched l rest).judgeEntry l i).settled l = true) :
    t.Answers dt ws s ((q.withSched l rest).judgeEntry l i) :=
  h.answers hs hdone (Part.Acts.step (Part.waitsAt_act rfl SchedOp.noConfusion) rfl (Part.Acts.refl l _)) (by decide)
    hsettled

end

/-- Settles O42: by what the transfer that has ended was for, and by what its procedure has next. -/
theorem transferComplete : Obligations.TransferComplete := by
  intro dt ws l t s p e m after data free answers procedure completed
  refine ⟨fun ht => exec_transferComplete_none ht, fun ht => ⟨fun horphan => Transfer.answers_free_of_orphan ht horphan,
    fun hlive hcut => Transfer.answers_free_of_reset ht hlive hcut, ?done, ?raise, ?raiseCatch, ?urgent, ?procedure⟩⟩
  case done =>
    intro i k flip y rest hheld hresetting horphan hurgent hrequester hs
    have hanswer := Transfer.answers_done_of_reset (ws := ws) ht hheld hresetting horphan hurgent hrequester hs
    rw [funext (Context.complete_eq k flip y)] at hanswer
    exact hanswer
  case raise =>
    intro hlive horphan hrequester hurgent op c rest hs hrest hsettled
    exact Transfer.answers_urgent_raise hlive ht horphan hrequester hurgent hsettled hrest rfl rfl hs
  case raiseCatch =>
    intro hlive horphan hrequester hurgent op rest hs hrest hsettled
    have hact : Part.act l .raiseCatch p.freePort =
        if e.cfg.catchNotify then p.freePort.raiseCause l .catch_ else p.freePort := by
      show (if (p.freePort.eng l).cfg.catchNotify then _ else _) = _
      rw [Part.freePort_eng]
    by_cases hnotify : e.cfg.catchNotify = true
    · rw [if_pos hnotify] at hact ⊢
      exact Transfer.answers_urgent_raise hlive ht horphan hrequester hurgent hsettled hrest hact rfl hs
    · rw [if_neg hnotify] at hact ⊢
      have hsame : ({ free.modEng l fun e => { e with urgent := rest } with cause := p.cause } : Part) =
          free.modEng l fun e => { e with urgent := rest } := by cases l <;> rfl
      rw [hsame]
      exact Transfer.answers_urgent_skip hlive ht horphan hrequester hurgent hsettled hrest hact rfl hs
  case urgent =>
    intro hlive horphan hrequester hurgent op rest hs hrest hsettled
    exact Transfer.answers_urgent_none hlive ht horphan hrequester hurgent hsettled hrest hs
  case procedure =>
    intro hlive horphan hrequester hurgent
    have h : t.Ends dt l s := ⟨hlive, ht, horphan, hrequester, hurgent⟩
    refine ⟨fun op c rest hs hop hsettled => h.answers_raise hop hs hsettled, ?written, ?scanned, ?judged,
      fun op acts q hs hstate hacts hq => h.answers_rollEnd hs hstate hacts hq, ?taken, ?checked, ?link, ?record,
      ?followOn, fun i cs turn hs hcs hturn => h.answers_turnEnd hs hcs hturn,
      fun c hs hsettled => h.answers_refused hs hsettled,
      fun hs hstate hmarked hrequest => h.answers_beacon hs hstate hmarked hrequest,
      fun hs hgiven => h.answers_noBeacon hs hgiven⟩
    case written =>
      intro i k flip y rest hs
      have hanswer := h.answers_done (ws := ws) hs
      rw [funext (Context.complete_eq k flip y)] at hanswer
      exact hanswer
    case scanned =>
      intro j op rest hs read
      refine ⟨fun hop => h.answers_scanned hs (by rwa [Part.schedAction_isSome] at hop), ?_⟩
      rintro i rfl judged hsettled
      have hjudged : judged = ((Part.scanned l j data free).withSched l rest).judgeEntry l i :=
        congrArg (Part.judgeEntry l i) (Part.withSched_withSched ..)
      rw [hjudged] at hsettled ⊢
      exact h.answers_judged hs (Part.modEng_withSched (f := fun e => { e with scan := e.scan.set j _ }) rfl) hsettled
    case judged =>
      intro j i rest hs judged hsettled
      exact h.answers_judged hs rfl hsettled
    case taken =>
      intro i k copy hs hstate
      exact h.answers_taken hs (Engine.walkGoesOn_iff.mpr hstate)
    case checked =>
      intro i k r hs hcopy hk n bad tested
      refine ⟨fun hbad => h.answers_badRecord hs hcopy hk ((RecordCopy.bad_iff ..).mpr hbad), fun hgood hsettled => ?_⟩
      refine h.answers_fitTest hs hcopy ?_ hsettled
      rw [← Bool.not_eq_true, RecordCopy.bad_iff]
      exact hgood
    case link =>
      intro i hs hstate link
      have hwalk := Engine.walkGoesOn_iff.mpr hstate
      refine ⟨fun hend hpool => h.answers_link hwalk hs rfl hend hpool, fun hend hpool hk hhalted => ?_,
        fun turn hend hturn => h.answers_linkEnd hwalk hs hend hturn⟩
      have hanswer := h.answers_badLink (ws := ws) hwalk hs rfl hend hpool hk
      have hhalt : (p.freePort.releaseRelay i).modCtx i (Context.halt .badLink) = (free.releaseRelay i).modCtx i fun c =>
          { c with state := .halted, reason := .badLink, latchedRelease := c.fresh.releaseCount, failures := 0 } := by
        refine Part.modCtx_congr i _ _ _ (if_neg ?_)
        rw [Part.releaseRelay, Part.mapRelays_ctx, Part.freePort_ctx]
        exact hhalted
      rw [hhalt] at hanswer
      exact hanswer
    case record =>
      intro i k hs hstate
      have hwalk := Engine.walkGoesOn_iff.mpr hstate
      exact ⟨fun hposted => h.answers_posted hwalk hs hposted,
        fun turn hposted hturn => h.answers_notPosted hwalk hs hposted hturn⟩
    case followOn =>
      intro i r turn hs hdirect hcopy hturn c estimate announceStart windowEnd
      have hestimate : p.estimate l .put i = estimate := by
        rw [Part.estimate]
        show (7 + (p.ctx i).request.length + 7 + 0 + 4) * e.charTime + _ = _
        rw [Context.request_of hcopy]
        rfl
      refine ⟨fun hstate hmarked hrequest hfits => ?_, fun hstate hmarked hrequest hlate =>
        h.answers_followOn_late hs hturn hstate hmarked hrequest (hestimate.symm ▸ hlate),
        fun hbarred => h.answers_followOn_barred hs hturn (Engine.mayAttempt_eq_false hbarred)⟩
      exact h.answers_followOn_fits hs hturn hstate hmarked hrequest hcopy (hestimate.symm ▸ hfits)

end Sys2Proof.Machine
end

