-- ==== Sys2Proof/Proofs/Judgements.lean ====
section
/-!
The judgement of a station entry (R40 to R52).
-/
namespace Sys2Proof.Machine

open Sys2Proof

/-! ### Validation (R44, R45) -/

/-- The fields of a host half are valid with the binding `b` (R44). -/
def Part.stationValid (p : Part) (l : LoopId) (i : StationIx) (h : StationHost) (b : Binding) : Prop :=
  1 ≤ b.lineAddress.toNat ∧ b.lineAddress.toNat ≤ 239 ∧ h.intervalCode.toNat ≤ 7 ∧
  (b.cls = .aperiodic ∨ h.phase.toNat < 2 ^ h.intervalCode.toNat) ∧ 1 ≤ h.replyTimeout.toNat ∧
  1 ≤ h.retryLimit.toNat ∧ h.retryLimit.toNat ≤ 7 ∧
  (b.coupler = 0xFF → h.maxReply.toNat ≤ 96) ∧
  (b.coupler ≠ 0xFF → h.maxReply.toNat ≤ 93 ∧ h.collectDelay.toNat ≤ 15 ∧ 1 ≤ h.patience.toNat ∧
    ∃ j : StationIx, b.coupler.toNat = j.val ∧ j ≠ i ∧ (p.ctx j).admittedTo l = true ∧
      (p.ctx j).binding.coupler = 0xFF)

/-- Another admitted station has the route and the address of the binding `b` (R45). -/
def Part.stationClash (p : Part) (l : LoopId) (i : StationIx) (b : Binding) : Prop :=
  ∃ j : StationIx, j ≠ i ∧ (p.ctx j).admittedTo l = true ∧
    (p.ctx j).binding.coupler = b.coupler ∧ (p.ctx j).binding.lineAddress = b.lineAddress

theorem inRange_iff {lo hi : Nat} {x : Byte} : inRange lo hi x = true ↔ lo ≤ x.toNat ∧ x.toNat ≤ hi := by
  rw [inRange, Bool.and_eq_true, decide_eq_true_eq, decide_eq_true_eq]

section
variable {p : Part} {l : LoopId} {i : StationIx} {h : StationHost} {b : Binding}

theorem Part.couplerServes_iff {coupler : Byte} : p.couplerServes l i coupler = true ↔
    ∃ j : StationIx, coupler.toNat = j.val ∧ j ≠ i ∧ (p.ctx j).admittedTo l = true ∧
      (p.ctx j).binding.coupler = 0xFF := by
  unfold Part.couplerServes
  constructor
  · intro hserves
    cases hj : couplerIndex coupler with
    | none =>
      rw [hj] at hserves
      exact absurd hserves Bool.false_ne_true
    | some j =>
      rw [hj] at hserves
      simp only [Bool.and_eq_true, bne_iff_ne, Binding.direct_iff] at hserves
      exact ⟨j, couplerIndex_eq_some_iff.mp hj, hserves.1.1, hserves.1.2, hserves.2⟩
  · rintro ⟨j, hj, hne, hadmitted, hdirect⟩
    rw [couplerIndex_of hj]
    simp only [Bool.and_eq_true, bne_iff_ne, Binding.direct_iff]
    exact ⟨⟨hne, hadmitted⟩, hdirect⟩

theorem Part.fieldsValid_iff : p.fieldsValid l i h b = true ↔ p.stationValid l i h b := by
  have hlt : ∀ x : Byte, x.toNat ≤ 255 := fun x => by have := x.isLt; omega
  unfold Part.fieldsValid Part.stationValid
  by_cases hdirect : b.coupler = 0xFF
  · have hd : b.direct = true := (Binding.direct_iff b).mpr hdirect
    simp only [hd, if_true, Bool.and_eq_true, inRange_iff, Bool.or_eq_true, beq_iff_eq, decide_eq_true_eq, hlt,
      Nat.zero_le, true_and, and_true, hdirect, true_implies, ne_eq, not_true_eq_false, false_implies, and_assoc]
  · have hd : ¬ b.direct = true := mt (Binding.direct_iff b).mp hdirect
    simp only [hd, if_false, Bool.and_eq_true, inRange_iff, Bool.or_eq_true, beq_iff_eq, decide_eq_true_eq, hlt,
      Nat.zero_le, true_and, and_true, hdirect, false_implies, ne_eq, not_false_eq_true, true_implies, and_assoc,
      Part.couplerServes_iff, Bool.false_eq_true]

theorem Part.clashes_iff : p.clashes l i b = true ↔ p.stationClash l i b := by
  unfold Part.clashes Part.stationClash
  rw [List.any_eq_true]
  simp only [Bool.and_eq_true, bne_iff_ne, beq_iff_eq, and_assoc]
  exact ⟨fun ⟨j, _, hj⟩ => ⟨j, hj⟩, fun ⟨j, hj⟩ => ⟨j, List.mem_finRange j, hj⟩⟩

theorem Part.rejectReason_none (hvalid : p.stationValid l i h h.binding) (hclash : ¬ p.stationClash l i h.binding) :
    p.rejectReason l i h = none := by
  rw [Part.rejectReason, Part.fieldsValid_iff.mpr hvalid, if_neg (by decide), if_neg (mt Part.clashes_iff.mp hclash)]

theorem Part.rejectReason_some {r : ReasonCode}
    (hr : (¬ p.stationValid l i h h.binding ∧ r = .field) ∨
      (p.stationValid l i h h.binding ∧ p.stationClash l i h.binding ∧ r = .duplicate)) :
    p.rejectReason l i h = some r := by
  unfold Part.rejectReason
  rcases hr with ⟨hvalid, rfl⟩ | ⟨hvalid, hclash, rfl⟩
  · rw [if_pos]
    rw [Bool.not_eq_true', ← Bool.not_eq_true, Part.fieldsValid_iff]
    exact hvalid
  · rw [Part.fieldsValid_iff.mpr hvalid, if_neg (by decide), if_pos (Part.clashes_iff.mpr hclash)]

end

/-! ### What a judgement leaves -/

/-- The part once entry `i` has been judged: `change` is what becomes of its context, and `ops` is put ahead of what is
left of the procedure. -/
def Part.judged (l : LoopId) (i : StationIx) (ops : List SchedOp) (change : Context → Context) (q : Part) : Part :=
  Part.modEng l
    (fun e => { e with resetSet := e.resetSet.filter fun j => j != i, sched := ops ++ e.sched })
    (q.modCtx i change)

/-- The part as a judgement finds it, its entry out of the resets that await their judgement. -/
def Part.judging (l : LoopId) (i : StationIx) (p : Part) : Part :=
  p.modEng l fun e => { e with resetSet := e.resetSet.filter fun j => j != i }

section
variable {p : Part} {l : LoopId} {i : StationIx} {h : StationHost} {b : Binding} {ops : List SchedOp}
  {change : Context → Context}

@[simp] theorem Part.judging_ctx (j : StationIx) : (p.judging l i).ctx j = p.ctx j := Part.modEng_ctx ..

theorem Part.judging_modCtx : (p.judging l i).modCtx i change = p.judged l i [] change := Part.modCtx_modEng ..

theorem Part.judging_self : p.judging l i = p.judged l i [] id := by
  rw [← Part.judging_modCtx]
  exact (Part.modCtx_self i _).symm

theorem Part.judging_pushFront : ((p.judging l i).modCtx i change).pushFront l ops = p.judged l i ops change := by
  rw [Part.judging, Part.modCtx_modEng, Part.pushFront, Part.modEng_modEng]
  rfl

theorem Part.judging_release :
    Part.pushFront l ops (((p.judging l i).modCtx i change).releaseRelay i) =
      (p.releaseRelay i).judged l i ops change := by
  rw [Part.judging, Part.modCtx_modEng, Part.releaseRelay, Part.mapRelays_modEng, Part.mapRelays_modCtx, Part.pushFront,
    Part.modEng_modEng]
  rfl

theorem Part.judging_release_modCtx {f : Context → Context} :
    Part.pushFront l ops ((((p.judging l i).modCtx i change).releaseRelay i).modCtx i f) =
      (p.releaseRelay i).judged l i ops fun c => f (change c) := by
  rw [Part.judging, Part.modCtx_modEng, Part.releaseRelay, Part.mapRelays_modEng, Part.mapRelays_modCtx,
    Part.modCtx_modEng, Part.modCtx_modCtx, Part.pushFront, Part.modEng_modEng]
  rfl

theorem Part.judging_rejectReason : (p.judging l i).rejectReason l i h = p.rejectReason l i h := by
  unfold Part.rejectReason Part.fieldsValid Part.couplerServes Part.clashes
  simp only [Part.judging_ctx]

theorem Part.judging_fieldsValid : (p.judging l i).fieldsValid l i h b = p.fieldsValid l i h b := by
  unfold Part.fieldsValid Part.couplerServes
  simp only [Part.judging_ctx]

/-- The settlement of the record in hand of a judged station. -/
theorem Part.judging_settle {k : RecordIx} {outcome : RecordOutcome} {y : AfterRecord} {follow : List SchedOp}
    (hk : (change (p.ctx i)).inHand = some k) (ho : outcome ≠ .ok) :
    ((p.judging l i).modCtx i change).settleRecord l i outcome y follow =
      (p.releaseRelay i).judged l i
        ([.writeResult i k outcome 0, .writeDone i k .none y, .writeStationHalf i, .raise .exfault] ++ follow) change := by
  have hk' : (((p.judging l i).modCtx i change).ctx i).inHand = some k := by
    rw [Part.ctx_modCtx, Part.judging_ctx]
    exact hk
  rw [Part.settleRecord, Part.completionOf_inHand hk', completionOps_failed ho]
  exact Part.judging_release

theorem Part.judging_id : (p.judging l i).modCtx i id = p.judging l i := Part.modCtx_self i _

/-! ### The judgements by themselves -/

theorem Part.admitStation_judging {q : Part} (hq : q = p.judging l i) :
    q.admitStation l i h =
      if h.halt then p.judged l i [.writeStationHalf i, .raise .halted] fun _ => (h.admitted l).halt .host
      else p.judged l i [.writeStationHalf i] fun _ => h.admitted l := by
  rw [hq, Part.admitStation, Part.judging_pushFront, Part.judging_pushFront]

theorem Part.judgeCandidate_judging_none (hr : p.rejectReason l i h = none) :
    (p.judging l i).judgeCandidate l i h = (p.judging l i).admitStation l i h := by
  rw [Part.judgeCandidate, Part.judging_rejectReason, hr]

theorem Part.judgeCandidate_judging_some {r : ReasonCode} (hr : p.rejectReason l i h = some r) :
    (p.judging l i).judgeCandidate l i h = p.judged l i [.writeStationHalf i, .raise .reject] fun _ =>
      { h.admitted l with state := .rejected, reason := r } := by
  rw [Part.judgeCandidate, Part.judging_rejectReason, hr]
  exact Part.judging_pushFront

theorem Part.reexamine_judging_none (hr : p.rejectReason l i h = none) :
    (p.judging l i).reexamine l i h = (p.judging l i).admitStation l i h := by
  rw [Part.reexamine, Part.judging_rejectReason, hr]

theorem Part.reexamine_judging_some {r : ReasonCode} (hr : p.rejectReason l i h = some r) :
    (p.judging l i).reexamine l i h =
      p.judged l i (if r = (p.ctx i).reason then [] else [.writeStationHalf i]) fun c =>
        { c with binding := h.binding, fresh := h.fresh, reason := r } := by
  rw [Part.reexamine, Part.judging_rejectReason, hr]
  dsimp only
  rw [Part.judging_pushFront, Part.judging_ctx, Part.judging_modCtx]
  split_ifs <;> rfl

/-- A station that is no longer enabled for the loop, or whose fields fail: with a record in hand and with none. -/
theorem Part.disableStation_judging_some {k : RecordIx} (hk : (p.ctx i).inHand = some k) :
    (p.judging l i).disableStation l i = (p.releaseRelay i).judged l i
      ([.writeResult i k .disabled 0, .writeDone i k .none .disabled, .writeStationHalf i, .raise .exfault]
        ++ [.disown i]) id := by
  rw [Part.disableStation, Part.judging_ctx, hk]
  dsimp only
  rw [← Part.judging_id, Part.judging_settle (by exact hk) (by decide)]

theorem Part.disableStation_judging_none (hk : (p.ctx i).inHand = none) :
    (p.judging l i).disableStation l i = (p.releaseRelay i).judged l i [.writeStationHalf i, .disown i] fun c =>
      { c with state := .disabled, reason := .none, phase := .none, parked := none } := by
  rw [Part.disableStation, Part.judging_ctx, hk]
  dsimp only
  rw [← Part.judging_id, Part.judging_release_modCtx]
  rfl

theorem Part.rejectStation_judging_some {k : RecordIx} (hk : (p.ctx i).inHand = some k) :
    (p.judging l i).rejectStation l i = (p.releaseRelay i).judged l i
      ([.writeResult i k .disabled 0, .writeDone i k .none .rejected, .writeStationHalf i, .raise .exfault]
        ++ [.raise .reject]) id := by
  rw [Part.rejectStation, Part.judging_ctx, hk]
  dsimp only
  rw [← Part.judging_id, Part.judging_settle (by exact hk) (by decide)]

theorem Part.rejectStation_judging_none (hk : (p.ctx i).inHand = none) :
    (p.judging l i).rejectStation l i = (p.releaseRelay i).judged l i [.writeStationHalf i, .raise .reject] fun c =>
      { c with state := .rejected, reason := .field, parked := none } := by
  rw [Part.rejectStation, Part.judging_ctx, hk]
  dsimp only
  rw [← Part.judging_id, Part.judging_release_modCtx]
  rfl

/-! ### A station that stays admitted (R48, R50, R51) -/

/-- The consecutive failures under the fresh retry limit (R48). -/
def StationHost.clipped (h : StationHost) (c : Context) : Byte :=
  if h.retryLimit.toNat ≤ c.failures.toNat then h.retryLimit - 1 else c.failures

/-- The context with its fresh fields and its failures clipped to `failures`. -/
def StationHost.refreshed (h : StationHost) (failures : Byte) (c : Context) : Context :=
  { c with fresh := h.fresh, failures := failures }

theorem StationHost.clip_eq (c : Context) :
    Context.clip h.retryLimit { c with fresh := h.fresh } = h.refreshed (h.clipped c) c := by
  unfold Context.clip StationHost.refreshed StationHost.clipped
  split_ifs <;> rfl

theorem Part.judging_refreshed :
    ((p.judging l i).modCtx i fun c => Context.clip h.retryLimit { c with fresh := h.fresh }) =
      (p.judging l i).modCtx i (h.refreshed (h.clipped (p.ctx i))) := by
  refine Part.modCtx_congr i _ _ _ ?_
  rw [Part.judging_ctx]
  exact StationHost.clip_eq _

theorem Part.judgeAdmitted_judging_invalid (hvalid : ¬ p.stationValid l i h (p.ctx i).binding) :
    (p.judging l i).judgeAdmitted l i h = (p.judging l i).rejectStation l i := by
  rw [Part.judgeAdmitted, if_pos]
  rw [Part.judging_fieldsValid, Part.judging_ctx, Bool.not_eq_true', ← Bool.not_eq_true, Part.fieldsValid_iff]
  exact hvalid

/-- The four ways a valid station takes its fresh fields. -/
theorem Part.judgeAdmitted_judging_valid (hvalid : p.stationValid l i h (p.ctx i).binding) :
    (p.judging l i).judgeAdmitted l i h =
      if (p.ctx i).state = .halted then
        if h.halt = false ∧ h.releaseCount ≠ (p.ctx i).latchedRelease then
          p.judged l i [.writeStationHalf i] fun c => (h.refreshed (h.clipped (p.ctx i)) c).release
        else p.judged l i [] (h.refreshed (h.clipped (p.ctx i)))
      else if h.halt = true then
        ((p.judging l i).modCtx i (h.refreshed (h.clipped (p.ctx i)))).haltStation l i .host
      else p.judged l i (if h.clipped (p.ctx i) = (p.ctx i).failures then [] else [.writeStationHalf i])
        (h.refreshed (h.clipped (p.ctx i))) := by
  rw [Part.judgeAdmitted, if_neg]
  · rw [Part.judging_refreshed, Part.judging_ctx]
    dsimp only
    simp only [Bool.and_eq_true, Bool.not_eq_true', bne_iff_ne, Part.modCtx_modCtx, Part.judging_pushFront,
      Part.ctx_modCtx, Part.judging_ctx,
      show (h.refreshed (h.clipped (p.ctx i)) (p.ctx i)).failures = h.clipped (p.ctx i) from rfl]
    split_ifs
    · rfl
    · exact Part.judging_modCtx
    · rfl
    · exact Part.judging_modCtx
    · rfl
  · rw [Part.judging_fieldsValid, Part.judging_ctx, Bool.not_eq_true', Bool.not_eq_false, Part.fieldsValid_iff]
    exact hvalid

theorem Part.haltStation_judging_some {k : RecordIx} (hk : (change (p.ctx i)).inHand = some k) :
    ((p.judging l i).modCtx i change).haltStation l i .host = (p.releaseRelay i).judged l i
      ([.writeResult i k .halted 0, .writeDone i k .none (.halted .host), .writeStationHalf i, .raise .exfault]
        ++ [.raise .halted]) change := by
  rw [Part.haltStation, Part.ctx_modCtx, Part.judging_ctx, hk]
  dsimp only
  rw [Part.judging_settle hk (by decide)]

theorem Part.haltStation_judging_none (hk : (change (p.ctx i)).inHand = none) :
    ((p.judging l i).modCtx i change).haltStation l i .host =
      (p.releaseRelay i).judged l i [.writeStationHalf i, .raise .halted] fun c => (change c).halt .host := by
  rw [Part.haltStation, Part.ctx_modCtx, Part.judging_ctx, hk]
  dsimp only
  rw [Part.judging_release_modCtx]

/-! ### The judgement by the owner of the station (R42) -/

theorem Part.judgeEntry_other (ho : (p.ctx i).owner = some (otherLoop l)) : p.judgeEntry l i = p.judged l i [] id := by
  have hne : otherLoop l ≠ l := by cases l <;> decide
  rw [Part.judgeEntry, ho]
  dsimp only
  rw [if_neg hne]
  exact Part.judging_self

theorem Part.judgeEntry_unowned (ho : (p.ctx i).owner = none) :
    p.judgeEntry l i =
      if (p.eng l).scan[i].enable = true ∧ (p.eng l).scan[i].loop = l then
        (p.judging l i).judgeCandidate l i (p.eng l).scan[i]
      else p.judged l i (if i ∈ (p.eng l).resetSet then [.writeStationHalf i] else []) id := by
  rw [Part.judgeEntry, ho]
  simp only [Bool.and_eq_true, beq_iff_eq, List.contains_iff_mem]
  refine if_congr Iff.rfl rfl ?_
  by_cases hreset : i ∈ (p.eng l).resetSet
  · rw [if_pos hreset, if_pos hreset, ← Part.judging_pushFront, Part.judging_id]
    rfl
  · rw [if_neg hreset, if_neg hreset]
    exact Part.judging_self

theorem Part.judgeEntry_owned (ho : (p.ctx i).owner = some l) :
    p.judgeEntry l i =
      if (p.eng l).scan[i].enable = true ∧ (p.eng l).scan[i].loop = l then
        if (p.ctx i).state = .rejected then (p.judging l i).reexamine l i (p.eng l).scan[i]
        else (p.judging l i).judgeAdmitted l i (p.eng l).scan[i]
      else (p.judging l i).disableStation l i := by
  rw [Part.judgeEntry, ho]
  dsimp only
  rw [if_pos rfl]
  have hmine : (!(p.eng l).scan[i].enable || (p.eng l).scan[i].loop != l) = true ↔
      ¬ ((p.eng l).scan[i].enable = true ∧ (p.eng l).scan[i].loop = l) := by
    rw [Bool.or_eq_true, Bool.not_eq_true', bne_iff_ne, not_and_or, Bool.not_eq_true]
  rw [if_congr hmine rfl rfl, ite_not]
  rfl

end

/-- Settles O44: the owner decides which judgement the entry gets; each judgement is one of the part's, on the part with
the entry taken out of the resets. -/
theorem rosterJudgements : Obligations.RosterJudgements := by
  unfold Obligations.RosterJudgements
  intro p l i h c admitted valid clash here fresh newcomer becomes admits settles mine
  have hvalid : ∀ b, valid b ↔ p.stationValid l i h b := fun b => by
    simp only [Part.stationValid, Context.admittedTo_iff]
    rfl
  have hclash : ∀ b, clash b ↔ p.stationClash l i b := fun b => by
    simp only [Part.stationClash, Context.admittedTo_iff]
    rfl
  simp only [hvalid, hclash]
  have hadmits : p.judgeEntry l i = (p.judging l i).admitStation l i h → admits := fun hq =>
    ⟨fun hhalt => (hq.trans (Part.admitStation_judging rfl)).trans (if_neg (by rw [hhalt]; decide)),
     fun hhalt => (hq.trans (Part.admitStation_judging rfl)).trans (if_pos hhalt)⟩
  refine ⟨Part.judgeEntry_other, fun ho => ?unowned, fun ho => ?owned⟩
  case unowned =>
    have hjudged := Part.judgeEntry_unowned (l := l) ho
    refine ⟨fun hmine => hjudged.trans (if_neg hmine), fun hmine hv hc => hadmits ?_, fun hmine hv => ?_,
      fun hmine hv hc => ?_⟩
    · exact (hjudged.trans (if_pos hmine)).trans (Part.judgeCandidate_judging_none (Part.rejectReason_none hv hc))
    · exact (hjudged.trans (if_pos hmine)).trans
        (Part.judgeCandidate_judging_some (Part.rejectReason_some (.inl ⟨hv, rfl⟩)))
    · exact (hjudged.trans (if_pos hmine)).trans
        (Part.judgeCandidate_judging_some (Part.rejectReason_some (.inr ⟨hv, hc, rfl⟩)))
  case owned =>
    have hjudged := Part.judgeEntry_owned (l := l) ho
    refine ⟨fun hmine => ⟨fun k hk => ?_, fun hk => ?_⟩, fun hmine hrejected => ?rejected,
      fun hmine hnot => ?admitted⟩
    · exact (hjudged.trans (if_neg hmine)).trans (Part.disableStation_judging_some hk)
    · exact (hjudged.trans (if_neg hmine)).trans (Part.disableStation_judging_none hk)
    case rejected =>
      have hagain := (hjudged.trans (if_pos hmine)).trans (if_pos hrejected)
      refine ⟨fun hv hc => hadmits ?_, fun r hr => ?_⟩
      · exact hagain.trans (Part.reexamine_judging_none (Part.rejectReason_none hv hc))
      · exact hagain.trans (Part.reexamine_judging_some (Part.rejectReason_some hr))
    case admitted =>
      have hstays := (hjudged.trans (if_pos hmine)).trans (if_neg hnot)
      refine ⟨fun hv => ?_, fun hv => ?_⟩
      · have hreject := hstays.trans (Part.judgeAdmitted_judging_invalid hv)
        exact ⟨fun k hk => hreject.trans (Part.rejectStation_judging_some hk),
          fun hk => hreject.trans (Part.rejectStation_judging_none hk)⟩
      · have hkept := hstays.trans (Part.judgeAdmitted_judging_valid hv)
        refine ⟨fun hhalted => ⟨fun hrelease => ?_, fun hrelease => ?_⟩,
          fun hhalted => ⟨fun hhalt => ?_, fun k hhalt hk => ?_, fun hhalt hk => ?_⟩⟩
        · exact (hkept.trans (if_pos hhalted)).trans (if_pos hrelease)
        · refine (hkept.trans (if_pos hhalted)).trans (if_neg fun hleave => ?_)
          exact hrelease.elim (fun hh => absurd (hleave.1.symm.trans hh) (by decide)) hleave.2
        · exact (hkept.trans (if_neg hhalted)).trans (if_neg (by rw [hhalt]; decide))
        · exact ((hkept.trans (if_neg hhalted)).trans (if_pos hhalt)).trans (Part.haltStation_judging_some hk)
        · refine ((hkept.trans (if_neg hhalted)).trans (if_pos hhalt)).trans
            ((Part.haltStation_judging_none hk).trans ?_)
          refine congrArg (Part.modEng l _) (Part.modCtx_congr i _ _ _ ?_)
          exact if_neg hhalted

end Sys2Proof.Machine
end

