-- ==== Sys2Proof/Proofs/Starts.lean ====
section
/-!
The steps of STARTING and of the entry to TEST (R126, R127, R151).
-/
namespace Sys2Proof.Machine

open Sys2Proof

/-! ### Validation (R126 step 2, R151 step 2) -/

section
variable {size : BitVec 16} {h : LoopHost}

theorem startError_pool (hpool : ¬ (1 ≤ size.toNat ∧ size.toNat ≤ 1023)) : startError size h = .pool := by
  rw [startError, if_pos]
  rw [Bool.or_eq_true, decide_eq_true_eq, decide_eq_true_eq]
  omega

/-- With the pool in its range the descriptor alone is judged. -/
theorem startError_of_pool (hpool : 1 ≤ size.toNat ∧ size.toNat ≤ 1023) :
    startError size h = if 3 < h.bitRate.toNat then .rate
      else if !timingFits h.bitRate h.cycleLength h.periodicBudget h.announceWindow then .timing else .none := by
  rw [startError, if_neg]
  rw [Bool.or_eq_true, decide_eq_true_eq, decide_eq_true_eq]
  omega

/-- The fields that a TEST entry validates, the bit rate apart. -/
def LoopHost.testFits (h : LoopHost) : Prop :=
  h.testMode.toNat ≤ 1 ∧ h.counterMode.toNat ≤ 1 ∧ 1 ≤ h.testLength.toNat ∧ h.testLength.toNat ≤ 96 ∧
  (h.testMode = 1 → 1 ≤ h.echoAddress.toNat ∧ h.echoAddress.toNat ≤ 239)

theorem testError_of_rate (hrate : h.bitRate.toNat ≤ 3) :
    (h.testFits → testError h = .none) ∧ (¬ h.testFits → testError h = .test) := by
  have hbad : (1 < h.testMode.toNat || 1 < h.counterMode.toNat || h.testLength.toNat < 1 || 96 < h.testLength.toNat ||
      (h.testMode == 1 && (h.echoAddress.toNat < 1 || 239 < h.echoAddress.toNat))) = true ↔ ¬ h.testFits := by
    simp only [LoopHost.testFits, Bool.or_eq_true, Bool.and_eq_true, decide_eq_true_eq, beq_iff_eq, not_and_or, not_le,
      Classical.not_imp, or_assoc]
  rw [testError, if_neg (by omega)]
  exact ⟨fun hfits => if_neg (mt hbad.mp (not_not_intro hfits)), fun hfits => if_pos (hbad.mpr hfits)⟩

end

/-! ### A start refused -/

section
variable {l : LoopId} {p : Part} {h : LoopHost}

/-- The part once the loop descriptor has been read for its entry. -/
def Part.hostRead (l : LoopId) (h : LoopHost) (p : Part) : Part := p.modEng l fun e => { e with hostBuf := h }

theorem Part.refuseStart_hostRead (err : StartError) :
    Part.refuseStart l err ((p.hostRead l h).withSched l []) =
      Part.offState l [.writeLoopHalf, .raise .refused]
        (p.modEng l fun e => { e with hostBuf := h, sched := [], rep := { e.rep with startError := err } }) := by
  rw [Part.refuseStart, Part.enterOff_eq, Part.withSched, Part.hostRead, Part.modEng_modEng, Part.modEng_modEng]

theorem Part.hostRead_withSched_eng :
    ((p.hostRead l h).withSched l []).eng l = { p.eng l with hostBuf := h, sched := [] } := by
  rw [Part.withSched_eng, Part.hostRead, Part.eng_modEng]

theorem Part.startValidate_refuses {err : StartError} (herr : startError (p.eng l).globalSize (p.eng l).hostBuf = err)
    (hne : err ≠ .none) : p.startValidate l = p.refuseStart l err := by
  unfold Part.startValidate
  dsimp only
  rw [herr]
  cases err with
  | none => exact absurd rfl hne
  | _ => rfl

theorem Part.testValidate_refuses {err : StartError} (herr : testError (p.eng l).hostBuf = err)
    (hne : err ≠ .none) : p.testValidate l = p.refuseStart l err := by
  unfold Part.testValidate
  dsimp only
  rw [herr]
  cases err with
  | none => exact absurd rfl hne
  | _ => rfl

/-! ### The latches and the resets of STARTING (R126 steps 3 and 4, R127) -/

/-- The scan and what follows it. -/
def scanSteps : List SchedOp := allStations.map .readStationHost ++ allStations.map .judge ++ [.mark, .startNext]

/-- The steps of STARTING after its validation. -/
def startSteps : List SchedOp :=
  [.awaitTransmitter, .startLatch, .mark, .startResets, .writeLoopHalf, .mark] ++ scanSteps

/-- What a STARTING from OFF resets of the stations and the couplers of the loop (R127). -/
def Part.stationsReset (l : LoopId) (p : Part) : Part :=
  { p with
    contexts := p.contexts.map fun c => if c.owner = some l then Context.reset else c
    relays := p.relays.map fun o => o.bind fun r => if r.loop = l then none else some r }

theorem Part.stationsReset_modEng (f : Engine → Engine) : (p.modEng l f).stationsReset l = (p.stationsReset l).modEng l f := by
  cases l <;> rfl

theorem Part.startResets_wake (hoff : (p.eng l).ctl.startFromOff = false) :
    p.startResets l = p.modEng l fun e => { e with mon := e.mon.clearRuns, resetSet := [] } := by
  rw [Part.startResets, if_neg (by rw [hoff]; exact Bool.false_ne_true)]

theorem Part.startResets_off (hoff : (p.eng l).ctl.startFromOff = true) (hport : p.port.inFlight = none) :
    p.startResets l = (p.stationsReset l).modEng l fun e =>
      { e with
        rep := { LoopReport.reset with startError := e.rep.startError }
        cyc := { e.cyc with firstCycle := true, pointer := 0 }
        trap := TrapSlot.reset, catcher := CatchUnit.reset, mon := e.mon.clearRuns
        resetSet := allStations.filter fun i => (p.ctx i).owner = some l } := by
  have horphan : ((p.mapOwned l fun _ => Context.reset).releaseLoopRelays l).orphan (.catcher l) = p.stationsReset l := by
    rw [Part.orphan, show ((p.mapOwned l fun _ => Context.reset).releaseLoopRelays l).port.inFlight = none from hport]
    rfl
  have howned : p.owned l = allStations.filter fun i => (p.ctx i).owner = some l := by
    unfold Part.owned
    exact congrArg (List.filter · allStations) (funext fun i => beq_eq_decide ..)
  rw [Part.startResets, if_pos hoff]
  dsimp only
  rw [horphan, howned]

/-- The resets do not look at the procedure. -/
theorem Part.startResets_withSched {ops : List SchedOp} (hport : p.port.inFlight = none) :
    (p.withSched l ops).startResets l = (p.startResets l).withSched l ops := by
  have heng : ((p.withSched l ops).eng l).ctl.startFromOff = (p.eng l).ctl.startFromOff := by rw [Part.withSched_eng]
  cases hoff : (p.eng l).ctl.startFromOff with
  | false =>
    rw [Part.startResets_wake (heng.trans hoff), Part.startResets_wake hoff, Part.modEng_withSched rfl]
  | true =>
    rw [Part.startResets_off (heng.trans hoff) (by rw [Part.withSched, Part.modEng_port]; exact hport),
      Part.startResets_off hoff hport, ← Part.modEng_withSched rfl, Part.withSched, Part.stationsReset_modEng]
    simp only [Part.modEng_ctx]
    rfl

/-- Once no keepalive is being sent, STARTING goes on up to the write of its part half. -/
theorem Part.acts_startSteps (hsending : (p.eng l).framer.sending = none) (hport : p.port.inFlight = none) :
    Part.Acts l 4 (p.withSched l startSteps)
      (((p.startLatch l).startResets l).withSched l (.writeLoopHalf :: .mark :: scanSteps)) := by
  have hwaits : p.waitsAt l .awaitTransmitter = false := by
    rw [Part.waitsAt_eq, hsending]
    rfl
  have hlatch : ∀ ops, Part.act l .startLatch (p.withSched l ops) = (p.startLatch l).withSched l ops := fun _ => by
    show Part.startLatch l _ = _
    rw [Part.startLatch, Part.modEng_withSched rfl, Part.startLatch]
  have hresets : ∀ ops, Part.act l .startResets ((p.startLatch l).withSched l ops) =
      ((p.startLatch l).startResets l).withSched l ops :=
    fun ops => Part.startResets_withSched (by rw [Part.startLatch, Part.modEng_port]; exact hport)
  exact Part.Acts.step hwaits rfl
    (Part.Acts.step (Part.waitsAt_act rfl SchedOp.noConfusion) (hlatch _)
      (Part.Acts.step (Part.waitsAt_act rfl SchedOp.noConfusion) rfl
        (Part.Acts.step (Part.waitsAt_act rfl SchedOp.noConfusion) (hresets _) (Part.Acts.refl l _))))

/-- The part once the loop descriptor `h` has passed the validation of STARTING. -/
def Part.startValidated (l : LoopId) (h : LoopHost) (p : Part) : Part :=
  p.modEng l fun e => { e with hostBuf := h, ctl := { e.ctl with validated := true } }

theorem Part.startValidate_passes (herr : startError (p.eng l).globalSize h = .none) :
    Part.startValidate l ((p.hostRead l h).withSched l []) = (p.startValidated l h).withSched l startSteps := by
  have hops : ([.awaitTransmitter, .startLatch, .mark, .startResets, .writeLoopHalf, .mark] ++ scanOps ++ [.startNext] :
      List SchedOp) = startSteps := by
    simp only [scanOps, startSteps, scanSteps, List.append_assoc, List.cons_append, List.nil_append]
  rw [Part.startValidate, Part.hostRead_withSched_eng]
  dsimp only
  rw [herr]
  dsimp only
  rw [hops, Part.pushFront, Part.withSched, Part.hostRead, Part.modEng_modEng, Part.modEng_modEng, Part.modEng_modEng,
    Part.startValidated, Part.withSched, Part.modEng_modEng]
  refine Part.modEng_congr l _ _ p ?_
  rw [List.append_nil]

theorem Part.startLatched_wake (hoff : (p.eng l).ctl.startFromOff = false) :
    (((p.startValidated l h).startLatch l).startResets l).withSched l (.writeLoopHalf :: .mark :: scanSteps) =
      p.modEng l fun e => { e.startLatched h with resetSet := [] } := by
  rw [Part.startResets_wake, Part.withSched, Part.startLatch, Part.startValidated, Part.modEng_modEng, Part.modEng_modEng,
    Part.modEng_modEng]
  · rfl
  · rw [Part.startLatch, Part.eng_modEng, Part.startValidated, Part.eng_modEng]
    exact hoff

theorem Part.startLatched_off (hoff : (p.eng l).ctl.startFromOff = true) (hport : p.port.inFlight = none) :
    (((p.startValidated l h).startLatch l).startResets l).withSched l (.writeLoopHalf :: .mark :: scanSteps) =
      (p.stationsReset l).modEng l fun e =>
        { e.startLatched h with
          rep := LoopReport.reset
          cyc := { e.cyc with firstCycle := true, pointer := 0 }
          trap := TrapSlot.reset, catcher := CatchUnit.reset
          resetSet := allStations.filter fun i => (p.ctx i).owner = some l } := by
  rw [Part.startResets_off, Part.withSched, Part.startLatch, Part.startValidated, Part.modEng_modEng,
    Part.stationsReset_modEng, Part.stationsReset_modEng, Part.modEng_modEng, Part.modEng_modEng, Part.modEng_modEng]
  · simp only [Part.modEng_ctx]
    rfl
  · rw [Part.startLatch, Part.eng_modEng, Part.startValidated, Part.eng_modEng]
    exact hoff
  · rw [Part.startLatch, Part.modEng_port, Part.startValidated, Part.modEng_port]
    exact hport

/-! ### The entry to TEST (R151) -/

/-- The part once the loop descriptor `h` has passed the validation of a TEST. -/
def Part.testLatched (l : LoopId) (h : LoopHost) (p : Part) : Part :=
  Part.modEng l
    (fun e =>
      { e with
        hostBuf := h
        cfg := { e.cfg with
          bitRate := h.bitRate, testLength := h.testLength, echoAddress := h.echoAddress
          testCount := h.testCount, testMode := h.testMode, counterMode := h.counterMode }
        ctl := { e.ctl with validated := true }
        framer := { e.framer with
          receiver := .discard
          activity := if h.testMode = 0 then none else e.framer.activity
          markSince := if h.testMode = 0 then p.now else e.framer.markSince }
        rep := { e.rep with startError := .none }
        xu := ExchangeUnit.idle
        sched := [.writeLoopHalf, .testFirst] })
    { p with testUnit :=
      { owner := p.testUnit.owner, status := .running, generator := BitVec.allOnes 15, copy := []
        sent := 0, intact := 0, lost := 0, mismatched := 0 } }

theorem Part.testValidate_passes (herr : testError h = .none) :
    Part.testValidate l ((p.hostRead l h).withSched l []) = p.testLatched l h := by
  rw [Part.testValidate, Part.hostRead_withSched_eng]
  dsimp only
  rw [herr]
  dsimp only
  simp only [Part.pushFront, Part.withSched, Part.hostRead, Part.modEng_testUnit, Part.modEng_testUnit_comm,
    Part.modEng_modEng, Part.testLatched]
  rw [Part.modEng_now]
  refine Part.modEng_congr l _ _ _ ?_
  simp only [beq_iff_eq, Framer.testPath, List.append_nil]
  rfl

/-- The first frame of a test is the one that its unit goes on with. -/
theorem Part.testFirst_eq (hstate : (p.eng l).ctl.state = .test) (hvalidated : (p.eng l).ctl.validated = true)
    (hsent : p.testUnit.sent = 0) (hmode : (p.eng l).cfg.testMode.toNat ≤ 1) :
    p.testFirst l = p.testGoesOn l p.testUnit := by
  have hone : (p.eng l).cfg.testMode = 1 ∨ (p.eng l).internalReturn = true := by
    rcases Nat.le_one_iff_eq_zero_or_eq_one.mp hmode with h | h
    · exact .inr ((Engine.internalReturn_iff _).mpr ⟨hstate, hvalidated, BitVec.eq_of_toNat_eq h⟩)
    · exact .inl (BitVec.eq_of_toNat_eq h)
  rw [← Part.testNext_eq hstate hone, Part.testNext]
  dsimp only
  rw [if_neg]
  · have heng : ({ p with testUnit := { p.testUnit with copy := [] } } : Part).eng l = p.eng l := by cases l <;> rfl
    rw [Part.testFirst, if_pos hstate, Part.testFirst, if_pos (by rw [heng]; exact hstate)]
    cases l <;> rfl
  · rw [Bool.and_eq_true, bne_iff_ne, beq_iff_eq, hsent]
    exact fun h => h.1 h.2.symm

end

section
variable {dt : Nat} {ws : List (Word × Byte)} {l : LoopId} {t : Transfer} {s : State} (h : t.Ends dt l s)
include h

/-- The global descriptor gives the pool. -/
theorem Transfer.Ends.answers_global {op : SchedOp} {rest : List SchedOp}
    (hs : ((s.part.tick dt).eng l).sched = .readGlobal :: op :: rest) (hop : op.transfers = true) :
    t.Answers dt ws s (((s.part.tick dt).freePort).modEng l fun e =>
      { e with
        globalBase := wordAt (t.dataAfter ws s.mem) 0 &&& 0xFFFFFF80
        globalSize := halfAt (t.dataAfter ws s.mem) 4, sched := op :: rest }) :=
  h.answers hs (by rw [Part.schedDone, Part.withSched, Part.modEng_modEng]; rfl) (Part.Acts.refl l _) (by decide)
    (Part.settled_cons l _ op rest (congrArg Engine.sched (Part.eng_modEng ..)) hop)

/-- A descriptor read for an entry, and the validation after it. -/
theorem Transfer.Ends.answers_validated {purpose : HostReadUse} {op : SchedOp} {q : Part}
    (hread : purpose = .starting ∨ purpose = .testing)
    (hs : ((s.part.tick dt).eng l).sched = [.readLoopHost purpose, op]) (ht : op.transfers = false)
    (hop : op ≠ .awaitTransmitter)
    (hq : Part.act l op ((((s.part.tick dt).freePort).hostRead l (LoopHost.decode (t.dataAfter ws s.mem))).withSched l [])
      = q) {r : Part} {n : Nat} (hr : Part.Acts l n q r) (hn : n ≤ 100) (hsettled : r.settled l = true) :
    t.Answers dt ws s r := by
  have hdone : Part.schedDone l (.readLoopHost purpose) (t.dataAfter ws s.mem)
      (((s.part.tick dt).freePort).withSched l [op]) =
        (((s.part.tick dt).freePort).hostRead l (LoopHost.decode (t.dataAfter ws s.mem))).withSched l [op] := by
    rw [Part.hostRead, ← Part.modEng_withSched rfl]
    rcases hread with rfl | rfl <;> rfl
  exact h.answers hs hdone (Part.Acts.step (Part.waitsAt_act ht hop) hq hr) (by omega) hsettled

/-- The entry is refused: OFF, and REFUSED after the write of the part half. -/
theorem Transfer.Ends.answers_startRefused {purpose : HostReadUse} {op : SchedOp} {err : StartError}
    (hread : purpose = .starting ∨ purpose = .testing)
    (hs : ((s.part.tick dt).eng l).sched = [.readLoopHost purpose, op]) (ht : op.transfers = false)
    (hop : op ≠ .awaitTransmitter)
    (hq : ∀ q : Part, (q.eng l).globalSize = ((s.part.tick dt).eng l).globalSize →
      (q.eng l).hostBuf = LoopHost.decode (t.dataAfter ws s.mem) → Part.act l op q = q.refuseStart l err) :
    t.Answers dt ws s (Part.offState l [.writeLoopHalf, .raise .refused]
      (((s.part.tick dt).freePort).modEng l fun e =>
        { e with hostBuf := LoopHost.decode (t.dataAfter ws s.mem), sched := []
                 rep := { e.rep with startError := err } })) := by
  refine h.answers_validated hread hs ht hop ((hq _ ?_ ?_).trans (Part.refuseStart_hostRead err)) (Part.Acts.refl l _)
    (by decide) (Part.settled_offState (Part.atTransfer_nil (congrArg Engine.sched (Part.eng_modEng ..)))
      (by simp [SchedOp.transfers]))
  · rw [Part.hostRead_withSched_eng, Part.freePort_eng]
  · rw [Part.hostRead_withSched_eng]

/-- RUNNING or ROLLCALL is entered after the scan. -/
theorem Transfer.Ends.answers_startNext {op : SchedOp} {acts : List SchedOp} {q : Part}
    (hs : ((s.part.tick dt).eng l).sched = op :: acts ++ [.startNext]) (hacts : acts.length ≤ 100)
    (hq : (s.part.tick dt).goesOn l op (t.dataAfter ws s.mem) acts [.startNext] = some q) :
    (((s.part.tick dt).eng l).cfg.rollAtStart = false → t.Answers dt ws s (q.modEng l fun e =>
      { e with
        ctl := { e.ctl with state := .running, drainTarget := none, returnTarget := none }
        cyc := { e.cyc.stop with
          nextGrid := some ((s.part.tick dt).now + e.cfg.cycleLength.toNat * 2500), marked := some (s.part.tick dt).now
          late := e.lineTaken, firstOfGrid := true, turn := none }
        sched := [.writeLoopHalf] })) ∧
    (((s.part.tick dt).eng l).cfg.rollAtStart = true → t.Answers dt ws s
      (Part.rollcallState l [] (q.modEng l fun e => { e with sched := [] }))) := by
  obtain ⟨⟨-, hnow, scan, refused, resets, heng⟩, hanswer⟩ :=
    exec_of_goesOn h.live h.inFlight h.orphan h.requester h.urgent hs hacts hq
  have hcfg : ((q.withSched l []).eng l).cfg = ((s.part.tick dt).eng l).cfg := by rw [Part.withSched_eng, heng]
  have hqs : (q.eng l).sched = [.startNext] := by rw [heng]
  refine ⟨fun hroll => ?_, fun hroll => ?_⟩
  · refine (hanswer 1 _ (Part.acts_last hqs rfl SchedOp.noConfusion ?_) (by decide)).1
      (Part.settled_cons l _ .writeLoopHalf [] (congrArg Engine.sched (Part.eng_modEng ..)) rfl)
    show Part.startNext l _ = _
    rw [Part.startNext, hcfg, hroll, if_neg Bool.false_ne_true, Part.enterRunning, Part.push, Part.withSched_now, hnow,
      Part.withSched, Part.modEng_modEng, Part.modEng_modEng]
    rfl
  · refine (hanswer 1 _ (Part.acts_last hqs rfl SchedOp.noConfusion ?_) (by decide)).1
      (Part.settled_rollcallState (congrArg Engine.sched (Part.eng_modEng ..)))
    show Part.startNext l _ = _
    rw [Part.startNext, hcfg, hroll, if_pos rfl, Part.enterRollcall_eq]
    rfl

end

/-- Settles O45: the steps of STARTING and of the entry to TEST, each from the transfer that leads to it. -/
theorem startingSteps : Obligations.StartingSteps := by
  intro dt ws l t s p e m after data free answers host fits poolFits testFits refused scan ht hlive horphan hrequester
    hurgent
  have h : t.Ends dt l s := ⟨hlive, ht, horphan, hrequester, hurgent⟩
  have hscan : [.awaitTransmitter, .startLatch, .mark, .startResets, .writeLoopHalf, .mark] ++ scan = startSteps := rfl
  have hport : free.port.inFlight = none := rfl
  have hfree : free.eng l = e := Part.freePort_eng ..
  refine ⟨fun op rest hs hop => h.answers_global hs (by rwa [Part.schedAction_isSome] at hop),
    fun hstate hs => ?starting, fun op acts q _ hs hacts hq => h.answers_startNext hs hacts hq,
    fun hstate hs => ?testing, fun hstate hvalidated hs hsent hmode => ?first⟩
  case starting =>
    have hrefused : ∀ err, startError e.globalSize host = err → err ≠ .none → refused err := fun err herr hne =>
      h.answers_startRefused (.inl rfl) hs rfl SchedOp.noConfusion fun q hsize hbuf =>
        Part.startValidate_refuses (by rw [hsize, hbuf]; exact herr) hne
    have hpooled : poolFits → startError e.globalSize host = _ := startError_of_pool
    refine ⟨fun hpool => hrefused .pool (startError_pool hpool) StartError.noConfusion, fun hpool hrate => ?_,
      fun hpool hrate hfits => ?_, fun hpool hrate hfits => ?_⟩
    · exact hrefused .rate ((hpooled hpool).trans (if_pos hrate)) StartError.noConfusion
    · refine hrefused .timing ((hpooled hpool).trans ((if_neg (by omega)).trans (if_pos ?_))) StartError.noConfusion
      rw [Bool.not_eq_true', ← Bool.not_eq_true, timingFits_iff]
      exact hfits
    · have hnone : startError (free.eng l).globalSize host = .none := by
        rw [hfree, hpooled hpool, if_neg (by omega), (timingFits_iff _ _).mpr hfits]
        rfl
      have hvalidate := Part.startValidate_passes hnone
      have hsent : ((free.startValidated l host).eng l).framer.sending = e.framer.sending := by
        rw [Part.startValidated, Part.eng_modEng, hfree]
      have hport' : (free.startValidated l host).port.inFlight = none := by
        rw [Part.startValidated, Part.modEng_port]
      refine ⟨fun hsending => ?_, fun hsending hoff => ?_, fun hsending hoff => ?_⟩
      · refine h.answers_validated (.inl rfl) hs rfl SchedOp.noConfusion ?_ (Part.Acts.refl l _) (by decide) ?_
        · rw [hscan]
          exact hvalidate.trans (Part.modEng_modEng ..)
        · refine Part.settled_of_state l _ ?_ ?_
          · unfold Part.paused
            rw [Part.eng_modEng]
            show Part.waitsAt _ l .awaitTransmitter = true
            rw [Part.waitsAt_eq, Part.eng_modEng]
            exact Bool.or_eq_true_iff.mpr (.inr (Bool.and_eq_true_iff.mpr ⟨rfl, by rw [hfree]; exact hsending⟩))
          · rw [Part.eng_modEng]
            show (free.eng l).ctl.state ≠ .running
            rw [hfree, hstate]
            exact LoopState.noConfusion
      · have hacts := Part.acts_startSteps (hsent.trans hsending) hport'
        rw [Part.startLatched_wake (by rw [hfree]; exact hoff)] at hacts
        exact h.answers_validated (.inl rfl) hs rfl SchedOp.noConfusion hvalidate hacts (by decide)
          (Part.settled_cons l _ .writeLoopHalf _ (congrArg Engine.sched (Part.eng_modEng ..)) rfl)
      · have hacts := Part.acts_startSteps (hsent.trans hsending) hport'
        rw [Part.startLatched_off (by rw [hfree]; exact hoff) hport] at hacts
        exact h.answers_validated (.inl rfl) hs rfl SchedOp.noConfusion hvalidate hacts (by decide)
          (Part.settled_cons l _ .writeLoopHalf _ (congrArg Engine.sched (Part.eng_modEng ..)) rfl)
  case testing =>
    have hrefused : ∀ err, testError host = err → err ≠ .none → refused err := fun err herr hne =>
      h.answers_startRefused (.inr rfl) hs rfl SchedOp.noConfusion fun q _ hbuf =>
        Part.testValidate_refuses (by rw [hbuf]; exact herr) hne
    refine ⟨fun hrate => hrefused .rate (if_pos hrate) StartError.noConfusion,
      fun hrate hfits => hrefused .test ((testError_of_rate hrate).2 hfits) StartError.noConfusion,
      fun hrate hfits => ?_⟩
    exact h.answers_validated (.inr rfl) hs rfl SchedOp.noConfusion
      (Part.testValidate_passes ((testError_of_rate hrate).1 hfits)) (Part.Acts.refl l _) (by decide)
      (Part.settled_cons l _ .writeLoopHalf [.testFirst] (congrArg Engine.sched (Part.eng_modEng ..)) rfl)
  case first =>
    have hacts := Part.acts_last (l := l) (p := free.withSched l [.testFirst]) Part.withSched_sched rfl SchedOp.noConfusion
      (congrArg (Part.testFirst l) (Part.withSched_withSched ..))
    have heng : (free.withSched l []).eng l = { e with sched := [] } := by rw [Part.withSched_eng, hfree]
    have hfirst : Part.testFirst l (free.withSched l []) = Part.testGoesOn l p.testUnit (free.withSched l []) := by
      have hunit : (free.withSched l []).testUnit = p.testUnit := Part.modEng_testUnit ..
      rw [Part.testFirst_eq (by rw [heng]; exact hstate) (by rw [heng]; exact hvalidated) (by rw [hunit]; exact hsent)
        (by rw [heng]; exact hmode), hunit]
    rw [hfirst] at hacts
    exact h.answers hs rfl hacts (by decide)
      (Part.settled_testGoesOn ((congrArg (fun e : Engine => e.ctl.state) heng).trans hstate)
        (Part.atTransfer_nil (congrArg Engine.sched heng)))

end Sys2Proof.Machine
end

