-- ==== Sys2Proof/Proofs/Walks.lean ====
section
/-!
The transfers of a catch walk (R38, R120, R121).
-/
namespace Sys2Proof.Machine

open Sys2Proof

/-! ### The catch writer alone -/

/-- A change of the catch writer and of the part-half writes it asks for, with nothing else of the loop. -/
def Engine.CatchOnly (change : Engine → Engine) : Prop :=
  ∀ e : Engine, change e = { e with catcher := (change e).catcher, urgent := (change e).urgent }

theorem Part.settled_catchOnly {l : LoopId} {p : Part} {change : Engine → Engine} (hp : p.settled l = true)
    (h : Engine.CatchOnly change) : (p.modEng l change).settled l = true := by
  refine Part.settled_kept hp ?_ ?_ ?_ <;> rw [Part.eng_modEng, h]
  · exact id
  · exact id

/-- What a drop leaves (R121). -/
def Engine.dropped (stalled : Bool) (e : Engine) : Engine :=
  { e with
    catcher := { e.catcher with buffer := none, walk := none, drops := satInc e.catcher.drops, stalled := stalled }
    urgent := e.urgent ++ [.writeLoopHalf, .raise .starved] }

/-- A walk that goes on with another transfer. -/
def Engine.walking (op : CatchOp) (e : Engine) : Engine := { e with catcher := { e.catcher with walk := some op } }

section
variable {l : LoopId} {p : Part}

theorem Part.catchDrop_eq (stalled : Bool) : p.catchDrop l stalled = p.modEng l (Engine.dropped stalled) := by
  rw [Part.catchDrop, Part.pushUrgent, Part.modEng_modEng]
  rfl

theorem Part.catchFill_eq (k : RecordIx) :
    p.catchFill l k = p.modEng l fun e =>
      { e with
        catcher := { e.catcher with
          buffer := none, walk := none, fills := satInc e.catcher.fills, stalled := false, parked := some k }
        urgent := e.urgent ++ [.writeLoopHalf, .raiseCatch] } := by
  rw [Part.catchFill, Part.pushUrgent, Part.modEng_modEng]

/-- What the end of the transfer `op` of the walk leads to. -/
def Part.walkOn (l : LoopId) (data : List Byte) (p : Part) : CatchOp → Part
  | .readHead | .readLink _ => p.catchLink l (linkField (wordAt data 0))
  | .readState k => if byteAt data 0 = 4 then p.catchNext l (.writeFields k) else p.catchDrop l false
  | .writeFields k =>
    if (p.eng l).catcher.hasPayload then p.catchNext l (.writePayload k) else p.catchNext l (.writeFilled k)
  | .writePayload k => p.catchNext l (.writeFilled k)
  | .writeFilled k => p.catchFill l k

theorem Part.catchDone_of {data : List Byte} {op : CatchOp} (hwalk : (p.eng l).catcher.walk = some op) :
    p.catchDone l data = p.walkOn l data op := by
  rw [Part.catchDone, hwalk]
  cases op <;> rfl

theorem CatchUnit.hasPayload_of {f : CatchFrame} {c : CatchUnit} (hbuffer : c.buffer = some f) :
    c.hasPayload = !f.payload.isEmpty := by
  rw [CatchUnit.hasPayload, hbuffer]

/-- The link that the walk has read leads to a record, or to a drop. -/
theorem Part.catchLink_eq (link : RecordIx) :
    p.catchLink l link =
      if link = 1023 then p.modEng l (Engine.dropped false)
      else if link.toNat < (p.eng l).catcher.poolSize.toNat then
        p.modEng l fun e => { e with catcher := { e.catcher with stalled := false, walk := some (.readState link) } }
      else p.modEng l (Engine.dropped true) := by
  rw [Part.catchLink, Part.catchDrop_eq, Part.catchDrop_eq, Part.catchNext, Part.modEng_modEng]
  rfl

end

/-! ### The end of a transfer of a walk -/

section
variable {dt : Nat} {ws : List (Word × Byte)} {l : LoopId} {t : Transfer} {op : CatchOp} {s : State}

/-- What stands for the end of a transfer in progress of the catch walk of loop `l`. -/
structure Transfer.EndsWalk (t : Transfer) (dt : Nat) (l : LoopId) (op : CatchOp) (s : State) : Prop where
  inFlight : s.part.port.inFlight = some t
  requester : t.requester = .catcher l
  orphan : t.orphan = false
  live : (s.part.tick dt).live = true
  settled : (s.part.tick dt).settled l = true
  walk : ((s.part.tick dt).eng l).catcher.walk = some op

variable (h : t.EndsWalk dt l op s)
include h

theorem Transfer.EndsWalk.answers {change : Engine → Engine} (hchange : Engine.CatchOnly change)
    (hdone : Part.catchDone l (t.dataAfter ws s.mem) (s.part.tick dt).freePort = ((s.part.tick dt).freePort).modEng l change) :
    t.Answers dt ws s (((s.part.tick dt).freePort).modEng l change) := by
  refine Transfer.answers_of_complete h.inFlight ?_
  rw [Part.completeTransfer, if_pos h.live, Part.transferDone, h.orphan, if_neg Bool.false_ne_true, h.requester]
  dsimp only
  rw [hdone]
  exact Part.proceed_of_settled l _
    (Part.settled_catchOnly (Part.settled_same h.settled (Part.freePort_eng ..)) hchange)

theorem Transfer.EndsWalk.catchDone_eq (data : List Byte) :
    Part.catchDone l data (s.part.tick dt).freePort = ((s.part.tick dt).freePort).walkOn l data op :=
  Part.catchDone_of (by rw [Part.freePort_eng]; exact h.walk)

/-- A link that has been read leads to a record, or to a drop. -/
theorem Transfer.EndsWalk.answers_link (hop : op = .readHead ∨ ∃ j, op = .readLink j) {link : RecordIx}
    (hlink : linkField (wordAt (t.dataAfter ws s.mem) 0) = link) :
    (link = 1023 → t.Answers dt ws s (((s.part.tick dt).freePort).modEng l (Engine.dropped false))) ∧
    (link ≠ 1023 → link.toNat < ((s.part.tick dt).eng l).catcher.poolSize.toNat →
      t.Answers dt ws s (((s.part.tick dt).freePort).modEng l fun e =>
        { e with catcher := { e.catcher with stalled := false, walk := some (.readState link) } })) ∧
    (link ≠ 1023 → ((s.part.tick dt).eng l).catcher.poolSize.toNat ≤ link.toNat →
      t.Answers dt ws s (((s.part.tick dt).freePort).modEng l (Engine.dropped true))) := by
  have hwalkOn : ((s.part.tick dt).freePort).walkOn l (t.dataAfter ws s.mem) op =
      ((s.part.tick dt).freePort).catchLink l link := by
    rw [← hlink]
    obtain rfl | ⟨j, rfl⟩ := hop
    · rfl
    · rfl
  have hdone := ((h.catchDone_eq _).trans hwalkOn).trans (Part.catchLink_eq link)
  rw [Part.freePort_eng] at hdone
  exact ⟨fun hend => h.answers (fun _ => rfl) (hdone.trans (if_pos hend)),
    fun hend hpool => h.answers (fun _ => rfl) (hdone.trans ((if_neg hend).trans (if_pos hpool))),
    fun hend hpool => h.answers (fun _ => rfl) (hdone.trans ((if_neg hend).trans (if_neg (by omega))))⟩

end

/-- Settles O46: by the transfer of the walk that has ended. -/
theorem catchWalk : Obligations.CatchWalk := by
  intro dt ws l t op f s p e m after data answers walks drops link ht hrequester horphan hlive hsettled hwalk hbuffer
  have h : t.EndsWalk dt l op s := ⟨ht, hrequester, horphan, hlive, hsettled, hwalk⟩
  refine ⟨fun hop => h.answers_link hop rfl, ?_, ?_, ?_, ?_⟩
  · rintro k rfl
    exact ⟨fun hopen => h.answers (change := Engine.walking (.writeFields k)) (fun _ => rfl)
        ((h.catchDone_eq _).trans (if_pos hopen)),
      fun hopen => h.answers (change := Engine.dropped false) (fun _ => rfl)
        ((h.catchDone_eq _).trans ((if_neg hopen).trans (Part.catchDrop_eq false)))⟩
  · rintro k rfl
    refine h.answers (change := Engine.walking _) (fun _ => rfl) ((h.catchDone_eq _).trans ?_)
    rw [Part.walkOn, Part.freePort_eng, CatchUnit.hasPayload_of hbuffer]
    cases f.payload with
    | nil => rfl
    | cons x xs => rfl
  · rintro k rfl
    exact h.answers (change := Engine.walking (.writeFilled k)) (fun _ => rfl) (h.catchDone_eq _)
  · rintro k rfl
    exact h.answers (fun _ => rfl) ((h.catchDone_eq _).trans (Part.catchFill_eq k))

end Sys2Proof.Machine
end

