-- ==== Sys2Proof/Proofs/Faults.lean ====
section
/-!
FAULT (R140, R165).
-/
namespace Sys2Proof.Machine

open Sys2Proof

/-! ### What a FAULT gives up -/

/-- The DONE write in progress of loop `l`, of all its procedure. -/
def Part.doneWrite (l : LoopId) (p : Part) : List SchedOp :=
  match p.port.inFlight, (p.eng l).sched with
  | some u, .writeDone i k x y :: _ =>
    if u.requester = .sched l ∧ u.orphan = false ∧ u.urgent = false then [.writeDone i k x y] else []
  | _, _ => []

section
variable {l : LoopId} {p : Part}

theorem Part.doneInProgress_eq_doneWrite : p.doneInProgress l = p.doneWrite l := (Part.doneInProgress_eq p l).trans rfl

/-- The transfers of the loop that a FAULT leaves without a result; `done` is what it keeps of the procedure. -/
def Transfer.givenUp (l : LoopId) (done : List SchedOp) (u : Transfer) : Transfer :=
  if (u.requester = .sched l ∧ done = []) ∨ u.requester = .catcher l then { u with orphan := true } else u

theorem Part.orphan_givenUp {done : List SchedOp} :
    Part.orphan (.catcher l) (if done.isEmpty then p.orphan (.sched l) else p) =
      { p with port := { p.port with inFlight := p.port.inFlight.map (Transfer.givenUp l done) } } := by
  have hmap : ∀ f g : Transfer → Transfer, (∀ u, f u = g u) →
      p.port.inFlight.map f = p.port.inFlight.map g := fun f g h => congrArg (Option.map · _) (funext h)
  cases done with
  | nil =>
    rw [List.isEmpty_nil, if_pos rfl, Part.orphan_eq, Part.orphan_eq]
    dsimp only
    rw [Option.map_map, hmap _ (Transfer.givenUp l []) fun u => ?_]
    simp only [Function.comp_apply, Transfer.givenUp, and_true]
    by_cases hs : u.requester = .sched l
    · simp [hs]
    · by_cases hc : u.requester = .catcher l
      · simp [hc]
      · simp [hs, hc]
  | cons op rest =>
    rw [List.isEmpty_cons, if_neg Bool.false_ne_true, Part.orphan_eq, hmap _ (Transfer.givenUp l (op :: rest)) fun u => ?_]
    simp only [Transfer.givenUp, reduceCtorEq, and_false, false_or]

theorem Part.abandonTest_eq : p.abandonTest l =
    { p with testUnit :=
        if p.testUnit.owner = some l then
          { p.testUnit with
            owner := none, status := .abandoned, copy := []
            lost := if p.testUnit.copy = [] then p.testUnit.lost else satInc p.testUnit.lost }
        else p.testUnit } := by
  have hlost : (if p.testUnit.copy.isEmpty = true then p.testUnit.lost else satInc p.testUnit.lost) =
      if p.testUnit.copy = [] then p.testUnit.lost else satInc p.testUnit.lost :=
    if_congr List.isEmpty_iff rfl rfl
  rw [Part.abandonTest, hlost]
  split_ifs <;> rfl

/-- What a FAULT makes of the engine. -/
def Engine.faulted (done : List SchedOp) (e : Engine) : Engine :=
  { e with
    ctl := { e.ctl with state := .fault, drainTarget := none, returnTarget := none
                        rollRequest := false, validated := false }
    cyc := { e.cyc.stop with turn := none, retimeRefused := false }
    xu := ExchangeUnit.idle
    framer := { running := false, receiver := .discard, held := none, sending := none
                activity := none, markSince := 0 }
    mon := { e.mon with carrierSince := none, errorsMet := false, silenceMet := false
                        downSince := none, holdPassed := false, presenceSince := none }
    rollList := [], rollSecond := false, sched := done, urgent := []
    catcher := { e.catcher with walk := none } }

theorem Part.enterFault_eq (hlive : p.live = true) :
    p.enterFault l = Part.modEng l (Engine.faulted (p.doneWrite l))
      { p with
        cause := p.cause ||| causeBit l .busfault
        contexts := p.contexts.map fun c => if c.owner = some l then Context.faulted c else c
        relays := p.relays.map fun o => o.bind fun r => if r.loop = l then none else some r
        testUnit :=
          if p.testUnit.owner = some l then
            { p.testUnit with
              owner := none, status := .abandoned, copy := []
              lost := if p.testUnit.copy = [] then p.testUnit.lost else satInc p.testUnit.lost }
          else p.testUnit
        port := { p.port with inFlight := p.port.inFlight.map (Transfer.givenUp l (p.doneWrite l)) } } := by
  have hrunning : p.resetting = false := ((Part.live_iff p).mp hlive).2
  rw [Part.enterFault, Part.doneInProgress_eq_doneWrite]
  dsimp only
  rw [Part.orphan_givenUp, Part.abandonTest_eq, Part.push, Part.modEng_modEng, Part.raiseCause, if_neg]
  · cases l <;> rfl
  · rw [Part.modEng_resetting]
    show ¬ p.resetting = true
    rw [hrunning]
    exact Bool.false_ne_true

end

/-! ### A bus error -/

section
variable {dt : Nat} {ws : List (Word × Byte)} {landed : BitVec 128} {grantFirst : Bool} {t : Transfer} {s : State} {q : Part}

/-- The memory after a bus error in the transfer `t`. -/
def Transfer.memoryAfterError (t : Transfer) (ws : List (Word × Byte)) (landed : BitVec 128) (m : Memory) : Memory :=
  match t.action with
  | .read _ _ => Memory.hostWrites m ws
  | .write a data => Memory.writeLanded (Memory.hostWrites m ws) a landed data

theorem Transfer.applyFailed_eq (m : Memory) :
    t.action.applyFailed (Memory.hostWrites m ws) landed = t.memoryAfterError ws landed m := by
  unfold BusAction.applyFailed Transfer.memoryAfterError
  cases t.action <;> rfl

theorem exec_busError_none (ht : s.part.port.inFlight = none) :
    exec (.busError dt ws landed grantFirst) s =
      .next (State.become { s with mem := Memory.hostWrites s.mem ws } (s.part.tick dt)) := by
  have hmem : commandMemory (.busError dt ws landed grantFirst) s = Memory.hostWrites s.mem ws := by
    unfold commandMemory
    rw [ht]
  have hwork : commandWork (.busError dt ws landed grantFirst) s (s.part.tick dt) = s.part.tick dt := by
    unfold commandWork
    rw [ht]
  rw [exec_eq, hmem, State.become]
  exact congrArg (fun w : Part => Host.Outcome.next
    { s with part := w.arbitrate, mem := Memory.hostWrites s.mem ws }) hwork

theorem exec_busError_of (ht : s.part.port.inFlight = some t) (hq : (s.part.tick dt).failTransfer t grantFirst = q) :
    exec (.busError dt ws landed grantFirst) s =
      .next (State.become { s with mem := t.memoryAfterError ws landed s.mem } q) := by
  have hmem : commandMemory (.busError dt ws landed grantFirst) s = t.memoryAfterError ws landed s.mem := by
    unfold commandMemory
    rw [ht]
    exact Transfer.applyFailed_eq ..
  have hwork : commandWork (.busError dt ws landed grantFirst) s (s.part.tick dt) = q := by
    unfold commandWork
    rw [ht]
    exact hq
  rw [exec_eq, hmem, State.become]
  exact congrArg (fun w : Part => Host.Outcome.next
    { s with part := w.arbitrate, mem := t.memoryAfterError ws landed s.mem }) hwork

end

/-- The part as the FAULT of the failed transfer `t` finds it. -/
def Part.failing (t : Transfer) (grantFirst : Bool) (p : Part) : Part :=
  if grantFirst then (p.freePort.withdraw t.requester).arbitrate else p.freePort

section
variable {t : Transfer} {grantFirst : Bool} {p : Part}

theorem Part.withdraw_kept (r : Requester) : (p.withdraw r).contexts = p.contexts ∧ (p.withdraw r).relays = p.relays ∧
    (p.withdraw r).testUnit = p.testUnit ∧ (p.withdraw r).live = p.live := by
  cases r with
  | sched l => cases l <;> exact ⟨rfl, rfl, rfl, rfl⟩
  | catcher l => cases l <;> exact ⟨rfl, rfl, rfl, rfl⟩

theorem Part.failing_kept : (p.failing t grantFirst).cause = p.cause ∧
    (p.failing t grantFirst).contexts = p.contexts ∧ (p.failing t grantFirst).relays = p.relays ∧
    (p.failing t grantFirst).testUnit = p.testUnit ∧ (p.failing t grantFirst).live = p.live := by
  unfold Part.failing
  cases grantFirst with
  | false => exact ⟨rfl, rfl, rfl, rfl, rfl⟩
  | true =>
    obtain ⟨hcontexts, hrelays, hunit, hlive⟩ := Part.withdraw_kept (p := p.freePort) t.requester
    rw [if_pos rfl, Part.arbitrate_cause, Part.arbitrate_contexts, Part.arbitrate_relays, Part.arbitrate_testUnit,
      Part.arbitrate_live, Part.withdraw_cause, hcontexts, hrelays, hunit, hlive]
    exact ⟨rfl, rfl, rfl, rfl, rfl⟩

end

/-- Settles O47: the FAULT is that of the part once the failed transfer has left the port, and the next grant has been
made where it comes first. -/
theorem busError : Obligations.BusError := by
  intro dt ws landed grantFirst t s p l m after free withdrawn base done answers
  have hl : t.requester.loop = l := rfl
  have hbase : p.failing t grantFirst = base := by
    show (if grantFirst = true then _ else _) = if grantFirst = true then _ else _
    rw [show withdrawn = p.freePort.withdraw t.requester from rfl]
    rfl
  have hdone : base.doneWrite l = done := rfl
  obtain ⟨hcause, hcontexts, hrelays, hunit, hlive'⟩ := Part.failing_kept (t := t) (grantFirst := grantFirst) (p := p)
  rw [hbase] at hcause hcontexts hrelays hunit hlive'
  refine ⟨exec_busError_none, fun ht hlive => ?_, fun ht hlive => ?_⟩
  · refine exec_busError_of ht ?_
    rw [Part.failTransfer, if_neg (by rw [hlive]; exact Bool.false_ne_true)]
    rfl
  · refine exec_busError_of ht ?_
    have hfault := Part.enterFault_eq (l := l) (hlive'.trans hlive)
    rw [hcause, hcontexts, hrelays, hunit, hdone] at hfault
    rw [Part.failTransfer, if_pos hlive, hl]
    exact (congrArg (Part.enterFault l) hbase).trans hfault

end Sys2Proof.Machine
end

