-- ==== Sys2Proof/Proofs/Ports.lean ====
section
/-!
The Memory Port (R164): its arbiter, the requests, and the transfers they ask for (R20, R21, R23, R26, R28, R30, R37).
-/
namespace Sys2Proof.Machine

open Sys2Proof

/-! ### The arbiter -/

/-- The place of a requester in the order of R164. -/
def Requester.rank : Requester → Nat
  | .sched .A => 0
  | .sched .B => 1
  | .catcher .A => 2
  | .catcher .B => 3

/-- How far a requester is behind the one after the requester that was granted last. -/
def Requester.turnAfter (last r : Requester) : Nat := (r.rank + 3 - last.rank) % 4

theorem mem_requestersAfter (last r : Requester) : r ∈ requestersAfter last := by
  rcases last with (_ | _) | (_ | _) <;> rcases r with (_ | _) | (_ | _) <;> decide

theorem requestersAfter_sorted (last : Requester) :
    (requestersAfter last).Pairwise fun q r => last.turnAfter q < last.turnAfter r := by
  rcases last with (_ | _) | (_ | _) <;> decide

theorem Part.request_requester {p : Part} {r : Requester} {t : Transfer} (h : p.request r = some t) : t.requester = r := by
  unfold Part.request at h
  cases r with
  | sched l =>
    dsimp only at h
    cases hurgent : (p.eng l).urgent with
    | cons op rest =>
      rw [hurgent] at h
      obtain ⟨_, -, rfl⟩ := Option.map_eq_some_iff.mp h
      rfl
    | nil =>
      rw [hurgent] at h
      cases hsched : (p.eng l).sched with
      | nil =>
        rw [hsched] at h
        exact absurd h (by simp)
      | cons op rest =>
        rw [hsched] at h
        obtain ⟨_, -, rfl⟩ := Option.map_eq_some_iff.mp h
        rfl
  | catcher l =>
    obtain ⟨_, -, rfl⟩ := Option.map_eq_some_iff.mp h
    rfl

/-- In an order of requesters the first with a request is found. -/
theorem Part.firstRequest_of {p : Part} {turn : Requester → Nat} {r : Requester} {t : Transfer} (ht : p.request r = some t)
    (hfirst : ∀ q, turn q < turn r → p.request q = none) :
    ∀ order : List Requester, order.Pairwise (fun q r => turn q < turn r) → r ∈ order → p.firstRequest order = some t := by
  intro order hsorted hr
  induction order with
  | nil => exact absurd hr List.not_mem_nil
  | cons q rest ih =>
    rw [Part.firstRequest]
    obtain ⟨hq, hrest⟩ := List.pairwise_cons.mp hsorted
    rcases List.mem_cons.mp hr with rfl | hr
    · rw [ht]
    · rw [hfirst q (hq r hr)]
      exact ih hrest hr

theorem Part.arbitrate_of_first {p : Part} {r : Requester} {t : Transfer} (hlive : p.live = true)
    (hfree : p.port.inFlight = none) (ht : p.request r = some t)
    (hfirst : ∀ q, p.port.pointer.turnAfter q < p.port.pointer.turnAfter r → p.request q = none) :
    p.arbitrate = { p with port := { inFlight := some t, pointer := r } } := by
  rw [Part.arbitrate, hlive, hfree, if_pos (by decide),
    Part.firstRequest_of ht hfirst _ (requestersAfter_sorted _) (mem_requestersAfter _ _), ← Part.request_requester ht]

theorem Part.arbitrate_of_busy {p : Part} (h : p.live = false ∨ p.port.inFlight.isSome = true) : p.arbitrate = p := by
  rcases h with h | h
  · exact Part.arbitrate_of_not_live h
  · rw [Part.arbitrate, if_neg]
    rw [Bool.and_eq_true, Option.isNone_iff_eq_none]
    rintro ⟨-, hnone⟩
    rw [hnone] at h
    exact Bool.false_ne_true h

/-! ### The requests -/

section
variable {p : Part} {l : LoopId}

theorem Part.request_urgent {op : SchedOp} {rest : List SchedOp} (h : (p.eng l).urgent = op :: rest) :
    p.request (.sched l) = (p.schedAction l op).map fun a =>
      { requester := .sched l, action := a, urgent := true, orphan := false } := by
  rw [Part.request, h]

theorem Part.request_sched {op : SchedOp} {rest : List SchedOp} (hurgent : (p.eng l).urgent = [])
    (h : (p.eng l).sched = op :: rest) :
    p.request (.sched l) = (p.schedAction l op).map fun a =>
      { requester := .sched l, action := a, urgent := false, orphan := false } := by
  rw [Part.request, hurgent, h]

theorem Part.request_sched_nil (hurgent : (p.eng l).urgent = []) (h : (p.eng l).sched = []) :
    p.request (.sched l) = none := by
  rw [Part.request, hurgent, h]

theorem Part.request_catcher : p.request (.catcher l) = (p.eng l).catcher.walk.map fun op =>
    { requester := .catcher l, action := p.catchAction l op, urgent := false, orphan := false } := rfl

/-! ### What the transfers read and write -/

theorem Part.loopHostAddress_eq : p.loopHostAddress l =
    (p.area ++ (0 : BitVec 12) : Word) + match l with | .A => 0x40 | .B => 0x80 := by cases l <;> rfl

theorem RecordOutcome.code_eq (o : RecordOutcome) : o.code = match o with
    | .ok => 0 | .held => 1 | .noAnswer => 2 | .refused => 3 | .overlong => 4 | .missed => 5
    | .halted => 6 | .disabled => 7 | .stopped => 8 | .lineLost => 9 | .relayLost => 10 | .badRecord => 11 := by
  cases o <;> rfl

theorem bytesOfHalf_low (w : Word) :
    bytesOfHalf (w.extractLsb' 0 16) = [w.extractLsb' 0 8, w.extractLsb' 8 8] := by
  unfold bytesOfHalf
  congr 1
  · ext i hi
    simp only [BitVec.getElem_extractLsb', BitVec.getLsbD_extractLsb', Nat.zero_add]
    simp only [show i < 16 by omega, decide_true, Bool.true_and]
  · congr 1
    ext i hi
    simp only [BitVec.getElem_extractLsb', BitVec.getLsbD_extractLsb', Nat.zero_add]
    simp only [show 8 + i < 16 by omega, decide_true, Bool.true_and]

theorem resultFields_eq (c : Context) (o : RecordOutcome) (n : Byte) (cycle : Word) :
    resultFields c o n cycle =
      [o.code, c.recAttempts, c.recHolds, c.recDuplicates, n, 0, cycle.extractLsb' 0 8, cycle.extractLsb' 8 8,
       c.recLatency.extractLsb' 0 8, c.recLatency.extractLsb' 8 8, 0, 0, 0, 0, 0, 0] := by
  rw [resultFields, bytesOfHalf_low]
  rfl

theorem CatchFrame.fields_eq (f : CatchFrame) : f.fields =
    [(match f.reason with | .station => 1 | .group => 2 | .allCall => 3 | .filter => 4),
     (match f.filter with | none => 0xFF | some g => BitVec.ofNat 8 g.val),
     f.triggered.extractLsb' 0 8, f.triggered.extractLsb' 8 8, f.destination, f.source, f.control,
     BitVec.ofNat 8 f.payload.length, f.cycle.extractLsb' 0 8, f.cycle.extractLsb' 8 8,
     0, 0, 0, 0, 0, 0, 0, 0, 0, 0, 0, 0, 0, 0] := by
  have hreason : f.reason.code = match f.reason with | .station => 1 | .group => 2 | .allCall => 3 | .filter => 4 := by
    cases f.reason <;> rfl
  rw [CatchFrame.fields, hreason]
  rfl

end

/-- Settles O48: the arbiter, the requests, and the transfers by the definitions of their addresses and data. -/
theorem portTransfers : Obligations.PortTransfers := by
  refine ⟨?arbiter, ?requests, ?transfers⟩
  case arbiter =>
    intro p r rank turn
    have hrank : ∀ q : Requester, rank q = q.rank := fun q => by rcases q with (_ | _) | (_ | _) <;> rfl
    have hturn : ∀ q, turn q = p.port.pointer.turnAfter q := fun q => by
      show (rank q + 3 - rank p.port.pointer) % 4 = _
      rw [hrank, hrank, Requester.turnAfter]
    simp only [hturn]
    exact ⟨fun t hlive hfree ht hfirst => Part.arbitrate_of_first hlive hfree ht hfirst,
      fun _ _ hnone => Part.arbitrate_of_no_request hnone, Part.arbitrate_of_busy⟩
  case requests =>
    intro p l e asks
    exact ⟨fun op rest h => Part.request_urgent h, fun op rest hurgent h => Part.request_sched hurgent h,
      fun hurgent h => Part.request_sched_nil hurgent h, fun op h => by rw [Part.request_catcher, h]; rfl,
      fun h => by rw [Part.request_catcher, h]; rfl⟩
  case transfers =>
    intro p l i k n o x y copy use payload area loop station at_ record caught padded low high outcome
    have hloop : p.loopHostAddress l = loop := Part.loopHostAddress_eq
    refine ⟨rfl, ?_, rfl, fun parked hparked => ?_, rfl, rfl, rfl, rfl, ?_, rfl, ?_, rfl, ?_, rfl, rfl, rfl,
      fun f hf => ⟨?_, ?_⟩⟩
    · rw [Part.schedAction, hloop]
    · rw [Part.schedAction, hparked]
      rfl
    · rw [Part.schedAction, resultFields_eq, RecordOutcome.code_eq]
      rfl
    · rw [Part.schedAction, Part.loopHalfAddress, hloop]
    · rw [Part.catchAction, hloop]
    · rw [Part.catchAction, hf]
      dsimp only
      rw [CatchFrame.fields_eq]
      rfl
    · rw [Part.catchAction, hf]
      rfl

/-! ### The layouts of the descriptors (12_formats) -/

/-- A record index in two bytes. -/
theorem bytesOfHalf_indexField (o : Option RecordIx) : bytesOfHalf (indexField o) =
    match o with
    | none => [(0xFF : Byte), 0xFF]
    | some k => [BitVec.ofNat 8 (k.toNat % 256), BitVec.ofNat 8 (k.toNat / 256)] := by
  cases o with
  | none => decide
  | some k =>
    have hk : k.toNat < 1024 := k.isLt
    have hlow : (k.setWidth 16).extractLsb' 0 8 = BitVec.ofNat 8 (k.toNat % 256) := by
      refine BitVec.eq_of_toNat_eq ?_
      simp only [BitVec.extractLsb'_toNat, BitVec.toNat_setWidth, BitVec.toNat_ofNat, Nat.shiftRight_zero]
      omega
    have hhigh : (k.setWidth 16).extractLsb' 8 8 = BitVec.ofNat 8 (k.toNat / 256) := by
      refine BitVec.eq_of_toNat_eq ?_
      simp only [BitVec.extractLsb'_toNat, BitVec.toNat_setWidth, BitVec.toNat_ofNat, Nat.shiftRight_eq_div_pow]
      omega
    exact congrArg₂ (fun a b => [a, b]) hlow hhigh

theorem Context.flagsByte_bits (c : Context) :
    c.flagsByte.getLsbD 0 = c.txSeq ∧ c.flagsByte.getLsbD 1 = c.rxSeq ∧ c.flagsByte.getLsbD 2 = c.syncPending ∧
      c.flagsByte.getLsbD 3 = c.present ∧ c.flagsByte.extractLsb' 4 4 = 0 := by
  unfold Context.flagsByte
  cases c.txSeq <;> cases c.rxSeq <;> cases c.syncPending <;> cases c.present <;> decide

theorem wordAt_eq (bs : List Byte) (i : Nat) : wordAt bs i = halfAt bs (i + 2) ++ halfAt bs i := by
  rw [wordAt, BitVec.append_assoc]
  rfl

theorem linkField_wordAt (bs : List Byte) (i : Nat) :
    linkField (wordAt bs i) = (halfAt bs i).extractLsb' 0 10 := by
  rw [wordAt_eq, linkField]
  ext j hj
  simp only [BitVec.getElem_extractLsb', BitVec.getLsbD_append, Nat.zero_add]
  rw [if_pos (by omega)]

/-- Settles O49: the fields of each half, one by one. -/
theorem descriptorLayouts : Obligations.DescriptorLayouts := by
  unfold Obligations.DescriptorLayouts
  intro low high word index
  refine ⟨fun c => ?station, fun e => ?loop, fun bs => ?host⟩
  case station =>
    intro state phase reason
    have hstate : c.state.code = state := rfl
    have hphase : c.phase.code = phase := rfl
    have hreason : c.reason.code = reason := rfl
    obtain ⟨htx, hrx, hsync, hpresent, hzero⟩ := c.flagsByte_bits
    refine ⟨c.flagsByte, htx, hrx, hsync, hpresent, hzero, ?_⟩
    rw [Context.partHalf, hstate, hphase, hreason, bytesOfHalf_indexField, bytesOfHalf_indexField]
    simp only [List.append_assoc]
    rfl
  case loop =>
    intro state target reason error retime
    have hstate : e.ctl.state.code = state := rfl
    have htarget : drainTargetCode e.ctl.drainTarget = target := by
      show _ = if e.ctl.drainTarget = some .quiet then 1 else 0
      rcases e.ctl.drainTarget with _ | (_ | _) <;> rfl
    have hreason : e.rep.downReason.code = reason := rfl
    have herror : e.rep.startError.code = error := rfl
    have hretime : e.rep.retimeResult.code = retime := rfl
    have hstalled : bitByte e.catcher.stalled 0 = if e.catcher.stalled then 1 else 0 := by
      cases e.catcher.stalled <;> rfl
    rw [Engine.partHalf, hstate, htarget, hreason, herror, hretime, hstalled, bytesOfHalf_indexField]
    simp only [List.append_assoc]
    rfl
  case host =>
    intro half bit
    refine ⟨?_, ?_⟩
    · rw [StationHost.decode, linkField_wordAt]
      rfl
    · rw [LoopHost.decode, wordAt_eq]
      rfl

end Sys2Proof.Machine
end

