-- ==== Sys2Proof/Proofs/WorkOrder.lean ====
section
/-!
The order of a loop's work: which operations may stand together, and what keeps it so (R98, R100).
-/
namespace Sys2Proof.Machine

open Sys2Proof

/-! ### Operations that may stand anywhere -/

/-- A calm operation neither belongs to a turn or a scan nor leads to another loop state: it may stand beside an
attempt. -/
def SchedOp.calm (op : SchedOp) : Prop := op.excludesAttempt = false

/-- A plain operation is calm and works for no station. -/
def SchedOp.plain (op : SchedOp) : Prop := op.calm ∧ op.station = none

section
variable {op x y : SchedOp} {c : LoopControl}

theorem SchedOp.calm_parts (h : op.calm) :
    op.changesState = false ∧ op.ofTurn = false ∧ op.ofScan = false ∧ op ≠ .startResets := by
  unfold SchedOp.calm SchedOp.excludesAttempt at h
  rw [Bool.or_eq_false_iff, Bool.or_eq_false_iff, Bool.or_eq_false_iff, beq_eq_false_iff_ne] at h
  obtain ⟨⟨⟨hstate, hturn⟩, hscan⟩, hresets⟩ := h
  exact ⟨hstate, hturn, hscan, hresets⟩

theorem SchedOp.calm_of_parts (hstate : op.changesState = false) (hturn : op.ofTurn = false)
    (hscan : op.ofScan = false) (hresets : op ≠ .startResets) : op.calm := by
  unfold SchedOp.calm SchedOp.excludesAttempt
  rw [hstate, hturn, hscan, beq_eq_false_iff_ne.mpr hresets]
  rfl

theorem SchedOp.changesState_of_ofTestEntry (h : op.ofTestEntry = true) : op.changesState = true := by
  unfold SchedOp.changesState
  split
  any_goals rfl
  exact h

theorem SchedOp.ofTestEntry_of_calm (h : op.calm) : op.ofTestEntry = false := by
  obtain ⟨hstate, -⟩ := SchedOp.calm_parts h
  rw [← Bool.not_eq_true]
  exact fun hentry => Bool.false_ne_true (hstate.symm.trans (SchedOp.changesState_of_ofTestEntry hentry))

/-- A calm operation may stand in every loop state. -/
theorem SchedOp.mayHold_of_calm (h : op.calm) : c.mayHold op = true := by
  obtain ⟨hstate, hturn, hscan, hresets⟩ := SchedOp.calm_parts h
  cases op
  any_goals cases hstate
  any_goals cases hturn
  any_goals cases hscan
  any_goals exact absurd rfl hresets
  all_goals rfl

/-- Everything may stand behind a calm operation. -/
theorem SchedOp.mayPrecede_of_calm (h : x.calm) : x.mayPrecede y = true := by
  obtain ⟨hstate, hturn, hscan, hresets⟩ := SchedOp.calm_parts h
  unfold SchedOp.mayPrecede
  rw [hstate, hturn, if_neg Bool.false_ne_true, if_neg Bool.false_ne_true]
  split
  · exact Bool.noConfusion (show true = false from hscan)
  · exact absurd rfl hresets
  · exact Bool.noConfusion (show true = false from hscan)
  · rfl

/-- A plain operation may stand behind everything. -/
theorem SchedOp.mayPrecede_of_plain (h : y.plain) : x.mayPrecede y = true := by
  obtain ⟨hcalm, hstation⟩ := h
  obtain ⟨-, hturn, -, -⟩ := SchedOp.calm_parts hcalm
  have hend : y ≠ .endTurn := fun h => by rw [h] at hturn; exact Bool.noConfusion (show true = false from hturn)
  unfold SchedOp.mayPrecede
  rw [hstation, show y.excludesAttempt = false from hcalm]
  split_ifs
  · rfl
  · rw [bne_iff_ne.mpr hend]
    rfl
  · split
    any_goals rfl

theorem SchedOp.beginsStep_of_calm (h : op.calm) : op.beginsStep = false := by
  obtain ⟨hstate, -, -, hresets⟩ := SchedOp.calm_parts h
  unfold SchedOp.beginsStep
  split
  · exact absurd rfl hresets
  · exact Bool.noConfusion (show true = false from hstate)
  · exact Bool.noConfusion (show true = false from hstate)
  · rfl

/-- In a loop state in which no procedure of a start, a scan or a turn stands, the operations are calm. -/
theorem SchedOp.calm_of_rest (h : c.mayHold op = true) (hs : c.state = .off ∨ c.state = .quiet ∨ c.state = .fault) :
    op.calm := by
  obtain ⟨state, _, _, _, _, _, _, validated⟩ := c
  rcases hs with rfl | rfl | rfl <;> cases op
  any_goals cases h
  all_goals exact SchedOp.calm_of_parts rfl rfl rfl SchedOp.noConfusion

theorem SchedOp.calm_of_running (h : c.mayHold op = true) (hs : c.state = .running) (hturn : op.ofTurn = false)
    (hscan : op.ofScan = false) : op.calm := by
  obtain ⟨state, _, _, _, _, _, _, validated⟩ := c
  subst hs
  cases op
  any_goals cases h
  any_goals cases hturn
  any_goals cases hscan
  all_goals exact SchedOp.calm_of_parts rfl rfl rfl SchedOp.noConfusion

theorem SchedOp.calm_of_rollcall (h : c.mayHold op = true) (hs : c.state = .rollcall) (hend : op ≠ .rollEnd) : op.calm := by
  obtain ⟨state, _, _, _, _, _, _, validated⟩ := c
  subst hs
  cases op
  any_goals cases h
  any_goals exact absurd rfl hend
  all_goals exact SchedOp.calm_of_parts rfl rfl rfl SchedOp.noConfusion

theorem SchedOp.calm_of_test (h : c.mayHold op = true) (hs : c.state = .test) (hentry : op.ofTestEntry = false) :
    op.calm := by
  obtain ⟨state, _, _, _, _, _, _, validated⟩ := c
  subst hs
  cases op
  any_goals cases h
  any_goals cases hentry
  all_goals exact SchedOp.calm_of_parts rfl rfl rfl SchedOp.noConfusion

/-- Ahead of a start or a test entry that is not validated stand calm operations. -/
theorem SchedOp.calm_of_unvalidated (h : c.mayHold op = true) (hs : c.state = .starting ∨ c.state = .test)
    (hvalidated : c.validated = false) (hentry : op.ofEntry = false) : op.calm := by
  obtain ⟨state, _, _, _, _, _, _, validated⟩ := c
  subst hvalidated
  rcases hs with rfl | rfl <;> cases op
  any_goals cases h
  any_goals cases hentry
  all_goals exact SchedOp.calm_of_parts rfl rfl rfl SchedOp.noConfusion

/-- The operations of a test entry stand in TEST alone, and those of a turn, a scan or a start in no test. -/
theorem LoopControl.state_of_testEntry (h : c.mayHold op = true) (hentry : op.ofTestEntry = true) : c.state = .test := by
  cases op
  any_goals cases hentry
  · exact eq_of_beq (Bool.and_eq_true_iff.mp (show (c.state == .test && !c.validated) = true from h)).1
  · exact eq_of_beq (Bool.and_eq_true_iff.mp (show (c.state == .test && c.validated) = true from h)).1
  · exact eq_of_beq (show (c.state == .test) = true from h)

/-- What may stand in one loop state may stand in another in which more may. -/
theorem LoopControl.mayHold_congr {c' : LoopControl} (hs : c'.state = c.state) (hv : c'.validated = c.validated) :
    c'.mayHold op = c.mayHold op := by
  unfold LoopControl.mayHold
  rw [hs, hv]

end

/-! ### The order of one loop -/

/-- The order of a loop's work, but for what the head of its procedure may be. -/
structure Part.LoopOrder (p : Part) (l : LoopId) : Prop where
  held : ∀ op ∈ (p.eng l).sched, (p.eng l).ctl.mayHold op = true
  follows : (p.eng l).sched.Pairwise fun x y => x.mayPrecede y = true
  steps : (p.eng l).sched.IsChain fun x y => y.beginsStep = true → x = .mark
  reports : ∀ op ∈ (p.eng l).urgent, op.ofReport = true
  owned : p.workOwned l
  placed : p.workPlaced l
  attempts : p.attemptPlaced l

/-- The head of a procedure begins no step. -/
def Engine.headPlaced (e : Engine) : Prop := ∀ op ∈ e.sched.head?, op.beginsStep = false

/-- The agreement of the Relay Table with the contexts, and the order of the work of both loops. -/
structure Part.Ordered (p : Part) : Prop where
  entries : p.entriesHeld
  rejected : ∀ i : StationIx, (p.ctx i).state = .rejected → (p.ctx i).inHand = none
  loops : ∀ l : LoopId, p.LoopOrder l
  oneTest : ∀ l : LoopId, (p.eng l).ctl.state = .test → (p.eng (otherLoop l)).ctl.state ≠ .test

theorem Part.relaysOrdered_iff {p : Part} (ht : p.testOwned) :
    p.relaysOrdered ↔ p.Ordered ∧ ∀ l, (p.eng l).headPlaced := by
  constructor
  · rintro ⟨hentries, hrejected, hloops⟩
    refine ⟨⟨hentries, hrejected, fun l => ?_, fun l hl hother => ?_⟩, fun l => ?_⟩
    · obtain ⟨⟨hheld, hfollows, -, hsteps, hreports⟩, howned, hplaced, hattempts⟩ := hloops l
      exact ⟨hheld, hfollows, hsteps, hreports, howned, hplaced, hattempts⟩
    · have hsame := Option.some.inj ((ht l hl).symm.trans (ht _ hother))
      cases l <;> exact LoopId.noConfusion hsame
    · obtain ⟨⟨-, -, hhead, -⟩, -⟩ := hloops l
      exact hhead
  · rintro ⟨h, hhead⟩
    refine ⟨h.entries, h.rejected, fun l => ?_⟩
    obtain ⟨hheld, hfollows, hsteps, hreports, howned, hplaced, hattempts⟩ := h.loops l
    exact ⟨⟨hheld, hfollows, hhead l, hsteps, hreports⟩, howned, hplaced, hattempts⟩

/-! ### What the order depends on -/

/-- What the order of a loop's work depends on is as before, or the attempt has ended. -/
structure Engine.SameWork (e e' : Engine) : Prop where
  sched : e'.sched = e.sched
  urgent : e'.urgent = e.urgent
  state : e'.ctl.state = e.ctl.state
  validated : e'.ctl.validated = e.ctl.validated
  turn : e'.cyc.turn.isSome = e.cyc.turn.isSome
  idle : e'.xu.state = .idle → e.xu.state = .idle ∨ e'.xu.attempt = none
  attempt : ∀ a ∈ e'.xu.attempt, ∃ b ∈ e.xu.attempt, b.kind = a.kind ∧ b.station = a.station
  rollList : e'.rollList = e.rollList

section
variable {e e' e'' : Engine}

theorem Engine.SameWork.of_eq (hsched : e'.sched = e.sched) (hurgent : e'.urgent = e.urgent)
    (hstate : e'.ctl.state = e.ctl.state) (hvalidated : e'.ctl.validated = e.ctl.validated)
    (hturn : e'.cyc.turn.isSome = e.cyc.turn.isSome) (hxu : e'.xu = e.xu) (hroll : e'.rollList = e.rollList) :
    e.SameWork e' :=
  ⟨hsched, hurgent, hstate, hvalidated, hturn, fun hi => .inl (hxu ▸ hi), fun a ha => ⟨a, hxu ▸ ha, rfl, rfl⟩, hroll⟩

theorem Engine.SameWork.refl (e : Engine) : e.SameWork e := .of_eq rfl rfl rfl rfl rfl rfl rfl

theorem Engine.SameWork.attempt_none (h : e.SameWork e') (ha : e.xu.attempt = none) : e'.xu.attempt = none := by
  rw [Option.eq_none_iff_forall_not_mem]
  intro a ha'
  obtain ⟨b, hb, -⟩ := h.attempt a ha'
  rw [ha] at hb
  exact absurd hb (by simp)

theorem Engine.SameWork.trans (h : e.SameWork e') (h' : e'.SameWork e'') : e.SameWork e'' where
  sched := h'.sched.trans h.sched
  urgent := h'.urgent.trans h.urgent
  state := h'.state.trans h.state
  validated := h'.validated.trans h.validated
  turn := h'.turn.trans h.turn
  idle hi := by
    rcases h'.idle hi with hi' | hnone
    · exact (h.idle hi').imp_right h'.attempt_none
    · exact .inr hnone
  attempt a ha := by
    obtain ⟨b, hb, hkind, hstation⟩ := h'.attempt a ha
    obtain ⟨c, hc, hkind', hstation'⟩ := h.attempt b hb
    exact ⟨c, hc, hkind'.trans hkind, hstation'.trans hstation⟩
  rollList := h'.rollList.trans h.rollList

end

/-- The stations that the work of a loop is for. -/
def Engine.uses (e : Engine) (i : StationIx) : Prop :=
  (∃ op ∈ e.sched, i ∈ op.station) ∨ (e.ctl.state = .rollcall ∧ i ∈ e.rollList) ∨
    ∃ a ∈ e.xu.attempt, a.kind ≠ .test ∧ i ∈ a.station

/-- The stations that the work of a loop is for are its own. -/
theorem Part.LoopOrder.owner_of_uses {p : Part} {l : LoopId} {i : StationIx} (h : p.LoopOrder l)
    (hi : (p.eng l).uses i) : (p.ctx i).owner = some l := by
  obtain ⟨-, -, -, -, howned, ⟨-, hroll, -, -⟩, ⟨-, hattempt⟩⟩ := h
  rcases hi with ⟨op, hop, hstation⟩ | ⟨hs, hlist⟩ | ⟨a, ha, hkind, hstation⟩
  · obtain ⟨ho, -⟩ := howned op hop i hstation
    exact ho
  · exact hroll hs i hlist
  · obtain ⟨-, hother⟩ := hattempt a ha
    obtain ⟨hown, -⟩ := hother hkind
    exact hown i hstation

/-- The order of a loop is kept where its work is as before, the stations it is for keep their owner and get no relay
entry, and no test frame is put in flight. -/
theorem Part.LoopOrder.of_uses {p q : Part} {l : LoopId} (h : p.LoopOrder l) (he : (p.eng l).SameWork (q.eng l))
    (huses : ∀ i, (p.eng l).uses i → (q.ctx i).owner = some l ∧ (p.entryless i → q.entryless i))
    (hcopy : p.testUnit.copy = [] → (q.eng l).ctl.state = .test → q.testUnit.copy = []) : q.LoopOrder l := by
  obtain ⟨hheld, hfollows, hsteps, hreports, howned, ⟨hturn, hroll, hend, htest⟩, ⟨hidle, hattempt⟩⟩ := h
  refine ⟨?_, ?_, ?_, ?_, ?_, ⟨?_, ?_, ?_, ?_⟩, ⟨?_, ?_⟩⟩
  · rw [he.sched]
    exact fun op hop => (LoopControl.mayHold_congr he.state he.validated).trans (hheld op hop)
  · rw [he.sched]
    exact hfollows
  · rw [he.sched]
    exact hsteps
  · rw [he.urgent]
    exact hreports
  · intro op hop i hi
    rw [he.sched] at hop
    obtain ⟨ho, hr⟩ := howned op hop i hi
    obtain ⟨ho', hr'⟩ := huses i (.inl ⟨op, hop, hi⟩)
    exact ⟨ho', fun hafter => hr' (hr hafter)⟩
  · rw [he.state, he.sched, he.turn]
    exact hturn
  · rw [he.state, he.rollList]
    exact fun hs i hi => (huses i (.inr (.inl ⟨hs, hi⟩))).1
  · rw [he.sched, he.rollList]
    exact hend
  · rw [he.validated]
    rintro ⟨op, hmem, hentry⟩
    rw [he.sched] at hmem
    obtain ⟨hnone, hempty⟩ := htest ⟨op, hmem, hentry⟩
    refine ⟨he.attempt_none hnone, fun hv => hcopy (hempty hv) ?_⟩
    rw [he.state]
    exact LoopControl.state_of_testEntry (hheld op hmem) hentry
  · exact fun hi => (he.idle hi).elim (fun hi => he.attempt_none (hidle hi)) id
  · intro a ha
    obtain ⟨b, hb, hkind, hstation⟩ := he.attempt a ha
    rw [← hkind, ← hstation, he.state, he.sched, he.turn]
    obtain ⟨htestKind, hother⟩ := hattempt b hb
    refine ⟨htestKind, fun hne => ?_⟩
    obtain ⟨-, hrest⟩ := hother hne
    exact ⟨fun i hi => (huses i (.inr (.inr ⟨b, hb, hne, hi⟩))).1, hrest⟩

/-- The order of a loop is kept where its work is as before, the stations keep their owners, no relay entry is for
another station than before, and no test frame is put in flight. -/
theorem Part.LoopOrder.of_same {p q : Part} {l : LoopId} (h : p.LoopOrder l) (he : (p.eng l).SameWork (q.eng l))
    (howner : ∀ i, (p.ctx i).owner = some l → (q.ctx i).owner = some l)
    (hentries : ∀ i, (p.ctx i).owner = some l → p.entryless i → q.entryless i)
    (hcopy : p.testUnit.copy = [] → (q.eng l).ctl.state = .test → q.testUnit.copy = []) : q.LoopOrder l :=
  h.of_uses he (fun i hi => ⟨howner i (h.owner_of_uses hi), hentries i (h.owner_of_uses hi)⟩) hcopy

end Sys2Proof.Machine
end

