-- ==== Sys2Proof/Proofs/Orders.lean ====
section
/-!
Changes of the part that keep the order of the loops' work.
-/
namespace Sys2Proof.Machine

open Sys2Proof

/-! ### Parts that agree -/

section
variable {p q : Part} {l : LoopId}

/-- The order is kept by work of loop `l` that leaves the other loop's work and stations as they were. -/
theorem Part.Ordered.of_work (h : p.Ordered) (hentries : q.entriesHeld)
    (hrejected : ∀ i : StationIx, (q.ctx i).state = .rejected → (q.ctx i).inHand = none) (hl : q.LoopOrder l)
    (he : (p.eng (otherLoop l)).SameWork (q.eng (otherLoop l)))
    (howner : ∀ i, (p.ctx i).owner = some (otherLoop l) → (q.ctx i).owner = some (otherLoop l))
    (hfree : ∀ i, (p.ctx i).owner = some (otherLoop l) → p.entryless i → q.entryless i)
    (hcopy : p.testUnit.copy = [] → (q.eng (otherLoop l)).ctl.state = .test → q.testUnit.copy = [])
    (ht : (q.eng l).ctl.state = .test → (p.eng l).ctl.state = .test ∨ (p.eng (otherLoop l)).ctl.state ≠ .test) :
    q.Ordered := by
  have hnot : (q.eng l).ctl.state = .test → (q.eng (otherLoop l)).ctl.state ≠ .test := fun hs => by
    rw [he.state]
    exact (ht hs).elim (h.oneTest l) id
  refine ⟨hentries, hrejected, fun m => ?_, fun m hm => ?_⟩
  · rcases eq_or_eq_otherLoop l m with rfl | rfl
    · exact hl
    · exact (h.loops (otherLoop l)).of_same he howner hfree hcopy
  · rcases eq_or_eq_otherLoop l m with rfl | rfl
    · exact hnot hm
    · rw [otherLoop_otherLoop]
      exact fun hs => hnot hs hm

/-- The order is kept where nothing that it depends on has changed. -/
theorem Part.Ordered.congr (h : p.Ordered) (he : ∀ l, (p.eng l).SameWork (q.eng l)) (hctx : ∀ i, q.ctx i = p.ctx i)
    (hrelays : q.relays = p.relays) (hcopy : q.testUnit.copy = p.testUnit.copy) : q.Ordered := by
  have hfree : ∀ i, p.entryless i → q.entryless i := fun i hi => by
    unfold Part.entryless
    rw [hrelays]
    exact hi
  refine ⟨?_, fun i => ?_, fun l => ?_, fun l => ?_⟩
  · unfold Part.entriesHeld
    rw [hrelays]
    simp only [hctx]
    exact h.entries
  · rw [hctx]
    exact h.rejected i
  · exact (h.loops l).of_same (he l) (fun i => by rw [hctx]; exact id) (fun i _ => hfree i)
      (fun hempty _ => hcopy.trans hempty)
  · rw [(he l).state, (he _).state]
    exact h.oneTest l

/-- A change of the loop's engine, with the order of its work. -/
theorem Part.Ordered.modEng {f : Engine → Engine} (h : p.Ordered) (hl : (p.modEng l f).LoopOrder l)
    (ht : (f (p.eng l)).ctl.state = .test → (p.eng l).ctl.state = .test ∨ (p.eng (otherLoop l)).ctl.state ≠ .test) :
    (p.modEng l f).Ordered := by
  have hfree : ∀ i, p.entryless i → (p.modEng l f).entryless i := fun i hi => by
    unfold Part.entryless
    rw [Part.modEng_relays]
    exact hi
  refine h.of_work (l := l) ?_ (fun i => ?_) hl ?_ (fun i => ?_) (fun i _ => hfree i) ?_ ?_
  · unfold Part.entriesHeld
    simp only [Part.modEng_relays, Part.modEng_ctx]
    exact h.entries
  · rw [Part.modEng_ctx]
    exact h.rejected i
  · rw [Part.eng_modEng_other]
    exact .refl _
  · rw [Part.modEng_ctx]
    exact id
  · rw [Part.modEng_testUnit]
    exact fun hempty _ => hempty
  · rw [Part.eng_modEng]
    exact ht

/-- A change of the loop's engine that its work does not depend on. -/
theorem Part.Ordered.modEng_same {f : Engine → Engine} (h : p.Ordered) (he : (p.eng l).SameWork (f (p.eng l))) :
    (p.modEng l f).Ordered := by
  refine h.congr (fun m => ?_) (fun i => Part.modEng_ctx ..) (Part.modEng_relays ..)
    (congrArg TestUnit.copy (Part.modEng_testUnit ..))
  rcases eq_or_eq_otherLoop l m with rfl | rfl
  · rw [Part.eng_modEng]
    exact he
  · rw [Part.eng_modEng_other]
    exact .refl _

theorem Part.Ordered.raiseCause {c : Cause} (h : p.Ordered) : (p.raiseCause l c).Ordered :=
  h.congr (fun m => by rw [Part.raiseCause_eng]; exact .refl _) (fun i => Part.raiseCause_ctx ..)
    (Part.raiseCause_relays ..) (congrArg TestUnit.copy (Part.raiseCause_testUnit ..))

theorem Part.Ordered.orphan {r : Requester} (h : p.Ordered) : (p.orphan r).Ordered :=
  h.congr (fun m => by rw [Part.orphan_eng]; exact .refl _) (fun i => Part.orphan_ctx ..)
    (Part.orphan_relays ..) (congrArg TestUnit.copy (Part.orphan_testUnit ..))

theorem Part.Ordered.screening (h : p.Ordered) (s : ScreeningStore) : ({ p with screening := s } : Part).Ordered :=
  h.congr (fun m => by cases m <;> exact .refl _) (fun _ => rfl) rfl rfl

theorem Part.Ordered.arbitrate (h : p.Ordered) : p.arbitrate.Ordered :=
  h.congr (fun m => by rw [Part.arbitrate_eng]; exact .refl _) (fun i => Part.arbitrate_ctx ..)
    (Part.arbitrate_relays ..) (congrArg TestUnit.copy (Part.arbitrate_testUnit ..))

theorem Part.Ordered.freePort (h : p.Ordered) : p.freePort.Ordered :=
  h.congr (fun m => by rw [Part.freePort_eng]; exact .refl _) (fun _ => rfl) rfl rfl

/-! ### The Test Pattern Unit -/

/-- The Test Pattern Unit loses its copy, or keeps it. -/
theorem Part.Ordered.testUnit {u : TestUnit} (h : p.Ordered) (hu : u.copy = [] ∨ u.copy = p.testUnit.copy) :
    ({ p with testUnit := u } : Part).Ordered := by
  have heng : ∀ m, ({ p with testUnit := u } : Part).eng m = p.eng m := fun m => by cases m <;> rfl
  refine ⟨h.entries, h.rejected, fun m => ?_, fun m => ?_⟩
  · refine (h.loops m).of_same (by rw [heng]; exact .refl _) (fun _ => id) (fun _ _ => id) fun hempty _ => ?_
    rcases hu with hu | hu
    · exact hu
    · exact hu.trans hempty
  · rw [heng, heng]
    exact h.oneTest m

/-! ### The contexts -/

/-- The stations of the work and of the entries keep what matters of their contexts. -/
theorem Part.Ordered.of_contexts (h : p.Ordered) (he : ∀ m, q.eng m = p.eng m) (hrelays : q.relays = p.relays)
    (hcopy : q.testUnit = p.testUnit) (howner : ∀ i m, (p.ctx i).owner = some m → (q.ctx i).owner = some m)
    (hentry : ∀ i, p.entryless i ∨ ((q.ctx i).inHand = (p.ctx i).inHand ∧ (q.ctx i).binding = (p.ctx i).binding))
    (hrejected : ∀ i, (q.ctx i).state = .rejected → (q.ctx i).inHand = none) : q.Ordered := by
  have hfree : ∀ i, p.entryless i → q.entryless i := fun i hi => by
    unfold Part.entryless
    rw [hrelays]
    exact hi
  refine ⟨?_, hrejected, fun m => ?_, fun m => ?_⟩
  · unfold Part.entriesHeld
    rw [hrelays]
    intro a r hr
    obtain ⟨hhand, hown, hcoupler⟩ := h.entries a r hr
    rcases hentry r.station with hfree | ⟨hhand', hbinding⟩
    · exact absurd rfl (hfree a r hr)
    · rw [hhand', hbinding]
      exact ⟨hhand, howner _ _ hown, hcoupler⟩
  · exact (h.loops m).of_same (by rw [he]; exact .refl _) (fun i => howner i m) (fun i _ => hfree i)
      (fun hempty _ => (congrArg TestUnit.copy hcopy).trans hempty)
  · rw [he, he]
    exact h.oneTest m

/-- A context that keeps its owner, its record in hand and its binding, and is not made REJECTED. -/
structure Context.KeepsHold (c c' : Context) : Prop where
  owner : c'.owner = c.owner
  inHand : c'.inHand = c.inHand
  binding : c'.binding = c.binding
  rejected : c'.state = .rejected → c.state = .rejected

theorem Context.KeepsHold.refl (c : Context) : c.KeepsHold c := ⟨rfl, rfl, rfl, id⟩

theorem Context.KeepsHold.trans {c c' c'' : Context} (h : c.KeepsHold c') (h' : c'.KeepsHold c'') : c.KeepsHold c'' :=
  ⟨h'.owner.trans h.owner, h'.inHand.trans h.inHand, h'.binding.trans h.binding, fun hr => h.rejected (h'.rejected hr)⟩

theorem Part.ctx_modCtx_cases {P : StationIx → Context → Prop} {f : Context → Context} {i : StationIx}
    (hi : P i (f (p.ctx i))) (hne : ∀ j, j ≠ i → P j (p.ctx j)) (j : StationIx) : P j ((p.modCtx i f).ctx j) := by
  by_cases hj : j = i
  · subst hj
    rw [Part.ctx_modCtx]
    exact hi
  · rw [Part.ctx_modCtx_ne i j f p hj]
    exact hne j hj

/-- A context is changed: its owner stays, its record in hand and its binding too where an entry is for it. -/
theorem Part.Ordered.modCtx {f : Context → Context} {i : StationIx} (h : p.Ordered)
    (howner : (f (p.ctx i)).owner = (p.ctx i).owner)
    (hentry : p.entryless i ∨ ((f (p.ctx i)).inHand = (p.ctx i).inHand ∧ (f (p.ctx i)).binding = (p.ctx i).binding))
    (hrejected : (f (p.ctx i)).state = .rejected → (f (p.ctx i)).inHand = none) : (p.modCtx i f).Ordered := by
  refine h.of_contexts (fun m => Part.modCtx_eng ..) (Part.modCtx_relays ..) (Part.modCtx_testUnit ..) ?_ ?_ ?_
  · exact fun j => Part.ctx_modCtx_cases (P := fun j c => ∀ m, (p.ctx j).owner = some m → c.owner = some m)
      (fun m hm => howner.trans hm) (fun _ _ _ hm => hm) j
  · exact fun j => Part.ctx_modCtx_cases
      (P := fun j c => p.entryless j ∨ (c.inHand = (p.ctx j).inHand ∧ c.binding = (p.ctx j).binding))
      hentry (fun _ _ => .inr ⟨rfl, rfl⟩) j
  · exact fun j => Part.ctx_modCtx_cases (P := fun _ c => c.state = .rejected → c.inHand = none)
      hrejected (fun j _ => h.rejected j) j

theorem Part.Ordered.modCtx_kept {f : Context → Context} {i : StationIx} (h : p.Ordered)
    (hf : (p.ctx i).KeepsHold (f (p.ctx i))) : (p.modCtx i f).Ordered :=
  h.modCtx hf.owner (.inr ⟨hf.inHand, hf.binding⟩) fun hr => hf.inHand.trans (h.rejected i (hf.rejected hr))

/-- A station with no record in hand, or with no owner, has no entry. -/
theorem Part.Ordered.entryless_of_inHand {i : StationIx} (h : p.Ordered) (hi : (p.ctx i).inHand = none) : p.entryless i := by
  intro a r hr hst
  obtain ⟨hhand, -⟩ := h.entries a r hr
  rw [hst, hi] at hhand
  exact absurd hhand (by simp)

theorem Part.Ordered.entryless_of_owner {i : StationIx} (h : p.Ordered) (hi : (p.ctx i).owner = none) : p.entryless i := by
  intro a r hr hst
  obtain ⟨-, hown, -⟩ := h.entries a r hr
  rw [hst, hi] at hown
  exact absurd hown (by simp)

/-- A station with no owner is claimed. -/
theorem Part.Ordered.claim {f : Context → Context} {i : StationIx} (h : p.Ordered) (hi : (p.ctx i).owner = none)
    (hf : (f (p.ctx i)).inHand = none) : (p.modCtx i f).Ordered := by
  refine h.of_contexts (fun m => Part.modCtx_eng ..) (Part.modCtx_relays ..) (Part.modCtx_testUnit ..) ?_ ?_ ?_
  · exact fun j => Part.ctx_modCtx_cases (P := fun j c => ∀ m, (p.ctx j).owner = some m → c.owner = some m)
      (fun m hm => absurd (hi.symm.trans hm) (by simp)) (fun _ _ _ hm => hm) j
  · exact fun j => Part.ctx_modCtx_cases
      (P := fun j c => p.entryless j ∨ (c.inHand = (p.ctx j).inHand ∧ c.binding = (p.ctx j).binding))
      (.inl (h.entryless_of_owner hi)) (fun _ _ => .inr ⟨rfl, rfl⟩) j
  · exact fun j => Part.ctx_modCtx_cases (P := fun _ c => c.state = .rejected → c.inHand = none)
      (fun _ => hf) (fun j _ => h.rejected j) j

/-! ### The Relay Table -/

theorem Part.entryless_mapRelays {f : RelayEntry → Option RelayEntry} {i : StationIx}
    (hf : ∀ r r', f r = some r' → r'.station = i → r.station = i) (hi : p.entryless i) : (p.mapRelays f).entryless i := by
  intro a r hr hst
  rw [Part.mapRelays_relay, Option.mem_def, Option.bind_eq_some_iff] at hr
  obtain ⟨r₀, hr₀, hfr⟩ := hr
  exact hi a r₀ hr₀ (hf r₀ r hfr hst)

/-- Entries are released, or changed in what their agreement with the contexts does not speak of. -/
theorem Part.Ordered.mapRelays {f : RelayEntry → Option RelayEntry} (h : p.Ordered)
    (hf : ∀ r r', f r = some r' →
      r'.station = r.station ∧ r'.record = r.record ∧ r'.loop = r.loop ∧ r'.coupler = r.coupler) :
    (p.mapRelays f).Ordered := by
  refine ⟨?_, h.rejected, fun m => ?_, h.oneTest⟩
  · intro a r hr
    rw [Part.mapRelays_relay, Option.mem_def, Option.bind_eq_some_iff] at hr
    obtain ⟨r₀, hr₀, hfr⟩ := hr
    obtain ⟨hstation, hrecord, hloop, hcoupler⟩ := hf r₀ r hfr
    rw [hstation, hrecord, hloop, hcoupler]
    exact h.entries a r₀ hr₀
  · exact (h.loops m).of_same (.refl _) (fun _ => id)
      (fun i _ => Part.entryless_mapRelays fun r r' hr hst => ((hf r r' hr).1.symm.trans hst)) (fun hempty _ => hempty)

theorem Part.Ordered.releaseRelay {i : StationIx} (h : p.Ordered) : (p.releaseRelay i).Ordered := by
  refine h.mapRelays fun r r' hr => ?_
  split at hr
  · exact absurd hr (by simp)
  · cases hr
    exact ⟨rfl, rfl, rfl, rfl⟩

theorem Part.Ordered.collectRelay {i : StationIx} (h : p.Ordered) : (p.collectRelay i).Ordered := by
  refine h.mapRelays fun r r' hr => ?_
  split at hr <;> cases hr <;> exact ⟨rfl, rfl, rfl, rfl⟩

theorem Part.Ordered.waitRelay {i : StationIx} (h : p.Ordered) : (p.waitRelay i).Ordered := by
  refine h.mapRelays fun r r' hr => ?_
  split at hr <;> cases hr <;> exact ⟨rfl, rfl, rfl, rfl⟩

theorem Part.entryless_releaseRelay (i : StationIx) : (p.releaseRelay i).entryless i := by
  intro a r hr hst
  rw [Part.releaseRelay, Part.mapRelays_relay, Option.mem_def, Option.bind_eq_some_iff] at hr
  obtain ⟨r₀, -, hfr⟩ := hr
  split at hfr
  · exact absurd hfr (by simp)
  · rename_i hne
    cases hfr
    exact hne hst

end

end Sys2Proof.Machine
end

