-- ==== Sys2Proof/Proofs/WorkLists.lean ====
section
/-!
Which lists of operations may be the procedure of a loop, and what may be put in front of them, behind them or left out
(R98, R100).
-/
namespace Sys2Proof.Machine

open Sys2Proof

/-! ### Operations of a turn and of a scan -/

section
variable {op x y : SchedOp} {c : LoopControl}

theorem SchedOp.not_calm_of_ofTurn (h : op.ofTurn = true) : ¬ op.calm := fun hc => by
  obtain ⟨-, hturn, -, -⟩ := SchedOp.calm_parts hc
  exact Bool.false_ne_true (hturn.symm.trans h)

theorem SchedOp.not_calm_of_ofScan (h : op.ofScan = true) : ¬ op.calm := fun hc => by
  obtain ⟨-, -, hscan, -⟩ := SchedOp.calm_parts hc
  exact Bool.false_ne_true (hscan.symm.trans h)

theorem SchedOp.ofScan_of_ofTurn (h : op.ofTurn = true) : op.ofScan = false := by
  cases op
  any_goals cases h
  all_goals rfl

theorem SchedOp.ofTestEntry_of_ofTurn (h : op.ofTurn = true) : op.ofTestEntry = false := by
  cases op
  any_goals cases h
  all_goals rfl

theorem SchedOp.changesState_of_ofTurn (h : op.ofTurn = true) : op.changesState = false := by
  cases op
  any_goals cases h
  all_goals rfl

theorem SchedOp.beginsStep_of_ofTurn (h : op.ofTurn = true) : op.beginsStep = false := by
  cases op
  any_goals cases h
  all_goals rfl

/-- An operation of a turn for no station ends it. -/
theorem SchedOp.ofTurn_of_station (hs : op.station = none) (he : op ≠ .endTurn) : op.ofTurn = false := by
  cases op
  any_goals cases hs
  any_goals exact absurd rfl he
  all_goals rfl

/-- Where one operation of a turn may stand, every other may. -/
theorem SchedOp.mayHold_of_ofTurn (h : c.mayHold x = true) (hx : x.ofTurn = true) (hy : y.ofTurn = true) :
    c.mayHold y = true := by
  cases x
  any_goals cases hx
  all_goals
    cases y
    any_goals cases hy
    all_goals exact h

theorem SchedOp.mayHold_of_ofScan (h : c.mayHold x = true) (hx : x.ofScan = true) (hy : y.ofScan = true) :
    c.mayHold y = true := by
  cases x
  any_goals cases hx
  all_goals
    cases y
    any_goals cases hy
    all_goals exact h

theorem SchedOp.mayPrecede_of_ofTurn (hx : x.ofTurn = true) :
    x.mayPrecede y = (y.station.isNone && y != .endTurn) := by
  unfold SchedOp.mayPrecede
  rw [SchedOp.changesState_of_ofTurn hx, hx, if_neg Bool.false_ne_true, if_pos rfl]

theorem SchedOp.mayPrecede_of_changesState (hx : x.changesState = true) (h : x.mayPrecede y = true) : y.plain := by
  unfold SchedOp.mayPrecede at h
  rw [hx, if_pos rfl, Bool.and_eq_true_iff, Bool.not_eq_true'] at h
  exact ⟨h.2, Option.isNone_iff_eq_none.mp h.1⟩

/-- Behind an operation of a turn stands no other one. -/
theorem SchedOp.ofTurn_behind (hx : x.ofTurn = true) (h : x.mayPrecede y = true) : y.station = none ∧ y.ofTurn = false := by
  rw [SchedOp.mayPrecede_of_ofTurn hx, Bool.and_eq_true_iff, bne_iff_ne] at h
  obtain ⟨hstation, hend⟩ := h
  exact ⟨Option.isNone_iff_eq_none.mp hstation, SchedOp.ofTurn_of_station (Option.isNone_iff_eq_none.mp hstation) hend⟩

/-- The operations of a scan leave room for every operation without a station. -/
theorem SchedOp.mayPrecede_of_ofScan (hx : x.ofScan = true) (hy : y.station = none) : x.mayPrecede y = true := by
  cases x
  any_goals cases hx
  · show y.station.isNone = true
    rw [hy]
    rfl
  · show (y.station != _) = true
    rw [hy]
    rfl

/-- In RUNNING an operation is calm or belongs to a turn or to a scan. -/
theorem SchedOp.calm_or_of_running (h : c.mayHold op = true) (hs : c.state = .running) :
    op.calm ∨ op.ofTurn = true ∨ op.ofScan = true := by
  cases hturn : op.ofTurn
  · cases hscan : op.ofScan
    · exact .inl (SchedOp.calm_of_running h hs hturn hscan)
    · exact .inr (.inr rfl)
  · exact .inr (.inl rfl)

end

/-! ### Procedures -/

/-- The operations `ops` may be the procedure of loop `l` (but for what its head may be). -/
structure Part.MayRun (p : Part) (l : LoopId) (ops : List SchedOp) : Prop where
  held : ∀ op ∈ ops, (p.eng l).ctl.mayHold op = true
  follows : ops.Pairwise fun x y => x.mayPrecede y = true
  steps : ops.IsChain fun x y => y.beginsStep = true → x = .mark
  owned : ∀ op ∈ ops, ∀ i ∈ op.station, (p.ctx i).owner = some l ∧ (op.afterRelease = true → p.entryless i)
  turn : (p.eng l).ctl.state = .running → (∃ op ∈ ops, op.ofTurn = true) →
    (p.eng l).cyc.turn.isSome = true ∧ ∀ op ∈ ops, op.ofScan = false
  rollEnd : .rollEnd ∈ ops → (p.eng l).rollList = []
  test : (∃ op ∈ ops, op.ofTestEntry = true) →
    (p.eng l).xu.attempt = none ∧ ((p.eng l).ctl.validated = true → p.testUnit.copy = [])
  alone : ∀ a ∈ (p.eng l).xu.attempt, a.kind ≠ .test → ∀ op ∈ ops, op.calm

section
variable {p q : Part} {l : LoopId} {ops rest : List SchedOp}

theorem Part.LoopOrder.mayRun (h : p.LoopOrder l) : p.MayRun l (p.eng l).sched := by
  obtain ⟨hheld, hfollows, hsteps, -, howned, ⟨hturn, -, hend, htest⟩, ⟨-, hattempt⟩⟩ := h
  refine ⟨hheld, hfollows, hsteps, howned, hturn, hend, htest, fun a ha hkind => ?_⟩
  obtain ⟨-, hother⟩ := hattempt a ha
  obtain ⟨-, hcalm, -⟩ := hother hkind
  exact hcalm

/-- A procedure that may be made is put in the place of the one before. -/
theorem Part.LoopOrder.setSched (h : p.LoopOrder l) (hr : p.MayRun l ops) :
    (p.modEng l fun e => { e with sched := ops }).LoopOrder l := by
  obtain ⟨-, -, -, hreports, -, ⟨-, hroll, -, -⟩, ⟨hidle, hattempt⟩⟩ := h
  obtain ⟨hheld, hfollows, hsteps, howned, hturn, hend, htest, halone⟩ := hr
  unfold Part.entryless at howned
  refine ⟨?_, ?_, ?_, ?_, ?_, ⟨?_, ?_, ?_, ?_⟩, ⟨?_, ?_⟩⟩
  any_goals simp only [Part.eng_modEng, Part.modEng_ctx, Part.modEng_testUnit]
  · exact hheld
  · exact hfollows
  · exact hsteps
  · exact hreports
  · unfold Part.workOwned Part.entryless
    simp only [Part.eng_modEng, Part.modEng_ctx, Part.modEng_relays]
    exact howned
  · exact hturn
  · exact hroll
  · exact hend
  · exact htest
  · exact hidle
  · intro a ha
    obtain ⟨htestKind, hother⟩ := hattempt a ha
    refine ⟨htestKind, fun hne => ?_⟩
    obtain ⟨hown, -, hrest⟩ := hother hne
    exact ⟨hown, halone a ha hne, hrest⟩

theorem Part.Ordered.mayRun (h : p.Ordered) : p.MayRun l (p.eng l).sched := (h.loops l).mayRun

theorem Part.Ordered.setSched (h : p.Ordered) (hr : p.MayRun l ops) :
    (p.modEng l fun e => { e with sched := ops }).Ordered :=
  h.modEng ((h.loops l).setSched hr) fun ht => .inl ht

/-! ### What is left out -/

/-- Operations are left out, and none stands where it would begin a step behind another than before. -/
theorem Part.MayRun.sublist (h : p.MayRun l rest) (hs : ops.Sublist rest)
    (hsteps : ops.IsChain fun x y => y.beginsStep = true → x = .mark) : p.MayRun l ops := by
  obtain ⟨hheld, hfollows, -, howned, hturn, hend, htest, halone⟩ := h
  refine ⟨fun op hop => hheld op (hs.subset hop), hfollows.sublist hs, hsteps, fun op hop => howned op (hs.subset hop),
    fun hst ⟨op, hop, hofTurn⟩ => ?_, fun hop => hend (hs.subset hop),
    fun ⟨op, hop, hentry⟩ => htest ⟨op, hs.subset hop, hentry⟩, fun a ha hkind op hop => halone a ha hkind op (hs.subset hop)⟩
  obtain ⟨hsome, hscan⟩ := hturn hst ⟨op, hs.subset hop, hofTurn⟩
  exact ⟨hsome, fun x hx => hscan x (hs.subset hx)⟩

theorem Part.MayRun.suffix (h : p.MayRun l rest) (hs : ops <:+ rest) : p.MayRun l ops :=
  h.sublist hs.sublist (h.steps.suffix hs)

/-- Operations of which none begins a step stand behind one another in every order. -/
theorem SchedOp.chain_of_no_step (h : ∀ op ∈ ops, op.beginsStep = false) :
    ops.IsChain fun x y => y.beginsStep = true → x = .mark := by
  refine List.Pairwise.isChain (List.pairwise_of_forall_mem_list fun x _ y hy hb => ?_)
  exact absurd hb (by rw [h y hy]; exact Bool.false_ne_true)

/-! ### Calm operations -/

/-- Calm operations for stations of the loop may always be its procedure. -/
theorem Part.MayRun.of_calm (hcalm : ∀ op ∈ ops, op.calm)
    (howned : ∀ op ∈ ops, ∀ i ∈ op.station, (p.ctx i).owner = some l ∧ (op.afterRelease = true → p.entryless i)) :
    p.MayRun l ops where
  held op hop := SchedOp.mayHold_of_calm (hcalm op hop)
  follows := List.pairwise_of_forall_mem_list fun _ hx _ _ => SchedOp.mayPrecede_of_calm (hcalm _ hx)
  steps := SchedOp.chain_of_no_step fun op hop => SchedOp.beginsStep_of_calm (hcalm op hop)
  owned := howned
  turn := fun _ ⟨op, hop, hturn⟩ => absurd (hcalm op hop) (SchedOp.not_calm_of_ofTurn hturn)
  rollEnd := fun hop => absurd (hcalm _ hop) (by unfold SchedOp.calm; decide)
  test := fun ⟨op, hop, hentry⟩ =>
    absurd hentry (by rw [SchedOp.ofTestEntry_of_calm (hcalm op hop)]; exact Bool.false_ne_true)
  alone := fun _ _ _ => hcalm

theorem Part.MayRun.of_plain (h : ∀ op ∈ ops, op.plain) : p.MayRun l ops :=
  .of_calm (fun op hop => (h op hop).1) fun op hop i hi => by
    rw [(h op hop).2] at hi
    exact absurd hi (by simp)

/-! ### Lists put together -/

/-- Two procedures in one: none of the second behind one that it may not follow or whose step it would begin, and what
stands in a turn, a scan or a test entry agreeing. -/
theorem Part.MayRun.append (h : p.MayRun l ops) (h' : p.MayRun l rest)
    (hfollows : ∀ x ∈ ops, ∀ y ∈ rest, x.mayPrecede y = true)
    (hstep : ∀ y ∈ rest.head?, y.beginsStep = true → ops = [] ∨ ops.getLast? = some .mark)
    (hturn : (p.eng l).ctl.state = .running → (∃ x ∈ ops, x.ofTurn = true) → ∀ y ∈ rest, y.ofScan = false)
    (hscan : (p.eng l).ctl.state = .running → (∃ y ∈ rest, y.ofTurn = true) → ∀ x ∈ ops, x.ofScan = false) :
    p.MayRun l (ops ++ rest) where
  held op hop := (List.mem_append.mp hop).elim (h.held op) (h'.held op)
  follows := List.pairwise_append.mpr ⟨h.follows, h'.follows, hfollows⟩
  steps := by
    refine List.isChain_append.mpr ⟨h.steps, h'.steps, fun x hx y hy hb => ?_⟩
    rcases hstep y hy hb with hnil | hlast
    · rw [hnil] at hx
      exact absurd hx (by simp)
    · exact Option.some.inj (hx.symm.trans hlast)
  owned op hop := (List.mem_append.mp hop).elim (h.owned op) (h'.owned op)
  turn := by
    rintro hs ⟨op, hop, ht⟩
    rcases List.mem_append.mp hop with hop | hop
    · obtain ⟨hsome, hscans⟩ := h.turn hs ⟨op, hop, ht⟩
      exact ⟨hsome, fun x hx => (List.mem_append.mp hx).elim (hscans x) (hturn hs ⟨op, hop, ht⟩ x)⟩
    · obtain ⟨hsome, hscans⟩ := h'.turn hs ⟨op, hop, ht⟩
      exact ⟨hsome, fun x hx => (List.mem_append.mp hx).elim (hscan hs ⟨op, hop, ht⟩ x) (hscans x)⟩
  rollEnd hop := (List.mem_append.mp hop).elim h.rollEnd h'.rollEnd
  test := fun ⟨op, hop, hentry⟩ =>
    (List.mem_append.mp hop).elim (fun hop => h.test ⟨op, hop, hentry⟩) fun hop => h'.test ⟨op, hop, hentry⟩
  alone a ha hkind op hop := (List.mem_append.mp hop).elim (h.alone a ha hkind op) (h'.alone a ha hkind op)

theorem SchedOp.not_calm_absurd {op : SchedOp} {P : Prop} (h : ∀ op ∈ ops, op.calm) (hop : op ∈ ops)
    (ht : op.ofTurn = true ∨ op.ofScan = true) : P :=
  absurd (h op hop) (ht.elim SchedOp.not_calm_of_ofTurn SchedOp.not_calm_of_ofScan)

theorem SchedOp.ofScan_of_calm {op : SchedOp} (h : op.calm) : op.ofScan = false := by
  obtain ⟨-, -, hscan, -⟩ := SchedOp.calm_parts h
  exact hscan

/-- Calm operations go in front of a procedure whose head begins no step. -/
theorem Part.MayRun.calm_append (h : p.MayRun l rest) (hcalm : ∀ op ∈ ops, op.calm)
    (howned : ∀ op ∈ ops, ∀ i ∈ op.station, (p.ctx i).owner = some l ∧ (op.afterRelease = true → p.entryless i))
    (hstep : ∀ y ∈ rest.head?, y.beginsStep = true → ops = [] ∨ ops.getLast? = some .mark) :
    p.MayRun l (ops ++ rest) :=
  (Part.MayRun.of_calm hcalm howned).append h (fun x hx _ _ => SchedOp.mayPrecede_of_calm (hcalm x hx)) hstep
    (fun _ ⟨_, hop, ht⟩ => SchedOp.not_calm_absurd hcalm hop (.inl ht))
    fun _ _ x hx => SchedOp.ofScan_of_calm (hcalm x hx)

/-- Plain operations go behind every procedure. -/
theorem Part.MayRun.append_plain (h : p.MayRun l ops) (hplain : ∀ op ∈ rest, op.plain) : p.MayRun l (ops ++ rest) :=
  h.append (.of_plain hplain) (fun _ _ y hy => SchedOp.mayPrecede_of_plain (hplain y hy))
    (fun y hy hb => absurd hb (by
      rw [SchedOp.beginsStep_of_calm (hplain y (List.mem_of_mem_head? hy)).1]; exact Bool.false_ne_true))
    (fun _ _ y hy => SchedOp.ofScan_of_calm (hplain y hy).1)
    fun _ ⟨_, hop, ht⟩ => SchedOp.not_calm_absurd (fun op hop => (hplain op hop).1) hop (.inl ht)

/-- Calm operations with one more behind them, which begins no step. -/
theorem Part.MayRun.concat {op : SchedOp} (hcalm : ∀ x ∈ ops, x.calm)
    (howned : ∀ x ∈ ops, ∀ i ∈ x.station, (p.ctx i).owner = some l ∧ (x.afterRelease = true → p.entryless i))
    (h : p.MayRun l [op]) (hb : op.beginsStep = false) : p.MayRun l (ops ++ [op]) :=
  h.calm_append hcalm howned fun y hy hbegins => by
    cases hy
    exact absurd hbegins (by rw [hb]; exact Bool.false_ne_true)

end

end Sys2Proof.Machine
end

