-- ==== Sys2Proof/Proofs/DueOperations.lean ====
section
/-!
The operation whose time has come, taken off its procedure: what the order says of it, and what may go on in front of
the procedure that is left (R98, R100).
-/
namespace Sys2Proof.Machine

open Sys2Proof

section
variable {p q : Part} {l : LoopId} {op : SchedOp} {ops rest : List SchedOp} {i : StationIx}

/-! ### Changes of a procedure -/

theorem Part.Ordered.push (h : p.Ordered) (hr : p.MayRun l ((p.eng l).sched ++ ops)) : (p.push l ops).Ordered := by
  have hset := h.setSched hr
  rwa [Part.modEng_congr l (fun e => { e with sched := (p.eng l).sched ++ ops })
    (fun e => { e with sched := e.sched ++ ops }) p rfl] at hset

theorem Part.Ordered.pushFront (h : p.Ordered) (hr : p.MayRun l (ops ++ (p.eng l).sched)) : (p.pushFront l ops).Ordered := by
  have hset := h.setSched hr
  rwa [Part.modEng_congr l (fun e => { e with sched := ops ++ (p.eng l).sched })
    (fun e => { e with sched := ops ++ e.sched }) p rfl] at hset

theorem Part.Ordered.push_plain (h : p.Ordered) (hplain : ∀ op ∈ ops, op.plain) : (p.push l ops).Ordered :=
  h.push (h.mayRun.append_plain hplain)

theorem Part.Ordered.popSched (h : p.Ordered) : (p.popSched l).Ordered := by
  have hset := h.setSched (h.mayRun (l := l) |>.suffix (List.drop_suffix 1 _))
  rwa [Part.modEng_congr l (fun e => { e with sched := (p.eng l).sched.drop 1 })
    (fun e => { e with sched := e.sched.drop 1 }) p rfl] at hset

theorem Part.Ordered.cutActs (h : p.Ordered) : (p.cutActs l).Ordered := by
  have hset := h.setSched (h.mayRun (l := l) |>.suffix (List.dropWhile_suffix fun op => !p.waitsAt l op))
  rwa [Part.modEng_congr l (fun e => { e with sched := (p.eng l).sched.dropWhile fun op => !p.waitsAt l op })
    (fun e => { e with sched := e.sched.dropWhile fun op => !p.waitsAt l op }) p rfl] at hset

/-- Part-half writes and their causes go ahead of the procedure. -/
theorem Part.LoopOrder.setUrgent (h : p.LoopOrder l) (hr : ∀ op ∈ ops, op.ofReport = true) :
    (p.modEng l fun e => { e with urgent := ops }).LoopOrder l := by
  obtain ⟨hheld, hfollows, hsteps, -, howned, hplaced, hattempts⟩ := h
  refine ⟨?_, ?_, ?_, ?_, ?_, ?_, ?_⟩
  any_goals unfold Part.workOwned Part.entryless
  any_goals unfold Part.workPlaced
  any_goals unfold Part.attemptPlaced
  all_goals simp only [Part.eng_modEng, Part.modEng_ctx, Part.modEng_relays, Part.modEng_testUnit]
  · exact hheld
  · exact hfollows
  · exact hsteps
  · exact hr
  · exact howned
  · exact hplaced
  · exact hattempts

theorem Part.Ordered.setUrgent (h : p.Ordered) (hr : ∀ op ∈ ops, op.ofReport = true) :
    (p.modEng l fun e => { e with urgent := ops }).Ordered :=
  h.modEng ((h.loops l).setUrgent hr) fun ht => .inl ht

theorem Part.Ordered.pushUrgent (h : p.Ordered) (hr : ∀ op ∈ ops, op.ofReport = true) : (p.pushUrgent l ops).Ordered := by
  have hset := h.setUrgent (l := l) (ops := (p.eng l).urgent ++ ops) fun op hop =>
    (List.mem_append.mp hop).elim ((h.loops l).reports op) (hr op)
  rwa [Part.modEng_congr l (fun e => { e with urgent := (p.eng l).urgent ++ ops })
    (fun e => { e with urgent := e.urgent ++ ops }) p rfl] at hset

/-! ### The operation that is due -/

/-- What an engine holds while operation `op`, taken off its procedure, is carried out. -/
structure Engine.Doing (e : Engine) (op : SchedOp) : Prop where
  holds : e.ctl.mayHold op = true
  before : ∀ y ∈ e.sched, op.mayPrecede y = true
  begun : ∀ y ∈ e.sched.head?, y.beginsStep = true → op = .mark
  turn : e.ctl.state = .running → op.ofTurn = true → e.cyc.turn.isSome = true ∧ ∀ y ∈ e.sched, y.ofScan = false
  scan : e.ctl.state = .running → op.ofScan = true → ∀ y ∈ e.sched, y.ofTurn = false
  rollDone : op = .rollEnd → e.rollList = []
  test : op.ofTestEntry = true → e.xu.attempt = none
  alone : ∀ a ∈ e.xu.attempt, a.kind ≠ .test → op.calm

/-- Operation `op` of loop `l` has been taken off its procedure and is to be carried out. -/
structure Part.Does (p : Part) (l : LoopId) (op : SchedOp) : Prop where
  ordered : p.Ordered
  doing : (p.eng l).Doing op
  owned : ∀ i ∈ op.station, (p.ctx i).owner = some l ∧ (op.afterRelease = true → p.entryless i)
  copy : op.ofTestEntry = true → (p.eng l).ctl.validated = true → p.testUnit.copy = []

/-- The head of a procedure, taken off. -/
theorem Part.Ordered.does_popSched (h : p.Ordered) (hs : (p.eng l).sched = op :: rest) : (p.popSched l).Does l op := by
  have hmem : op ∈ (p.eng l).sched := hs ▸ List.mem_cons_self
  obtain ⟨hheld, hfollows, hsteps, howned, hturn, hend, htest, halone⟩ := h.mayRun (l := l)
  have hscans : (p.eng l).ctl.state = .running → op.ofScan = true → ∀ y ∈ (p.eng l).sched, y.ofTurn = false := by
    intro hst hscan y hy
    rw [← Bool.not_eq_true]
    intro ht
    obtain ⟨-, hno⟩ := hturn hst ⟨y, hy, ht⟩
    exact Bool.false_ne_true ((hno op hmem).symm.trans hscan)
  have hrest : ((p.popSched l).eng l).sched = rest := by
    unfold Part.popSched
    rw [Part.eng_modEng, hs]
    rfl
  have hctl : ((p.popSched l).eng l).ctl = (p.eng l).ctl := by unfold Part.popSched; rw [Part.eng_modEng]
  have hxu : ((p.popSched l).eng l).xu = (p.eng l).xu := by unfold Part.popSched; rw [Part.eng_modEng]
  have hcyc : ((p.popSched l).eng l).cyc = (p.eng l).cyc := by unfold Part.popSched; rw [Part.eng_modEng]
  have hlist : ((p.popSched l).eng l).rollList = (p.eng l).rollList := by unfold Part.popSched; rw [Part.eng_modEng]
  have hctx : ∀ i, (p.popSched l).ctx i = p.ctx i := fun i => Part.modEng_ctx ..
  have htu : (p.popSched l).testUnit = p.testUnit := Part.modEng_testUnit ..
  refine ⟨h.popSched, ⟨?_, ?_, ?_, ?_, ?_, ?_, ?_, ?_⟩, ?_, ?_⟩
  · rw [hctl]
    exact hheld op hmem
  · rw [hrest]
    exact (List.pairwise_cons.mp (hs ▸ hfollows)).1
  · rw [hrest]
    exact (List.isChain_cons.mp (hs ▸ hsteps)).1
  · rw [hctl, hcyc, hrest]
    intro hst ht
    obtain ⟨hsome, hno⟩ := hturn hst ⟨op, hmem, ht⟩
    exact ⟨hsome, fun y hy => hno y (hs ▸ List.mem_cons_of_mem _ hy)⟩
  · rw [hctl, hrest]
    exact fun hst hscan y hy => hscans hst hscan y (hs ▸ List.mem_cons_of_mem _ hy)
  · rw [hlist]
    exact fun he => hend (he ▸ hmem)
  · rw [hxu]
    exact fun hentry => (htest ⟨op, hmem, hentry⟩).1
  · rw [hxu]
    exact fun a ha hkind => halone a ha hkind op hmem
  · intro i hi
    rw [hctx]
    obtain ⟨ho, hr⟩ := howned op hmem i hi
    refine ⟨ho, fun hafter => ?_⟩
    unfold Part.entryless Part.popSched
    rw [Part.modEng_relays]
    exact hr hafter
  · rw [hctl, htu]
    exact fun hentry => (htest ⟨op, hmem, hentry⟩).2

/-- An operation that excludes attempts on stations is due in no loop with an attempt, but in TEST. -/
theorem Part.Does.attempt_none (h : p.Does l op) (hcalm : ¬ op.calm) (hs : (p.eng l).ctl.state ≠ .test) :
    (p.eng l).xu.attempt = none := by
  rw [Option.eq_none_iff_forall_not_mem]
  intro a ha
  obtain ⟨-, hattempt⟩ := (h.ordered.loops l).attempts
  obtain ⟨htest, -⟩ := hattempt a ha
  by_cases hkind : a.kind = .test
  · exact hs (htest hkind)
  · exact hcalm (h.doing.alone a ha hkind)

/-- Behind an operation of a turn stand calm operations for no station, in RUNNING. -/
theorem Part.Does.plain_behind (h : p.Does l op) (hturn : op.ofTurn = true) (hs : (p.eng l).ctl.state = .running) :
    ∀ y ∈ (p.eng l).sched, y.plain := by
  intro y hy
  obtain ⟨hstation, hno⟩ := SchedOp.ofTurn_behind hturn (h.doing.before y hy)
  obtain ⟨-, hscan⟩ := h.doing.turn hs hturn
  refine ⟨SchedOp.calm_of_running ((h.ordered.loops l).held y hy) hs hno (hscan y hy), hstation⟩

/-- Behind an operation that leads to another loop state stand plain operations. -/
theorem Part.Does.plain_of_changesState (h : p.Does l op) (hc : op.changesState = true) :
    ∀ y ∈ (p.eng l).sched, y.plain :=
  fun y hy => SchedOp.mayPrecede_of_changesState hc (h.doing.before y hy)

theorem Engine.Doing.congr {e e' : Engine} (h : e.Doing op) (he : e.SameWork e') : e'.Doing op where
  holds := (LoopControl.mayHold_congr he.state he.validated).trans h.holds
  before := by
    rw [he.sched]
    exact h.before
  begun := by
    rw [he.sched]
    exact h.begun
  turn := by
    rw [he.sched, he.state, he.turn]
    exact h.turn
  scan := by
    rw [he.sched, he.state]
    exact h.scan
  rollDone := by
    rw [he.rollList]
    exact h.rollDone
  test hentry := he.attempt_none (h.test hentry)
  alone a ha hkind := by
    obtain ⟨b, hb, hb', -⟩ := he.attempt a ha
    exact h.alone b hb (hb' ▸ hkind)

/-! ### Operations for one station -/

/-- A calm operation for station `i` or for none. -/
def SchedOp.worksFor (i : StationIx) (op : SchedOp) : Prop := op.calm ∧ ∀ j ∈ op.station, j = i

theorem SchedOp.worksFor_of_plain (h : op.plain) : op.worksFor i :=
  ⟨h.1, fun j hj => by
    rw [h.2] at hj
    exact absurd hj (by simp)⟩

theorem SchedOp.plain_writeStationHalf (i : StationIx) : (SchedOp.writeStationHalf i).plain := ⟨rfl, rfl⟩

theorem SchedOp.plain_writeLoopHalf : SchedOp.writeLoopHalf.plain := ⟨rfl, rfl⟩

theorem SchedOp.plain_raise (c : Cause) : (SchedOp.raise c).plain := ⟨rfl, rfl⟩

theorem SchedOp.plain_raiseRetimeRefused : SchedOp.raiseRetimeRefused.plain := ⟨rfl, rfl⟩

theorem completionCauses_plain {notify : Bool} {o : RecordOutcome} : ∀ x ∈ completionCauses notify o, x.plain := by
  unfold completionCauses
  split
  · split
    · exact List.forall_mem_singleton.mpr (SchedOp.plain_raise _)
    · exact fun x hx => absurd hx List.not_mem_nil
  · exact List.forall_mem_singleton.mpr (SchedOp.plain_raise _)

/-- The writes and causes of a completion are calm, and its DONE write alone is for the station. -/
theorem completionOps_worksFor {k : RecordIx} {notify : Bool} {o : RecordOutcome} {bs : List Byte} {f : SeqFlip}
    {a : AfterRecord} : ∀ x ∈ completionOps i k notify o bs f a, x.worksFor i := by
  unfold completionOps
  rw [List.forall_mem_append, List.forall_mem_append]
  refine ⟨⟨?_, ?_⟩, fun x hx => SchedOp.worksFor_of_plain (completionCauses_plain x hx)⟩
  · split
    · exact fun x hx => absurd hx List.not_mem_nil
    · exact List.forall_mem_singleton.mpr (SchedOp.worksFor_of_plain ⟨rfl, rfl⟩)
  · rw [List.forall_mem_cons, List.forall_mem_cons, List.forall_mem_singleton]
    exact ⟨SchedOp.worksFor_of_plain ⟨rfl, rfl⟩, ⟨rfl, fun j hj => (Option.some.inj hj).symm⟩,
      SchedOp.worksFor_of_plain ⟨rfl, rfl⟩⟩

theorem Part.completionOf_worksFor {o : RecordOutcome} {bs : List Byte} {f : SeqFlip} {a : AfterRecord} :
    ∀ x ∈ p.completionOf i o bs f a, x.worksFor i := by
  unfold Part.completionOf
  split
  · exact completionOps_worksFor
  · exact fun x hx => absurd hx List.not_mem_nil

theorem trapOps_plain {b : Bool} : ∀ x ∈ trapOps b, x.plain := by
  unfold trapOps
  split
  · exact List.forall_mem_singleton.mpr (SchedOp.plain_raise _)
  · exact fun x hx => absurd hx List.not_mem_nil

theorem SchedOp.owned_of_worksFor (h : ∀ x ∈ ops, x.worksFor i)
    (hi : (p.ctx i).owner = some l ∧ p.entryless i) :
    ∀ x ∈ ops, ∀ j ∈ x.station, (p.ctx j).owner = some l ∧ (x.afterRelease = true → p.entryless j) := by
  intro x hx j hj
  obtain ⟨-, hstation⟩ := h x hx
  rw [hstation j hj]
  exact ⟨hi.1, fun _ => hi.2⟩

/-! ### What goes on in front -/

/-- One operation of a turn, where one of the turn is carried out. -/
theorem Engine.Doing.mayRun_ofTurn {x : SchedOp} (h : (q.eng l).Doing op) (hop : op.ofTurn = true) (hx : x.ofTurn = true)
    (howned : ∀ j ∈ x.station, (q.ctx j).owner = some l ∧ (x.afterRelease = true → q.entryless j)) :
    q.MayRun l [x] where
  held := List.forall_mem_singleton.mpr (SchedOp.mayHold_of_ofTurn h.holds hop hx)
  follows := List.pairwise_singleton ..
  steps := List.isChain_singleton ..
  owned := List.forall_mem_singleton.mpr howned
  turn hs _ := ⟨(h.turn hs hop).1, List.forall_mem_singleton.mpr (SchedOp.ofScan_of_ofTurn hx)⟩
  rollEnd hmem := by
    rw [← List.mem_singleton.mp hmem] at hx
    exact absurd hx (by decide)
  test := by
    rintro ⟨y, hy, hentry⟩
    rw [List.mem_singleton.mp hy, SchedOp.ofTestEntry_of_ofTurn hx] at hentry
    exact absurd hentry Bool.false_ne_true
  alone a ha hkind := absurd (h.alone a ha hkind) (SchedOp.not_calm_of_ofTurn hop)

/-- The return to owner none, where the station's judgement is carried out. -/
theorem Engine.Doing.mayRun_disown (h : (q.eng l).Doing (.judge i)) (hi : (q.ctx i).owner = some l ∧ q.entryless i) :
    q.MayRun l [.disown i] where
  held := List.forall_mem_singleton.mpr (SchedOp.mayHold_of_ofScan h.holds rfl rfl)
  follows := List.pairwise_singleton ..
  steps := List.isChain_singleton ..
  owned := List.forall_mem_singleton.mpr fun j hj => by
    rw [← Option.some.inj hj]
    exact ⟨hi.1, fun _ => hi.2⟩
  turn := by
    rintro - ⟨y, hy, ht⟩
    rw [List.mem_singleton.mp hy] at ht
    exact absurd ht Bool.false_ne_true
  rollEnd hmem := absurd (List.mem_singleton.mp hmem) (by simp)
  test := by
    rintro ⟨y, hy, hentry⟩
    rw [List.mem_singleton.mp hy] at hentry
    exact absurd hentry Bool.false_ne_true
  alone a ha hkind := absurd (h.alone a ha hkind) (SchedOp.not_calm_of_ofScan rfl)

/-- Only behind a mark does the procedure go on with the beginning of a step. -/
theorem Engine.Doing.headPlaced {e : Engine} (h : e.Doing op) (hmark : op ≠ .mark) : e.headPlaced := by
  intro y hy
  rw [← Bool.not_eq_true]
  exact fun hb => hmark (h.begun y hy hb)

/-- Calm operations for stations of the loop go on. -/
theorem Part.Ordered.goOn_calm (h : q.Ordered) (hn : (q.eng l).headPlaced) (hcalm : ∀ x ∈ ops, x.calm)
    (howned : ∀ x ∈ ops, ∀ j ∈ x.station, (q.ctx j).owner = some l ∧ (x.afterRelease = true → q.entryless j)) :
    (q.pushFront l ops).Ordered :=
  h.pushFront (h.mayRun.calm_append hcalm howned fun y hy hb =>
    absurd hb (by rw [hn y hy]; exact Bool.false_ne_true))

theorem Part.Ordered.goOn_plain (h : q.Ordered) (hn : (q.eng l).headPlaced) (hplain : ∀ x ∈ ops, x.plain) :
    (q.pushFront l ops).Ordered :=
  h.goOn_calm hn (fun x hx => (hplain x hx).1) fun x hx j hj => by
    rw [(hplain x hx).2] at hj
    exact absurd hj (by simp)

/-- A turn goes on: calm operations for its station, and one operation of the turn. -/
theorem Part.Ordered.goOn_turn {x : SchedOp} (h : q.Ordered) (hd : (q.eng l).Doing op) (hop : op.ofTurn = true)
    (hx : x.ofTurn = true) (hcalm : ∀ x ∈ ops, x.calm)
    (howned : ∀ x ∈ ops, ∀ j ∈ x.station, (q.ctx j).owner = some l ∧ (x.afterRelease = true → q.entryless j))
    (hxo : ∀ j ∈ x.station, (q.ctx j).owner = some l ∧ (x.afterRelease = true → q.entryless j)) :
    (q.pushFront l (ops ++ [x])).Ordered := by
  have hmark : op ≠ .mark := fun h => by
    rw [h] at hop
    exact absurd hop (by decide)
  have hnot : ∀ y ∈ (q.eng l).sched.head?, y.beginsStep = true → [x] = [] ∨ [x].getLast? = some .mark :=
    fun y hy hb => absurd hb (by rw [hd.headPlaced hmark y hy]; exact Bool.false_ne_true)
  have hcat : q.MayRun l ([x] ++ (q.eng l).sched) :=
    (hd.mayRun_ofTurn hop hx hxo).append h.mayRun
      (List.forall_mem_singleton.mpr fun y hy => by
        rw [SchedOp.mayPrecede_of_ofTurn hx, ← SchedOp.mayPrecede_of_ofTurn hop]
        exact hd.before y hy)
      hnot (fun hs _ => (hd.turn hs hop).2)
      fun _ _ => List.forall_mem_singleton.mpr (SchedOp.ofScan_of_ofTurn hx)
  refine h.pushFront ?_
  rw [List.append_assoc]
  refine hcat.calm_append hcalm howned fun y hy hb => ?_
  cases hy
  exact absurd hb (by rw [SchedOp.beginsStep_of_ofTurn hx]; exact Bool.false_ne_true)

/-- A judgement of the scan goes on: calm operations for its station, and its return to owner none. -/
theorem Part.Ordered.goOn_disown (h : q.Ordered) (hd : (q.eng l).Doing (.judge i))
    (hi : (q.ctx i).owner = some l ∧ q.entryless i) (hfor : ∀ x ∈ ops, x.worksFor i) :
    (q.pushFront l (ops ++ [.disown i])).Ordered := by
  have hnot : ∀ y ∈ (q.eng l).sched.head?, y.beginsStep = true →
      [SchedOp.disown i] = [] ∨ [SchedOp.disown i].getLast? = some .mark :=
    fun y hy hb => absurd hb (by rw [hd.headPlaced (by simp) y hy]; exact Bool.false_ne_true)
  have hcat : q.MayRun l ([.disown i] ++ (q.eng l).sched) := by
    refine (hd.mayRun_disown hi).append h.mayRun ?_ hnot ?_ ?_
    · exact List.forall_mem_singleton.mpr fun y hy =>
        SchedOp.mayPrecede_of_ofScan rfl (Option.isNone_iff_eq_none.mp (hd.before y hy))
    · rintro - ⟨x, hx, ht⟩
      rw [List.mem_singleton.mp hx] at ht
      exact absurd ht Bool.false_ne_true
    · rintro hs ⟨y, hy, ht⟩
      exact absurd ht (by rw [hd.scan hs rfl y hy]; exact Bool.false_ne_true)
  refine h.pushFront ?_
  rw [List.append_assoc]
  refine hcat.calm_append (fun x hx => (hfor x hx).1) (SchedOp.owned_of_worksFor hfor hi) fun y hy hb => ?_
  cases hy
  exact absurd hb Bool.false_ne_true

end

end Sys2Proof.Machine
end

