-- ==== Sys2Proof/Proofs/ScanOrder.lean ====
section
/-!
The judgements of a roster scan keep the order of the work (R42 to R52, R98).
-/
namespace Sys2Proof.Machine

open Sys2Proof

section
variable {q : Part} {l : LoopId} {i : StationIx} {follow : List SchedOp}

/-! ### Settlements and completions in front of the procedure -/

/-- A record is settled, with plain operations after it. -/
theorem Part.Ordered.settleRecord {o : RecordOutcome} {a : AfterRecord} (h : q.Ordered) (hn : (q.eng l).headPlaced)
    (ho : (q.ctx i).owner = some l) (hplain : ∀ x ∈ follow, x.plain) :
    (q.settleRecord l i o a follow).Ordered := by
  have hfor : ∀ x ∈ q.completionOf i o [] .none a ++ follow, x.worksFor i :=
    List.forall_mem_append.mpr ⟨Part.completionOf_worksFor, fun x hx => SchedOp.worksFor_of_plain (hplain x hx)⟩
  exact h.releaseRelay.goOn_calm hn (fun x hx => (hfor x hx).1)
    (SchedOp.owned_of_worksFor hfor ⟨ho, Part.entryless_releaseRelay i⟩)

/-- A station is halted, its record settled. -/
theorem Part.Ordered.haltStation {r : ReasonCode} (h : q.Ordered) (hn : (q.eng l).headPlaced)
    (ho : (q.ctx i).owner = some l) : (q.haltStation l i r).Ordered := by
  unfold Part.haltStation
  split
  · exact h.settleRecord hn ho (List.forall_mem_singleton.mpr (SchedOp.plain_raise _))
  · refine Part.Ordered.goOn_plain ?_ hn ?_
    · refine h.releaseRelay.modCtx_kept ?_
      unfold Context.halt
      split
      · exact .refl _
      · exact ⟨rfl, rfl, rfl, fun hs => absurd hs (by simp)⟩
    · exact List.forall_mem_cons.mpr
        ⟨SchedOp.plain_writeStationHalf i, List.forall_mem_singleton.mpr (SchedOp.plain_raise _)⟩

/-! ### The judgements -/

/-- A station with no owner, or with no record in hand, becomes a new one of the loop. -/
theorem Part.Ordered.newContext {c : Context} (h : q.Ordered)
    (hi : (q.ctx i).owner = none ∨ ((q.ctx i).owner = some l ∧ (q.ctx i).inHand = none)) (ho : c.owner = some l)
    (hhand : c.inHand = none) : (q.modCtx i fun _ => c).Ordered := by
  rcases hi with hnone | ⟨howner, hnone⟩
  · exact h.claim hnone hhand
  · exact h.modCtx (ho.trans howner.symm) (.inl (h.entryless_of_inHand hnone)) fun _ => hhand

theorem Context.halt_owner (c : Context) (r : ReasonCode) : (c.halt r).owner = c.owner := by
  unfold Context.halt
  split <;> rfl

theorem Context.halt_inHand (c : Context) (r : ReasonCode) : (c.halt r).inHand = c.inHand := by
  unfold Context.halt
  split <;> rfl

theorem Part.Ordered.admitStation {x : StationHost} (h : q.Ordered) (hd : (q.eng l).Doing (.judge i))
    (hi : (q.ctx i).owner = none ∨ ((q.ctx i).owner = some l ∧ (q.ctx i).inHand = none)) :
    (q.admitStation l i x).Ordered := by
  unfold Part.admitStation
  split
  · refine Part.Ordered.goOn_plain (h.newContext hi ?_ ?_) (hd.headPlaced (by simp)) ?_
    · rw [Context.halt_owner]
      rfl
    · rw [Context.halt_inHand]
      rfl
    · exact List.forall_mem_cons.mpr
        ⟨SchedOp.plain_writeStationHalf i, List.forall_mem_singleton.mpr (SchedOp.plain_raise _)⟩
  · exact Part.Ordered.goOn_plain (h.newContext hi rfl rfl) (hd.headPlaced (by simp))
      (List.forall_mem_singleton.mpr (SchedOp.plain_writeStationHalf i))

theorem Part.Ordered.judgeCandidate {x : StationHost} (h : q.Ordered) (hd : (q.eng l).Doing (.judge i))
    (hi : (q.ctx i).owner = none) : (q.judgeCandidate l i x).Ordered := by
  unfold Part.judgeCandidate
  split
  · exact h.admitStation hd (.inl hi)
  · exact Part.Ordered.goOn_plain (h.newContext (.inl hi) rfl rfl) (hd.headPlaced (by simp))
      (List.forall_mem_cons.mpr
        ⟨SchedOp.plain_writeStationHalf i, List.forall_mem_singleton.mpr (SchedOp.plain_raise _)⟩)

theorem Part.Ordered.reexamine {x : StationHost} (h : q.Ordered) (hd : (q.eng l).Doing (.judge i))
    (ho : (q.ctx i).owner = some l) (hs : (q.ctx i).state = .rejected) : (q.reexamine l i x).Ordered := by
  have hhand := h.rejected i hs
  unfold Part.reexamine
  split
  · exact h.admitStation hd (.inr ⟨ho, hhand⟩)
  · rename_i r _
    have hq := h.modCtx (i := i) (f := fun c => { c with binding := x.binding, fresh := x.fresh, reason := r }) rfl
      (.inl (h.entryless_of_inHand hhand)) fun _ => hhand
    dsimp only
    split
    · exact hq
    · exact hq.goOn_plain (hd.headPlaced (by simp))
        (List.forall_mem_singleton.mpr (SchedOp.plain_writeStationHalf i))

theorem Part.Ordered.disableStation (h : q.Ordered) (hd : (q.eng l).Doing (.judge i))
    (ho : (q.ctx i).owner = some l) : (q.disableStation l i).Ordered := by
  unfold Part.disableStation
  split
  · exact h.releaseRelay.goOn_disown hd ⟨ho, Part.entryless_releaseRelay i⟩ Part.completionOf_worksFor
  · rename_i hhand
    refine Part.Ordered.goOn_disown (ops := [.writeStationHalf i]) ?_ hd ?_ ?_
    · exact h.releaseRelay.modCtx_kept ⟨rfl, rfl, rfl, fun hs => absurd hs (by simp)⟩
    · refine ⟨?_, Part.entryless_releaseRelay i⟩
      rw [Part.ctx_modCtx]
      exact ho
    · exact List.forall_mem_singleton.mpr (SchedOp.worksFor_of_plain (SchedOp.plain_writeStationHalf i))

theorem Part.Ordered.rejectStation (h : q.Ordered) (hd : (q.eng l).Doing (.judge i))
    (ho : (q.ctx i).owner = some l) : (q.rejectStation l i).Ordered := by
  unfold Part.rejectStation
  split
  · exact h.settleRecord (hd.headPlaced (by simp)) ho (List.forall_mem_singleton.mpr (SchedOp.plain_raise _))
  · rename_i hhand
    refine Part.Ordered.goOn_plain ?_ (hd.headPlaced (by simp)) ?_
    · exact h.releaseRelay.modCtx rfl (.inr ⟨rfl, rfl⟩) fun _ => hhand
    · exact List.forall_mem_cons.mpr
        ⟨SchedOp.plain_writeStationHalf i, List.forall_mem_singleton.mpr (SchedOp.plain_raise _)⟩

theorem Part.Ordered.judgeAdmitted {x : StationHost} (h : q.Ordered) (hd : (q.eng l).Doing (.judge i))
    (ho : (q.ctx i).owner = some l) : (q.judgeAdmitted l i x).Ordered := by
  have hq : (q.modCtx i fun c => Context.clip x.retryLimit { c with fresh := x.fresh }).Ordered := by
    refine h.modCtx_kept ?_
    unfold Context.clip
    split <;> exact ⟨rfl, rfl, rfl, id⟩
  have hoq : ((q.modCtx i fun c => Context.clip x.retryLimit { c with fresh := x.fresh }).ctx i).owner = some l := by
    rw [Part.ctx_modCtx]
    unfold Context.clip
    split <;> exact ho
  unfold Part.judgeAdmitted
  dsimp only
  split
  · exact h.rejectStation hd ho
  · split
    · split
      · exact Part.Ordered.goOn_plain
          (hq.modCtx_kept ⟨rfl, rfl, rfl, fun hs => absurd hs (by simp [Context.release])⟩) (hd.headPlaced (by simp))
          (List.forall_mem_singleton.mpr (SchedOp.plain_writeStationHalf i))
      · exact hq
    · split
      · exact hq.haltStation (hd.headPlaced (by simp)) hoq
      · split
        · exact hq
        · exact hq.goOn_plain (hd.headPlaced (by simp))
            (List.forall_mem_singleton.mpr (SchedOp.plain_writeStationHalf i))

theorem Part.Does.judgeEntry (h : q.Does l (.judge i)) : (q.judgeEntry l i).Ordered := by
  have hsame : (q.eng l).SameWork { q.eng l with resetSet := (q.eng l).resetSet.filter fun j => j != i } :=
    .of_eq rfl rfl rfl rfl rfl rfl rfl
  have hq : (q.modEng l fun e => { e with resetSet := e.resetSet.filter fun j => j != i }).Ordered :=
    h.ordered.modEng_same hsame
  have hd : ((q.modEng l fun e => { e with resetSet := e.resetSet.filter fun j => j != i }).eng l).Doing (.judge i) := by
    rw [Part.eng_modEng]
    exact h.doing.congr hsame
  unfold Part.judgeEntry
  dsimp only
  split
  · rename_i o ho
    split
    · rename_i heq
      rw [heq, ← Part.modEng_ctx l (fun e => { e with resetSet := e.resetSet.filter fun j => j != i })] at ho
      split
      · exact hq.disableStation hd ho
      · split
        · rename_i hs
          rw [← Part.modEng_ctx l (fun e => { e with resetSet := e.resetSet.filter fun j => j != i })] at hs
          exact hq.reexamine hd ho hs
        · exact hq.judgeAdmitted hd ho
    · exact hq
  · rename_i ho
    rw [← Part.modEng_ctx l (fun e => { e with resetSet := e.resetSet.filter fun j => j != i })] at ho
    split
    · exact hq.judgeCandidate hd ho
    · split
      · exact hq.goOn_plain (hd.headPlaced (by simp)) (List.forall_mem_singleton.mpr (SchedOp.plain_writeStationHalf i))
      · exact hq

/-- The station that a disable gives up goes back to owner none: no other work of the loop is for it. -/
theorem Part.Does.disown (h : q.Does l (.disown i)) :
    (q.modCtx i fun c => { c with owner := none, state := .disabled }).Ordered := by
  obtain ⟨ho, hfree⟩ := h.owned i rfl
  have hentryless := hfree rfl
  have hne : ∀ j m, (q.ctx j).owner = some m → m = l ∧ j = i ∨
      ((q.modCtx i fun c => { c with owner := none, state := .disabled }).ctx j).owner = some m := by
    intro j m hj
    by_cases hji : j = i
    · subst hji
      exact .inl ⟨Option.some.inj (hj.symm.trans ho), rfl⟩
    · rw [Part.ctx_modCtx_ne i j _ q hji]
      exact .inr hj
  refine h.ordered.of_work (l := l) ?_ ?_ ?_ ?_ ?_ (fun _ _ => id) (fun hempty _ => hempty) fun ht => .inl ?_
  · intro a r hr
    have hra : r.station ≠ i := hentryless a r hr
    rw [Part.ctx_modCtx_ne i r.station _ q hra]
    exact h.ordered.entries a r hr
  · exact fun j => Part.ctx_modCtx_cases (P := fun _ c => c.state = .rejected → c.inHand = none)
      (fun hs => absurd hs (by simp)) (fun j _ => h.ordered.rejected j) j
  · refine (h.ordered.loops l).of_uses ?_ (fun j hj => ?_) fun hempty _ => hempty
    · rw [Part.modCtx_eng]
      exact .refl _
    · refine ⟨?_, id⟩
      rcases hne j l ((h.ordered.loops l).owner_of_uses hj) with ⟨-, rfl⟩ | hkept
      · rcases hj with ⟨y, hy, hstation⟩ | ⟨hroll, -⟩ | ⟨a, ha, hkind, -⟩
        · have hbefore : (y.station != some j) = true := h.doing.before y hy
          exact absurd hstation (bne_iff_ne.mp hbefore)
        · have hheld := h.doing.holds
          unfold LoopControl.mayHold at hheld
          rw [hroll] at hheld
          exact absurd hheld Bool.false_ne_true
        · exact absurd (h.doing.alone a ha hkind) (SchedOp.not_calm_of_ofScan rfl)
      · exact hkept
  · rw [Part.modCtx_eng]
    exact .refl _
  · intro j hj
    rcases hne j _ hj with ⟨hl, -⟩ | hkept
    · exact absurd hl (by simp)
    · exact hkept
  · rwa [Part.modCtx_eng] at ht

end

end Sys2Proof.Machine
end

