-- ==== Sys2Proof/Proofs/TurnOrder.lean ====
section
/-!
The operations of a turn keep the order of the work: the fetch, the fit test, the claim of a relay entry and the attempt
(R33, R34, R64 to R71, R98, R99).
-/
namespace Sys2Proof.Machine

open Sys2Proof

/-! ### Changes that the work does not depend on -/

section
variable {e : Engine} {now : Nat}

theorem Engine.SameWork.dropHeld {x : TxPurpose} : e.SameWork (e.dropHeld x) := by
  unfold Engine.dropHeld
  split
  · split
    · exact .of_eq rfl rfl rfl rfl rfl rfl rfl
    · exact .refl e
  · exact .refl e

theorem Engine.SameWork.beginSend : e.SameWork (e.beginSend now) := by
  unfold Engine.beginSend
  split
  · exact .refl e
  · exact .of_eq rfl rfl rfl rfl rfl rfl rfl

theorem Engine.SameWork.handFrame {f : TxFrame} : e.SameWork (e.handFrame now f) := by
  unfold Engine.handFrame
  split
  · dsimp only
    split
    · refine Engine.SameWork.trans ?_ .beginSend
      exact .of_eq rfl rfl rfl rfl rfl rfl rfl
    · exact .of_eq rfl rfl rfl rfl rfl rfl rfl
  · exact .refl e

theorem Engine.SameWork.countFrameError : e.SameWork e.countFrameError := by
  unfold Engine.countFrameError
  dsimp only
  split <;> exact .of_eq rfl rfl rfl rfl rfl rfl rfl

theorem Engine.SameWork.turnWrites : e.SameWork { e with cyc := e.cyc.turnWrites } :=
  .of_eq rfl rfl rfl rfl (Option.isSome_map ..) rfl rfl

end

section
variable {q q' : Part} {l : LoopId} {op : SchedOp} {i : StationIx} {ops : List SchedOp}

theorem Part.Ordered.followWindows (h : q.Ordered) : (q.followWindows l).Ordered := by
  unfold Part.followWindows
  dsimp only
  split
  · exact h.modEng_same (.of_eq rfl rfl rfl rfl rfl rfl rfl)
  · exact h

/-- What is due is due still after a change that the work does not depend on. -/
theorem Part.Does.modEng_same {f : Engine → Engine} (h : q.Does l op) (he : (q.eng l).SameWork (f (q.eng l))) :
    (q.modEng l f).Does l op where
  ordered := h.ordered.modEng_same he
  doing := by
    rw [Part.eng_modEng]
    exact h.doing.congr he
  owned := by
    unfold Part.entryless
    rw [Part.modEng_relays]
    simp only [Part.modEng_ctx]
    exact h.owned
  copy := by
    rw [Part.modEng_testUnit, Part.eng_modEng, he.validated]
    exact h.copy

theorem Part.Does.turnWrites (h : q.Does l op) : (q.turnWrites l).Does l op :=
  h.modEng_same .turnWrites

/-! ### Ways on -/

/-- A turn goes on with one operation of its own. -/
theorem Part.Does.goOn_single {x : SchedOp} (h : q.Does l op) (hop : op.ofTurn = true) (hx : x.ofTurn = true)
    (howned : ∀ j ∈ x.station, (q.ctx j).owner = some l ∧ (x.afterRelease = true → q.entryless j)) :
    (q.pushFront l [x]).Ordered :=
  h.ordered.goOn_turn (ops := []) h.doing hop hx (fun _ hy => absurd hy List.not_mem_nil)
    (fun _ hy => absurd hy List.not_mem_nil) howned

/-- A turn ends. -/
theorem Part.Does.goOn_endTurn (h : q.Does l op) (hop : op.ofTurn = true) : (q.pushFront l [.endTurn]).Ordered :=
  h.goOn_single hop rfl fun j hj => absurd hj (by simp [SchedOp.station])

/-- A turn makes calm operations for one station, and ends. -/
theorem Part.Ordered.goOn_ending (h : q.Ordered) (hd : (q.eng l).Doing op) (hop : op.ofTurn = true)
    (hi : (q.ctx i).owner = some l ∧ q.entryless i) (hfor : ∀ x ∈ ops, x.worksFor i) :
    (q.pushFront l (ops ++ [.endTurn])).Ordered :=
  h.goOn_turn hd hop rfl (fun x hx => (hfor x hx).1) (SchedOp.owned_of_worksFor hfor hi)
    fun j hj => absurd hj (by simp [SchedOp.station])

theorem SchedOp.calm_of_plain {P : List SchedOp} (h : ∀ x ∈ P, x.plain) : ∀ x ∈ P, x.calm := fun x hx => (h x hx).1

theorem SchedOp.owned_of_plain (h : ∀ x ∈ ops, x.plain) :
    ∀ x ∈ ops, ∀ j ∈ x.station, (q.ctx j).owner = some l ∧ (x.afterRelease = true → q.entryless j) := by
  intro x hx j hj
  rw [(h x hx).2] at hj
  exact absurd hj (by simp)

/-! ### The fetch -/

theorem Part.Does.followLink {link : RecordIx} (h : q.Does l (.readLink i)) : (q.followLink l i link).Ordered := by
  obtain ⟨ho, hfree⟩ := h.owned i rfl
  unfold Part.followLink
  split
  · exact h.ordered
  · split
    · exact h.goOn_endTurn rfl
    · split
      · refine h.goOn_single rfl rfl fun j hj => ?_
        rw [← Option.some.inj hj]
        exact ⟨ho, fun _ => hfree rfl⟩
      · refine (h.turnWrites.goOn_endTurn rfl).haltStation ?_ ?_
        · unfold Part.pushFront
          rw [Part.eng_modEng]
          intro y hy
          cases hy
          rfl
        · unfold Part.pushFront Part.turnWrites
          rw [Part.modEng_ctx, Part.modEng_ctx]
          exact ho

theorem Part.Does.seeRecord {k : RecordIx} {data : List Byte} (h : q.Does l (.readRecord i k)) :
    (q.seeRecord l i k data).Ordered := by
  obtain ⟨ho, hfree⟩ := h.owned i rfl
  unfold Part.seeRecord
  split
  · exact h.ordered
  · split
    · refine h.goOn_single rfl rfl fun j hj => ?_
      rw [← Option.some.inj hj]
      exact ⟨ho, fun _ => hfree rfl⟩
    · exact h.goOn_endTurn rfl

theorem Part.Does.recordTaken {k : RecordIx} {copy c : RecordCopy} (h : q.Does l (.writeActive i k c)) :
    (q.recordTaken l i k copy).Ordered := by
  obtain ⟨ho, hfree⟩ := h.owned i rfl
  have hq : (q.modCtx i (Context.take k copy)).Ordered :=
    h.ordered.modCtx rfl (.inl (hfree rfl)) fun hs => absurd hs (by simp [Context.take])
  have hoq : ((q.modCtx i (Context.take k copy)).ctx i).owner = some l := by
    rw [Part.ctx_modCtx]
    exact ho
  have hplain : ∀ x ∈ [SchedOp.writeStationHalf i], x.plain :=
    List.forall_mem_singleton.mpr (SchedOp.plain_writeStationHalf i)
  unfold Part.recordTaken
  dsimp only
  split
  · refine hq.goOn_turn (ops := [.writeStationHalf i]) (x := .takeCheck i) h.doing rfl rfl
      (SchedOp.calm_of_plain hplain) (SchedOp.owned_of_plain hplain) fun j hj => ?_
    rw [← Option.some.inj hj]
    exact ⟨hoq, fun _ => hfree rfl⟩
  · exact hq

/-- The DONE write of a record changes the context of its station alone, for which no entry is left. -/
theorem Part.Does.complete {k : RecordIx} {f : SeqFlip} {a : AfterRecord} (h : q.Does l (.writeDone i k f a)) :
    (q.modCtx i (Context.complete k f a)).Ordered := by
  obtain ⟨-, hfree⟩ := h.owned i rfl
  have hflip : ∀ c : Context, (c.flip f).owner = c.owner ∧ (c.flip f).inHand = c.inHand := fun c => by
    cases f <;> exact ⟨rfl, rfl⟩
  have hafter : ∀ c : Context, (c.afterRecord a).owner = c.owner ∧ (c.afterRecord a).inHand = c.inHand := fun c => by
    cases a with
    | halted r => exact ⟨Context.halt_owner c r, Context.halt_inHand c r⟩
    | _ => exact ⟨rfl, rfl⟩
  have howner : ∀ c : Context, (c.complete k f a).owner = c.owner := fun c => (hafter _).1.trans (hflip _).1
  have hhand : ∀ c : Context, (c.complete k f a).inHand = none := fun c => (hafter _).2.trans (hflip _).2
  exact h.ordered.modCtx (howner _) (.inl (hfree rfl)) fun _ => hhand _

theorem Part.Does.takeCheck (h : q.Does l (.takeCheck i)) : (q.takeCheck l i).Ordered := by
  obtain ⟨ho, hfree⟩ := h.owned i rfl
  unfold Part.takeCheck
  dsimp only
  split
  · split
    · have hw := h.turnWrites
      obtain ⟨ho', hfree'⟩ := hw.owned i rfl
      exact hw.ordered.goOn_ending hw.doing rfl ⟨ho', hfree' rfl⟩ Part.completionOf_worksFor
    · refine h.goOn_single rfl rfl fun j hj => ?_
      rw [← Option.some.inj hj]
      exact ⟨ho, fun hafter => absurd hafter Bool.false_ne_true⟩
  · exact h.goOn_endTurn rfl

/-! ### Misses and the end of a turn -/

/-- OVERRUN is noted: the work does not depend on it, and its cause is plain. -/
theorem Part.Ordered.noteOverrun (h : q.Ordered) (hd : (q.eng l).Doing op) :
    (q.noteOverrun l).1.Ordered ∧ ((q.noteOverrun l).1.eng l).Doing op ∧
      (∀ i, (q.noteOverrun l).1.ctx i = q.ctx i) ∧ ∀ x ∈ (q.noteOverrun l).2, x.plain := by
  have hsame : (q.eng l).SameWork { q.eng l with
      cyc := { (q.eng l).cyc with overrun := true }
      rep := { (q.eng l).rep with overruns := satInc (q.eng l).rep.overruns } } :=
    .of_eq rfl rfl rfl rfl rfl rfl rfl
  unfold Part.noteOverrun
  split
  · exact ⟨h, hd, fun _ => rfl, fun x hx => absurd hx List.not_mem_nil⟩
  · dsimp only
    refine ⟨h.modEng_same hsame, ?_, fun i => Part.modEng_ctx .., List.forall_mem_singleton.mpr (SchedOp.plain_raise _)⟩
    rw [Part.eng_modEng]
    exact hd.congr hsame

/-- A miss is counted: the record of a STRICT station is completed, its entry released (R67, R68). -/
theorem Part.Does.countMiss (h : q.Does l op) (hop : op.ofTurn = true) (ho : (q.ctx i).owner = some l) :
    (q.countMiss l i).Ordered := by
  have hw := h.turnWrites
  have hq : ((q.turnWrites l).modCtx i fun c => { c with missCount := satInc c.missCount }).Ordered :=
    hw.ordered.modCtx_kept ⟨rfl, rfl, rfl, id⟩
  have hoq : (((q.turnWrites l).modCtx i fun c => { c with missCount := satInc c.missCount }).ctx i).owner = some l := by
    unfold Part.turnWrites
    rw [Part.ctx_modCtx, Part.modEng_ctx]
    exact ho
  obtain ⟨hn, hdn, hctx, hplain⟩ := hq.noteOverrun (op := op) (l := l) hw.doing
  rw [← hctx] at hoq
  unfold Part.countMiss
  dsimp only
  split
  · rw [← List.append_assoc]
    refine hn.releaseRelay.goOn_ending hdn hop ⟨hoq, Part.entryless_releaseRelay i⟩ ?_
    exact List.forall_mem_append.mpr
      ⟨Part.completionOf_worksFor, fun x hx => SchedOp.worksFor_of_plain (hplain x hx)⟩
  · rw [← List.cons_append]
    have hplain' := List.forall_mem_cons.mpr ⟨SchedOp.plain_writeStationHalf i, hplain⟩
    exact hn.goOn_turn hdn hop (x := .endTurn) rfl (SchedOp.calm_of_plain hplain') (SchedOp.owned_of_plain hplain')
      fun j hj => absurd hj (by simp [SchedOp.station])

theorem Part.Does.doesNotFit {b : Bool} (h : q.Does l op) (hop : op.ofTurn = true) (ho : (q.ctx i).owner = some l) :
    (q.doesNotFit l i b).Ordered := by
  unfold Part.doesNotFit
  split
  · exact h.countMiss hop ho
  · exact (h.modEng_same (.of_eq rfl rfl rfl rfl (Option.isSome_map ..) rfl rfl)).goOn_endTurn hop

/-! ### Loops at work on nothing but calm operations -/

/-- A loop whose procedure is calm is in order: its stations, its reports, its roll list and its attempt. -/
theorem Part.LoopOrder.of_calm (hcalm : ∀ x ∈ (q.eng l).sched, x.calm) (howned : q.workOwned l)
    (hreports : ∀ x ∈ (q.eng l).urgent, x.ofReport = true)
    (hroll : (q.eng l).ctl.state = .rollcall → ∀ j ∈ (q.eng l).rollList, (q.ctx j).owner = some l)
    (hattempt : q.attemptPlaced l) : q.LoopOrder l := by
  obtain ⟨hheld, hfollows, hsteps, -, hturn, hend, htest, -⟩ := Part.MayRun.of_calm hcalm howned
  exact ⟨hheld, hfollows, hsteps, hreports, howned, ⟨hturn, hroll, hend, htest⟩, hattempt⟩

/-- A request is handed over for a station of the loop, in a turn or a roll-call in which calm operations wait. -/
theorem Part.Ordered.sendRequest {k : AttemptKind} (h : q.Ordered) (hcalm : ∀ x ∈ (q.eng l).sched, x.calm)
    (ho : (q.ctx i).owner = some l) (hk : k ≠ .test)
    (hplace : (k = .roll ∧ (q.eng l).ctl.state = .rollcall) ∨
      (k ≠ .roll ∧ (q.eng l).ctl.state = .running ∧ (q.eng l).cyc.turn.isSome = true)) :
    (q.sendRequest l k i).Ordered := by
  have hx : (q.modEng l fun e => { e with xu := { state := .sending, attempt := some (q.attemptRecord k i) } }).Ordered := by
    obtain ⟨-, -, -, hreports, howned, ⟨-, hroll, -, -⟩, -⟩ := h.loops l
    refine h.modEng (.of_calm ?_ ?_ ?_ ?_ ⟨?_, ?_⟩) fun ht => .inl ht
    · rw [Part.eng_modEng]
      exact hcalm
    · unfold Part.workOwned Part.entryless
      simp only [Part.eng_modEng, Part.modEng_ctx, Part.modEng_relays]
      exact howned
    · rw [Part.eng_modEng]
      exact hreports
    · simp only [Part.eng_modEng, Part.modEng_ctx]
      exact hroll
    · rw [Part.eng_modEng]
      exact fun hidle => absurd hidle (by simp)
    · simp only [Part.eng_modEng, Part.modEng_ctx]
      intro a ha
      cases ha
      refine ⟨fun ht => absurd ht hk, fun _ => ⟨fun j hj => ?_, hcalm, .inr hplace⟩⟩
      rw [← Option.some.inj hj]
      exact ho
  have hsend := hx.modEng_same (l := l) (f := Engine.handFrame q.now (q.requestFrame k i)) .handFrame
  rwa [Part.modEng_modEng] at hsend

/-- A turn starts an attempt. -/
theorem Part.Ordered.startAttempt {k : AttemptKind} (h : q.Ordered) (hplain : ∀ x ∈ (q.eng l).sched, x.plain)
    (ho : (q.ctx i).owner = some l) (hk : k ≠ .test ∧ k ≠ .roll) (hs : (q.eng l).ctl.state = .running)
    (hturn : (q.eng l).cyc.turn.isSome = true) : (q.startAttempt l k i).Ordered := by
  have hmap : ((q.eng l).cyc.turn.map fun t => { t with stage := .attempt, attempted := true }).isSome =
      (q.eng l).cyc.turn.isSome := Option.isSome_map ..
  refine Part.Ordered.sendRequest (h.modEng_same (.of_eq rfl rfl rfl rfl hmap rfl rfl)) ?_ ?_ hk.1 (.inr ⟨hk.2, ?_, ?_⟩)
  · rw [Part.eng_modEng]
    exact fun x hx => (hplain x hx).1
  · rw [Part.modEng_ctx]
    exact ho
  · rw [Part.eng_modEng]
    exact hs
  · rw [Part.eng_modEng]
    exact hmap.trans hturn

/-! ### The claim of a relay entry -/

theorem Engine.mayAttempt_running {e : Engine} (h : e.mayAttempt = true) : e.ctl.state = .running := by
  unfold Engine.mayAttempt at h
  rw [Bool.and_eq_true_iff, Bool.and_eq_true_iff, beq_iff_eq] at h
  exact h.1.1

/-- A claim puts one entry into a free place of the table. -/
theorem Part.claimRelay_relay {r : RelayEntry} (hc : q.claimRelay r = some q') :
    ∃ e : Fin 8, q' = { q with relays := q.relays.set e (some r) } ∧
      ∀ a : Fin 8, ∀ x ∈ q'.relays[a], x = r ∨ x ∈ q.relays[a] := by
  unfold Part.claimRelay at hc
  split at hc
  · exact absurd hc (by simp)
  · obtain ⟨e, -, rfl⟩ := Option.map_eq_some_iff.mp hc
    refine ⟨e, rfl, fun a x hx => ?_⟩
    have hget : (q.relays.set e (some r))[a] = if e = a then some r else q.relays[a] := by
      show (q.relays.set e.val (some r))[a.val] = _
      rw [Vector.getElem_set]
      simp only [Fin.ext_iff]
      rfl
    rw [hget] at hx
    split at hx
    · exact .inl (Option.some.inj hx).symm
    · exact .inr hx

/-- The claim for a station of the loop keeps the order where calm operations without a station wait, in RUNNING. -/
theorem Part.Ordered.claimFor (h : q.Ordered) (hplain : ∀ x ∈ (q.eng l).sched, x.plain)
    (hs : (q.eng l).ctl.state = .running) (hnone : (q.eng l).xu.attempt = none) (ho : (q.ctx i).owner = some l)
    (hc : q.claimFor l i = some q') : q'.Ordered ∧ q'.eng l = q.eng l ∧ (q'.ctx i).owner = some l := by
  unfold Part.claimFor at hc
  split at hc
  · rename_i j k hj hk
    obtain ⟨e, rfl, hrelays⟩ := Part.claimRelay_relay hc
    refine ⟨⟨?_, h.rejected, fun m => ?_, h.oneTest⟩, rfl, ho⟩
    · intro a r hr
      rcases hrelays a r hr with rfl | hr
      · exact ⟨hk, ho, hj⟩
      · exact h.entries a r hr
    · refine (h.loops m).of_uses (.refl _) (fun n hn => ?_) fun hempty _ => hempty
      have howner := (h.loops m).owner_of_uses hn
      refine ⟨howner, fun hfree a r hr => ?_⟩
      rcases hrelays a r hr with rfl | hr
      · rintro rfl
        obtain rfl : m = l := Option.some.inj (howner.symm.trans ho)
        rcases hn with ⟨y, hy, hstation⟩ | ⟨hroll, -⟩ | ⟨x, hx, -⟩
        · rw [(hplain y hy).2] at hstation
          exact absurd hstation (by simp)
        · exact absurd (hs.symm.trans hroll) (by simp)
        · rw [hnone] at hx
          exact absurd hx (by simp)
      · exact hfree a r hr
  · exact absurd hc (by simp)

theorem Context.nextAttempt_kind (c : Context) : c.nextAttempt ≠ .test ∧ c.nextAttempt ≠ .roll := by
  unfold Context.nextAttempt
  split_ifs <;> exact ⟨by simp, by simp⟩

theorem Part.Does.fitTest (h : q.Does l (.fitTest i)) : (q.fitTest l i).Ordered := by
  obtain ⟨ho, -⟩ := h.owned i rfl
  have hkind := (q.ctx i).nextAttempt_kind
  unfold Part.fitTest
  dsimp only
  split
  · exact h.goOn_endTurn rfl
  · rename_i hm
    rw [Bool.not_eq_true, Bool.or_eq_false_iff, Bool.not_eq_false'] at hm
    have hs := Engine.mayAttempt_running hm.1
    have hplain := h.plain_behind rfl hs
    obtain ⟨hturn, -⟩ := h.doing.turn hs rfl
    split
    · exact h.doesNotFit rfl ho
    · split
      · split
        · rename_i r hr
          have hnone := h.attempt_none (SchedOp.not_calm_of_ofTurn rfl) (by rw [hs]; simp)
          obtain ⟨hq, heng, hor⟩ := h.ordered.claimFor hplain hs hnone ho hr
          refine hq.startAttempt ?_ hor hkind ?_ ?_
          all_goals rw [heng]
          · exact hplain
          · exact hs
          · exact hturn
        · exact h.goOn_endTurn rfl
      · exact h.ordered.startAttempt hplain ho hkind hs hturn

theorem Part.Does.followOnPut (h : q.Does l (.followOn i)) : (q.followOnPut l i).Ordered := by
  obtain ⟨ho, -⟩ := h.owned i rfl
  unfold Part.followOnPut
  dsimp only
  split
  · exact h.goOn_endTurn rfl
  · rename_i hm
    rw [Bool.not_eq_true, Bool.not_eq_false'] at hm
    have hs := Engine.mayAttempt_running hm
    obtain ⟨hturn, -⟩ := h.doing.turn hs rfl
    split
    · exact h.ordered.startAttempt (h.plain_behind rfl hs) ho ⟨by simp, by simp⟩ hs hturn
    · split
      · exact h.goOn_endTurn rfl
      · exact h.doesNotFit rfl ho

/-- The end of a turn leaves no operation of a turn behind it, and no attempt. -/
theorem Part.Does.endTurn (h : q.Does l .endTurn) : (q.endTurn l).Ordered := by
  have hq : ∀ f : CycleScheduler → CycleScheduler, (q.modEng l fun e => { e with cyc := f e.cyc }).Ordered := by
    intro f
    obtain ⟨hheld, hfollows, hsteps, hreports, howned, ⟨-, hroll, hend, htest⟩, ⟨hidle, hattempt⟩⟩ := h.ordered.loops l
    refine h.ordered.modEng ⟨?_, ?_, ?_, ?_, ?_, ⟨?_, ?_, ?_, ?_⟩, ⟨?_, ?_⟩⟩ fun ht => .inl ht
    any_goals unfold Part.workOwned Part.entryless
    all_goals simp only [Part.eng_modEng, Part.modEng_ctx, Part.modEng_relays, Part.modEng_testUnit]
    · exact hheld
    · exact hfollows
    · exact hsteps
    · exact hreports
    · exact howned
    · rintro hs ⟨y, hy, hturn⟩
      exact absurd (h.plain_behind rfl hs y hy).1 (SchedOp.not_calm_of_ofTurn hturn)
    · exact hroll
    · exact hend
    · exact htest
    · exact hidle
    · intro a ha
      obtain ⟨htestKind, hother⟩ := hattempt a ha
      exact ⟨htestKind, fun hne => absurd (h.doing.alone a ha hne) (SchedOp.not_calm_of_ofTurn rfl)⟩
  unfold Part.endTurn
  split
  · exact h.ordered
  · rename_i t _
    refine Part.Ordered.followWindows ?_
    exact hq fun c =>
      if t.periodic then { c with turn := none }
      else if t.closing then { c with turn := none, pointer := t.station, phase := .closed }
      else { c with turn := none, pointer := t.station + 1
                    visited := if t.attempted then c.visited else t.station :: c.visited }

end

end Sys2Proof.Machine
end

