-- ==== Sys2Proof/Proofs/StateOrder.lean ====
section
/-!
The entries to the loop states that follow a procedure come to its end keep the order of the work (R126, R127, R129,
R130, R137, R139, R142, R151).
-/
namespace Sys2Proof.Machine

open Sys2Proof

section
variable {q : Part} {l : LoopId} {op : SchedOp} {i : StationIx} {ops follow : List SchedOp}

theorem SchedOp.forall_plain_nil : ∀ x ∈ ([] : List SchedOp), x.plain := fun _ hx => absurd hx List.not_mem_nil

/-- Another loop state is entered with calm operations alone waiting and no attempt. -/
theorem Part.Ordered.enter {f : Engine → Engine} (h : q.Ordered) (hcalm : ∀ x ∈ (q.eng l).sched, x.calm)
    (hsched : (f (q.eng l)).sched = (q.eng l).sched) (hurgent : (f (q.eng l)).urgent = (q.eng l).urgent)
    (hnone : (f (q.eng l)).xu.attempt = none)
    (ht : (f (q.eng l)).ctl.state = .test → (q.eng l).ctl.state = .test ∨ (q.eng (otherLoop l)).ctl.state ≠ .test)
    (hroll : (f (q.eng l)).ctl.state = .rollcall → ∀ j ∈ (f (q.eng l)).rollList, (q.ctx j).owner = some l) :
    (q.modEng l f).Ordered := by
  obtain ⟨-, -, -, hreports, howned, -, -⟩ := h.loops l
  refine h.modEng (.of_calm ?_ ?_ ?_ ?_ ⟨?_, ?_⟩) ht
  · rw [Part.eng_modEng, hsched]
    exact hcalm
  · unfold Part.workOwned Part.entryless
    simp only [Part.eng_modEng, Part.modEng_ctx, Part.modEng_relays, hsched]
    exact howned
  · rw [Part.eng_modEng, hurgent]
    exact hreports
  · simp only [Part.eng_modEng, Part.modEng_ctx]
    exact hroll
  · rw [Part.eng_modEng]
    exact fun _ => hnone
  · rw [Part.eng_modEng, hnone]
    exact fun a ha => absurd ha (by simp)

/-! ### OFF -/

theorem Part.Ordered.dropCatch (h : q.Ordered) :
    (q.dropCatch l).Ordered ∧ (q.eng l).SameWork ((q.dropCatch l).eng l) := by
  have hdropped := (h.orphan (r := .catcher l)).modEng_same (l := l)
    (f := fun e => { e with catcher := { e.catcher with
      buffer := none, walk := none, drops := satInc e.catcher.drops } }) (.of_eq rfl rfl rfl rfl rfl rfl rfl)
  have hsame : (q.eng l).SameWork (((q.orphan (.catcher l)).modEng l fun e => { e with catcher := { e.catcher with
      buffer := none, walk := none, drops := satInc e.catcher.drops } }).eng l) := by
    rw [Part.eng_modEng, Part.orphan_eng]
    exact .of_eq rfl rfl rfl rfl rfl rfl rfl
  unfold Part.dropCatch
  split
  · exact ⟨h, .refl _⟩
  · dsimp only
    split
    · split
      · exact ⟨h, .refl _⟩
      · exact ⟨hdropped, hsame⟩
    · exact ⟨hdropped, hsame⟩

theorem Part.Ordered.freeTest (h : q.Ordered) : (q.freeTest l).Ordered ∧ (q.freeTest l).eng l = q.eng l := by
  unfold Part.freeTest
  split
  · exact ⟨h.testUnit (.inr rfl), rfl⟩
  · exact ⟨h, rfl⟩

theorem Part.Ordered.enterOff (h : q.Ordered) (hcalm : ∀ x ∈ (q.eng l).sched, x.calm)
    (hplain : ∀ x ∈ follow, x.plain) : (q.enterOff l follow).Ordered := by
  obtain ⟨hdrop, hsame⟩ := h.dropCatch (l := l)
  obtain ⟨hfree, heng⟩ := hdrop.freeTest (l := l)
  refine Part.Ordered.push_plain (hfree.enter ?_ rfl rfl rfl (fun ht => absurd ht ?_) fun hs => absurd hs ?_) hplain
  · rw [heng, hsame.sched]
    exact hcalm
  · simp [Engine.toOff]
  · simp [Engine.toOff]

theorem Part.Ordered.enterOff_of_does (h : q.Does l op) (hc : op.changesState = true) (hplain : ∀ x ∈ follow, x.plain) :
    (q.enterOff l follow).Ordered :=
  h.ordered.enterOff (fun x hx => (h.plain_of_changesState hc x hx).1) hplain

/-! ### RUNNING, ROLLCALL and QUIET -/

theorem Part.Ordered.enterRunning (h : q.Ordered) (hcalm : ∀ x ∈ (q.eng l).sched, x.calm)
    (hnone : (q.eng l).xu.attempt = none) (hplain : ∀ x ∈ follow, x.plain) : (q.enterRunning l follow).Ordered :=
  Part.Ordered.push_plain
    (h.enter (f := Engine.toRunning q.now) hcalm rfl rfl hnone (fun ht => absurd ht (by simp [Engine.toRunning]))
      fun hs => absurd hs (by simp [Engine.toRunning]))
    (List.forall_mem_cons.mpr ⟨SchedOp.plain_writeLoopHalf, hplain⟩)

theorem Part.owner_of_onRollList (hi : i ∈ allStations.filter fun i => (q.ctx i).onRollList l) :
    (q.ctx i).owner = some l := by
  obtain ⟨-, hlist⟩ := List.mem_filter.mp hi
  unfold Context.onRollList Context.admittedTo at hlist
  rw [Bool.and_eq_true_iff, Bool.and_eq_true_iff, Bool.and_eq_true_iff, beq_iff_eq] at hlist
  exact hlist.1.1.1

theorem Part.Ordered.enterRollcall (h : q.Ordered) (hcalm : ∀ x ∈ (q.eng l).sched, x.calm)
    (hnone : (q.eng l).xu.attempt = none) (hplain : ∀ x ∈ follow, x.plain) : (q.enterRollcall l follow).Ordered := by
  have hin := h.enter (l := l)
    (f := fun e => { e.dropHeld .beacon with
      ctl := { e.ctl with state := .rollcall, drainTarget := none, returnTarget := none, rollRequest := false }
      cyc := { e.cyc.stop with turn := none }
      rep := { e.rep with rollPresent := 0, rollAbsent := 0 }
      rollList := allStations.filter fun i => (q.ctx i).onRollList l, rollSecond := false })
    hcalm (Engine.dropHeld_sched ..) (Engine.dropHeld_urgent ..)
    ((congrArg ExchangeUnit.attempt (Engine.dropHeld_xu ..)).trans hnone) (fun ht => absurd ht (by simp))
    fun _ j hj => Part.owner_of_onRollList hj
  unfold Part.enterRollcall
  dsimp only
  split
  · refine hin.enterRunning ?_ ?_ (List.forall_mem_append.mpr
      ⟨hplain, List.forall_mem_singleton.mpr (SchedOp.plain_raise _)⟩)
    · rw [Part.eng_modEng]
      dsimp only
      rw [Engine.dropHeld_sched]
      exact hcalm
    · rw [Part.eng_modEng]
      dsimp only
      rw [Engine.dropHeld_xu]
      exact hnone
  · exact hin.push_plain (List.forall_mem_cons.mpr ⟨SchedOp.plain_writeLoopHalf, hplain⟩)

theorem Part.Ordered.enterQuiet (h : q.Ordered) (hcalm : ∀ x ∈ (q.eng l).sched, x.calm)
    (hnone : (q.eng l).xu.attempt = none) (hplain : ∀ x ∈ follow, x.plain) : (q.enterQuiet l follow).Ordered :=
  Part.Ordered.push_plain
    (h.enter (f := fun e => { e with
        ctl := { e.ctl with state := .quiet, drainTarget := none, returnTarget := none }
        cyc := { e.cyc.stop with turn := none }
        keepaliveFrom := q.now, quietFrom := q.now }) hcalm rfl rfl hnone (fun ht => absurd ht (by simp))
      fun hs => absurd hs (by simp))
    (List.forall_mem_cons.mpr ⟨SchedOp.plain_writeLoopHalf, hplain⟩)

theorem Part.Does.rollEnd (h : q.Does l .rollEnd) : (q.rollEnd l).Ordered := by
  unfold Part.rollEnd
  split
  · rename_i hs
    exact h.ordered.enterRunning (fun x hx => (h.plain_of_changesState rfl x hx).1)
      (h.attempt_none (by unfold SchedOp.calm; decide) (by rw [hs]; simp))
      (List.forall_mem_singleton.mpr (SchedOp.plain_raise _))
  · exact h.ordered

theorem LoopControl.state_of_startNext {c : LoopControl} (h : c.mayHold .startNext = true) : c.state = .starting := by
  have hvalidated : (c.state == .starting && c.validated) = true := h
  rw [Bool.and_eq_true_iff, beq_iff_eq] at hvalidated
  exact hvalidated.1

theorem LoopControl.state_of_startResets {c : LoopControl} (h : c.mayHold .startResets = true) : c.state = .starting :=
  LoopControl.state_of_startNext h

theorem LoopControl.state_of_startValidate {c : LoopControl} (h : c.mayHold .startValidate = true) :
    c.state = .starting := by
  have hvalidated : (c.state == .starting && !c.validated) = true := h
  rw [Bool.and_eq_true_iff, beq_iff_eq] at hvalidated
  exact hvalidated.1

theorem Part.Does.startNext (h : q.Does l .startNext) : (q.startNext l).Ordered := by
  have hs := LoopControl.state_of_startNext h.doing.holds
  have hcalm : ∀ x ∈ (q.eng l).sched, x.calm := fun x hx => (h.plain_of_changesState rfl x hx).1
  have hnone := h.attempt_none (by unfold SchedOp.calm; decide) (by rw [hs]; simp)
  unfold Part.startNext
  split
  · exact h.ordered.enterRollcall hcalm hnone SchedOp.forall_plain_nil
  · exact h.ordered.enterRunning hcalm hnone SchedOp.forall_plain_nil

theorem Part.Does.enterTarget (h : q.Does l .enterTarget) : (q.enterTarget l).Ordered := by
  have hs : (q.eng l).ctl.state = .draining := eq_of_beq h.doing.holds
  have hoff : ∀ x ∈ [SchedOp.writeLoopHalf, .raiseRetimeRefused], x.plain :=
    List.forall_mem_cons.mpr ⟨SchedOp.plain_writeLoopHalf,
      List.forall_mem_singleton.mpr SchedOp.plain_raiseRetimeRefused⟩
  unfold Part.enterTarget
  split
  · exact h.ordered.enterQuiet (fun x hx => (h.plain_of_changesState rfl x hx).1)
      (h.attempt_none (by unfold SchedOp.calm; decide) (by rw [hs]; simp))
      (List.forall_mem_singleton.mpr SchedOp.plain_raiseRetimeRefused)
  · exact .enterOff_of_does h rfl hoff
  · exact .enterOff_of_does h rfl hoff

/-! ### STARTING -/

/-- The operation at the end of a procedure, behind calm ones. -/
theorem Part.Ordered.push_concat (h : q.Ordered) (hcalm : ∀ x ∈ (q.eng l).sched, x.calm) (hops : ∀ x ∈ ops, x.plain)
    (hx : q.MayRun l [op]) (hb : op.beginsStep = false) : (q.push l (ops ++ [op])).Ordered := by
  refine h.push ?_
  rw [← List.append_assoc]
  refine Part.MayRun.concat (List.forall_mem_append.mpr ⟨hcalm, SchedOp.calm_of_plain hops⟩) ?_ hx hb
  exact List.forall_mem_append.mpr ⟨(h.loops l).owned, SchedOp.owned_of_plain hops⟩

/-- One operation for no station, of no turn, no test entry and no roll-call, where there is no attempt. -/
theorem Part.MayRun.single (hheld : (q.eng l).ctl.mayHold op = true) (hstation : op.station = none)
    (hturn : op.ofTurn = false) (hroll : op = .rollEnd → (q.eng l).rollList = [])
    (htest : op.ofTestEntry = true → (q.eng l).ctl.validated = true → q.testUnit.copy = [])
    (hnone : (q.eng l).xu.attempt = none) : q.MayRun l [op] where
  held := List.forall_mem_singleton.mpr hheld
  follows := List.pairwise_singleton ..
  steps := List.isChain_singleton ..
  owned := List.forall_mem_singleton.mpr fun j hj => by
    rw [hstation] at hj
    exact absurd hj (by simp)
  turn := by
    rintro - ⟨x, hx, ht⟩
    rw [List.mem_singleton.mp hx, hturn] at ht
    exact absurd ht Bool.false_ne_true
  rollEnd hmem := hroll (List.mem_singleton.mp hmem).symm
  test := by
    rintro ⟨x, hx, hentry⟩
    rw [List.mem_singleton.mp hx] at hentry
    exact ⟨hnone, htest hentry⟩
  alone a ha := by
    rw [hnone] at ha
    exact absurd ha (by simp)

theorem Part.Ordered.enterStarting {b : Bool} (h : q.Ordered) (hcalm : ∀ x ∈ (q.eng l).sched, x.calm) :
    (q.enterStarting l b).Ordered := by
  have hstart : ∀ e : Engine, e.SameWork (if b then e.startFramer q.now else e.dropHeld .keepalive) := fun e => by
    split
    · exact .of_eq rfl rfl rfl rfl rfl rfl rfl
    · exact .dropHeld
  unfold Part.enterStarting
  refine Part.Ordered.push_concat (ops := [.readGlobal, .readLoopHost .starting]) (op := .startValidate) ?_ ?_ ?_ ?_ rfl
  · exact h.enter hcalm (hstart _).sched (hstart _).urgent rfl (fun ht => absurd ht (by simp))
      fun hs => absurd hs (by simp)
  · rw [Part.eng_modEng]
    dsimp only
    rw [(hstart _).sched]
    exact hcalm
  · exact List.forall_mem_cons.mpr ⟨⟨rfl, rfl⟩, List.forall_mem_singleton.mpr ⟨rfl, rfl⟩⟩
  · refine .single ?_ rfl rfl (fun he => absurd he (by simp)) (fun he => absurd he Bool.false_ne_true) ?_
    · rw [Part.eng_modEng]
      rfl
    · rw [Part.eng_modEng]

/-- The judgements of all stations, one behind another. -/
theorem Part.MayRun.judges {is : List StationIx} (hheld : ∀ i, (q.eng l).ctl.mayHold (.judge i) = true)
    (hnone : (q.eng l).xu.attempt = none) : q.MayRun l (is.map .judge) := by
  have hmem : ∀ x ∈ is.map SchedOp.judge, ∃ i, x = .judge i := fun x hx => by
    obtain ⟨i, -, rfl⟩ := List.mem_map.mp hx
    exact ⟨i, rfl⟩
  refine ⟨fun x hx => ?_, ?_, SchedOp.chain_of_no_step fun x hx => ?_, fun x hx => ?_, ?_, fun hx => ?_, ?_, ?_⟩
  · obtain ⟨i, rfl⟩ := hmem x hx
    exact hheld i
  · refine List.pairwise_of_forall_mem_list fun x hx y hy => ?_
    obtain ⟨i, rfl⟩ := hmem x hx
    obtain ⟨j, rfl⟩ := hmem y hy
    rfl
  · obtain ⟨i, rfl⟩ := hmem x hx
    rfl
  · obtain ⟨i, rfl⟩ := hmem x hx
    exact fun j hj => absurd hj (by simp [SchedOp.station])
  · rintro - ⟨x, hx, ht⟩
    obtain ⟨i, rfl⟩ := hmem x hx
    exact absurd ht Bool.false_ne_true
  · obtain ⟨i, hi⟩ := hmem _ hx
    exact absurd hi (by simp)
  · rintro ⟨x, hx, ht⟩
    obtain ⟨i, rfl⟩ := hmem x hx
    exact absurd ht Bool.false_ne_true
  · rw [hnone]
    exact fun a ha => absurd ha (by simp)

theorem scanOps_no_step : ∀ x ∈ scanOps, x.beginsStep = false ∧ x.ofTurn = false ∧ x.station = none := by
  unfold scanOps
  rw [List.forall_mem_append, List.forall_mem_append]
  refine ⟨⟨fun x hx => ?_, fun x hx => ?_⟩, List.forall_mem_singleton.mpr ⟨rfl, rfl, rfl⟩⟩
  · obtain ⟨i, -, rfl⟩ := List.mem_map.mp hx
    exact ⟨rfl, rfl, rfl⟩
  · obtain ⟨i, -, rfl⟩ := List.mem_map.mp hx
    exact ⟨rfl, rfl, rfl⟩

/-- A roster scan may be made where its judgements may stand and no attempt is under way. -/
theorem Part.MayRun.scan (hheld : ∀ i, (q.eng l).ctl.mayHold (.judge i) = true)
    (hnone : (q.eng l).xu.attempt = none) : q.MayRun l scanOps := by
  have hreads : ∀ x ∈ allStations.map SchedOp.readStationHost, x.plain := fun x hx => by
    obtain ⟨i, -, rfl⟩ := List.mem_map.mp hx
    exact ⟨rfl, rfl⟩
  unfold scanOps
  rw [List.append_assoc]
  refine Part.MayRun.calm_append ?_ (SchedOp.calm_of_plain hreads) (SchedOp.owned_of_plain hreads) fun y hy hb => ?_
  · exact (Part.MayRun.judges hheld hnone).append_plain (List.forall_mem_singleton.mpr ⟨rfl, rfl⟩)
  · obtain ⟨hbegins, -⟩ := scanOps_no_step y (List.mem_append.mpr <|
      (List.mem_append.mp (List.mem_of_mem_head? hy)).imp_left fun hj => List.mem_append.mpr (.inr hj))
    exact absurd hb (by rw [hbegins]; exact Bool.false_ne_true)

theorem scanOps_mayPrecede {x y : SchedOp} (hx : x ∈ scanOps) (hy : y.station = none) : x.mayPrecede y = true := by
  unfold scanOps at hx
  rcases List.mem_append.mp hx with hx | hx
  · rcases List.mem_append.mp hx with hx | hx
    · obtain ⟨i, -, rfl⟩ := List.mem_map.mp hx
      exact SchedOp.mayPrecede_of_calm rfl
    · obtain ⟨i, -, rfl⟩ := List.mem_map.mp hx
      exact SchedOp.mayPrecede_of_ofScan rfl hy
  · rw [List.mem_singleton.mp hx]
    exact SchedOp.mayPrecede_of_calm rfl

/-- The steps of a start may be made once it is validated, ahead of plain operations (R126). -/
theorem Part.MayRun.start (hs : (q.eng l).ctl.state = .starting) (hv : (q.eng l).ctl.validated = true)
    (hnone : (q.eng l).xu.attempt = none) (hplain : ∀ x ∈ ops, x.plain) :
    q.MayRun l ([.awaitTransmitter, .startLatch, .mark] ++
      ([.startResets] ++ ([.writeLoopHalf, .mark] ++ (scanOps ++ ([.startNext] ++ ops))))) := by
  have hheld : ∀ x, (x = .startResets ∨ x = .startNext ∨ ∃ i, x = .judge i) →
      (q.eng l).ctl.mayHold x = true := by
    rintro x (rfl | rfl | ⟨i, rfl⟩) <;> unfold LoopControl.mayHold <;> rw [hs, hv] <;> rfl
  have single : ∀ x, (q.eng l).ctl.mayHold x = true → x.station = none → x.ofTurn = false → x ≠ .rollEnd →
      x.ofTestEntry = false → q.MayRun l [x] := fun x hx hstation hturn hroll htest =>
    .single hx hstation hturn (fun he => absurd he hroll) (fun he => absurd (htest.symm.trans he) (by simp)) hnone
  have hnotRunning : ∀ {P : Prop}, (q.eng l).ctl.state = .running → P := fun hr => by
    rw [hs] at hr
    exact absurd hr (by simp)
  have hlast : scanOps.getLast? = some .mark := List.getLast?_concat ..
  have hwrites : ∀ x ∈ [SchedOp.writeLoopHalf, .mark], x.plain :=
    List.forall_mem_cons.mpr ⟨⟨rfl, rfl⟩, List.forall_mem_singleton.mpr ⟨rfl, rfl⟩⟩
  have hnext : q.MayRun l ([.startNext] ++ ops) :=
    (single .startNext (hheld _ (.inr (.inl rfl))) rfl rfl (by simp) rfl).append_plain hplain
  have hnextStation : ∀ y ∈ [SchedOp.startNext] ++ ops, y.station = none :=
    List.forall_mem_append.mpr ⟨List.forall_mem_singleton.mpr rfl, fun y hy => (hplain y hy).2⟩
  have hscan : q.MayRun l (scanOps ++ ([.startNext] ++ ops)) :=
    (Part.MayRun.scan (fun i => hheld _ (.inr (.inr ⟨i, rfl⟩))) hnone).append hnext
      (fun x hx y hy => scanOps_mayPrecede hx (hnextStation y hy)) (fun _ _ _ => .inr hlast)
      (fun hr => hnotRunning hr) fun hr => hnotRunning hr
  have hbehind : q.MayRun l ([.writeLoopHalf, .mark] ++ (scanOps ++ ([.startNext] ++ ops))) :=
    hscan.calm_append (SchedOp.calm_of_plain hwrites) (SchedOp.owned_of_plain hwrites) fun _ _ _ => .inr rfl
  have hbehindStation : ∀ y ∈ [SchedOp.writeLoopHalf, .mark] ++ (scanOps ++ ([.startNext] ++ ops)), y.station = none :=
    List.forall_mem_append.mpr ⟨fun y hy => (hwrites y hy).2,
      List.forall_mem_append.mpr ⟨fun y hy => (scanOps_no_step y hy).2.2, hnextStation⟩⟩
  have hresets := (single .startResets (hheld _ (.inl rfl)) rfl rfl (by simp) rfl).append hbehind
    (List.forall_mem_singleton.mpr fun y hy => Option.isNone_iff_eq_none.mpr (hbehindStation y hy))
    (fun y hy hb => by
      cases hy
      exact absurd hb Bool.false_ne_true)
    (fun hr => hnotRunning hr) fun hr => hnotRunning hr
  have hfirst : ∀ x ∈ [SchedOp.awaitTransmitter, .startLatch, .mark], x.plain :=
    List.forall_mem_cons.mpr ⟨⟨rfl, rfl⟩,
      List.forall_mem_cons.mpr ⟨⟨rfl, rfl⟩, List.forall_mem_singleton.mpr ⟨rfl, rfl⟩⟩⟩
  exact hresets.calm_append (SchedOp.calm_of_plain hfirst) (SchedOp.owned_of_plain hfirst) fun _ _ _ => .inr rfl

theorem Part.Does.startValidate (h : q.Does l .startValidate) : (q.startValidate l).Ordered := by
  have hs := LoopControl.state_of_startValidate h.doing.holds
  have hplain := h.plain_of_changesState rfl
  have hnone := h.attempt_none (by unfold SchedOp.calm; decide) (by rw [hs]; simp)
  unfold Part.startValidate
  dsimp only
  split
  · have hq := h.ordered.enter (l := l) (f := fun e => { e with ctl := { e.ctl with validated := true } })
      (SchedOp.calm_of_plain hplain) rfl rfl hnone .inl fun hroll => absurd (hs.symm.trans hroll) (by simp)
    refine hq.pushFront ?_
    rw [Part.eng_modEng]
    have hrun : (q.modEng l fun e => { e with ctl := { e.ctl with validated := true } }).MayRun l _ :=
      Part.MayRun.start (ops := (q.eng l).sched) (by rw [Part.eng_modEng]; exact hs) (by rw [Part.eng_modEng])
        (by rw [Part.eng_modEng]; exact hnone) hplain
    simpa only [List.append_assoc, List.cons_append, List.nil_append] using hrun
  · exact .enterOff_of_does (h.modEng_same (.of_eq rfl rfl rfl rfl rfl rfl rfl)) rfl
      (List.forall_mem_cons.mpr ⟨SchedOp.plain_writeLoopHalf, List.forall_mem_singleton.mpr (SchedOp.plain_raise _)⟩)

/-- The latches of a start end an attempt, if there is one, and change nothing else that the work depends on. -/
theorem Part.Does.startLatch (h : q.Does l .startLatch) : (q.startLatch l).Ordered :=
  h.ordered.modEng_same ⟨rfl, rfl, rfl, rfl, rfl, fun _ => .inr rfl, fun _ ha => absurd ha (by simp), rfl⟩

theorem Part.ctx_mapOwned (l : LoopId) (f : Context → Context) (i : StationIx) (q : Part) :
    (q.mapOwned l f).ctx i = if (q.ctx i).owner = some l then f (q.ctx i) else q.ctx i := by
  unfold Part.mapOwned Part.ctx
  show (q.contexts.map _)[i.val] = _
  rw [Vector.getElem_map]
  rfl

/-- The stations of the loop are changed and its relay entries released. -/
theorem Part.Ordered.dropLoop {f : Context → Context} (h : q.Ordered)
    (hl : ((q.mapOwned l f).releaseLoopRelays l).LoopOrder l)
    (hf : ∀ c : Context, (f c).state = .rejected → (f c).inHand = none) :
    ((q.mapOwned l f).releaseLoopRelays l).Ordered := by
  have hctx : ∀ i, ((q.mapOwned l f).releaseLoopRelays l).ctx i =
      if (q.ctx i).owner = some l then f (q.ctx i) else q.ctx i := q.ctx_mapOwned l f
  have hrelays : ∀ a : Fin 8, ∀ r ∈ ((q.mapOwned l f).releaseLoopRelays l).relays[a], r ∈ q.relays[a] ∧ r.loop ≠ l := by
    intro a r hr
    rw [Part.releaseLoopRelays, Part.mapRelays_relay, Option.mem_def, Option.bind_eq_some_iff] at hr
    obtain ⟨r₀, hr₀, hfr⟩ := hr
    split at hfr
    · exact absurd hfr (by simp)
    · rename_i hne
      cases hfr
      exact ⟨hr₀, hne⟩
  have hother : ∀ i, (q.ctx i).owner ≠ some l → ((q.mapOwned l f).releaseLoopRelays l).ctx i = q.ctx i := fun i hi => by
    rw [hctx, if_neg hi]
  have hne : ∀ i, (q.ctx i).owner = some (otherLoop l) → (q.ctx i).owner ≠ some l := fun i hi hl => by
    rw [hi] at hl
    exact absurd (Option.some.inj hl) (by simp)
  refine h.of_work (l := l) ?_ (fun i hi => ?_) hl ?_ (fun i hi => ?_) (fun i _ hfree a r hr => ?_) ?_ fun ht => .inl ?_
  · intro a r hr
    obtain ⟨hr, hloop⟩ := hrelays a r hr
    obtain ⟨hhand, hown, hcoupler⟩ := h.entries a r hr
    rw [hother r.station (by rw [hown]; exact fun heq => hloop (Option.some.inj heq))]
    exact ⟨hhand, hown, hcoupler⟩
  · rw [hctx] at hi ⊢
    split at hi
    · rename_i ho
      rw [if_pos ho]
      exact hf _ hi
    · rename_i ho
      rw [if_neg ho]
      exact h.rejected i hi
  · exact .refl _
  · rw [hother i (hne i hi)]
    exact hi
  · exact hfree a r (hrelays a r hr).1
  · exact fun hempty _ => hempty
  · exact ht

theorem Part.Does.startResets (h : q.Does l .startResets) : (q.startResets l).Ordered := by
  have hs := LoopControl.state_of_startResets h.doing.holds
  have hnone := h.attempt_none (by unfold SchedOp.calm; decide) (by rw [hs]; simp)
  unfold Part.startResets
  split
  · refine Part.Ordered.modEng_same (Part.Ordered.orphan (h.ordered.dropLoop ?_ fun _ hr => absurd hr (by
      simp [Context.reset]))) (.of_eq rfl rfl rfl rfl rfl rfl rfl)
    refine (h.ordered.loops l).of_uses (.refl _) (fun i hi => ?_) fun hempty _ => hempty
    rcases hi with ⟨y, hy, hstation⟩ | ⟨hroll, -⟩ | ⟨a, ha, -⟩
    · have hbefore : y.station.isNone = true := h.doing.before y hy
      rw [Option.isNone_iff_eq_none.mp hbefore] at hstation
      exact absurd hstation (by simp)
    · exact absurd (hs.symm.trans hroll) (by simp)
    · rw [hnone] at ha
      exact absurd ha (by simp)
  · exact h.ordered.modEng_same (.of_eq rfl rfl rfl rfl rfl rfl rfl)

/-! ### TEST -/

theorem Part.eng_testUnit (u : TestUnit) (l : LoopId) (q : Part) : ({ q with testUnit := u } : Part).eng l = q.eng l := by
  cases l <;> rfl

/-- In TEST, with calm operations alone waiting, the unit may put a frame in flight. -/
theorem Part.Ordered.testUnit_of_calm (h : q.Ordered) (hcalm : ∀ x ∈ (q.eng l).sched, x.calm)
    (hs : (q.eng l).ctl.state = .test) (u : TestUnit) : ({ q with testUnit := u } : Part).Ordered := by
  refine ⟨h.entries, h.rejected, fun m => ?_, fun m => ?_⟩
  · by_cases hm : m = l
    · subst hm
      obtain ⟨-, -, -, hreports, howned, ⟨-, hroll, -, -⟩, hattempts⟩ := h.loops m
      refine .of_calm ?_ ?_ ?_ ?_ ?_
      any_goals unfold Part.workOwned
      any_goals unfold Part.attemptPlaced
      all_goals rw [Part.eng_testUnit]
      · exact hcalm
      · exact howned
      · exact hreports
      · exact hroll
      · exact hattempts
    · obtain rfl := (eq_or_eq_otherLoop l m).resolve_left hm
      refine (h.loops _).of_same (by rw [Part.eng_testUnit]; exact .refl _) (fun _ => id) (fun _ _ => id) fun _ ht => ?_
      rw [Part.eng_testUnit] at ht
      exact absurd ht (h.oneTest l hs)
  · rw [Part.eng_testUnit, Part.eng_testUnit]
    exact h.oneTest m

/-- The attempt of a test frame, if it has one, is made in TEST. -/
theorem Part.Ordered.handTest {x : Engine → ExchangeUnit} {now : Nat} {f : TxFrame} (h : q.Ordered)
    (hcalm : ∀ x ∈ (q.eng l).sched, x.calm) (hs : (q.eng l).ctl.state = .test)
    (hidle : (x (q.eng l)).state = .idle → (x (q.eng l)).attempt = none)
    (hkind : ∀ a ∈ (x (q.eng l)).attempt, a.kind = .test) :
    (q.modEng l fun e => Engine.handFrame now f { e with xu := x e }).Ordered := by
  have hx : (q.modEng l fun e => { e with xu := x e }).Ordered := by
    obtain ⟨-, -, -, hreports, howned, ⟨-, hroll, -, -⟩, -⟩ := h.loops l
    refine h.modEng (.of_calm ?_ ?_ ?_ ?_ ⟨?_, ?_⟩) fun ht => .inl ht
    any_goals unfold Part.workOwned Part.entryless
    all_goals simp only [Part.eng_modEng, Part.modEng_ctx, Part.modEng_relays]
    · exact hcalm
    · exact howned
    · exact hreports
    · exact hroll
    · exact hidle
    · exact fun a ha => ⟨fun _ => hs, fun hne => absurd (hkind a ha) hne⟩
  have hsend := hx.modEng_same (l := l) (f := Engine.handFrame now f) .handFrame
  rwa [Part.modEng_modEng] at hsend

theorem Part.Ordered.prepareTest (h : q.Ordered) (hcalm : ∀ x ∈ (q.eng l).sched, x.calm)
    (hs : (q.eng l).ctl.state = .test) : (q.prepareTest l).Ordered := by
  unfold Part.prepareTest
  dsimp only
  refine (h.testUnit_of_calm hcalm hs _).handTest (x := fun e =>
    if (q.eng l).cfg.testMode == 1 then { state := .sending, attempt := some (testAttempt e.cfg) }
    else { state := .idle, attempt := none }) ?_ ?_ ?_ ?_
  · rw [Part.eng_testUnit]
    exact hcalm
  · rw [Part.eng_testUnit]
    exact hs
  · split
    · exact fun hi => absurd hi (by simp)
    · exact fun _ => rfl
  · split
    · intro a ha
      cases ha
      rfl
    · exact fun a ha => absurd ha (by simp)

theorem Part.Ordered.testFirst (h : q.Ordered) (hcalm : ∀ x ∈ (q.eng l).sched, x.calm) : (q.testFirst l).Ordered := by
  unfold Part.testFirst
  split
  · rename_i hs
    exact h.prepareTest hcalm hs
  · exact h

theorem testdoneOps_plain : ∀ x ∈ [SchedOp.writeLoopHalf, .raise .testdone], x.plain :=
  List.forall_mem_cons.mpr ⟨SchedOp.plain_writeLoopHalf, List.forall_mem_singleton.mpr (SchedOp.plain_raise _)⟩

theorem Part.Ordered.testNext (h : q.Ordered) (hcalm : ∀ x ∈ (q.eng l).sched, x.calm) : (q.testNext l).Ordered := by
  unfold Part.testNext
  dsimp only
  split
  · refine Part.Ordered.enterOff (h.testUnit ?_) ?_ testdoneOps_plain
    · exact .inl rfl
    · rw [Part.eng_testUnit]
      exact hcalm
  · refine Part.Ordered.testFirst (h.testUnit ?_) ?_
    · exact .inl rfl
    · rw [Part.eng_testUnit]
      exact hcalm

theorem Part.Ordered.testLost (h : q.Ordered) (hcalm : ∀ x ∈ (q.eng l).sched, x.calm) : (q.testLost l).Ordered := by
  refine Part.Ordered.testNext (h.testUnit ?_) ?_
  · exact .inr rfl
  · rw [Part.eng_testUnit]
    exact hcalm

theorem Part.Ordered.testReturned {bs : List Byte} (h : q.Ordered) (hcalm : ∀ x ∈ (q.eng l).sched, x.calm) :
    (q.testReturned l bs).Ordered := by
  unfold Part.testReturned
  dsimp only
  split
  all_goals
    refine Part.Ordered.testNext (h.testUnit ?_) ?_
    · exact .inr rfl
    · rw [Part.eng_testUnit]
      exact hcalm

theorem Part.Ordered.stopTest (h : q.Ordered) (hcalm : ∀ x ∈ (q.eng l).sched, x.calm) : (q.stopTest l).Ordered := by
  refine Part.Ordered.enterOff (h.testUnit ?_) ?_ testdoneOps_plain
  · exact .inl rfl
  · rw [Part.eng_testUnit]
    exact hcalm

/-- A loop that is OFF, with no loop in TEST, enters TEST. -/
theorem Part.Ordered.enterTest (h : q.Ordered) (hcalm : ∀ x ∈ (q.eng l).sched, x.calm)
    (hnone : (q.eng l).xu.attempt = none) (hother : (q.eng (otherLoop l)).ctl.state ≠ .test) :
    (q.enterTest l).Ordered := by
  have hq : ({ q with testUnit := { q.testUnit with owner := some l } } : Part).Ordered := h.testUnit (.inr rfl)
  unfold Part.enterTest
  refine Part.Ordered.push_concat (ops := [.readLoopHost .testing]) (op := .testValidate) ?_ ?_ ?_ ?_ rfl
  · refine hq.enter ?_ rfl rfl ?_ (fun _ => .inr ?_) fun hs => absurd hs (by simp)
    all_goals rw [Part.eng_testUnit]
    · exact hcalm
    · exact hnone
    · exact hother
  · rw [Part.eng_modEng, Part.eng_testUnit]
    exact hcalm
  · exact List.forall_mem_singleton.mpr ⟨rfl, rfl⟩
  · refine .single ?_ rfl rfl (fun he => absurd he (by simp)) ?_ ?_
    · rw [Part.eng_modEng]
      rfl
    · rw [Part.eng_modEng]
      exact fun _ hv => absurd hv Bool.false_ne_true
    · rw [Part.eng_modEng, Part.eng_testUnit]
      exact hnone

theorem LoopControl.state_of_testValidate {c : LoopControl} (h : c.mayHold .testValidate = true) : c.state = .test :=
  LoopControl.state_of_testEntry h rfl

theorem Part.Does.testValidate (h : q.Does l .testValidate) : (q.testValidate l).Ordered := by
  have hs := LoopControl.state_of_testValidate h.doing.holds
  have hplain := h.plain_of_changesState rfl
  unfold Part.testValidate
  dsimp only
  split
  · have hunit : ({ q with testUnit := { TestUnit.reset with owner := q.testUnit.owner, status := .running } } :
        Part).Ordered := h.ordered.testUnit (.inl rfl)
    refine Part.Ordered.pushFront (hunit.enter ?_ rfl rfl rfl .inl ?_) ?_
    · rw [Part.eng_testUnit]
      exact SchedOp.calm_of_plain hplain
    · rw [Part.eng_testUnit]
      exact fun hroll => absurd (hs.symm.trans hroll) (by simp)
    · have hwrite : ∀ x ∈ [SchedOp.writeLoopHalf], x.plain := List.forall_mem_singleton.mpr SchedOp.plain_writeLoopHalf
      rw [Part.eng_modEng, Part.eng_testUnit]
      refine Part.MayRun.calm_append (ops := [.writeLoopHalf]) (Part.MayRun.append_plain (.single (op := .testFirst)
        ?_ rfl rfl (fun he => absurd he (by simp)) (fun _ _ => ?_) ?_) hplain) (SchedOp.calm_of_plain hwrite)
        (SchedOp.owned_of_plain hwrite) ?_
      · rw [Part.eng_modEng, Part.eng_testUnit]
        unfold LoopControl.mayHold
        rw [hs]
        rfl
      · rw [Part.modEng_testUnit]
        rfl
      · rw [Part.eng_modEng]
      · intro y hy hb
        cases hy
        exact absurd hb Bool.false_ne_true
  · exact .enterOff_of_does (h.modEng_same (.of_eq rfl rfl rfl rfl rfl rfl rfl)) rfl
      (List.forall_mem_cons.mpr ⟨SchedOp.plain_writeLoopHalf, List.forall_mem_singleton.mpr (SchedOp.plain_raise _)⟩)

theorem Part.Does.testFirst (h : q.Does l .testFirst) : (q.testFirst l).Ordered :=
  h.ordered.testFirst (SchedOp.calm_of_plain (h.plain_of_changesState rfl))

theorem Part.Ordered.testAbort (h : q.Ordered) (hcalm : ∀ x ∈ (q.eng l).sched, x.calm) : (q.testAbort l).Ordered := by
  unfold Part.testAbort
  split
  · refine Part.Ordered.enterOff (h.testUnit ?_) ?_ testdoneOps_plain
    · exact .inr rfl
    · rw [Part.eng_testUnit]
      exact hcalm
  · exact h.enterOff hcalm (List.forall_mem_singleton.mpr SchedOp.plain_writeLoopHalf)

theorem Part.Does.testAbort (h : q.Does l .testAbort) : (q.testAbort l).Ordered :=
  h.ordered.testAbort (SchedOp.calm_of_plain (h.plain_of_changesState rfl))

end

end Sys2Proof.Machine
end

