-- ==== Sys2Proof/Proofs/ProcedureOrder.lean ====
section
/-!
Every act of a procedure, and every transfer that it waits for, keeps the order of the work: so the procedure goes on in
order (R98, R100).
-/
namespace Sys2Proof.Machine

open Sys2Proof

section
variable {q : Part} {l : LoopId} {op : SchedOp} {i : StationIx} {ops : List SchedOp}

/-! ### Acts -/

theorem Part.Ordered.raiseCatch (h : q.Ordered) : (Part.act l .raiseCatch q).Ordered := by
  unfold Part.act
  dsimp only
  split
  · exact h.raiseCause
  · exact h

theorem Part.Ordered.raiseRetimeRefused (h : q.Ordered) : (q.raiseRetimeRefused l).Ordered := by
  unfold Part.raiseRetimeRefused
  split
  · exact (h.modEng_same (.of_eq rfl rfl rfl rfl rfl rfl rfl)).raiseCause
  · exact h

/-- The settlements of the records in hand are for stations of the loop. -/
theorem Part.settleAllOps_owned {o : RecordOutcome} :
    ∀ x ∈ q.settleAllOps l o, x.calm ∧
      ∀ j ∈ x.station, (q.ctx j).owner = some l ∧ (x.afterRelease = true → q.entryless j) := by
  intro x hx
  obtain ⟨i, hi, hmem⟩ := List.mem_flatMap.mp hx
  obtain ⟨-, hholds⟩ := List.mem_filter.mp hi
  rw [Bool.and_eq_true_iff, beq_iff_eq] at hholds
  obtain ⟨ho, -⟩ := hholds
  rcases List.mem_cons.mp hmem with rfl | hmem
  · refine ⟨rfl, fun j hj => ?_⟩
    rw [← Option.some.inj hj]
    exact ⟨ho, fun hafter => absurd hafter Bool.false_ne_true⟩
  · rw [List.mem_singleton.mp hmem]
    exact ⟨rfl, fun j hj => absurd hj (by simp [SchedOp.station])⟩

theorem Part.Does.settleAll {o : RecordOutcome} (h : q.Does l (.settleAll o)) :
    (q.pushFront l (q.settleAllOps l o)).Ordered :=
  h.ordered.goOn_calm (h.doing.headPlaced (by simp)) (fun x hx => (Part.settleAllOps_owned x hx).1)
    fun x hx => (Part.settleAllOps_owned x hx).2

theorem Part.Does.settleOne {o : RecordOutcome} (h : q.Does l (.settle i o)) : (q.settleOne l i o).Ordered :=
  h.ordered.settleRecord (h.doing.headPlaced (by simp)) (h.owned i rfl).1 SchedOp.forall_plain_nil

theorem Part.Does.retimeStep (h : q.Does l .retimeStep) : (q.retimeStep l).Ordered := by
  unfold Part.retimeStep
  split
  · exact h.ordered.goOn_plain (h.doing.headPlaced (by simp)) (List.forall_mem_singleton.mpr ⟨rfl, rfl⟩)
  · exact h.ordered

/-- Another procedure that may be made, with what the work does not depend on. -/
theorem Part.Ordered.modEng_run {f : Engine → Engine} (h : q.Ordered) (hr : q.MayRun l (f (q.eng l)).sched)
    (he : ({ q.eng l with sched := (f (q.eng l)).sched } : Engine).SameWork (f (q.eng l))) :
    (q.modEng l f).Ordered := by
  have hsame := (h.setSched hr).modEng_same (l := l) (f := fun _ => f (q.eng l)) (by
    rw [Part.eng_modEng]
    exact he)
  rw [Part.modEng_modEng] at hsame
  rwa [Part.modEng_congr l (fun _ => f (q.eng l)) f q rfl] at hsame

/-- The report of a boundary gives up the later steps, or leaves them. -/
theorem Part.Ordered.reportStep (h : q.Ordered) : (q.reportStep l).Ordered := by
  have hsuffix : ∀ silent : Bool, (if silent then [] else (q.eng l).sched) <:+ (q.eng l).sched := fun silent => by
    split
    · exact List.nil_suffix
    · exact List.suffix_refl _
  exact h.modEng_run (h.mayRun.suffix (hsuffix _)) (.of_eq rfl rfl rfl rfl rfl rfl rfl)

theorem Part.Ordered.cycleStep (h : q.Ordered) : (q.cycleStep l).Ordered := by
  unfold Part.cycleStep
  exact h.modEng_same (.of_eq rfl rfl rfl rfl rfl rfl rfl)

theorem Part.Ordered.beaconStep (h : q.Ordered) : (q.beaconStep l).Ordered := by
  refine h.modEng_same ?_
  dsimp only
  split
  · exact .of_eq rfl rfl rfl rfl rfl rfl rfl
  · refine Engine.SameWork.trans ?_ .handFrame
    exact .of_eq rfl rfl rfl rfl rfl rfl rfl

/-- Every act keeps the order. -/
theorem Part.Does.act (h : q.Does l op) : (Part.act l op q).Ordered := by
  cases op with
  | raise c => exact h.ordered.raiseCause
  | raiseCatch => exact h.ordered.raiseCatch
  | raiseRetimeRefused => exact h.ordered.raiseRetimeRefused
  | startValidate => exact h.startValidate
  | startLatch => exact h.startLatch
  | startResets => exact h.startResets
  | startNext => exact h.startNext
  | startAbort => exact .enterOff_of_does h rfl SchedOp.forall_plain_nil
  | judge i => exact h.judgeEntry
  | retimeStep => exact h.retimeStep
  | cycleStep => exact h.ordered.cycleStep
  | reportStep => exact h.ordered.reportStep
  | beaconStep => exact h.ordered.beaconStep
  | takeCheck i => exact h.takeCheck
  | fitTest i => exact h.fitTest
  | followOn i => exact h.followOnPut
  | endTurn => exact h.endTurn
  | settleAll o => exact h.settleAll
  | settle i o => exact h.settleOne
  | enterTarget => exact h.enterTarget
  | enterOff =>
    exact .enterOff_of_does h rfl (List.forall_mem_cons.mpr
      ⟨SchedOp.plain_writeLoopHalf, List.forall_mem_singleton.mpr SchedOp.plain_raiseRetimeRefused⟩)
  | disown i => exact h.disown
  | rollEnd => exact h.rollEnd
  | testValidate => exact h.testValidate
  | testFirst => exact h.testFirst
  | testAbort => exact h.testAbort
  | _ => exact h.ordered

/-! ### The procedure carried on -/

theorem Part.Ordered.runSched {n : Nat} (h : q.Ordered) : (Part.runSched n l q).Ordered := by
  induction n generalizing q with
  | zero => exact h.cutActs
  | succ n ih =>
    rw [Part.runSched]
    split
    · exact h
    · rename_i hs
      split
      · exact h
      · exact ih (h.does_popSched hs).act

theorem SchedOp.mem_ofReport (h : op.ofReport = true) : op = .writeLoopHalf ∨ (∃ c, op = .raise c) ∨ op = .raiseCatch := by
  cases op
  any_goals cases h
  · exact .inl rfl
  · exact .inr (.inl ⟨_, rfl⟩)
  · exact .inr (.inr rfl)

theorem Part.Ordered.actReport (h : q.Ordered) (hop : op.ofReport = true) : (Part.act l op q).Ordered := by
  rcases SchedOp.mem_ofReport hop with rfl | ⟨c, rfl⟩ | rfl
  · exact h
  · exact h.raiseCause
  · exact h.raiseCatch

theorem Part.Ordered.runUrgent (h : q.Ordered) (hr : ∀ op ∈ ops, op.ofReport = true) :
    (Part.runUrgent l ops q).Ordered := by
  induction ops generalizing q with
  | nil => exact h.setUrgent hr
  | cons op rest ih =>
    rw [Part.runUrgent]
    split
    · exact h.setUrgent hr
    · exact ih (h.actReport (hr op List.mem_cons_self)) fun x hx => hr x (List.mem_cons_of_mem _ hx)

/-- Between turns of RUNNING no attempt is under way. -/
theorem Part.LoopOrder.attempt_none (h : q.LoopOrder l) (ht : (q.eng l).ctl.state ≠ .test)
    (hd : (q.eng l).ctl.state ≠ .draining) (hroll : (q.eng l).ctl.state ≠ .rollcall)
    (hturn : (q.eng l).ctl.state = .running → (q.eng l).cyc.turn = none) : (q.eng l).xu.attempt = none := by
  obtain ⟨-, hattempt⟩ := h.attempts
  rw [Option.eq_none_iff_forall_not_mem]
  intro a ha
  obtain ⟨htest, hother⟩ := hattempt a ha
  by_cases hkind : a.kind = .test
  · exact ht (htest hkind)
  · obtain ⟨-, -, hdrain | ⟨-, hr⟩ | ⟨-, hrun, hsome⟩⟩ := hother hkind
    · exact hd hdrain
    · exact hroll hr
    · rw [hturn hrun] at hsome
      exact absurd hsome (by simp)

theorem Part.Ordered.rollcallIfDue (h : q.Ordered) : (q.rollcallIfDue l).Ordered := by
  unfold Part.rollcallIfDue
  split
  · rename_i hdue
    unfold Engine.rollcallDue at hdue
    rw [Bool.and_eq_true_iff, Bool.and_eq_true_iff, Bool.and_eq_true_iff, Bool.and_eq_true_iff, Bool.and_eq_true_iff,
      beq_iff_eq, Option.isNone_iff_eq_none, List.isEmpty_iff] at hdue
    obtain ⟨⟨⟨⟨⟨hs, -⟩, hturn⟩, hsched⟩, -⟩, -⟩ := hdue
    refine h.enterRollcall ?_ ((h.loops l).attempt_none ?_ ?_ ?_ fun _ => hturn) SchedOp.forall_plain_nil
    · rw [hsched]
      exact fun x hx => absurd hx List.not_mem_nil
    all_goals
      rw [hs]
      simp
  · exact h

theorem Part.Ordered.proceed (h : q.Ordered) : (q.proceed l).Ordered := h.runSched.rollcallIfDue

/-! ### Transfers -/

theorem Engine.SameWork.retimeJudge {x : LoopHost} {now : Nat} {e : Engine} :
    e.SameWork (({ e with ctl := { e.ctl with retimePending := false } } : Engine).adoptTiming x now) :=
  .of_eq rfl rfl rfl rfl rfl rfl rfl

theorem Part.Ordered.retimeJudge {x : LoopHost} (h : q.Ordered) : (q.retimeJudge l x).Ordered := by
  refine h.modEng_same ?_
  dsimp only
  split
  · exact .retimeJudge
  · exact .of_eq rfl rfl rfl rfl rfl rfl rfl

/-- What a completed transfer of the procedure leads to keeps the order. -/
theorem Part.Does.schedDone {bs : List Byte} (h : q.Does l op) : (Part.schedDone l op bs q).Ordered := by
  cases op with
  | readGlobal =>
    unfold Part.schedDone
    exact h.ordered.modEng_same (.of_eq rfl rfl rfl rfl rfl rfl rfl)
  | readLoopHost u =>
    cases u with
    | starting =>
      unfold Part.schedDone
      exact h.ordered.modEng_same (.of_eq rfl rfl rfl rfl rfl rfl rfl)
    | testing =>
      unfold Part.schedDone
      exact h.ordered.modEng_same (.of_eq rfl rfl rfl rfl rfl rfl rfl)
    | retiming =>
      unfold Part.schedDone
      dsimp only
      split
      · exact h.ordered.retimeJudge
      · exact h.ordered
  | readStationHost i =>
    unfold Part.schedDone
    exact h.ordered.modEng_same (.of_eq rfl rfl rfl rfl rfl rfl rfl)
  | readLink i => exact h.followLink
  | readRecord i k => exact h.seeRecord
  | writeActive i k c => exact h.recordTaken
  | writeDone i k f a => exact h.complete
  | _ => exact h.ordered

theorem Part.Ordered.schedTransferDone {u : Bool} {bs : List Byte} (h : q.Ordered) :
    (q.schedTransferDone l u bs).Ordered := by
  unfold Part.schedTransferDone
  split
  · exact h.runUrgent fun op hop => (h.loops l).reports op (List.mem_of_mem_drop hop)
  · split
    · exact h
    · rename_i hs
      exact (h.does_popSched hs).schedDone

theorem Part.Ordered.doneCut {t : Transfer} (h : q.Ordered) : (Part.doneCut t q).Ordered := by
  unfold Part.doneCut
  split
  · split
    · rename_i hs
      exact (h.does_popSched hs).complete
    · exact h
  · exact h

end

end Sys2Proof.Machine
end

