-- ==== Sys2Proof/Proofs/ExchangeOrder.lean ====
section
/-!
The judgement of an attempt keeps the order of the work: the record's completion comes after the release of its relay
entry (R81 to R90, R100 to R108, R138).
-/
namespace Sys2Proof.Machine

open Sys2Proof

section
variable {q : Part} {l : LoopId} {op : SchedOp} {i : StationIx} {ops follow : List SchedOp} {a : Attempt}

/-! ### The attempt that ends -/

/-- The attempt of a record of station `i` has ended and is judged: calm operations wait, in a turn or in DRAINING. -/
structure Part.Judges (q : Part) (l : LoopId) (i : StationIx) : Prop where
  ordered : q.Ordered
  none : (q.eng l).xu.attempt = none
  calm : ∀ x ∈ (q.eng l).sched, x.calm
  place : (q.eng l).ctl.state = .draining ∨ ((q.eng l).ctl.state = .running ∧ (q.eng l).cyc.turn.isSome = true)
  owner : (q.ctx i).owner = some l

/-- The ROLL attempt of station `i` has ended and is judged. -/
structure Part.JudgesRoll (q : Part) (l : LoopId) (i : StationIx) : Prop where
  ordered : q.Ordered
  none : (q.eng l).xu.attempt = none
  calm : ∀ x ∈ (q.eng l).sched, x.calm
  place : (q.eng l).ctl.state = .draining ∨ (q.eng l).ctl.state = .rollcall
  owner : (q.ctx i).owner = some l

theorem Engine.SameWork.endAttempt {e : Engine} :
    e.SameWork { e with xu := { state := .idle, attempt := none }, cyc := e.cyc.turnWrites } :=
  ⟨rfl, rfl, rfl, rfl, Option.isSome_map .., fun _ => .inr rfl, fun _ ha => absurd ha (by simp), rfl⟩

theorem Part.Ordered.endAttempt (h : q.Ordered) : (q.endAttempt l).Ordered := h.modEng_same .endAttempt

theorem Part.endAttempt_eng : ((q.endAttempt l).eng l).xu.attempt = none ∧
    ((q.endAttempt l).eng l).sched = (q.eng l).sched ∧ ((q.endAttempt l).eng l).ctl = (q.eng l).ctl ∧
    ((q.endAttempt l).eng l).cyc.turn.isSome = (q.eng l).cyc.turn.isSome := by
  unfold Part.endAttempt
  rw [Part.eng_modEng]
  exact ⟨rfl, rfl, rfl, Option.isSome_map ..⟩

/-- The end of a record's attempt. -/
theorem Part.Ordered.judges (h : q.Ordered) (ha : a ∈ (q.eng l).xu.attempt) (htest : a.kind ≠ .test)
    (hroll : a.kind ≠ .roll) (hi : a.station = some i) : (q.endAttempt l).Judges l i := by
  obtain ⟨-, hattempt⟩ := (h.loops l).attempts
  obtain ⟨-, hother⟩ := hattempt a ha
  obtain ⟨howner, hcalm, hplace⟩ := hother htest
  obtain ⟨hnone, hsched, hctl, hturn⟩ := q.endAttempt_eng (l := l)
  refine ⟨h.endAttempt, hnone, ?_, ?_, (Part.modEng_ctx ..).symm ▸ howner i hi⟩
  · rw [hsched]
    exact hcalm
  · rw [hctl, hturn]
    rcases hplace with hd | ⟨hr, -⟩ | ⟨-, hrun⟩
    · exact .inl hd
    · exact absurd hr hroll
    · exact .inr hrun

/-- The end of a ROLL attempt. -/
theorem Part.Ordered.judgesRoll (h : q.Ordered) (ha : a ∈ (q.eng l).xu.attempt) (hroll : a.kind = .roll)
    (hi : a.station = some i) : (q.endAttempt l).JudgesRoll l i := by
  obtain ⟨-, hattempt⟩ := (h.loops l).attempts
  obtain ⟨-, hother⟩ := hattempt a ha
  obtain ⟨howner, hcalm, hplace⟩ := hother (by rw [hroll]; simp)
  obtain ⟨hnone, hsched, hctl, -⟩ := q.endAttempt_eng (l := l)
  refine ⟨h.endAttempt, hnone, ?_, ?_, (Part.modEng_ctx ..).symm ▸ howner i hi⟩
  · rw [hsched]
    exact hcalm
  · rw [hctl]
    rcases hplace with hd | ⟨-, hr⟩ | ⟨hr, -⟩
    · exact .inl hd
    · exact .inr hr
    · exact absurd hroll hr

/-- In TEST with no entry under way calm operations alone wait. -/
theorem Part.LoopOrder.calm_of_test (h : q.LoopOrder l) (hs : (q.eng l).ctl.state = .test)
    (hentry : ∀ x ∈ (q.eng l).sched, x.ofTestEntry = false) : ∀ x ∈ (q.eng l).sched, x.calm :=
  fun x hx => SchedOp.calm_of_test (h.held x hx) hs (hentry x hx)

/-- The end of a test frame's attempt leaves calm operations. -/
theorem Part.Ordered.calm_of_testAttempt (h : q.Ordered) (ha : a ∈ (q.eng l).xu.attempt) (htest : a.kind = .test) :
    ∀ x ∈ ((q.endAttempt l).eng l).sched, x.calm := by
  obtain ⟨-, hattempt⟩ := (h.loops l).attempts
  obtain ⟨hs, -⟩ := hattempt a ha
  obtain ⟨-, -, -, hplaced⟩ := (h.loops l).placed
  obtain ⟨-, hsched, -, -⟩ := q.endAttempt_eng (l := l)
  rw [hsched]
  refine (h.loops l).calm_of_test (hs htest) fun x hx => ?_
  rw [← Bool.not_eq_true]
  intro hentry
  obtain ⟨hnone, -⟩ := hplaced ⟨x, hx, hentry⟩
  rw [hnone] at ha
  exact absurd ha (by simp)

/-! ### What the judgement is carried through -/

theorem Part.Judges.modEng_same {f : Engine → Engine} (h : q.Judges l i) (he : (q.eng l).SameWork (f (q.eng l))) :
    (q.modEng l f).Judges l i := by
  refine ⟨h.ordered.modEng_same he, ?_, ?_, ?_, ?_⟩
  · rw [Part.eng_modEng]
    exact he.attempt_none h.none
  · rw [Part.eng_modEng, he.sched]
    exact h.calm
  · rw [Part.eng_modEng, he.state, he.turn]
    exact h.place
  · rw [Part.modEng_ctx]
    exact h.owner

theorem Part.Judges.modCtx_kept {f : Context → Context} {j : StationIx} (h : q.Judges l i)
    (hf : (q.ctx j).KeepsHold (f (q.ctx j))) : (q.modCtx j f).Judges l i := by
  refine ⟨h.ordered.modCtx_kept hf, h.none, h.calm, h.place, ?_⟩
  exact Part.ctx_modCtx_cases (P := fun k c => (q.ctx k).owner = some l → c.owner = some l)
    (fun ho => hf.owner.trans ho) (fun _ _ ho => ho) i h.owner

theorem Part.Judges.releaseRelay (h : q.Judges l i) : (q.releaseRelay i).Judges l i :=
  ⟨h.ordered.releaseRelay, h.none, h.calm, h.place, h.owner⟩

theorem Part.Judges.collectRelay (h : q.Judges l i) : (q.collectRelay i).Judges l i :=
  ⟨h.ordered.collectRelay, h.none, h.calm, h.place, h.owner⟩

theorem Part.Judges.waitRelay (h : q.Judges l i) : (q.waitRelay i).Judges l i :=
  ⟨h.ordered.waitRelay, h.none, h.calm, h.place, h.owner⟩

theorem Part.Judges.markAnswered (h : q.Judges l i) : (q.markAnswered l).Judges l i :=
  h.modEng_same (.of_eq rfl rfl rfl rfl rfl rfl rfl)

theorem Part.Judges.heard {j : StationIx} (h : q.Judges l i) : (q.modCtx j Context.heard).Judges l i :=
  h.modCtx_kept ⟨rfl, rfl, rfl, id⟩

theorem Part.Judges.commitLatency {x : BitVec 16} (h : q.Judges l i) : (q.commitLatency l i x).1.Judges l i := by
  unfold Part.commitLatency
  dsimp only
  refine Part.Judges.modCtx_kept (h.modEng_same ?_) ?_
  · exact .of_eq rfl rfl rfl rfl rfl rfl rfl
  · exact ⟨rfl, rfl, rfl, id⟩

theorem Part.Judges.couplerHeard (h : q.Judges l i) :
    (q.couplerHeard i).1.Judges l i ∧ ∀ x ∈ (q.couplerHeard i).2, x.plain := by
  unfold Part.couplerHeard
  split
  · refine ⟨h.heard, ?_⟩
    dsimp only
    split
    · exact SchedOp.forall_plain_nil
    · exact List.forall_mem_singleton.mpr (SchedOp.plain_writeStationHalf _)
  · exact ⟨h, SchedOp.forall_plain_nil⟩

/-! ### What the judgement writes -/

/-- What follows the writes of a judgement: plain operations, and the end of the turn. -/
def SchedOp.endsTurn (follow : List SchedOp) : Prop := ∃ fs, follow = fs ++ [.endTurn] ∧ ∀ x ∈ fs, x.plain

theorem SchedOp.endsTurn_concat (h : ∀ x ∈ ops, x.plain) : SchedOp.endsTurn (ops ++ [.endTurn]) := ⟨ops, rfl, h⟩

theorem SchedOp.endsTurn.cons (h : SchedOp.endsTurn follow) (hop : op.plain) : SchedOp.endsTurn (op :: follow) := by
  obtain ⟨fs, rfl, hfs⟩ := h
  exact ⟨op :: fs, rfl, List.forall_mem_cons.mpr ⟨hop, hfs⟩⟩

/-- The writes of a judgement, for its station, and one operation of the turn. -/
theorem Part.Judges.push (h : q.Judges l i) (hfor : ∀ x ∈ ops, x.worksFor i)
    (hentry : (∀ x ∈ ops, x.plain) ∨ q.entryless i) (hturn : op.ofTurn = true)
    (howned : ∀ j ∈ op.station, (q.ctx j).owner = some l ∧ (op.afterRelease = true → q.entryless j)) :
    (q.push l (ops ++ [op])).Ordered := by
  have hops : ∀ x ∈ ops, ∀ j ∈ x.station, (q.ctx j).owner = some l ∧ (x.afterRelease = true → q.entryless j) := by
    rcases hentry with hplain | hfree
    · exact SchedOp.owned_of_plain hplain
    · exact SchedOp.owned_of_worksFor hfor ⟨h.owner, hfree⟩
  refine h.ordered.push ?_
  rw [← List.append_assoc]
  refine Part.MayRun.concat (List.forall_mem_append.mpr ⟨h.calm, fun x hx => (hfor x hx).1⟩)
    (List.forall_mem_append.mpr ⟨(h.ordered.loops l).owned, hops⟩) ⟨?_, List.pairwise_singleton .., List.isChain_singleton ..,
      List.forall_mem_singleton.mpr howned, ?_, ?_, ?_, ?_⟩ (SchedOp.beginsStep_of_ofTurn hturn)
  · refine List.forall_mem_singleton.mpr (SchedOp.mayHold_of_ofTurn (x := .endTurn) ?_ rfl hturn)
    unfold LoopControl.mayHold
    rcases h.place with hs | ⟨hs, -⟩ <;> rw [hs] <;> rfl
  · intro hs _
    rcases h.place with hd | ⟨-, hsome⟩
    · exact absurd (hd.symm.trans hs) (by simp)
    · exact ⟨hsome, List.forall_mem_singleton.mpr (SchedOp.ofScan_of_ofTurn hturn)⟩
  · intro hmem
    rw [← List.mem_singleton.mp hmem] at hturn
    exact absurd hturn Bool.false_ne_true
  · rintro ⟨x, hx, hentry⟩
    rw [List.mem_singleton.mp hx, SchedOp.ofTestEntry_of_ofTurn hturn] at hentry
    exact absurd hentry Bool.false_ne_true
  · rw [h.none]
    exact fun x hx => absurd hx (by simp)

theorem Part.Judges.push_plain (h : q.Judges l i) (hplain : ∀ x ∈ ops, x.plain) (hturn : op.ofTurn = true)
    (howned : ∀ j ∈ op.station, (q.ctx j).owner = some l ∧ (op.afterRelease = true → q.entryless j)) :
    (q.push l (ops ++ [op])).Ordered :=
  h.push (fun x hx => SchedOp.worksFor_of_plain (hplain x hx)) (.inl hplain) hturn howned

theorem Part.Judges.keepRecord {ph : RecordPhase} (h : q.Judges l i) (hfollow : SchedOp.endsTurn follow) :
    (q.keepRecord l i ph follow).Ordered := by
  obtain ⟨fs, rfl, hfs⟩ := hfollow
  have hq : (q.modCtx i fun c => { c with phase := ph }).Judges l i := h.modCtx_kept ⟨rfl, rfl, rfl, id⟩
  exact hq.push_plain (op := .endTurn) (List.forall_mem_cons.mpr ⟨SchedOp.plain_writeStationHalf i, hfs⟩) rfl
    fun j hj => absurd hj (by simp [SchedOp.station])

theorem Part.Judges.completeRecord {o : RecordOutcome} {bs : List Byte} {f : SeqFlip} {x : AfterRecord}
    (h : q.Judges l i) (hfollow : SchedOp.endsTurn follow) : (q.completeRecord l i o bs f x follow).Ordered := by
  obtain ⟨fs, rfl, hfs⟩ := hfollow
  unfold Part.completeRecord
  rw [← List.append_assoc]
  exact h.releaseRelay.push (op := .endTurn)
    (List.forall_mem_append.mpr ⟨Part.completionOf_worksFor, fun y hy => SchedOp.worksFor_of_plain (hfs y hy)⟩)
    (.inr (Part.entryless_releaseRelay i)) rfl fun j hj => absurd hj (by simp [SchedOp.station])

theorem Part.Judges.refuseRecord (h : q.Judges l i) (hfollow : SchedOp.endsTurn follow) :
    (q.refuseRecord l i follow).Ordered := h.completeRecord (hfollow.cons (SchedOp.plain_raise _))

theorem Part.Judges.holdRecord {ph : RecordPhase} (h : q.Judges l i) (hfollow : SchedOp.endsTurn follow) :
    (q.holdRecord l i ph follow).Ordered := by
  have hq : (q.modCtx i fun c => { c with recHolds := satInc c.recHolds }).Judges l i :=
    h.modCtx_kept ⟨rfl, rfl, rfl, id⟩
  unfold Part.holdRecord
  dsimp only
  split
  · exact hq.completeRecord hfollow
  · exact hq.keepRecord hfollow

theorem Part.Judges.judgePatience (h : q.Judges l i) (hfollow : SchedOp.endsTurn follow) :
    (q.judgePatience l i follow).Ordered := by
  unfold Part.judgePatience
  split
  · exact h.completeRecord hfollow
  · exact h.keepRecord hfollow

theorem Part.Judges.failRecord {k : AttemptKind} (h : q.Judges l i) (hfollow : SchedOp.endsTurn follow) :
    (q.failRecord l k i follow).Ordered := by
  have hq : (q.modCtx i fun c => { c with recAttempts := incTo 7 c.recAttempts, failures := c.failures + 1 }).Judges
      l i := h.modCtx_kept ⟨rfl, rfl, rfl, id⟩
  unfold Part.failRecord
  dsimp only
  split
  · exact Part.Judges.completeRecord (hq.modCtx_kept ⟨rfl, rfl, rfl, id⟩) hfollow
  · split
    · exact hq.releaseRelay.keepRecord hfollow
    · exact hq.judgePatience hfollow
    all_goals exact hq.keepRecord hfollow

theorem Part.Judges.duplicateReply {ph : RecordPhase} (h : q.Judges l i) (hfollow : SchedOp.endsTurn follow) :
    (q.duplicateReply l i ph follow).Ordered :=
  Part.Judges.keepRecord (h.modCtx_kept ⟨rfl, rfl, rfl, id⟩) hfollow

/-! ### Valid replies -/

theorem Part.Judges.judgeDirect {f : RxFrame} (h : q.Judges l i) (hops : ∀ x ∈ ops, x.plain) :
    (q.judgeDirect l a i f ops).Ordered := by
  have hfollow := SchedOp.endsTurn_concat hops
  unfold Part.judgeDirect
  dsimp only
  split
  · split
    · exact h.completeRecord hfollow
    · exact h.duplicateReply hfollow
  · exact h.holdRecord hfollow
  · exact h.completeRecord hfollow
  · exact h.holdRecord hfollow
  · have hq : (q.modCtx i fun c => { c with phase := .retry }).Judges l i := h.modCtx_kept ⟨rfl, rfl, rfl, id⟩
    refine hq.push_plain (op := .followOn i) (List.forall_mem_cons.mpr ⟨SchedOp.plain_writeStationHalf i, hops⟩) rfl
      fun j hj => ?_
    rw [← Option.some.inj hj]
    exact ⟨hq.owner, fun hafter => absurd hafter Bool.false_ne_true⟩
  · exact h.holdRecord hfollow
  · exact h.refuseRecord hfollow

theorem Part.Judges.judgeInner (h : q.Judges l i) (hfollow : SchedOp.endsTurn follow) :
    (q.judgeInner l a i follow).Ordered := by
  have hq : (q.modCtx i Context.heard).Judges l i := h.heard
  unfold Part.judgeInner
  dsimp only
  split
  · split
    · exact hq.completeRecord hfollow
    · exact hq.releaseRelay.duplicateReply hfollow
  · exact hq.completeRecord hfollow
  · exact hq.releaseRelay.holdRecord hfollow
  · exact hq.refuseRecord hfollow
  · exact h.failRecord hfollow

theorem Part.Judges.recordAttemptFailed {k : AttemptKind} (h : q.Judges l i) :
    (q.recordAttemptFailed l k i).Ordered :=
  Part.Judges.failRecord (h.modCtx_kept ⟨rfl, rfl, rfl, id⟩) (SchedOp.endsTurn_concat SchedOp.forall_plain_nil)

theorem Part.Judges.recordReply {f : RxFrame} (h : q.Judges l i) : (q.recordReply l a i f).Ordered := by
  obtain ⟨hc, hheard⟩ := h.markAnswered.couplerHeard
  have ht := hc.commitLatency (x := a.latency.getD 0)
  have hfollow := SchedOp.endsTurn_concat (List.forall_mem_append.mpr
    ⟨hheard, trapOps_plain (b := (((q.markAnswered l).couplerHeard i).1.commitLatency l i (a.latency.getD 0)).2)⟩)
  unfold Part.recordReply
  dsimp only
  split
  · split
    · exact ht.collectRelay.keepRecord hfollow
    · exact ht.releaseRelay.holdRecord hfollow
    · exact ht.refuseRecord hfollow
  · split
    · exact h.recordAttemptFailed
    · split
      · exact ht.judgeInner hfollow
      · exact ht.waitRelay.judgePatience hfollow
  all_goals exact h.markAnswered.heard.commitLatency.judgeDirect trapOps_plain

theorem Part.Judges.recordOverlong {b : Bool} (h : q.Judges l i) : (q.recordOverlong l a i b).Ordered := by
  unfold Part.recordOverlong
  dsimp only
  split
  · exact h.commitLatency.completeRecord
      (SchedOp.endsTurn_concat (List.forall_mem_append.mpr ⟨SchedOp.forall_plain_nil, trapOps_plain⟩))
  · split
    · obtain ⟨hc, hheard⟩ := h.markAnswered.couplerHeard
      exact hc.commitLatency.completeRecord
        (SchedOp.endsTurn_concat (List.forall_mem_append.mpr ⟨hheard, trapOps_plain⟩))
    · exact h.markAnswered.heard.commitLatency.completeRecord
        (SchedOp.endsTurn_concat (List.forall_mem_append.mpr ⟨SchedOp.forall_plain_nil, trapOps_plain⟩))

end

end Sys2Proof.Machine
end

