-- ==== Sys2Proof/Proofs/LineOrder.lean ====
section
/-!
Roll-call, the ends of attempts, the screens and the events of the line keep the order of the work (R76 to R80, R110,
R120, R138, R144, R148, R154).
-/
namespace Sys2Proof.Machine

open Sys2Proof

section
variable {q : Part} {l : LoopId} {i : StationIx} {ops : List SchedOp} {a : Attempt}

/-! ### Roll-call -/

theorem Part.JudgesRoll.modEng_same {f : Engine → Engine} (h : q.JudgesRoll l i)
    (he : (q.eng l).SameWork (f (q.eng l))) : (q.modEng l f).JudgesRoll l i := by
  refine ⟨h.ordered.modEng_same he, ?_, ?_, ?_, ?_⟩
  · rw [Part.eng_modEng]
    exact he.attempt_none h.none
  · rw [Part.eng_modEng, he.sched]
    exact h.calm
  · rw [Part.eng_modEng, he.state]
    exact h.place
  · rw [Part.modEng_ctx]
    exact h.owner

theorem Part.JudgesRoll.modCtx_kept {f : Context → Context} {j : StationIx} (h : q.JudgesRoll l i)
    (hf : (q.ctx j).KeepsHold (f (q.ctx j))) : (q.modCtx j f).JudgesRoll l i := by
  refine ⟨h.ordered.modCtx_kept hf, h.none, h.calm, h.place, ?_⟩
  exact Part.ctx_modCtx_cases (P := fun k c => (q.ctx k).owner = some l → c.owner = some l)
    (fun ho => hf.owner.trans ho) (fun _ _ ho => ho) i h.owner

theorem Part.JudgesRoll.releaseRelay (h : q.JudgesRoll l i) : (q.releaseRelay i).JudgesRoll l i :=
  ⟨h.ordered.releaseRelay, h.none, h.calm, h.place, h.owner⟩

/-- The roll list goes on, and after its last station the roll-call ends. -/
theorem Part.JudgesRoll.rollAdvance (h : q.JudgesRoll l i) (hfor : ∀ x ∈ ops, x.worksFor i)
    (hentry : (∀ x ∈ ops, x.plain) ∨ q.entryless i) : (q.rollAdvance l ops).Ordered := by
  have hq : (q.modEng l fun e => { e with rollList := (q.eng l).rollList.drop 1, rollSecond := false }).Ordered := by
    refine h.ordered.enter h.calm rfl rfl h.none .inl fun hs j hj => ?_
    obtain ⟨-, hroll, -, -⟩ := (h.ordered.loops l).placed
    exact hroll hs j (List.mem_of_mem_drop hj)
  have hops : ∀ x ∈ ops, ∀ j ∈ x.station, (q.ctx j).owner = some l ∧ (x.afterRelease = true → q.entryless j) := by
    rcases hentry with hplain | hfree
    · exact SchedOp.owned_of_plain hplain
    · exact SchedOp.owned_of_worksFor hfor ⟨h.owner, hfree⟩
  have hcalm : ∀ x ∈ (q.eng l).sched ++ ops, x.calm := List.forall_mem_append.mpr ⟨h.calm, fun x hx => (hfor x hx).1⟩
  have howned : ∀ x ∈ (q.eng l).sched ++ ops, ∀ j ∈ x.station,
      (q.ctx j).owner = some l ∧ (x.afterRelease = true → q.entryless j) :=
    List.forall_mem_append.mpr ⟨(h.ordered.loops l).owned, hops⟩
  unfold Part.rollAdvance
  dsimp only
  generalize hr : (q.modEng l fun e => { e with rollList := (q.eng l).rollList.drop 1, rollSecond := false }) = r at hq
  have heng : r.eng l = { q.eng l with rollList := (q.eng l).rollList.drop 1, rollSecond := false } := by
    rw [← hr, Part.eng_modEng]
  have howned' : ∀ x ∈ (q.eng l).sched ++ ops, ∀ j ∈ x.station,
      (r.ctx j).owner = some l ∧ (x.afterRelease = true → r.entryless j) := by
    rw [← hr]
    unfold Part.entryless
    simp only [Part.modEng_ctx, Part.modEng_relays]
    exact howned
  refine hq.push ?_
  rw [heng]
  dsimp only
  rw [← List.append_assoc]
  split
  · rename_i hlast
    rw [Bool.and_eq_true_iff, List.isEmpty_iff, beq_iff_eq] at hlast
    obtain ⟨hempty, hs⟩ := hlast
    refine Part.MayRun.concat hcalm howned' (.single ?_ rfl rfl (fun _ => ?_) (fun he => absurd he Bool.false_ne_true) ?_) rfl
    all_goals rw [heng]
    · show ((q.eng l).ctl.state == .rollcall) = true
      rw [hs]
      rfl
    · exact hempty
    · exact h.none
  · rw [List.append_nil]
    exact .of_calm hcalm howned'

theorem Part.JudgesRoll.reviveAll {js : List StationIx} (h : q.JudgesRoll l i) : (q.reviveAll js).JudgesRoll l i := by
  induction js generalizing q with
  | nil => exact h
  | cons j js ih => exact ih (h.modCtx_kept ⟨rfl, rfl, rfl, fun hs => absurd hs (by simp [Context.revive])⟩)

theorem Part.JudgesRoll.rollPresent (h : q.JudgesRoll l i) : (q.rollPresent l i).Ordered := by
  have hwrites : ∀ x ∈ SchedOp.writeStationHalf i :: (q.revived l i).map .writeStationHalf, x.plain :=
    List.forall_mem_cons.mpr ⟨SchedOp.plain_writeStationHalf i, fun x hx => by
      obtain ⟨j, -, rfl⟩ := List.mem_map.mp hx
      exact SchedOp.plain_writeStationHalf j⟩
  unfold Part.rollPresent
  dsimp only
  refine Part.JudgesRoll.rollAdvance (Part.JudgesRoll.modEng_same (Part.JudgesRoll.reviveAll (h.modCtx_kept ?_)) ?_)
    (fun x hx => SchedOp.worksFor_of_plain (hwrites x hx)) (.inl hwrites)
  · split
    · exact ⟨rfl, rfl, rfl, fun hs => absurd hs (by simp [Context.revive])⟩
    · exact ⟨rfl, rfl, rfl, id⟩
  · exact .of_eq rfl rfl rfl rfl rfl rfl rfl

theorem Part.JudgesRoll.rollAbsent (h : q.JudgesRoll l i) : (q.rollAbsent l i).Ordered := by
  have hq : ((q.modCtx i fun c => { c with present := false, state := .absent }).modEng l fun e =>
      { e with rep := { e.rep with rollAbsent := satInc e.rep.rollAbsent } }).JudgesRoll l i := by
    refine Part.JudgesRoll.modEng_same (h.modCtx_kept ?_) ?_
    · exact ⟨rfl, rfl, rfl, fun hs => absurd hs (by simp)⟩
    · exact .of_eq rfl rfl rfl rfl rfl rfl rfl
  unfold Part.rollAbsent
  dsimp only
  refine hq.releaseRelay.rollAdvance ?_ (.inr (Part.entryless_releaseRelay i))
  split
  · exact Part.completionOf_worksFor
  · exact List.forall_mem_singleton.mpr (SchedOp.worksFor_of_plain (SchedOp.plain_writeStationHalf i))

theorem Part.JudgesRoll.rollFailed (h : q.JudgesRoll l i) : (q.rollFailed l i).Ordered := by
  unfold Part.rollFailed
  split
  · exact h.rollAbsent
  · split
    · exact h.ordered.modEng_same (.of_eq rfl rfl rfl rfl rfl rfl rfl)
    · exact h.ordered

/-! ### The ends of attempts -/

theorem Part.Ordered.attemptFailed (h : q.Ordered) : (q.attemptFailed l).Ordered := by
  unfold Part.attemptFailed
  split
  · exact h
  · rename_i a ha
    dsimp only
    split
    · rename_i hk
      exact h.endAttempt.testLost (h.calm_of_testAttempt ha hk)
    · rename_i hk hi
      exact (h.judgesRoll ha hk hi).rollFailed
    · rename_i hi htest hroll
      exact (h.judges ha htest hroll hi).recordAttemptFailed
    · exact h.endAttempt

theorem Part.Ordered.overlongFinished {b : Bool} (h : q.Ordered) : (q.overlongFinished l b).Ordered := by
  unfold Part.overlongFinished
  split
  · exact h
  · rename_i a ha
    dsimp only
    split
    · rename_i hk
      exact h.endAttempt.testLost (h.calm_of_testAttempt ha hk)
    · rename_i hk hi
      exact (h.judgesRoll ha hk hi).rollFailed
    · rename_i hi htest hroll
      exact (h.judges ha htest hroll hi).recordOverlong
    · exact h.endAttempt

theorem Part.Ordered.judgeReply {f : RxFrame} (h : q.Ordered) : (q.judgeReply l f).Ordered := by
  unfold Part.judgeReply
  split
  · exact h
  · rename_i a ha
    split
    · dsimp only
      split
      · rename_i hk
        exact h.endAttempt.testReturned (h.calm_of_testAttempt ha hk)
      · rename_i hk hi
        exact (h.judgesRoll ha hk hi).rollPresent
      · rename_i hi htest hroll
        exact (h.judges ha htest hroll hi).recordReply
      · exact h.endAttempt
    · exact h.attemptFailed

/-- The Exchange Unit changes its state without becoming idle, and its attempt in what the order does not speak of. -/
theorem Part.Ordered.changeUnit {f : Engine → Engine} {x : ExchangeUnit} (h : q.Ordered)
    (he : ({ q.eng l with xu := x } : Engine).SameWork (f (q.eng l)))
    (hidle : x.state = .idle → (q.eng l).xu.state = .idle)
    (hattempt : ∀ a ∈ x.attempt, ∃ b ∈ (q.eng l).xu.attempt, b.kind = a.kind ∧ b.station = a.station) :
    (q.modEng l f).Ordered :=
  h.modEng_same (Engine.SameWork.trans (e' := { q.eng l with xu := x }) ⟨rfl, rfl, rfl, rfl, rfl, fun hi => .inl (hidle hi), hattempt, rfl⟩ he)

theorem Part.Ordered.exchangeError {b : Bool} (h : q.Ordered) : (q.exchangeError l b).Ordered := by
  unfold Part.exchangeError
  split
  · exact h.attemptFailed
  · split
    · exact h.attemptFailed
    · exact h
  · rename_i a hs ha
    split
    · exact h.overlongFinished
    · exact h.changeUnit (.refl _) id fun x hx => ⟨a, ha, by cases hx; exact ⟨rfl, rfl⟩⟩
  · exact h

/-! ### The catch path and the wake -/

theorem SchedOp.reports_cons {op : SchedOp} (hop : op.ofReport = true) :
    ∀ x ∈ [SchedOp.writeLoopHalf, op], x.ofReport = true :=
  List.forall_mem_cons.mpr ⟨rfl, List.forall_mem_singleton.mpr hop⟩

theorem Part.Ordered.acceptFrame {f : CatchFrame} (h : q.Ordered) : (q.acceptFrame l f).Ordered := by
  unfold Part.acceptFrame
  split
  · exact h.modEng_same (.of_eq rfl rfl rfl rfl rfl rfl rfl)
  · refine Part.Ordered.pushUrgent (h.modEng_same ?_) (SchedOp.reports_cons rfl)
    exact .of_eq rfl rfl rfl rfl rfl rfl rfl

theorem Part.Ordered.announceScreen {f : RxFrame} (h : q.Ordered) : (q.announceScreen l f).Ordered := by
  unfold Part.announceScreen
  dsimp only
  split
  · exact h.screening _
  · exact (h.screening _).acceptFrame

theorem Part.Ordered.catchDrop {b : Bool} (h : q.Ordered) : (q.catchDrop l b).Ordered := by
  refine Part.Ordered.pushUrgent (h.modEng_same ?_) (SchedOp.reports_cons rfl)
  exact .of_eq rfl rfl rfl rfl rfl rfl rfl

theorem Part.Ordered.catchNext {o : CatchOp} (h : q.Ordered) : (q.catchNext l o).Ordered :=
  h.modEng_same (.of_eq rfl rfl rfl rfl rfl rfl rfl)

theorem Part.Ordered.catchLink {k : RecordIx} (h : q.Ordered) : (q.catchLink l k).Ordered := by
  unfold Part.catchLink
  split
  · exact h.catchDrop
  · split
    · refine Part.Ordered.catchNext (h.modEng_same ?_)
      exact .of_eq rfl rfl rfl rfl rfl rfl rfl
    · exact h.catchDrop

theorem Part.Ordered.catchFill {k : RecordIx} (h : q.Ordered) : (q.catchFill l k).Ordered := by
  refine Part.Ordered.pushUrgent (h.modEng_same ?_) (SchedOp.reports_cons rfl)
  exact .of_eq rfl rfl rfl rfl rfl rfl rfl

theorem Part.Ordered.catchDone {bs : List Byte} (h : q.Ordered) : (q.catchDone l bs).Ordered := by
  unfold Part.catchDone
  split
  · exact h
  · exact h.catchLink
  · exact h.catchLink
  · split
    · exact h.catchNext
    · exact h.catchDrop
  · split
    · exact h.catchNext
    · exact h.catchNext
  · exact h.catchNext
  · exact h.catchFill

/-- In OFF, QUIET and FAULT calm operations alone wait. -/
theorem Part.LoopOrder.calm_of_rest (h : q.LoopOrder l)
    (hs : (q.eng l).ctl.state = .off ∨ (q.eng l).ctl.state = .quiet ∨ (q.eng l).ctl.state = .fault) :
    ∀ x ∈ (q.eng l).sched, x.calm := fun x hx => SchedOp.calm_of_rest (h.held x hx) hs

theorem Part.Ordered.wake {r : WakeRecord} (h : q.Ordered) (hs : (q.eng l).ctl.state = .quiet) : (q.wake l r).Ordered := by
  refine Part.Ordered.enterStarting (h.screening _).raiseCause ?_
  rw [Part.raiseCause_eng]
  have heng : ({ q with screening := q.screening.fillWake l r } : Part).eng l = q.eng l := by cases l <;> rfl
  rw [heng]
  exact (h.loops l).calm_of_rest (.inr (.inl hs))

theorem Part.Ordered.wakeScreen {f : RxFrame} (h : q.Ordered) (hs : (q.eng l).ctl.state = .quiet) :
    (q.wakeScreen l f).Ordered := by
  have heng : ∀ s : ScreeningStore, ({ q with screening := s } : Part).eng l = q.eng l := fun s => by cases l <;> rfl
  unfold Part.wakeScreen
  dsimp only
  split
  · exact h.screening _
  · refine (h.screening _).wake ?_
    rw [heng]
    exact hs

theorem Part.Ordered.unsolicited {f : RxFrame} (h : q.Ordered) : (q.unsolicited l f).Ordered := by
  unfold Part.unsolicited
  split
  case h_5 hs => exact h.wakeScreen hs
  case h_1 | h_2 | h_3 | h_4 => exact h.announceScreen
  all_goals exact h

/-! ### Events of the line -/

theorem Part.Ordered.setReceiver {r : Receiver} (h : q.Ordered) : (q.setReceiver l r).Ordered :=
  h.modEng_same (.of_eq rfl rfl rfl rfl rfl rfl rfl)

/-- A test frame of INTERNAL_RETURN is in flight: no entry to TEST is under way. -/
theorem Part.Ordered.calm_of_inFlight (h : q.Ordered) (hf : q.internalInFlight l = true) :
    ∀ x ∈ (q.eng l).sched, x.calm := by
  unfold Part.internalInFlight Engine.internalReturn at hf
  rw [Bool.and_eq_true_iff, Bool.and_eq_true_iff, Bool.and_eq_true_iff, beq_iff_eq] at hf
  obtain ⟨⟨⟨hs, hv⟩, -⟩, hcopy⟩ := hf
  refine (h.loops l).calm_of_test hs fun x hx => ?_
  rw [← Bool.not_eq_true]
  intro hentry
  obtain ⟨-, -, -, hplaced⟩ := (h.loops l).placed
  obtain ⟨-, hempty⟩ := hplaced ⟨x, hx, hentry⟩
  rw [hempty hv] at hcopy
  exact absurd hcopy (by simp)

theorem Part.Ordered.frameError {b : Bool} (h : q.Ordered) : (q.frameError l b).Ordered := by
  have hq : (q.modEng l Engine.countFrameError).Ordered := h.modEng_same .countFrameError
  unfold Part.frameError
  dsimp only
  split
  · split
    · rename_i hf
      refine hq.testLost ?_
      rw [Part.eng_modEng, Engine.countFrameError_sched]
      exact h.calm_of_inFlight hf
    · exact hq
  · exact hq.exchangeError

theorem Part.Ordered.disturbed (h : q.Ordered) : (q.disturbed l).Ordered := h.setReceiver.frameError

theorem Part.Ordered.activityStarts {n : Nat} (h : q.Ordered) : (q.activityStarts l n).Ordered := by
  have hq : (q.modEng l fun e =>
      { e with framer := { e.framer with activity := some n, markSince := n + e.charTime } }).Ordered :=
    h.modEng_same (.of_eq rfl rfl rfl rfl rfl rfl rfl)
  unfold Part.activityStarts
  dsimp only
  split
  · rename_i hw
    rw [Bool.and_eq_true_iff, Bool.and_eq_true_iff, beq_iff_eq] at hw
    obtain ⟨⟨hs, -⟩, -⟩ := hw
    refine hq.setReceiver.wake ?_
    unfold Part.setReceiver
    rw [Part.eng_modEng, Part.eng_modEng]
    exact hs
  · exact hq

theorem Part.Ordered.activityStart {n : Nat} (h : q.Ordered) : (q.activityStart l n).Ordered := by
  unfold Part.activityStart
  split
  · exact h.activityStarts
  · exact h

theorem Part.Ordered.endActivity (h : q.Ordered) : (q.endActivity l).Ordered := by
  have hq : (q.modEng l fun e => { e with framer := { e.framer with activity := none } }).Ordered :=
    h.modEng_same (.of_eq rfl rfl rfl rfl rfl rfl rfl)
  unfold Part.endActivity
  dsimp only
  split
  · exact hq.disturbed
  · exact hq

/-- A held frame goes out on the idle line. -/
theorem Part.Ordered.sendHeld (h : q.Ordered) :
    (if (q.eng l).lineIsIdle q.now then q.modEng l (Engine.beginSend q.now) else q).Ordered := by
  split
  · exact h.modEng_same .beginSend
  · exact h

theorem Part.Ordered.idleLine (h : q.Ordered) : (q.idleLine l).Ordered := by
  have hq : (q.modEng l fun e => { e with framer := { e.framer with
      receiver := if e.rateLatched then e.framer.receiver.afterIdle else e.framer.receiver } }).Ordered :=
    h.modEng_same (.of_eq rfl rfl rfl rfl rfl rfl rfl)
  unfold Part.idleLine
  refine Part.Ordered.sendHeld ?_
  split
  · exact hq.overlongFinished
  · exact hq

theorem Part.Ordered.lineIdle (h : q.Ordered) : (q.lineIdle l).Ordered := h.endActivity.idleLine

theorem Part.Ordered.beaconEnded (h : q.Ordered) : (q.beaconEnded l).Ordered := by
  unfold Part.beaconEnded
  dsimp only
  split
  · refine Part.Ordered.followWindows (h.modEng_same ?_)
    exact .of_eq rfl rfl rfl rfl rfl rfl rfl
  · exact h

theorem Part.Ordered.abandonedFrame {x : TxPurpose} (h : q.Ordered) : (q.abandonedFrame l x).Ordered := by
  unfold Part.abandonedFrame
  split
  · exact h.beaconEnded
  · exact h
  · exact h.attemptFailed
  · exact h.attemptFailed

theorem Part.Ordered.collision (h : q.Ordered) : (q.collision l).Ordered := by
  unfold Part.collision
  split
  · refine Part.Ordered.abandonedFrame (h.modEng_same ?_)
    unfold Engine.collide Engine.countCollision
    refine Engine.SameWork.trans ?_ .countFrameError
    exact .of_eq rfl rfl rfl rfl rfl rfl rfl
  · exact h

theorem Part.Ordered.readBack {x : Sending} (h : q.Ordered) : (q.readBack l x).Ordered :=
  h.modEng_same (.of_eq rfl rfl rfl rfl rfl rfl rfl)

/-- A lead character may open the reply: the unit's attempt is the same in kind and station. -/
theorem ExchangeUnit.lead_kept (n : Nat) (x : ExchangeUnit) : ((x.lead n).state = .idle → x.state = .idle) ∧
    ∀ a ∈ (x.lead n).attempt, ∃ b ∈ x.attempt, b.kind = a.kind ∧ b.station = a.station := by
  unfold ExchangeUnit.lead
  split
  · rename_i b hs hb
    split
    · refine ⟨fun hi => absurd hi (by simp), fun a ha => ⟨b, hb, ?_⟩⟩
      cases ha
      exact ⟨rfl, rfl⟩
    · exact ⟨id, fun a ha => ⟨a, ha, rfl, rfl⟩⟩
  · exact ⟨id, fun a ha => ⟨a, ha, rfl, rfl⟩⟩

theorem ExchangeUnit.character_kept (cs : List Byte) (x : ExchangeUnit) :
    ((x.character cs).state = .idle → x.state = .idle) ∧
      ∀ a ∈ (x.character cs).attempt, ∃ b ∈ x.attempt, b.kind = a.kind ∧ b.station = a.station := by
  have same : (x.state = .idle → x.state = .idle) ∧ ∀ a ∈ x.attempt, ∃ b ∈ x.attempt, b.kind = a.kind ∧ b.station = a.station :=
    ⟨id, fun a ha => ⟨a, ha, rfl, rfl⟩⟩
  unfold ExchangeUnit.character
  split
  · unfold ExchangeUnit.header
    split
    · split
      · exact ⟨fun hi => absurd hi (by simp), same.2⟩
      · exact same
    · exact same
  · split
    · unfold ExchangeUnit.payloadByte
      split
      · rename_i b hs hb
        refine ⟨same.1, fun a ha => ⟨b, hb, ?_⟩⟩
        cases ha
        exact ⟨rfl, rfl⟩
      · exact same
    · exact same

theorem ExchangeUnit.await_kept (n : Nat) (x : ExchangeUnit) : ((x.await n).state = .idle → x.state = .idle) ∧
    ∀ a ∈ (x.await n).attempt, ∃ b ∈ x.attempt, b.kind = a.kind ∧ b.station = a.station := by
  unfold ExchangeUnit.await
  split
  · rename_i b hs hb
    refine ⟨fun hi => absurd hi (by simp), fun a ha => ⟨b, hb, ?_⟩⟩
    cases ha
    exact ⟨rfl, rfl⟩
  · exact ⟨id, fun a ha => ⟨a, ha, rfl, rfl⟩⟩

theorem ExchangeUnit.waitCharacter_kept (x : ExchangeUnit) : (x.waitCharacter.state = .idle → x.state = .idle) ∧
    ∀ a ∈ x.waitCharacter.attempt, ∃ b ∈ x.attempt, b.kind = a.kind ∧ b.station = a.station := by
  refine ⟨id, fun a ha => ?_⟩
  obtain ⟨b, hb, rfl⟩ := Option.map_eq_some_iff.mp ha
  exact ⟨b, hb, rfl, rfl⟩

theorem Part.Ordered.firstCharacter {n : Nat} {v : Byte} {b : Bool} (h : q.Ordered) :
    (q.firstCharacter l n v b).Ordered := by
  obtain ⟨hidle, hattempt⟩ := (q.eng l).xu.lead_kept n
  have hq : (q.modEng l fun e =>
      { e with framer := { e.framer with receiver := .frame [v] }, xu := e.xu.lead n }).Ordered :=
    h.changeUnit (.of_eq rfl rfl rfl rfl rfl rfl rfl) hidle hattempt
  unfold Part.firstCharacter
  split
  · dsimp only
    split
    · exact hq.attemptFailed
    · exact hq
  · exact h.disturbed

theorem Part.Ordered.nextCharacter {cs : List Byte} {v : Byte} {b : Bool} (h : q.Ordered) :
    (q.nextCharacter l cs v b).Ordered := by
  unfold Part.nextCharacter
  dsimp only
  split
  · exact h
  · split
    · exact h.disturbed
    · split
      · exact h.disturbed
      · obtain ⟨hidle, hattempt⟩ := (q.eng l).xu.character_kept (cs ++ [v])
        exact h.changeUnit (.of_eq rfl rfl rfl rfl rfl rfl rfl) hidle hattempt

theorem Part.Ordered.takeCharacter {n : Nat} {v : Byte} {b : Bool} (h : q.Ordered) :
    (q.takeCharacter l n v b).Ordered := by
  unfold Part.takeCharacter
  split
  · exact h.firstCharacter
  · exact h.nextCharacter
  · exact h
  · exact h

theorem Part.Ordered.character {v : Byte} {b : Bool} (h : q.Ordered) : (q.character l v b).Ordered := by
  have hmark : ∀ p : Part, p.Ordered → (p.modEng l (Engine.markCharacter q.now)).Ordered := fun p hp =>
    hp.modEng_same (.of_eq rfl rfl rfl rfl rfl rfl rfl)
  unfold Part.character
  dsimp only
  split
  · split
    · exact (hmark _ h.readBack).takeCharacter
    · split
      · exact h.readBack
      · exact h.collision
  · exact (hmark _ h.activityStart).takeCharacter

theorem Part.Ordered.validFrame {f : RxFrame} (h : q.Ordered) : (q.validFrame l f).Ordered := by
  unfold Part.validFrame
  split
  · split
    · rename_i hf
      split
      · exact h.testReturned (h.calm_of_inFlight hf)
      · exact h.testLost (h.calm_of_inFlight hf)
    · exact h
  · split
    · exact h.judgeReply
    · exact h.overlongFinished
    all_goals exact h.unsolicited

theorem Part.Ordered.frameEnd (h : q.Ordered) : (q.frameEnd l).Ordered := by
  unfold Part.frameEnd
  split
  · dsimp only
    split
    · exact h.setReceiver.validFrame
    · exact h.setReceiver.frameError
  · exact h

theorem Part.Ordered.sentFrame {x : TxPurpose} (h : q.Ordered) : (q.sentFrame l x).Ordered := by
  obtain ⟨hidle, hattempt⟩ := (q.eng l).xu.await_kept q.now
  have hq : (q.modEng l fun e => { e with xu := e.xu.await q.now }).Ordered :=
    h.changeUnit (.of_eq rfl rfl rfl rfl rfl rfl rfl) hidle hattempt
  unfold Part.sentFrame
  split
  · exact h.beaconEnded
  · exact h
  · exact hq
  · exact hq

theorem Part.Ordered.endOfFrame (h : q.Ordered) : (q.endOfFrame l).Ordered := by
  unfold Part.endOfFrame
  split
  · refine Part.Ordered.sentFrame (h.modEng_same ?_)
    exact .of_eq rfl rfl rfl rfl rfl rfl rfl
  · exact h

theorem Part.Ordered.replyTimeout {b : Bool} (h : q.Ordered) : (q.replyTimeout l b).Ordered := by
  obtain ⟨hidle, hattempt⟩ := (q.eng l).xu.waitCharacter_kept
  unfold Part.replyTimeout
  split
  · exact h.changeUnit (.of_eq rfl rfl rfl rfl rfl rfl rfl) hidle hattempt
  · exact h.attemptFailed

end

end Sys2Proof.Machine
end

