-- ==== Sys2Proof/Proofs/LeavingOrder.lean ====
section
/-!
What is left of a procedure when its loop drains, goes down, stops or fails keeps the order of the work (R126, R128, R134,
R135, R140, R151).
-/
namespace Sys2Proof.Machine

open Sys2Proof

section
variable {q : Part} {l : LoopId} {op x y : SchedOp} {i : StationIx} {ops follow : List SchedOp} {c c' : LoopControl}

/-! ### Where the procedure stands -/

/-- The procedure stands at a transfer or at the wait for the transmitter, or at its end. -/
def Engine.headWaits (e : Engine) : Prop := ∀ op ∈ e.sched.head?, op.transfers = true ∨ op = .awaitTransmitter

theorem Part.headWaits_of_paused (h : q.paused l = true) : (q.eng l).headWaits := by
  intro op hop
  unfold Part.paused at h
  cases hs : (q.eng l).sched with
  | nil =>
    rw [hs] at hop
    exact absurd hop (by simp)
  | cons x rest =>
    rw [hs] at hop h
    cases hop
    have hwaits : q.waitsAt l op = true := h
    rw [Part.waitsAt_eq, Bool.or_eq_true, Bool.and_eq_true, beq_iff_eq] at hwaits
    exact hwaits.imp_right And.left

theorem SchedOp.beginsStep_of_waits (h : op.transfers = true ∨ op = .awaitTransmitter) : op.beginsStep = false := by
  rcases h with h | rfl
  · cases op
    any_goals cases h
    all_goals rfl
  · rfl

theorem SchedOp.changesState_of_waits (h : op.transfers = true ∨ op = .awaitTransmitter) : op.changesState = false := by
  rcases h with h | rfl
  · cases op
    any_goals cases h
    all_goals rfl
  · rfl

theorem Engine.headWaits.headPlaced {e : Engine} (h : e.headWaits) : e.headPlaced :=
  fun op hop => SchedOp.beginsStep_of_waits (h op hop)

/-- Behind the operation at which a procedure stands may be one of no station that does not end a turn. -/
theorem SchedOp.mayPrecede_of_waits (hx : x.transfers = true ∨ x = .awaitTransmitter) (hs : y.station = none)
    (he : y ≠ .endTurn) : x.mayPrecede y = true := by
  unfold SchedOp.mayPrecede
  rw [SchedOp.changesState_of_waits hx, if_neg Bool.false_ne_true, hs, bne_iff_ne.mpr he]
  split
  · rfl
  · split
    · rfl
    · rfl
    · exact bne_iff_ne.mpr (by simp)
    · rfl

/-! ### DRAINING, DOWN and JAMMED -/

/-- What may stand in a loop at work, but for the beginning of a step and the end of a roll-call, may stand in it still
when it leaves its work. -/
theorem SchedOp.mayHold_leaving (h : c.mayHold op = true)
    (hs : c.state = .running ∨ c.state = .rollcall ∨ c.state = .draining ∨ c.state = .quiet ∨
      (c.state = .starting ∧ c.validated = true))
    (hs' : c'.state = .draining ∨ c'.state = .down ∨ c'.state = .jammed) (hb : op.beginsStep = false)
    (hr : op ≠ .rollEnd) : c'.mayHold op = true := by
  obtain ⟨state, _, _, _, _, _, _, validated⟩ := c
  have hleave : ∀ z : SchedOp, (∃ i, z = .judge i) ∨ (∃ i, z = .disown i) ∨ z.ofTurn = true → c'.mayHold z = true := by
    obtain ⟨state', _, _, _, _, _, _, validated'⟩ := c'
    rintro z (⟨i, rfl⟩ | ⟨i, rfl⟩ | hz)
    · rcases hs' with rfl | rfl | rfl <;> rfl
    · rcases hs' with rfl | rfl | rfl <;> rfl
    · refine SchedOp.mayHold_of_ofTurn (x := .endTurn) ?_ rfl hz
      rcases hs' with rfl | rfl | rfl <;> rfl
  cases op
  case judge i => exact hleave _ (.inl ⟨i, rfl⟩)
  case disown i => exact hleave _ (.inr (.inl ⟨i, rfl⟩))
  case rollEnd => exact absurd rfl hr
  case startResets | startNext | enterTarget => cases hb
  case readLink | readRecord | writeActive | takeCheck | fitTest | followOn | endTurn => exact hleave _ (.inr (.inr rfl))
  case startValidate | startAbort | enterOff | testValidate | testFirst | testAbort =>
    rcases hs with rfl | rfl | rfl | rfl | ⟨rfl, hv⟩
    case inr.inr.inr.inr =>
      obtain rfl : validated = true := hv
      exact absurd h Bool.false_ne_true
    all_goals exact absurd h Bool.false_ne_true
  all_goals rfl

/-- What stands in DRAINING, DOWN or JAMMED belongs to no roll-call and to no test entry. -/
theorem Part.LoopOrder.of_leaving (hheld : ∀ x ∈ (q.eng l).sched, (q.eng l).ctl.mayHold x = true)
    (hfollows : (q.eng l).sched.Pairwise fun x y => x.mayPrecede y = true)
    (hbegin : ∀ x ∈ (q.eng l).sched, x.beginsStep = false)
    (hreports : ∀ x ∈ (q.eng l).urgent, x.ofReport = true) (howned : q.workOwned l)
    (hs : (q.eng l).ctl.state = .draining ∨ (q.eng l).ctl.state = .down ∨ (q.eng l).ctl.state = .jammed)
    (hattempt : q.attemptPlaced l) : q.LoopOrder l := by
  refine ⟨hheld, hfollows, SchedOp.chain_of_no_step hbegin, hreports, howned, ⟨?_, ?_, ?_, ?_⟩, hattempt⟩
  · intro hrun
    rcases hs with hs | hs | hs <;> exact absurd (hs.symm.trans hrun) (by simp)
  · intro hrun
    rcases hs with hs | hs | hs <;> exact absurd (hs.symm.trans hrun) (by simp)
  · intro hmem
    have hroll : (q.eng l).ctl.state = .rollcall := eq_of_beq (hheld _ hmem)
    rcases hs with hs | hs | hs <;> exact absurd (hs.symm.trans hroll) (by simp)
  · rintro ⟨x, hx, hentry⟩
    have htest := LoopControl.state_of_testEntry (hheld x hx) hentry
    rcases hs with hs | hs | hs <;> exact absurd (hs.symm.trans htest) (by simp)

theorem keepStep_sublist : (keepStep ops).Sublist ops := by
  induction ops with
  | nil => exact List.Sublist.refl _
  | cons op rest ih =>
    unfold keepStep
    split
    · rename_i heq
      cases heq
    · rename_i heq
      cases heq
      exact (List.nil_sublist _).cons_cons _
    · rename_i heq
      cases heq
      exact ih.cons_cons _

/-- Within the step that a procedure is in no other step begins. -/
theorem keepStep_no_begin (hchain : ops.IsChain fun x y => y.beginsStep = true → x = .mark)
    (hhead : ∀ x ∈ ops.head?, x.beginsStep = false) : ∀ x ∈ keepStep ops, x.beginsStep = false := by
  induction ops with
  | nil => exact fun x hx => absurd hx List.not_mem_nil
  | cons op rest ih =>
    obtain ⟨hnext, hrest⟩ := List.isChain_cons.mp hchain
    by_cases hmark : op = .mark
    · subst hmark
      exact List.forall_mem_singleton.mpr rfl
    · rw [keepStep_cons hmark]
      refine List.forall_mem_cons.mpr ⟨hhead op rfl, ih hrest fun x hx => ?_⟩
      rw [← Bool.not_eq_true]
      exact fun hb => hmark (hnext x hx hb)

theorem Part.Ordered.enterDraining {t : DrainTarget} (h : q.Ordered) (hn : (q.eng l).headPlaced)
    (hs : (q.eng l).ctl.state = .running ∨ (q.eng l).ctl.state = .rollcall ∨
      ((q.eng l).ctl.state = .starting ∧ (q.eng l).ctl.validated = true)) : (q.enterDraining l t).Ordered := by
  obtain ⟨hheld, hfollows, hsteps, hreports, howned, -, ⟨hidle, hattempt⟩⟩ := h.loops l
  have hsub : ((keepStep (q.eng l).sched).filter fun op => op != .rollEnd).Sublist (q.eng l).sched :=
    List.filter_sublist.trans keepStep_sublist
  have hkept : ∀ x ∈ (keepStep (q.eng l).sched).filter fun op => op != .rollEnd,
      x.beginsStep = false ∧ x ≠ .rollEnd := fun x hx => by
    obtain ⟨hmem, hne⟩ := List.mem_filter.mp hx
    exact ⟨keepStep_no_begin hsteps hn x hmem, bne_iff_ne.mp hne⟩
  refine Part.Ordered.pushUrgent (h.modEng (.of_leaving ?_ ?_ ?_ ?_ ?_ ?_ ⟨?_, ?_⟩) fun ht => absurd ht (by simp))
    (List.forall_mem_singleton.mpr rfl)
  any_goals unfold Part.workOwned Part.entryless
  all_goals simp only [Part.eng_modEng, Part.modEng_ctx, Part.modEng_relays, Engine.dropHeld_urgent, Engine.dropHeld_xu]
  · refine fun x hx => SchedOp.mayHold_leaving (hheld x (hsub.subset hx)) ?_ (.inl rfl) (hkept x hx).1 (hkept x hx).2
    exact hs.imp_right (Or.imp_right fun hv => .inr (.inr hv))
  · exact hfollows.sublist hsub
  · exact fun x hx => (hkept x hx).1
  · exact hreports
  · exact fun x hx => howned x (hsub.subset hx)
  · exact .inl trivial
  · exact hidle
  · intro a ha
    obtain ⟨htest, hother⟩ := hattempt a ha
    refine ⟨fun hk => ?_, fun hk => ?_⟩
    · rcases hs with hs | hs | ⟨hs, -⟩ <;> exact absurd (hs.symm.trans (htest hk)) (by simp)
    · obtain ⟨hown, hcalm, -⟩ := hother hk
      exact ⟨hown, fun x hx => hcalm x (hsub.subset hx), .inl trivial⟩

/-! ### DOWN and JAMMED -/

theorem Part.Ordered.abandonLatency (h : q.Ordered) :
    (q.abandonLatency l).Ordered ∧ ∀ m, (q.abandonLatency l).eng m = q.eng m := by
  have hq : ∀ i : StationIx, (q.modCtx i fun c => { c with recLatency := 0xFFFF }).Ordered := fun i =>
    h.modCtx_kept ⟨rfl, rfl, rfl, id⟩
  unfold Part.abandonLatency
  split
  · split
    · exact ⟨h, fun _ => rfl⟩
    · exact ⟨h, fun _ => rfl⟩
    · exact ⟨hq _, fun m => Part.modCtx_eng ..⟩
    · exact ⟨h, fun _ => rfl⟩
  · exact ⟨h, fun _ => rfl⟩

theorem Part.keepTransfer_sublist : (q.keepTransfer l).Sublist (q.eng l).sched := by
  unfold Part.keepTransfer
  split
  · exact List.take_sublist ..
  · exact List.nil_sublist _

theorem Part.head_of_mem_keepTransfer (hx : x ∈ q.keepTransfer l) : x ∈ (q.eng l).sched.head? := by
  unfold Part.keepTransfer at hx
  split at hx
  · cases hs : (q.eng l).sched with
    | nil =>
      rw [hs] at hx
      exact absurd hx List.not_mem_nil
    | cons op rest =>
      rw [hs] at hx
      rw [List.mem_singleton.mp hx]
      rfl
  · exact absurd hx List.not_mem_nil

theorem Part.Ordered.downKeep (h : q.Ordered) (hw : (q.eng l).headWaits) :
    (q.downKeep l).Sublist (q.eng l).sched ∧ ∀ x ∈ q.downKeep l, x.beginsStep = false ∧ x ≠ .rollEnd := by
  have hcases : q.downKeep l = q.keepTransfer l ∨
      q.downKeep l = (keepStep (q.eng l).sched).filter SchedOp.keptAtDown := by
    by_cases hturn : ∀ t, (q.eng l).cyc.turn = some t → t.stage ≠ .fetch
    · exact .inr (Part.downKeep_step hturn)
    · push Not at hturn
      obtain ⟨t, ht, hstage⟩ := hturn
      refine .inl ?_
      unfold Part.downKeep
      rw [ht]
      dsimp only
      rw [hstage]
      rfl
  rcases hcases with heq | heq <;> rw [heq]
  · refine ⟨Part.keepTransfer_sublist, fun x hx => ?_⟩
    have hwaits := hw x (Part.head_of_mem_keepTransfer hx)
    refine ⟨SchedOp.beginsStep_of_waits hwaits, ?_⟩
    rintro rfl
    rcases hwaits with hwaits | hwaits <;> cases hwaits
  · refine ⟨List.filter_sublist.trans keepStep_sublist, fun x hx => ?_⟩
    obtain ⟨hmem, hne⟩ := List.mem_filter.mp hx
    refine ⟨keepStep_no_begin (h.loops l).steps hw.headPlaced x hmem, ?_⟩
    rintro rfl
    exact absurd hne Bool.false_ne_true

theorem Part.Ordered.enterDown {r : DownReason} (h : q.Ordered) (hw : (q.eng l).headWaits)
    (hs : (q.eng l).ctl.state = .running ∨ (q.eng l).ctl.state = .rollcall ∨ (q.eng l).ctl.state = .draining ∨
      (q.eng l).ctl.state = .quiet) : (q.enterDown l r).Ordered := by
  obtain ⟨hsub, hkept⟩ := h.downKeep hw
  obtain ⟨hq, heng⟩ := h.abandonLatency (l := l)
  have hplain : ∀ x ∈ [SchedOp.settleAll .lineLost, .writeLoopHalf, .raise (downCause r), .raiseRetimeRefused],
      x.plain ∧ x.beginsStep = false :=
    List.forall_mem_cons.mpr ⟨⟨⟨rfl, rfl⟩, rfl⟩, List.forall_mem_cons.mpr ⟨⟨SchedOp.plain_writeLoopHalf, rfl⟩,
      List.forall_mem_cons.mpr ⟨⟨SchedOp.plain_raise _, rfl⟩,
        List.forall_mem_singleton.mpr ⟨SchedOp.plain_raiseRetimeRefused, rfl⟩⟩⟩⟩
  have hdown : ∀ e : Engine, ∀ s, s = (if r = .jam then LoopState.jammed else .down) →
      s = .draining ∨ s = .down ∨ s = .jammed := by
    rintro - s rfl
    split
    · exact .inr (.inr rfl)
    · exact .inr (.inl rfl)
  have hurgent : ∀ e : Engine, (e.cutOff q.now).urgent = e.urgent := fun e => by
    unfold Engine.cutOff
    split <;> rfl
  obtain ⟨hheld, hfollows, -, hreports, howned, -, -⟩ := hq.loops l
  rw [heng] at hheld hfollows hreports
  unfold Part.workOwned at howned
  rw [heng] at howned
  unfold Part.enterDown
  dsimp only
  refine hq.modEng (.of_leaving ?_ ?_ ?_ ?_ ?_ ?_ ⟨?_, ?_⟩) fun ht => ?_
  any_goals unfold Part.workOwned Part.entryless
  all_goals simp only [Part.eng_modEng, Part.modEng_ctx, Part.modEng_relays, heng, hurgent]
  · refine List.forall_mem_append.mpr ⟨fun x hx => ?_, fun x hx => SchedOp.mayHold_of_calm (hplain x hx).1.1⟩
    refine SchedOp.mayHold_leaving (hheld x (hsub.subset hx)) ?_ (hdown (q.eng l) _ rfl) (hkept x hx).1 (hkept x hx).2
    exact hs.imp_right (Or.imp_right (Or.imp_right .inl))
  · refine List.pairwise_append.mpr ⟨hfollows.sublist hsub, ?_, fun _ _ y hy =>
      SchedOp.mayPrecede_of_plain (hplain y hy).1⟩
    exact List.pairwise_of_forall_mem_list fun x hx _ _ => SchedOp.mayPrecede_of_calm (hplain x hx).1.1
  · exact List.forall_mem_append.mpr ⟨fun x hx => (hkept x hx).1, fun x hx => (hplain x hx).2⟩
  · exact hreports
  · refine List.forall_mem_append.mpr ⟨fun x hx => howned x (hsub.subset hx), fun x hx j hj => ?_⟩
    rw [(hplain x hx).1.2] at hj
    exact absurd hj (by simp)
  · exact hdown (q.eng l) _ rfl
  · exact fun _ => trivial
  · exact fun a ha => absurd ha (by simp)
  · rcases hdown (q.eng l) _ rfl with hd | hd | hd <;> exact absurd (hd.symm.trans ht) (by simp)

/-! ### STOP -/

theorem cutDownReport_prefix : cutDownReport ops <+: ops := by
  induction ops with
  | nil => exact List.prefix_refl _
  | cons op rest ih =>
    unfold cutDownReport
    split
    · exact List.nil_prefix
    · rename_i heq
      cases heq
      exact (List.prefix_cons_inj _).mpr ih
    · exact List.nil_prefix

/-- In DOWN and JAMMED stand calm operations, those of a turn or a scan, and the entry to OFF. -/
theorem SchedOp.mayPrecede_enterOff (h : c.mayHold x = true) (hs : c.state = .down ∨ c.state = .jammed)
    (hne : x ≠ .enterOff) : x.mayPrecede .enterOff = true ∧ x.beginsStep = false := by
  obtain ⟨state, _, _, _, _, _, _, validated⟩ := c
  rcases hs with rfl | rfl <;> cases x
  any_goals cases h
  any_goals exact absurd rfl hne
  all_goals exact ⟨rfl, rfl⟩

/-- What STOP leaves of the procedure in DOWN or JAMMED, and the entry to OFF behind it (R135). -/
theorem Part.MayRun.stopped {rest : List SchedOp} (h : q.LoopOrder l)
    (hs : (q.eng l).ctl.state = .down ∨ (q.eng l).ctl.state = .jammed) (hsub : rest.Sublist (q.eng l).sched) :
    q.MayRun l (rest.filter (fun op => op != .enterOff) ++ [.enterOff]) := by
  have hnot : ∀ s, s ≠ .down → s ≠ .jammed → (q.eng l).ctl.state ≠ s := fun s hdown hjam heq =>
    hs.elim (fun hd => hdown (heq.symm.trans hd)) fun hj => hjam (heq.symm.trans hj)
  have hkept : ∀ x ∈ rest.filter fun op => op != .enterOff, x.mayPrecede .enterOff = true ∧ x.beginsStep = false :=
    fun x hx => by
      obtain ⟨hmem, hne⟩ := List.mem_filter.mp hx
      exact SchedOp.mayPrecede_enterOff (h.held x (hsub.subset hmem)) hs (bne_iff_ne.mp hne)
  have hrest : q.MayRun l (rest.filter fun op => op != .enterOff) :=
    h.mayRun.sublist (List.filter_sublist.trans hsub) (SchedOp.chain_of_no_step fun x hx => (hkept x hx).2)
  have hnone := h.attempt_none (hnot _ (by simp) (by simp)) (hnot _ (by simp) (by simp)) (hnot _ (by simp) (by simp))
    fun hrun => absurd hrun (hnot _ (by simp) (by simp))
  refine hrest.append (.single ?_ rfl rfl (fun he => absurd he (by simp)) (fun he => absurd he Bool.false_ne_true) hnone)
    (fun x hx => List.forall_mem_singleton.mpr (hkept x hx).1) (fun y hy hb => ?_)
    (fun hrun => absurd hrun (hnot _ (by simp) (by simp))) fun hrun => absurd hrun (hnot _ (by simp) (by simp))
  · unfold LoopControl.mayHold
    rcases hs with hs | hs <;> rw [hs] <;> rfl
  · cases hy
    exact absurd hb Bool.false_ne_true

theorem Part.Ordered.stopDown (h : q.Ordered)
    (hs : (q.eng l).ctl.state = .down ∨ (q.eng l).ctl.state = .jammed) : (q.stopDown l).Ordered := by
  have hprefix : (if q.schedTransferring l then
      (q.eng l).sched.take 1 ++ cutDownReport ((q.eng l).sched.drop 1) else cutDownReport (q.eng l).sched).Sublist
      (q.eng l).sched := by
    split
    · conv_rhs => rw [← List.take_append_drop 1 (q.eng l).sched]
      exact (List.Sublist.refl _).append cutDownReport_prefix.sublist
    · exact cutDownReport_prefix.sublist
  have hset := h.setSched (.stopped (h.loops l) hs hprefix)
  exact hset

/-- A loop that has not yet come to its work gives up what it was to do. -/
theorem Part.Ordered.giveUp (h : q.Ordered) (hw : (q.eng l).headWaits)
    (hs : (q.eng l).ctl.state = .starting ∨ (q.eng l).ctl.state = .test)
    (hact : ∀ r : Part, r.Ordered → (∀ x ∈ (r.eng l).sched, x.calm) → (Part.act l op r).Ordered)
    (hlast : q.MayRun l [op]) (hb : op.beginsStep = false) (hstation : op.station = none) (hend : op ≠ .endTurn) :
    (q.giveUp l op).Ordered := by
  have hnotRunning : ∀ {P : Prop}, (q.eng l).ctl.state = .running → P := fun hr => by
    rw [hr] at hs
    exact absurd hs (by simp)
  unfold Part.giveUp
  split
  · have hkeep : q.MayRun l (q.keepTransfer l) :=
      h.mayRun.sublist Part.keepTransfer_sublist (SchedOp.chain_of_no_step fun x hx =>
        SchedOp.beginsStep_of_waits (hw x (Part.head_of_mem_keepTransfer hx)))
    refine h.setSched (hkeep.append hlast (fun x hx => List.forall_mem_singleton.mpr ?_) (fun y hy hbegins => ?_)
      (fun hr => hnotRunning hr) fun hr => hnotRunning hr)
    · exact SchedOp.mayPrecede_of_waits (hw x (Part.head_of_mem_keepTransfer hx)) hstation hend
    · cases hy
      exact absurd hbegins (by rw [hb]; exact Bool.false_ne_true)
  · rename_i hahead
    have hsub : (q.eng l).aheadOfEntry.Sublist (q.eng l).sched := by
      unfold Engine.aheadOfEntry
      split
      · exact List.nil_sublist _
      · exact (List.takeWhile_prefix _).sublist
    have hcalm : ∀ x ∈ (q.eng l).aheadOfEntry, x.calm := by
      intro x hx
      have hheld := (h.loops l).held x (hsub.subset hx)
      unfold Engine.aheadOfEntry at hx
      split at hx
      · exact absurd hx List.not_mem_nil
      · rename_i hv
        have hentry := List.mem_takeWhile_imp hx
        exact SchedOp.calm_of_unvalidated hheld hs (Bool.not_eq_true _ ▸ hv) ((Bool.not_eq_true' _).mp hentry)
    refine hact _ (h.setSched (h.mayRun.sublist hsub (SchedOp.chain_of_no_step fun x hx =>
      SchedOp.beginsStep_of_calm (hcalm x hx)))) ?_
    rw [Part.eng_modEng]
    exact hcalm

/-! ### FAULT -/

/-- A loop in FAULT holds calm operations of its procedure at most. -/
theorem Part.Ordered.toFault (h : q.Ordered) (hops : ∀ x ∈ ops, x ∈ (q.eng l).sched ∧ x.calm) :
    ((q.modEng l Engine.toFault).push l ops).Ordered := by
  have hq : (q.modEng l Engine.toFault).Ordered := by
    refine h.modEng (.of_calm ?_ ?_ ?_ ?_ ⟨?_, ?_⟩) fun ht => absurd ht (by simp [Engine.toFault])
    any_goals unfold Part.workOwned
    all_goals rw [Part.eng_modEng]
    · exact fun x hx => absurd hx List.not_mem_nil
    · exact fun x hx => absurd hx List.not_mem_nil
    · exact fun x hx => absurd hx List.not_mem_nil
    · exact fun hs => absurd hs (by simp [Engine.toFault])
    · exact fun _ => rfl
    · exact fun a ha => absurd ha (by simp [Engine.toFault])
  refine hq.push ?_
  rw [Part.eng_modEng]
  refine Part.MayRun.of_calm (fun x hx => (hops x hx).2) fun x hx => ?_
  have howned := (h.loops l).owned x (hops x hx).1
  unfold Part.entryless at howned ⊢
  simp only [Part.modEng_ctx, Part.modEng_relays]
  exact howned

theorem Part.doneInProgress_kept : ∀ x ∈ q.doneInProgress l, x ∈ (q.eng l).sched ∧ x.calm := by
  intro x hx
  obtain ⟨hmem, hdone⟩ := List.mem_filter.mp hx
  refine ⟨Part.keepTransfer_sublist.subset hmem, ?_⟩
  cases x
  any_goals cases hdone
  all_goals rfl

theorem Part.Ordered.abandonTest (h : q.Ordered) :
    (q.abandonTest l).Ordered ∧ ∀ m, (q.abandonTest l).eng m = q.eng m := by
  unfold Part.abandonTest
  split
  · exact ⟨h.testUnit (.inl rfl), fun m => Part.eng_testUnit _ m q⟩
  · exact ⟨h, fun _ => rfl⟩

theorem Part.Ordered.enterFault (h : q.Ordered) : (q.enterFault l).Ordered := by
  have hdrop : ((q.mapOwned l Context.faulted).releaseLoopRelays l).Ordered := by
    refine h.dropLoop ((h.loops l).of_same (.refl _) (fun i ho => ?_) (fun i _ hfree => ?_) fun hempty _ => hempty)
      fun _ _ => rfl
    · show ((q.mapOwned l Context.faulted).ctx i).owner = some l
      rw [Part.ctx_mapOwned, if_pos ho]
      exact ho
    · refine Part.entryless_mapRelays (p := q.mapOwned l Context.faulted) (fun r r' hr hst => ?_) hfree
      split at hr
      · exact absurd hr (by simp)
      · cases hr
        exact hst
  obtain ⟨htest, heng⟩ := hdrop.abandonTest (l := l)
  unfold Part.enterFault
  dsimp only
  refine Part.Ordered.raiseCause (Part.Ordered.toFault (Part.Ordered.orphan ?_) ?_)
  · split
    · exact htest.orphan
    · exact htest
  · intro x hx
    obtain ⟨hmem, hcalm⟩ := Part.doneInProgress_kept x hx
    refine ⟨?_, hcalm⟩
    have hsame : ∀ r : Part, (∀ m, r.eng m = q.eng m) →
        (Part.orphan (.catcher l) (if (q.doneInProgress l).isEmpty then r.orphan (.sched l) else r)).eng l = q.eng l :=
      fun r hr => by
        rw [Part.orphan_eng]
        split
        · rw [Part.orphan_eng, hr]
        · rw [hr]
    rw [hsame _ fun m => (heng m).trans rfl]
    exact hmem

/-! ### The soft reset -/

/-- A loop cut short by a soft reset keeps its DONE write in progress alone (R35, R166). -/
theorem Part.Ordered.cutShort (h : q.Ordered) (hops : ∀ x ∈ ops, x ∈ (q.eng l).sched ∧ x.calm) :
    (q.modEng l (Engine.cutShort ops)).Ordered := by
  obtain ⟨-, -, -, -, howned, ⟨-, hroll, -, -⟩, -⟩ := h.loops l
  refine h.modEng (.of_calm ?_ ?_ ?_ ?_ ⟨?_, ?_⟩) fun ht => .inl ht
  any_goals unfold Part.workOwned Part.entryless
  all_goals simp only [Part.eng_modEng, Part.modEng_ctx, Part.modEng_relays]
  · exact fun x hx => (hops x hx).2
  · exact fun x hx => howned x (hops x hx).1
  · exact fun x hx => absurd hx List.not_mem_nil
  · exact hroll
  · exact fun _ => rfl
  · exact fun a ha => absurd ha (by simp [Engine.cutShort])

end

end Sys2Proof.Machine
end

