-- ==== Sys2Proof/Proofs/EventOrder.lean ====
section
/-!
Every command and event keeps the order of the work (R57 to R73, R125 to R140, R143, R159, R164 to R168).
-/
namespace Sys2Proof.Machine

open Sys2Proof

section
variable {q : Part} {l : LoopId} {i : StationIx} {ops : List SchedOp}

/-! ### Commands of CONTROL -/

theorem Part.LoopOrder.attempt_none_of_rest (h : q.LoopOrder l)
    (hs : (q.eng l).ctl.state = .off ∨ (q.eng l).ctl.state = .quiet ∨ (q.eng l).ctl.state = .starting ∨
      (q.eng l).ctl.state = .down ∨ (q.eng l).ctl.state = .jammed) : (q.eng l).xu.attempt = none := by
  have hnot : ∀ s, s ≠ .off → s ≠ .quiet → s ≠ .starting → s ≠ .down → s ≠ .jammed → (q.eng l).ctl.state ≠ s := by
    rintro s hoff hquiet hstart hdown hjam rfl
    exact hs.elim hoff (Or.elim · hquiet (Or.elim · hstart (Or.elim · hdown hjam)))
  exact h.attempt_none (hnot _ (by simp) (by simp) (by simp) (by simp) (by simp))
    (hnot _ (by simp) (by simp) (by simp) (by simp) (by simp)) (hnot _ (by simp) (by simp) (by simp) (by simp) (by simp))
    fun hr => absurd hr (hnot _ (by simp) (by simp) (by simp) (by simp) (by simp))

theorem Part.Ordered.doStart (h : q.Ordered) : (q.doStart l).Ordered := by
  unfold Part.doStart
  split
  · rename_i hs
    exact (h.enterStarting ((h.loops l).calm_of_rest (.inl hs))).proceed
  · exact h.raiseCause

/-- A start that is not yet validated is given up. -/
theorem Part.Ordered.giveUpStart (h : q.Ordered) (hw : (q.eng l).headWaits) (hs : (q.eng l).ctl.state = .starting)
    (hv : (q.eng l).ctl.validated = false) : (q.giveUp l .startAbort).Ordered := by
  refine h.giveUp hw (.inl hs) (fun r hr hcalm => hr.enterOff hcalm SchedOp.forall_plain_nil) (.single ?_ rfl rfl
    (fun he => absurd he (by simp)) (fun he => absurd he Bool.false_ne_true)
    ((h.loops l).attempt_none_of_rest (.inr (.inr (.inl hs))))) rfl rfl (by simp)
  unfold LoopControl.mayHold
  rw [hs, hv]
  rfl

/-- An entry to TEST is given up. -/
theorem Part.Ordered.giveUpTest (h : q.Ordered) (hw : (q.eng l).headWaits) (hs : (q.eng l).ctl.state = .test)
    (hentry : (q.eng l).enteringTest = true) : (q.giveUp l .testAbort).Ordered := by
  unfold Engine.enteringTest at hentry
  obtain ⟨x, hx, hop⟩ := List.any_eq_true.mp hentry
  have hxentry : x.ofTestEntry = true := by
    rw [Bool.or_eq_true, Bool.or_eq_true, beq_iff_eq, beq_iff_eq, beq_iff_eq] at hop
    rcases hop with (rfl | rfl) | rfl <;> rfl
  obtain ⟨-, -, -, htest⟩ := (h.loops l).placed
  obtain ⟨hnone, hcopy⟩ := htest ⟨x, hx, hxentry⟩
  refine h.giveUp hw (.inr hs) (fun r hr hcalm => hr.testAbort hcalm) (.single ?_ rfl rfl
    (fun he => absurd he (by simp)) (fun _ => hcopy) hnone) rfl rfl (by simp)
  unfold LoopControl.mayHold
  rw [hs]
  rfl

theorem Part.Ordered.calm_of_notEntering (h : q.Ordered) (hs : (q.eng l).ctl.state = .test)
    (hentry : (q.eng l).enteringTest = false) : ∀ x ∈ (q.eng l).sched, x.calm := by
  refine (h.loops l).calm_of_test hs fun x hx => ?_
  unfold Engine.enteringTest at hentry
  have hnot := List.any_eq_false.mp hentry x hx
  cases x
  any_goals rfl
  all_goals exact absurd rfl hnot

theorem Part.Ordered.stopLoop (h : q.Ordered) (hw : (q.eng l).headWaits) : (q.stopLoop l).Ordered := by
  unfold Part.stopLoop
  dsimp only
  split
  · exact h
  · rename_i hs
    split
    · rename_i hv
      exact h.enterDraining hw.headPlaced (.inr (.inr ⟨hs, hv⟩))
    · rename_i hv
      exact h.giveUpStart hw hs (Bool.not_eq_true _ ▸ hv)
  · rename_i hs
    exact h.enterDraining hw.headPlaced (.inr (.inl hs))
  · rename_i hs
    exact h.enterDraining hw.headPlaced (.inl hs)
  · refine Part.Ordered.pushUrgent (h.modEng_same ?_) (List.forall_mem_singleton.mpr rfl)
    exact .of_eq rfl rfl rfl rfl rfl rfl rfl
  · rename_i hs
    exact h.enterOff ((h.loops l).calm_of_rest (.inr (.inl hs)))
      (List.forall_mem_singleton.mpr SchedOp.plain_writeLoopHalf)
  · rename_i hs
    exact h.enterOff ((h.loops l).calm_of_rest (.inr (.inr hs))) SchedOp.forall_plain_nil
  · rename_i hs
    exact h.stopDown (.inl hs)
  · rename_i hs
    exact h.stopDown (.inr hs)
  · rename_i hs
    split
    · rename_i hentry
      exact h.giveUpTest hw hs hentry
    · rename_i hentry
      exact h.stopTest (h.calm_of_notEntering hs (Bool.not_eq_true _ ▸ hentry))

theorem Part.Ordered.doStop (h : q.Ordered) (hw : (q.eng l).headWaits) : (q.doStop l).Ordered := by
  unfold Part.doStop
  split
  · unfold Part.refuseStop
    split
    · exact h.push_plain (List.forall_mem_singleton.mpr (SchedOp.plain_raise _))
    · exact h.raiseCause
  · exact (h.stopLoop hw).proceed

theorem Part.Ordered.doQuiet (h : q.Ordered) (hw : (q.eng l).headWaits) : (q.doQuiet l).Ordered := by
  unfold Part.doQuiet
  split
  · rename_i hc
    rw [Bool.and_eq_true_iff, decide_eq_true_eq] at hc
    exact (h.enterDraining hw.headPlaced (.inl hc.1)).proceed
  · exact h.raiseCause

theorem Part.Ordered.doWake (h : q.Ordered) : (q.doWake l).Ordered := by
  unfold Part.doWake
  split
  · rename_i hs
    exact (h.wake hs).proceed
  · exact h.raiseCause

theorem Part.Ordered.doRollcall (h : q.Ordered) : (q.doRollcall l).Ordered := by
  unfold Part.doRollcall
  split
  · refine Part.Ordered.proceed (h.modEng_same ?_)
    exact .of_eq rfl rfl rfl rfl rfl rfl rfl
  · exact h.raiseCause

theorem Part.Ordered.doRetime (h : q.Ordered) : (q.doRetime l).Ordered := by
  unfold Part.doRetime
  split
  · exact h.modEng_same (.of_eq rfl rfl rfl rfl rfl rfl rfl)
  · exact h.raiseCause

theorem Part.Ordered.doTest (h : q.Ordered) (ht : q.testOwned) : (q.doTest l).Ordered := by
  unfold Part.doTest
  split
  · rename_i hc
    rw [Bool.and_eq_true_iff, decide_eq_true_eq, Option.isNone_iff_eq_none] at hc
    obtain ⟨hs, hfree⟩ := hc
    refine (h.enterTest ((h.loops l).calm_of_rest (.inl hs)) ((h.loops l).attempt_none_of_rest (.inl hs))
      fun hother => ?_).proceed
    exact absurd (hfree.symm.trans (ht _ hother)) (by simp)
  · exact h.raiseCause

theorem Part.Ordered.setSlot {m : LoopId} {x : Option (BitVec 4)} (h : q.Ordered) : (q.setSlot m x).Ordered :=
  h.modEng_same (.of_eq rfl rfl rfl rfl rfl rfl rfl)

/-- A command that is taken finds the work as it stands, but for the slots. -/
theorem Part.Ordered.takeCommand {via : CommandPath} {code : BitVec 4} {run : Part → Part} (h : q.Ordered)
    (ht : q.testOwned) (hw : q.live = true → (q.eng l).headWaits)
    (hrun : ∀ r : Part, r.Ordered → r.testOwned → (r.eng l).headWaits → (run r).Ordered) :
    (q.takeCommand l via code run).Ordered := by
  have htaken : q.live = true → ∀ m x, (run (q.setSlot m x)).Ordered := fun hlive m x => by
    refine hrun _ h.setSlot (((Part.Within.refl m q).setSlot).testOwned ht) ?_
    have hsched : ((q.setSlot m x).eng l).sched = (q.eng l).sched := by
      unfold Part.setSlot
      rcases eq_or_eq_otherLoop m l with rfl | rfl
      · rw [Part.eng_modEng]
      · rw [Part.eng_modEng_other]
    unfold Engine.headWaits
    rw [hsched]
    exact hw hlive
  unfold Part.takeCommand
  split
  · rename_i hlive
    split
    · split
      · exact htaken hlive _ _
      · exact h
    · split
      · exact htaken hlive _ _
      · exact h
  · exact h

/-! ### Events -/

theorem Part.Ordered.loopEvent {can : Part → Bool} {f : Part → Part} (h : q.Ordered)
    (hf : q.live = true → can q = true → (f q).Ordered) : (q.loopEvent can f).Ordered := by
  unfold Part.loopEvent
  split
  · rename_i hc
    rw [Bool.and_eq_true_iff] at hc
    exact hf hc.1 hc.2
  · exact h

theorem Part.Ordered.loopStep {can : Part → Bool} {f : Part → Part} (h : q.Ordered)
    (hf : q.live = true → can q = true → (f q).Ordered) : (q.loopStep l can f).Ordered :=
  h.loopEvent fun hlive hc => (hf hlive hc).proceed

theorem Part.Ordered.gridPoint (h : q.Ordered) : (q.gridPoint l).Ordered := by
  unfold Part.gridPoint
  split
  · refine h.modEng_same ?_
    unfold Engine.markBoundary
    dsimp only
    split
    · refine Engine.SameWork.trans (.dropHeld (x := .beacon)) ?_
      exact .of_eq rfl rfl rfl rfl rfl rfl rfl
    · exact .of_eq rfl rfl rfl rfl rfl rfl rfl
  · exact h

theorem Part.Ordered.announceWindow (h : q.Ordered) : (q.announceWindow l).Ordered := by
  refine Part.Ordered.followWindows (h.modEng_same ?_)
  exact .of_eq rfl rfl rfl rfl rfl rfl rfl

theorem Part.Ordered.keepalive (h : q.Ordered) : (q.keepalive l).Ordered := by
  refine h.modEng_same ?_
  refine Engine.SameWork.trans (.handFrame (now := q.now) (f := (q.eng l).keepaliveBeacon)) ?_
  exact .of_eq rfl rfl rfl rfl rfl rfl rfl

/-! ### The boundary -/

theorem boundaryOps_no_step : ∀ x ∈ boundaryOps, x.beginsStep = false ∧ x.ofTurn = false ∧ x.station = none := by
  unfold boundaryOps
  refine List.forall_mem_append.mpr ⟨scanOps_no_step, ?_⟩
  decide

theorem Part.Ordered.boundaryTaken (h : q.Ordered) (hc : (q.eng l).takesBoundary = true) :
    (q.boundaryTaken l).Ordered := by
  unfold Engine.takesBoundary at hc
  rw [Bool.and_eq_true_iff, Bool.and_eq_true_iff, Bool.and_eq_true_iff, Bool.and_eq_true_iff, Bool.and_eq_true_iff,
    beq_iff_eq, Option.isNone_iff_eq_none] at hc
  obtain ⟨⟨⟨⟨⟨-, hs⟩, hturn⟩, -⟩, -⟩, -⟩ := hc
  have hnone : (q.eng l).xu.attempt = none :=
    (h.loops l).attempt_none (by rw [hs]; simp) (by rw [hs]; simp) (by rw [hs]; simp) fun _ => hturn
  obtain ⟨hplacedTurn, -, -, -⟩ := (h.loops l).placed
  have hnoTurn : ∀ x ∈ (q.eng l).sched, x.ofTurn = false := fun x hx => by
    rw [← Bool.not_eq_true]
    intro ht
    obtain ⟨hsome, -⟩ := hplacedTurn hs ⟨x, hx, ht⟩
    rw [hturn] at hsome
    exact absurd hsome (by simp)
  have hboundary : q.MayRun l boundaryOps := by
    refine (Part.MayRun.scan (fun i => ?_) hnone).append_plain ?_
    · unfold LoopControl.mayHold
      rw [hs]
      rfl
    · unfold SchedOp.plain SchedOp.calm
      decide
  unfold Part.boundaryTaken
  split
  · rename_i g _
    unfold Part.takeBoundary
    have hrun : q.MayRun l ((q.eng l).sched ++ boundaryOps) := by
      refine h.mayRun.append hboundary (fun x hx y hy => ?_) (fun y hy hb => ?_) (fun _ ⟨x, hx, ht⟩ => ?_)
        fun _ ⟨y, hy, ht⟩ => ?_
      · obtain ⟨-, -, hstation⟩ := boundaryOps_no_step y hy
        rcases SchedOp.calm_or_of_running ((h.loops l).held x hx) hs with hcalm | ht | hscan
        · exact SchedOp.mayPrecede_of_calm hcalm
        · exact absurd ht (by rw [hnoTurn x hx]; exact Bool.false_ne_true)
        · exact SchedOp.mayPrecede_of_ofScan hscan hstation
      · obtain ⟨hbegins, -⟩ := boundaryOps_no_step y (List.mem_of_mem_head? hy)
        exact absurd hb (by rw [hbegins]; exact Bool.false_ne_true)
      · exact absurd ht (by rw [hnoTurn x hx]; exact Bool.false_ne_true)
      · obtain ⟨-, hno, -⟩ := boundaryOps_no_step y hy
        exact absurd ht (by rw [hno]; exact Bool.false_ne_true)
    have hsched : ∀ e : Engine, (e.dropHeld .beacon).sched = e.sched := fun e => Engine.dropHeld_sched ..
    unfold Part.push
    rw [Part.modEng_modEng]
    refine h.modEng_run ?_ ?_
    · dsimp only
      rw [hsched]
      exact hrun
    · dsimp only
      exact ⟨rfl, Engine.dropHeld_urgent .., congrArg LoopControl.state (Engine.dropHeld_ctl ..),
        congrArg LoopControl.validated (Engine.dropHeld_ctl ..), rfl,
        fun hi => .inl (by rwa [Engine.dropHeld_xu] at hi), fun a ha => ⟨a, by rwa [Engine.dropHeld_xu] at ha, rfl, rfl⟩,
        (Engine.SameWork.dropHeld (e := q.eng l) (x := .beacon)).rollList⟩
  · exact h

/-! ### Turns -/

/-- A turn of a station begins where nothing is under way. -/
theorem Part.Ordered.startTurn {b : Bool} (h : q.Ordered) (hs : (q.eng l).ctl.state = .running)
    (hsched : (q.eng l).sched = []) (hnone : (q.eng l).xu.attempt = none) (ho : (q.ctx i).owner = some l) :
    (q.startTurn l i b).Ordered := by
  have hq : ∀ t : Turn, (q.modEng l fun e => { e with cyc := { e.cyc with turn := some t } }).Ordered := fun t =>
    h.enter (by rw [hsched]; exact fun x hx => absurd hx List.not_mem_nil) rfl rfl hnone .inl
      fun hr => absurd (hs.symm.trans hr) (by simp)
  have hd : ∀ t : Turn, ((q.modEng l fun e => { e with cyc := { e.cyc with turn := some t } }).eng l).Doing
      (.readLink i) := fun t => by
    rw [Part.eng_modEng]
    refine ⟨?_, ?_, ?_, fun _ _ => ⟨rfl, ?_⟩, fun _ hscan => absurd hscan Bool.false_ne_true,
      fun he => absurd he (by simp), fun he => absurd he Bool.false_ne_true, ?_⟩
    · unfold LoopControl.mayHold
      dsimp only
      rw [hs]
      rfl
    all_goals dsimp only
    · rw [hsched]
      exact fun y hy => absurd hy List.not_mem_nil
    · rw [hsched]
      exact fun y hy => absurd hy (by simp)
    · rw [hsched]
      exact fun y hy => absurd hy List.not_mem_nil
    · rw [hnone]
      exact fun a ha => absurd ha (by simp)
  have hown : ∀ t : Turn, ((q.modEng l fun e => { e with cyc := { e.cyc with turn := some t } }).ctx i).owner =
      some l := fun t => by
    rw [Part.modEng_ctx]
    exact ho
  have hpush : ∀ t x, x.ofTurn = true → (∀ j ∈ x.station, j = i) → (x.afterRelease = true → q.entryless i) →
      (Part.push l [x] (q.modEng l fun e => { e with cyc := { e.cyc with turn := some t } })).Ordered := by
    intro t x hx hstation hfree
    refine (hq t).push ?_
    rw [Part.eng_modEng]
    dsimp only
    rw [hsched]
    refine (hd t).mayRun_ofTurn rfl hx fun j hj => ?_
    rw [hstation j hj]
    refine ⟨hown t, fun hafter => ?_⟩
    unfold Part.entryless
    rw [Part.modEng_relays]
    exact hfree hafter
  unfold Part.startTurn
  dsimp only
  split
  · exact hpush _ _ rfl (fun j hj => (Option.some.inj hj).symm) fun hafter => absurd hafter Bool.false_ne_true
  · rename_i hhand _
    exact hpush _ _ rfl (fun j hj => (Option.some.inj hj).symm) fun _ => h.entryless_of_inHand hhand
  · rename_i hhand _
    refine Part.Does.followLink ⟨hq _, hd _, fun j hj => ?_, fun he => absurd he Bool.false_ne_true⟩
    rw [← Option.some.inj hj]
    exact ⟨hown _, fun _ => (hq _).entryless_of_inHand (by rw [Part.modEng_ctx]; exact hhand)⟩

theorem Context.owner_of_admittedTo {c : Context} (h : c.admittedTo l = true) : c.owner = some l := by
  unfold Context.admittedTo at h
  rw [Bool.and_eq_true_iff, beq_iff_eq] at h
  exact h.1

theorem Part.owner_of_nextCandidate (h : q.nextCandidate l = some i) : (q.ctx i).owner = some l := by
  have hmem : i ∈ q.candidates l := by
    unfold Part.nextCandidate at h
    split at h
    · rename_i hfind
      cases h
      exact List.mem_of_find?_eq_some hfind
    · exact List.mem_of_mem_head? h
  obtain ⟨-, hcandidate⟩ := List.mem_filter.mp hmem
  unfold Context.candidate at hcandidate
  rw [Bool.and_eq_true_iff, Bool.and_eq_true_iff] at hcandidate
  exact Context.owner_of_admittedTo hcandidate.1.1

theorem Part.Ordered.nextTurn (h : q.Ordered) (hc : (q.eng l).turnFree = true) : (q.nextTurn l).Ordered := by
  unfold Engine.turnFree at hc
  rw [Bool.and_eq_true_iff, Bool.and_eq_true_iff, Bool.and_eq_true_iff, List.isEmpty_iff, beq_iff_eq] at hc
  obtain ⟨⟨⟨hattempt, -⟩, hsched⟩, hidle⟩ := hc
  have hs := Engine.mayAttempt_running hattempt
  obtain ⟨hnone, -⟩ := (h.loops l).attempts
  obtain ⟨phase, visited, heng, -⟩ := q.followWindows_eng l
  have hq : (q.followWindows l).Ordered := h.followWindows
  have hs' : ((q.followWindows l).eng l).ctl.state = .running := by rw [heng]; exact hs
  have hsched' : ((q.followWindows l).eng l).sched = [] := by rw [heng]; exact hsched
  have hnone' : ((q.followWindows l).eng l).xu.attempt = none := by rw [heng]; exact hnone hidle
  unfold Part.nextTurn
  dsimp only
  generalize q.followWindows l = r at hq hs' hsched' hnone'
  split
  · split
    · rename_i i rest hdrop
      have hserve : r.mayServe l i = true := by
        have hhead := List.head?_dropWhile_not (p := fun i => !r.mayServe l i) (l := (r.eng l).cyc.dueSet)
        rw [hdrop] at hhead
        simpa using hhead
      unfold Part.mayServe at hserve
      rw [Bool.and_eq_true_iff] at hserve
      refine Part.Ordered.startTurn (hq.modEng_same ?_) ?_ ?_ ?_ ?_
      · exact .of_eq rfl rfl rfl rfl rfl rfl rfl
      · rw [Part.eng_modEng]
        exact hs'
      · rw [Part.eng_modEng]
        exact hsched'
      · rw [Part.eng_modEng]
        exact hnone'
      · rw [Part.modEng_ctx]
        exact Context.owner_of_admittedTo hserve.1
    · exact hq
  · split
    · rename_i i hnext
      exact hq.startTurn hs' hsched' hnone' (Part.owner_of_nextCandidate hnext)
    · exact hq
  all_goals exact hq

/-! ### DRAINING, roll-call and recovery -/

theorem Part.settleAllOps_modEng {o : RecordOutcome} {m : LoopId} {f : Engine → Engine} :
    (q.modEng m f).settleAllOps l o = q.settleAllOps l o := by
  unfold Part.settleAllOps Part.holders
  simp only [Part.modEng_ctx]

theorem Part.settleAllOps_last {o : RecordOutcome} :
    q.settleAllOps l o = [] ∨ (q.settleAllOps l o).getLast? = some .mark := by
  unfold Part.settleAllOps
  induction q.holders l using List.reverseRecOn with
  | nil => exact .inl rfl
  | append_singleton is i _ =>
    refine .inr ?_
    rw [List.flatMap_append]
    show (_ ++ [SchedOp.settle i o, SchedOp.mark]).getLast? = _
    rw [List.getLast?_append]
    rfl

/-- The settlements of DRAINING and the entry to its target are in order once the records in hand are known. -/
theorem Part.Ordered.drainSettlement (h : q.Ordered) (hc : (q.eng l).drained = true) :
    ((q.drainSettlement l).proceed l).Ordered := by
  unfold Engine.drained at hc
  rw [Bool.and_eq_true_iff, Bool.and_eq_true_iff, Bool.and_eq_true_iff, Bool.and_eq_true_iff, Bool.and_eq_true_iff,
    beq_iff_eq, List.isEmpty_iff, beq_iff_eq] at hc
  obtain ⟨⟨⟨⟨⟨hs, -⟩, hsched⟩, -⟩, hidle⟩, -⟩ := hc
  obtain ⟨hnone, -⟩ := (h.loops l).attempts
  have htarget : q.MayRun l [.enterTarget] := by
    refine .single ?_ rfl rfl (fun he => absurd he (by simp)) (fun he => absurd he Bool.false_ne_true) (hnone hidle)
    unfold LoopControl.mayHold
    rw [hs]
    rfl
  have hall : (q.modEng l fun e => { e with sched := q.settleAllOps l .stopped ++ [.enterTarget] }).Ordered :=
    h.setSched (htarget.calm_append (fun x hx => (Part.settleAllOps_owned x hx).1)
      (fun x hx => (Part.settleAllOps_owned x hx).2) fun _ _ _ => Part.settleAllOps_last)
  have hstep : Part.runSched Config.actBound l (q.drainSettlement l) =
      Part.runSched 199 l (q.modEng l fun e => { e with sched := q.settleAllOps l .stopped ++ [.enterTarget] }) := by
    have hfirst : ((q.drainSettlement l).eng l).sched = [.settleAll .stopped, .enterTarget] := by
      unfold Part.drainSettlement Part.push
      rw [Part.eng_modEng]
      dsimp only
      rw [hsched]
      rfl
    show Part.runSched (199 + 1) l (q.drainSettlement l) = _
    rw [Part.runSched, hfirst]
    dsimp only
    rw [if_neg (by simp [Part.waitsAt_eq, SchedOp.transfers])]
    refine congrArg (Part.runSched 199 l) ?_
    unfold Part.act Part.drainSettlement Part.popSched Part.push Part.pushFront
    dsimp only
    rw [Part.modEng_modEng, Part.modEng_modEng]
    refine Part.modEng_congr l _ _ q ?_
    dsimp only
    rw [hsched, Part.settleAllOps_modEng, Part.settleAllOps_modEng]
    rfl
  unfold Part.proceed
  rw [hstep]
  exact hall.runSched.rollcallIfDue

theorem Part.Ordered.rollAttempt (h : q.Ordered) (hc : (q.eng l).canRoll = true) : (q.rollAttempt l).Ordered := by
  unfold Engine.canRoll at hc
  rw [Bool.and_eq_true_iff, Bool.and_eq_true_iff, beq_iff_eq, Bool.not_eq_true'] at hc
  obtain ⟨⟨hs, -⟩, hlist⟩ := hc
  obtain ⟨-, hroll, hend, -⟩ := (h.loops l).placed
  unfold Part.rollAttempt
  split
  · rename_i i rest hcons
    refine h.sendRequest (fun x hx => SchedOp.calm_of_rollcall ((h.loops l).held x hx) hs ?_)
      (hroll hs i (by rw [hcons]; exact List.mem_cons_self)) (by simp) (.inl ⟨rfl, hs⟩)
    rintro rfl
    rw [hend hx] at hlist
    exact absurd hlist (by simp)
  · exact h

/-- A loop that leaves DOWN or JAMMED has nothing left to do. -/
theorem Part.Ordered.recover (h : q.Ordered) (hs : (q.eng l).ctl.state = .down ∨ (q.eng l).ctl.state = .jammed)
    (hsched : (q.eng l).sched = []) : (q.recover l).Ordered := by
  have hnone := (h.loops l).attempt_none_of_rest (.inr (.inr (.inr hs)))
  have hq : (q.modEng l fun e =>
      { e with mon := { e.mon with downSince := none, holdPassed := false, presenceSince := none } }).Ordered :=
    h.modEng_same (.of_eq rfl rfl rfl rfl rfl rfl rfl)
  have hcalm : ∀ x ∈ ((q.modEng l fun e =>
      { e with mon := { e.mon with downSince := none, holdPassed := false, presenceSince := none } }).eng l).sched,
      x.calm := by
    rw [Part.eng_modEng]
    dsimp only
    rw [hsched]
    exact fun x hx => absurd hx List.not_mem_nil
  have hnone' : ((q.modEng l fun e =>
      { e with mon := { e.mon with downSince := none, holdPassed := false, presenceSince := none } }).eng l).xu.attempt =
      none := by
    rw [Part.eng_modEng]
    exact hnone
  have hup : ∀ x ∈ [SchedOp.raise .up], x.plain := List.forall_mem_singleton.mpr (SchedOp.plain_raise _)
  have hoff : ∀ x ∈ [SchedOp.writeLoopHalf, .raise .up], x.plain :=
    List.forall_mem_cons.mpr ⟨SchedOp.plain_writeLoopHalf, hup⟩
  unfold Part.recover
  dsimp only
  split
  · exact hq.enterQuiet hcalm hnone' hup
  · exact hq.enterRollcall hcalm hnone' hup
  · split
    · exact hq.enterRollcall hcalm hnone' hup
    · exact hq.enterRunning hcalm hnone' hup
  · exact hq.enterOff hcalm hoff
  · exact hq.enterOff hcalm hoff

theorem Engine.recovers_parts {e : Engine} {now : Nat} (h : e.recovers now = true) :
    e.ctl.state = .down ∧ e.sched = [] := by
  unfold Engine.recovers at h
  rw [Bool.and_eq_true_iff, Bool.and_eq_true_iff, Bool.and_eq_true_iff, beq_iff_eq, List.isEmpty_iff] at h
  exact ⟨h.1.1.1, h.1.2⟩

theorem Engine.released_parts {e : Engine} {now : Nat} (h : e.released now = true) :
    e.ctl.state = .jammed ∧ e.sched = [] := by
  unfold Engine.released at h
  rw [Bool.and_eq_true_iff, Bool.and_eq_true_iff, Bool.and_eq_true_iff, beq_iff_eq, List.isEmpty_iff] at h
  exact ⟨h.1.1.1, h.1.2⟩

/-! ### Transfers -/

theorem Part.Ordered.transferDone {t : Transfer} {bs : List Byte} (h : q.Ordered) :
    (Part.transferDone t bs q).Ordered := by
  unfold Part.transferDone
  split
  · exact h
  · split
    · exact h.schedTransferDone.proceed
    · exact h.catchDone.proceed

theorem Part.Ordered.completeTransfer {t : Transfer} {bs : List Byte} (h : q.Ordered) :
    (q.completeTransfer t bs).Ordered := by
  unfold Part.completeTransfer
  split
  · exact h.freePort.transferDone
  · split
    · exact h.freePort
    · exact h.freePort.doneCut

theorem Part.Ordered.withdraw {r : Requester} (h : q.Ordered) : (q.withdraw r).Ordered := by
  unfold Part.withdraw
  split
  · rename_i l
    have hset := (h.setSched (h.mayRun (l := l) |>.suffix List.nil_suffix)).setUrgent (l := l) (ops := [])
      fun _ hx => absurd hx List.not_mem_nil
    rwa [Part.modEng_modEng] at hset
  · exact h.modEng_same (.of_eq rfl rfl rfl rfl rfl rfl rfl)

theorem Part.Ordered.failTransfer {t : Transfer} {b : Bool} (h : q.Ordered) : (q.failTransfer t b).Ordered := by
  unfold Part.failTransfer
  split
  · refine Part.Ordered.enterFault ?_
    split
    · exact h.freePort.withdraw.arbitrate
    · exact h.freePort
  · exact h.freePort

/-! ### Register accesses and resets -/

theorem Part.Accessed.ordered {r : Part} (h : q.Accessed r) (hq : q.Ordered) : r.Ordered :=
  hq.congr (fun m => by
    obtain ⟨_, _, _, he⟩ := h.engine m
    rw [he]
    exact .of_eq rfl rfl rfl rfl rfl rfl rfl) h.ctx h.relays h.copy

theorem Part.Emptied.ordered {r : Part} (h : q.Emptied r) : r.Ordered := by
  refine ((Part.relaysOrdered_iff fun m hm => ?_).mp h.relaysOrdered).1
  rw [h.engine] at hm
  exact absurd hm (by simp [Engine.reset, LoopControl.reset])

theorem RegisterWork.ordered {r : Part} (h : RegisterWork q r) (hq : q.Ordered) : r.Ordered := by
  cases h with
  | accessed h => exact h.ordered hq
  | begun =>
    have hstart : ({ q with resetting := true, cause := 0 } : Part).Ordered :=
      hq.congr (fun m => by cases m <;> exact .refl _) (fun _ => rfl) rfl rfl
    have hA := hstart.cutShort (l := .A) (ops := q.doneInProgress .A) Part.doneInProgress_kept
    exact hA.cutShort (l := .B) (ops := q.doneInProgress .B) Part.doneInProgress_kept
  | emptied h => exact h.ordered

end

end Sys2Proof.Machine
end

