-- ==== Sys2Proof/Proofs/RelayEntries.lean ====
section
/-!
The Relay Table agrees with the station contexts: every command keeps the order of the loops' work (R98, R99, R100).
-/
namespace Sys2Proof.Machine

open Sys2Proof

/-! ### The criteria -/

/-- The loop is in one of the states from which it goes down. -/
def LoopState.mayGoDown (s : LoopState) : Prop := s = .running ∨ s = .rollcall ∨ s = .draining ∨ s = .quiet

theorem LoopState.mayGoDown_of_judgesCarrier {s : LoopState} (h : s.judgesCarrier = true) : s.mayGoDown := by
  unfold LoopState.mayGoDown
  cases s
  any_goals cases h
  all_goals simp

theorem LoopState.mayGoDown_of_judgesJam {s : LoopState} (h : s.judgesJam = true) : s.mayGoDown := by
  unfold LoopState.mayGoDown
  cases s
  any_goals cases h
  all_goals simp

theorem LoopState.mayGoDown_of_countsErrors {s : LoopState} (h : s.countsErrors = true) : s.mayGoDown := by
  unfold LoopState.mayGoDown
  cases s
  any_goals cases h
  all_goals simp

theorem Engine.carrierMet_state {e : Engine} {now : Nat} (h : e.carrierMet now = true) : e.ctl.state.mayGoDown := by
  unfold Engine.carrierMet at h
  rw [Bool.and_eq_true_iff, Bool.and_eq_true_iff] at h
  exact LoopState.mayGoDown_of_judgesCarrier h.1.1

theorem Engine.jamMet_state {e : Engine} {energy : Bool} {now : Nat} (h : e.jamMet energy now = true) :
    e.ctl.state.mayGoDown := by
  unfold Engine.jamMet at h
  rw [Bool.and_eq_true_iff, Bool.and_eq_true_iff, Bool.and_eq_true_iff, Bool.and_eq_true_iff] at h
  exact LoopState.mayGoDown_of_judgesJam h.1.1.1.1

theorem Engine.errorsDue_state {e : Engine} (h : e.errorsDue = true) : e.ctl.state.mayGoDown := by
  unfold Engine.errorsDue at h
  rw [Bool.and_eq_true_iff] at h
  exact LoopState.mayGoDown_of_countsErrors h.2

theorem Engine.silenceDue_state {e : Engine} (h : e.silenceDue = true) : e.ctl.state.mayGoDown := by
  unfold Engine.silenceDue at h
  rw [Bool.and_eq_true_iff, beq_iff_eq] at h
  exact .inl h.2

/-! ### The line bias and the hold of DOWN -/

theorem Part.Ordered.biasLoss {p : Part} {l : LoopId} (h : p.Ordered) : (p.biasLoss l).Ordered := by
  unfold Part.biasLoss
  exact h.modEng_same (.of_eq rfl rfl rfl rfl rfl rfl rfl)

theorem Part.Ordered.biasRestore {p : Part} {l : LoopId} (h : p.Ordered) : (p.biasRestore l).Ordered := by
  unfold Part.biasRestore
  exact h.modEng_same (.of_eq rfl rfl rfl rfl rfl rfl rfl)

theorem Part.Ordered.holdExpiry {p : Part} {l : LoopId} (h : p.Ordered) : (p.holdExpiry l).Ordered := by
  unfold Part.holdExpiry
  exact h.modEng_same (.of_eq rfl rfl rfl rfl rfl rfl rfl)

/-! ### The work of a command -/

/-- Every command keeps the order, from procedures that stand while the part runs. -/
theorem commandWork_ordered (c : Instr) (s : State) (p : Part) (h : p.Ordered) (ht : p.testOwned)
    (hw : p.live = true → ∀ l, (p.eng l).headWaits) : (commandWork c s p).Ordered := by
  have register : ∀ c, s.commandLoop c = none → (commandWork c s p).Ordered := fun c hc =>
    (commandWork_of_no_loop p hc).ordered h
  have taken : ∀ {l via code run}, (∀ r : Part, r.Ordered → r.testOwned → (r.eng l).headWaits → (run r).Ordered) →
      (p.takeCommand l via code run).Ordered := fun hrun => h.takeCommand ht (fun hlive => hw hlive _) hrun
  have event : ∀ (can : Part → Bool) (f : Part → Part), (can p = true → (f p).Ordered) → (p.loopEvent can f).Ordered :=
    fun _ _ hf => h.loopEvent fun _ => hf
  cases c with
  | start dt l via => exact taken fun r hr _ _ => hr.doStart
  | stop dt l via => exact taken fun r hr _ hwaits => hr.doStop hwaits
  | quiet dt l via => exact taken fun r hr _ hwaits => hr.doQuiet hwaits
  | wake dt l via => exact taken fun r hr _ _ => hr.doWake
  | rollcall dt l via => exact taken fun r hr _ _ => hr.doRollcall
  | retime dt l via => exact taken fun r hr _ _ => hr.doRetime
  | lineTest dt l via => exact taken fun r hr htest _ => hr.doTest htest
  | undefinedCommand dt l code via =>
    unfold commandWork
    dsimp only
    split
    · exact taken fun r hr _ _ => hr.raiseCause
    · exact h
  | biasOkLoss dt l => exact h.biasLoss
  | biasOkRestore dt l => exact h.biasRestore
  | activityStart dt l => exact h.loopStep fun _ _ => h.activityStarts
  | characterReceived dt l value stopOk => exact h.loopStep fun _ _ => h.character
  | activityEnd dt l => exact h.loopStep fun _ _ => h.endActivity
  | lineIdle dt l => exact h.loopStep fun _ _ => h.lineIdle
  | frameEnd dt l => exact h.loopStep fun _ _ => h.frameEnd
  | collision dt l => exact h.loopStep fun _ _ => h.collision
  | endOfFrame dt l => exact h.loopStep fun _ _ => h.endOfFrame
  | replyTimeout dt l underWay => exact h.loopStep fun _ _ => h.replyTimeout
  | gridPoint dt l => exact event (fun p => (p.eng l).gridDue p.now) (Part.gridPoint l) fun _ => h.gridPoint
  | boundaryTaken dt l => exact h.loopStep fun _ hc => h.boundaryTaken hc
  | announceWindowStart dt l =>
    exact event (fun p => (p.eng l).announceDue p.now) (Part.announceWindow l)
      fun _ => h.announceWindow
  | turn dt l => exact h.loopStep fun _ hc => h.nextTurn hc
  | drainSettlement dt l =>
    exact event (fun p => (p.eng l).drained) (fun q => (q.drainSettlement l).proceed l)
      fun hc => h.drainSettlement hc
  | rollAttempt dt l => exact event (fun p => (p.eng l).canRoll) (Part.rollAttempt l) fun hc => h.rollAttempt hc
  | keepaliveTimer dt l => exact event (fun p => (p.eng l).keepaliveDue p.now) (Part.keepalive l) fun _ => h.keepalive
  | carrierCriterion dt l =>
    exact h.loopStep fun hlive hc => h.enterDown (hw hlive l) (Engine.carrierMet_state hc)
  | jamCriterion dt l =>
    exact h.loopStep fun hlive hc => h.enterDown (hw hlive l) (Engine.jamMet_state hc)
  | errorsCriterion dt l =>
    exact h.loopStep fun hlive hc => h.enterDown (hw hlive l) (Engine.errorsDue_state hc)
  | silenceCriterion dt l =>
    exact h.loopStep fun hlive hc => h.enterDown (hw hlive l) (Engine.silenceDue_state hc)
  | downHoldExpiry dt l => exact event (fun p => (p.eng l).holdOver p.now) (Part.holdExpiry l) fun _ => h.holdExpiry
  | downRecovery dt l =>
    exact h.loopStep fun _ hc => h.recover (.inl (Engine.recovers_parts hc).1) (Engine.recovers_parts hc).2
  | jamRelease dt l =>
    exact h.loopStep fun _ hc => h.recover (.inr (Engine.released_parts hc).1) (Engine.released_parts hc).2
  | transferComplete dt hostWrites =>
    unfold commandWork
    dsimp only
    split
    · exact h.completeTransfer
    · exact h
  | busError dt hostWrites landed grantFirst =>
    unfold commandWork
    dsimp only
    split
    · exact h.failTransfer
    · exact h
  | _ => exact register _ rfl

/-! ### The heads of the procedures -/

/-- The heads of both procedures begin no step. -/
def Part.headsPlaced (p : Part) : Prop := ∀ l, (p.eng l).headPlaced

theorem Part.headsPlaced_of_sched {p q : Part} (h : p.headsPlaced) (hs : ∀ l, (q.eng l).sched = (p.eng l).sched) :
    q.headsPlaced := by
  intro l
  unfold Engine.headPlaced
  rw [hs]
  exact h l

theorem Part.headWaits_of_standing {p : Part} (h : p.standing) (hlive : p.live = true) (l : LoopId) :
    (p.eng l).headWaits := by
  have hsettled := h hlive l
  unfold Part.settled at hsettled
  rw [Bool.and_eq_true_iff] at hsettled
  exact Part.headWaits_of_paused hsettled.1

/-- The operation that goes on behind a DONE write begins no step. -/
theorem Part.Ordered.headsPlaced_doneCut {p : Part} {t : Transfer} (h : p.Ordered) (hh : p.headsPlaced) :
    (p.doneCut t).headsPlaced := by
  unfold Part.doneCut
  split
  · rename_i l _ _
    split
    · rename_i i k f a rest hs
      intro m
      rw [Part.modCtx_eng]
      rcases eq_or_eq_otherLoop l m with rfl | rfl
      · exact (h.does_popSched hs).doing.headPlaced (by simp)
      · unfold Part.popSched
        rw [Part.eng_modEng_other]
        exact hh _
    · exact hh
  · exact hh

/-- While the part does not run, no command brings the beginning of a step to the head of a procedure. -/
theorem commandWork_headsPlaced_of_not_live {c : Instr} {s : State} {p : Part} {l : LoopId} (hl : p.live = false)
    (hc : s.commandLoop c = some l) (h : p.Ordered) (hh : p.headsPlaced) : (commandWork c s p).headsPlaced := by
  have freed : p.freePort.headsPlaced := Part.headsPlaced_of_sched hh fun m => by rw [Part.freePort_eng]
  have changed : ∀ (l : LoopId) (f : Engine → Engine), (∀ e, (f e).sched = e.sched) → (p.modEng l f).headsPlaced :=
    fun l f hf => Part.headsPlaced_of_sched hh fun m => by
      rcases eq_or_eq_otherLoop l m with rfl | rfl
      · rw [Part.eng_modEng, hf]
      · rw [Part.eng_modEng_other]
  cases c <;> simp only [State.commandLoop, reduceCtorEq] at hc <;>
    simp only [commandWork, Part.takeCommand_of_not_live hl, Part.loopEvent_of_not_live hl,
      Part.loopStep_of_not_live hl, ite_self]
  case biasOkLoss => exact changed _ _ fun _ => rfl
  case biasOkRestore => exact changed _ _ fun _ => rfl
  case transferComplete =>
    split
    · unfold Part.completeTransfer
      rw [hl, if_neg Bool.false_ne_true]
      split
      · exact freed
      · exact h.freePort.headsPlaced_doneCut freed
    · exact hh
  case busError =>
    split
    · unfold Part.failTransfer
      rw [hl, if_neg Bool.false_ne_true]
      exact freed
    · exact hh
  all_goals exact hh

theorem RegisterWork.headsPlaced {p q : Part} (h : RegisterWork p q) (hh : p.headsPlaced) : q.headsPlaced := by
  cases h with
  | accessed h =>
    refine Part.headsPlaced_of_sched hh fun l => ?_
    obtain ⟨_, _, _, he⟩ := h.engine l
    rw [he]
  | begun =>
    have hdone : ∀ m, ∀ x ∈ (p.doneInProgress m).head?, x.beginsStep = false := fun m x hx =>
      SchedOp.beginsStep_of_calm (Part.doneInProgress_kept x (List.mem_of_mem_head? hx)).2
    intro l
    cases l with
    | A => exact hdone .A
    | B => exact hdone .B
  | emptied h =>
    intro l x hx
    rw [h.engine] at hx
    exact absurd hx (by simp [Engine.reset])

/-- The heads of the procedures begin no step: in a running part they wait, and in a reset none is carried on. -/
theorem commandWork_headsPlaced (c : Instr) (s : State) (p : Part) (h : p.Ordered) (hstands : p.standing)
    (hh : p.headsPlaced) : (commandWork c s p).headsPlaced := by
  by_cases hlive : (commandWork c s p).live = true
  · exact fun l => (Part.headWaits_of_standing (commandWork_standing c s p hstands) hlive l).headPlaced
  · rcases commandWork_cases c s p with ⟨l, b, hc, hb, hw⟩ | hwork
    · rw [hw.live, hb.live, Bool.not_eq_true] at hlive
      exact commandWork_headsPlaced_of_not_live hlive hc h hh
    · exact hwork.headsPlaced hh

/-! ### Every step -/

/-- The order of the loops' work, the claim of the test unit and the standing of the procedures: kept together. -/
def Part.inOrder (p : Part) : Prop := p.claimsExclusive ∧ p.standing ∧ p.Ordered ∧ p.headsPlaced

theorem commandWork_inOrder (c : Instr) (s : State) (p : Part) (h : p.inOrder) : (commandWork c s p).inOrder := by
  obtain ⟨hclaims, hstands, hordered, hheads⟩ := h
  exact ⟨commandWork_claimsExclusive c s p hclaims, commandWork_standing c s p hstands,
    commandWork_ordered c s p hordered hclaims.2 (Part.headWaits_of_standing hstands),
    commandWork_headsPlaced c s p hordered hstands hheads⟩

/-- The passing of time and the grant change nothing of it. -/
theorem Part.inOrder_congr {p q : Part} (h : p.inOrder) (he : ∀ l, q.eng l = p.eng l) (hc : ∀ i, q.ctx i = p.ctx i)
    (hr : q.relays = p.relays) (ht : q.testUnit = p.testUnit) (hl : q.live = p.live) : q.inOrder := by
  obtain ⟨hclaims, hstands, hordered, hheads⟩ := h
  refine ⟨Part.claimsExclusive_congr hr (congrArg TestUnit.owner ht) (fun l => by rw [he]) hclaims, fun hlive l => ?_,
    hordered.congr (fun l => by rw [he]; exact .refl _) hc hr (congrArg TestUnit.copy ht),
    Part.headsPlaced_of_sched hheads fun l => by rw [he]⟩
  exact Part.settled_same (hstands (hl ▸ hlive) l) (he l)

theorem step_inOrder {s t : State} (hs : s.part.inOrder) (h : step s = .next t) : t.part.inOrder :=
  step_keeps (P := Part.inOrder)
    (fun _ _ hp => Part.inOrder_congr hp (fun _ => Part.tick_eng ..) (fun _ => rfl) rfl rfl rfl)
    commandWork_inOrder
    (fun _ hp => Part.inOrder_congr hp (fun _ => Part.arbitrate_eng ..) (fun _ => Part.arbitrate_ctx ..)
      (Part.arbitrate_relays ..) (Part.arbitrate_testUnit ..) (Part.arbitrate_live ..)) hs h

/-- Two entries of one station would name one coupler, to which the station is bound. -/
theorem Part.Ordered.relayStationsDistinct {p : Part} (h : p.Ordered) (hcouplers : p.couplersDistinct) :
    p.relayStationsDistinct := by
  intro a b hab r hr x hx hstation
  obtain ⟨-, -, hrcoupler⟩ := h.entries a r hr
  obtain ⟨-, -, hxcoupler⟩ := h.entries b x hx
  rw [hstation, hxcoupler] at hrcoupler
  exact hcouplers a b hab r hr x hx (Option.some.inj hrcoupler).symm

/-- Settles O57: the order of the loops' work is an invariant of every command, by an induction over the acts of the
procedures; the entries agree with the contexts in it, and so are for distinct stations. -/
theorem relayEntries : Obligations.RelayEntries := by
  intro s t hcouplers htest hstands hrelays h
  obtain ⟨hordered, hheads⟩ := (Part.relaysOrdered_iff htest).mp hrelays
  obtain ⟨⟨hcouplers', htest'⟩, -, hordered', hheads'⟩ := step_inOrder ⟨⟨hcouplers, htest⟩, hstands, hordered, hheads⟩ h
  refine ⟨hordered'.relayStationsDistinct hcouplers', fun a r hr => ?_,
    (Part.relaysOrdered_iff htest').mpr ⟨hordered', hheads'⟩⟩
  obtain ⟨hhand, -⟩ := hordered'.entries a r hr
  exact hhand

end Sys2Proof.Machine
end
